-- ==== Sys2Proof/Word.lean ====
section
/-! DEFINITION. The word types of the W9 and the fields of one 96-bit instruction word (R2, R60, R61). -/

namespace Sys2Proof

/-- A 32-bit register word. -/
abbrev W32 := BitVec 32
/-- A 64-bit value, a pair of registers (R62). -/
abbrev W64 := BitVec 64
/-- One byte of memory. -/
abbrev Byte := BitVec 8
/-- A sparse map from keys to values in one canonical form: keys strictly rising, no entry at the default value.
Its operations are in Machine/Bits.lean. -/
abbrev SMap (α : Type) := List (Nat × α)

/-- One decoded 10-bit operand field (R61). -/
inductive Opd where
  | v (n : BitVec 8)     -- `0x000` to `0x0FF`
  | s (n : BitVec 6)     -- `0x100` to `0x13F`
  | latch (n : BitVec 2) -- `0x200` to `0x203`
  | lit                  -- `0x2FE`
  | zero                 -- `0x2FF`
  | imm (n : BitVec 8)   -- `0x300` to `0x3FF`
  deriving DecidableEq, Repr, Inhabited

/-- The fields of an instruction word but for its opcode (R60). MOD stays a bit vector, read through the accessors of
Machine/Operands.lean, since each opcode gives it its own layout. -/
structure InsWord where
  lit : W32
  mod : BitVec 10
  opc : Opd
  opb : Opd
  opa : Opd
  nw : Bool
  dst : Opd
  pneg : Bool
  pidx : BitVec 3
  deriving DecidableEq, Repr, Inhabited

end Sys2Proof
end

