-- ==== Sys2Proof/Machine/Bits.lean ====
section
/-! DEFINITION. Bit-field, sign-extension, byte-order and sparse-map helpers shared by every unit (R2, R22). -/

namespace Sys2Proof.Machine
open Sys2Proof

/-- The value at a key, the default when no entry is listed. -/
def SMap.get {α : Type} (d : α) : SMap α → Nat → α
  | [], _ => d
  | (k', v) :: r, k => if k = k' then v else if k < k' then d else SMap.get d r k

/-- Write one key, keeping the canonical form: writing the default removes the entry. -/
def SMap.put {α : Type} [DecidableEq α] (d : α) : SMap α → Nat → α → SMap α
  | [], k, v => if v = d then [] else [(k, v)]
  | (k', v') :: r, k, v =>
    if k < k' then (if v = d then (k', v') :: r else (k, v) :: (k', v') :: r)
    else if k = k' then (if v = d then r else (k, v) :: r)
    else (k', v') :: SMap.put d r k v

/-- Write a list of (key, value) pairs in order. -/
def SMap.putAll {α : Type} [DecidableEq α] (d : α) (m : SMap α) (l : List (Nat × α)) : SMap α :=
  l.foldl (fun m kv => SMap.put d m kv.1 kv.2) m

/-- Drop every entry with `lo ≤ key < hi`, so that the range reads as the default. -/
def SMap.clear {α : Type} (m : SMap α) (lo hi : Nat) : SMap α := m.filter (fun kv => kv.1 < lo || hi ≤ kv.1)

/-- The entries with `lo ≤ key < hi`, keys moved down by `lo`. -/
def SMap.slice {α : Type} (m : SMap α) (lo hi : Nat) : SMap α :=
  (m.filter (fun kv => lo ≤ kv.1 && kv.1 < hi)).map (fun kv => (kv.1 - lo, kv.2))

/-- The canonical form of a sparse map. -/
def SMap.wf {α : Type} [DecidableEq α] (d : α) : SMap α → Bool
  | [] => true
  | [(_, v)] => v ≠ d
  | (k, v) :: (k', v') :: r => v ≠ d && k < k' && SMap.wf d ((k', v') :: r)

/-- Replace the elements of a list that a test picks. -/
def updWhere {α : Type} (l : List α) (p : α → Bool) (f : α → α) : List α := l.map (fun a => if p a then f a else a)

/-- Replace the element at an index; a list too short is left as it is. -/
def updAt {α : Type} : List α → Nat → (α → α) → List α
  | [], _, _ => []
  | a :: r, 0, f => f a :: r
  | a :: r, n + 1, f => a :: updAt r n f

/-- The little-endian value of a list of bytes (R2). -/
def leVal : List Byte → Nat
  | [] => 0
  | b :: r => b.toNat + 256 * leVal r

/-- The `n` little-endian bytes of a value (R2). -/
def leBytes : Nat → Nat → List Byte
  | 0, _ => []
  | n + 1, x => BitVec.ofNat 8 x :: leBytes n (x / 256)

/-- The `n`-byte little-endian field at a byte offset of a structure. -/
def fld (b : List Byte) (off n : Nat) : Nat := leVal ((b.drop off).take n)

/-- Bits `[hi:lo]` of a value. -/
def bits (x hi lo : Nat) : Nat := x / 2 ^ lo % 2 ^ (hi + 1 - lo)

/-- Bit `i` of a value. -/
def bit (x i : Nat) : Bool := x / 2 ^ i % 2 = 1

/-- The low `n` bits of `x`, read as signed (R100). -/
def sext (x n : Nat) : Int :=
  let y := x % 2 ^ n
  if n ≠ 0 ∧ 2 ^ (n - 1) ≤ y then (y : Int) - (2 ^ n : Nat) else (y : Int)

/-- `Ext(x, k)`: the low `k` bits, unsigned when `u` (R100). -/
def ext (u : Bool) (x n : Nat) : Int := if u then ((x % 2 ^ n : Nat) : Int) else sext x n

/-- The `n`-bit pattern of an integer: `Wrap_n` (R22). -/
def wrapN (x : Int) (n : Nat) : Nat := (x % ((2 ^ n : Nat) : Int)).toNat

/-- `Sat_i` and `Sat_n` (R22), as `n`-bit patterns. -/
def satN (u : Bool) (x : Int) (n : Nat) : Nat :=
  let lo : Int := if u then 0 else -((2 ^ (n - 1) : Nat) : Int)
  let hi : Int := if u then ((2 ^ n : Nat) : Int) - 1 else ((2 ^ (n - 1) : Nat) : Int) - 1
  wrapN (if x < lo then lo else if hi < x then hi else x) n

/-- `Fit(x)` of R104: wrap, or saturate when `sat`. -/
def fit (u sat : Bool) (x : Int) (n : Nat) : Nat := if sat then satN u x n else wrapN x n

/-- The lanes whose bits are set in a mask, ascending, below a width. -/
def lanesOf (m : W64) (w : Nat) : List Nat := (List.range w).filter (fun l => m.getLsbD l)

/-- The mask of a list of lanes. -/
def maskOf (l : List Nat) : W64 := l.foldl (fun m i => m ||| (1#64 <<< i)) 0

/-- `Mask(WIDTH)`: lanes 0 to `WIDTH` − 1 (R169). -/
def widthMask (w : Nat) : W64 := if 64 ≤ w then BitVec.allOnes 64 else BitVec.ofNat 64 (2 ^ w - 1)

/-- The number of set bits of a value below `n`. -/
def popCount (x n : Nat) : Nat := (List.range n).countP (fun i => bit x i)

/-- The number of leading zero bits of an `n`-bit value. -/
def leadZeros (x n : Nat) : Nat := if x % 2 ^ n = 0 then n else n - 1 - (x % 2 ^ n).log2

/-- An `n`-bit value with bit i moved to n − 1 − i. -/
def bitReverse (x n : Nat) : Nat := (List.range n).foldl (fun a i => if bit x i then a + 2 ^ (n - 1 - i) else a) 0

/-- Combine two values bit by bit. -/
def bitwise3 (n : Nat) (f : Bool → Bool → Bool → Bool) (a b c : Nat) : Nat :=
  (List.range n).foldl (fun r i => if f (bit a i) (bit b i) (bit c i) then r + 2 ^ i else r) 0

/-- CRC-32 with the IEEE 802.3 polynomial, reflected, initial value and final exclusive-or all ones (R379 CHK). -/
def crc32 (b : List Byte) : W32 :=
  let step (c : W32) : W32 := if c.getLsbD 0 then (c >>> 1) ^^^ 0xEDB88320#32 else c >>> 1
  ~~~ (b.foldl (fun c x => (List.range 8).foldl (fun c _ => step c) (c ^^^ x.setWidth 32)) 0xFFFFFFFF#32)

/-- CRC-16 with polynomial `0x1021` and initial value `0xFFFF` over a flit (R422). -/
def crc16 (b : List Byte) : BitVec 16 :=
  let step (c : BitVec 16) : BitVec 16 := if c.getLsbD 15 then (c <<< 1) ^^^ 0x1021#16 else c <<< 1
  b.foldl (fun c x => (List.range 8).foldl (fun c _ => step c) (c ^^^ ((x.setWidth 16 : BitVec 16) <<< 8))) 0xFFFF#16

end Sys2Proof.Machine
end

