-- ==== Sys2Proof/Syntax.lean ====
section
/-! DEFINITION. The syntax: one constructor per row of spec/opcode_table.json. The rows with operands are instructions of
the Ilette set (R80); the rest are steps of the device's other units and of the outside world, with the data of `Arg` that says
which unit and what it brings. -/

namespace Sys2Proof

/-- The scalar float formats of `0x040` to `0x057` (R114). -/
inductive FFmt where | f32 | f16 | bf16
  deriving DecidableEq, Repr, Inhabited
/-- The element formats of R32 that `CVT` may write (R119). -/
inductive NFmt where | f32 | f16 | bf16 | e4m3 | e5m2 | i8 | n8 | i16 | n16 | i32 | n32 | i64 | n64
  deriving DecidableEq, Repr, Inhabited
/-- The plain loads of R211. -/
inductive LdKind where | i8 | n8 | i16 | n16 | b32 | b64 | b128
  deriving DecidableEq, Repr, Inhabited
/-- The plain stores of R211. -/
inductive StKind where | b8 | b16 | b32 | b64 | b128
  deriving DecidableEq, Repr, Inhabited
/-- The acquire loads and release stores of R214. -/
inductive AqKind where | b8 | b16 | b32 | b64
  deriving DecidableEq, Repr, Inhabited
/-- The uniform loads of R215. -/
inductive UcKind where | b32 | b64 | b128
  deriving DecidableEq, Repr, Inhabited
/-- The matrix forms of R316, in the order of the form index f. -/
inductive MForm where | sb4 | e4m3 | e5m2 | bf16 | f16 | i8 | e4e5 | e5e4
  deriving DecidableEq, Repr, Inhabited
/-- Who writes a device register (R332, R336, R404, R418, R442). -/
inductive Agent where
  | mgmt
  | host (port : Nat)
  | group (core slot : Nat)
  deriving DecidableEq, Repr, Inhabited
/-- The write response of R424 kind 5. -/
inductive Resp where | accepted | retry | error
  deriving DecidableEq, Repr, Inhabited
/-- The operations of R221. -/
inductive AOp where | add | min | max | and | or | xor | exch | cas | fadd
  deriving DecidableEq, Repr, Inhabited
/-- An inbound atomic or reduction (R424 kind 6, R440): address, operation, width, data, compare value, and whether it asks for the
old value. -/
structure AtomReq where
  addr : Nat
  op : AOp
  w64 : Bool
  uns : Bool
  data : W64
  cmp : W64
  ret : Bool
  deriving DecidableEq, Repr, Inhabited
/-- A pawn (R182). `win` is the index in its stream's window table of the window whose pawn it is (R356); `vc` what its
spawning group had observed (R296), by group. -/
structure Pawn where
  pc : W64
  lh : W32
  kind : Byte
  narg : Byte
  sfld : Byte
  arg : List W32
  win : Option Nat
  vc : SMap Nat
  deriving DecidableEq, Repr, Inhabited

/-- What a step of another unit brings with it: which unit, and the data. Each row reads the fields its comment in `Instr`
names. `gather` and `eng` name an engine of a field, `win` an entry of a stream's window table, `tag` an outstanding
transaction, `put` bytes by address, `lanes` the data of a load lane by lane. -/
structure Arg where
  who : Agent := .mgmt
  part : Nat := 0
  port : Nat := 0
  stack : Nat := 0
  slot : Nat := 0
  core : Nat := 0
  quarter : Nat := 0
  field : Nat := 0
  eng : Nat := 0
  ctx : Nat := 0
  win : Nat := 0
  ring : Nat := 0
  team : Nat := 0
  quad : Nat := 0
  tag : Nat := 0
  addr : Nat := 0
  len : Nat := 0
  count : Nat := 0
  tx : Nat := 0
  rx : Nat := 0
  width : Nat := 0
  speed : Nat := 0
  q : Nat := 0
  gather : Bool := false
  ok : Bool := false
  link : Bool := false
  lh : W32 := 0
  ridx : W32 := 0
  epoch : W32 := 0
  word : W32 := 0
  val : W64 := 0
  temp : W64 := 0
  pc : W64 := 0
  src : BitVec 14 := 0
  peer : BitVec 14 := 0
  kind : Byte := 0
  data : List Byte := []
  lanes : List (BitVec 128) := []
  put : List (Nat × Byte) := []
  atom : AtomReq := default
  pawn : Pawn := default
  status : Resp := .accepted
  deriving DecidableEq, Repr, Inhabited

/-- One constructor per row of the opcode table; the rule named is the row's. The steps of the other units carry no
operands of their own: `State.arg` holds theirs, and the fields each reads stand beside it. -/
inductive Instr where
  | nop  -- R76
  | iadd (w64 : Bool) (x : InsWord)  -- R104
  | isub (w64 : Bool) (x : InsWord)  -- R104
  | imul (w64 : Bool) (x : InsWord)  -- R104
  | imulh (w64 : Bool) (x : InsWord)  -- R104
  | imad (w64 : Bool) (x : InsWord)  -- R104
  | idiv (w64 : Bool) (x : InsWord)  -- R104
  | irem (w64 : Bool) (x : InsWord)  -- R104
  | imin (w64 : Bool) (x : InsWord)  -- R104
  | imax (w64 : Bool) (x : InsWord)  -- R104
  | iabs (w64 : Bool) (x : InsWord)  -- R104
  | and (w64 : Bool) (x : InsWord)  -- R105
  | or (w64 : Bool) (x : InsWord)  -- R105
  | xor (w64 : Bool) (x : InsWord)  -- R105
  | bfn3 (w64 : Bool) (x : InsWord)  -- R105
  | shl (w64 : Bool) (x : InsWord)  -- R106
  | shr (w64 : Bool) (x : InsWord)  -- R106
  | sar (w64 : Bool) (x : InsWord)  -- R106
  | rot (w64 : Bool) (x : InsWord)  -- R106
  | fsh (w64 : Bool) (x : InsWord)  -- R106
  | clz (w64 : Bool) (x : InsWord)  -- R107
  | popc (w64 : Bool) (x : InsWord)  -- R107
  | brev (w64 : Bool) (x : InsWord)  -- R107
  | bfe (w64 : Bool) (x : InsWord)  -- R108
  | bfi (w64 : Bool) (x : InsWord)  -- R108
  | sel (w64 : Bool) (x : InsWord)  -- R109
  | icmp (w64 : Bool) (x : InsWord)  -- R110
  | iset (w64 : Bool) (x : InsWord)  -- R110
  | lea (w64 : Bool) (x : InsWord)  -- R111
  | mov (w64 : Bool) (x : InsWord)  -- R112
  | movl (w64 : Bool) (x : InsWord)  -- R112
  | fadd (f : FFmt) (x : InsWord)  -- R116
  | fmul (f : FFmt) (x : InsWord)  -- R116
  | ffma (f : FFmt) (x : InsWord)  -- R116
  | fmin (f : FFmt) (x : InsWord)  -- R117
  | fmax (f : FFmt) (x : InsWord)  -- R117
  | fcmp (f : FFmt) (x : InsWord)  -- R118
  | fset (f : FFmt) (x : InsWord)  -- R118
  | frnd (f : FFmt) (x : InsWord)  -- R117
  | cvt (d : NFmt) (x : InsWord)  -- R120
  | exp2 (acc : Bool) (x : InsWord)  -- R127
  | log2 (acc : Bool) (x : InsWord)  -- R127
  | rcp (acc : Bool) (x : InsWord)  -- R127
  | rsq (acc : Bool) (x : InsWord)  -- R127
  | sqrt (acc : Bool) (x : InsWord)  -- R127
  | sin (acc : Bool) (x : InsWord)  -- R130
  | cos (acc : Bool) (x : InsWord)  -- R130
  | tanh (acc : Bool) (x : InsWord)  -- R127
  | sigm (acc : Bool) (x : InsWord)  -- R127
  | gelu (acc : Bool) (x : InsWord)  -- R127
  | silu (acc : Bool) (x : InsWord)  -- R127
  | erf (acc : Bool) (x : InsWord)  -- R127
  | exp2Bf2 (x : InsWord)  -- R131
  | rcpBf2 (x : InsWord)  -- R131
  | rsqBf2 (x : InsWord)  -- R131
  | tanhBf2 (x : InsWord)  -- R131
  | sigmBf2 (x : InsWord)  -- R131
  | geluBf2 (x : InsWord)  -- R131
  | siluBf2 (x : InsWord)  -- R131
  | erfBf2 (x : InsWord)  -- R131
  | add2h (half : Bool) (x : InsWord)  -- R121
  | mul2h (half : Bool) (x : InsWord)  -- R121
  | fma2h (half : Bool) (x : InsWord)  -- R121
  | min2h (half : Bool) (x : InsWord)  -- R121
  | max2h (half : Bool) (x : InsWord)  -- R121
  | cmp2h (half : Bool) (x : InsWord)  -- R122
  | dot4 (uns : Bool) (x : InsWord)  -- R123
  | dot8 (uns : Bool) (x : InsWord)  -- R123
  | dot2 (half : Bool) (x : InsWord)  -- R124
  | cvtPk2 (half : Bool) (x : InsWord)  -- R125
  | cvtPk4 (e5 : Bool) (x : InsWord)  -- R125
  | cvtUnpk (x : InsWord)  -- R126
  | shflAt (w64 : Bool) (x : InsWord)  -- R140
  | shflLo (w64 : Bool) (x : InsWord)  -- R140
  | shflHi (w64 : Bool) (x : InsWord)  -- R140
  | shflFlip (w64 : Bool) (x : InsWord)  -- R140
  | voteEvery (x : InsWord)  -- R142
  | voteSome (x : InsWord)  -- R142
  | voteSame (x : InsWord)  -- R142
  | voteMask (x : InsWord)  -- R142
  | matchPeers (w64 : Bool) (x : InsWord)  -- R144
  | matchUnan (w64 : Bool) (x : InsWord)  -- R144
  | reduxAdd (x : InsWord)  -- R146
  | reduxMin (x : InsWord)  -- R146
  | reduxMax (x : InsWord)  -- R146
  | reduxAnd (x : InsWord)  -- R146
  | reduxOr (x : InsWord)  -- R146
  | reduxXor (x : InsWord)  -- R146
  | reduxFadd (x : InsWord)  -- R146
  | reduxFmin (x : InsWord)  -- R146
  | reduxFmax (x : InsWord)  -- R146
  | scanInc (x : InsWord)  -- R147
  | scanExc (x : InsWord)  -- R147
  | cmpr (x : InsWord)  -- R148
  | expd (x : InsWord)  -- R149
  | xbar (x : InsWord)  -- R155
  | xpld (x : InsWord)  -- R153
  | laneid (x : InsWord)  -- R150
  | bra (x : InsWord)  -- R167
  | braNone (x : InsWord)  -- R167
  | braAny (x : InsWord)  -- R167
  | braAll (x : InsWord)  -- R167
  | brx (x : InsWord)  -- R167
  | call (x : InsWord)  -- R167
  | callx (x : InsWord)  -- R167
  | ret (x : InsWord)  -- R167
  | exit (x : InsWord)  -- R168
  | emrd (x : InsWord)  -- R169
  | emwr (x : InsWord)  -- R169
  | pset (x : InsWord)  -- R170
  | plop (x : InsWord)  -- R170
  | acqh (x : InsWord)  -- R164
  | relh (x : InsWord)  -- R164
  | yield (x : InsWord)  -- R171
  | trap (x : InsWord)  -- R173
  | req (x : InsWord)  -- R173
  | bpt (x : InsWord)  -- R175
  | ld (k : LdKind) (x : InsWord)  -- R212
  | st (k : StKind) (x : InsWord)  -- R212
  | fence (x : InsWord)  -- R223
  | fenceX (x : InsWord)  -- R303
  | ldAcq (k : AqKind) (x : InsWord)  -- R214
  | stRel (k : AqKind) (x : InsWord)  -- R214
  | lds (x : InsWord)  -- R216
  | stq (x : InsWord)  -- R217
  | ldmt (b8 : Bool) (x : InsWord)  -- R218
  | ldc (k : UcKind) (x : InsWord)  -- R215
  | atomAdd (w64 : Bool) (x : InsWord)  -- R221
  | atomMin (w64 : Bool) (x : InsWord)  -- R221
  | atomMax (w64 : Bool) (x : InsWord)  -- R221
  | atomAnd (w64 : Bool) (x : InsWord)  -- R221
  | atomOr (w64 : Bool) (x : InsWord)  -- R221
  | atomXor (w64 : Bool) (x : InsWord)  -- R221
  | atomExch (w64 : Bool) (x : InsWord)  -- R221
  | atomCas (w64 : Bool) (x : InsWord)  -- R221
  | atomFadd (x : InsWord)  -- R221
  | redAdd (w64 : Bool) (x : InsWord)  -- R221
  | redMin (w64 : Bool) (x : InsWord)  -- R221
  | redMax (w64 : Bool) (x : InsWord)  -- R221
  | redAnd (w64 : Bool) (x : InsWord)  -- R221
  | redOr (w64 : Bool) (x : InsWord)  -- R221
  | redXor (w64 : Bool) (x : InsWord)  -- R221
  | redFadd (x : InsWord)  -- R221
  | binit (x : InsWord)  -- R238
  | arrive (x : InsWord)  -- R239
  | expect (x : InsWord)  -- R240
  | waitph (x : InsWord)  -- R241
  | btest (x : InsWord)  -- R242
  | binv (x : InsWord)  -- R243
  | rkacq (x : InsWord)  -- R251
  | rkrel (x : InsWord)  -- R252
  | mma (f : MForm) (x : InsWord)  -- R317
  | mmaz (f : MForm) (x : InsWord)  -- R317
  | accmvRd (x : InsWord)  -- R322
  | accmvWr (x : InsWord)  -- R322
  | mmaw (x : InsWord)  -- R321
  | spawn (x : InsWord)  -- R187
  | spawnFld (x : InsWord)  -- R187
  | fetchw (x : InsWord)  -- R189
  | emitr (x : InsWord)  -- R370
  | winf (x : InsWord)  -- R372
  | kick (x : InsWord)  -- R337
  | qstat (x : InsWord)  -- R339
  | park (x : InsWord)  -- R366
  | die (x : InsWord)  -- R367
  | repack (x : InsWord)  -- R369
  | cpyGo (reply : Bool) (x : InsWord)  -- R257
  | cpySt (reply : Bool) (x : InsWord)  -- R258
  | cpyAbt (reply : Bool) (x : InsWord)  -- R259
  | gthGo (reply : Bool) (x : InsWord)  -- R257
  | gthSt (reply : Bool) (x : InsWord)  -- R258
  | gthAbt (reply : Bool) (x : InsWord)  -- R259
  | rowProm (reply : Bool) (x : InsWord)  -- R410
  | rowDem (reply : Bool) (x : InsWord)  -- R410
  | rowPin (reply : Bool) (x : InsWord)  -- R410
  | rowUnpin (reply : Bool) (x : InsWord)  -- R410
  | rowCopy (reply : Bool) (x : InsWord)  -- R411
  | rowInit (reply : Bool) (x : InsWord)  -- R412
  | winWmark (reply : Bool) (x : InsWord)  -- R373
  | winFlush (reply : Bool) (x : InsWord)  -- R374
  | lnkArr (reply : Bool) (x : InsWord)  -- R433
  | lnkMsg (reply : Bool) (x : InsWord)  -- R433
  | segld (x : InsWord)  -- R394
  | mfsr (x : InsWord)  -- R395
  | mtsr (x : InsWord)  -- R395
  | tlbinvPg (x : InsWord)  -- R396
  | tlbinvCtx (x : InsWord)  -- R396
  | tlbinvAll (x : InsWord)  -- R396
  | rft (x : InsWord)  -- R397
  | halt (x : InsWord)  -- R397
  | ctxsvFill (x : InsWord)  -- R397
  | ctxsvSwap (x : InsWord)  -- R397
  | ctxsvEvict (x : InsWord)  -- R397
  | wake (x : InsWord)  -- R399
  | ptldLk (x : InsWord)  -- R400
  | ptldUn (x : InsWord)  -- R400
  | qcbld (x : InsWord)  -- R340
  | qcbst (x : InsWord)  -- R341
  | mbxrd (x : InsWord)  -- R399
  | dump (x : InsWord)  -- R398
  | pfxW (lit : W32)  -- R72
  | pfxL (lit : W32)  -- R72
  | pfxLHi (lit : W32)  -- R72
  | unassignedOpcode (op : BitVec 9)  -- R81
  | deviceReset  -- R445
  | rcmdInstallA  -- R449
  | rcmdInstallB  -- R449
  | rcmdAttest  -- R449
  | recoveryInstallDone  -- R449: ok
  | recoveryResetTimer  -- R449
  | clockStepDown  -- R448: val, temp
  | clockStepUp  -- R448: val, temp
  | thermalTrip  -- R448: temp
  | devidWrite  -- R446: who, val
  | rollminWrite  -- R447: who, val
  | drvfeatWrite  -- R450: who, part, val
  | atctlGo  -- R452: who, part, val
  | attestReportDone  -- R452: part
  | sbarWrite  -- R336: who, part, val
  | hbarWrite  -- R385: who, part, val
  | tickWrite  -- R335: who, part, val
  | scfgWrite  -- R404: who, stack, val
  | linkEnable  -- R419: port
  | linkDisable  -- R419: port
  | linkQuiesce  -- R419: port
  | linkRetrain  -- R418: port
  | registerWrite  -- R5: who, addr, len, val
  | doorbellWrite  -- R337: port, part, q, word
  | schedTick  -- R336: part
  | slotDeadline  -- R333: slot
  | slotBudgetExhausted  -- R333: slot
  | packetNop  -- R328: slot
  | packetLaunch  -- R328: slot
  | packetCopy  -- R328: slot
  | packetWaitmem  -- R328: slot
  | packetSignal  -- R328: slot
  | packetFence  -- R329: slot
  | waitmemRecheck  -- R328: slot, ridx
  | waitmemTimeout  -- R330: slot, ridx
  | signalDone  -- R328: slot, ridx, ok
  | teamAdmit  -- R181: lh
  | groupRetire  -- R158: core, slot
  | tailorStart  -- R160: core
  | groupAged  -- R162: core, slot
  | hintDeferralTimeout  -- R164: part
  | lineFetch  -- R56: core, slot
  | pageWalkDone  -- R203: ctx, addr
  | loadDataReturn  -- R211: tag, lanes
  | hostLoadTimeout  -- R225: tag
  | hostStoreFailure  -- R226: tag
  | remoteAccessTimeout  -- R227: tag
  | fetchwReply  -- R189
  | pawnArrival  -- R183: field, pawn
  | pawnGroupDispatch  -- R183: field, lh, pc
  | gatherTimeout  -- R183: field, lh, pc
  | quadRendezvous  -- R310: team, quad
  | mmaBegin  -- R319: core, quarter
  | mmaComplete  -- R319: core, quarter
  | jobTake  -- R264: gather, field, eng
  | subchunkBoundary  -- R265: gather, field, eng
  | chunkBoundary  -- R266: gather, field, eng
  | engineRackClaim  -- R278: gather, field, eng
  | engineRackWaitEnd  -- R253: gather, field, eng
  | ingressPoll  -- R346: lh
  | ingressDataRecord  -- R346: lh
  | controlWatermark  -- R349: lh
  | controlFlush  -- R361: lh
  | controlMalformed  -- R348: lh
  | windowPawnSend  -- R356: lh, win
  | ingressResume  -- R363: lh
  | dormancyDemote  -- R364: lh, addr
  | egressRearm  -- R371: lh, ring
  | rowPromoteDone  -- R405: stack, addr
  | rowWritebackDone  -- R405: stack, addr
  | epochTick  -- R406: stack
  | rowJobDone  -- R413: stack
  | linkTrained  -- R419: port, tx, rx, peer, epoch
  | linkTrainingFail  -- R419: port
  | laneLoss  -- R419: port, tx, rx
  | portFailed  -- R421: port
  | quiesceDrained  -- R419: port
  | flitRetransmit  -- R423: port, count
  | linkRxReadRequest  -- R425: src, tag, addr, len
  | linkRxReadCompletion  -- R424: tag, ok, lanes
  | linkRxPostedWrite  -- R425: src, put
  | linkRxNonpostedWrite  -- R425: src, tag, put
  | linkRxWriteResponse  -- R424: tag, status
  | linkRxAtomic  -- R425: src, tag, atom
  | linkRxAtomicCompletion  -- R424: tag, ok, val
  | linkRxArrival  -- R434: src, tag, val, word
  | linkRxMessage  -- R435: src, tag, part, data
  | linkRxShootdown  -- R435: src, tag, ctx, kind, val
  | linkRxEpochReport  -- R437: port, epoch
  | linkRxUnknownKind  -- R424: port, kind
  | linkRxMisrouted  -- R428: port, src
  | linkRetryResend  -- R432: tag
  | linkTimeout  -- R432: tag
  | pcieBar0Write  -- R442: port, addr, len, val
  | pcieBar2Request  -- R442: port, addr, len, data
  | pcieAtomicop  -- R440: port, atom
  | hostWarmRestart  -- R439: link, ctx
  | contextStopped  -- R384: ctx
  | swapProceed  -- R381: part
  | spillDone  -- R382: ctx
  | fillDone  -- R380: ctx
  | recovery  -- R391
  | updatePerformed  -- R222: tag
  | portLinkDown  -- R225: port
  | portLinkUp  -- R441: port, width, speed
  deriving DecidableEq, Repr, Inhabited

end Sys2Proof
end

