-- ==== Sys2Proof/Machine/Numbers.lean ====
section
/-! DEFINITION. Number formats and arithmetic order (02_numbers.md): exact values, one rounding, SB4 blocks, the
quantising selection, matrix sums and reductions. -/

namespace Sys2Proof.Machine
open Sys2Proof

/-- A floating-point format (R24): field widths, bias, the code of the largest finite value, of infinity if any, of the
canonical NaN. -/
structure Fmt where
  mbits : Nat
  ebits : Nat
  bias : Nat
  maxCode : Nat
  infCode : Option Nat
  nanCode : Nat
  deriving DecidableEq, Repr, Inhabited

def fmtF32 : Fmt := ⟨23, 8, 127, 0x7F7FFFFF, some 0x7F800000, 0x7FC00000⟩
def fmtF16 : Fmt := ⟨10, 5, 15, 0x7BFF, some 0x7C00, 0x7E00⟩
def fmtBf16 : Fmt := ⟨7, 8, 127, 0x7F7F, some 0x7F80, 0x7FC0⟩
def fmtE5m2 : Fmt := ⟨2, 5, 15, 0x7B, some 0x7C, 0x7E⟩
def fmtE4m3 : Fmt := ⟨3, 4, 7, 0x7E, none, 0x7F⟩
/-- binary64, which only the fingerprint uses (R32, R277). -/
def fmtF64 : Fmt := ⟨52, 11, 1023, 0x7FEFFFFFFFFFFFFF, some 0x7FF0000000000000, 0x7FF8000000000000⟩

/-- An exact value: `fin neg m e` is (−1)^neg · m · 2^e, signed zeros included (R7, R28). -/
inductive FVal where
  | nan
  | inf (neg : Bool)
  | fin (neg : Bool) (m : Nat) (e : Int)
  deriving DecidableEq, Repr, Inhabited

/-- The value of a code in a format (R24); codes above infinity, or e4m3's one pattern, are NaN. -/
def FVal.decode (F : Fmt) (code : Nat) : FVal :=
  let c := code % 2 ^ (F.mbits + F.ebits)
  let neg := bit code (F.mbits + F.ebits)
  let E := c / 2 ^ F.mbits
  let M := c % 2 ^ F.mbits
  if F.maxCode < c then (if F.infCode = some c then .inf neg else .nan)
  else if E = 0 then .fin neg M (1 - (F.bias : Int) - (F.mbits : Int))
  else .fin neg (M + 2 ^ F.mbits) ((E : Int) - (F.bias : Int) - (F.mbits : Int))

/-- Round the magnitude m · 2^e to a multiple of 2^q, as a count of 2^q (R26: 0 RN, 1 RZ, 2 RU, 3 RD, 4 RNA). -/
def roundMag (mode : Nat) (neg : Bool) (m : Nat) (e q : Int) : Nat :=
  if q ≤ e then m * 2 ^ (e - q).toNat
  else
    let d := 2 ^ (q - e).toNat
    let r := m / d
    let rem := m % d
    let up : Bool := match mode with
      | 0 => decide (d < 2 * rem) || (decide (2 * rem = d) && decide (r % 2 = 1))
      | 2 => !neg && decide (rem ≠ 0)
      | 3 => neg && decide (rem ≠ 0)
      | 4 => decide (d ≤ 2 * rem)
      | _ => false
    if up then r + 1 else r

/-- A code with its sign (R24). -/
def withSign (F : Fmt) (neg : Bool) (code : Nat) : Nat := if neg then code + 2 ^ (F.mbits + F.ebits) else code

/-- An infinite result: largest finite under SAT, else infinity, or NaN in e4m3 (R27). -/
def infResult (F : Fmt) (sat neg : Bool) : Nat :=
  if sat then withSign F neg F.maxCode
  else match F.infCode with
    | some c => withSign F neg c
    | none => F.nanCode

/-- `Round(x, F, mode)` with `.SAT` (R27), as a code. -/
def roundF (F : Fmt) (mode : Nat) (sat : Bool) : FVal → Nat
  | .nan => F.nanCode
  | .inf neg => infResult F sat neg
  | .fin neg m e =>
    if m = 0 then withSign F neg 0
    else
      let qmin : Int := 1 - (F.bias : Int) - (F.mbits : Int)
      let q0 : Int := (m.log2 : Int) + e - (F.mbits : Int)
      let q := if q0 < qmin then qmin else q0
      let r := roundMag mode neg m e q
      let code := (q - qmin).toNat * 2 ^ F.mbits + r
      if F.maxCode < code then
        match mode, neg with
        | 1, _ => withSign F neg F.maxCode
        | 2, true => withSign F neg F.maxCode
        | 3, false => withSign F neg F.maxCode
        | _, _ => infResult F sat neg
      else withSign F neg code

/-- A code that is a nonzero subnormal (R29). -/
def isSubnormal (F : Fmt) (code : Nat) : Bool :=
  let c := code % 2 ^ (F.mbits + F.ebits)
  decide (0 < c) && decide (c < 2 ^ F.mbits)

/-- Flush a subnormal code to zero with its sign (R29). -/
def flush (F : Fmt) (ftz : Bool) (code : Nat) : Nat :=
  if ftz && isSubnormal F code then withSign F (bit code (F.mbits + F.ebits)) 0 else code

/-- `Res(t)` of R115. -/
def resF (F : Fmt) (mode : Nat) (ftz sat : Bool) (t : FVal) : Nat := flush F ftz (roundF F mode sat t)

def FVal.neg : FVal → FVal
  | .nan => .nan
  | .inf s => .inf (!s)
  | .fin s m e => .fin (!s) m e

def FVal.abs : FVal → FVal
  | .nan => .nan
  | .inf _ => .inf false
  | .fin _ m e => .fin false m e

def FVal.isNan : FVal → Bool
  | .nan => true
  | _ => false

def FVal.isInf : FVal → Bool
  | .inf _ => true
  | _ => false

def FVal.sign : FVal → Bool
  | .nan => false
  | .inf s => s
  | .fin s _ _ => s

def FVal.isZero : FVal → Bool
  | .fin _ 0 _ => true
  | _ => false

/-- The exact product (R28, R116: ∞·0 is NaN). -/
def FVal.mul : FVal → FVal → FVal
  | .nan, _ => .nan
  | _, .nan => .nan
  | .inf s, .inf t => .inf (s != t)
  | .inf s, .fin t m _ => if m = 0 then .nan else .inf (s != t)
  | .fin s m _, .inf t => if m = 0 then .nan else .inf (s != t)
  | .fin s m e, .fin t n f => .fin (s != t) (m * n) (e + f)

/-- The signed integer of a finite value, in units of 2^q for q at or below its exponent. -/
def FVal.scaled (q : Int) : FVal → Int
  | .fin s m e => (if s then -1 else 1) * ((m * 2 ^ (e - q).toNat : Nat) : Int)
  | _ => 0

/-- The least exponent of a list of values. -/
def minExp (l : List FVal) : Int := l.foldl (fun q v => match v with | .fin _ _ e => if e < q then e else q | _ => q) 0

/-- The exact sum of a list of terms (R28 for zero signs, R116 for infinities). -/
def FVal.sum (mode : Nat) (l : List FVal) : FVal :=
  if l.any FVal.isNan then .nan
  else if l.any FVal.isInf then
    if l.any (fun v => v.isInf && v.sign) && l.any (fun v => v.isInf && !v.sign) then .nan
    else .inf (l.any (fun v => v.isInf && v.sign))
  else
    let q := minExp l
    let t : Int := l.foldl (fun a v => a + v.scaled q) 0
    if t = 0 then
      if l.all FVal.sign then .fin (!l.isEmpty) 0 0
      else if l.all (fun v => !v.sign) then .fin false 0 0
      else .fin (mode == 3) 0 0
    else .fin (decide (t < 0)) t.natAbs q

/-- The order of two values; none when either is NaN. +0 equals −0. -/
def FVal.cmp (a b : FVal) : Option Ordering :=
  match a, b with
  | .nan, _ => none
  | _, .nan => none
  | .inf s, .inf t => some (if s = t then .eq else if s then .lt else .gt)
  | .inf s, _ => some (if s then .lt else .gt)
  | _, .inf t => some (if t then .gt else .lt)
  | x, y =>
    let q := minExp [x, y]
    some (compare (x.scaled q) (y.scaled q))

/-- minimumNumber and maximumNumber (R30), as codes of one format. -/
def minMaxF (F : Fmt) (isMax : Bool) (a b : Nat) : Nat :=
  let x := FVal.decode F a
  let y := FVal.decode F b
  if x.isNan then (if y.isNan then F.nanCode else b)
  else if y.isNan then a
  else match x.cmp y with
    | some .lt => if isMax then b else a
    | some .gt => if isMax then a else b
    | _ => if x.sign == isMax then b else a

/-- An exact value rounded to an integer by a mode (R31, R117). -/
def roundInt (mode : Nat) (neg : Bool) (m : Nat) (e : Int) : Int :=
  (if neg then -1 else 1) * ((roundMag mode neg m e (if e < 0 then 0 else e) * 2 ^ e.toNat : Nat) : Int)

/-- The format of a scalar float opcode (R114). -/
def ffmt : FFmt → Fmt
  | .f32 => fmtF32
  | .f16 => fmtF16
  | .bf16 => fmtBf16

/-- The R32 code of a `CVT` destination (R119). -/
def nfmtCode : NFmt → Nat
  | .f32 => 0 | .f16 => 1 | .bf16 => 2 | .e4m3 => 3 | .e5m2 => 4 | .i8 => 8 | .n8 => 9 | .i16 => 10 | .n16 => 11
  | .i32 => 12 | .n32 => 13 | .i64 => 14 | .n64 => 15

/-- The format an R32 code names; none for sb4 and the reserved codes. -/
def nfmtOfCode : Nat → Option NFmt
  | 0 => some .f32 | 1 => some .f16 | 2 => some .bf16 | 3 => some .e4m3 | 4 => some .e5m2 | 8 => some .i8
  | 9 => some .n8 | 10 => some .i16 | 11 => some .n16 | 12 => some .i32 | 13 => some .n32 | 14 => some .i64
  | 15 => some .n64 | _ => none

/-- The float format of an element format, or its integer width and signedness. -/
def nfmtKind : NFmt → Fmt ⊕ (Nat × Bool)
  | .f32 => .inl fmtF32 | .f16 => .inl fmtF16 | .bf16 => .inl fmtBf16 | .e4m3 => .inl fmtE4m3 | .e5m2 => .inl fmtE5m2
  | .i8 => .inr (8, false) | .n8 => .inr (8, true) | .i16 => .inr (16, false) | .n16 => .inr (16, true)
  | .i32 => .inr (32, false) | .n32 => .inr (32, true) | .i64 => .inr (64, false) | .n64 => .inr (64, true)

/-- The formats under which FTZ acts (R29). -/
def ftzFmt (F : Fmt) : Bool := F = fmtF32 || F = fmtF16 || F = fmtBf16

/-- FTZ of a conversion: in force when its source or its destination is f32, f16 or bf16 (R29). -/
def ftzConv (src dst : NFmt) : Bool :=
  (match nfmtKind src with | .inl F => ftzFmt F | _ => false) || (match nfmtKind dst with | .inl F => ftzFmt F | _ => false)

/-- `Convert(x, dst, RND, SAT)` with the source read by Src and, for a float result, passed through Res (R31, R120). A
narrow integer result is extended by its own signedness to 32 bits, as R120 places it. -/
def convert (src dst : NFmt) (mode : Nat) (ftz sat : Bool) (x : Nat) : Nat :=
  let fz := ftz && ftzConv src dst
  match nfmtKind src, nfmtKind dst with
  | .inl F, .inl G =>
    let y := flush F fz (x % 2 ^ (F.mbits + F.ebits + 1))
    flush G fz (roundF G mode sat (FVal.decode F y))
  | .inl F, .inr (n, u) =>
    let y := flush F fz (x % 2 ^ (F.mbits + F.ebits + 1))
    let r := match FVal.decode F y with
      | .nan => 0
      | .inf s => satN u (if s then -((2 ^ 64 : Nat) : Int) else ((2 ^ 64 : Nat) : Int)) n
      | .fin s m e => satN u (roundInt mode s m e) n
    wrapN (ext u r n) (if n < 32 then 32 else n)
  | .inr (k, u), .inl G =>
    let v := ext u x k
    flush G fz (roundF G mode sat (.fin (decide (v < 0)) v.natAbs 0))
  | .inr (k, u), .inr (n, w) => wrapN (ext w (fit w sat (ext u x k) n) n) (if n < 32 then 32 else n)

/-- RN of a value to f32, as a code. -/
def rnF32 (v : FVal) : Nat := roundF fmtF32 0 false v

/-- The value of an f32, bf16 code. -/
def f32v (c : Nat) : FVal := FVal.decode fmtF32 c
def bf16v (c : Nat) : FVal := FVal.decode fmtBf16 c

/-! ## SB4 blocks (R34 to R40) -/

/-- The integer level q of a code under a selector (R34). -/
def sb4Level (sel code : Nat) : Int :=
  match sel with
  | 0 => [0, 1, 2, 3, 4, 6, 8, 12, 0, -1, -2, -3, -4, -6, -8, -12].getD code 0
  | 1 => [0, 1, 2, 3, 4, 5, 6, 7, -8, -7, -6, -5, -4, -3, -2, -1].getD code 0
  | 2 => [-16, -12, -9, -7, -5, -3, -2, -1, 0, 1, 2, 3, 5, 7, 10, 14].getD code 0
  | _ => [0, 1, 2, 4, 8, 16, 32, 64, 0, -1, -2, -4, -8, -16, -32, -64].getD code 0

/-- The level exponent λ_s (R34). -/
def sb4Lambda (sel : Nat) : Int := [-1, 0, -4, -6].getD sel 0

/-- The maximum magnitude used for scaling L_s (R34). -/
def sb4L (sel : Nat) : Nat := [6, 7, 1, 1].getD sel 1

/-- The selector a cuff names; none when the cuff is corrupt (R36, R37). -/
def cuffSel (cuff : Nat) : Option Nat :=
  if bits cuff 15 12 ≠ 0 then none
  else match bits cuff 11 8 with
    | 0x3 => some 0
    | 0x6 => some 1
    | 0x9 => some 2
    | 0xC => some 3
    | _ => none

/-- The selector codeword (s1, s0, ¬s1, ¬s0) (R36). -/
def codeword (sel : Nat) : Nat := [0x3, 0x6, 0x9, 0xC].getD sel 0

/-- The E3M5 scale of a code in units of 2^−8 (R35). -/
def e3m5 (c : Nat) : Nat := if c / 32 % 8 = 0 then c % 32 else (32 + c % 32) * 2 ^ (c / 32 % 8 - 1)

/-- `Decode(code, cuff, band)` for a cuff that is not corrupt (R40); the band is a bf16 code. -/
def sb4Decode (sel code cuff band : Nat) : FVal :=
  let q := sb4Level sel code
  ((FVal.fin (decide (q < 0)) (q.natAbs * e3m5 (cuff % 256)) (sb4Lambda sel - 8)).mul (bf16v band))

/-! ## The quantising selection (R41) -/

/-- A finite value as an integer multiple of 2^−200, exact for every f32 and for every product of a scale and a level. -/
def q200 (v : FVal) : Int := v.scaled (-200)

/-- One encoding's scale code, codes and error for eight scaled inputs, in units of 2^−200 (R41). -/
def quantiseWith (sel : Nat) (z : List Int) : Nat × List Nat × Int :=
  let M := z.foldl (fun a x => max a x.natAbs) 0
  let unit := 2 ^ 192
  let sc := ((List.range 256).find? (fun c => decide (M ≤ e3m5 c * unit * sb4L sel))).getD 255
  let lvl (c : Nat) : Int := sb4Level sel c * ((e3m5 sc * 2 ^ (192 + sb4Lambda sel).toNat : Nat) : Int)
  let best (x : Int) : Nat :=
    (List.range 16).foldl (fun b c =>
      let db := (x - lvl b).natAbs
      let dc := (x - lvl c).natAbs
      if dc < db ∨ (dc = db ∧ (sb4Level sel c).natAbs < (sb4Level sel b).natAbs) then c else b) 0
  let cs := z.map best
  (sc, cs, (List.zipWith (fun x c => (x - lvl c) * (x - lvl c)) z cs).foldl (· + ·) 0)

/-- `QuantiseBlock(x[0..7], binv, mask, sat)` (R41): none for a quantise fault, else the 32 code bits and the cuff. -/
def quantiseBlock (x : List Nat) (binv mask : Nat) (sat : Bool) : Option (Nat × Nat) :=
  let y := x.map (fun a => f32v (rnF32 ((f32v a).mul (f32v binv))))
  if !sat && y.any (fun v => v.isNan || v.isInf) then none
  else
    let allowed := if mask % 16 = 0 then 15 else mask % 16
    let cands := ((List.range 4).filter (fun e => bit allowed e)).map (fun e =>
      let z := y.map (fun v => match v with
        | .nan => 0
        | .inf s => (if s then -1 else 1) * ((252 * sb4L e * 2 ^ 196 : Nat) : Int)
        | w => q200 w)
      (e, quantiseWith e z))
    let win := cands.foldl (fun b c => match b with
      | none => some c
      | some w => if c.2.2.2 < w.2.2.2 then some c else some w) none
    win.map (fun w =>
      ((List.zipIdx w.2.2.1).foldl (fun a ci => a + ci.1 * 16 ^ ci.2) 0, codeword w.1 * 256 + w.2.1))

/-! ## Matrix arithmetic order (R43 to R47) -/

/-- The position above the leading bit of a nonzero finite value: Floor(Log2 |t|) + 1 (R44). -/
def topBit : FVal → Int
  | .fin _ m e => (m.log2 : Int) + e + 1
  | _ => 0

/-- `GroupSum` of R44 over finite terms, as an f32 code. -/
def groupSum (terms : List FVal) : Nat :=
  let nz := terms.filter (fun t => !t.isZero)
  match nz with
  | [] => 0
  | t0 :: r =>
    let E := r.foldl (fun a t => max a (topBit t)) (topBit t0)
    let u := E - 36
    let tr (t : FVal) : Int := match t with
      | .fin s m e => (if s then -1 else 1) * ((if u ≤ e then m * 2 ^ (e - u).toNat else m / 2 ^ (u - e).toNat : Nat) : Int)
      | _ => 0
    let s := nz.foldl (fun a t => a + tr t) 0
    if s = 0 then 0 else rnF32 (.fin (decide (s < 0)) s.natAbs u)

/-- The group sum with the special values of R46: a NaN term gives NaN, infinities of one sign that infinity, of both
signs NaN. -/
def groupSumX (terms : List FVal) : FVal :=
  if terms.any FVal.isNan then .nan
  else if terms.any FVal.isInf then
    if terms.any (fun v => v.isInf && v.sign) && terms.any (fun v => v.isInf && !v.sign) then .nan
    else .inf (terms.any (fun v => v.isInf && v.sign))
  else f32v (groupSum terms)

/-- D := RN_f32(D + G) (R45). -/
def accF (d : Nat) (g : FVal) : Nat := rnF32 (FVal.sum 0 [f32v d, g])

/-- One SB4 output element (R43): the eight block terms, the two bands, the old D. -/
def accSb4 (d : Nat) (blocks : List FVal) (ba bb : Nat) : Nat :=
  let g := f32v (groupSum blocks)
  let beta := f32v (rnF32 ((bf16v ba).mul (bf16v bb)))
  let p := f32v (rnF32 (g.mul beta))
  if (bf16v ba).isNan || (bf16v bb).isNan then fmtF32.nanCode else accF d p

/-- The exact term of one k-block (R43): codes and cuffs of the two blocks, none of them corrupt. -/
def sb4Term (ca cuffA cb cuffB : Nat) : FVal :=
  let sa := (cuffSel cuffA).getD 0
  let sb := (cuffSel cuffB).getD 0
  let t := (List.range 8).foldl (fun a j => a + sb4Level sa (ca / 16 ^ j % 16) * sb4Level sb (cb / 16 ^ j % 16)) (0 : Int)
  .fin (decide (t < 0)) (t.natAbs * e3m5 (cuffA % 256) * e3m5 (cuffB % 256)) (sb4Lambda sa + sb4Lambda sb - 16)

/-! ## Reductions (R49, R50) -/

/-- One level of the fixed tree: neighbours combined, absent nodes passed over. -/
def treeLevel (f : Nat → Nat → Nat) : List (Option Nat) → List (Option Nat)
  | a :: b :: r => (match a, b with
      | some x, some y => some (f x y)
      | some x, none => some x
      | none, y => y) :: treeLevel f r
  | l => l

/-- The tree of R49 over 2^k lanes. -/
def treeReduce (f : Nat → Nat → Nat) : Nat → List (Option Nat) → Option Nat
  | 0, l => l.headD none
  | k + 1, l => treeReduce f k (treeLevel f l)

/-- RN_f32(x + y) (R49). -/
def f32Add (a b : Nat) : Nat := rnF32 (FVal.sum 0 [f32v a, f32v b])

/-- RN_f64 of a sum and of a product of f32 widened values (R277). -/
def f64Add (a : Nat) (v : FVal) : Nat := roundF fmtF64 0 false (FVal.sum 0 [FVal.decode fmtF64 a, v])

end Sys2Proof.Machine
end

