-- ==== Sys2Proof/Machine/Sfu.lean ====
section
/-! DEFINITION. The special functions of R127 to R131. A value is computed as an integer multiple of 2^−800 by series
whose error lies far below 2^−600, then rounded once (accurate grade) or truncated to 23 significant bits (fast grade).
No series result is exact, so a result nearer than that to a rounding boundary would be misread (log entry 12). -/

namespace Sys2Proof.Machine
open Sys2Proof

/-- Fraction bits of the fixed-point reals of this file. -/
def fxP : Nat := 800

/-- 1.0 in fixed point. -/
def fxOne : Nat := 2 ^ fxP

/-- Integer square root by Newton's iteration from above; `fuel` bounds the iterations. -/
def isqrtLoop (n : Nat) : Nat → Nat → Nat
  | 0, x => x
  | k + 1, x => let y := (x + n / x) / 2; if y < x then isqrtLoop n k y else x

def isqrt (n : Nat) : Nat := if n = 0 then 0 else isqrtLoop n 64 (2 ^ (n.log2 / 2 + 1))

/-- Σ x^(2k+1) / (2k+1) for x = 1/d, with alternating signs when `alt`: atan and atanh of 1/d. -/
def fxAtanLoop (alt : Bool) (d2 : Nat) : Nat → Nat → Nat → Int → Int
  | 0, _, _, acc => acc
  | f + 1, k, t, acc =>
    let s : Int := ((t / (2 * k + 1) : Nat) : Int)
    fxAtanLoop alt d2 f (k + 1) (t / d2) (if alt && k % 2 = 1 then acc - s else acc + s)

def fxAtan (alt : Bool) (d : Nat) : Int := fxAtanLoop alt (d * d) 400 0 (fxOne / d) 0

/-- π (Machin) and ln 2 in fixed point. -/
def fxPi : Nat := (16 * fxAtan true 5 - 4 * fxAtan true 239).toNat
def fxLn2 : Nat := (2 * fxAtan false 3).toNat

/-- Σ t_k with t_k = t_(k−1)·x/k: the exponential series of a fixed-point x in [0, 1). -/
def fxExpLoop (x : Nat) : Nat → Nat → Nat → Nat → Nat
  | 0, _, _, acc => acc
  | f + 1, k, t, acc => let t' := t * x / (fxOne * k); fxExpLoop x f (k + 1) t' (acc + t')

def fxExp1 (x : Nat) : Nat := fxExpLoop x 200 1 fxOne fxOne

/-- e^y for a fixed-point y of either sign, as a significand and an exponent. -/
def fxExp (y : Int) : Nat × Int :=
  let n := y / (fxLn2 : Int)
  (fxExp1 (y - n * (fxLn2 : Int)).toNat, n - (fxP : Int))

/-- e^y in fixed point, for y at or below 0. -/
def fxExpNeg (y : Int) : Nat :=
  let (m, e) := fxExp y
  if e + (fxP : Int) ≤ 0 then m / 2 ^ (-(e + (fxP : Int))).toNat else m * 2 ^ (e + (fxP : Int)).toNat

/-- ln of a fixed-point z in [1, 2): 2·atanh((z − 1)/(z + 1)). -/
def fxLnLoop (r2 : Nat) : Nat → Nat → Nat → Nat → Nat
  | 0, _, _, acc => acc
  | f + 1, k, t, acc => fxLnLoop r2 f (k + 1) (t * r2 / fxOne) (acc + t / (2 * k + 1))

def fxLn (z : Nat) : Nat :=
  let r := (z - fxOne) * fxOne / (z + fxOne)
  2 * fxLnLoop (r * r / fxOne) 400 0 r 0

/-- Σ (−1)^k x^(2k+i) / (2k+i)!: sine for i = 1, cosine for i = 0, of a fixed-point x in [0, 2π]. -/
def fxTrigLoop (x2 : Nat) : Nat → Nat → Nat → Bool → Int → Int
  | 0, _, _, _, acc => acc
  | f + 1, k, t, s, acc =>
    fxTrigLoop x2 f (k + 2) (t * x2 / (fxOne * ((k + 1) * (k + 2)))) (!s) (if s then acc - (t : Int) else acc + (t : Int))

def fxTrig (cos : Bool) (x : Nat) : Int :=
  let x2 := x * x / fxOne
  if cos then fxTrigLoop x2 150 0 fxOne false 0 else fxTrigLoop x2 150 1 x false 0

/-- erf of a fixed-point z in [0, 15]: (2/√π) e^(−z²) Σ 2^k z^(2k+1) / (2k+1)!!. -/
def fxErfLoop (z2 : Nat) : Nat → Nat → Nat → Nat → Nat
  | 0, _, _, acc => acc
  | f + 1, k, t, acc => fxErfLoop z2 f (k + 1) (t * (2 * z2) / (fxOne * (2 * k + 3))) (acc + t)

def fxErf (z : Nat) : Nat :=
  let z2 := z * z / fxOne
  let s := fxErfLoop z2 1600 0 z 0
  let e := fxExpNeg (-(z2 : Int))
  2 * (s * e / fxOne) * fxOne / isqrt (fxPi * fxOne)

/-- The fixed-point magnitude of m · 2^e, truncated below 2^−800. -/
def fxMag (m : Nat) (e : Int) : Nat :=
  if -(fxP : Int) ≤ e then m * 2 ^ (e + (fxP : Int)).toNat else m / 2 ^ (-(e + (fxP : Int))).toNat

/-- A fixed-point result as a value. -/
def fxVal (neg : Bool) (m : Nat) : FVal := .fin neg m (-(fxP : Int))

/-- 1 less an amount too small to reach any rounding boundary of f32, and a value below every f32 magnitude. -/
def fxBelowOne : Nat := fxOne - 2 ^ 200
def tinyVal (neg : Bool) : FVal := .fin neg 1 (-600)

/-- m · 2^e with 60 fraction bits or more cut off by a division that left a remainder: a sticky low bit (exact for RN and
for truncation). -/
def stickyVal (neg : Bool) (q : Nat) (exact : Bool) (e : Int) : FVal := .fin neg (2 * q + if exact then 0 else 1) (e - 1)

/-- 1/x (R127 `RCP`) of a nonzero m · 2^e. -/
def rcpVal (neg : Bool) (m : Nat) (e : Int) : FVal :=
  stickyVal neg (2 ^ 120 / m) (2 ^ 120 % m = 0) (-e - 120)

/-- √x and 1/√x of a positive m · 2^e. -/
def sqrtVal (m : Nat) (e : Int) : FVal :=
  let (m, e) := if e % 2 = 0 then (m, e) else (2 * m, e - 1)
  let n := m * 2 ^ 120
  let q := isqrt n
  stickyVal false q (q * q = n) (e / 2 - 60)

def rsqVal (m : Nat) (e : Int) : FVal :=
  let (m, e) := if e % 2 = 0 then (m, e) else (2 * m, e - 1)
  let q := isqrt (2 ^ 240 / m)
  stickyVal false q (q * q * m = 2 ^ 240) (-(e / 2) - 120)

/-- 2^x of a finite x. -/
def exp2Val (neg : Bool) (m : Nat) (e : Int) : FVal :=
  if 9 < (m.log2 : Int) + e then (if neg then tinyVal false else .fin false 1 600)
  else
    let x : Int := (if neg then -1 else 1) * (fxMag m e : Int)
    let n := x / (fxOne : Int)
    let f := x - n * (fxOne : Int)
    if f = 0 then .fin false 1 n
    else .fin false (fxExp1 (f.toNat * fxLn2 / fxOne)) (n - (fxP : Int))

/-- log₂ x of a positive finite x. -/
def log2Val (m : Nat) (e : Int) : FVal :=
  let k : Int := (m.log2 : Int) + e
  let z := fxMag m (-(m.log2 : Int))
  let l : Int := k * (fxOne : Int) + ((fxLn z * fxOne / fxLn2 : Nat) : Int)
  fxVal (decide (l < 0)) l.natAbs

/-- sin x or cos x of a nonzero finite x. -/
def trigVal (cos neg : Bool) (m : Nat) (e : Int) : FVal :=
  let y := fxTrig cos (fxMag m e % (2 * fxPi))
  fxVal ((decide (y < 0)) != (neg && !cos)) y.natAbs

/-- tanh, the logistic function, erf and the two gated forms, of a nonzero finite x (R127). -/
def tanhVal (neg : Bool) (m : Nat) (e : Int) : FVal :=
  if 6 < (m.log2 : Int) + e then fxVal neg fxBelowOne
  else
    let t := fxExpNeg (-(2 * (fxMag m e : Int)))
    fxVal neg ((fxOne - t) * fxOne / (fxOne + t))

def sigmVal (neg : Bool) (m : Nat) (e : Int) : FVal :=
  if 6 < (m.log2 : Int) + e then (if neg then tinyVal false else fxVal false fxBelowOne)
  else
    let t := fxExpNeg (-(fxMag m e : Int))
    fxVal false ((if neg then t else fxOne) * fxOne / (fxOne + t))

def erfVal (neg : Bool) (m : Nat) (e : Int) : FVal :=
  if 4 ≤ (m.log2 : Int) + e then fxVal neg fxBelowOne else fxVal neg (fxErf (fxMag m e))

/-- 1 + erf(x/√2), as a value. -/
def onePlusErf (neg : Bool) (m : Nat) (e : Int) : FVal :=
  if 4 ≤ (m.log2 : Int) + e then (if neg then tinyVal false else fxVal false (fxOne + fxBelowOne))
  else
    let r := fxErf (fxMag m e * fxOne / isqrt (2 * fxOne * fxOne))
    fxVal false (if neg then fxOne - r else fxOne + r)

def geluVal (neg : Bool) (m : Nat) (e : Int) : FVal := (FVal.fin neg m (e - 1)).mul (onePlusErf neg m e)

def siluVal (neg : Bool) (m : Nat) (e : Int) : FVal := (FVal.fin neg m e).mul (sigmVal neg m e)

/-- The twelve functions of R127, in the order of their opcodes. -/
inductive Sfn where | exp2 | log2 | rcp | rsq | sqrt | sin | cos | tanh | sigm | gelu | silu | erf
  deriving DecidableEq, Repr, Inhabited

/-- The special values of R127; none where the function is computed. -/
def sfuSpecial (f : Sfn) (x : FVal) : Option Nat :=
  let nan := 0x7FC00000; let pinf := 0x7F800000; let ninf := 0xFF800000
  let one := 0x3F800000; let mone := 0xBF800000; let nzero := 0x80000000
  match x with
  | .nan => some nan
  | .inf false => some (match f with
      | .exp2 | .log2 | .sqrt | .gelu | .silu => pinf
      | .rcp | .rsq => 0
      | .sin | .cos => nan
      | .tanh | .sigm | .erf => one)
  | .inf true => some (match f with
      | .exp2 | .sigm => 0
      | .log2 | .rsq | .sqrt | .sin | .cos => nan
      | .rcp | .gelu | .silu => nzero
      | .tanh | .erf => mone)
  | .fin s 0 _ => some (match f with
      | .exp2 | .cos => one
      | .log2 => ninf
      | .rcp | .rsq => if s then ninf else pinf
      | .sigm => 0x3F000000
      | .sqrt | .sin | .tanh | .gelu | .silu | .erf => if s then nzero else 0)
  | .fin true _ _ => match f with
      | .log2 | .rsq | .sqrt => some nan
      | _ => none
  | .fin false _ _ => none

/-- f(x) of a nonzero finite x in the function's domain, exact but for the last bits of the fixed-point form. -/
def sfuVal (f : Sfn) (s : Bool) (m : Nat) (e : Int) : FVal :=
  match f with
  | .exp2 => exp2Val s m e
  | .log2 => log2Val m e
  | .rcp => rcpVal s m e
  | .rsq => rsqVal m e
  | .sqrt => sqrtVal m e
  | .sin => trigVal false s m e
  | .cos => trigVal true s m e
  | .tanh => tanhVal s m e
  | .sigm => sigmVal s m e
  | .gelu => geluVal s m e
  | .silu => siluVal s m e
  | .erf => erfVal s m e

/-- The truncation of R129: 23 significant bits toward zero, infinity at 2^128, zero below 2^−126. -/
def truncFast : FVal → Nat
  | .fin s m e =>
    if m = 0 then 0
    else
      let t : Int := (m.log2 : Int) + e
      if 128 ≤ t then withSign fmtF32 s 0x7F800000
      else if t < -126 then withSign fmtF32 s 0
      else
        let q := t - 22
        let r := if q ≤ e then m * 2 ^ (e - q).toNat else m / 2 ^ (q - e).toNat
        rnF32 (.fin s r q)
  | _ => fmtF32.nanCode

/-- sin or cos of 2π·t by the reduction of R130, with t in [0, 1) as m · 2^e and the quarter turns exact. -/
def trigTurns (cos : Bool) (m : Nat) (e : Int) : FVal :=
  let t := fxMag m e
  let q4 := 4 * t
  if q4 % fxOne = 0 then
    let k := (q4 / fxOne + if cos then 1 else 0) % 4
    (match k with
     | 0 => .fin false 0 0
     | 1 => .fin false 1 0
     | 2 => .fin false 0 0
     | _ => .fin true 1 0)
  else
    let y := fxTrig cos (2 * fxPi * t / fxOne)
    fxVal (decide (y < 0)) y.natAbs

/-- The fast `SIN` and `COS` of a finite nonzero x (R130). -/
def trigFast (cos : Bool) (x : FVal) : FVal :=
  match f32v (rnF32 (x.mul (f32v 0x3E22F983))) with
  | .fin s m e =>
    if 0 ≤ e then trigTurns cos 0 0
    else
      let d := 2 ^ (-e).toNat
      let r := m % d
      trigTurns cos (if s && decide (r ≠ 0) then d - r else r) e
  | _ => .nan

/-- One special function on an f32 code (R127 to R130), modifiers ABS and NEG applied after the input flush. -/
def sfu (f : Sfn) (acc abs neg : Bool) (code : Nat) : Nat :=
  let x0 := FVal.decode fmtF32 (flush fmtF32 (!acc) code)
  let x1 := if abs then x0.abs else x0
  let x := if neg then x1.neg else x1
  match sfuSpecial f x with
  | some c => c
  | none =>
    match x with
    | .fin s m e =>
      if acc then rnF32 (sfuVal f s m e)
      else truncFast (match f with
        | .sin => trigFast false x
        | .cos => trigFast true x
        | _ => sfuVal f s m e)
    | _ => fmtF32.nanCode

/-- A paired bf16 form (R131): each element widened, the fast function, RN to bf16, subnormals flushed. -/
def sfuBf2 (f : Sfn) (abs neg : Bool) (a : Nat) : Nat :=
  let one (h : Nat) : Nat := flush fmtBf16 true (roundF fmtBf16 0 false (f32v (sfu f false abs neg (h * 65536))))
  one (a % 65536) + 65536 * one (a / 65536 % 65536)

end Sys2Proof.Machine
end

