-- ==== Sys2Proof/Machine/Shape.lean ====
section
/-! DEFINITION. The form of every instruction: which operand kinds and register groups each field may name, which MOD
values are legal, what the instruction reads and writes (R61, R62, R65, R67 and the operand tables of the chapters). The
legality checks of R83 step 6, the pairing rules of R59 and the scoreboard of R163 all read this one table. -/

namespace Sys2Proof.Machine
open Sys2Proof

/-- The facts about the issuing group that its instructions' legality depends on, all fixed at dispatch (R82, R135, R165,
R186, R307, R365, R370). `rings` holds the record sizes of the egress rings of a stream launch. -/
structure Env where
  width : Nat
  vregs : Nat
  priv : Bool
  quads : Bool
  window : Bool
  tailor : Bool
  stream : Bool
  rings : List Nat
  deriving DecidableEq, Repr, Inhabited

/-- The kinds one operand field may name, how many registers a named group has, and its alignment. -/
structure Role where
  v : Bool
  s : Bool
  latch : Bool
  lit : Bool
  imm : Bool
  zero : Bool
  n : Nat
  al : Nat
  deriving DecidableEq, Repr, Inhabited

/-- A field the instruction does not use: it must hold `0x2FF` (R61). -/
def roleNone : Role := ⟨false, false, false, false, false, true, 1, 1⟩
/-- Every source kind of R61. -/
def roleAny (n : Nat) : Role := ⟨true, true, true, true, true, true, n, n⟩
/-- Every source kind but a `v` register: the uniform form (R98). -/
def roleUni (n : Nat) : Role := ⟨false, true, true, true, true, true, n, n⟩
/-- `v`, `s`, latch, literal or imm8. -/
def roleSrc (n : Nat) : Role := ⟨true, true, true, true, true, false, n, n⟩
/-- `s`, literal or imm8, and the same with zero. -/
def roleSli (n : Nat) : Role := ⟨false, true, false, true, true, false, n, n⟩
def roleSliz (n : Nat) : Role := ⟨false, true, false, true, true, true, n, n⟩
/-- A `v` register group, an `s` register group, either. -/
def roleV (n al : Nat) : Role := ⟨true, false, false, false, false, false, n, al⟩
def roleS (n al : Nat) : Role := ⟨false, true, false, false, false, false, n, al⟩
def roleVS (n : Nat) : Role := ⟨true, true, false, false, false, false, n, n⟩
/-- The same role with `0x2FF` allowed. -/
def roleOpt (r : Role) : Role := { r with zero := true }

/-- The form of one instruction. `mask` holds the MOD bits its description defines, `ok` what it demands of their values
and of its group; `lres` that it produces a latch result (R66); `pr` and `pw` the predicates MOD makes it read and write;
`dread` that DST is a source; `xw` further registers written (numbered as `resources` numbers them); `em` that it writes
`EM` (R157). -/
structure Shape where
  dst : Role := roleNone
  a : Role := roleNone
  b : Role := roleNone
  c : Role := roleNone
  mask : Nat := 0
  ok : Bool := true
  lres : Bool := false
  pr : List Nat := []
  pw : List Nat := []
  dread : Bool := false
  xw : List Nat := []
  em : Bool := false
  deriving DecidableEq, Repr, Inhabited

/-- A MOD bit field as a number. -/
def modF (x : InsWord) (hi lo : Nat) : Nat := bits x.mod.toNat hi lo

/-- Whether DST selects the uniform form (R98). -/
def uniformDst (x : InsWord) : Bool := match x.dst with | .s _ => true | _ => false

/-- The registers of a 64-bit operand. -/
def wide (w : Bool) : Nat := if w then 2 else 1

/-- An integer instruction: destination and source widths, the sources used, the MOD bits (R103, R113). -/
def shapeInt (x : InsWord) (d a : Nat) (b c : Option Nat) (mask : Nat) : Shape :=
  let src (n : Nat) : Role := if uniformDst x then roleUni n else roleAny n
  { dst := roleVS d, a := src a, b := (b.map src).getD roleNone, c := (c.map src).getD roleNone, mask := mask, lres := true }

/-- A scalar float instruction (R114): which of a, b, c it reads and the legal rounding codes. -/
def shapeFloat (x : InsWord) (nsrc rmax : Nat) (sat : Bool) : Shape :=
  let src : Role := if uniformDst x then roleUni 1 else roleAny 1
  { dst := roleVS 1, a := src, b := if 2 ≤ nsrc then src else roleNone, c := if 3 ≤ nsrc then src else roleNone,
    mask := 0x12F + (if sat then 0x10 else 0) + (if 2 ≤ nsrc then 0x240 else 0) + (if 3 ≤ nsrc then 0x80 else 0),
    ok := modF x 2 0 ≤ rmax, lres := true }

/-- A packed float instruction (R121): as a scalar one, with a `v` destination only. -/
def shapePacked (x : InsWord) (nsrc rmax : Nat) (sat : Bool) : Shape :=
  { dst := roleV 1 1, a := roleAny 1, b := roleAny 1, c := if 3 ≤ nsrc then roleAny 1 else roleNone,
    mask := 0x36F + (if sat then 0x10 else 0) + (if 3 ≤ nsrc then 0x80 else 0), ok := modF x 2 0 ≤ rmax, lres := true }

/-- A special function (R127, R131). -/
def shapeSfu : Shape := { dst := roleV 1 1, a := roleAny 1, mask := 0x120, lres := true }

/-- `SHFL` (R139). -/
def shapeShfl (w : Bool) (x : InsWord) : Shape :=
  { dst := roleV (wide w) (wide w), a := roleAny (wide w), b := roleSrc 1, mask := 0x3F, ok := modF x 2 0 ≠ 7, lres := true,
    pw := [modF x 5 3] }

/-- A vote with a predicate result (R141). -/
def shapeVote (x : InsWord) : Shape :=
  { a := ⟨true, true, true, false, false, true, 1, 1⟩, mask := 0x7F, ok := modF x 6 4 ≠ 7, pr := [modF x 2 0],
    pw := [modF x 6 4] }

/-- `REDUX` (R145). -/
def shapeRedux (x : InsWord) (mask : Nat) : Shape :=
  { dst := roleVS 1, a := roleSrc 1, mask := 0xF0 + mask, lres := true, pr := [modF x 6 4] }

/-- The address fields of a memory instruction (R193): a 64-bit base in segment G, else a 32-bit one. -/
def roleBase (x : InsWord) : Role := if modF x 2 0 = 0 then roleAny 2 else roleAny 1

/-- A plain load or store (R211); `top` is the highest segment code allowed and `m` the MOD bits above [5:0]. -/
def shapeLd (x : InsWord) (n m : Nat) : Shape :=
  { dst := roleV n n, a := roleBase x, b := roleAny 1, mask := 0x3F + m, ok := modF x 2 0 ≤ 5 }

def shapeSt (x : InsWord) (c : Role) (m : Nat) : Shape :=
  { a := roleBase x, b := roleAny 1, c := c, mask := 0x3F + m, ok := modF x 2 0 ≤ 3 }

/-- `ATOM` and `RED` (R220): `mm` for min and max, which alone define U. -/
def shapeAtom (x : InsWord) (n : Nat) (cas mm : Bool) : Shape :=
  { dst := roleV n n, a := roleBase x, b := roleAny 1, c := if cas then roleV (2 * n) (2 * n) else roleAny n,
    mask := 0x1EF + (if mm then 0x10 else 0), ok := modF x 2 0 ≤ 3 }

def shapeRed (x : InsWord) (n : Nat) (mm : Bool) : Shape :=
  { a := roleBase x, b := roleAny 1, c := roleAny n, mask := 0x1EF + (if mm then 0x10 else 0),
    ok := modF x 2 0 ≤ 3 && modF x 6 5 % 2 = 0 }

/-- A barrier instruction (R236). -/
def shapeBar (x : InsWord) (dst b c : Role) (m : Nat) : Shape :=
  { dst := dst, a := roleSliz 1, b := b, c := c, mask := 7 + m, ok := modF x 2 0 = 1 || modF x 2 0 = 2 }

/-- The A, B and D register counts of a matrix form at a width (R313). -/
def mmaRegsA (f : MForm) (w : Nat) : Nat := (if f = .sb4 then 512 else 256) / w
def mmaRegsB (f : MForm) (w : Nat) : Nat := (if f = .sb4 then 128 else 64) / w
def mmaRegsD (w : Nat) : Nat := 1024 / w

/-- Whether two register ranges of `v` operands overlap. -/
def overlapV (o : Opd) (n : Nat) (p : Opd) (m : Nat) : Bool :=
  match o, p with
  | .v i, .v j => i.toNat < j.toNat + m && j.toNat < i.toNat + n
  | _, _ => false

/-- `MMA` and `MMAZ` (R307, R316). -/
def shapeMma (e : Env) (f : MForm) (z : Bool) (x : InsWord) : Shape :=
  let nd := mmaRegsD e.width
  { dst := roleV nd 8, a := roleV (mmaRegsA f e.width) 8, b := roleV (mmaRegsB f e.width) 4,
    c := if f = .sb4 then roleV 1 1 else roleNone, mask := if f = .i8 then 1 else 0,
    ok := e.quads && e.width ≠ 16 && !overlapV x.dst nd x.opa (mmaRegsA f e.width)
      && !overlapV x.dst nd x.opb (mmaRegsB f e.width) && !overlapV x.dst nd x.opc 1,
    dread := !z }

/-- An engine function (R77, R78): its code, whether a reply is given, whether one is required. -/
def shapeEng (x : InsWord) (code : Nat) (reply need : Bool) : Shape :=
  { dst := if reply then roleS 1 1 else roleNone, a := roleSliz 2, b := roleSliz 2, mask := 0x7F,
    ok := modF x 6 0 = code && (reply || !need) }

/-- A class SYS instruction (R392). -/
def shapeSys (dst a b : Role) (mask : Nat) (ok : Bool) : Shape := { dst := dst, a := a, b := b, mask := mask, ok := ok }

/-- The registers a special register takes (R395); none when undefined. -/
def srRegs (w sr : Nat) : Option Nat :=
  if sr = 0x0E then some (if w = 64 then 2 else 1)
  else if 0x08 ≤ sr && sr ≤ 0x0B then some 2
  else if sr ≤ 0x0F || (0x40 ≤ sr && sr ≤ 0x43) then some 1
  else none

/-- A mask result's registers (R135). -/
def maskRegs (e : Env) : Nat := if e.width = 64 then 2 else 1

/-- Bytes moved by the memory forms. -/
def ldBytes : LdKind → Nat
  | .i8 | .n8 => 1 | .i16 | .n16 => 2 | .b32 => 4 | .b64 => 8 | .b128 => 16
def stBytes : StKind → Nat
  | .b8 => 1 | .b16 => 2 | .b32 => 4 | .b64 => 8 | .b128 => 16
def aqBytes : AqKind → Nat
  | .b8 => 1 | .b16 => 2 | .b32 => 4 | .b64 => 8
def ucBytes : UcKind → Nat
  | .b32 => 4 | .b64 => 8 | .b128 => 16
/-- The registers that hold z bytes. -/
def regsOf (z : Nat) : Nat := if z ≤ 4 then 1 else z / 4

/-- The form of every instruction; the steps of the other units have none. -/
def shape (e : Env) : Instr → Shape
  | .iadd w x | .isub w x | .imul w x | .idiv w x => shapeInt x (wide w) (wide w) (some (wide w)) none 3
  | .imulh w x | .irem w x | .imin w x | .imax w x => shapeInt x (wide w) (wide w) (some (wide w)) none 1
  | .imad w x => shapeInt x (wide w) (wide w) (some (wide w)) (some (wide w)) 3
  | .iabs w x => shapeInt x (wide w) (wide w) none none 3
  | .and w x | .or w x | .xor w x => shapeInt x (wide w) (wide w) (some (wide w)) none 1
  | .bfn3 w x => shapeInt x (wide w) (wide w) (some (wide w)) (some (wide w)) 0x3FD
  | .shl w x | .shr w x | .sar w x | .rot w x => shapeInt x (wide w) (wide w) (some 1) none 1
  | .fsh w x => shapeInt x (wide w) (wide w) (some (wide w)) (some 1) 5
  | .clz w x | .popc w x => shapeInt x 1 (wide w) none none 1
  | .brev w x => shapeInt x (wide w) (wide w) none none 1
  | .bfe w x => shapeInt x (wide w) (wide w) (some 1) none 1
  | .bfi w x => shapeInt x (wide w) (wide w) (some (wide w)) (some 1) 1
  | .sel w x => { shapeInt x (wide w) (wide w) (some (wide w)) none 0x3D with pr := [modF x 4 2] }
  | .icmp w x =>
    { a := roleAny (wide w), b := roleAny (wide w), mask := 0x3FD, ok := modF x 4 2 < 6 && modF x 7 5 ≠ 7,
      pr := if modF x 9 8 = 0 then [] else [modF x 7 5], pw := [modF x 7 5] }
  | .iset w x => { shapeInt x 1 (wide w) (some (wide w)) none 0x3D with ok := modF x 4 2 < 6 }
  | .lea w x => shapeInt x (wide w) (wide w) (some 1) (some 1) 0x1D
  | .mov w x => shapeInt x (wide w) (wide w) none none 1
  | .movl w x => { shapeInt x (wide w) 1 none none 0xD with ok := modF x 3 2 < (if w then 3 else 2) }
  | .fadd _ x | .fmul _ x => shapeFloat x 2 3 true
  | .ffma _ x => shapeFloat x 3 3 true
  | .fmin _ x | .fmax _ x => shapeFloat x 2 0 false
  | .frnd _ x => shapeFloat x 1 4 false
  | .fcmp _ x =>
    { a := roleAny 1, b := roleAny 1, mask := 0x3FF, ok := modF x 6 4 ≠ 7,
      pr := if modF x 8 7 = 0 then [] else [modF x 6 4], pw := [modF x 6 4] }
  | .fset _ x => { shapeFloat x 2 7 false with mask := 0x37F }
  | .cvt d x =>
    let src (n : Nat) : Role := if uniformDst x then roleUni n else roleAny n
    let w (f : NFmt) : Nat := match f with | .i64 | .n64 => 2 | _ => 1
    let s := nfmtOfCode (modF x 8 5)
    let whole (f : NFmt) : Bool := match nfmtKind f with | .inl _ => false | .inr _ => true
    { dst := roleVS (w d), a := src (w (s.getD .f32)), mask := 0x1FF, lres := true
      ok := s.isSome && (modF x 2 0 ≤ 4 || (whole d && s.any whole)) }
  | .exp2 _ _ | .log2 _ _ | .rcp _ _ | .rsq _ _ | .sqrt _ _ | .sin _ _ | .cos _ _ | .tanh _ _ | .sigm _ _ | .gelu _ _
  | .silu _ _ | .erf _ _ => shapeSfu
  | .exp2Bf2 _ | .rcpBf2 _ | .rsqBf2 _ | .tanhBf2 _ | .sigmBf2 _ | .geluBf2 _ | .siluBf2 _ | .erfBf2 _ => shapeSfu
  | .add2h _ x | .mul2h _ x => shapePacked x 2 3 true
  | .fma2h _ x => shapePacked x 3 3 true
  | .min2h _ x | .max2h _ x => shapePacked x 2 0 false
  | .cmp2h _ x => shapePacked x 2 7 false
  | .dot4 _ _ | .dot8 _ _ =>
    { dst := roleV 1 1, a := roleAny 1, b := roleAny 1, c := roleAny 1, mask := 0x10, lres := true }
  | .dot2 _ x => shapePacked x 3 3 true
  | .cvtPk2 _ x =>
    { dst := roleV 1 1, a := roleAny 1, b := roleAny 1, mask := 0x1F, ok := modF x 2 0 ≤ 4, lres := true }
  | .cvtPk4 _ x =>
    { dst := roleV 1 1, a := roleAny 1, b := roleAny 1, c := roleAny 1, mask := 0x3F, ok := modF x 2 0 ≤ 4, lres := true }
  | .cvtUnpk x =>
    { dst := roleV 1 1, a := roleAny 1, b := roleAny 1, mask := 0x1E8, ok := 1 ≤ modF x 8 5 && modF x 8 5 ≤ 4, lres := true }
  | .shflAt w x | .shflLo w x | .shflHi w x | .shflFlip w x => shapeShfl w x
  | .voteEvery x | .voteSome x | .voteSame x => shapeVote x
  | .voteMask x =>
    { dst := roleVS (maskRegs e), a := ⟨true, true, true, false, false, true, 1, 1⟩, mask := 0xF, lres := true,
      pr := [modF x 2 0] }
  | .matchPeers w x =>
    { dst := roleV (maskRegs e) (maskRegs e), a := roleSrc (wide w), mask := 7, lres := true, pw := [modF x 2 0] }
  | .matchUnan w x => { dst := roleVS (maskRegs e), a := roleSrc (wide w), mask := 7, lres := true, pw := [modF x 2 0] }
  | .reduxAdd x => shapeRedux x 3
  | .reduxMin x | .reduxMax x => shapeRedux x 1
  | .reduxAnd x | .reduxOr x | .reduxXor x | .reduxFadd x | .reduxFmin x | .reduxFmax x => shapeRedux x 0
  | .scanInc x | .scanExc x => { dst := roleV 1 1, a := roleSrc 1, mask := 0xF0, lres := true, pr := [modF x 6 4] }
  | .cmpr x =>
    { dst := roleV 1 1, a := roleSrc 1, mask := 0x3FF, lres := true, pr := [modF x 8 6]
      xw := if x.nw then [] else [256 + modF x 5 0] }
  | .expd x => { dst := roleV 1 1, a := roleSrc 1, mask := 0x3C0, lres := true, pr := [modF x 8 6] }
  | .xbar _ => { dst := roleV 1 1, a := roleAny 1, b := roleAny 1, mask := 0xF, lres := true }
  | .xpld x => { a := roleSli 1, mask := 0x7F, ok := modF x 2 0 = 1 || modF x 2 0 = 2 }
  | .laneid x =>
    let n := if modF x 1 0 = 0 then 1 else maskRegs e
    { dst := roleV n n, mask := 3, lres := true }
  | .bra _ => {}
  | .braNone x => { ok := x.pidx = 7 && !x.pneg }
  | .braAny x | .braAll x => { mask := 0xF, pr := [modF x 2 0] }
  | .brx _ | .ret _ => { a := roleS 2 2 }
  | .call _ => { dst := roleS 2 2 }
  | .callx _ => { dst := roleS 2 2, a := roleS 2 2 }
  | .exit _ => { em := true }
  | .emrd x => { dst := roleS (maskRegs e) (maskRegs e), ok := x.pidx = 7 && !x.pneg }
  | .emwr x =>
    let p := modF x 1 0 = 2
    { a := if p then roleNone else roleSli (maskRegs e), mask := if p then 0x3F else 3,
      ok := modF x 1 0 ≠ 3 && x.pidx = 7 && !x.pneg, pr := if p then [modF x 4 2] else [], em := true }
  | .pset x =>
    { a := if modF x 3 3 = 1 then ⟨true, true, false, true, true, false, 1, 1⟩ else roleSli (maskRegs e), mask := 0xF,
      ok := modF x 2 0 ≠ 7, pw := [modF x 2 0] }
  | .plop x =>
    { a := ⟨false, false, false, false, true, false, 1, 1⟩, mask := 0x1FF,
      ok := modF x 2 0 ≠ 7 && (match x.opa with | .imm n => n.toNat < 16 | _ => true),
      pr := [modF x 5 3, modF x 8 6], pw := [modF x 2 0] }
  | .acqh _ | .relh _ | .yield _ | .trap _ | .bpt _ => {}
  | .req x =>
    { dst := roleS 1 1, a := roleS 8 8, b := ⟨false, false, false, true, true, false, 1, 1⟩,
      xw := match x.opa with | .s n => (List.range 8).map (fun k => 256 + n.toNat + k) | _ => [] }
  | .ld k x => shapeLd x (regsOf (ldBytes k)) 0
  | .st k x => shapeSt x (match k with | .b64 => roleAny 2 | .b128 => roleOpt (roleV 4 4) | _ => roleAny 1) 0
  | .fence x => { mask := 0x18, ok := modF x 2 0 = 0 }
  | .fenceX x => { mask := 0x3F8, ok := 2 ≤ popCount (modF x 9 3) 7 }
  | .ldAcq k x => shapeLd x (regsOf (aqBytes k)) 0xC0
  | .stRel k x => shapeSt x (roleAny (regsOf (aqBytes k))) 0xC0
  | .lds x =>
    { dst := if modF x 7 6 = 0 then roleV 2 2 else roleV 4 4, a := roleBase x, b := roleAny 1, mask := 0xFF,
      ok := modF x 2 0 = 0 && modF x 7 6 < 3 }
  | .stq x =>
    { dst := roleVS 1, a := roleBase x, b := roleAny 1, c := roleV 8 8, mask := 0x3FF, ok := modF x 2 0 = 0,
      dread := true }
  | .ldmt b8 x =>
    let n := if b8 then 8 else 4
    { dst := roleV n n, a := roleBase x, b := roleAny 1, mask := 0x3F,
      ok := (modF x 2 0 = 1 || modF x 2 0 = 2) && 32 ≤ e.width }
  | .ldc k x =>
    { dst := roleS (regsOf (ucBytes k)) (regsOf (ucBytes k)), a := if modF x 2 0 = 0 then roleSliz 2 else roleSliz 1,
      b := roleSliz 1, mask := 0x3F, ok := modF x 2 0 = 0 || modF x 2 0 = 5 }
  | .atomAdd w x | .atomAnd w x | .atomOr w x | .atomXor w x | .atomExch w x => shapeAtom x (wide w) false false
  | .atomMin w x | .atomMax w x => shapeAtom x (wide w) false true
  | .atomCas w x => shapeAtom x (wide w) true false
  | .atomFadd x => shapeAtom x 1 false false
  | .redAdd w x | .redAnd w x | .redOr w x | .redXor w x => shapeRed x (wide w) false
  | .redMin w x | .redMax w x => shapeRed x (wide w) true
  | .redFadd x => shapeRed x 1 false
  | .binit x => shapeBar x roleNone (roleSliz 1) (roleSliz 1) 8
  | .arrive x => shapeBar x (roleOpt (roleS 1 1)) (roleSliz 1) roleNone 8
  | .expect x => shapeBar x roleNone (roleSliz 1) roleNone 8
  | .waitph x => shapeBar x roleNone (roleSliz 1) roleNone 0
  | .btest x => shapeBar x (roleS 1 1) roleNone roleNone 0x18
  | .binv x => shapeBar x roleNone roleNone roleNone 0
  | .rkacq x => shapeBar x (roleS 1 1) roleNone roleNone 8
  | .rkrel x => shapeBar x roleNone (roleSliz 1) roleNone 8
  | .mma f x => shapeMma e f false x
  | .mmaz f x => shapeMma e f true x
  | .accmvRd x =>
    { dst := roleV (mmaRegsD e.width) 8, a := roleSliz 1, b := roleSli 1, mask := 7,
      ok := (modF x 2 0 = 1 || modF x 2 0 = 2) && e.quads && e.width ≠ 16 }
  | .accmvWr x =>
    { a := roleSliz 1, b := roleSli 1, c := roleV (mmaRegsD e.width) 8, mask := 7,
      ok := (modF x 2 0 = 1 || modF x 2 0 = 2) && e.quads && e.width ≠ 16 }
  | .mmaw _ => { dst := roleOpt (roleS 1 1), a := roleSli 1, ok := e.quads && e.width ≠ 16 }
  | .spawn x =>
    let n := modF x 3 0
    { a := ⟨false, true, false, true, false, false, 2, 2⟩, b := if n = 0 then roleNone else roleV n 4, mask := 0xF,
      ok := n ≤ 12 && !e.tailor }
  | .spawnFld x =>
    let n := modF x 3 0
    { a := ⟨false, true, false, true, false, false, 2, 2⟩, b := if n = 0 then roleNone else roleV n 4, c := roleSli 1,
      mask := 0xF, ok := n ≤ 12 && !e.tailor }
  | .fetchw x =>
    { a := ⟨false, true, false, true, false, false, 2, 2⟩, b := roleSli 1, mask := 7,
      ok := modF x 2 0 = 1 || modF x 2 0 = 2 }
  | .emitr x =>
    let n := e.rings.getD (modF x 1 0) 0 / 4
    { a := roleV n 4, mask := 3, ok := e.stream && modF x 1 0 < e.rings.length }
  | .winf _ => { dst := roleV 2 2, mask := 3, ok := e.window }
  | .kick _ => { dst := roleOpt (roleS 1 1), a := roleSli 1, b := roleSli 1 }
  | .qstat _ => { dst := roleS 1 1, a := roleSli 1 }
  | .park _ | .die _ => { ok := e.window, em := true }
  | .repack x =>
    let n := modF x 3 0
    { a := if n = 0 then roleNone else roleV n 1, mask := 0xF, ok := n ≤ 8 && e.window, em := true }
  | .cpyGo r x => shapeEng x 0x01 r false
  | .cpySt r x => shapeEng x 0x02 r true
  | .cpyAbt r x => shapeEng x 0x03 r false
  | .gthGo r x => shapeEng x 0x08 r false
  | .gthSt r x => shapeEng x 0x09 r true
  | .gthAbt r x => shapeEng x 0x0A r false
  | .rowProm r x => shapeEng x 0x10 r false
  | .rowDem r x => shapeEng x 0x11 r false
  | .rowPin r x => shapeEng x 0x12 r false
  | .rowUnpin r x => shapeEng x 0x13 r false
  | .rowCopy r x => shapeEng x 0x14 r false
  | .rowInit r x => shapeEng x 0x15 r false
  | .winWmark r x => shapeEng x 0x20 r false
  | .winFlush r x => shapeEng x 0x21 r false
  | .lnkArr r x => shapeEng x 0x30 r false
  | .lnkMsg r x => shapeEng x 0x31 r false
  | .segld x =>
    let g := modF x 2 0
    shapeSys roleNone (if g = 3 || g = 4 then roleV 2 2 else roleS 2 2) (roleSli 1) 7 (1 ≤ g && g ≤ 5)
  | .mfsr x =>
    let n := srRegs e.width (modF x 6 0)
    shapeSys (roleVS (n.getD 1)) roleNone roleNone 0x7F (n.isSome && (modF x 6 0 < 0x40 || e.priv))
  | .mtsr x => shapeSys roleNone (roleSli 1) roleNone 0x7F (modF x 6 0 = 0x42 || modF x 6 0 = 0x43)
  | .tlbinvPg _ => shapeSys (roleS 1 1) (roleSli 1) (roleS 2 2) 0 true
  | .tlbinvCtx _ => shapeSys (roleS 1 1) (roleSli 1) roleNone 0 true
  | .tlbinvAll _ => shapeSys (roleS 1 1) roleNone roleNone 0 true
  | .rft _ => shapeSys (roleS 1 1) (roleSli 1) roleNone 0 true
  | .halt _ => shapeSys (roleS 1 1) (roleSli 1) (roleSli 1) 0 true
  | .ctxsvFill x => shapeSys (roleS 1 1) (roleSli 1) (roleSli 1) 3 (modF x 1 0 = 0)
  | .ctxsvSwap x => shapeSys (roleS 1 1) (roleSli 1) (roleSli 1) 3 (modF x 1 0 = 1)
  | .ctxsvEvict x => shapeSys (roleS 1 1) (roleSli 1) (roleSli 1) 3 (modF x 1 0 = 2)
  | .wake _ => shapeSys (roleOpt (roleS 1 1)) (roleSli 1) roleNone 0 true
  | .ptldLk x => shapeSys (roleS 1 1) (roleSli 1) (roleS 2 2) 0x1F (modF x 4 4 = 0)
  | .ptldUn x => shapeSys (roleS 1 1) (roleSli 1) roleNone 0x1F (modF x 4 4 = 1)
  | .qcbld _ => shapeSys (roleS 1 1) (roleS 2 2) (roleSli 1) 0 true
  | .qcbst _ => shapeSys (roleS 1 1) (roleSli 1) roleNone 0 true
  | .mbxrd x =>
    { dst := roleS 1 1, a := roleS 16 16,
      xw := match x.opa with | .s n => (List.range 16).map (fun k => 256 + n.toNat + k) | _ => [] }
  | .dump _ => shapeSys (roleS 1 1) (roleSli 1) (roleS 2 2) 0 true
  | _ => {}

/-- The word of an instruction that has one with operand fields; `NOP`, the prefixes, unassigned opcodes and the steps of
the other units have none. -/
def insWord : Instr → Option InsWord
  | .iadd _ x | .isub _ x | .imul _ x | .imulh _ x | .imad _ x | .idiv _ x | .irem _ x | .imin _ x | .imax _ x
  | .iabs _ x | .and _ x | .or _ x | .xor _ x | .bfn3 _ x | .shl _ x | .shr _ x | .sar _ x | .rot _ x | .fsh _ x
  | .clz _ x | .popc _ x | .brev _ x | .bfe _ x | .bfi _ x | .sel _ x | .icmp _ x | .iset _ x | .lea _ x | .mov _ x
  | .movl _ x => some x
  | .fadd _ x | .fmul _ x | .ffma _ x | .fmin _ x | .fmax _ x | .fcmp _ x | .fset _ x | .frnd _ x | .cvt _ x => some x
  | .exp2 _ x | .log2 _ x | .rcp _ x | .rsq _ x | .sqrt _ x | .sin _ x | .cos _ x | .tanh _ x | .sigm _ x | .gelu _ x
  | .silu _ x | .erf _ x | .exp2Bf2 x | .rcpBf2 x | .rsqBf2 x | .tanhBf2 x | .sigmBf2 x | .geluBf2 x | .siluBf2 x
  | .erfBf2 x => some x
  | .add2h _ x | .mul2h _ x | .fma2h _ x | .min2h _ x | .max2h _ x | .cmp2h _ x | .dot4 _ x | .dot8 _ x | .dot2 _ x
  | .cvtPk2 _ x | .cvtPk4 _ x | .cvtUnpk x => some x
  | .shflAt _ x | .shflLo _ x | .shflHi _ x | .shflFlip _ x | .voteEvery x | .voteSome x | .voteSame x | .voteMask x
  | .matchPeers _ x | .matchUnan _ x | .reduxAdd x | .reduxMin x | .reduxMax x | .reduxAnd x | .reduxOr x | .reduxXor x
  | .reduxFadd x | .reduxFmin x | .reduxFmax x | .scanInc x | .scanExc x | .cmpr x | .expd x | .xbar x | .xpld x
  | .laneid x => some x
  | .bra x | .braNone x | .braAny x | .braAll x | .brx x | .call x | .callx x | .ret x | .exit x | .emrd x | .emwr x
  | .pset x | .plop x | .acqh x | .relh x | .yield x | .trap x | .req x | .bpt x => some x
  | .ld _ x | .st _ x | .fence x | .fenceX x | .ldAcq _ x | .stRel _ x | .lds x | .stq x | .ldmt _ x | .ldc _ x => some x
  | .atomAdd _ x | .atomMin _ x | .atomMax _ x | .atomAnd _ x | .atomOr _ x | .atomXor _ x | .atomExch _ x
  | .atomCas _ x | .atomFadd x | .redAdd _ x | .redMin _ x | .redMax _ x | .redAnd _ x | .redOr _ x | .redXor _ x
  | .redFadd x => some x
  | .binit x | .arrive x | .expect x | .waitph x | .btest x | .binv x | .rkacq x | .rkrel x => some x
  | .mma _ x | .mmaz _ x | .accmvRd x | .accmvWr x | .mmaw x => some x
  | .spawn x | .spawnFld x | .fetchw x | .emitr x | .winf x | .kick x | .qstat x | .park x | .die x | .repack x => some x
  | .cpyGo _ x | .cpySt _ x | .cpyAbt _ x | .gthGo _ x | .gthSt _ x | .gthAbt _ x | .rowProm _ x | .rowDem _ x
  | .rowPin _ x | .rowUnpin _ x | .rowCopy _ x | .rowInit _ x | .winWmark _ x | .winFlush _ x | .lnkArr _ x
  | .lnkMsg _ x => some x
  | .segld x | .mfsr x | .mtsr x | .tlbinvPg x | .tlbinvCtx x | .tlbinvAll x | .rft x | .halt x | .ctxsvFill x
  | .ctxsvSwap x | .ctxsvEvict x | .wake x | .ptldLk x | .ptldUn x | .qcbld x | .qcbst x | .mbxrd x | .dump x => some x
  | _ => none

/-- One operand against its role: its kind, the alignment of a group, and a `v` group below `.vregs` (R61, R62). -/
def roleOk (e : Env) (r : Role) : Opd → Bool
  | .v n => r.v && n.toNat % r.al = 0 && n.toNat + r.n ≤ e.vregs
  | .s n => r.s && n.toNat % r.al = 0 && n.toNat + r.n ≤ 64
  | .latch _ => r.latch
  | .lit => r.lit
  | .zero => r.zero
  | .imm _ => r.imm

/-- The step 6 checks of R83: operand kinds and alignment, MOD, NW. -/
def operandsOk (e : Env) (i : Instr) : Bool :=
  match insWord i with
  | none => true
  | some x =>
    let sh := shape e i
    roleOk e sh.a x.opa && roleOk e sh.b x.opb && roleOk e sh.c x.opc && (x.mod.toNat &&& sh.mask) = x.mod.toNat && sh.ok
      && (if x.nw then sh.lres && x.dst = .zero else roleOk e sh.dst x.dst)

/-- The registers, predicates, latches and `EM` as numbers: `v` 0 to 255, `s` from 256, predicates from 320, the latches
330, `EM` 340. -/
def resources (r : Role) : Opd → List Nat
  | .v n => (List.range r.n).map (fun k => n.toNat + k)
  | .s n => (List.range r.n).map (fun k => 256 + n.toNat + k)
  | .latch _ => [330]
  | _ => []

/-- The predicate resources of a list of indices; p7 is constant (R64). -/
def predRes (l : List Nat) : List Nat := (l.filter (fun p => p ≠ 7)).map (fun p => 320 + p)

/-- What an instruction reads: sources, guard, predicates, `EM` (R59, R163). -/
def readsOf (e : Env) (i : Instr) : List Nat :=
  match insWord i with
  | none => []
  | some x =>
    let sh := shape e i
    resources sh.a x.opa ++ resources sh.b x.opb ++ resources sh.c x.opc ++ predRes (x.pidx.toNat :: sh.pr)
      ++ (if sh.dread then resources sh.dst x.dst else []) ++ [340]

/-- What an instruction writes. -/
def writesOf (e : Env) (i : Instr) : List Nat :=
  match insWord i with
  | none => []
  | some x =>
    let sh := shape e i
    (match i with | .stq _ => [] | _ => resources sh.dst x.dst) ++ predRes sh.pw ++ sh.xw
      ++ (if sh.lres then [330] else []) ++ (if sh.em then [340] else [])

/-- The issue classes of R58. -/
inductive IClass where | nop | alu | sfu | xl | ctl | mem | mtx | sys | pfx | none
  deriving DecidableEq, Repr, Inhabited

/-- The class of an opcode (R58); `0x1F0` to `0x1FF` have none. -/
def classOf (op : Nat) : IClass :=
  if op = 0 then .nop
  else if op < 0x80 then .alu
  else if op < 0xA0 then .sfu
  else if op < 0xC0 then .alu
  else if op < 0xE0 then .xl
  else if op < 0x100 then .ctl
  else if op < 0x160 then .mem
  else if op < 0x180 then .mtx
  else if op < 0x1C0 then .mem
  else if op < 0x1E0 then .sys
  else if op < 0x1F0 then .pfx
  else .none

/-- The privileged opcodes (R82): class SYS but for `MFSR`. -/
def privileged (op : Nat) : Bool := 0x1C0 ≤ op && op ≤ 0x1CE && op ≠ 0x1C1

/-- Opcodes that accept `PFX.L` (R73): per-lane work of classes ALU, SFU, XL and MEM. -/
def takesPfxL (op : Nat) : Bool :=
  (0x001 ≤ op && op ≤ 0x0DD) || op = 0x0DF || (0x100 ≤ op && op ≤ 0x13F && op ≠ 0x10E && op ≠ 0x10F
    && !(0x11C ≤ op && op ≤ 0x11E))

/-- Instructions that accept `PFX.W` (R73): a 64-bit operand coded `0x2FE`. No control (R73) and no exchange opcode (R137) does. -/
def takesPfxW (e : Env) (i : Instr) : Bool :=
  match insWord i with
  | none => false
  | some x =>
    let sh := shape e i
    let w (r : Role) (o : Opd) : Bool := o = .lit && r.lit && r.n = 2
    (match i with
     | .emwr _ | .pset _ | .shflAt _ _ | .shflLo _ _ | .shflHi _ _ | .shflFlip _ _ | .matchPeers _ _ | .matchUnan _ _ => false
     | _ => true) && (w sh.a x.opa || w sh.b x.opb || w sh.c x.opc)

/-- Opcodes that may not stand in a chain before its last latch reader (R69). -/
def barredInChain (op : Nat) : Bool :=
  (0x108 ≤ op && op ≤ 0x10C) || (0x114 ≤ op && op ≤ 0x117) || op = 0x119 || (0x120 ≤ op && op ≤ 0x13D)
    || (0x140 ≤ op && op ≤ 0x147) || classOf op = .mtx || (0x180 ≤ op && op ≤ 0x1BF) || classOf op = .sys
    || op = 0x0E8 || op = 0x0ED || (0x0F0 ≤ op && op ≤ 0x0F2) || (0x0F8 ≤ op && op ≤ 0x0FA)

/-- The latch indices an instruction reads. -/
def latchReads (i : Instr) : List Nat :=
  match insWord i with
  | none => []
  | some x => [x.opa, x.opb, x.opc].filterMap (fun o => match o with | .latch n => some n.toNat | _ => none)

/-- Whether an instruction produces a latch result (R66): a `v` or `s` result, or NW. -/
def makesLatch (e : Env) (i : Instr) : Bool :=
  match insWord i with
  | none => false
  | some x => (shape e i).lres && (x.nw || (match x.dst with | .v _ | .s _ => true | _ => false))

end Sys2Proof.Machine
end

