-- ==== Sys2Proof/Config.lean ====
section
/-! DEFINITION. What the spec leaves open: constants with no body, so that no proof can use a value of theirs. Each is
named in a row of notes/assumptions/. -/

namespace Sys2Proof.Config

/-- Which of several units that could move next does so, by the choice counter (R162 across quarters, R17, R454). -/
opaque pick : Nat → Nat
/-- Ticks of `CLOCK` that pass in a step, by the choice counter (R4, R395: timing is open). -/
opaque ticks : Nat → Nat
/-- Clks of the arithmetic clock, beyond one, that pass in a step, by the choice counter (R4). -/
opaque clks : Nat → Nat
/-- The partition that the management core gives a field at configuration (R378); 8 and above for none. -/
opaque fieldPart : Nat → Nat
/-- The core's index in the list of those that can take the work (R454), by the choice counter. -/
opaque place : Nat → Nat
/-- A byte whose value the spec leaves undefined (R404: rows that stop being direct), by the free counter. -/
opaque freeByte : Nat → Byte
/-- The part's fused unique id (R446). -/
opaque uid : W64
/-- The part's fused minimum image version (R446, R447). -/
opaque fusedRollmin : W64
/-- SHA3-256, the digest R444 and R445 name. -/
opaque sha3 : List Byte → BitVec 256
/-- ML-DSA-44 verification (R445): public key, signature, digest. -/
opaque mldsaVerify : List Byte → List Byte → BitVec 256 → Bool
/-- ML-DSA-44 signature with the key derived from UID (R452). -/
opaque mldsaSign : W64 → BitVec 256 → List Byte
/-- The vendor key hash fused into the part (R445). -/
opaque vendorKeyHash : BitVec 256
/-- SHA3-256 of the boot ROM (R452). -/
opaque romDigest : BitVec 256
/-- The stepping in PLID [23:16] (R446). -/
opaque stepping : Byte
/-- The reason number of a permission fault (R387 asks for "the reason number of its chapter", and no chapter numbers
its reasons), by an index of the reason texts. -/
opaque permDetail : Nat → Byte
/-- The writer id a watchpoint names for a base die's write (R389 gives none), by stack. -/
opaque rowWriter : Nat → Nat
/-- Where a CTXID's context control block lies, which firmware told the device (R397: `CTXSV.fill` names a CTXID alone). -/
opaque ccbAddr : W32 → W64
/-- The base of the pocket pool firmware reserved for a stream launch in a virtual field (R354). -/
opaque poolBase : Nat → W64
/-- The launch handle given to the n-th launch admitted (R182: an opaque id). -/
opaque handle : Nat → W32
/-- What each byte of the 512 KiB register part of a dump holds (R398 gives no layout): a slot, a register, a lane and a byte of it, as
((slot · 256 + register) · 64 + lane) · 4 + byte. -/
opaque dumpReg : Nat → Nat
/-- The size of an entry of an object's section table (0) and symbol table (1), which R91 does not give. -/
opaque iloEntry : Nat → Nat
/-- Which entry of a full translation buffer gives way (R207 does not say), by the choice counter, the buffer and the page. -/
opaque evict : Nat → Nat → Nat → Nat
/-- A byte that a unit reads from another device's memory over the link (R199), by the choice counter, device and address. -/
opaque remoteByte : Nat → Nat → Nat → Byte
/-- Whether fetch also reads the next line in sequence now (R209), by the choice counter and line. -/
opaque fetchAhead : Nat → Nat → Bool
/-- Whether an engine's or a system instruction's read outside the part ends in an error or a timeout (R225, R227, R432), by
the choice counter and address. -/
opaque readFails : Nat → Nat → Bool
/-- Whether a group resumed at a saved PC is held to the ENTRY bit there (R55 against R381 and R390). -/
opaque resumeEntry : Bool
/-- The domain that the management core sets for a 2 MiB unit now, if any (R414), by the choice counter: unit and domain. -/
opaque unitDomain : Nat → Option (Nat × BitVec 4)

end Sys2Proof.Config
end

