-- ==== Sys2Proof/Machine/State.lean ====
section
/-! DEFINITION. The state of the W9 as plain data: all the spec gives the machine, the reasons a step can stop, and the
state after reset. INVENTORY.md lists each field with its rule and its reset value. -/

namespace Sys2Proof.Machine

/-- Device memory and scratchpad: bytes by address, one canonical form. -/
abbrev Memory := List Host.Cell

/-- The states of a group slot that holds a group (R158; EMPTY is the absence of a record). -/
inductive SlotState where | ready | stalled | waiting | ending
  deriving DecidableEq, Repr, Inhabited

/-- What holds a WAITING group, or a STALLED one whose instruction completes later (R158). -/
inductive WaitOn where
  | none
  /-- `WAITPH` on the barrier at a physical scratch address, for a phase (R241). -/
  | phase (ba : Nat) (ph : BitVec 16)
  /-- `RKACQ` on a slot's barrier until a target phase is reached; then `s[sd] := val` (R251). -/
  | rack (ba : Nat) (target : BitVec 16) (sd : Nat) (val : W32)
  /-- `REQ` or `TRAP` on the slot's reply barrier; `sd`, `sA` for `REQ` (R173). -/
  | reply (ba : Nat) (ph : BitVec 16) (trap : Bool) (sd sA : Nat)
  /-- `WIN.WMARK` or `WIN.FLUSH` until its stream has processed the records before it; the reply goes to `s[sd]` (R373). -/
  | stream (lh : W32) (sd : Option Nat)
  /-- The quad rendezvous of R310. -/
  | quad (x : Instr)
  /-- Blocking loads, or stores held until their targets accept them, by tag (R210, R225, R443). -/
  | ext (tags : List Nat)
  /-- `HALT` until the context has stopped (R397). -/
  | halted (ctx : Nat) (sd : Nat)
  deriving DecidableEq, Repr, Inhabited

/-- How a group came to be (R157, R160, R178, R365). -/
inductive GKind where | grid | nbh | gang | pawn | window | tailor
  deriving DecidableEq, Repr, Inhabited

/-- A scratch window: the physical scratch address of each part, the part size, where the segment starts in the window
and how long it is (R177, R180, R194, R394). -/
structure Seg where
  parts : List Nat
  psize : Nat
  start : Nat
  limit : Nat
  deriving DecidableEq, Repr, Inhabited

/-- What the fetch unit found around the slot about to issue (R55, R68, R69, R70): latch results its chain has produced,
whether a later slot of the line reads a latch of this chain and then the chain's head, the restart PC and the slot in sequence. -/
structure Issue where
  latches : Nat
  reader : Bool
  head : Option W64
  restart : Option W64
  nextPc : Option W64
  deriving DecidableEq, Repr, Inhabited

/-- Where a translated access is performed (R284), by physical, bus, host or remote address. `devord` marks a device-ordered
page (R210). -/
inductive Loc where
  | scr (a : Nat)
  | dram (pa lat : Nat) (devord : Bool)
  | reg (pa : Nat)
  | host (port addr : Nat)
  | cxl (port addr : Nat)
  | peer (port addr : Nat)
  | remote (dev addr : Nat) (devord : Bool)
  deriving DecidableEq, Repr, Inhabited

/-- One lane's load or store after its checks (R210 to R214): the lane, the address a fault names, the place, the bytes and words moved,
a load's destination, extension and acquire scope, a store's data and release scope. -/
structure LaneJob where
  l : Nat
  a : Nat
  loc : Loc
  load : Bool
  z : Nat
  n : Nat
  dst : Opd
  sgn : Bool
  acq : Option Nat
  rel : Option Nat
  data : List Byte
  deriving DecidableEq, Repr, Inhabited

/-- A load in flight outside the part (R210, R225, R227): the words it writes once its data returns. `due` is `CLOCK` at its timeout,
0 for none (R225), `acq` the scope of an acquire, `key` its location in the memory order (R294). -/
structure PendLoad where
  tag : Nat
  dst : Opd
  words : Nat
  bytes : Nat
  signed : Bool
  lanes : List Nat
  addrs : List Nat
  blocking : Bool
  port : Option Nat
  dev : Option Nat
  pc : W64
  rpc : W64
  fatom : Bool
  vas : List Nat
  due : Nat
  acq : Option Nat
  key : Nat
  deriving DecidableEq, Repr, Inhabited

/-- Whose write a value is, in the memory order (R294, R295, R302): a release access, a relaxed store behind a fence, a release of
inbound traffic, which only `.sys` covers (R285), or any write of an access path, named by its class of R224. -/
inductive RelKind where | access | fence | inbound | path (cls : Nat)
  deriving DecidableEq, Repr, Inhabited

/-- A release in the memory order (R293, R294): its kind, who made it, at which scope, on a location of the N window or not, and
how far it had observed each group (a vector clock: the counts of their releases). -/
structure Rel where
  kind : RelKind
  uid : Nat
  ctx : Nat
  team : Nat
  lh : W32
  nbh : Bool
  nwin : Bool
  scope : Nat
  vc : SMap Nat
  deriving DecidableEq, Repr, Inhabited

/-- A group in its slot (R157, R158, R180). Registers are sparse: `v` by `64 * register + lane`, `s` and `p` by index,
`lat` by `64 * latch + lane`, per-lane registers by lane. `since` is the clk count at its last issue, or since it became
issuable (R162). `vc`, `fences`, `xfences` and `seen` carry the happens-before order of R294: what the group has observed, what it
had observed at its fences of each scope and at its `FENCE.X` of each class (R303), and the releases its relaxed reads read. `land`
is the transfer or dispatch that brought the group to a slot whose ENTRY bit is still to be checked (R55), `link` the register pair that
a call to such a slot wrote and what it held before (R166); `fetched` holds the lines that fetch already held for it at a `FENCE.X` (R305),
`todo` the lanes of its instruction that wait for earlier ones (R210). -/
structure Group where
  uid : Nat
  core : Nat
  slot : Nat
  ctx : Nat
  part : Nat
  lh : W32
  kind : GKind
  priv : Bool
  quads : Bool
  width : Nat
  vregs : Nat
  teamId : Nat
  index : W32
  team : W32
  teamN : W32
  nbh : W32
  entry : W64
  st : SlotState
  wait : WaitOn
  pc : W64
  em : W64
  live : W64
  lfault : W64
  v : SMap W32
  s : SMap W32
  p : SMap W64
  lat : SMap W64
  segS : Seg
  segN : Seg
  winS : Seg
  winN : Seg
  cbase : W64
  clim : W32
  pB : SMap W64
  pL : SMap W32
  qB : SMap W64
  qL : SMap W32
  winid : SMap W64
  wstart : SMap W64
  wend : SMap W64
  wcount : SMap W32
  pawnk : SMap W32
  pk : SMap Nat
  hint : Nat
  stamp : Nat
  since : Nat
  aged : Bool
  mseq : W32
  pfxW : Option W32
  sub : W64
  unit : Option W64
  iss : Issue
  loads : List PendLoad
  vc : SMap Nat
  fences : List (Nat × SMap Nat)
  xfences : List (Nat × SMap Nat)
  seen : List Rel
  land : Option W64
  link : Option (Nat × Nat)
  todo : List LaneJob
  fetched : List (Nat × BitVec 512)
  deriving DecidableEq, Repr, Inhabited

/-- A barrier object (R229), as it lies in scratchpad. -/
structure Barrier where
  pendb : BitVec 32
  expb : BitVec 32
  remote : Bool
  ovf : Bool
  valid : Bool
  penda : BitVec 16
  expa : BitVec 16
  phase : BitVec 16
  deriving DecidableEq, Repr, Inhabited

/-- The writer stamp of a 32-byte sector (R290): the group, its virtual core and its slot, its team's interval, the bytes it wrote
in that interval, and its release count at the write of each (the model's own, for R294). -/
structure Stamp where
  uid : Nat
  core : Nat
  slot : Nat
  interval : Nat
  mask : W32
  clks : SMap Nat
  deriving DecidableEq, Repr, Inhabited

/-- A resident team (R176, R177, R191, R290). -/
structure Team where
  id : Nat
  lh : W32
  idx : Nat
  count : Nat
  live : Nat
  lanesOff : Nat
  firstGroup : Nat
  firstOff : W64
  masks : List W64
  faulted : Bool
  interval : Nat
  arrived : List Nat
  win : Seg
  cores : List Nat
  deriving DecidableEq, Repr, Inhabited

/-- A launch (R178, R191): its descriptor's 128 bytes and its progress; `vc` is what happened before its start, `endVc` what its
ended groups had observed (R329). -/
structure Launch where
  lh : W32
  ctx : Nat
  part : Nat
  hwslot : Nat
  ridx : W32
  descA : W64
  desc : List Byte
  placed : List Nat
  ended : List Nat
  started : Bool
  hintIgnored : Bool
  dropped : W64
  firstDrop : W64
  lanesOff : W64
  firstOff : W64
  firstEntry : W64
  pawnFault : Bool
  ctxFaulted : Bool
  done : Bool
  vc : SMap Nat
  endVc : SMap Nat
  deriving DecidableEq, Repr, Inhabited

/-- A pawn in a field's pawn store, with the clock at its arrival (R183); `field` is virtual. -/
structure Queued where
  field : Nat
  pawn : Pawn
  clk : Nat
  aside : Bool
  deriving DecidableEq, Repr, Inhabited

/-- The codes of R256. -/
inductive JobState where | queued | running | stopped | done | error | aborted
  deriving DecidableEq, Repr, Inhabited

/-- The fingerprint fields of R267 and R277. -/
structure Fprint where
  count : W64
  nanc : W64
  sum : W64
  sumsq : W64
  maxf : W32
  deriving DecidableEq, Repr, Inhabited

/-- A copy or gather job (R254 to R257, R265 to R270, R278): `field` is virtual, `next` the chunks (copy, units with DEV) or
indices (gather) completed, `sub` the bytes of the current chunk done (units since the last record with DEV), `claim` the slot
claimed in a rack and `wait` the barrier and phase it waits for, `saved` the fingerprint at the last boundary. `held` is the source
of a chunk that a quantise has read whole (R272), `landed` says that a chunk is landed and recorded and only NEXT is left to write
(R266), `vc` is what happened before the job's accesses (R303, R329). -/
structure Job where
  field : Nat
  gather : Bool
  entry : Nat
  gen : BitVec 16
  st : JobState
  err : Nat
  ctx : Nat
  part : Nat
  guid : Nat
  order : Bool
  badOpt : Bool
  descA : W64
  segS : Seg
  segN : Seg
  desc : List Byte
  eng : Option Nat
  next : Nat
  sub : Nat
  saved : Fprint
  cur : Fprint
  claim : Option Nat
  rackReady : Bool
  wait : Option (Nat × BitVec 16)
  abort : Bool
  erra : W64
  endclk : W64
  packet : Option (Nat × W32)
  held : List Byte
  landed : Bool
  vc : SMap Nat
  deriving DecidableEq, Repr, Inhabited

/-- A row job of a base die (R409, R411, R412): its ranges by physical address, which one page holds, and what happened before its
accesses (R303, R304). -/
structure RowJob where
  stack : Nat
  id : W32
  ctx : Nat
  init : Bool
  entry : Nat
  src : Nat
  dst : Nat
  len : Nat
  pat : Nat
  comp : W64
  vc : SMap Nat
  deriving DecidableEq, Repr, Inhabited

/-- What reaches a row (R401, R405, R410): an access, or a row function. -/
inductive RowCmd where | read | write | prom | pin | dem | unpin
  deriving DecidableEq, Repr, Inhabited

/-- A request to a row (its stack-local offset in KiB), with the LAT hint of an access (R401). -/
structure RowReq where
  cmd : RowCmd
  row : Nat
  lat : Nat
  deriving DecidableEq, Repr, Inhabited

/-- A promotion slot (R405, R406): the slow row it serves (1 + its stack-local offset in KiB; 0 in no slot) and its state. While
a victim is written back, `next` is the row (1 + its offset) that is copied in after it, and whether to pin it; `held` are the
requests that wait for the copy to end. -/
structure RowSlot where
  row : Nat
  dirty : Bool
  pin : Bool
  busy : Bool
  writingBack : Bool
  epoch : BitVec 16
  next : Option (Nat × Bool)
  held : List RowReq
  deriving DecidableEq, Repr, Inhabited

/-- A cached translation: the buffer that holds it, address space, page base, level, leaf and shape descriptor (R207). Buffers:
4 · core + quarter the first-level ones, 1,536 + field the second-level ones. -/
structure TlbEnt where
  buf : Nat
  ctx : Nat
  base : Nat
  lvl : Nat
  leaf : W64
  desc : List Byte
  deriving DecidableEq, Repr, Inhabited

/-- A line in a core's instruction buffer (R11, R56, R305). -/
structure IbufLine where
  core : Nat
  ctx : Nat
  va : Nat
  line : BitVec 512
  deriving DecidableEq, Repr, Inhabited

/-- A matrix operation past its rendezvous (R317, R319), queued until it begins in the array: the member's A and band
registers and the four members' B fragments, by `64 * register + lane` from the fragment's first register. -/
structure MatOp where
  core : Nat
  quarter : Nat
  guid : Nat
  x : Instr
  act : W64
  begun : Bool
  a : SMap W32
  b : List (SMap W32)
  c : SMap W32
  deriving DecidableEq, Repr, Inhabited

/-- A request of R172 in its core's mailbox, with the group that made it; `answered` once the tailor's reply to it has been made (R174). -/
structure MbxReq where
  uid : Nat
  core : Nat
  slot : Nat
  seq : W32
  ctx : Nat
  claimed : Bool
  answered : Bool
  deriving DecidableEq, Repr, Inhabited

/-- The recorded fault of a unit (R386, R387). `unit` none: a group of the core. -/
structure FaultRec where
  unit : Option Nat
  core : Nat
  slot : Nat
  reason : Nat
  detail : Byte
  pc : W64
  rpc : W64
  faddr : W64
  lanes : W64
  wcls : Nat
  aux : W64
  deriving DecidableEq, Repr, Inhabited

/-- The state codes of R380. -/
inductive CtxState where | absent | filling | shadow | active | spilling | saved | halted | faulted | dead
  deriving DecidableEq, Repr, Inhabited

/-- What a context holds while it is not in the active banks (R382); cores are virtual in it. -/
structure Image where
  groups : List Group
  teams : List Team
  scr : Memory
  ptab : SMap Byte
  ptLock : List Nat
  stamps : SMap Stamp
  rels : SMap (List Rel)
  phases : SMap (SMap Nat)
  deriving DecidableEq, Repr, Inhabited

/-- A context (R379, R380): where its CCB lies, what the device took from it, and its stop. `inBanks` says that it is in the
active banks, `spilling` that its image is still being written (R382). -/
structure Ctx where
  id : Nat
  ccb : Nat
  st : CtxState
  part : Nat
  hf : Bool
  dbg : Bool
  root : Nat
  sdtb : W64
  sdtn : W32
  ncore : Nat
  imga : Nat
  stopa : Nat
  remapA : Nat
  vfield : List Nat
  vcore : List Nat
  wp : List (BitVec 128)
  wpHit : List Nat
  line : Bool
  lineHalt : Option Byte
  faults : List FaultRec
  image : Option Image
  inBanks : Bool
  spilling : Bool
  deriving DecidableEq, Repr, Inhabited

/-- A remote arrival parked for a context that is out (R247), with what its sender had observed (R299). -/
structure Parked where
  ctx : Nat
  vc : SMap Nat
  ba : Nat
  n : BitVec 16
  deriving DecidableEq, Repr, Inhabited

/-- A partition (R378, R381, R247, R336, R385, R395). `swapAt`: the clock at which the deferral limit of a requested swap
passes; `swapDue`: its deferral has ended; `swapHeld`: a fault cancelled it until `RFT` or `DUMP`; `lastSwap`: 1 + the clock of
the last exchange, 0 before the first; `tickAt`: the clock at which the last scheduling tick fell. -/
structure Part where
  fields : List Nat
  halt : Bool
  swap : Bool
  swapAt : Nat
  swapDue : Bool
  swapHeld : Bool
  lastSwap : Nat
  deflim : BitVec 16
  parked : List Parked
  sbarWin : Option Seg
  hbarWin : Option Seg
  atNonce : List Byte
  tickAt : Nat
  deriving DecidableEq, Repr, Inhabited

/-- A hardware queue slot (R324, R332, R333): `owned` says that the management core has assigned it to its partition, `qcbp` is
the physical address at which the QCB of SLQCBA was mapped. -/
structure HwSlot where
  part : Nat
  owned : Bool
  map : Bool
  qnum : Nat
  qst : Nat
  ovr : Bool
  thr : Bool
  ridx : W32
  widx : W32
  infl : BitVec 16
  period : W32
  budget : W32
  used : W64
  relt : W64
  deadl : W64
  ovrc : W32
  qcba : W64
  qcbp : Nat
  ctx : Nat
  deriving DecidableEq, Repr, Inhabited

/-- A packet started and not complete (R328): its 64 bytes; `due` is the clock of a WAITMEM's timeout, 0 with none, or the tag
of a SIGNAL's link transaction; `stage` is 1 once a SIGNAL's write is performed and its message waits for the link. -/
structure Pkt where
  slot : Nat
  ridx : W32
  kind : Nat
  addr : W64
  data : List Byte
  due : Nat
  stage : Nat
  deriving DecidableEq, Repr, Inhabited

/-- A `FETCHW` request at the distributor (R189). -/
structure FetchReq where
  ctx : Nat
  descA : W64
  mbx : Nat
  deriving DecidableEq, Repr, Inhabited

/-- A pawn queued on a window or pane (R356, R359, R362): its kind, and what its argument words name. -/
structure WPawn where
  kind : Nat
  num : W64
  other : Option Nat
  incomplete : Bool
  ring : Option W32
  deriving DecidableEq, Repr, Inhabited

/-- The state codes of R355. -/
inductive PkState where | idle | running | closing | absorbed | filling | shared
  deriving DecidableEq, Repr, Inhabited

/-- An entry of the window table: a window or a pane, with its pocket (R354, R355). `last`: the pane has received its last
record, or the window's closing trigger has fired and its CLOSE waits for PANE pawns (R358). `disp`: the pawn in flight has
been dispatched to a lane. `close` is the close time, the END record for count windows; `field` is virtual. `vc` is what the
lanes that parked had observed (R296), `idle` the clock at which the last pawn of its pocket ended (R364). -/
structure Win where
  id : Nat
  pane : Bool
  key : W64
  wid : W64
  start : Nat
  stop : Nat
  close : Nat
  rcount : W32
  st : PkState
  incomplete : Bool
  last : Bool
  pref : Nat
  queue : List WPawn
  inflight : Option WPawn
  disp : Bool
  field : Nat
  pocket : W64
  vc : SMap Nat
  idle : Nat
  deriving DecidableEq, Repr, Inhabited

/-- A stream launch taken up by the window engines (R343 to R376): its extension, the ring records not yet read (`next`),
read by the last poll (`seen`) and retired, the records that pawns not yet ended name, the counts of R375, and the `EMITR`s
under way (egress ring, group, lanes written) and the commands of R373 and R374 that wait for the records before an index:
0 a watermark, 1 a flush that emits, 2 one that discards, with its value and the group that waits for its reply. `vc` is what the
reader's acquires have observed (R346), `asked` the pockets a pawn has been queued for whose rows are yet to be promoted, `resting` the
pockets back in their pools: virtual field, address, and the clock at which the last pawn ended (R364). -/
structure Stream where
  lh : W32
  ctx : Nat
  ext : List Byte
  next : W32
  seen : W32
  retired : W32
  named : List W32
  wm : W64
  late : W64
  malformed : W64
  opened : W64
  closed : W64
  dropped : W64
  read : W64
  nextWid : Nat
  nextId : Nat
  counts : List (W64 × W64)
  wins : List Win
  paused : Bool
  flushed : Bool
  disarmed : List Nat
  emits : List (Nat × Nat × Nat)
  cmds : List (W32 × Nat × W64 × Nat)
  vc : SMap Nat
  asked : List Nat
  resting : List (Nat × Nat × Nat)
  deriving DecidableEq, Repr, Inhabited

/-- A posted store to a host, CXL or peer page, not yet performed (R225, R226, R443); `va` is the address a fault names, `flushed`
says that a flushing read has been sent behind it (R300), `due` is `CLOCK` at its timeout, 0 for none. One of an engine has `guid` 0
and its unit number in `slot`. -/
structure Posted where
  tag : Nat
  core : Nat
  slot : Nat
  guid : Nat
  ctx : Nat
  port : Nat
  peer : Bool
  cxl : Bool
  addr : Nat
  data : List Byte
  pc : W64
  va : Nat
  flushed : Bool
  due : Nat
  deriving DecidableEq, Repr, Inhabited

/-- An outstanding link transaction (R424, R431, R432); `va` is the address a fault names, `vc` what the sender of an arrival had
observed (R299), `sent` is `CLOCK` at its first flit, `unsent` says that the send window holds it (R431), and `record` the unit whose
record of R457 it is. -/
structure Xact where
  tag : Nat
  dst : Nat
  port : Nat
  kind : Nat
  size : Nat
  guid : Nat
  core : Nat
  slot : Nat
  ctx : Nat
  pc : W64
  addr : Nat
  ord : Bool
  load : Bool
  retry : Bool
  payload : List Byte
  va : Nat
  vc : SMap Nat
  sent : Nat
  unsent : Bool
  record : Option Nat
  deriving DecidableEq, Repr, Inhabited

/-- An interrupt that waits for the link transactions whose writes it reports, and for room to send it (R329, R431, R443): an MSI-X
message's port and vector, or the partition, device and buffer of a kind-9 message, with what its sender had observed. -/
structure Irq where
  tags : List Nat
  msix : Option (Nat × Nat)
  part : Nat
  dev : Nat
  data : List Byte
  vc : SMap Nat
  deriving DecidableEq, Repr, Inhabited

/-- A link port (R418, R419); `known` says that it has been UP or DEGRADED since reset, so that PEERID and LPEPOCH are its far
end's (R437). -/
structure LPort where
  st : Nat
  tx : Nat
  rx : Nat
  peer : BitVec 14
  epoch : W32
  retries : W64
  enable : Bool
  quiesce : Bool
  known : Bool
  deriving DecidableEq, Repr, Inhabited

/-- What the part sends out: interrupts, events to the management core, traffic on its ports. -/
inductive Out where
  | msix (port vector : Nat)
  | fatal (what : Nat)
  | overrun (slot qnum : Nat) (ridx : W32) (infl : BitVec 16)
  | deferral (part : Nat)
  | portEvent (port st : Nat)
  | hostWrite (port addr : Nat) (data : List Byte)
  | hostAdd (port addr : Nat) (val : W64)
  | busWrite (port addr : Nat) (data : List Byte)
  | busRead (port addr n : Nat)
  | hostRead (port addr n : Nat)
  | flit (port dst kind tag : Nat) (ord : Bool) (addr : Nat) (data : List Byte)
  | response (port dst kind tag : Nat) (st : Resp) (data : List Byte)
  | pcieReply (port : Nat) (ok : Bool) (data : List Byte)
  deriving DecidableEq, Repr, Inhabited

/-- The power and boot modes of R445, R448 and R449. -/
inductive Mode where | boot | running | recovery | tripped
  deriving DecidableEq, Repr, Inhabited

/-- Why a step stops for good. Every fault the spec describes is TAKEN (a next state with the halt line raised); the one
reason here is raised by a meaning asked to act for a group slot that holds no group. -/
inductive Fault where
  /-- Raised by every instruction's meaning when `State.cur` names an EMPTY slot, where no instruction can issue
  (R158). Safe: `step` never issues there. -/
  | emptySlot
  deriving DecidableEq, Repr, Inhabited

/-- Why the model gives no meaning. -/
inductive Refusal where
  /-- Raised by an arm of Machine/Dispatch.lean whose instruction has no meaning yet. Safe: nothing is claimed of it. -/
  | notModelled (mnemonic : String)
  deriving DecidableEq, Repr, Inhabited

/-- The whole machine. `clks` counts the clks of the arithmetic clock (R4); `qclk` holds what a queue's kicks and waits have
observed, and what its completed packets had (R329); `cxl` the MODE each PCIe port sampled (R441); `rnonce` the nonce that a recovery
attestation latched (R452). -/
structure State where
  mode : Mode
  turn : Nat
  free : Nat
  clock : W64
  clks : Nat
  cur : Nat × Nat
  arg : Arg
  agenda : List (Instr × Arg)
  out : List Out
  nextId : Nat
  groups : List Group
  scr : Memory
  ptab : SMap Byte
  ptLock : List Nat
  stamps : SMap Stamp
  rels : SMap (List Rel)
  phases : SMap (SMap Nat)
  ibuf : List IbufLine
  arrays : List MatOp
  mbx : List MbxReq
  reqSeq : SMap W32
  tlb : List TlbEnt
  mem : Memory
  undef : List (Nat × Nat × Nat)
  bad : List Nat
  lineDom : SMap (BitVec 4)
  unitDom : SMap (BitVec 4)
  rows : SMap RowSlot
  stEpoch : SMap (BitVec 16)
  rowJobs : List RowJob
  parts : List Part
  ctxs : List Ctx
  hwslots : List HwSlot
  pkts : List Pkt
  qclk : SMap (SMap Nat)
  launches : List Launch
  nextHandle : Nat
  teams : List Team
  pawns : List Queued
  fetchws : List FetchReq
  jobs : List Job
  jobGen : SMap (BitVec 16)
  streams : List Stream
  pools : SMap W64
  regs : SMap W64
  ports : List LPort
  cxl : BitVec 2
  xacts : List Xact
  posted : List Posted
  irqs : List Irq
  epoch : W32
  flash : Memory
  rollmin : Option W64
  tripped : Bool
  bootB : Bool
  staging : Memory
  rstat : BitVec 3
  rcmd : Nat
  rtimer : Bool
  rnonce : List Byte
  deriving DecidableEq, Repr, Inhabited

/-- A partition before the management core has configured it (R378, R395: DEFLIM 50). -/
def Part.reset : Part :=
  { fields := [], halt := false, swap := false, swapAt := 0, swapDue := false, swapHeld := false, lastSwap := 0, deflim := 50,
    parked := [], sbarWin := none, hbarWin := none, atNonce := [], tickAt := 0 }

/-- A hardware queue slot at reset (R332). -/
def HwSlot.reset : HwSlot :=
  { part := 0, owned := false, map := false, qnum := 0, qst := 0, ovr := false, thr := false, ridx := 0, widx := 0, infl := 0,
    period := 0, budget := 0, used := 0, relt := 0, deadl := 0, ovrc := 0, qcba := 0, qcbp := 0, ctx := 0 }

/-- A link port at reset (R418, R419: DOWN). -/
def LPort.reset : LPort :=
  { st := 0, tx := 0, rx := 0, peer := 0, epoch := 0, retries := 0, enable := false, quiesce := false, known := false }

/-- Firmware's own address space (R160, R378): context 0, always ACTIVE, in no partition's banks. -/
def Ctx.firmware : Ctx :=
  { id := 0, ccb := 0, st := .active, part := 0, hf := false, dbg := false, root := 0, sdtb := 0, sdtn := 0,
    ncore := 384, imga := 0, stopa := 0, remapA := 0, vfield := [], vcore := [], wp := [], wpHit := [], line := false,
    lineHalt := none, faults := [], image := none, inBanks := false, spilling := false }

/-- The device right after its first reset (R437, R445): the boot ROM is about to check the firmware slots, nothing is
resident, and every register holds the reset value of its map. -/
def State.reset : State :=
  { mode := .boot, turn := 0, free := 0, clock := 0, clks := 0, cur := (0, 0), arg := {}, agenda := [], out := [], nextId := 1, groups := [],
    scr := [], ptab := [], ptLock := [], stamps := [], rels := [], phases := [], ibuf := [], arrays := [], mbx := [],
    reqSeq := [], tlb := [],
    mem := [], undef := [], bad := [], lineDom := [], unitDom := [], rows := [], stEpoch := [], rowJobs := [],
    parts := List.replicate 8 Part.reset, ctxs := [Ctx.firmware], hwslots := List.replicate 64 HwSlot.reset, pkts := [], qclk := [],
    launches := [], nextHandle := 1, teams := [], pawns := [], fetchws := [], jobs := [], jobGen := [], streams := [],
    pools := [], regs := [], ports := List.replicate 16 LPort.reset, cxl := 0, xacts := [], posted := [], irqs := [], epoch := 1, flash := [],
    rollmin := none, tripped := false, bootB := false, staging := [], rstat := 0, rcmd := 0, rtimer := false, rnonce := [] }

end Sys2Proof.Machine
end

