-- ==== Sys2Proof/Machine/Operands.lean ====
section
/-! DEFINITION. A group's registers, its effective mask, the operand forms of R61 to R63 and R455, latch results (R66) and
the end of an instruction (R55, R158). -/

namespace Sys2Proof.Machine
open Sys2Proof

/-! ## Registers -/

/-- `v[n]` in lane l, `s[n]`, a latch entry, a predicate bit (p7 reads true, R64). -/
def rdV (g : Group) (n l : Nat) : Nat := (SMap.get 0 g.v (64 * n + l)).toNat
def rdS (g : Group) (n : Nat) : Nat := (SMap.get 0 g.s n).toNat
def rdLat (g : Group) (j l : Nat) : Nat := (SMap.get 0 g.lat (64 * j + l)).toNat
def rdP (g : Group) (k l : Nat) : Bool := if k = 7 then true else (SMap.get 0 g.p k).getLsbD l

/-- Write one lane of a `v` register, one `s` register; values are taken modulo 2^32. -/
def wrV (g : Group) (n l x : Nat) : Group := { g with v := SMap.put 0 g.v (64 * n + l) (BitVec.ofNat 32 x) }
def wrS (g : Group) (n x : Nat) : Group := { g with s := SMap.put 0 g.s n (BitVec.ofNat 32 x) }

/-- Write consecutive registers from a list of 32-bit words. -/
def wrVs (g : Group) (n l : Nat) (xs : List Nat) : Group := (xs.zipIdx).foldl (fun g xi => wrV g (n + xi.2) l xi.1) g
def wrSs (g : Group) (n : Nat) (xs : List Nat) : Group := (xs.zipIdx).foldl (fun g xi => wrS g (n + xi.2) xi.1) g

/-- A value as `k` 32-bit words, low word first (R62). -/
def words : Nat → Nat → List Nat
  | 0, _ => []
  | k + 1, x => x % 2 ^ 32 :: words k (x / 2 ^ 32)

/-- `k` registers as one value. -/
def rdVs (g : Group) (n l k : Nat) : Nat := (List.range k).foldr (fun i a => rdV g (n + i) l + 2 ^ 32 * a) 0
def rdSs (g : Group) (n k : Nat) : Nat := (List.range k).foldr (fun i a => rdS g (n + i) + 2 ^ 32 * a) 0

/-- Write a predicate in the given lanes (R64: an index of 7 writes nothing). -/
def wrP (g : Group) (k : Nat) (lanes : List Nat) (f : Nat → Bool) : Group :=
  if k = 7 then g
  else { g with p := SMap.put 0 g.p k ((SMap.get 0 g.p k &&& ~~~ maskOf lanes) ||| maskOf (lanes.filter f)) }

/-! ## The effective mask (R64) -/

def guardMask (g : Group) (x : InsWord) : W64 :=
  let m := if x.pidx = 7 then BitVec.allOnes 64 else SMap.get 0 g.p x.pidx.toNat
  if x.pneg then ~~~ m else m

/-- `EffMask`: `EM`, the guard and the `PFX.L` sub-mask, within the group's width. -/
def effMask (g : Group) (x : InsWord) : W64 := g.em &&& guardMask g x &&& g.sub &&& widthMask g.width

/-- `Active()`, ascending. -/
def active (g : Group) (x : InsWord) : List Nat := lanesOf (effMask g x) g.width

/-- The group's lanes. -/
def allLanes (g : Group) : List Nat := List.range g.width

/-! ## Operands (R61 to R63, R455) -/

/-- A 32-bit integer or bit-pattern operand in a lane. -/
def src32 (g : Group) (x : InsWord) (o : Opd) (l : Nat) : Nat :=
  match o with
  | .v n => rdV g n.toNat l
  | .s n => rdS g n.toNat
  | .latch j => rdLat g j.toNat l % 2 ^ 32
  | .lit => x.lit.toNat
  | .zero => 0
  | .imm n => (n.signExtend 32).toNat

/-- A 64-bit operand in a lane; `sgn` where R455 makes a literal signed. -/
def src64 (g : Group) (x : InsWord) (sgn : Bool) (o : Opd) (l : Nat) : Nat :=
  match o with
  | .v n => rdVs g n.toNat l 2
  | .s n => rdSs g n.toNat 2
  | .latch j => rdLat g j.toNat l
  | .lit =>
    match g.pfxW with
    | some w => w.toNat * 2 ^ 32 + x.lit.toNat
    | none => if sgn then (x.lit.signExtend 64).toNat else x.lit.toNat
  | .zero => 0
  | .imm n => (n.signExtend 64).toNat

/-- A 32- or 64-bit operand. -/
def src (g : Group) (x : InsWord) (w sgn : Bool) (o : Opd) (l : Nat) : Nat :=
  if w then src64 g x sgn o l else src32 g x o l

/-- A scalar float operand as a code of its format: registers and latches give their low bits, the literal is an f32 rounded
to the format, imm8 an integer converted exactly (R63, R115). -/
def srcF (g : Group) (x : InsWord) (f : FFmt) (o : Opd) (l : Nat) : Nat :=
  let F := ffmt f
  match o with
  | .lit => if f = .f32 then x.lit.toNat else roundF F 0 false (f32v x.lit.toNat)
  | .imm n => roundF F 0 false (.fin (n.msb) n.toInt.natAbs 0)
  | o => src32 g x o l % 2 ^ (F.mbits + F.ebits + 1)

/-! ## Results -/

/-- A new latch result: the entries move down and `L3` is lost (R66). -/
def pushLat (g : Group) (f : Nat → Nat) : Group :=
  { g with lat := (allLanes g).filterMap (fun l => if f l % 2 ^ 64 = 0 then none else some (l, BitVec.ofNat 64 (f l)))
      ++ (g.lat.filter (fun kv => kv.1 < 192)).map (fun kv => (kv.1 + 64, kv.2)) }

/-- Write a result of `k` registers to DST in the given lanes, or once for the group to an `s` register from the lowest of
them (R99, R133), and enter it in `L0` (R66, R67). -/
def wrRes (g : Group) (x : InsWord) (k : Nat) (lanes : List Nat) (f : Nat → Nat) : Group :=
  if x.nw then pushLat g (fun l => if l ∈ lanes then f l else 0)
  else match x.dst with
    | .v n =>
      let g1 := { g with v := SMap.putAll 0 g.v (lanes.flatMap (fun l =>
        ((words k (f l)).zipIdx).map (fun xi => (64 * (n.toNat + xi.2) + l, BitVec.ofNat 32 xi.1)))) }
      pushLat g1 (fun l => rdVs g1 n.toNat l k)
    | .s n =>
      let g1 := match lanes with
        | [] => g
        | l :: _ => wrSs g n.toNat (words k (f l))
      pushLat g1 (fun _ => rdSs g1 n.toNat k)
    | _ => g

/-- A result in the lanes of `Active()`. -/
def alu (g : Group) (x : InsWord) (k : Nat) (f : Nat → Nat) : Group := wrRes g x k (active g x) f

/-- Write a 32-bit status or reply to an `s` destination; other destinations take none (R77, R236, R392). -/
def wrDstS (g : Group) (x : InsWord) (r : Nat) : Group :=
  match x.dst with
  | .s n => wrS g n.toNat r
  | _ => g

/-! ## Issue and completion -/

/-- The group in a slot of a core; none when the slot is EMPTY. -/
def groupAt (s : State) (core slot : Nat) : Option Group := s.groups.find? (fun g => g.core = core && g.slot = slot)

/-- The group an instruction acts for. -/
def curGroup (s : State) : Option Group := groupAt s s.cur.1 s.cur.2

/-- Put a group back into its slot. -/
def setGroup (s : State) (g : Group) : State :=
  { s with groups := updWhere s.groups (fun h => h.core = g.core && h.slot = g.slot) (fun _ => g) }

/-- A step of another unit that is now due goes to the end of the agenda. -/
def enqueue (s : State) (i : Instr) (a : Arg) : State := { s with agenda := s.agenda ++ [(i, a)] }

/-- The slot in sequence after a PC (R55). -/
def seqNext (pc : W64) : W64 :=
  if pc.toNat % 8 < 4 then pc + 1 else BitVec.ofNat 64 (pc.toNat / 64 * 64 + 64)

/-- `Next`: the slot in sequence after the instruction, or after its pair (R55). -/
def nextPc (g : Group) : W64 := g.iss.nextPc.getD (seqNext g.pc)

/-- The restart PC of R70 and R75: the chain head, else the unit's first prefix, else the instruction. -/
def restartPc (g : Group) : W64 :=
  match g.iss.restart with
  | some p => p
  | none => g.unit.getD g.pc

/-- A group with its prefix unit closed (R74). -/
def closeUnit (g : Group) : Group := { g with pfxW := none, sub := BitVec.allOnes 64, unit := none }

/-- A group that goes on READY at a PC; leaving a stall or wait gives a new ready stamp (R158, R162). -/
def readyAt (s : State) (g : Group) (pc : W64) : Group :=
  let fresh := g.st ≠ .ready
  closeUnit { g with pc := pc, stamp := if fresh then s.clks else g.stamp, since := if fresh then s.clks else g.since
                     st := .ready, wait := .none }

/-- A group whose last lane has ended enters ENDING and drops its pending register results (R158). -/
def endIfDead (g : Group) : Group := if g.live = 0 then { g with st := .ending, wait := .none, loads := [] } else g

/-- The state once a group has moved on: an ending group is due to retire, and its quad to notice (R311). -/
def putMoved (s : State) (g : Group) : State :=
  let s1 := setGroup s (endIfDead g)
  if g.live = 0 then
    let s2 := enqueue s1 .groupRetire { core := g.core, slot := g.slot }
    if g.quads then enqueue s2 .quadRendezvous { team := g.teamId, quad := g.index.toNat / 4 } else s2
  else s1

/-- An instruction completes: its group goes on at `Next`. -/
def finish (s : State) (g : Group) : State := putMoved s (readyAt s g (nextPc g))

/-- An instruction completes by a transfer: fetch drops what it held in sequence (R305); `land` names the transfer when its target's
ENTRY bit is still to be checked (R55). -/
def finishAt (s : State) (g : Group) (pc : W64) (land : Option W64) : State :=
  putMoved s { readyAt s g pc with fetched := [], land := land, iss := default }

/-- The group is held at its instruction, which is tried again (R158 STALLED). -/
def stallOf (s : State) (g : Group) : State := setGroup s { g with st := .stalled }

/-- The meaning of an instruction that changes its own group's registers only. -/
def onGroup (s : State) (f : Group → Group) : Host.Outcome State Fault Refusal :=
  match curGroup s with
  | none => .fault .emptySlot
  | some g => .next (finish s (f g))

/-- The meaning of an instruction that acts on its group and on the machine. -/
def withGroup (s : State) (f : Group → State) : Host.Outcome State Fault Refusal :=
  match curGroup s with
  | none => .fault .emptySlot
  | some g => .next (f g)

end Sys2Proof.Machine
end

