-- ==== Sys2Proof/Machine/Flags.lean ====
section
/-! DEFINITION. Conditions and predicates: the W9 keeps no flags; a comparison's outcome goes to a predicate or a register
(R110, R118, R138). -/

namespace Sys2Proof.Machine
open Sys2Proof

/-- The integer conditions of R110; codes 6 and 7 do not decode. -/
def intCond (cc : Nat) (a b : Int) : Bool :=
  match cc with
  | 0 => a = b
  | 1 => a ≠ b
  | 2 => a < b
  | 3 => a ≤ b
  | 4 => b < a
  | 5 => b ≤ a
  | _ => false

/-- The float conditions of R118. -/
def floatCond (cc : Nat) (a b : FVal) : Bool :=
  match cc, a.cmp b with
  | 0, c => c = some .eq
  | 1, c => c ≠ some .eq
  | 2, c => c = some .lt
  | 3, c => c = some .lt || c = some .eq
  | 4, c => c = some .gt
  | 5, c => c = some .gt || c = some .eq
  | 6, c => c.isSome
  | _, c => c.isNone

/-- The combine codes of R110. -/
def combine (cb : Nat) (old cond : Bool) : Bool :=
  match cb with
  | 0 => cond
  | 1 => old && cond
  | 2 => old || cond
  | _ => old != cond

/-- Write predicate pD in the lanes of `Active()`, combined with its old value (R110, R118). -/
def setPred (g : Group) (x : InsWord) (pd cb : Nat) (f : Nat → Bool) : Group :=
  wrP g pd (active g x) (fun l => combine cb (rdP g pd l) (f l))

/-- The selected lanes B of R138. -/
def selected (g : Group) (x : InsWord) (ps : Nat) (neg : Bool) : List Nat :=
  (active g x).filter (fun l => rdP g ps l != neg)

end Sys2Proof.Machine
end

