-- ==== Sys2Proof/Machine/Float.lean ====
section
/-! DEFINITION. Scalar float, conversion, packed and special-function instructions (R114 to R131). -/

namespace Sys2Proof.Machine
open Sys2Proof

/-- The modifiers of R114: rounding code, FTZ, SAT, and NEG and ABS of an operand (0 a, 1 b, 2 c). -/
def fRnd (x : InsWord) : Nat := modF x 2 0
def fFtz (x : InsWord) : Bool := x.mod.getLsbD 3
def fSat (x : InsWord) : Bool := x.mod.getLsbD 4
def fNeg (x : InsWord) (k : Nat) : Bool := x.mod.getLsbD (5 + k)
def fAbs (x : InsWord) (k : Nat) : Bool := k < 2 && x.mod.getLsbD (8 + k)

/-- `Src` of R115 on a code: flush under FTZ, then ABS, then NEG. -/
def fSrcOf (F : Fmt) (ftz abs neg : Bool) (c : Nat) : FVal :=
  let v := FVal.decode F (flush F ftz c)
  let v1 := if abs then v.abs else v
  if neg then v1.neg else v1

/-- The same on a code kept as a code, for `FMIN` and `FMAX`, which return a source unrounded (R117). -/
def fSrcCode (F : Fmt) (ftz abs neg : Bool) (c : Nat) : Nat :=
  let n := F.mbits + F.ebits
  let c1 := flush F ftz c % 2 ^ (n + 1)
  let c2 := if abs then c1 % 2 ^ n else c1
  if neg then (if c2 < 2 ^ n then c2 + 2 ^ n else c2 - 2 ^ n) else c2

/-- A scalar float operand as a value. -/
def fArg (f : FFmt) (g : Group) (x : InsWord) (k : Nat) (o : Opd) (l : Nat) : FVal :=
  fSrcOf (ffmt f) (fFtz x) (fAbs x k) (fNeg x k) (srcF g x f o l)

def fArgCode (f : FFmt) (g : Group) (x : InsWord) (k : Nat) (o : Opd) (l : Nat) : Nat :=
  fSrcCode (ffmt f) (fFtz x) (fAbs x k) (fNeg x k) (srcF g x f o l)

/-- `Res` of R115 with the instruction's rounding, FTZ and SAT. -/
def fRes (F : Fmt) (x : InsWord) (v : FVal) : Nat := resF F (fRnd x) (fFtz x) (fSat x) v

def execFadd (f : FFmt) (x : InsWord) (s : State) : Host.Outcome State Fault Refusal :=
  onGroup s (fun g => alu g x 1 (fun l =>
    fRes (ffmt f) x (FVal.sum (fRnd x) [fArg f g x 0 x.opa l, fArg f g x 1 x.opb l])))

def execFmul (f : FFmt) (x : InsWord) (s : State) : Host.Outcome State Fault Refusal :=
  onGroup s (fun g => alu g x 1 (fun l => fRes (ffmt f) x ((fArg f g x 0 x.opa l).mul (fArg f g x 1 x.opb l))))

/-- The product is not rounded (R116). -/
def execFfma (f : FFmt) (x : InsWord) (s : State) : Host.Outcome State Fault Refusal :=
  onGroup s (fun g => alu g x 1 (fun l =>
    fRes (ffmt f) x (FVal.sum (fRnd x) [(fArg f g x 0 x.opa l).mul (fArg f g x 1 x.opb l), fArg f g x 2 x.opc l])))

def execFmin (f : FFmt) (x : InsWord) (s : State) : Host.Outcome State Fault Refusal :=
  onGroup s (fun g => alu g x 1 (fun l => minMaxF (ffmt f) false (fArgCode f g x 0 x.opa l) (fArgCode f g x 1 x.opb l)))

def execFmax (f : FFmt) (x : InsWord) (s : State) : Host.Outcome State Fault Refusal :=
  onGroup s (fun g => alu g x 1 (fun l => minMaxF (ffmt f) true (fArgCode f g x 0 x.opa l) (fArgCode f g x 1 x.opb l)))

/-- `FCMP` (R118): FTZ [3], pD [6:4], combine [8:7], ABS [9] on both operands. -/
def execFcmp (f : FFmt) (x : InsWord) (s : State) : Host.Outcome State Fault Refusal :=
  onGroup s (fun g => setPred g x (modF x 6 4) (modF x 8 7) (fun l =>
    floatCond (modF x 2 0) (fSrcOf (ffmt f) (fFtz x) (x.mod.getLsbD 9) false (srcF g x f x.opa l))
      (fSrcOf (ffmt f) (fFtz x) (x.mod.getLsbD 9) false (srcF g x f x.opb l))))

/-- `FSET` (R118): 1.0 or, with M, all ones of the result's bits. -/
def execFset (f : FFmt) (x : InsWord) (s : State) : Host.Outcome State Fault Refusal :=
  onGroup s (fun g => alu g x 1 (fun l =>
    if floatCond (modF x 2 0) (fArg f g x 0 x.opa l) (fArg f g x 1 x.opb l)
    then (if x.mod.getLsbD 4 then (if f = .f32 then 0xFFFFFFFF else 0xFFFF)
      else match f with | .f32 => 0x3F800000 | .f16 => 0x3C00 | .bf16 => 0x3F80)
    else 0))

/-- `FRND` (R117): an integral value in the format; a nonzero value that rounds to zero keeps its sign. -/
def frndVal (F : Fmt) (mode : Nat) (ftz : Bool) (v : FVal) : Nat :=
  match v with
  | .fin s m e => resF F mode ftz false (.fin s (roundInt mode s m e).natAbs 0)
  | w => resF F mode ftz false w

def execFrnd (f : FFmt) (x : InsWord) (s : State) : Host.Outcome State Fault Refusal :=
  onGroup s (fun g => alu g x 1 (fun l => frndVal (ffmt f) (fRnd x) (fFtz x) (fArg f g x 0 x.opa l)))

/-- A `CVT` source (R63, R119, R120): an integer of 64 bits as a pair, any other integer a 32-bit operand, f32, f16 and
bf16 as scalar floats, an fp8 code from the low bits (its literal and imm8 read as packed bits). -/
def cvtSrc (g : Group) (x : InsWord) (f : NFmt) (o : Opd) (l : Nat) : Nat :=
  match f with
  | .i64 => src64 g x true o l
  | .n64 => src64 g x false o l
  | .f32 => srcF g x .f32 o l
  | .f16 => srcF g x .f16 o l
  | .bf16 => srcF g x .bf16 o l
  | _ => src32 g x o l

def execCvt (d : NFmt) (x : InsWord) (s : State) : Host.Outcome State Fault Refusal :=
  let f := (nfmtOfCode (modF x 8 5)).getD .f32
  onGroup s (fun g => alu g x (match d with | .i64 | .n64 => 2 | _ => 1)
    (fun l => convert f d (fRnd x) (fFtz x) (fSat x) (cvtSrc g x f x.opa l)))

/-! ## Packed (R121 to R126) -/

def pkFmt (half : Bool) : Fmt := if half then fmtF16 else fmtBf16

/-- Element i of a packed pair. -/
def half16 (x i : Nat) : Nat := x / 2 ^ (16 * i) % 2 ^ 16

/-- Both elements of a paired instruction, from the three sources' elements as codes (R121). -/
def pairOp (half : Bool) (x : InsWord) (f : Fmt → Nat → Nat → Nat → Nat) (g : Group) : Group :=
  alu g x 1 (fun l =>
    let a := src32 g x x.opa l
    let b := src32 g x x.opb l
    let c := src32 g x x.opc l
    f (pkFmt half) (half16 a 0) (half16 b 0) (half16 c 0) + 2 ^ 16 * f (pkFmt half) (half16 a 1) (half16 b 1) (half16 c 1))

/-- `Src` of an element with the modifiers of operand k. -/
def pkArg (F : Fmt) (x : InsWord) (k c : Nat) : FVal := fSrcOf F (fFtz x) (fAbs x k) (fNeg x k) c
def pkCode (F : Fmt) (x : InsWord) (k c : Nat) : Nat := fSrcCode F (fFtz x) (fAbs x k) (fNeg x k) c

def execAdd2h (half : Bool) (x : InsWord) (s : State) : Host.Outcome State Fault Refusal :=
  onGroup s (pairOp half x (fun F a b _ => fRes F x (FVal.sum (fRnd x) [pkArg F x 0 a, pkArg F x 1 b])))

def execMul2h (half : Bool) (x : InsWord) (s : State) : Host.Outcome State Fault Refusal :=
  onGroup s (pairOp half x (fun F a b _ => fRes F x ((pkArg F x 0 a).mul (pkArg F x 1 b))))

def execFma2h (half : Bool) (x : InsWord) (s : State) : Host.Outcome State Fault Refusal :=
  onGroup s (pairOp half x (fun F a b c =>
    fRes F x (FVal.sum (fRnd x) [(pkArg F x 0 a).mul (pkArg F x 1 b), pkArg F x 2 c])))

def execMin2h (half : Bool) (x : InsWord) (s : State) : Host.Outcome State Fault Refusal :=
  onGroup s (pairOp half x (fun F a b _ => minMaxF F false (pkCode F x 0 a) (pkCode F x 1 b)))

def execMax2h (half : Bool) (x : InsWord) (s : State) : Host.Outcome State Fault Refusal :=
  onGroup s (pairOp half x (fun F a b _ => minMaxF F true (pkCode F x 0 a) (pkCode F x 1 b)))

def execCmp2h (half : Bool) (x : InsWord) (s : State) : Host.Outcome State Fault Refusal :=
  onGroup s (pairOp half x (fun F a b _ => if floatCond (modF x 2 0) (pkArg F x 0 a) (pkArg F x 1 b) then 0xFFFF else 0))

/-- The integer dot products (R123): `n` elements of `k` bits, c read with the elements' signedness. -/
def dotVal (n k : Nat) (u sat : Bool) (a b c : Nat) : Nat :=
  fit u sat ((List.range n).foldl (fun t i => t + ext u (a / 2 ^ (k * i)) k * ext u (b / 2 ^ (k * i)) k) (ext u c 32)) 32

def execDot4 (uns : Bool) (x : InsWord) (s : State) : Host.Outcome State Fault Refusal :=
  onGroup s (fun g => alu g x 1 (fun l =>
    dotVal 4 8 uns (fSat x) (src32 g x x.opa l) (src32 g x x.opb l) (src32 g x x.opc l)))

def execDot8 (uns : Bool) (x : InsWord) (s : State) : Host.Outcome State Fault Refusal :=
  onGroup s (fun g => alu g x 1 (fun l =>
    dotVal 8 4 uns (fSat x) (src32 g x x.opa l) (src32 g x x.opb l) (src32 g x x.opc l)))

/-- `DOT2` (R124): z + x0·y0 + x1·y1, rounded once to f32; c is an f32 operand. -/
def execDot2 (half : Bool) (x : InsWord) (s : State) : Host.Outcome State Fault Refusal :=
  onGroup s (fun g => alu g x 1 (fun l =>
    let F := pkFmt half
    let a := src32 g x x.opa l
    let b := src32 g x x.opb l
    fRes fmtF32 x (FVal.sum (fRnd x) [fSrcOf fmtF32 (fFtz x) false (fNeg x 2) (srcF g x .f32 x.opc l),
      (pkArg F x 0 (half16 a 0)).mul (pkArg F x 1 (half16 b 0)), (pkArg F x 0 (half16 a 1)).mul (pkArg F x 1 (half16 b 1))])))

/-- `CVT.PK2` (R125). -/
def execCvtPk2 (half : Bool) (x : InsWord) (s : State) : Host.Outcome State Fault Refusal :=
  let cv (c : Nat) : Nat := convert .f32 (if half then .f16 else .bf16) (fRnd x) (fFtz x) (fSat x) c
  onGroup s (fun g => alu g x 1 (fun l => cv (srcF g x .f32 x.opa l) + 2 ^ 16 * cv (srcF g x .f32 x.opb l)))

/-- `CVT.PK4` (R125): a's and b's bytes replace the low half of c, or with MOD [5] the high half. -/
def execCvtPk4 (e5 : Bool) (x : InsWord) (s : State) : Host.Outcome State Fault Refusal :=
  let cv (c : Nat) : Nat := convert .f32 (if e5 then .e5m2 else .e4m3) (fRnd x) (fFtz x) (fSat x) c
  onGroup s (fun g => alu g x 1 (fun l =>
    let p := cv (srcF g x .f32 x.opa l) + 2 ^ 8 * cv (srcF g x .f32 x.opb l)
    let c := src32 g x x.opc l
    if x.mod.getLsbD 5 then c % 2 ^ 16 + 2 ^ 16 * p else c / 2 ^ 16 * 2 ^ 16 + p))

/-- `CVT.UNPK` (R126): FTZ flushes f16 and bf16 elements only. -/
def unpkVal (fmt : Nat) (ftz : Bool) (a b : Nat) : Nat :=
  match fmt with
  | 1 => rnF32 (FVal.decode fmtF16 (flush fmtF16 ftz (half16 a (b % 2))))
  | 2 => rnF32 (FVal.decode fmtBf16 (flush fmtBf16 ftz (half16 a (b % 2))))
  | 3 => rnF32 (FVal.decode fmtE4m3 (a / 2 ^ (8 * (b % 4)) % 2 ^ 8))
  | _ => rnF32 (FVal.decode fmtE5m2 (a / 2 ^ (8 * (b % 4)) % 2 ^ 8))

def execCvtUnpk (x : InsWord) (s : State) : Host.Outcome State Fault Refusal :=
  onGroup s (fun g => alu g x 1 (fun l => unpkVal (modF x 8 5) (fFtz x) (src32 g x x.opa l) (src32 g x x.opb l)))

/-! ## Special functions (R127 to R131): MOD [5] NEG, [8] ABS -/

def sfuOp (f : Sfn) (acc : Bool) (x : InsWord) (g : Group) : Group :=
  alu g x 1 (fun l => sfu f acc (fAbs x 0) (fNeg x 0) (srcF g x .f32 x.opa l))

def sfuPair (f : Sfn) (x : InsWord) (g : Group) : Group :=
  alu g x 1 (fun l => sfuBf2 f (fAbs x 0) (fNeg x 0) (src32 g x x.opa l))

def execExp2 (acc : Bool) (x : InsWord) (s : State) : Host.Outcome State Fault Refusal := onGroup s (sfuOp .exp2 acc x)
def execLog2 (acc : Bool) (x : InsWord) (s : State) : Host.Outcome State Fault Refusal := onGroup s (sfuOp .log2 acc x)
def execRcp (acc : Bool) (x : InsWord) (s : State) : Host.Outcome State Fault Refusal := onGroup s (sfuOp .rcp acc x)
def execRsq (acc : Bool) (x : InsWord) (s : State) : Host.Outcome State Fault Refusal := onGroup s (sfuOp .rsq acc x)
def execSqrt (acc : Bool) (x : InsWord) (s : State) : Host.Outcome State Fault Refusal := onGroup s (sfuOp .sqrt acc x)
def execSin (acc : Bool) (x : InsWord) (s : State) : Host.Outcome State Fault Refusal := onGroup s (sfuOp .sin acc x)
def execCos (acc : Bool) (x : InsWord) (s : State) : Host.Outcome State Fault Refusal := onGroup s (sfuOp .cos acc x)
def execTanh (acc : Bool) (x : InsWord) (s : State) : Host.Outcome State Fault Refusal := onGroup s (sfuOp .tanh acc x)
def execSigm (acc : Bool) (x : InsWord) (s : State) : Host.Outcome State Fault Refusal := onGroup s (sfuOp .sigm acc x)
def execGelu (acc : Bool) (x : InsWord) (s : State) : Host.Outcome State Fault Refusal := onGroup s (sfuOp .gelu acc x)
def execSilu (acc : Bool) (x : InsWord) (s : State) : Host.Outcome State Fault Refusal := onGroup s (sfuOp .silu acc x)
def execErf (acc : Bool) (x : InsWord) (s : State) : Host.Outcome State Fault Refusal := onGroup s (sfuOp .erf acc x)
def execExp2Bf2 (x : InsWord) (s : State) : Host.Outcome State Fault Refusal := onGroup s (sfuPair .exp2 x)
def execRcpBf2 (x : InsWord) (s : State) : Host.Outcome State Fault Refusal := onGroup s (sfuPair .rcp x)
def execRsqBf2 (x : InsWord) (s : State) : Host.Outcome State Fault Refusal := onGroup s (sfuPair .rsq x)
def execTanhBf2 (x : InsWord) (s : State) : Host.Outcome State Fault Refusal := onGroup s (sfuPair .tanh x)
def execSigmBf2 (x : InsWord) (s : State) : Host.Outcome State Fault Refusal := onGroup s (sfuPair .sigm x)
def execGeluBf2 (x : InsWord) (s : State) : Host.Outcome State Fault Refusal := onGroup s (sfuPair .gelu x)
def execSiluBf2 (x : InsWord) (s : State) : Host.Outcome State Fault Refusal := onGroup s (sfuPair .silu x)
def execErfBf2 (x : InsWord) (s : State) : Host.Outcome State Fault Refusal := onGroup s (sfuPair .erf x)

end Sys2Proof.Machine
end

