-- ==== Sys2Proof/Decode.lean ====
section
/-! DEFINITION. Decoding one 96-bit instruction word (R60, R61, R80, R81) and, from the same tables, its encoder. Words
are natural numbers below 2^96; bit 0 is bit 0 of the word. -/

namespace Sys2Proof

/-- Why a word is no instruction: each is an illegal-instruction fault at the slot, detail 8 (R61, R71, R78, R392). -/
inductive DecErr where
  | reservedOperand
  | prefixBits
  | engineFunction
  | ctxsvMode
  deriving DecidableEq, Repr, Inhabited

/-- One operand code (R61); none when reserved. -/
def opdOf (c : Nat) : Option Opd :=
  if c < 0x100 then some (.v (BitVec.ofNat 8 c))
  else if c < 0x140 then some (.s (BitVec.ofNat 6 (c - 0x100)))
  else if c < 0x200 then none
  else if c < 0x204 then some (.latch (BitVec.ofNat 2 (c - 0x200)))
  else if c < 0x2FE then none
  else if c = 0x2FE then some .lit
  else if c = 0x2FF then some .zero
  else some (.imm (BitVec.ofNat 8 (c - 0x300)))

/-- The code of an operand (R61). -/
def opdCode : Opd → Nat
  | .v n => n.toNat
  | .s n => 0x100 + n.toNat
  | .latch n => 0x200 + n.toNat
  | .lit => 0x2FE
  | .zero => 0x2FF
  | .imm n => 0x300 + n.toNat

/-- The fields of a word (R60), a reserved operand code read as zero. -/
def insWordOf (w : Nat) : InsWord :=
  { lit := BitVec.ofNat 32 (w / 2 ^ 64)
    mod := BitVec.ofNat 10 (w / 2 ^ 54 % 1024)
    opc := (opdOf (w / 2 ^ 44 % 1024)).getD .zero
    opb := (opdOf (w / 2 ^ 34 % 1024)).getD .zero
    opa := (opdOf (w / 2 ^ 24 % 1024)).getD .zero
    nw := w / 2 ^ 23 % 2 = 1
    dst := (opdOf (w / 2 ^ 13 % 1024)).getD .zero
    pneg := w / 2 ^ 12 % 2 = 1
    pidx := BitVec.ofNat 3 (w / 2 ^ 9 % 8) }

/-- The word of an opcode and fields (R60). -/
def wordOf (op : Nat) (x : InsWord) : Nat :=
  op + 2 ^ 9 * x.pidx.toNat + 2 ^ 12 * x.pneg.toNat + 2 ^ 13 * opdCode x.dst + 2 ^ 23 * x.nw.toNat + 2 ^ 24 * opdCode x.opa
    + 2 ^ 34 * opdCode x.opb + 2 ^ 44 * opdCode x.opc + 2 ^ 54 * x.mod.toNat + 2 ^ 64 * x.lit.toNat

/-- The integer opcodes `0x001` to `0x01E` in order, with their 64-bit forms. -/
def intTable : List (Bool → InsWord → Instr) :=
  [.iadd, .isub, .imul, .imulh, .imad, .idiv, .irem, .imin, .imax, .iabs, .and, .or, .xor, .bfn3, .shl, .shr, .sar, .rot,
   .fsh, .clz, .popc, .brev, .bfe, .bfi, .sel, .icmp, .iset, .lea, .mov, .movl]

/-- The scalar float operations, by offset from the format's base. -/
def floatTable : List (FFmt → InsWord → Instr) := [.fadd, .fmul, .ffma, .fmin, .fmax, .fcmp, .fset, .frnd]

/-- The special functions, by offset, the grade last. -/
def sfuTable : List (Bool → InsWord → Instr) :=
  [.exp2, .log2, .rcp, .rsq, .sqrt, .sin, .cos, .tanh, .sigm, .gelu, .silu, .erf]

/-- The packed pairs, by offset; true selects f16×2. -/
def packedTable : List (Bool → InsWord → Instr) := [.add2h, .mul2h, .fma2h, .min2h, .max2h, .cmp2h]

/-- `0x0B0` to `0x0BC`. -/
def dotTable : List (Option (InsWord → Instr)) :=
  [some (.dot4 false), some (.dot4 true), some (.dot8 false), some (.dot8 true), some (.dot2 false), some (.dot2 true), none,
   none, some (.cvtPk2 false), some (.cvtPk2 true), some (.cvtPk4 false), some (.cvtPk4 true), some .cvtUnpk]

/-- The cross-lane opcodes `0x0C0` to `0x0DF`. -/
def laneTable : List (InsWord → Instr) :=
  [.shflAt false, .shflLo false, .shflHi false, .shflFlip false, .shflAt true, .shflLo true, .shflHi true, .shflFlip true,
   .voteEvery, .voteSome, .voteSame, .voteMask, .matchPeers false, .matchUnan false, .matchPeers true, .matchUnan true,
   .reduxAdd, .reduxMin, .reduxMax, .reduxAnd, .reduxOr, .reduxXor, .reduxFadd, .reduxFmin, .reduxFmax, .scanInc, .scanExc,
   .cmpr, .expd, .xbar, .xpld, .laneid]

/-- The control opcodes `0x0E0` to `0x0FA`. -/
def ctlTable : List (Option (InsWord → Instr)) :=
  [some .bra, some .braNone, some .braAny, some .braAll, some .brx, some .call, some .callx, some .ret, some .exit, none,
   none, none, some .emrd, some .emwr, some .pset, some .plop, some .acqh, some .relh, some .yield, none, none, none, none,
   none, some .trap, some .req, some .bpt]

/-- The memory opcodes `0x100` to `0x13D` and the barrier opcodes `0x140` to `0x147`. -/
def memTable : List (Option (InsWord → Instr)) :=
  [some (.ld .i8), some (.ld .n8), some (.ld .i16), some (.ld .n16), some (.ld .b32), some (.ld .b64), some (.ld .b128),
   none, some (.st .b8), some (.st .b16), some (.st .b32), some (.st .b64), some (.st .b128), none, some .fence,
   some .fenceX, some (.ldAcq .b8), some (.ldAcq .b16), some (.ldAcq .b32), some (.ldAcq .b64), some (.stRel .b8),
   some (.stRel .b16), some (.stRel .b32), some (.stRel .b64), some .lds, some .stq, some (.ldmt false),
   some (.ldmt true), some (.ldc .b32), some (.ldc .b64), some (.ldc .b128), none]

def atomTable : List (Option (InsWord → Instr)) :=
  [some (.atomAdd false), some (.atomMin false), some (.atomMax false), some (.atomAnd false), some (.atomOr false),
   some (.atomXor false), some (.atomExch false), some (.atomCas false), some .atomFadd, some (.redAdd false),
   some (.redMin false), some (.redMax false), some (.redAnd false), some (.redOr false), some (.redXor false),
   some .redFadd, some (.atomAdd true), some (.atomMin true), some (.atomMax true), some (.atomAnd true),
   some (.atomOr true), some (.atomXor true), some (.atomExch true), some (.atomCas true), some (.redAdd true),
   some (.redMin true), some (.redMax true), some (.redAnd true), some (.redOr true), some (.redXor true), none, none]

def barTable : List (InsWord → Instr) := [.binit, .arrive, .expect, .waitph, .btest, .binv, .rkacq, .rkrel]

/-- The matrix forms, by form index (R316). -/
def mformTable : List MForm := [.sb4, .e4m3, .e5m2, .bf16, .f16, .i8, .e4e5, .e5e4]

/-- The window and launch opcodes `0x180` to `0x18A`. -/
def winTable : List (Option (InsWord → Instr)) :=
  [some .spawn, some .spawnFld, some .fetchw, some .emitr, some .winf, some .kick, some .qstat, none, some .park, some .die,
   some .repack]

/-- The system opcodes `0x1C0` to `0x1CE` but for `CTXSV` and `PTLD`, whose MOD selects the row. -/
def sysTable : List (Option (InsWord → Instr)) :=
  [some .segld, some .mfsr, some .mtsr, some .tlbinvPg, some .tlbinvCtx, some .tlbinvAll, some .rft, some .halt, none,
   some .wake, none, some .qcbld, some .qcbst, some .mbxrd, some .dump]

/-- The engine functions (R78); none for a code no function has. -/
def engTable : List (Nat × (Bool → InsWord → Instr)) :=
  [(0x01, .cpyGo), (0x02, .cpySt), (0x03, .cpyAbt), (0x08, .gthGo), (0x09, .gthSt), (0x0A, .gthAbt), (0x10, .rowProm),
   (0x11, .rowDem), (0x12, .rowPin), (0x13, .rowUnpin), (0x14, .rowCopy), (0x15, .rowInit), (0x20, .winWmark),
   (0x21, .winFlush), (0x30, .lnkArr), (0x31, .lnkMsg)]

def engOf (code : Nat) : Option (Bool → InsWord → Instr) := (engTable.find? (fun p => p.1 = code)).map (fun p => p.2)

/-- The instruction of an opcode and its fields (R80, R81). A function or mode that decodes to nothing (`decodeErr`) stands
as its table's first row here. -/
def ofOpcode (op : Nat) (x : InsWord) : Instr :=
  let un : Instr := .unassignedOpcode (BitVec.ofNat 9 op)
  let pick (t : List (Option (InsWord → Instr))) (k : Nat) : Instr := match t.getD k none with | some f => f x | none => un
  if op = 0 then .nop
  else if op < 0x40 then
    match intTable[op % 32 - 1]? with
    | some f => if op % 32 = 0 then un else f (decide (0x20 ≤ op)) x
    | none => un
  else if op < 0x58 then
    match floatTable[op % 8]? with
    | some f => f (if op < 0x48 then .f32 else if op < 0x50 then .f16 else .bf16) x
    | none => un
  else if op < 0x60 then un
  else if op < 0x70 then
    match Machine.nfmtOfCode (op - 0x60) with
    | some d => .cvt d x
    | none => un
  else if op < 0x80 then un
  else if op < 0xA0 then
    match sfuTable[op % 16]? with
    | some f => f (decide (0x90 ≤ op)) x
    | none =>
      match op with
      | 0x8C => .exp2Bf2 x | 0x8D => .rcpBf2 x | 0x8E => .rsqBf2 x | 0x8F => .tanhBf2 x
      | 0x9C => .sigmBf2 x | 0x9D => .geluBf2 x | 0x9E => .siluBf2 x | _ => .erfBf2 x
  else if op < 0xB0 then
    match packedTable[op % 8]? with
    | some f => f (decide (0xA8 ≤ op)) x
    | none => un
  else if op < 0xC0 then pick dotTable (op - 0xB0)
  else if op < 0xE0 then
    match laneTable[op - 0xC0]? with
    | some f => f x
    | none => un
  else if op < 0x100 then pick ctlTable (op - 0xE0)
  else if op < 0x120 then pick memTable (op - 0x100)
  else if op < 0x140 then pick atomTable (op - 0x120)
  else if op < 0x160 then
    match barTable[op - 0x140]? with
    | some f => f x
    | none => un
  else if op < 0x170 then
    match mformTable[op % 8]? with
    | some f => if op < 0x168 then .mma f x else .mmaz f x
    | none => un
  else if op < 0x180 then
    match op with
    | 0x170 => .accmvRd x | 0x171 => .accmvWr x | 0x172 => .mmaw x | _ => un
  else if op < 0x1A0 then pick winTable (op - 0x180)
  else if op < 0x1A2 then ((engOf (x.mod.toNat % 128)).getD .cpyGo) (decide (op = 0x1A1)) x
  else if op < 0x1C0 then un
  else if op = 0x1C8 then
    match x.mod.toNat % 4 with
    | 0 => .ctxsvFill x | 1 => .ctxsvSwap x | _ => .ctxsvEvict x
  else if op = 0x1CA then (if x.mod.toNat / 16 % 2 = 0 then .ptldLk x else .ptldUn x)
  else if op < 0x1E0 then pick sysTable (op - 0x1C0)
  else match op with
    | 0x1E0 => .pfxW x.lit | 0x1E1 => .pfxL x.lit | 0x1E2 => .pfxLHi x.lit | _ => un

/-- The opcode of an instruction (R80); 0 for the steps of the other units, which have none. -/
def opcodeOf : Instr → Nat
  | .iadd w _ => 0x001 + 32 * w.toNat | .isub w _ => 0x002 + 32 * w.toNat | .imul w _ => 0x003 + 32 * w.toNat
  | .imulh w _ => 0x004 + 32 * w.toNat | .imad w _ => 0x005 + 32 * w.toNat | .idiv w _ => 0x006 + 32 * w.toNat
  | .irem w _ => 0x007 + 32 * w.toNat | .imin w _ => 0x008 + 32 * w.toNat | .imax w _ => 0x009 + 32 * w.toNat
  | .iabs w _ => 0x00A + 32 * w.toNat | .and w _ => 0x00B + 32 * w.toNat | .or w _ => 0x00C + 32 * w.toNat
  | .xor w _ => 0x00D + 32 * w.toNat | .bfn3 w _ => 0x00E + 32 * w.toNat | .shl w _ => 0x00F + 32 * w.toNat
  | .shr w _ => 0x010 + 32 * w.toNat | .sar w _ => 0x011 + 32 * w.toNat | .rot w _ => 0x012 + 32 * w.toNat
  | .fsh w _ => 0x013 + 32 * w.toNat | .clz w _ => 0x014 + 32 * w.toNat | .popc w _ => 0x015 + 32 * w.toNat
  | .brev w _ => 0x016 + 32 * w.toNat | .bfe w _ => 0x017 + 32 * w.toNat | .bfi w _ => 0x018 + 32 * w.toNat
  | .sel w _ => 0x019 + 32 * w.toNat | .icmp w _ => 0x01A + 32 * w.toNat | .iset w _ => 0x01B + 32 * w.toNat
  | .lea w _ => 0x01C + 32 * w.toNat | .mov w _ => 0x01D + 32 * w.toNat | .movl w _ => 0x01E + 32 * w.toNat
  | .fadd f _ => fbase f | .fmul f _ => fbase f + 1 | .ffma f _ => fbase f + 2 | .fmin f _ => fbase f + 3
  | .fmax f _ => fbase f + 4 | .fcmp f _ => fbase f + 5 | .fset f _ => fbase f + 6 | .frnd f _ => fbase f + 7
  | .cvt d _ => 0x060 + Machine.nfmtCode d
  | .exp2 g _ => 0x080 + 16 * g.toNat | .log2 g _ => 0x081 + 16 * g.toNat | .rcp g _ => 0x082 + 16 * g.toNat
  | .rsq g _ => 0x083 + 16 * g.toNat | .sqrt g _ => 0x084 + 16 * g.toNat | .sin g _ => 0x085 + 16 * g.toNat
  | .cos g _ => 0x086 + 16 * g.toNat | .tanh g _ => 0x087 + 16 * g.toNat | .sigm g _ => 0x088 + 16 * g.toNat
  | .gelu g _ => 0x089 + 16 * g.toNat | .silu g _ => 0x08A + 16 * g.toNat | .erf g _ => 0x08B + 16 * g.toNat
  | .exp2Bf2 _ => 0x08C | .rcpBf2 _ => 0x08D | .rsqBf2 _ => 0x08E | .tanhBf2 _ => 0x08F
  | .sigmBf2 _ => 0x09C | .geluBf2 _ => 0x09D | .siluBf2 _ => 0x09E | .erfBf2 _ => 0x09F
  | .add2h h _ => 0x0A0 + 8 * h.toNat | .mul2h h _ => 0x0A1 + 8 * h.toNat | .fma2h h _ => 0x0A2 + 8 * h.toNat
  | .min2h h _ => 0x0A3 + 8 * h.toNat | .max2h h _ => 0x0A4 + 8 * h.toNat | .cmp2h h _ => 0x0A5 + 8 * h.toNat
  | .dot4 u _ => 0x0B0 + u.toNat | .dot8 u _ => 0x0B2 + u.toNat | .dot2 h _ => 0x0B4 + h.toNat
  | .cvtPk2 h _ => 0x0B8 + h.toNat | .cvtPk4 e _ => 0x0BA + e.toNat | .cvtUnpk _ => 0x0BC
  | .shflAt w _ => 0x0C0 + 4 * w.toNat | .shflLo w _ => 0x0C1 + 4 * w.toNat | .shflHi w _ => 0x0C2 + 4 * w.toNat
  | .shflFlip w _ => 0x0C3 + 4 * w.toNat
  | .voteEvery _ => 0x0C8 | .voteSome _ => 0x0C9 | .voteSame _ => 0x0CA | .voteMask _ => 0x0CB
  | .matchPeers w _ => 0x0CC + 2 * w.toNat | .matchUnan w _ => 0x0CD + 2 * w.toNat
  | .reduxAdd _ => 0x0D0 | .reduxMin _ => 0x0D1 | .reduxMax _ => 0x0D2 | .reduxAnd _ => 0x0D3 | .reduxOr _ => 0x0D4
  | .reduxXor _ => 0x0D5 | .reduxFadd _ => 0x0D6 | .reduxFmin _ => 0x0D7 | .reduxFmax _ => 0x0D8
  | .scanInc _ => 0x0D9 | .scanExc _ => 0x0DA | .cmpr _ => 0x0DB | .expd _ => 0x0DC | .xbar _ => 0x0DD | .xpld _ => 0x0DE
  | .laneid _ => 0x0DF
  | .bra _ => 0x0E0 | .braNone _ => 0x0E1 | .braAny _ => 0x0E2 | .braAll _ => 0x0E3 | .brx _ => 0x0E4 | .call _ => 0x0E5
  | .callx _ => 0x0E6 | .ret _ => 0x0E7 | .exit _ => 0x0E8 | .emrd _ => 0x0EC | .emwr _ => 0x0ED | .pset _ => 0x0EE
  | .plop _ => 0x0EF | .acqh _ => 0x0F0 | .relh _ => 0x0F1 | .yield _ => 0x0F2 | .trap _ => 0x0F8 | .req _ => 0x0F9
  | .bpt _ => 0x0FA
  | .ld k _ => (match k with | .i8 => 0x100 | .n8 => 0x101 | .i16 => 0x102 | .n16 => 0x103 | .b32 => 0x104 | .b64 => 0x105 | .b128 => 0x106)
  | .st k _ => (match k with | .b8 => 0x108 | .b16 => 0x109 | .b32 => 0x10A | .b64 => 0x10B | .b128 => 0x10C)
  | .fence _ => 0x10E | .fenceX _ => 0x10F
  | .ldAcq k _ => (match k with | .b8 => 0x110 | .b16 => 0x111 | .b32 => 0x112 | .b64 => 0x113)
  | .stRel k _ => (match k with | .b8 => 0x114 | .b16 => 0x115 | .b32 => 0x116 | .b64 => 0x117)
  | .lds _ => 0x118 | .stq _ => 0x119 | .ldmt b _ => 0x11A + b.toNat
  | .ldc k _ => (match k with | .b32 => 0x11C | .b64 => 0x11D | .b128 => 0x11E)
  | .atomAdd w _ => 0x120 + 16 * w.toNat | .atomMin w _ => 0x121 + 16 * w.toNat | .atomMax w _ => 0x122 + 16 * w.toNat
  | .atomAnd w _ => 0x123 + 16 * w.toNat | .atomOr w _ => 0x124 + 16 * w.toNat | .atomXor w _ => 0x125 + 16 * w.toNat
  | .atomExch w _ => 0x126 + 16 * w.toNat | .atomCas w _ => 0x127 + 16 * w.toNat | .atomFadd _ => 0x128
  | .redAdd w _ => 0x129 + 15 * w.toNat | .redMin w _ => 0x12A + 15 * w.toNat | .redMax w _ => 0x12B + 15 * w.toNat
  | .redAnd w _ => 0x12C + 15 * w.toNat | .redOr w _ => 0x12D + 15 * w.toNat | .redXor w _ => 0x12E + 15 * w.toNat
  | .redFadd _ => 0x12F
  | .binit _ => 0x140 | .arrive _ => 0x141 | .expect _ => 0x142 | .waitph _ => 0x143 | .btest _ => 0x144 | .binv _ => 0x145
  | .rkacq _ => 0x146 | .rkrel _ => 0x147
  | .mma f _ => 0x160 + mformIdx f | .mmaz f _ => 0x168 + mformIdx f
  | .accmvRd _ => 0x170 | .accmvWr _ => 0x171 | .mmaw _ => 0x172
  | .spawn _ => 0x180 | .spawnFld _ => 0x181 | .fetchw _ => 0x182 | .emitr _ => 0x183 | .winf _ => 0x184 | .kick _ => 0x185
  | .qstat _ => 0x186 | .park _ => 0x188 | .die _ => 0x189 | .repack _ => 0x18A
  | .cpyGo r _ => 0x1A0 + r.toNat | .cpySt r _ => 0x1A0 + r.toNat | .cpyAbt r _ => 0x1A0 + r.toNat
  | .gthGo r _ => 0x1A0 + r.toNat | .gthSt r _ => 0x1A0 + r.toNat | .gthAbt r _ => 0x1A0 + r.toNat
  | .rowProm r _ => 0x1A0 + r.toNat | .rowDem r _ => 0x1A0 + r.toNat | .rowPin r _ => 0x1A0 + r.toNat
  | .rowUnpin r _ => 0x1A0 + r.toNat | .rowCopy r _ => 0x1A0 + r.toNat | .rowInit r _ => 0x1A0 + r.toNat
  | .winWmark r _ => 0x1A0 + r.toNat | .winFlush r _ => 0x1A0 + r.toNat | .lnkArr r _ => 0x1A0 + r.toNat
  | .lnkMsg r _ => 0x1A0 + r.toNat
  | .segld _ => 0x1C0 | .mfsr _ => 0x1C1 | .mtsr _ => 0x1C2 | .tlbinvPg _ => 0x1C3 | .tlbinvCtx _ => 0x1C4
  | .tlbinvAll _ => 0x1C5 | .rft _ => 0x1C6 | .halt _ => 0x1C7 | .ctxsvFill _ => 0x1C8 | .ctxsvSwap _ => 0x1C8
  | .ctxsvEvict _ => 0x1C8 | .wake _ => 0x1C9 | .ptldLk _ => 0x1CA | .ptldUn _ => 0x1CA | .qcbld _ => 0x1CB
  | .qcbst _ => 0x1CC | .mbxrd _ => 0x1CD | .dump _ => 0x1CE
  | .pfxW _ => 0x1E0 | .pfxL _ => 0x1E1 | .pfxLHi _ => 0x1E2
  | .unassignedOpcode op => op.toNat
  | _ => 0
where
  fbase : FFmt → Nat
    | .f32 => 0x040 | .f16 => 0x048 | .bf16 => 0x050
  mformIdx : MForm → Nat
    | .sb4 => 0 | .e4m3 => 1 | .e5m2 => 2 | .bf16 => 3 | .f16 => 4 | .i8 => 5 | .e4e5 => 6 | .e5e4 => 7

/-- Whether the fields of a word decode (R61, R71, R78, R392); unassigned opcodes always do, to their own row. -/
def decodeErr (w : Nat) : Option DecErr :=
  let op := w % 512
  if 0x1E0 ≤ op && op ≤ 0x1E2 then (if w / 512 % 2 ^ 55 = 0 then none else some .prefixBits)
  else match ofOpcode op (insWordOf w) with
    | .nop => none
    | .unassignedOpcode _ => none
    | _ =>
      if (opdOf (w / 2 ^ 44 % 1024)).isNone || (opdOf (w / 2 ^ 34 % 1024)).isNone || (opdOf (w / 2 ^ 24 % 1024)).isNone
        || (opdOf (w / 2 ^ 13 % 1024)).isNone then some .reservedOperand
      else if (op = 0x1A0 || op = 0x1A1) && (engOf (w / 2 ^ 54 % 128)).isNone then some .engineFunction
      else if op = 0x1C8 && w / 2 ^ 54 % 4 = 3 then some .ctxsvMode
      else none

/-- The instruction a word is read as, whether or not it decodes without error. -/
def decodeLax (w : Nat) : Instr := ofOpcode (w % 512) (insWordOf w)

/-- Decode one word. -/
def decode (w : Nat) : Except DecErr Instr :=
  match decodeErr w with
  | some e => .error e
  | none => .ok (decodeLax w)

/-- The word of an instruction; none for a step of another unit. -/
def encode (i : Instr) : Option Nat :=
  match Machine.insWord i, i with
  | some x, _ => some (wordOf (opcodeOf i) x)
  | none, .nop => some 0
  | none, .pfxW lit => some (0x1E0 + 2 ^ 64 * lit.toNat)
  | none, .pfxL lit => some (0x1E1 + 2 ^ 64 * lit.toNat)
  | none, .pfxLHi lit => some (0x1E2 + 2 ^ 64 * lit.toNat)
  | none, .unassignedOpcode op => some op.toNat
  | none, _ => none

/-- What ties an instruction's own fields together: an engine function's code, a mode and a reserved opcode stand in the
word (R78, R81, R392). -/
def formOk (i : Instr) : Bool :=
  match Machine.insWord i, i with
  | some x, i => decide (ofOpcode (opcodeOf i) x = i)
      && (if opcodeOf i = 0x1A0 || opcodeOf i = 0x1A1 then (engOf (x.mod.toNat % 128)).isSome else true)
      && (if opcodeOf i = 0x1C8 then decide (x.mod.toNat % 4 ≠ 3) else true)
  | none, .unassignedOpcode op => decide (ofOpcode op.toNat (insWordOf op.toNat) = .unassignedOpcode op)
  | none, _ => (encode i).isSome

/-- The instruction the decoder reads from a word given by its low bits, numbered as spec/opcode_table.json numbers them;
none where it refuses. -/
def decodeTableWord (_nbits w : Nat) : Option Instr :=
  match decode (w % 2 ^ 96) with
  | .ok i => some i
  | .error _ => none

end Sys2Proof
end

