-- ==== Sys2Proof/Machine/Memory.lean ====
section
/-! DEFINITION. Bytes of device memory and scratchpad, the physical map, integrity and domains, and promotion slots (R2, R16,
R197, R198, R403 to R415). An unlisted byte reads as zero (log entries 2 and 3). -/

namespace Sys2Proof.Machine
open Sys2Proof

/-! ## Bytes -/

/-- The canonical form of a memory: addresses strictly rising and no entry at zero, which an unlisted address reads as. -/
def Memory.wf (m : Memory) : Bool := SMap.wf 0 m

/-- One byte; `n` bytes; the little-endian value of `n` bytes (R2). -/
def memGet (m : Memory) (a : Nat) : Byte := SMap.get 0 m a
def memBytes (m : Memory) (a n : Nat) : List Byte := (List.range n).map (fun i => memGet m (a + i))
def memVal (m : Memory) (a n : Nat) : Nat := leVal (memBytes m a n)

/-- Write bytes at an address, at listed addresses, or an `n`-byte little-endian value. -/
def memPut (m : Memory) (a : Nat) : List Byte → Memory
  | [] => m
  | b :: r => memPut (SMap.put 0 m a b) (a + 1) r
def memPutAt (m : Memory) (l : List (Nat × Byte)) : Memory := l.foldl (fun m ab => SMap.put 0 m ab.1 ab.2) m
def memPutVal (m : Memory) (a n x : Nat) : Memory := memPut m a (leBytes n x)

/-- Scratchpad at a physical scratch address: physical core · 2^19 + slice offset (R197). -/
def scrVal (s : State) (a n : Nat) : Nat := memVal s.scr a n
def scrPut (s : State) (a n x : Nat) : State := { s with scr := memPutVal s.scr a n x }

/-! ## Organisation (R10, R13, R16, R453) -/

/-- The field of a physical core (R13). -/
def coreField (c : Nat) : Nat := c / 192 * 8 + c % 192 / 16 / 6 * 4 + c % 16 / 4

/-- The physical core of a field and a core index within it (R13). -/
def fieldCore (f i : Nat) : Nat := f / 8 * 192 + (f % 8 / 4 * 6 + i / 4) * 16 + f % 4 * 4 + i % 4

/-- The home stack of a physical address (R16); the windows' bases are whole numbers of 16 units. -/
def homeStack (pa : Nat) : Nat := pa / 2 ^ 21 % 16

/-- The offset of an address within its home stack (R403). -/
def stackOff (pa : Nat) : Nat :=
  let a := if 0x10000000000 ≤ pa then pa - 0x10000000000 else pa
  a / 2 ^ 25 * 2 ^ 21 + a % 2 ^ 21

/-- Twice the position of a field's centre as column and row (R453), and the hop count of two fields doubled; other-die
positions rank after every one on the same die. -/
def fieldPos (f : Nat) : Nat × Nat := (f % 4 * 8 + 3, f % 8 / 4 * 12 + 5)
def absDiff (a b : Nat) : Nat := if a ≤ b then b - a else a - b
def fieldHops (f g : Nat) : Nat :=
  let p := fieldPos f
  let q := fieldPos g
  absDiff p.1 q.1 + absDiff p.2 q.2 + if f / 8 = g / 8 then 0 else 54

/-- The hop count of two cores (R453). -/
def coreHops (a b : Nat) : Nat :=
  absDiff (a % 16) (b % 16) + absDiff (a % 192 / 16) (b % 192 / 16) + if a / 192 = b / 192 then 0 else 27

/-! ## Registers by physical address (R332, R335, R385, R404, R416, R418, R427, R430, R436, R438, R441, R446, R450) -/

/-- Register addresses. -/
def regPart (p off : Nat) : Nat := 0x1F000010000 + 4096 * p + off
def regStack (st off : Nat) : Nat := 0x1F000060000 + 4096 * st + off

/-- Blocks of the platform, of PCIe port p and of link port n; the link's global block; the routing table. -/
def regPlat (off : Nat) : Nat := 0x1F000000000 + off
def regPcie (p off : Nat) : Nat := 0x1F000030000 + 256 * p + off
def regLport (n off : Nat) : Nat := 0x1F000080000 + 64 * n + off
def regLink (off : Nat) : Nat := 0x1F000080400 + off

/-- The reset value of a stored register, by physical address; those not named reset to zero. -/
def regReset (a : Nat) : W64 :=
  if a = regPlat 0x28 then 3000
  else if a = regPlat 0x40 then 1050
  else if 0x1F000010000 ≤ a && a < 0x1F000018000 then
    (if a % 4096 = 0x90 then 100 else if a % 4096 = 0x108 then 0x7F else 0)
  else if 0x1F000030000 ≤ a && a < 0x1F000030200 then
    (if a % 256 = 8 then 20000 else if a % 256 = 0x28 then 2000 else 0)
  else if 0x1F000060000 ≤ a && a < 0x1F000070000 then (if a % 4096 = 0 then 0x4010 else 0)
  else if a = regLink 0 then 100
  else if a = regLink 8 then 0x400000
  else 0

/-- A register's 64-bit value. -/
def regVal (s : State) (a : Nat) : W64 := SMap.get 0 s.regs a ^^^ regReset a
def regPut (s : State) (a : Nat) (v : W64) : State := { s with regs := SMap.put 0 s.regs a (v ^^^ regReset a) }

/-- DIRECT of a stack (R404). -/
def directRows (s : State) (st : Nat) : Nat := (regVal s (regStack st 0)).toNat % 64

/-! ## The physical map (R198) -/

inductive Region where | dram | cxl (port : Nat) | peer (port : Nat) | reg | none
  deriving DecidableEq, Repr, Inhabited

/-- The region of a physical address; a fast-direct address beyond the configured rows is not backed (R403). -/
def regionOf (s : State) (pa : Nat) : Region :=
  if pa < 0x0F000000000 then .dram
  else if pa < 0x10000000000 then .none
  else if pa < 0x11000000000 then
    (if stackOff pa < directRows s (homeStack (pa - 0x10000000000)) * 2 ^ 27 then .dram else .none)
  else if pa < 0x14000000000 then .none
  else if pa < 0x16000000000 then .cxl 0
  else if pa < 0x18000000000 then .cxl 1
  else if pa < 0x1A000000000 then .peer 0
  else if pa < 0x1C000000000 then .peer 1
  else if pa < 0x1F000000000 then .none
  else if pa < 0x20000000000 then .reg
  else .none

/-! ## Integrity (R414, R415) -/

/-- Whether a line verifies: it was not marked failing, and its domain is its unit's. -/
def lineOk (s : State) (line : Nat) : Bool :=
  !s.bad.contains line && SMap.get 0 s.lineDom line = SMap.get 0 s.unitDom (line / 32768)

/-- The lines that may fail: any other has no mark, and no domain to differ from its unit's. -/
def lineSuspects (s : State) : List Nat :=
  s.bad ++ s.lineDom.map (fun kv => kv.1) ++ s.unitDom.flatMap (fun u => (List.range 32768).map (fun i => u.1 * 32768 + i))

/-- The lines of a range that fail. -/
def badLines (s : State) (pa n : Nat) : List Nat :=
  ((List.range ((pa + n - 1) / 64 - pa / 64 + 1)).map (fun i => pa / 64 + i)).filter (fun l => !lineOk s l)

/-- The lines that a write of `n` bytes must read because it covers them in part, and that fail (R415). -/
def badPartial (s : State) (pa n : Nat) : List Nat :=
  (badLines s pa n).filter (fun l => l * 64 < pa || pa + n < l * 64 + 64)

/-- A line written in full verifies again under its unit's domain (R414). -/
def healLine (s : State) (line : Nat) : State :=
  { s with bad := s.bad.filter (fun l => l ≠ line)
           lineDom := SMap.put 0 s.lineDom line (SMap.get 0 s.unitDom (line / 32768)) }

/-- The lines a range covers in full. -/
def fullLines (pa n : Nat) : List Nat :=
  ((List.range (n / 64 + 1)).map (fun i => (pa + 63) / 64 + i)).filter (fun l => l * 64 + 64 ≤ pa + n)

/-! ## Promotion slots (R403 to R408): they change no value (R17) -/

/-- The subarray of a stack-local offset, and the key of a slot in `State.rows`. -/
def subarray (o : Nat) : Nat := o / 1024 % 131072
def rowKey (st sub slot : Nat) : Nat := (st * 131072 + sub) * 32 + slot

/-- The slot that serves a slow row, or is being prepared for it; none while it is SLOW. -/
def rowSlotOf (s : State) (st o : Nat) : Option Nat :=
  ((List.range 32).map (rowKey st (subarray o))).find? (fun k =>
    let r := SMap.get default s.rows k
    r.row = o / 1024 + 1 || r.next.any (fun n => n.1 = o / 1024 + 1))

def rowGet (s : State) (k : Nat) : RowSlot := SMap.get default s.rows k
def rowPut (s : State) (k : Nat) (r : RowSlot) : State := { s with rows := SMap.put default s.rows k r }

/-- The age of a slot (R406). -/
def rowAge (s : State) (st k : Nat) : Nat := (SMap.get 0 s.stEpoch st - (rowGet s k).epoch).toNat

/-- The slot a promotion takes: a free one, else the unpinned one of greatest age, the lowest on a tie, at least `age` old
(R406, R408). -/
def victimSlot (s : State) (st o age : Nat) : Option Nat :=
  let ks := (List.range 32).filter (fun i => directRows s st ≤ i) |>.map (rowKey st (subarray o))
  match ks.find? (fun k => (rowGet s k).row = 0) with
  | some k => some k
  | none =>
    (ks.filter (fun k => !(rowGet s k).pin && !(rowGet s k).next.any (fun n => n.2) && age ≤ rowAge s st k)).foldl (fun b k =>
      match b with
      | none => some k
      | some v => if rowAge s st v < rowAge s st k then some k else some v) none

/-- The copy of a slow row (1 + its offset) into a slot begins (R405). -/
def promoteInto (s : State) (st k row : Nat) (pin : Bool) : State :=
  enqueue (rowPut s k ⟨row, false, pin, true, false, SMap.get 0 s.stEpoch st, none, []⟩) .rowPromoteDone { stack := st, addr := k }

/-- The copy of a slot back to its slow row begins (R405), with what follows it. -/
def writeBack (s : State) (st k : Nat) (next : Option (Nat × Bool)) : State :=
  enqueue (rowPut s k { rowGet s k with busy := true, writingBack := true, next := next }) .rowWritebackDone { stack := st, addr := k }

/-- A request waits for the copy of a slot to end (R405). -/
def holdRow (s : State) (k : Nat) (q : RowReq) : State := rowPut s k { rowGet s k with held := (rowGet s k).held ++ [q] }

/-- The promotion of a SLOW row that a request asks for (R405, R406): a DIRTY victim is written back before the row is copied
in; a victim that is still being copied is waited for; with every slot pinned the row stays SLOW. -/
def promote (s : State) (st o age : Nat) (q : RowReq) : State :=
  match victimSlot s st o age with
  | none => s
  | some k =>
    let pin : Bool := q.cmd = .pin
    if (rowGet s k).busy then holdRow s k q
    else if (rowGet s k).dirty then writeBack s st k (some (o / 1024 + 1, pin))
    else promoteInto s st k (o / 1024 + 1) pin

/-- A request at a promoted row whose slot is not being copied (R405 to R407, R410). -/
def slotAct (s : State) (st k : Nat) (cmd : RowCmd) : State :=
  let r := rowGet s k
  let now := SMap.get 0 s.stEpoch st
  match cmd with
  | .read | .prom => rowPut s k { r with epoch := now }
  | .write => rowPut s k { r with epoch := now, dirty := true }
  | .pin => rowPut s k { r with pin := true }
  | .unpin => rowPut s k { r with pin := false }
  | .dem => if r.pin then s else if r.dirty then writeBack s st k none else rowPut s k default

/-- A request reaches its row (R405 to R408, R410): held while the row's slot is being copied. -/
def rowAct (s : State) (st : Nat) (q : RowReq) : State :=
  let o := q.row * 1024
  match rowSlotOf s st o with
  | some k => if (rowGet s k).busy then holdRow s k q else slotAct s st k q.cmd
  | none =>
    match q.cmd with
    | .prom | .pin => promote s st o 0 q
    | .dem | .unpin => s
    | .read | .write =>
      (match q.lat with
       | 0 => promote s st o ((regVal s (regStack st 0)).toNat / 256 % 256) q
       | 1 => promote s st o 0 q
       | _ => s)

/-- The requests held at a slot whose copy has ended, in arrival order (R402, R405). -/
def replayRows (s : State) (st : Nat) (l : List RowReq) : State := l.foldl (fun s q => rowAct s st q) s

/-- What an access does to the promotion state of its row (R405, R406, R408): slow-class rows only. -/
def touchRow (s : State) (pa : Nat) (write : Bool) (lat : Nat) : State :=
  if 0x0F000000000 ≤ pa then s
  else rowAct s (homeStack pa) ⟨if write then .write else .read, stackOff pa / 1024, lat⟩

/-- The rows of `n` bytes. -/
def touchRows (s : State) (pa n : Nat) (write : Bool) (lat : Nat) : State :=
  if n = 0 then s
  else (List.range ((pa + n - 1) / 1024 - pa / 1024 + 1)).foldl (fun s i => touchRow s (pa / 1024 * 1024 + 1024 * i) write lat) s

/-- A read or write of a whole area by a unit without a leaf: what it does to the rows of the area that promotion slots serve (R405,
R406). -/
def touchArea (s : State) (pa n : Nat) (write : Bool) : State :=
  s.rows.foldl (fun s kv =>
    let st := kv.1 / 32 / 131072
    let o := (kv.2.row - 1) * 1024
    let a := (o / 2 ^ 21 * 16 + st) * 2 ^ 21 + o % 2 ^ 21
    if kv.2.row ≠ 0 && pa ≤ a && a < pa + n then rowAct s st ⟨if write then .write else .read, kv.2.row - 1, 2⟩ else s) s

/-- Every line of an area written in full verifies again under its unit's domain (R414). -/
def healArea (s : State) (pa n : Nat) : State :=
  let lo := pa / 64
  let hi := (pa + n) / 64
  { s with bad := s.bad.filter (fun l => l < lo || hi ≤ l)
           lineDom := (s.unitDom.filter (fun u => lo / 32768 ≤ u.1 && u.1 * 32768 < hi)).foldl (fun m u =>
             SMap.putAll 0 m ((List.range 32768).filterMap (fun i =>
               if lo ≤ u.1 * 32768 + i && u.1 * 32768 + i < hi then some (u.1 * 32768 + i, u.2) else none)))
             (SMap.clear s.lineDom lo hi) }

/-- Ranges whose bytes the spec leaves undefined (R404), less a written range. -/
def cutUndef (u : List (Nat × Nat × Nat)) (a n : Nat) : List (Nat × Nat × Nat) :=
  u.flatMap (fun r =>
    let (lo, hi, k) := r
    if hi ≤ a || a + n ≤ lo then [r]
    else (if lo < a then [(lo, a, k)] else []) ++ (if a + n < hi then [(a + n, hi, k)] else []))

/-- Write device memory, marking full lines as verifying and the rows as touched. -/
def dramPut (s : State) (pa : Nat) (b : List Byte) (lat : Nat) : State :=
  let s1 := (fullLines pa b.length).foldl healLine
    { s with mem := memPut s.mem pa b, undef := cutUndef s.undef pa b.length }
  touchRows s1 pa b.length true lat

/-- Read device memory; a byte of an undefined range is a free value. -/
def dramByte (s : State) (a : Nat) : Byte :=
  match s.undef.find? (fun r => r.1 ≤ a && a < r.2.1) with
  | some r => Config.freeByte (r.2.2 * 2 ^ 41 + a)
  | none => memGet s.mem a
def dramBytes (s : State) (pa n : Nat) : List Byte := (List.range n).map (fun i => dramByte s (pa + i))
def dramVal (s : State) (pa n : Nat) : Nat := leVal (dramBytes s pa n)
/-- Write an `n`-byte value as firmware's own bookkeeping does, with no watchpoint. -/
def dramSet (s : State) (pa n v : Nat) : State := dramPut s pa (leBytes n v) 2

end Sys2Proof.Machine
end

