-- ==== Sys2Proof/Machine/Translate.lean ====
section
/-! DEFINITION. Contexts, page tables, leaves and shape descriptors, and where an access goes (R198 to R208). -/

namespace Sys2Proof.Machine
open Sys2Proof

/-- What a fault reports (R386, R387). -/
structure Flt where
  reason : Nat
  detail : Byte
  addr : Nat
  lanes : W64
  aux : W64
  deriving DecidableEq, Repr, Inhabited

def mkFlt (reason addr : Nat) : Flt := ⟨reason, 0, addr, 0, 0⟩
/-- An illegal-instruction fault with its detail (R386). -/
def illegal (detail : Nat) : Flt := ⟨8, BitVec.ofNat 8 detail, 0, 0, 0⟩

/-- The reasons of a permission fault; R387's DETAIL is "the reason number of its chapter", which no chapter gives, so it is
`Config.permDetail` of the index here (log entry 6). -/
inductive Perm where
  | segmentRange | pocketHeader | notPresent | kind | write | execute | barrierFormat | rackFormat | barrierInvalid
  | windowOrder | matrixFormat | segmentLoad | tableLock | linkPrivilege
  deriving DecidableEq, Repr, Inhabited

def permIdx : Perm → Nat
  | .segmentRange => 0 | .pocketHeader => 1 | .notPresent => 2 | .kind => 3 | .write => 4 | .execute => 5
  | .barrierFormat => 6 | .rackFormat => 7 | .barrierInvalid => 8 | .windowOrder => 9 | .matrixFormat => 10
  | .segmentLoad => 11 | .tableLock => 12 | .linkPrivilege => 13

def permFlt (p : Perm) (addr : Nat) : Flt := ⟨2, Config.permDetail (permIdx p), addr, 0, 0⟩

/-- Fatal reasons (R386): all but those a context may resume from. -/
def fatalReason (r : Nat) : Bool := !([0, 1, 12, 13, 14, 15].contains r)

/-! ## Contexts -/

def ctxOf (s : State) (id : Nat) : Option Ctx := s.ctxs.find? (fun c => c.id = id)
def updCtx (s : State) (id : Nat) (f : Ctx → Ctx) : State := { s with ctxs := updWhere s.ctxs (fun c => c.id = id) f }
def partOf (s : State) (p : Nat) : Part := s.parts.getD p Part.reset
def updPart (s : State) (p : Nat) (f : Part → Part) : State := { s with parts := updAt s.parts p f }

/-- The partition that contains a field (R378); none before it is configured. -/
def partOfField (s : State) (f : Nat) : Option Nat := (List.range 8).find? (fun p => (partOf s p).fields.contains f)

/-- The virtual id of a physical core or field in a context, and back (R14, R383); an empty table is the identity. -/
def virtCore (c : Ctx) (k : Nat) : Nat := if c.vcore.isEmpty then k else (c.vcore.findIdx? (fun x => x = k)).getD 0xFFFF
def physCore (c : Ctx) (v : Nat) : Nat := if c.vcore.isEmpty then v else c.vcore.getD v 0xFFFF
def virtField (c : Ctx) (f : Nat) : Nat := if c.vfield.isEmpty then f else (c.vfield.findIdx? (fun x => x = f)).getD 0xFF
def physField (c : Ctx) (v : Nat) : Nat := if c.vfield.isEmpty then v else c.vfield.getD v 0xFF

/-- The scratch address a context sees for a physical one (R197). -/
def virtScr (c : Ctx) (a : Nat) : Nat := virtCore c (a / 2 ^ 19) * 2 ^ 19 + a % 2 ^ 19

/-- The physical scratch address of a virtual one. -/
def physScr (c : Ctx) (a : Nat) : Nat := physCore c (a / 2 ^ 19) * 2 ^ 19 + a % 2 ^ 19

/-- The id of this device in global addresses (R199, R446). -/
def ownDev (s : State) : Nat := (regVal s (regPlat 0)).toNat % 2 ^ 14

/-! ## What leaves the part (R427, R432) -/

/-- Send something out of the part. -/
def emit (s : State) (o : Out) : State := { s with out := s.out ++ [o] }

/-- A tag that no outstanding transaction holds. -/
def freshTag (s : State) : State × Nat := ({ s with nextId := s.nextId + 1 }, s.nextId)

/-- The routing entry of a device id. -/
def routeReg (dev : Nat) : Nat := 0x1F000090000 + 2 * dev
def portServes (s : State) (n : Nat) : Bool := match s.ports[n]? with | some p => p.st = 2 || p.st = 3 | none => false

/-- The port a transaction to a device goes out on (R427). -/
def routeOf (s : State) (dev : Nat) : Option Nat :=
  let e := (regVal s (routeReg dev)).toNat
  if bit e 8 && portServes s (bits e 3 0) then some (bits e 3 0)
  else if bit e 9 && portServes s (bits e 7 4) then some (bits e 7 4)
  else none

/-! ## Page tables (R200 to R203) -/

/-- The size of a leaf at a level. -/
def lvlSize (lvl : Nat) : Nat := 2 ^ (16 + 10 * lvl)

/-- Fields of an entry. -/
def pteKind (e : Nat) : Nat := bits e 4 2
def pteFrame (e : Nat) : Nat := bits e 40 16 * 2 ^ 16
def pteDev (e : Nat) : Nat := bits e 54 41
def pteLat (e : Nat) : Nat := bits e 9 8

/-- The format rules of a leaf but for its shape descriptor (R201 to R203). -/
def leafFormatOk (s : State) (e lvl : Nat) : Bool :=
  let frame := pteFrame e
  let aligned := frame % lvlSize lvl = 0
  let loc := pteDev e = ownDev s
  bit e 1 && lvl ≤ 2 && bits e 9 8 ≠ 3 && pteKind e ≤ 4 &&
  (match pteKind e with
   | 2 => bits e 15 12 = 0 && (e / 2 ^ 16 * 2 ^ 16) % lvlSize lvl = 0
   | 4 => lvl = 0 && !bit e 6 && bits e 12 11 = 0 && regionOf s (bits e 37 13 * 2 ^ 16) = .dram
   | k =>
     bits e 63 55 = 0 && bits e 15 11 = 0 && aligned &&
     (match k with
      | 0 => !loc || regionOf s frame = .dram
      | 1 => !loc || (match regionOf s frame with | .dram | .peer _ | .reg => true | _ => false)
      | _ => loc && (match regionOf s frame with | .cxl _ => true | _ => false)))

/-- The format rules of a pointer (R201): every leaf field RZ, its table in local DRAM. -/
def pointerOk (s : State) (e : Nat) : Bool :=
  bits e 63 41 = 0 && bits e 12 8 = 0 && bits e 6 2 = 0 && regionOf s (bits e 40 13 * 2 ^ 13) = .dram

/-- The walk of R203 down the given levels from a table: the entry and its level, not yet checked for its descriptor. -/
def walkFrom (s : State) (va : Nat) : List Nat → Nat → Except Flt (Nat × Nat)
  | [], _ => .error (mkFlt 3 va)
  | lvl :: rest, t =>
    let a := t + 8 * (va / lvlSize lvl % 1024)
    if regionOf s a ≠ .dram then .error (mkFlt 3 va)
    else if (badLines s a 8) ≠ [] then .error (mkFlt 5 va)
    else
      let e := dramVal s a 8
      if !bit e 0 then .error (if bit e 7 then mkFlt 1 va else permFlt .notPresent va)
      else if bit e 1 || lvl = 0 then (if leafFormatOk s e lvl then .ok (e, lvl) else .error (mkFlt 3 va))
      else if pointerOk s e then walkFrom s va rest (bits e 40 13 * 2 ^ 13)
      else .error (mkFlt 3 va)

/-- The root table of a context. -/
def rootOf (s : State) (ctx : Nat) : Nat := match ctxOf s ctx with | some c => c.root | none => 0

def walkRaw (s : State) (ctx va : Nat) : Except Flt (Nat × Nat) := walkFrom s va [3, 2, 1, 0] (rootOf s ctx)

/-! ## Translation buffers (R207) -/

/-- The buffers: a group's quarter has a first-level one, a field a second-level one, which the cores and the units of the field
share. -/
def gBuf (g : Group) : Nat := 4 * g.core + g.slot / 17
def fieldBuf (f : Nat) : Nat := 1536 + f
def level2 (buf : Nat) : Nat := if buf < 1536 then fieldBuf (coreField (buf / 4)) else buf

/-- The translation unit of the agents of a partition that belong to no field: the queue map, the distributor and the launch records
use that of the partition's lowest field (log entry 42). -/
def partBuf (s : State) (p : Nat) : Nat := fieldBuf ((List.range 16).find? (fun f => (partOf s p).fields.contains f) |>.getD 0)

/-- The leaf a buffer holds for an address, its own or its field's second-level one. -/
def cached (s : State) (buf ctx va : Nat) : Option TlbEnt :=
  let hit (b : Nat) (t : TlbEnt) : Bool := t.buf = b && t.ctx = ctx && va / lvlSize t.lvl * lvlSize t.lvl = t.base
  match s.tlb.find? (hit buf) with
  | some t => some t
  | none => (s.tlb.find? (hit (level2 buf))).map (fun t => { t with buf := buf })

/-- The leaf of an address without its shape descriptor: cached, else walked (R203, R207). -/
def plainEnt (s : State) (buf ctx va : Nat) : Except Flt TlbEnt :=
  match cached s buf ctx va with
  | some t => .ok t
  | none =>
    match walkRaw s ctx va with
    | .error f => .error f
    | .ok (e, lvl) => .ok ⟨buf, ctx, va / lvlSize lvl * lvlSize lvl, lvl, BitVec.ofNat 64 e, []⟩

/-- The location a leaf gives an address. -/
def locOf (s : State) (t : TlbEnt) (va : Nat) : Loc :=
  let e := t.leaf.toNat
  let off := va % lvlSize t.lvl
  match pteKind e with
  | 2 => .host (bit e 11).toNat (e / 2 ^ 16 * 2 ^ 16 + off)
  | 4 => .dram (bits e 37 13 * 2 ^ 16 + off) (pteLat e) false
  | k =>
    let pa := pteFrame e + off
    if pteDev e ≠ ownDev s then .remote (pteDev e) pa (k = 1)
    else match regionOf s pa with
      | .cxl p => .cxl p ((regVal s (regPcie p 0)).toNat + pa % 2 ^ 37)
      | .peer p => .peer p ((regVal s (regPcie p 0x18)).toNat + pa % 2 ^ 37)
      | .reg => .reg pa
      | _ => .dram pa (pteLat e) (k = 1)

/-- An access of a unit to a normal page, here or on another device (R57, R199, R205): where it goes. A frame that is not backed is
refused at the access (R198). -/
def normalLoc (s : State) (t : TlbEnt) (va : Nat) : Except Flt (TlbEnt × Loc) :=
  if pteKind t.leaf.toNat ≠ 0 then .error (permFlt .kind va)
  else match locOf s t va with
    | .dram pa lat o => if regionOf s pa = .dram then .ok (t, .dram pa lat o) else .error (mkFlt 3 va)
    | .remote d a o => .ok (t, .remote d a o)
    | _ => .error (mkFlt 3 va)

/-- The bytes a unit reads at a location: a line that fails integrity, and a device that cannot be reached or does not answer, fault
(R225, R227, R415, R429). Another device's bytes are free values (log entry 8). -/
def unitBytes (s : State) (loc : Loc) (va n : Nat) : Except Flt (List Byte) :=
  match loc with
  | .dram pa _ _ => if badLines s pa n ≠ [] then .error (mkFlt 5 va) else .ok (dramBytes s pa n)
  | .remote d a _ =>
    if (routeOf s d).isNone || Config.readFails s.turn a then .error (mkFlt 6 va)
    else .ok ((List.range n).map (fun i => Config.remoteByte s.turn d (a + i)))
  | _ => .error (permFlt .kind va)

/-- What a unit's read leaves: the rows touched with the leaf's LAT (R401, R408), or a read of that length sent to another device
(R424). -/
def unitTouch (s : State) (loc : Loc) (n : Nat) : State :=
  match loc with
  | .dram pa lat _ => touchRows s pa n false lat
  | .remote d a _ =>
    match routeOf s d with
    | some port =>
      let (s1, tag) := freshTag s
      emit s1 (.flit port d 1 tag false a (leBytes 2 n))
    | none => s
  | _ => s

/-- Where shape descriptor i lies, and the translation of its page (R205). -/
def descAt (s : State) (buf ctx i : Nat) : Except Flt (TlbEnt × Loc) :=
  match ctxOf s ctx with
  | none => .error (mkFlt 3 0)
  | some c =>
    let a := c.sdtb.toNat + 64 * i
    (plainEnt s buf ctx a).bind (fun t => normalLoc s t a)

/-- The 64 bytes of shape descriptor i, checked by R205. -/
def shapeDesc (s : State) (buf ctx va i pidx : Nat) : Except Flt (List Byte) :=
  match ctxOf s ctx with
  | none => .error (mkFlt 3 va)
  | some c =>
    if c.sdtn.toNat ≤ i then .error (mkFlt 3 va)
    else
      match (descAt s buf ctx i).bind (fun r => unitBytes s r.2 (c.sdtb.toNat + 64 * i) 64) with
      | .error f => .error { f with addr := va }
      | .ok d =>
        if fld d 0 8 % 64 = 0 && fld d 8 8 % 64 = 0 && fld d 16 1 = 5 && 6 ≤ fld d 17 1 && fld d 17 1 ≤ 14
          && 1 ≤ fld d 18 2 && fld d 18 2 ≤ 1024 && pidx < fld d 18 2 && fld d 20 44 = 0 then .ok d
        else .error (mkFlt 3 va)

/-- The translation of an address with its shape descriptor, in a buffer: cached, else walked (R203, R205, R207). -/
def lookup (s : State) (buf ctx va : Nat) : Except Flt TlbEnt :=
  match plainEnt s buf ctx va with
  | .error f => .error f
  | .ok t =>
    if pteKind t.leaf.toNat = 4 && t.desc.isEmpty then
      match shapeDesc s buf ctx va (bits t.leaf.toNat 53 38) (bits t.leaf.toNat 63 54) with
      | .error f => .error f
      | .ok d => .ok { t with desc := d }
    else .ok t

/-- Where a unit's access to a normal page goes. -/
def normalAt (s : State) (buf ctx va : Nat) : Except Flt (TlbEnt × Loc) := (lookup s buf ctx va).bind (fun t => normalLoc s t va)

/-- An entry kept in its buffer, of 64 or 8,192 entries; a full buffer loses the entry that `Config.evict` picks. -/
def keepEnt (turn : Nat) (l : List TlbEnt) (e : TlbEnt) : List TlbEnt :=
  if l.contains e then l
  else
    let own := l.filter (fun t => t.buf = e.buf)
    let full := (if e.buf < 1536 then 64 else 8192) ≤ own.length
    (if full then l.erase (own.getD (Config.evict turn e.buf e.base % own.length) default) else l) ++ [e]

/-- The table entries that the walk of an address reads (R203). -/
def walkAddrs (s : State) (va : Nat) : List Nat → Nat → List Nat
  | [], _ => []
  | lvl :: rest, t =>
    let a := t + 8 * (va / lvlSize lvl % 1024)
    a :: (if bit (dramVal s a 8) 1 then [] else walkAddrs s va rest (bits (dramVal s a 8) 40 13 * 2 ^ 13))

/-- What the walks of entries no buffer held read: reads without a leaf, which promote no row (log entry 42). -/
def walkTouch (s : State) (l : List TlbEnt) : State :=
  (l.filter (fun e => (cached s e.buf e.ctx e.base).isNone)).foldl (fun s e =>
    (walkAddrs s e.base [3, 2, 1, 0] (rootOf s e.ctx)).foldl (fun s a => touchRow s a false 2) s) s

/-- The reads of shape descriptors that entries held by no buffer took (R205): each descriptor's page and place. -/
def descReads (s : State) (l : List TlbEnt) : List (TlbEnt × Loc) :=
  (l.filter (fun e => !e.desc.isEmpty && !(cached s e.buf e.ctx e.base).any (fun t => !t.desc.isEmpty))).filterMap (fun e =>
    (descAt s e.buf e.ctx (bits e.leaf.toNat 53 38)).toOption)

/-- Keep translations for later accesses, in their first-level and second-level buffers (R207, R208); the walks and the reads of
descriptors reach their rows, or other devices (R199, R401). -/
def cacheEnts (s : State) (l : List TlbEnt) : State :=
  let ds := descReads s l
  let all := l ++ ds.map (fun d => d.1)
  let u := ds.foldl (fun s d => unitTouch s d.2 64) (walkTouch s all)
  { s with tlb := all.foldl (fun t e => keepEnt s.turn (keepEnt s.turn t e) { e with buf := level2 e.buf }) s.tlb
           rows := u.rows, agenda := u.agenda, out := u.out, nextId := u.nextId }

/-! ## Reads of units at virtual addresses (R199, R457) -/

/-- A range cut at multiples of a unit, as starts and lengths. -/
def runs (unit a n : Nat) : List (Nat × Nat) :=
  if n = 0 then []
  else (List.range ((a + n - 1) / unit - a / unit + 1)).map (fun i =>
    let lo := max a ((a / unit + i) * unit)
    (lo, min (a + n) ((a / unit + i + 1) * unit) - lo))

/-- The region that holds all of a run: every 2 MiB unit it touches lies there (R16, R198). -/
def regionRun (s : State) (a n : Nat) : Region :=
  if (runs (2 ^ 21) a n).all (fun u => regionOf s u.1 = regionOf s a) then regionOf s a else .none

/-- All results, or the first fault. -/
def allOk {α : Type} : List (Except Flt α) → Except Flt (List α)
  | [] => .ok []
  | .error f :: _ => .error f
  | .ok a :: r => match allOk r with | .error f => .error f | .ok l => .ok (a :: l)

/-- What a unit reads: the translations used, the places with their lengths, and the bytes. -/
structure UnitRead where
  ents : List TlbEnt
  locs : List (Loc × Nat)
  bytes : List Byte
  deriving DecidableEq, Repr, Inhabited

/-- `n` bytes of normal pages, read page by page. -/
def unitRead (s : State) (buf ctx va n : Nat) : Except Flt UnitRead :=
  (allOk ((runs 65536 va n).map (fun r =>
    (normalAt s buf ctx r.1).bind (fun p => (unitBytes s p.2 r.1 r.2).map (fun b => (p.1, (p.2, r.2), b)))))).map (fun l =>
      ⟨l.map (fun p => p.1), l.map (fun p => p.2.1), l.flatMap (fun p => p.2.2)⟩)

/-- What the read leaves behind. -/
def readEffect (s : State) (r : UnitRead) : State := r.locs.foldl (fun s p => unitTouch s p.1 p.2) (cacheEnts s r.ents)

/-- The bytes of such a read; none when it cannot be made. -/
def agentLoad (s : State) (buf ctx va n : Nat) : Option (List Byte) :=
  match unitRead s buf ctx va n with
  | .ok r => some r.bytes
  | .error _ => none

/-! ## Access rights (R204) -/

/-- The access classes of R204: plain accesses of z bytes, atomics, shaped accesses (an `LDS` reads the band or does not), fetches. -/
inductive Acc where
  | ld (z : Nat)
  | st (z : Nat)
  | atom
  | lds (band : Bool)
  | stq
  | fetch
  deriving DecidableEq, Repr, Inhabited

/-- The permission check of R204 and of the W and X bits. -/
def accessOk (e : Nat) (a : Acc) (va : Nat) : Option Flt :=
  let k := pteKind e
  let w := match a with | .st _ | .atom | .stq => true | _ => false
  let kindOk := match a with
    | .ld z | .st z => k = 0 || k = 4 || z ≤ 8
    | .atom => k = 0
    | .lds _ | .stq => k = 4
    | .fetch => k = 0
  if !kindOk then some (permFlt .kind va)
  else if w && !bit e 5 then some (permFlt .write va)
  else if a = .fetch && !bit e 6 then some (permFlt .execute va)
  else none

/-- Where a translated access goes once its rights are checked; a frame that the configured rows no longer back is refused (R198). -/
def permitted (s : State) (t : TlbEnt) (va : Nat) (a : Acc) : Except Flt Loc :=
  match accessOk t.leaf.toNat a va with
  | some f => .error f
  | none =>
    match locOf s t va with
    | .dram pa lat o => if regionOf s pa = .dram then .ok (.dram pa lat o) else .error (mkFlt 3 va)
    | l => .ok l

/-- Translate and check one access: its translation and its location. -/
def resolve (s : State) (buf ctx va : Nat) (a : Acc) : Except Flt (TlbEnt × Loc) :=
  (lookup s buf ctx va).bind (fun t => (permitted s t va a).map (fun l => (t, l)))

end Sys2Proof.Machine
end

