-- ==== Sys2Proof/Machine/Order.lean ====
section
/-! DEFINITION. The happens-before order of R293 to R296 as vector clocks, and race detection (R289, R290). A group's own
count in `vc` starts at 1 and rises at each release; a write made at count k happens before an event of another group exactly
when that group has joined a clock that holds at least k for the writer. -/

namespace Sys2Proof.Machine
open Sys2Proof

/-- The union of two vector clocks: the greater count of each group. -/
def vcJoin (a b : SMap Nat) : SMap Nat := b.foldl (fun m kv => if SMap.get 0 m kv.1 < kv.2 then SMap.put 0 m kv.1 kv.2 else m) a

/-- A group's own count. -/
def ownClk (g : Group) : Nat := SMap.get 0 g.vc g.uid

/-- A group that goes on after a release (R293). -/
def tickVc (g : Group) : Group := { g with vc := SMap.put 0 g.vc g.uid (ownClk g + 1) }

/-- A group that observes what a clock holds. -/
def joinVc (g : Group) (v : SMap Nat) : Group := { g with vc := vcJoin g.vc v }

/-- Whether a release and an acquire cover each other's groups at their scopes (R285, R294). -/
def relCovers (r : Rel) (g : Group) (scope : Nat) : Bool :=
  let one (sc : Nat) : Bool := match sc with
    | 0 => r.uid = g.uid
    | 1 => r.ctx = g.ctx && (r.team = g.teamId || (r.nwin && r.nbh && g.kind = .nbh && r.lh = g.lh))
    | _ => r.ctx = g.ctx
  match r.kind with
  | .path _ => false
  | .inbound => r.ctx = g.ctx && scope = 3
  | _ => one r.scope && one scope

/-- Whether a scratch address lies in a window. -/
def inWin (sg : Seg) (a : Nat) : Bool := sg.parts.any (fun p => p ≤ a && a < p + sg.psize)

/-- The release a group makes at a scope, of what it had observed by `vc`, at key `k` of `State.rels`: whatever segment it went
through, its location lies in the N window or not (R285). -/
def mkRel (g : Group) (kind : RelKind) (k scope : Nat) (vc : SMap Nat) : Rel :=
  ⟨kind, g.uid, g.ctx, g.teamId, g.lh, g.kind = .nbh, k < 2 ^ 41 && inWin g.winN k, scope, vc⟩

/-- What the write of another access path leaves for a `FENCE.X` that names the path (R303), and the release at `.sys` of an agent
(R329); and that of inbound traffic (R285, R436). -/
def pathRel (cls ctx : Nat) (vc : SMap Nat) : Rel := ⟨.path cls, 0, ctx, 0, 0, false, false, 3, vc⟩
def sysRel (ctx : Nat) (vc : SMap Nat) : Rel := ⟨.access, 0, ctx, 0, 0, false, false, 3, vc⟩
def inboundRel (ctx : Nat) (vc : SMap Nat) : Rel := ⟨.inbound, 0, ctx, 0, 0, false, false, 3, vc⟩

/-- Whether a release is one of R293 to R295, and not the trace of a path's write. -/
def isRelease (r : Rel) : Bool := match r.kind with | .path _ => false | _ => true

/-- The keys of a byte in `State.rels`: the releases whose value it holds, and every release made on it, which a later
read-modify-write carries on (R294). Scratch bytes are keyed by physical scratch address, DRAM bytes above 2^41. -/
def relNow (k : Nat) : Nat := 2 * k
def relAll (k : Nat) : Nat := 2 * k + 1
def dramKey (pa : Nat) : Nat := 2 ^ 41 + pa

/-- A write of `n` bytes at key `k` leaves its releases on them; a read-modify-write also carries every release made there
before. -/
def noteRels (s : State) (k n : Nat) (rmw : Bool) (rs : List Rel) : State :=
  { s with rels := (List.range n).foldl (fun m i =>
      let all := SMap.get [] m (relAll (k + i))
      let m1 := SMap.put [] m (relNow (k + i)) ((if rmw then all else []) ++ rs)
      SMap.put [] m1 (relAll (k + i)) (all ++ rs.filter isRelease)) s.rels }

/-- A group's write: plain or relaxed ones carry the releases that fences before them make (R295), release ones their own, and each the
trace of an `LSU` write that a `FENCE.X` may hand on (R303). -/
def noteWrite (s : State) (g : Group) (k n : Nat) (rmw : Bool) (rel : Option Nat) : State :=
  noteRels s k n rmw ((match rel with | some sc => [mkRel g .access k sc g.vc] | none => [])
    ++ g.fences.map (fun f => mkRel g .fence k f.1 f.2) ++ [pathRel 0 g.ctx g.vc])

/-- An agent's write (R302): it is no release of the groups' order, but carries what a `FENCE.X` may hand on. -/
def agentWrote (s : State) (k n : Nat) (rmw : Bool) (rs : List Rel) : State := noteRels s k n rmw rs

/-- A group joins the releases of a list that a test picks. -/
def joinRels (g : Group) (rs : List Rel) (p : Group → Rel → Bool) : Group :=
  rs.foldl (fun g r => if p g r then joinVc g r.vc else g) g

/-- A read of `n` bytes at key `k`: an acquire at a scope joins the releases it reads. Any other read keeps them for a later fence,
and joins those of fences that pair with an earlier fence of its own (R295; log entry 43). -/
def noteRead (s : State) (g : Group) (k n : Nat) (acq : Option Nat) : Group :=
  let rs := (List.range n).flatMap (fun i => SMap.get [] s.rels (relNow (k + i)))
  if rs.isEmpty then g
  else
    let g1 := { g with seen := g.seen ++ rs }
    match acq with
    | some sc => joinRels g1 rs (fun g r => relCovers r g sc)
    | none => joinRels g1 rs (fun g r => r.kind = .fence && g.fences.any (fun f => relCovers r g f.1))

/-- What an agent's acquire at `.sys` observes in `n` bytes at key `k` (R285, R294, R346). -/
def agentSees (s : State) (ctx k n : Nat) : SMap Nat :=
  ((List.range n).flatMap (fun i => SMap.get [] s.rels (relNow (k + i)))).foldl (fun v r =>
    if isRelease r && 2 ≤ r.scope && r.ctx = ctx then vcJoin v r.vc else v) []

/-- A fence at a scope: earlier relaxed reads become acquires, later relaxed writes releases (R295). -/
def noteFence (g : Group) (scope : Nat) : Group :=
  let g1 := joinRels g g.seen (fun g r => relCovers r g scope)
  tickVc { g1 with fences := (scope, g1.vc) :: g1.fences.filter (fun f => f.1 ≠ scope) }

/-- What happened before a command that a group gives to a path (R303). -/
def pathClk (g : Group) (cls : Nat) : SMap Nat := match g.xfences.find? (fun f => f.1 = cls) with | some f => f.2 | none => []

/-- `FENCE.X` (R303): what the group has observed of the named paths becomes ordered before the accesses of their later commands; with
`LSU` named also before the group's own later accesses, and what the group has done before those commands. -/
def noteFenceX (g : Group) (lsu : Bool) (cls : List Nat) (scope : Nat) : Group :=
  let named := if lsu then 0 :: cls else cls
  let obs (h : Group) : Group :=
    joinRels h g.seen (fun h r => match r.kind with | .path k => named.contains k && r.ctx = h.ctx | _ => false)
  let own := if lsu then noteFence (obs g) scope else g
  let clk (k : Nat) : SMap Nat := if lsu then (obs g).vc else (obs { g with vc := pathClk g k }).vc
  { own with xfences := cls.map (fun k => (k, clk k)) ++ g.xfences.filter (fun f => !cls.contains f.1) }

/-! ## Race detection (R290) -/

/-- The team whose window holds a physical scratch address. -/
def teamAtScr (s : State) (a : Nat) : Option Team :=
  s.teams.find? (fun t => inWin t.win a)

/-- The launch of a handle. -/
def launchOf (s : State) (lh : W32) : Option Launch := s.launches.find? (fun l => l.lh = lh)
def updLaunch (s : State) (lh : W32) (f : Launch → Launch) : State :=
  { s with launches := updWhere s.launches (fun l => l.lh = lh) f }
def updTeam (s : State) (id : Nat) (f : Team → Team) : State := { s with teams := updWhere s.teams (fun t => t.id = id) f }

/-- The unit number of a core for a context (R387): its virtual id. -/
def coreUnit (s : State) (ctx core : Nat) : Nat := match ctxOf s ctx with | some c => virtCore c core | none => core

/-- Whether race detection is on for a team (R178 FLAGS [1]). -/
def raceOn (s : State) (t : Team) : Bool :=
  match launchOf s t.lh with
  | some l => bit (fld l.desc 2 2) 1
  | none => false

/-- The bytes of a sector that an access of `n` bytes at `a` touches, as byte numbers and as a mask. -/
def sectorBytes (a n sec : Nat) : List Nat :=
  (List.range n).filterMap (fun i => if (a + i) / 32 = sec then some ((a + i) % 32) else none)
def sectorMask (a n sec : Nat) : W32 := (sectorBytes a n sec).foldl (fun m i => m ||| (1#32 <<< i)) 0

/-- The sectors an access touches. -/
def sectorsOf (a n : Nat) : List Nat := (List.range ((a + n - 1) / 32 - a / 32 + 1)).map (fun i => a / 32 + i)

/-- Whether a byte of a stamp was written by an access that does not happen before the group's. -/
def unordered (g : Group) (st : Stamp) (b : Nat) : Bool :=
  st.mask.getLsbD b && SMap.get 0 g.vc st.uid < SMap.get 0 st.clks b

/-- The stamp of a sector that a plain access of a group races with, if any. -/
def raceAt (s : State) (g : Group) (a n : Nat) : Option (Nat × Stamp) :=
  match teamAtScr s a with
  | none => none
  | some t =>
    if !raceOn s t then none
    else ((sectorsOf a n).filterMap (fun sec =>
      (s.stamps.find? (fun kv => kv.1 = sec)).map (fun kv => (sec, kv.2)))).find? (fun p =>
        p.2.uid ≠ g.uid && p.2.interval = t.interval && (sectorBytes a n p.1).any (unordered g p.2))

/-- The stamps after a plain write. -/
def stampWrite (s : State) (g : Group) (a n : Nat) : State :=
  match teamAtScr s a with
  | none => s
  | some t =>
    if !raceOn s t then s
    else (sectorsOf a n).foldl (fun s sec =>
      let st := SMap.get default s.stamps sec
      let old : Stamp := if st.uid = g.uid && st.interval = t.interval then st
        else ⟨g.uid, coreUnit s g.ctx g.core, g.slot, t.interval, 0, []⟩
      let new : Stamp := { old with mask := old.mask ||| sectorMask a n sec
                                    clks := SMap.putAll 0 old.clks ((sectorBytes a n sec).map (fun b => (b, ownClk g))) }
      { s with stamps := SMap.put default s.stamps sec new }) s

/-- An atomic, a release store or an engine write clears the mask bits of the bytes it writes. -/
def stampClear (s : State) (a n : Nat) : State :=
  (sectorsOf a n).foldl (fun s sec =>
    match s.stamps.find? (fun kv => kv.1 = sec) with
    | none => s
    | some kv => { s with stamps := SMap.put default s.stamps sec { kv.2 with mask := kv.2.mask &&& ~~~ sectorMask a n sec } }) s

/-- The stamps and releases of a freed scratch range are dropped with its contents (R177). -/
def dropStamps (s : State) (a n : Nat) : State :=
  { s with stamps := SMap.clear s.stamps (a / 32) ((a + n) / 32), rels := SMap.clear s.rels (2 * a) (2 * (a + n)) }

end Sys2Proof.Machine
end

