-- ==== Sys2Proof/Machine/Pockets.lean ====
section
/-! DEFINITION. The window table of a stream: windows, panes, their pawn queues and what ends a pawn (R351 to R361, R366 to
R368, R459). Everything here is the engine's own table; its writes to memory are in Machine/Windows.lean. -/

namespace Sys2Proof.Machine
open Sys2Proof

/-! ## The stream extension (R343) -/

def sxKind (t : Stream) : Nat := fld t.ext 8 1
def sxPanes (t : Stream) : Bool := fld t.ext 9 1 = 1
def sxEndpol (t : Stream) : Nat := fld t.ext 10 1
def sxNegr (t : Stream) : Nat := fld t.ext 11 1
def sxPocket (t : Stream) : Nat := fld t.ext 12 4
def sxP1 (t : Stream) : Nat := fld t.ext 16 8
def sxP2 (t : Stream) : Nat := fld t.ext 24 8
def sxLate (t : Stream) : Nat := fld t.ext 32 8
/-- The dormancy threshold in ticks of `CLOCK`; 0 means never (R343, R364). -/
def sxDorm (t : Stream) : Nat := 1050 * fld t.ext 44 4
def sxWtlog2 (t : Stream) : Nat := fld t.ext 52 4
/-- The entry PC of a pawn kind 2 to 6; 0 when not declared. -/
def sxEntry (t : Stream) (kind : Nat) : Nat := fld t.ext (56 + 8 * (kind - 2)) 8
/-- The pane length P (R358). -/
def sxPaneLen (t : Stream) : Nat := Nat.gcd (sxP1 t) (sxP2 t)

def streamOf (s : State) (lh : W32) : Option Stream := s.streams.find? (fun t => t.lh = lh)
def updStream (s : State) (lh : W32) (f : Stream → Stream) : State :=
  { s with streams := updWhere s.streams (fun t => t.lh = lh) f }

def winOf (t : Stream) (id : Nat) : Option Win := t.wins.find? (fun w => w.id = id)
def updWin (t : Stream) (id : Nat) (f : Win → Win) : Stream := { t with wins := updWhere t.wins (fun w => w.id = id) f }
/-- A freed pocket returns to its pool, where its last pawn still counts for its row (R364), and its entry is removed (R355). -/
def freeWin (t : Stream) (id : Nat) : Stream :=
  { t with wins := t.wins.filter (fun w => w.id ≠ id)
           resting := (t.wins.filter (fun w => w.id = id)).map (fun w => (w.field, w.pocket.toNat, w.idle)) ++ t.resting }
def closeFree (t : Stream) (id : Nat) : Stream := { freeWin t id with closed := t.closed + 1 }

/-- A window that still takes records: not closing, not absorbed, not a pane. -/
def winOpen (w : Win) : Bool := !w.pane && (w.st = .idle || w.st = .running)

/-- Whether a window contains a pane of its key (R358): the window starts at or before it and ends after it starts. A count
window's END is its last record, a time window's the tick after its span. -/
def containsPane (t : Stream) (w p : Win) : Bool :=
  p.pane && w.key = p.key && w.start ≤ p.start
    && (if sxKind t = 0 then p.start ≤ w.stop else p.start < w.stop)

/-- Queue a pawn on a window or pane; a record pawn names its ring record until it ends (R346, R362). -/
def queuePawn (t : Stream) (id : Nat) (p : WPawn) : Stream :=
  { updWin t id (fun w => { w with queue := w.queue ++ [p] }) with
    named := (match p.ring with | some r => r :: t.named | none => t.named), asked := t.asked ++ [id] }

/-- A pawn of a window has ended, or has been dropped: the ring record it names is named once less. -/
def unname (t : Stream) (p : WPawn) : Stream :=
  { t with named := (match p.ring with | some r => t.named.erase r | none => t.named) }

/-- One PANE pawn of a pane has ended (R358): the pane is freed when none is outstanding. -/
def lowerPref (t : Stream) (id : Nat) : Stream :=
  let t1 := updWin t id (fun w => { w with pref := w.pref - 1 })
  match winOf t1 id with
  | some w => if w.pref = 0 && w.st = .shared then freeWin t1 id else t1
  | none => t1

/-- The pane with its last record delivered and no pawn left becomes SHARED, with one PANE pawn on each open window that
contains it (R358, R459). -/
def sharePane (t : Stream) (p : Win) : Stream :=
  let ws := t.wins.filter (fun w => winOpen w && containsPane t w p)
  let t1 := updWin t p.id (fun w => { w with st := .shared, pref := ws.length })
  let t2 := ws.foldl (fun t w =>
    updWin (queuePawn t w.id ⟨4, p.wid, some p.id, false, none⟩) w.id (fun w => { w with rcount := w.rcount + p.rcount })) t1
  if ws.isEmpty then freeWin t2 p.id else t2

/-- A window whose closing trigger has fired and whose panes are all delivered enters CLOSING (R355, R358). -/
def beginClose (t : Stream) (w : Win) : Stream :=
  let t1 := updWin t w.id (fun w => { w with st := .closing })
  if sxEntry t 5 = 0 then t1 else queuePawn t1 w.id ⟨5, 0, none, w.incomplete, none⟩

/-- Windows by ascending close time, then ascending WID (R360). -/
def insertWin (w : Win) : List Win → List Win
  | [] => [w]
  | v :: r => if w.close < v.close || (w.close = v.close && w.wid.toNat < v.wid.toNat) then w :: v :: r else v :: insertWin w r
def sortWins (l : List Win) : List Win := l.foldr insertWin []

/-- One round of what the table's own state makes due: complete panes, closing windows, closing pockets left without a pawn
(those without a CLOSE entry, or discarded). -/
def settleRound (t : Stream) : Stream :=
  let t1 := (t.wins.filter (fun w => w.pane && w.st = .filling && w.last && w.queue.isEmpty && w.inflight.isNone)).foldl
    sharePane t
  let t2 := (sortWins (t1.wins.filter (fun w => winOpen w && w.last
      && !t1.wins.any (fun p => containsPane t1 w p && p.st = .filling)))).foldl beginClose t1
  (t2.wins.filter (fun w => !w.pane && w.st = .closing && w.queue.isEmpty && w.inflight.isNone)).foldl
    (fun t w => closeFree t w.id) t2

/-- Whether the head of a window's queue may be sent (R356, R359). -/
def sendable (t : Stream) (w : Win) : Bool :=
  w.inflight.isNone &&
  match w.queue with
  | [] => false
  | p :: _ =>
    if p.kind = 6 then (match p.other.bind (winOf t) with | some a => a.inflight.isNone | none => true) else true

/-- Enqueue a step once. -/
def enqueueOnce (s : State) (i : Instr) (a : Arg) : State := if s.agenda.contains (i, a) then s else enqueue s i a

/-- The window engine's request for the row of an address (R364), as `ROW.PROM` and `ROW.DEM` make it; a row outside the slow class
stays as it is. -/
def rowAsk (s : State) (buf ctx va : Nat) (c : RowCmd) : State :=
  match lookup s buf ctx va with
  | .error _ => s
  | .ok e => match locOf s e va with
    | .dram pa _ _ => if 0x0F000000000 ≤ pa then s else rowAct (cacheEnts s [e]) (homeStack pa) ⟨c, stackOff pa / 1024, 2⟩
    | _ => s

/-- The translation unit of the window engine of a virtual field (R10, R207). -/
def winBuf (s : State) (ctx vf : Nat) : Nat := fieldBuf (match ctxOf s ctx with | some c => physField c vf | none => vf)

/-- The promotions due for the pockets that a pawn has been queued for: every row of each (R364). -/
def askRows (s : State) (t : Stream) : State :=
  (t.wins.filter (fun w => t.asked.contains w.id)).foldl (fun s w =>
    (runs 1024 w.pocket.toNat (sxPocket t)).foldl (fun s r => rowAsk s (winBuf s t.ctx w.field) t.ctx r.1 .prom) s) s

/-- The table settled, the rows of pockets asked for, the pawns that may be sent now due, and the reader due to look at the ring again (R346, R363). -/
def settleStream (s : State) (lh : W32) : State :=
  match streamOf s lh with
  | none => s
  | some t =>
    let t1 := settleRound t
    let s1 := askRows (updStream s lh (fun _ => { t1 with asked := [] })) t1
    enqueueOnce ((t1.wins.filter (sendable t1)).foldl (fun s w => enqueueOnce s .windowPawnSend { lh := lh, win := w.id }) s1)
      .ingressPoll { lh := lh }

/-- The pawn in flight of a window ends at a clock (R356, R366 to R368), `vc` being what its lane hands to the next (R296); `die`
frees the pocket. -/
def endPawn (t : Stream) (w : Win) (p : WPawn) (die : Bool) (vc : SMap Nat) (clk : Nat) : Stream :=
  let t1 := unname (updWin t w.id (fun w =>
    { w with inflight := none, disp := false, st := if w.st = .running then .idle else w.st
             vc := vcJoin w.vc vc, idle := clk })) p
  let t2 := match p.kind, p.other with
    | 4, some o => lowerPref t1 o
    | 6, some o => freeWin t1 o
    | _, _ => t1
  if die || p.kind = 5 then closeFree t2 w.id else if w.st = .absorbed && w.last then freeWin t2 w.id else t2

/-- A window-pawn lane ends (R366 to R368): `die` as `DIE`, and always as `DIE` when the pawn in flight is the CLOSE. -/
def pawnEnd (s : State) (lh : W32) (id : Nat) (die : Bool) (vc : SMap Nat) : State :=
  match (streamOf s lh).bind (fun t => (winOf t id).bind (fun w => w.inflight.map (fun p => (t, w, p)))) with
  | none => s
  | some (t, w, p) => settleStream (updStream s lh (fun _ => endPawn t w p die vc s.clock.toNat)) lh

/-- The lanes of a window thread end, ascending: `vc` is what `PARK` and `DIE` release (R296), nothing at other ends. -/
def pawnsEnd (s : State) (g : Group) (lanes : List Nat) (die : Bool) (vc : SMap Nat) : State :=
  lanes.foldl (fun s l => match g.pk.find? (fun kv => kv.1 = l) with
    | some kv => pawnEnd s g.lh kv.2 die vc
    | none => s) s

/-- The queued pawns of a window that are not in flight are dropped by a discard (R361): a dropped PANE or MERGE pawn acts as
if its lane had ended. -/
def dropQueue (t : Stream) (w : Win) : Stream :=
  let t1 := w.queue.foldl (fun t p =>
    let t1 := { unname t p with dropped := t.dropped + 1 }
    match p.kind, p.other with
    | 4, some o => lowerPref t1 o
    | 6, some o => (match winOf t1 o with
        | some a => if a.inflight.isNone then freeWin t1 o else updWin t1 o (fun a => { a with last := true })
        | none => t1)
    | _, _ => t1) t
  updWin t1 w.id (fun w => { w with queue := [] })

end Sys2Proof.Machine
end

