-- ==== Sys2Proof/Machine/Ops.lean ====
section
/-! DEFINITION. The operations every unit shares: where a memory operand lies (R193, R194), switching lanes off (R195), taking
a fault (R384, R386), writes and watchpoints (R389), barriers (R229 to R253), records and the error log (R456, R457), transfers
(R54, R55) and link requests (R424 to R432). -/

namespace Sys2Proof.Machine
open Sys2Proof

/-! ## Offsets and segments (R193, R194, R197) -/

/-- The offset of a lane: base A, signed, plus index B scaled by 2^k, signed when SX is set. -/
def memOff (g : Group) (x : InsWord) (k : Nat) (sx : Bool) (l : Nat) : Int :=
  let a : Int := if modF x 2 0 = 0 then sext (src64 g x true x.opa l) 64 else sext (src32 g x x.opa l) 32
  a + ext (!sx) (src32 g x x.opb l) 32 * ((2 ^ k : Nat) : Int)

/-- The offset under the common layout of MOD. -/
def offOf (g : Group) (x : InsWord) (l : Nat) : Int := memOff g x (modF x 5 4) (x.mod.getLsbD 3) l

/-- The physical scratch address of an offset in a window segment. -/
def segAddr (sg : Seg) (o : Nat) : Nat := sg.parts.getD ((sg.start + o) / sg.psize) 0 + (sg.start + o) % sg.psize

/-- Where an access lies: out of range in S, N or P (the lane is switched off), at a scratch address, at a virtual address,
or faulting. -/
inductive Place where
  | off (o : Int)
  | scr (a : Nat)
  | va (a : Nat)
  | bad (f : Flt)
  deriving DecidableEq, Repr, Inhabited

/-- The 64-bit two's complement of an offset. -/
def off64 (o : Int) : Nat := wrapN o 64

/-- Whether `o .. o + z - 1` lies below a limit. -/
def inLimit (o : Int) (z lim : Nat) : Bool := 0 ≤ o && o + (z : Int) ≤ (lim : Int)

/-- A virtual base plus an offset; past the 56 bits of R200 it is out of range as in segment G. -/
def vaPlace (base : Nat) (o : Int) (z : Nat) : Place :=
  let a := base + o.toNat
  if a + z ≤ 2 ^ 56 then .va a else .bad (permFlt .segmentRange a)

/-- The place of `z` bytes at an offset in a segment, for one lane. -/
def placeIn (g : Group) (seg : Nat) (o : Int) (z l : Nat) : Place :=
  match seg with
  | 0 => if inLimit o z (2 ^ 56) then .va o.toNat else .bad (permFlt .segmentRange (off64 o))
  | 1 => if inLimit o z g.segS.limit then .scr (segAddr g.segS o.toNat) else .off o
  | 2 => if inLimit o z g.segN.limit then .scr (segAddr g.segN o.toNat) else .off o
  | 3 =>
    if inLimit o z (SMap.get 0 g.pL l).toNat then vaPlace (SMap.get 0 g.pB l).toNat o z else .off o
  | 4 =>
    if inLimit o z (SMap.get 0 g.qL l).toNat then vaPlace (SMap.get 0 g.qB l).toNat o z
    else .bad (permFlt .segmentRange (off64 o))
  | _ => if inLimit o z g.clim.toNat then vaPlace g.cbase.toNat o z else .bad (permFlt .segmentRange (off64 o))

/-- The window of segment S or N. -/
def segWin (g : Group) (seg : Nat) : Seg := if seg = 2 then g.segN else g.segS

/-- The reserved 16 KiB of a core's bank (R160, R172): at slice offset 0x7C000 (log entry 7). -/
def reservedBase (core : Nat) : Nat := core * 2 ^ 19 + 0x7C000
def reqAddr (core slot : Nat) : Nat := reservedBase core + 64 * slot
def replyBar (core slot : Nat) : Nat := reservedBase core + 0x1100 + 16 * slot
def mailboxBar (core : Nat) : Nat := reservedBase core + 0x1540

/-! ## Lane faults (R195) -/

/-- Count lanes switched off where R191 reports them: in the team's exit record, or in the launch's completion record for
a pawn group; the offset is the lowest lane's. -/
def countLanesOff (s : State) (g : Group) (n : Nat) (off : Nat) : State :=
  match g.kind with
  | .tailor => s
  | .pawn | .window =>
    updLaunch s g.lh (fun l =>
      let first := l.lanesOff = 0
      { l with lanesOff := l.lanesOff + BitVec.ofNat 64 n, pawnFault := true
               firstOff := if first then BitVec.ofNat 64 off else l.firstOff
               firstEntry := if first then g.entry else l.firstEntry })
  | _ =>
    updTeam s g.teamId (fun t =>
      let first := t.lanesOff = 0
      { t with lanesOff := t.lanesOff + n
               firstGroup := if first then g.index.toNat else t.firstGroup
               firstOff := if first then BitVec.ofNat 64 off else t.firstOff })

/-- Lanes that end, with no fault marked. -/
def dropLanes (g : Group) (m : W64) : Group := { g with live := g.live &&& ~~~ m, em := g.em &&& ~~~ m }

/-- The machine and the group after the listed lanes (with their offsets) are switched off; a window-pawn lane also ends its
pawn (R368). -/
def lanesOff (s : State) (g : Group) (ls : List (Nat × Int)) : State × Group :=
  match ls with
  | [] => (s, g)
  | (_, o) :: _ =>
    let m := maskOf (ls.map (fun p => p.1))
    (pawnsEnd (countLanesOff s g ls.length (off64 o)) g (ls.map (fun p => p.1)) false [],
      { dropLanes g m with lfault := g.lfault ||| m })

/-! ## Records: the partition error log (R456) -/

/-- One entry of a partition's error log: kind, unit, context, address, status code, the 64 further bytes. -/
def elog (s : State) (p kind unit ctx addr aux : Nat) (tail : List Byte) : State :=
  let n := (regVal s (regPart p 0xB8)).toNat
  let e := (regVal s (regPart p 0xF8)).toNat
  let s1 := regPut s (regPart p 0xB8) (BitVec.ofNat 64 (n + 1))
  if bit e 63 then
    let a := e % 2 ^ 41 + 128 * (n % 512)
    dramPut s1 a (leBytes 2 kind ++ leBytes 2 unit ++ leBytes 4 ctx ++ leBytes 8 s.clock.toNat
        ++ leBytes 8 addr ++ leBytes 8 aux ++ leBytes 32 0 ++ (tail ++ leBytes 64 0).take 64) 2
  else s1

/-- The partition of a context. -/
def partOfCtx (s : State) (ctx : Nat) : Nat := match ctxOf s ctx with | some c => c.part | none => 0

/-- An event to the management core of a kind numbered here: 1 a FAULTED context, 2 a tailor group, 3 a tailor start block. -/
def fatalEvent (s : State) (k what : Nat) : State := emit s (.fatal (k * 2 ^ 32 + what))

/-! ## Taking a fault (R384 to R387) -/

/-- The halt line of a context's partition rises with a record; what stops it is a step of its own. -/
def raiseLine (s : State) (ctx : Nat) (r : FaultRec) : State :=
  let s1 := updCtx s ctx (fun c => { c with line := true, faults := c.faults ++ [r] })
  enqueueOnce (updPart s1 (partOfCtx s ctx) (fun p => { p with halt := true })) .contextStopped { ctx := ctx }

/-- The record of a group's fault. -/
def groupRec (g : Group) (f : Flt) (rpc : W64) : FaultRec :=
  ⟨none, g.core, g.slot, f.reason, f.detail, g.pc, rpc, BitVec.ofNat 64 f.addr, f.lanes, 0, f.aux⟩

/-- The 64 bytes of a stop record (R387). -/
def stopRecord (s : State) (unit ctx : Nat) (slot : Nat) (r : FaultRec) : List Byte :=
  leBytes 2 unit ++ leBytes 1 r.reason ++ [r.detail] ++ leBytes 4 ctx ++ leBytes 8 r.pc.toNat ++ leBytes 8 r.rpc.toNat
    ++ leBytes 8 r.faddr.toNat ++ leBytes 8 r.lanes.toNat ++ leBytes 2 slot ++ leBytes 2 r.wcls ++ leBytes 4 0
    ++ leBytes 8 s.clock.toNat ++ leBytes 8 r.aux.toNat

/-- A group held where it stopped, in the state it is in: restarted at a PC, its prefix unit closed (R158, R384). -/
def holdAt (g : Group) (rpc : W64) : Group := closeUnit { g with pc := rpc, fetched := [], iss := default }
/-- A group whose instruction has stopped it. -/
def stopAt (g : Group) (rpc : W64) : Group := { holdAt g rpc with st := .ready, wait := .none }

/-- A stopped group that will go on from its saved PC: whether it is then held to that slot's ENTRY bit is left open (R55 against R381 and
R390; log entry 31), but a restart at a chain head or prefix never is. -/
def savedAt (g : Group) (restart : Bool) : Group :=
  { g with land := if Config.resumeEntry && !restart && g.land.isNone then some g.pc else g.land }

/-- A tailor group's fault (R160): the group ends, its stop record goes to the error log, and the management core is told. -/
def stopTailor (s : State) (g : Group) (r : FaultRec) : State :=
  let s1 := setGroup s { stopAt g (restartPc g) with live := 0, em := 0, st := .ending, loads := [] }
  let p := (partOfField s (coreField g.core)).getD 0
  fatalEvent (elog s1 p 1 g.core 0 0 r.reason (stopRecord s g.core 0 g.slot r)) 2 g.core

/-- TAKING A FAULT, the one operation of R386: the instruction has no effect; the group is left at its restart PC (R70, R75)
and its context's halt line rises with the record. A tailor group's fault raises no line: it stops the group, logs the stop
record and tells the management core (R160). -/
def takeFault (s : State) (g : Group) (f : Flt) : State :=
  let r := groupRec g f (restartPc g)
  if g.kind = .tailor then stopTailor s g r
  else raiseLine (setGroup s (savedAt (stopAt g (restartPc g)) (g.iss.head.isSome || g.iss.restart.isSome || g.unit.isSome))) g.ctx r

/-- A fault of a unit other than a group (R386): its unit number of R387, and what its record holds. -/
def unitFault (s : State) (ctx unit reason : Nat) (detail : Byte) (pc rpc faddr : Nat) : State :=
  raiseLine s ctx ⟨some unit, 0, 0xFFFF, reason, detail, BitVec.ofNat 64 pc, BitVec.ofNat 64 rpc, BitVec.ofNat 64 faddr, 0,
    0, 0⟩

/-- A fault that is not precise (R226, R227): the record names a core's group, which goes on until it is stopped, when its restart
PC is known; a tailor group stops alone (R160). -/
def lateFault (s : State) (ctx core slot reason : Nat) (pc : W64) (addr : Nat) : State :=
  let r : FaultRec := ⟨none, core, slot, reason, 0, pc, pc, BitVec.ofNat 64 addr, 0, 0, 0⟩
  match groupAt s core slot with
  | some g => if g.kind = .tailor then stopTailor s g r else raiseLine s ctx r
  | none => raiseLine s ctx r

/-! ## Writes and watchpoints (R388, R389) -/

/-- Who writes: the writer class and id of R389, and the storing instruction's PC. -/
structure Writer where
  cls : Nat
  id : Nat
  pc : W64
  deriving DecidableEq, Repr, Inhabited

/-- A group as writer, an engine unit, the window engine, an inbound link request, the base die, a PCIe request. -/
def groupWriter (s : State) (g : Group) : Writer := ⟨1, coreUnit s g.ctx g.core + g.slot * 2 ^ 16, g.pc⟩

/-- Whether watchpoint word `w` watches an access (R388). -/
def wpWatches (w : Nat) (scratch : Bool) (a n : Nat) : Bool :=
  let b := bits w 40 0
  bit w 71 && (bit w 70 == scratch) && a < b + 2 ^ bits w 69 64 && b < a + n

/-- A write that reached memory for a context in the banks: each watchpoint it hits first raises the halt line. One that is out sees no
write (R389). -/
def watch (s : State) (ctx : Nat) (scratch : Bool) (a : Nat) (b : List Byte) (wr : Writer) : State :=
  match ctxOf s ctx with
  | none => s
  | some c =>
    let va := if scratch then virtScr c a else a
    (List.range (if c.inBanks then c.wp.length else 0)).foldl (fun s w =>
      let hit := match ctxOf s ctx with | some c => c.wpHit.contains w | none => true
      if !hit && wpWatches (c.wp.getD w 0).toNat scratch va b.length then
        raiseLine (updCtx s ctx (fun c => { c with wpHit := c.wpHit ++ [w] })) ctx
          ⟨some (496 + w), 0, 0xFFFF, 12, 0, wr.pc, 0, BitVec.ofNat 64 va, BitVec.ofNat 64 wr.id, wr.cls,
            BitVec.ofNat 64 (leVal (b.take 8))⟩
      else s) s

/-- What a write to device memory may make due (R328, R346, R371): waiting packets, ingress readers and disarmed egress
rings look again. -/
def notice (s : State) : State :=
  let s1 := s.pkts.foldl (fun s p =>
    if p.kind = 3 then enqueueOnce s .waitmemRecheck { slot := p.slot, ridx := p.ridx } else s) s
  s.streams.foldl (fun s t =>
    t.disarmed.foldl (fun s r => enqueueOnce s .egressRearm { lh := t.lh, ring := r })
      (enqueueOnce s .ingressPoll { lh := t.lh })) s1

/-- Write scratchpad, and local device memory, for a context. -/
def scrWrite (s : State) (ctx a : Nat) (b : List Byte) (wr : Writer) : State :=
  watch { s with scr := memPut s.scr a b } ctx true a b wr
def dramWrite (s : State) (ctx pa lat : Nat) (b : List Byte) (wr : Writer) : State :=
  watch (notice (dramPut s pa b lat)) ctx false pa b wr

/-- An agent's write: it clears race stamps and carries what is given (R290, R302). -/
def agentScr (s : State) (ctx a : Nat) (b : List Byte) (wr : Writer) (rs : List Rel) : State :=
  agentWrote (stampClear (scrWrite s ctx a b wr) a b.length) a b.length false rs
def agentDram (s : State) (ctx pa lat : Nat) (b : List Byte) (wr : Writer) (rs : List Rel) : State :=
  agentWrote (dramWrite s ctx pa lat b wr) (dramKey pa) b.length false rs

/-! ## The link (R424 to R432) -/

/-- Whether `n` more bytes to a device fit its send window (R431). -/
def linkRoom (s : State) (dev n : Nat) : Bool :=
  let out := (s.xacts.filter (fun x => x.dst = dev && !x.unsent)).foldl (fun t x => t + x.size) 0
  out = 0 || out + n ≤ (regVal s (regLink 8)).toNat

/-- A transaction goes out on its port: ADDR is the local address at the destination, of a message zero (R422). -/
def emitXact (s : State) (x : Xact) : State :=
  emit s (.flit x.port x.dst x.kind x.tag x.ord (if x.kind = 9 || x.kind = 10 then 0 else x.addr % 2 ^ 41) x.payload)

/-- Send a transaction: it is outstanding until its answer (R424). One that its send window has no room for waits, behind those that wait
already (R431). -/
def sendXact (s : State) (x : Xact) : State :=
  let y := { x with sent := s.clock.toNat }
  if linkRoom s x.dst x.size && !s.xacts.any (fun z => z.unsent && z.dst = x.dst) then emitXact { s with xacts := s.xacts ++ [y] } y
  else { s with xacts := s.xacts ++ [{ y with unsent := true }] }

/-! ## Stores by agents at virtual addresses (R457) -/

/-- Where an agent may store a run of bytes that one page holds: a writable normal page, here or on another device. -/
def storeTo (s : State) (buf ctx : Nat) (r : Nat × Nat) : Except Flt (TlbEnt × Loc) :=
  (normalAt s buf ctx r.1).bind (fun p =>
    if !bit p.1.leaf.toNat 5 then .error (permFlt .write r.1)
    else match p.2 with
      | .dram pa _ _ => if badPartial s pa r.2 ≠ [] then .error (mkFlt 5 r.1) else .ok p
      | .remote d _ _ => if (routeOf s d).isNone then .error (mkFlt 6 r.1) else .ok p
      | _ => .ok p)

/-- Whom the loss of an agent's posted write is charged to: the group that a writer of class `LSU` names, else the unit of a window engine
(R226, R387). -/
def writerOf (s : State) (ctx : Nat) (wr : Writer) : Nat × Nat × Nat :=
  if wr.cls = 1 && wr.id ≠ 0xFFFF then
    let core := match ctxOf s ctx with | some c => physCore c (wr.id % 65536) | none => wr.id % 65536
    ((match groupAt s core (wr.id / 65536) with | some g => g.uid | none => 0), core, wr.id / 65536)
  else (0, 0, if wr.cls = 4 then wr.id else 0xFFFF)

/-- One run stored, over the link as a posted write. -/
def storeRun (s : State) (ctx va : Nat) (loc : Loc) (b : List Byte) (wr : Writer) (rs : List Rel) : State :=
  match loc with
  | .dram pa lat _ => agentDram s ctx pa lat b wr rs
  | .remote d a _ =>
    match routeOf s d with
    | some port =>
      let (s1, tag) := freshTag s
      let w := writerOf s ctx wr
      sendXact s1 ⟨tag, d, port, 3, b.length, w.1, w.2.1, w.2.2, ctx, wr.pc, a, false, false, false, b, va, [], 0, false, none⟩
    | none => s
  | _ => s

/-- Write bytes at a virtual address for a context's agent, every page checked before any byte is written; or the first fault. -/
def agentStore (s : State) (buf ctx va : Nat) (b : List Byte) (wr : Writer) (rs : List Rel) : Except Flt State :=
  let rr := runs 65536 va b.length
  match allOk (rr.map (storeTo s buf ctx)) with
  | .error f => .error f
  | .ok ps =>
    .ok ((ps.zip rr).foldl (fun s p => storeRun s ctx p.2.1 p.1.2 ((b.drop (p.2.1 - va)).take p.2.2) wr rs)
      (cacheEnts s (ps.map (fun p => p.1))))

/-- Write a record of R457; a failure, also of a write already on its way to another device, goes to the error log and nothing else
changes. -/
def putRecord (s : State) (buf ctx unit va : Nat) (b : List Byte) (wr : Writer) (rs : List Rel) : State :=
  match agentStore s buf ctx va b wr rs with
  | .ok s1 => { s1 with xacts := updWhere s1.xacts (fun x => s.nextId ≤ x.tag) (fun x => { x with record := some unit }) }
  | .error _ => elog s (partOfCtx s ctx) 4 unit ctx va 0 b

/-- The bytes an agent reads, with what the read leaves behind. -/
def agentRead (s : State) (buf ctx va n : Nat) : Except Flt (State × List Byte) :=
  (unitRead s buf ctx va n).map (fun r => (readEffect s r, r.bytes))

/-- What an agent's read leaves behind when it can be made. -/
def agentTouch (s : State) (buf ctx va n : Nat) : State :=
  match unitRead s buf ctx va n with | .ok r => readEffect s r | .error _ => s

/-! ## Fetch lines and transfers (R54 to R56) -/

/-- The line word of R53 and its parity. -/
def lineWord (b : Nat) : Nat := b % 2 ^ 32
def lineParity (b : Nat) : Nat :=
  (List.range 8).foldl (fun r i =>
    let cols := (List.range 8).foldl (fun t m => if 4 + i + 8 * m ≤ 63 then t ^^^ bits b (8 * (4 + i + 8 * m) + 7) (8 * (4 + i + 8 * m)) else t) 0
    r + 2 ^ i * (popCount cols 8 % 2)) 0
def lineSound (b : Nat) : Bool := lineParity b = bits b 31 24

/-- A line as memory holds it, through the context's tables, with its translation and its place (R57). -/
def lineInMem (s : State) (buf ctx line : Nat) : Except Flt (Nat × TlbEnt × Loc) :=
  (resolve s buf ctx line .fetch).bind (fun r => (unitBytes s r.2 line 64).map (fun b => (leVal b, r.1, r.2)))

/-- A line in a core's instruction buffer. -/
def lineInBuf (s : State) (core ctx line : Nat) : Option Nat :=
  (s.ibuf.find? (fun l => l.core = core && l.ctx = ctx && l.va = line)).map (fun l => l.line.toNat)

/-- Whether a PC has the form of R54. -/
def pcForm (pc : W64) : Bool := pc.toNat < 2 ^ 56 && bits pc.toNat 5 3 = 0 && pc.toNat % 8 ≤ 4

/-- Whether a transfer may land at a PC (R54, R55): its ENTRY bit; none while its line cannot be read. -/
def entryAt (s : State) (buf core ctx : Nat) (pc : W64) : Option Bool :=
  let line := pc.toNat / 64 * 64
  if !pcForm pc then some false
  else match lineInBuf s core ctx line with
  | some b => some (bit b (pc.toNat % 8))
  | none => match lineInMem s buf ctx line with
    | .ok (b, _) => some (bit b (pc.toNat % 8))
    | .error _ => none

/-- A transfer of a group as it will be: it goes on at the target, or the group as it is takes the illegal-entry fault (R166). A
line that cannot be read is no illegal entry yet: its fetch faults, and once it can be read the bit is checked (R55, R57); `link` is what
a call overwrote, which that check may put back. -/
def transfer (s : State) (g h : Group) (pc : W64) (link : Option (Nat × Nat)) : State :=
  match entryAt s (gBuf g) g.core g.ctx pc with
  | some true => finishAt s h pc none
  | some false => takeFault s g { illegal 5 with addr := pc.toNat }
  | none => finishAt s { h with link := link } pc (some g.pc)
def goTo (s : State) (g : Group) (pc : W64) : State := transfer s g g pc none

/-! ## Barriers (R229 to R235) -/

/-- A barrier object at a scratch address, and written back; its RZ bits are written zero. -/
def barIn (m : Memory) (ba : Nat) : Barrier :=
  let x := memVal m ba 16
  ⟨BitVec.ofNat 32 (bits x 127 96), BitVec.ofNat 32 (bits x 95 64), bit x 50, bit x 49, bit x 48,
    BitVec.ofNat 16 (bits x 47 32), BitVec.ofNat 16 (bits x 31 16), BitVec.ofNat 16 (bits x 15 0)⟩
def barAt (s : State) (ba : Nat) : Barrier := barIn s.scr ba

def barBytes (b : Barrier) : List Byte :=
  leBytes 16 (b.phase.toNat + 2 ^ 16 * b.expa.toNat + 2 ^ 32 * b.penda.toNat + 2 ^ 48 * b.valid.toNat + 2 ^ 49 * b.ovf.toNat
    + 2 ^ 50 * b.remote.toNat + 2 ^ 64 * b.expb.toNat + 2 ^ 96 * b.pendb.toNat)

def barPut (s : State) (ba : Nat) (b : Barrier) : State := { s with scr := memPut s.scr ba (barBytes b) }

/-- `Settle` (R232), and whether it completed a phase. -/
def settle (b : Barrier) : Barrier × Bool :=
  if b.valid && b.penda = 0 && b.pendb = 0 then
    ({ b with phase := b.phase + 1, penda := b.expa, pendb := b.expb }, true)
  else (b, false)

/-- `Arrive` and `Land` but for their `Settle` (R232). -/
def arriveB (b : Barrier) (n : Nat) : Barrier :=
  if b.penda.toNat < n then { b with ovf := true, penda := 0 } else { b with penda := b.penda - BitVec.ofNat 16 n }
def landB (b : Barrier) (n : Nat) : Barrier :=
  if b.pendb.toInt - (n : Int) < -((2 ^ 31 : Nat) : Int) then { b with ovf := true, pendb := 0x80000000 }
  else { b with pendb := b.pendb - BitVec.ofNat 32 n }

/-- `BINV`'s change of a valid barrier (R243). -/
def binvB (b : Barrier) : Barrier :=
  { b with phase := b.phase + 1, penda := 0, pendb := 0, valid := false, ovf := false }

/-- `Reached` (R251). -/
def reached (b : Barrier) (t : BitVec 16) : Bool := b.valid && (b.phase - t).toNat < 2 ^ 15

/-- Where the clocks of a phase's arrivals are kept (R296). -/
def phaseKey (ba : Nat) (ph : BitVec 16) : Nat := ba * 65536 + ph.toNat

/-- An arrival counted toward the open phase, by what the arriver has observed. -/
def notePhase (s : State) (ba : Nat) (ph : BitVec 16) (vc : SMap Nat) : State :=
  { s with phases := SMap.put [] s.phases (phaseKey ba ph) (vcJoin (SMap.get [] s.phases (phaseKey ba ph)) vc) }

/-- The clocks of a phase are not handed on any more, or not by this phase: one that ended without completing (R234, R238, R243), or one
whose number begins again. -/
def forgetPhase (s : State) (ba : Nat) (ph : BitVec 16) : State := { s with phases := SMap.put [] s.phases (phaseKey ba ph) [] }

/-- A return from a wait on a completed phase is an acquire (R234, R296). -/
def joinPhase (s : State) (g : Group) (ba : Nat) (ph : BitVec 16) : Group :=
  joinVc g (SMap.get [] s.phases (phaseKey ba ph))

/-- Whether the groups of a context issue (R384). -/
def ctxRuns (s : State) (ctx : Nat) : Bool :=
  match ctxOf s ctx with
  | some c => c.st = .active && !c.line
  | none => false

/-- A tailor's reply has arrived (R173): `REQ` takes status and payload, `TRAP` acts by its action code. Where sD lies among the payload's
registers the status is written last, and a trap's stop record names the code in AUX (log entry 55). -/
def replyDone (s0 : State) (g : Group) (trap : Bool) (sd sA : Nat) : State :=
  let s := { s0 with mbx := s0.mbx.filter (fun m => m.uid ≠ g.uid) }
  let r := memBytes s.scr (reqAddr g.core g.slot) 64
  if !trap then
    finish s (wrS (wrSs g sA ((List.range 8).map (fun k => fld r (32 + 4 * k) 4))) sd (fld r 28 4))
  else match fld r 32 8 with
    | 0 => finish s g
    | 1 => goTo s g (BitVec.ofNat 64 (fld r 40 8))
    | 2 =>
      finish (pawnsEnd s g (lanesOf g.live g.width) false []) { g with live := 0, em := 0 }
    | _ => takeFault s g ⟨14, 0, 0, 0, BitVec.ofNat 64 (fld r 4 4)⟩

/-- One waiting group against its barrier: it goes on when its condition holds or `inval` says the barrier was invalidated
while it waited; only a completed phase is an acquire (R234, R241, R251). A phase that ends before a request is claimed replies to a
withdrawn one, and is discarded (R174). -/
def wakeGroup (s : State) (ba : Nat) (inval acq : Bool) (g : Group) : State :=
  let b := barAt s ba
  match g.wait with
  | .phase a ph =>
    if a = ba && (inval || (b.valid && b.phase ≠ ph)) then finish s (if acq then joinPhase s g ba ph else g) else s
  | .rack a t sd v =>
    if a = ba && (inval || reached b t) then
      finish s (wrS (if acq then joinPhase s g ba (t - 1) else g) sd v.toNat)
    else s
  | .reply a ph trap sd sA =>
    if a ≠ ba || !(inval || (b.valid && b.phase ≠ ph)) then s
    else if inval || s.mbx.any (fun m => m.uid = g.uid && m.claimed) then replyDone s (joinPhase s g ba ph) trap sd sA
    else setGroup s { g with wait := .reply a b.phase trap sd sA }
  | _ => s

/-- The engine jobs that wait on a barrier of a rack (R253): those whose wait ends are due to go on. -/
def wakeJobs (s : State) (ba : Nat) (inval : Bool) : State :=
  let due (j : Job) : Bool := match j.wait with
    | some (a, t) => j.st = .running && a = ba && (inval || reached (barAt s ba) t)
    | none => false
  let s1 := { s with jobs := updWhere s.jobs due (fun j => { j with rackReady := true }) }
  (s.jobs.filter due).foldl (fun s j => enqueueOnce s .engineRackWaitEnd
    { gather := j.gather, field := (match ctxOf s j.ctx with | some c => physField c j.field | none => j.field)
      eng := j.eng.getD 0 }) s1

/-- Every group of a running context that waits on a barrier (R232, R384), and every engine. -/
def wakeBar (s : State) (ba : Nat) (inval acq : Bool) : State :=
  (s.groups.filter (fun g => g.st = .waiting && ctxRuns s g.ctx)).foldl (fun s g => wakeGroup s ba inval acq g)
    (wakeJobs s ba inval)

/-- The barrier interval of each team all of whose live groups have arrived on the barrier since its last advance moves
on (R290). -/
def advanceIntervals (s : State) (ba : Nat) : State :=
  { s with teams := s.teams.map (fun t =>
      let live := s.groups.filter (fun g => g.teamId = t.id && g.live ≠ 0)
      if t.arrived.any (fun k => k / 2 ^ 64 = ba) && live.all (fun g => t.arrived.contains (ba * 2 ^ 64 + g.uid)) then
        { t with interval := t.interval + 1, arrived := [] }
      else t) }

/-- A barrier event: the change, `Settle`, the object written back, and the waiters whose condition holds then released. -/
def barEvent (s : State) (ba : Nat) (f : Barrier → Barrier) : State :=
  let (b, done) := settle (f (barAt s ba))
  let s1 := barPut s ba b
  wakeBar (if done then forgetPhase (advanceIntervals s1 ba) ba b.phase else s1) ba false true

/-- An event of an agent that hands on what it has observed (R245, R296, R299). -/
def barNoted (s : State) (ba : Nat) (vc : SMap Nat) (f : Barrier → Barrier) : State :=
  barEvent (notePhase s ba (barAt s ba).phase vc) ba f

/-- A group's arrival: counted toward the open phase, and for its team's interval. -/
def groupArrive (s : State) (g : Group) (ba : Nat) (f : Barrier → Barrier) : State :=
  barNoted (updTeam s g.teamId (fun t => { t with arrived := (ba * 2 ^ 64 + g.uid) :: t.arrived.erase (ba * 2 ^ 64 + g.uid) }))
    ba g.vc f

/-- The physical address of a barrier an agent names by scratch offset in a window (R230, R244); none when it is INVALID,
misaligned or out of range. -/
def agentBar (s : State) (sg : Seg) (o : Nat) : Option Nat :=
  if o % 16 = 0 && o + 16 ≤ sg.limit && (barAt s (segAddr sg o)).valid then some (segAddr sg o) else none

/-- An agent's arrival (R244), with what it hands on: a refused one is recorded in the partition's error log. -/
def agentArrive (s : State) (p ctx unit : Nat) (sg : Option Seg) (o n : Nat) (vc : SMap Nat) : State :=
  match sg.bind (fun sg => agentBar s sg o) with
  | some ba => barNoted s ba vc (fun b => arriveB b n)
  | none => elog s p 2 unit ctx o 0 []

/-- The waits of a resumed context, evaluated again (R248); a group whose request was withdrawn, or that waited for a rendezvous, issues
its instruction anew (R174, R312). -/
def recheckWaits (s : State) (ctx : Nat) : State :=
  (s.groups.filter (fun g => g.ctx = ctx && g.st = .waiting)).foldl (fun s g =>
    match g.wait with
    | .phase ba _ | .rack ba _ _ _ => wakeGroup s ba false true g
    | .reply ba _ _ _ _ =>
      if s.mbx.any (fun m => m.uid = g.uid) then wakeGroup s ba false true g
      else setGroup s (savedAt { stopAt g g.pc with stamp := s.clks, since := s.clks } false)
    | .quad _ => setGroup s (savedAt { stopAt g g.pc with stamp := s.clks, since := s.clks } false)
    | _ => s) s

/-! ## Replies to a request whose context is out (R174) -/

/-- The request that a tailor's write of its own core's request records or reply barriers answers: the oldest one of that slot that is
claimed and not yet answered, as a reply is bound to the sequence number it answers (R174). -/
def answering (s : State) (g : Group) (a : Nat) : Option MbxReq :=
  let o := a - reservedBase g.core
  let slot := if o < 0x1100 then o / 64 else (o - 0x1100) / 16
  if g.kind ≠ .tailor || a < reservedBase g.core || 0x1540 ≤ o then none
  else s.mbx.find? (fun m => m.core = g.core && m.slot = slot && m.claimed && !m.answered)

/-- Where a tailor's reply to a claimed request goes once the request's context has been swapped out: into its saved image, at an address
there, or, when it has come back on another core, to a scratch address of the banks. -/
def awayScr (s : State) (g : Group) (a : Nat) : Option (Option Nat × Nat) :=
  match answering s g a with
    | none => none
    | some m =>
      match (ctxOf s m.ctx).bind (fun c => c.image) with
      | none => (s.groups.find? (fun h => h.uid = m.uid && h.core ≠ g.core)).map (fun h => (none, h.core * 2 ^ 19 + a % 2 ^ 19))
      | some i => (i.groups.find? (fun h => h.uid = m.uid)).map (fun h => (some m.ctx, h.core * 2 ^ 19 + a % 2 ^ 19))

/-- The scratchpad of a saved image. -/
def imageScr (s : State) (ctx : Nat) : Memory := match (ctxOf s ctx).bind (fun c => c.image) with | some i => i.scr | none => []
def putImageScr (s : State) (ctx : Nat) (m : Memory) : State :=
  updCtx s ctx (fun c => { c with image := c.image.map (fun i => { i with scr := m }) })

/-- A group's scratch write: to the banks, or a tailor's reply to where its request waits. -/
def groupScr (s : State) (g : Group) (a : Nat) (b : List Byte) (wr : Writer) : State :=
  match awayScr s g a with
  | some (some c, a') => putImageScr s c (memPut (imageScr s c) a' b)
  | some (none, a') => scrWrite s g.ctx a' b wr
  | none => scrWrite s g.ctx a b wr

/-- The barrier that a group's `ARRIVE` names, and its arrival: a tailor's on a reply barrier goes where the request waits, and in a saved
image is found at resume. -/
def arriveBar (s : State) (g : Group) (ba : Nat) : Barrier :=
  match awayScr s g ba with
  | some (some c, a') => barIn (imageScr s c) a'
  | some (none, a') => barAt s a'
  | none => barAt s ba
def arriveOn (s0 : State) (g : Group) (ba : Nat) (f : Barrier → Barrier) : State :=
  let s := match answering s0 g ba with
    | some m => { s0 with mbx := updWhere s0.mbx (fun n => n = m) (fun n => { n with answered := true }) }
    | none => s0
  match awayScr s0 g ba with
  | some (some c, a') =>
    let b := barIn (imageScr s c) a'
    updCtx s c (fun c => { c with image := c.image.map (fun i =>
      { i with scr := memPut i.scr a' (barBytes (settle (f b)).1)
               phases := SMap.put [] i.phases (phaseKey a' b.phase) (vcJoin (SMap.get [] i.phases (phaseKey a' b.phase)) g.vc) }) })
  | some (none, a') => groupArrive s g a' f
  | none => groupArrive s g ba f

/-! ## Events to firmware (R336, R385) -/

/-- The arrival that SBAR or HBAR makes when it is valid. -/
def barReg (s : State) (p off : Nat) (w : Option Seg) : State :=
  let r := (regVal s (regPart p off)).toNat
  if bit r 63 then agentArrive s p 0 0xFFFF w (bits r 15 0) 1 [] else s

/-- A scheduling event sets its SCHEV bit and arrives by SBAR. -/
def schedEvent (s : State) (p b : Nat) : State :=
  let s1 := regPut s (regPart p 0x80) (regVal s (regPart p 0x80) ||| (1#64 <<< b))
  barReg s1 p 0x88 (partOf s p).sbarWin

/-! ## Waits of fences, releases and stores (R223, R293) -/

/-- What of a group is not yet performed: loads in flight, posted stores, link transactions; at `.sys` or toward other
devices all of them, at narrower scopes only what counts there. -/
def outstanding (s : State) (g : Group) (sys : Bool) : Bool :=
  !g.loads.isEmpty || (sys && (s.posted.any (fun p => p.guid = g.uid) || s.xacts.any (fun x => x.guid = g.uid)))

/-- The flushing read of a port whose posted host stores of a group have none behind them yet (R300). -/
def flushPort (s : State) (g : Group) (p : Nat) : State :=
  let mine (q : Posted) : Bool := q.guid = g.uid && q.port = p && !q.peer && !q.cxl && !q.flushed
  match s.posted.find? mine with
  | some q => emit { s with posted := updWhere s.posted mine (fun q => { q with flushed := true }) } (.hostRead p q.addr 0)
  | none => s

/-- The instruction waits as a fence does, and is then performed. At `.sys` it asks for the acknowledgement of host stores. -/
def afterFence (s : State) (g : Group) (sys : Bool) (k : State) : State :=
  if outstanding s g sys then stallOf (if sys then flushPort (flushPort s g 0) g 1 else s) g else k

/-- What another group's observation of this one begins with at a release: its own count rises afterwards (R293). -/
def released (g : Group) : Group := tickVc g

end Sys2Proof.Machine
end

