-- ==== Sys2Proof/Machine/Control.lean ====
section
/-! DEFINITION. The control class (R164 to R175). -/

namespace Sys2Proof.Machine
open Sys2Proof

/-- The target of a relative transfer (R166). -/
def relTarget (g : Group) (x : InsWord) : W64 := BitVec.ofNat 64 (g.pc.toNat / 64 * 64) + x.lit.signExtend 64

/-- A 64-bit value in an `s` pair. -/
def pairOf (g : Group) (o : Opd) : W64 :=
  match o with
  | .s n => BitVec.ofNat 64 (rdSs g n.toNat 2)
  | _ => 0

/-- A transfer taken on a condition, else the group goes on at `Next`. -/
def transferIf (s : State) (g : Group) (c : Bool) (pc : W64) : State := if c then goTo s g pc else finish s g

/-- The active lanes whose predicate PS, negated by SNEG, holds (R167). -/
def predLanes (g : Group) (x : InsWord) : List Nat :=
  (active g x).filter (fun l => rdP g (modF x 2 0) l != x.mod.getLsbD 3)

def execBra (x : InsWord) (s : State) : Host.Outcome State Fault Refusal :=
  withGroup s (fun g => transferIf s g (!(active g x).isEmpty) (relTarget g x))

/-- Acts when no lane is in `EM`. -/
def execBraNone (x : InsWord) (s : State) : Host.Outcome State Fault Refusal :=
  withGroup s (fun g => transferIf s g (g.em = 0) (relTarget g x))

def execBraAny (x : InsWord) (s : State) : Host.Outcome State Fault Refusal :=
  withGroup s (fun g => transferIf s g (!(predLanes g x).isEmpty) (relTarget g x))

def execBraAll (x : InsWord) (s : State) : Host.Outcome State Fault Refusal :=
  withGroup s (fun g => transferIf s g (!(active g x).isEmpty && predLanes g x = active g x) (relTarget g x))

def execBrx (x : InsWord) (s : State) : Host.Outcome State Fault Refusal :=
  withGroup s (fun g => transferIf s g (!(active g x).isEmpty) (pairOf g x.opa))

/-- A call: the link is written with the transfer, so a refused transfer leaves it as it was (R166). -/
def callTo (s : State) (g : Group) (x : InsWord) (pc : W64) : State :=
  if active g x = [] then finish s g
  else match x.dst with
    | .s n => transfer s g (wrSs g n.toNat (words 2 (nextPc g).toNat)) pc (some (n.toNat, rdSs g n.toNat 2))
    | _ => goTo s g pc

def execCall (x : InsWord) (s : State) : Host.Outcome State Fault Refusal := withGroup s (fun g => callTo s g x (relTarget g x))
def execCallx (x : InsWord) (s : State) : Host.Outcome State Fault Refusal := withGroup s (fun g => callTo s g x (pairOf g x.opa))

def execRet (x : InsWord) (s : State) : Host.Outcome State Fault Refusal :=
  withGroup s (fun g => transferIf s g (!(active g x).isEmpty) (pairOf g x.opa))

/-- `EXIT` ends the active lanes; those of a window thread end their pawns (R168, R368). -/
def execExit (x : InsWord) (s : State) : Host.Outcome State Fault Refusal :=
  withGroup s (fun g => finish (pawnsEnd s g (active g x) false []) (dropLanes g (effMask g x)))

/-- `EMRD` writes `EM` whatever `Active()` holds (R169). -/
def execEmrd (x : InsWord) (s : State) : Host.Outcome State Fault Refusal :=
  withGroup s (fun g => finish s (match x.dst with
    | .s n => wrSs g n.toNat (words (if g.width = 64 then 2 else 1) (g.em &&& widthMask g.width).toNat)
    | _ => g))

/-- A mask operand: a pair at width 64, else 32 bits (R169, R170). -/
def maskSrc (g : Group) (x : InsWord) : W64 :=
  BitVec.ofNat 64 (if g.width = 64 then src64 g x false x.opa 0 else src32 g x x.opa 0)

/-- The new `EM` of `EMWR` (R169). -/
def emwrVal (g : Group) (x : InsWord) : W64 :=
  let w := widthMask g.width
  match modF x 1 0 with
  | 0 => maskSrc g x &&& g.live &&& w
  | 1 => g.em &&& maskSrc g x &&& w
  | _ => g.em &&& maskOf ((allLanes g).filter (fun l => rdP g (modF x 4 2) l != x.mod.getLsbD 5))

def execEmwr (x : InsWord) (s : State) : Host.Outcome State Fault Refusal :=
  onGroup s (fun g => { g with em := emwrVal g x })

/-- `PSET` (R170): bit l of a mask, or with V whether the lane's 32-bit value is nonzero. -/
def execPset (x : InsWord) (s : State) : Host.Outcome State Fault Refusal :=
  onGroup s (fun g => wrP g (modF x 2 0) (active g x) (fun l =>
    if x.mod.getLsbD 3 then src32 g x x.opa l ≠ 0 else (maskSrc g x).getLsbD l))

/-- `PLOP` (R170): the truth table in a's bits [3:0]. -/
def execPlop (x : InsWord) (s : State) : Host.Outcome State Fault Refusal :=
  onGroup s (fun g => wrP g (modF x 2 0) (active g x) (fun l =>
    bit (src32 g x x.opa l) (2 * (rdP g (modF x 5 3) l).toNat + (rdP g (modF x 8 6) l).toNat)))

/-- `ACQH` and `RELH` change the hint depth (R164); a release may end a swap's deferral. -/
def execAcqh (x : InsWord) (s : State) : Host.Outcome State Fault Refusal :=
  onGroup s (fun g => if active g x = [] then g else { g with hint := min 15 (g.hint + 1) })

/-- The context in the active banks of a partition (R380, R382). -/
def residentOf (s : State) (p : Nat) : Option Ctx := s.ctxs.find? (fun c => c.id ≠ 0 && c.part = p && c.inBanks)

/-- No group of a partition's context has a hint depth above 0 (R164). -/
def noHints (s : State) (p : Nat) : Bool :=
  match residentOf s p with
  | some c => (s.groups.filter (fun g => g.ctx = c.id)).all (fun g => g.hint = 0)
  | none => true

/-- A pending swap of a partition: its deferral ends at the first instant with no hint depth above 0 (R164), and it is due to be
looked at again. -/
def swapDue (s : State) (p : Nat) : State :=
  if (partOf s p).swap then
    enqueueOnce (if noHints s p then updPart s p (fun q => { q with swapDue := true }) else s) .swapProceed { part := p }
  else s

def execRelh (x : InsWord) (s : State) : Host.Outcome State Fault Refusal :=
  withGroup s (fun g =>
    if active g x = [] then finish s g else swapDue (finish s { g with hint := g.hint - 1 }) g.part)

/-- `YIELD` (R171): a new ready stamp, that of the clk after, and no ageing. -/
def execYield (x : InsWord) (s : State) : Host.Outcome State Fault Refusal :=
  withGroup s (fun g =>
    if active g x = [] then finish s g
    else
      let g1 := readyAt s g (nextPc g)
      putMoved s { g1 with stamp := s.clks + 1, since := s.clks + 1, aged := false })

/-! ## Requests and traps (R172 to R174) -/

/-- A group writes its request record, but for the tailor's status word, arrives on the mailbox barrier and waits on its reply
barrier. -/
def request (s : State) (g : Group) (kind fn : Nat) (payload : List Nat) (sd sA : Nat) : State :=
  let key := g.core * 128 + g.slot
  let seq := SMap.get 0 s.reqSeq key + 1
  let b := leBytes 2 kind ++ leBytes 2 g.slot ++ leBytes 4 fn ++ leBytes 8 g.pc.toNat ++ leBytes 8 g.em.toNat
    ++ leBytes 4 seq.toNat ++ memBytes s.scr (reqAddr g.core g.slot + 28) 4 ++ (payload.flatMap (leBytes 4) ++ leBytes 32 0).take 32
  let ba := replyBar g.core g.slot
  let s1 := { s with scr := memPut s.scr (reqAddr g.core g.slot) b, reqSeq := SMap.put 0 s.reqSeq key seq
                     mbx := s.mbx ++ [⟨g.uid, g.core, g.slot, seq, g.ctx, false, false⟩] }
  let s2 := setGroup s1 { released g with st := .waiting, wait := .reply ba (barAt s ba).phase (kind = 2) sd sA }
  if (barAt s2 (mailboxBar g.core)).valid then groupArrive s2 g (mailboxBar g.core) (fun b => arriveB b 1) else s2

def execReq (x : InsWord) (s : State) : Host.Outcome State Fault Refusal :=
  withGroup s (fun g =>
    if active g x = [] then finish s g
    else match x.dst, x.opa with
      | .s d, .s a => request s g 1 (src32 g x x.opb 0) ((List.range 8).map (fun k => rdS g (a.toNat + k))) d.toNat a.toNat
      | _, _ => finish s g)

def execTrap (x : InsWord) (s : State) : Host.Outcome State Fault Refusal :=
  withGroup s (fun g => if active g x = [] then finish s g else request s g 2 x.lit.toNat [] 0 0)

/-- `BPT` (R175): with the context's debug flag set it raises the halt line, and its group restarts at `Next` (or at the
head of a chain it stands in, R70). -/
def execBpt (x : InsWord) (s : State) : Host.Outcome State Fault Refusal :=
  withGroup s (fun g =>
    let dbg := match ctxOf s g.ctx with | some c => c.dbg | none => false
    if active g x = [] || !dbg || g.kind = .tailor then finish s g
    else
      let rpc := g.iss.restart.getD (nextPc g)
      raiseLine (setGroup s (savedAt (stopAt g rpc) g.iss.restart.isSome)) g.ctx (groupRec g ⟨13, 0, 0, 0, 0⟩ rpc))

end Sys2Proof.Machine
end

