-- ==== Sys2Proof/Machine/Barriers.lean ====
section
/-! DEFINITION. Barrier and rack instructions (R229 to R252). -/

namespace Sys2Proof.Machine
open Sys2Proof

/-- The scratch address a barrier or rack fault names (R387). -/
def scrName (s : State) (g : Group) (a : Nat) : Nat := match ctxOf s g.ctx with | some c => virtScr c a | none => a

/-- An instruction on `n` bytes of scratchpad named once for its group: range, then alignment, then its own effect at the
physical address (R230, R237). -/
def onScr (s : State) (x : InsWord) (n : Nat) (k : Group → Nat → State) : Host.Outcome State Fault Refusal :=
  withGroup s (fun g =>
    let a := src32 g x x.opa 0
    let sg := segWin g (modF x 2 0)
    if active g x = [] then finish s g
    else if sg.limit < a + n then
      let (s1, g1) := lanesOff s g ((active g x).map (fun l => (l, (a : Int))))
      finish s1 g1
    else if a % n ≠ 0 then takeFault s g (mkFlt 7 (scrName s g (segAddr sg a)))
    else k g (segAddr sg a))

/-- A barrier initialised anew hands on nothing of the phases it had before it was invalidated; of a valid one, the phase that `BINIT`
ends is not handed on (R234, R238). -/
def forgetOld (s : State) (ba : Nat) (b : Barrier) : State :=
  if b.valid then forgetPhase s ba b.phase else { s with phases := SMap.clear s.phases (phaseKey ba 0) (phaseKey (ba + 1) 0) }

/-- The object `BINIT` leaves (R238). -/
def binitB (b : Barrier) (na nb : Nat) (rmt : Bool) : Barrier :=
  { pendb := BitVec.ofNat 32 nb, expb := BitVec.ofNat 32 nb, remote := rmt, ovf := false, valid := true
    penda := BitVec.ofNat 16 na, expa := BitVec.ofNat 16 na, phase := if b.valid then b.phase + 1 else 0 }

def execBinit (x : InsWord) (s : State) : Host.Outcome State Fault Refusal :=
  onScr s x 16 (fun g ba =>
    let na := src32 g x x.opb 0
    let nb := src32 g x x.opc 0
    if na = 0 || 65535 < na || 2 ^ 31 ≤ nb then takeFault s g (permFlt .barrierFormat (scrName s g ba))
    else
      let b := binitB (barAt s ba) na nb (x.mod.getLsbD 3)
      finish (wakeBar (forgetOld (barPut s ba b) ba (barAt s ba)) ba false false) g)

/-- What an arrival with DROP leaves for later phases. -/
def dropB (b : Barrier) (n : Nat) (drop : Bool) : Barrier := if drop then { b with expa := b.expa - BitVec.ofNat 16 n } else b

def execArrive (x : InsWord) (s : State) : Host.Outcome State Fault Refusal :=
  onScr s x 16 (fun g ba =>
    let b := arriveBar s g ba
    let n := src32 g x x.opb 0
    let drop := x.mod.getLsbD 3
    if !b.valid then takeFault s g (permFlt .barrierInvalid (scrName s g ba))
    else if 65535 < n || (drop && b.expa.toNat ≤ n) then takeFault s g (permFlt .barrierFormat (scrName s g ba))
    else afterFence s g false
      (finish (arriveOn s g ba (fun b => arriveB (dropB b n drop) n)) (released (wrDstS g x b.phase.toNat))))

def execExpect (x : InsWord) (s : State) : Host.Outcome State Fault Refusal :=
  onScr s x 16 (fun g ba =>
    let b := barAt s ba
    let nb := src32 g x x.opb 0
    if !b.valid then takeFault s g (permFlt .barrierInvalid (scrName s g ba))
    else if x.mod.getLsbD 3 then
      (if 2 ^ 31 ≤ nb then takeFault s g (permFlt .barrierFormat (scrName s g ba))
       else finish (barEvent s ba (fun b => { b with expb := BitVec.ofNat 32 nb })) g)
    else if ((2 ^ 31 : Nat) : Int) ≤ b.pendb.toInt + (nb : Int) then takeFault s g (permFlt .barrierFormat (scrName s g ba))
    else finish (barEvent s ba (fun b => { b with pendb := b.pendb + BitVec.ofNat 32 nb })) g)

def execWaitph (x : InsWord) (s : State) : Host.Outcome State Fault Refusal :=
  onScr s x 16 (fun g ba =>
    let b := barAt s ba
    let p : BitVec 16 := BitVec.ofNat 16 (src32 g x x.opb 0)
    if b.valid && b.phase ≠ p then finish s (joinPhase s g ba p)
    else setGroup s { g with st := .waiting, wait := .phase ba p })

/-- The word of `BTEST` (R242). -/
def btestVal (b : Barrier) (what : Nat) : Nat :=
  match what with
  | 0 => b.phase.toNat + 65536 * b.valid.toNat + 131072 * b.ovf.toNat + 262144 * b.remote.toNat
  | 1 => b.penda.toNat + 65536 * b.expa.toNat
  | 2 => b.pendb.toNat
  | _ => b.expb.toNat

def execBtest (x : InsWord) (s : State) : Host.Outcome State Fault Refusal :=
  onScr s x 16 (fun g ba => finish s (wrDstS g x (btestVal (barAt s ba) (modF x 4 3))))

def execBinv (x : InsWord) (s : State) : Host.Outcome State Fault Refusal :=
  onScr s x 16 (fun g ba =>
    let b := barAt s ba
    if b.valid then finish (wakeBar (forgetPhase (barPut s ba (binvB b)) ba b.phase) ba true false) g else finish s g)

/-! ## Racks (R249 to R252) -/

/-- A rack descriptor. -/
structure Rack where
  sbase : Nat
  ssize : Nat
  log2n : Nat
  fbase : Nat
  ebase : Nat
  head : W32
  tail : W32
  deriving DecidableEq, Repr, Inhabited

/-- The descriptor at a physical scratch address, checked by R251 against its segment's limit. -/
def rackAt (s : State) (a lim : Nat) : Option Rack :=
  let f (o n : Nat) : Nat := scrVal s (a + o) n
  let r : Rack := ⟨f 0 4, f 4 4, f 8 1, f 12 4, f 16 4, BitVec.ofNat 32 (f 20 4), BitVec.ofNat 32 (f 24 4)⟩
  let n := 2 ^ r.log2n
  if f 9 1 = 1 && f 10 2 = 0 && f 28 4 = 0 && r.log2n ≤ 6 && r.ssize ≠ 0 && r.ssize % 16 = 0 && r.sbase % 16 = 0
    && r.fbase % 16 = 0 && r.ebase % 16 = 0 && r.sbase + r.ssize * n ≤ lim && r.fbase + 16 * n ≤ lim && r.ebase + 16 * n ≤ lim
  then some r else none

/-- The next claim of one side: HEAD or TAIL rises by one at the descriptor's slice. -/
def rackClaim (s : State) (a : Nat) (r : Rack) (producer : Bool) : State :=
  let c := if producer then r.tail else r.head
  let off := if producer then 24 else 20
  stampClear (scrPut s (a + off) 4 (c + 1).toNat) (a + off) 4

/-- A claim's slot, its barrier's offset and the phase it waits for (R250, R251). -/
def claimSlot (r : Rack) (c : W32) : Nat := c.toNat % 2 ^ r.log2n
def claimBar (r : Rack) (c : W32) (producer : Bool) : Nat := (if producer then r.ebase else r.fbase) + 16 * claimSlot r c
def claimTarget (r : Rack) (c : W32) (producer : Bool) : BitVec 16 :=
  BitVec.ofNat 16 (c.toNat / 2 ^ r.log2n) + (if producer then 0 else 1)

def execRkacq (x : InsWord) (s : State) : Host.Outcome State Fault Refusal :=
  onScr s x 32 (fun g a =>
    let sg := segWin g (modF x 2 0)
    match rackAt s a sg.limit with
    | none => takeFault s g (permFlt .rackFormat (scrName s g a))
    | some r =>
      let prod := x.mod.getLsbD 3
      let c := if prod then r.tail else r.head
      let ba := segAddr sg (claimBar r c prod)
      let t := claimTarget r c prod
      let v : W32 := BitVec.ofNat 32 (r.sbase + claimSlot r c * r.ssize)
      let s1 := rackClaim s a r prod
      match x.dst with
      | .s d =>
        if reached (barAt s1 ba) t then finish s1 (wrS (joinPhase s1 g ba (t - 1)) d.toNat v.toNat)
        else setGroup s1 { g with st := .waiting, wait := .rack ba t d.toNat v }
      | _ => finish s g)

def execRkrel (x : InsWord) (s : State) : Host.Outcome State Fault Refusal :=
  onScr s x 32 (fun g a =>
    let sg := segWin g (modF x 2 0)
    let bad := takeFault s g (permFlt .rackFormat (scrName s g a))
    match rackAt s a sg.limit with
    | none => bad
    | some r =>
      let v := src32 g x x.opb 0
      if v < r.sbase || (v - r.sbase) % r.ssize ≠ 0 || 2 ^ r.log2n ≤ (v - r.sbase) / r.ssize then bad
      else
        let i := (v - r.sbase) / r.ssize
        let ba := segAddr sg ((if x.mod.getLsbD 3 then r.ebase else r.fbase) + 16 * i)
        if !(barAt s ba).valid then takeFault s g (permFlt .barrierInvalid (scrName s g ba))
        else afterFence s g false (finish (groupArrive s g ba (fun b => arriveB b 1)) (released g)))

end Sys2Proof.Machine
end

