-- ==== Sys2Proof/Machine/Integer.lean ====
section
/-! DEFINITION. `NOP` and the integer and logic instructions (R76, R98 to R113). -/

namespace Sys2Proof.Machine
open Sys2Proof

/-- The operand width, and U and SAT of MOD (R100, R103). -/
def intW (w : Bool) : Nat := if w then 64 else 32
def modU (x : InsWord) : Bool := x.mod.getLsbD 0
def modSat (x : InsWord) : Bool := x.mod.getLsbD 1

/-- An operand read as `Ext(·, n)`: signed when U = 0 (R100, R104). -/
def intArg (w : Bool) (g : Group) (x : InsWord) (o : Opd) (l : Nat) : Int :=
  ext (modU x) (src g x w (!modU x) o l) (intW w)

/-- The results of R104 on extended operands. -/
def divResult (u sat : Bool) (a b : Int) (n : Nat) : Nat := if b = 0 then wrapN (-1) n else fit u sat (a.tdiv b) n
def remResult (a b : Int) (n : Nat) : Nat := wrapN (if b = 0 then a else a.tmod b) n

/-- A two-operand integer operation on extended operands. -/
def intBin (w : Bool) (x : InsWord) (f : Int → Int → Nat) (g : Group) : Group :=
  alu g x (wide w) (fun l => f (intArg w g x x.opa l) (intArg w g x x.opb l))

/-- A two-operand operation on bit patterns (R105). -/
def bitBin (w : Bool) (x : InsWord) (f : Nat → Nat → Nat) (g : Group) : Group :=
  alu g x (wide w) (fun l => f (src g x w false x.opa l) (src g x w false x.opb l))

/-- A shift: operand a of the given signedness and the unsigned 32-bit amount of b (R106). -/
def shiftBy (w : Bool) (x : InsWord) (sgn : Bool) (f : Nat → Nat → Nat) (g : Group) : Group :=
  alu g x (wide w) (fun l => f (src g x w sgn x.opa l) (src32 g x x.opb l))

def shlVal (n a sh : Nat) : Nat := if n ≤ sh then 0 else a * 2 ^ sh % 2 ^ n
def shrVal (n a sh : Nat) : Nat := if n ≤ sh then 0 else a / 2 ^ sh
def sarVal (n a sh : Nat) : Nat := wrapN (sext a n / ((2 ^ min sh (n - 1) : Nat) : Int)) n
def rotVal (n a sh : Nat) : Nat := a * 2 ^ (sh % n) % 2 ^ n + a / 2 ^ (n - sh % n)

/-- `FSH`: the funnel b : a moved left or right (R106). -/
def fshVal (n : Nat) (left : Bool) (a b c : Nat) : Nat :=
  let k := c % n
  let y := b * 2 ^ n + a
  (if left then y * 2 ^ k / 2 ^ n else y / 2 ^ k) % 2 ^ n

/-- `BFE` and `BFI` (R108). -/
def bfeVal (n : Nat) (u : Bool) (a ctl : Nat) : Nat :=
  let pos := min (ctl % 256) n
  let len := min (ctl / 256 % 256) n
  let f := wrapN (ext u a n / ((2 ^ pos : Nat) : Int)) len
  if len = 0 then 0 else wrapN (ext u f len) n

def bfiVal (n : Nat) (a b ctl : Nat) : Nat :=
  let pos := min (ctl % 256) n
  let len := min (ctl / 256 % 256) (n - pos)
  b % 2 ^ pos + a % 2 ^ len * 2 ^ pos + b / 2 ^ (pos + len) * 2 ^ (pos + len)

/-- `BFN3`: bit i of d is tt[4c + 2a + b] (R105). -/
def bfn3Val (n tt a b c : Nat) : Nat :=
  bitwise3 n (fun p q r => bit tt (4 * r.toNat + 2 * p.toNat + q.toNat)) a b c

/-- `NOP` has no effect and produces no latch result (R76). -/
def execNop (s : State) : Host.Outcome State Fault Refusal := onGroup s id

def execIadd (w : Bool) (x : InsWord) (s : State) : Host.Outcome State Fault Refusal :=
  onGroup s (intBin w x (fun a b => fit (modU x) (modSat x) (a + b) (intW w)))

def execIsub (w : Bool) (x : InsWord) (s : State) : Host.Outcome State Fault Refusal :=
  onGroup s (intBin w x (fun a b => fit (modU x) (modSat x) (a - b) (intW w)))

def execImul (w : Bool) (x : InsWord) (s : State) : Host.Outcome State Fault Refusal :=
  onGroup s (intBin w x (fun a b => fit (modU x) (modSat x) (a * b) (intW w)))

/-- The high half of the product (R104). -/
def execImulh (w : Bool) (x : InsWord) (s : State) : Host.Outcome State Fault Refusal :=
  onGroup s (intBin w x (fun a b => wrapN (a * b / ((2 ^ intW w : Nat) : Int)) (intW w)))

def execImad (w : Bool) (x : InsWord) (s : State) : Host.Outcome State Fault Refusal :=
  onGroup s (fun g => alu g x (wide w) (fun l =>
    fit (modU x) (modSat x) (intArg w g x x.opa l * intArg w g x x.opb l + intArg w g x x.opc l) (intW w)))

def execIdiv (w : Bool) (x : InsWord) (s : State) : Host.Outcome State Fault Refusal :=
  onGroup s (intBin w x (fun a b => divResult (modU x) (modSat x) a b (intW w)))

def execIrem (w : Bool) (x : InsWord) (s : State) : Host.Outcome State Fault Refusal :=
  onGroup s (intBin w x (fun a b => remResult a b (intW w)))

def execImin (w : Bool) (x : InsWord) (s : State) : Host.Outcome State Fault Refusal :=
  onGroup s (intBin w x (fun a b => wrapN (min a b) (intW w)))

def execImax (w : Bool) (x : InsWord) (s : State) : Host.Outcome State Fault Refusal :=
  onGroup s (intBin w x (fun a b => wrapN (max a b) (intW w)))

/-- `IABS` reads a as signed whatever U holds (R104, R455). -/
def execIabs (w : Bool) (x : InsWord) (s : State) : Host.Outcome State Fault Refusal :=
  onGroup s (fun g => alu g x (wide w) (fun l =>
    fit false (modSat x) ((sext (src g x w true x.opa l) (intW w)).natAbs : Int) (intW w)))

def execAnd (w : Bool) (x : InsWord) (s : State) : Host.Outcome State Fault Refusal := onGroup s (bitBin w x (· &&& ·))

def execOr (w : Bool) (x : InsWord) (s : State) : Host.Outcome State Fault Refusal := onGroup s (bitBin w x (· ||| ·))

def execXor (w : Bool) (x : InsWord) (s : State) : Host.Outcome State Fault Refusal := onGroup s (bitBin w x (· ^^^ ·))

def execBfn3 (w : Bool) (x : InsWord) (s : State) : Host.Outcome State Fault Refusal :=
  onGroup s (fun g => alu g x (wide w) (fun l =>
    bfn3Val (intW w) (modF x 9 2) (src g x w false x.opa l) (src g x w false x.opb l) (src g x w false x.opc l)))

def execShl (w : Bool) (x : InsWord) (s : State) : Host.Outcome State Fault Refusal :=
  onGroup s (shiftBy w x false (shlVal (intW w)))

def execShr (w : Bool) (x : InsWord) (s : State) : Host.Outcome State Fault Refusal :=
  onGroup s (shiftBy w x false (shrVal (intW w)))

def execSar (w : Bool) (x : InsWord) (s : State) : Host.Outcome State Fault Refusal :=
  onGroup s (shiftBy w x true (sarVal (intW w)))

def execRot (w : Bool) (x : InsWord) (s : State) : Host.Outcome State Fault Refusal :=
  onGroup s (shiftBy w x false (rotVal (intW w)))

def execFsh (w : Bool) (x : InsWord) (s : State) : Host.Outcome State Fault Refusal :=
  onGroup s (fun g => alu g x (wide w) (fun l =>
    fshVal (intW w) (x.mod.getLsbD 2) (src g x w false x.opa l) (src g x w false x.opb l) (src32 g x x.opc l)))

/-- `CLZ` and `POPC` write one 32-bit register in both forms (R107, R113). -/
def execClz (w : Bool) (x : InsWord) (s : State) : Host.Outcome State Fault Refusal :=
  onGroup s (fun g => alu g x 1 (fun l => leadZeros (src g x w false x.opa l) (intW w)))

def execPopc (w : Bool) (x : InsWord) (s : State) : Host.Outcome State Fault Refusal :=
  onGroup s (fun g => alu g x 1 (fun l => popCount (src g x w false x.opa l) (intW w)))

def execBrev (w : Bool) (x : InsWord) (s : State) : Host.Outcome State Fault Refusal :=
  onGroup s (fun g => alu g x (wide w) (fun l => bitReverse (src g x w false x.opa l) (intW w)))

def execBfe (w : Bool) (x : InsWord) (s : State) : Host.Outcome State Fault Refusal :=
  onGroup s (fun g => alu g x (wide w) (fun l =>
    bfeVal (intW w) (modU x) (src g x w (!modU x) x.opa l) (src32 g x x.opb l)))

def execBfi (w : Bool) (x : InsWord) (s : State) : Host.Outcome State Fault Refusal :=
  onGroup s (fun g => alu g x (wide w) (fun l =>
    bfiVal (intW w) (src g x w false x.opa l) (src g x w false x.opb l) (src32 g x x.opc l)))

/-- `SEL` (R109): a where the predicate of MOD [4:2], inverted by MOD [5], holds. -/
def execSel (w : Bool) (x : InsWord) (s : State) : Host.Outcome State Fault Refusal :=
  onGroup s (fun g => alu g x (wide w) (fun l =>
    src g x w false (if rdP g (modF x 4 2) l != x.mod.getLsbD 5 then x.opa else x.opb) l))

def execIcmp (w : Bool) (x : InsWord) (s : State) : Host.Outcome State Fault Refusal :=
  onGroup s (fun g => setPred g x (modF x 7 5) (modF x 9 8)
    (fun l => intCond (modF x 4 2) (intArg w g x x.opa l) (intArg w g x x.opb l)))

def execIset (w : Bool) (x : InsWord) (s : State) : Host.Outcome State Fault Refusal :=
  onGroup s (fun g => alu g x 1 (fun l =>
    if intCond (modF x 4 2) (intArg w g x x.opa l) (intArg w g x x.opb l)
    then (if x.mod.getLsbD 5 then 0xFFFFFFFF else 1) else 0))

/-- `LEA` (R111): a + b·2^K + c; in the 64-bit form b is extended by U and c by its sign. -/
def execLea (w : Bool) (x : InsWord) (s : State) : Host.Outcome State Fault Refusal :=
  onGroup s (fun g => alu g x (wide w) (fun l =>
    wrapN ((src g x w (!modU x) x.opa l : Int) + ext (modU x) (src32 g x x.opb l) 32 * ((2 ^ modF x 4 2 : Nat) : Int)
      + sext (src32 g x x.opc l) 32) (intW w)))

def execMov (w : Bool) (x : InsWord) (s : State) : Host.Outcome State Fault Refusal :=
  onGroup s (fun g => alu g x (wide w) (fun l => src g x w false x.opa l))

/-- `MOVL` (R112): the low 8, 16 or 32 bits of a, extended by U. -/
def execMovl (w : Bool) (x : InsWord) (s : State) : Host.Outcome State Fault Refusal :=
  onGroup s (fun g => alu g x (wide w) (fun l => wrapN (ext (modU x) (src32 g x x.opa l) (8 * 2 ^ modF x 3 2)) (intW w)))

end Sys2Proof.Machine
end

