-- ==== Sys2Proof/Machine/Lanes.lean ====
section
/-! DEFINITION. The cross-lane instructions (R132 to R156) but for `XPLD`, which reads scratchpad. Every source is read as it
stood before the instruction, whatever the source lane's state (R132). -/

namespace Sys2Proof.Machine
open Sys2Proof

/-- The segment width w of `SHFL` (R140). -/
def shflW (g : Group) (x : InsWord) : Nat := if modF x 2 0 = 0 then g.width else min (2 ^ modF x 2 0) g.width

/-- `SHFL`: each active lane reads the lane that `pick w i k` names in its segment, with the in-range flag (R140). -/
def shflOp (w64 : Bool) (x : InsWord) (pick : Nat → Nat → Nat → Nat × Bool) (g : Group) : Group :=
  let w := shflW g x
  let at' (l : Nat) : Nat × Bool := pick w (l % w) (src32 g x x.opb l)
  let g1 := alu g x (wide w64) (fun l => src g x w64 false x.opa (l - l % w + (at' l).1))
  wrP g1 (modF x 5 3) (active g x) (fun l => (at' l).2)

def execShflAt (w : Bool) (x : InsWord) (s : State) : Host.Outcome State Fault Refusal :=
  onGroup s (shflOp w x (fun w _ k => (k % w, decide (k < w))))

def execShflLo (w : Bool) (x : InsWord) (s : State) : Host.Outcome State Fault Refusal :=
  onGroup s (shflOp w x (fun _ i k => if k ≤ i then (i - k, true) else (i, false)))

def execShflHi (w : Bool) (x : InsWord) (s : State) : Host.Outcome State Fault Refusal :=
  onGroup s (shflOp w x (fun w i k => if i + k < w then (i + k, true) else (i, false)))

def execShflFlip (w : Bool) (x : InsWord) (s : State) : Host.Outcome State Fault Refusal :=
  onGroup s (shflOp w x (fun w i k => (i ^^^ (k % w), decide (k < w))))

/-- The counting lanes C of R142. -/
def voteSet (g : Group) (x : InsWord) : List Nat :=
  (selected g x (modF x 2 0) (x.mod.getLsbD 3)).filter (fun l => x.opa = .zero || src32 g x x.opa l ≠ 0)

/-- A vote with a predicate result, from C and `Active()`. -/
def voteOp (x : InsWord) (f : List Nat → List Nat → Bool) (g : Group) : Group :=
  wrP g (modF x 6 4) (active g x) (fun _ => f (voteSet g x) (active g x))

def execVoteEvery (x : InsWord) (s : State) : Host.Outcome State Fault Refusal := onGroup s (voteOp x (fun c a => c = a))
def execVoteSome (x : InsWord) (s : State) : Host.Outcome State Fault Refusal := onGroup s (voteOp x (fun c _ => !c.isEmpty))
def execVoteSame (x : InsWord) (s : State) : Host.Outcome State Fault Refusal :=
  onGroup s (voteOp x (fun c a => c.isEmpty || c = a))

/-- The registers of a mask result (R135). -/
def maskN (g : Group) : Nat := if g.width = 64 then 2 else 1

def execVoteMask (x : InsWord) (s : State) : Host.Outcome State Fault Refusal :=
  onGroup s (fun g => alu g x (maskN g) (fun _ => (maskOf (voteSet g x)).toNat))

/-- The active lanes holding a lane's value, and whether all active values are equal (R144). -/
def peersOf (w : Bool) (g : Group) (x : InsWord) (l : Nat) : List Nat :=
  (active g x).filter (fun m => src g x w false x.opa m = src g x w false x.opa l)

def unanimous (w : Bool) (g : Group) (x : InsWord) : Bool := (active g x).all (fun l => peersOf w g x l = active g x)

def execMatchPeers (w : Bool) (x : InsWord) (s : State) : Host.Outcome State Fault Refusal :=
  onGroup s (fun g => wrP (alu g x (maskN g) (fun l => (maskOf (peersOf w g x l)).toNat)) (modF x 2 0) (active g x)
    (fun _ => unanimous w g x))

def execMatchUnan (w : Bool) (x : InsWord) (s : State) : Host.Outcome State Fault Refusal :=
  onGroup s (fun g => wrP (alu g x (maskN g) (fun _ => if unanimous w g x then (maskOf (active g x)).toNat else 0))
    (modF x 2 0) (active g x) (fun _ => unanimous w g x))

/-- `REDUX`: one result from the values of the selected lanes, ascending (R146). -/
def reduxOp (x : InsWord) (f : List Nat → Nat) (g : Group) : Group :=
  let b := selected g x (modF x 6 4) (x.mod.getLsbD 7)
  let r := f (b.map (fun l => src32 g x x.opa l))
  alu g x 1 (fun _ => r)

/-- The exact sum, wrapped or saturated (R146). -/
def reduxSum (u sat : Bool) (v : List Nat) : Nat := fit u sat (v.foldl (fun t a => t + ext u a 32) 0) 32

/-- Minimum or maximum, with the identities of R50. -/
def reduxMinMax (isMax u : Bool) : List Nat → Nat
  | [] => if isMax then (if u then 0 else 0x80000000) else (if u then 0xFFFFFFFF else 0x7FFFFFFF)
  | a :: r => wrapN (r.foldl (fun t b => if isMax then max t (ext u b 32) else min t (ext u b 32)) (ext u a 32)) 32

def execReduxAdd (x : InsWord) (s : State) : Host.Outcome State Fault Refusal :=
  onGroup s (reduxOp x (reduxSum (modU x) (modSat x)))
def execReduxMin (x : InsWord) (s : State) : Host.Outcome State Fault Refusal :=
  onGroup s (reduxOp x (reduxMinMax false (modU x)))
def execReduxMax (x : InsWord) (s : State) : Host.Outcome State Fault Refusal :=
  onGroup s (reduxOp x (reduxMinMax true (modU x)))
def execReduxAnd (x : InsWord) (s : State) : Host.Outcome State Fault Refusal :=
  onGroup s (reduxOp x (fun v => v.foldl (· &&& ·) 0xFFFFFFFF))
def execReduxOr (x : InsWord) (s : State) : Host.Outcome State Fault Refusal :=
  onGroup s (reduxOp x (fun v => v.foldl (· ||| ·) 0))
def execReduxXor (x : InsWord) (s : State) : Host.Outcome State Fault Refusal :=
  onGroup s (reduxOp x (fun v => v.foldl (· ^^^ ·) 0))

/-- A float reduction through the fixed tree of R49; a lane outside B is absent. -/
def reduxTree (x : InsWord) (f : Nat → Nat → Nat) (one : Nat → Nat) (identity : Nat) (g : Group) : Group :=
  let b := selected g x (modF x 6 4) (x.mod.getLsbD 7)
  let v := (allLanes g).map (fun l => if l ∈ b then some (src32 g x x.opa l) else none)
  let r := match treeReduce f g.width.log2 v with
    | some y => if b.length = 1 then one y else y
    | none => identity
  alu g x 1 (fun _ => r)

/-- A result that is a NaN is the canonical NaN (R25), also when one lane alone is selected. -/
def canonF32 (c : Nat) : Nat := if (f32v c).isNan then fmtF32.nanCode else c

/-- The word with an imm8 source replaced by the f32 literal it stands for (R63). -/
def f32Word (g : Group) (x : InsWord) : InsWord :=
  match x.opa with
  | .imm _ => { x with opa := .lit, lit := BitVec.ofNat 32 (srcF g x .f32 x.opa 0) }
  | _ => x

def execReduxFadd (x : InsWord) (s : State) : Host.Outcome State Fault Refusal :=
  onGroup s (fun g => reduxTree (f32Word g x) f32Add canonF32 0 g)
def execReduxFmin (x : InsWord) (s : State) : Host.Outcome State Fault Refusal :=
  onGroup s (fun g => reduxTree (f32Word g x) (minMaxF fmtF32 false) canonF32 0x7F800000 g)
def execReduxFmax (x : InsWord) (s : State) : Host.Outcome State Fault Refusal :=
  onGroup s (fun g => reduxTree (f32Word g x) (minMaxF fmtF32 true) canonF32 0xFF800000 g)

/-- `SCAN` (R147): the wrapped sum of the selected lanes at or below, or below, each active lane. -/
def scanOp (inc : Bool) (x : InsWord) (g : Group) : Group :=
  let b := selected g x (modF x 6 4) (x.mod.getLsbD 7)
  alu g x 1 (fun l =>
    (b.filter (fun m => m < l || (inc && m = l))).foldl (fun t m => (t + src32 g x x.opa m) % 2 ^ 32) 0)

def execScanInc (x : InsWord) (s : State) : Host.Outcome State Fault Refusal := onGroup s (scanOp true x)
def execScanExc (x : InsWord) (s : State) : Host.Outcome State Fault Refusal := onGroup s (scanOp false x)

/-- `CMPR` (R148): writes every lane, and the count to s[CNT], even when `Active()` is empty. -/
def cmprOp (x : InsWord) (g : Group) : Group :=
  let b := selected g x (modF x 8 6) (x.mod.getLsbD 9)
  let v := b.map (fun l => src32 g x x.opa l)
  let h := wrRes g x 1 (allLanes g) (fun i => v.getD i 0)
  if x.nw then h else wrS h (modF x 5 0) b.length

def execCmpr (x : InsWord) (s : State) : Host.Outcome State Fault Refusal := onGroup s (cmprOp x)

/-- `EXPD` (R149): the lane of rank r in B receives lane r of a, other active lanes 0. -/
def execExpd (x : InsWord) (s : State) : Host.Outcome State Fault Refusal :=
  onGroup s (fun g =>
    let b := selected g x (modF x 8 6) (x.mod.getLsbD 9)
    alu g x 1 (fun l => if l ∈ b then src32 g x x.opa (b.countP (fun m => m < l)) else 0))

/-- Where a core's pattern table t begins in `State.ptab` (R151: 384 bytes a table, 16 a core). -/
def ptabBase (core t : Nat) : Nat := core * 6144 + t * 384

/-- Whose tables a group uses: its core's for its context, a tailor group those of firmware's own context (R152). -/
def ptabCore (g : Group) : Nat := if g.kind = .tailor then 384 + g.core else g.core

/-- Descriptor e of a table (R151). -/
def ptabDesc (s : State) (core t e : Nat) : Nat :=
  let b (i : Nat) : Nat := (SMap.get 0 s.ptab (ptabBase core t + i)).toNat
  (b (12 * e / 8) + 256 * b (12 * e / 8 + 1)) / 2 ^ (12 * e % 8) % 2 ^ 12

/-- One output byte of `XBAR` (R155). -/
def xbarByte (s : State) (g : Group) (x : InsWord) (l k : Nat) : Nat :=
  let e := ptabDesc s (ptabCore g) (modF x 3 0) (4 * l + k)
  if bit e 10 || g.width ≤ e % 128 then 0
  else src32 g x (if bit e 9 then x.opb else x.opa) (e % 128) / 2 ^ (8 * bits e 8 7) % 256

def execXbar (x : InsWord) (s : State) : Host.Outcome State Fault Refusal :=
  onGroup s (fun g => alu g x 1 (fun l => (List.range 4).foldl (fun t k => t + 2 ^ (8 * k) * xbarByte s g x l k) 0))

/-- `LANEID` (R150). -/
def laneidVal (w mode l : Nat) : Nat :=
  match mode with
  | 0 => l
  | 1 => 2 ^ l - 1
  | 2 => 2 ^ (l + 1) - 1
  | _ => 2 ^ w - 2 ^ (l + 1)

def execLaneid (x : InsWord) (s : State) : Host.Outcome State Fault Refusal :=
  onGroup s (fun g => alu g x (if modF x 1 0 = 0 then 1 else maskN g) (fun l => laneidVal g.width (modF x 1 0) l))

end Sys2Proof.Machine
end

