-- ==== Sys2Proof/Machine/Queue.lean ====
section
/-! DEFINITION. Queues, hardware slots and kicks (R323 to R342): the queue map's own operations, `KICK`, `QSTAT`, `QCBLD`,
`QCBST`, and the slot's periods. The packets themselves are in Machine/Packets.lean. -/

namespace Sys2Proof.Machine
open Sys2Proof

/-! ## QCBs and slots (R324, R332) -/

def qcbAddr (s : State) (p q : Nat) : Nat := (regVal s (regPart p 0xA8)).toNat + 256 * q
/-- QCOUNT: a table holds at most 1,024 queues (R335; log entry 36). -/
def qcount (s : State) (p : Nat) : Nat := min 1024 (regVal s (regPart p 0xB0)).toNat
def qcbF (s : State) (p q off n : Nat) : Nat := dramVal s (qcbAddr s p q + off) n
def qcbSet (s : State) (p q off n v : Nat) : State := dramSet s (qcbAddr s p q + off) n v

def slotAt (s : State) (k : Nat) : HwSlot := s.hwslots.getD k HwSlot.reset
def updSlot (s : State) (k : Nat) (f : HwSlot → HwSlot) : State := { s with hwslots := updAt s.hwslots k f }

/-- The slot that maps a queue. -/
def slotOfQueue (s : State) (p q : Nat) : Option Nat :=
  (List.range 64).find? (fun k => let h := slotAt s k; h.map && h.part = p && h.qnum = q)

/-- STATE, RIDX, WIDX of a queue, from its slot while mapped, else from its QCB. -/
def qState (s : State) (p q : Nat) : Nat := match slotOfQueue s p q with | some k => (slotAt s k).qst | none => qcbF s p q 9 1
def qRidx (s : State) (p q : Nat) : W32 :=
  match slotOfQueue s p q with | some k => (slotAt s k).ridx | none => BitVec.ofNat 32 (qcbF s p q 16 4)
def qWidx (s : State) (p q : Nat) : W32 :=
  match slotOfQueue s p q with | some k => (slotAt s k).widx | none => BitVec.ofNat 32 (qcbF s p q 20 4)

/-- The pending bits (R335). -/
def pendBit (s : State) (p q : Nat) : Bool := (regVal s (regPart p (8 * (q / 64)))).getLsbD (q % 64)
def setPend (s : State) (p q : Nat) (b : Bool) : State :=
  let a := regPart p (8 * (q / 64))
  let m : W64 := 1#64 <<< (q % 64)
  regPut s a (if b then regVal s a ||| m else regVal s a &&& ~~~ m)

/-- Whether a partition owns a slot: the management core has assigned it (R332), so that none is owned at reset (R335). -/
def slotOwned (h : HwSlot) (p : Nat) : Bool := h.owned && h.part = p

/-- SLOTS and SLAVAIL (R335). -/
def slotsMask (s : State) (p : Nat) : W64 := maskOf ((List.range 64).filter (fun k => slotOwned (slotAt s k) p))
def slavailMask (s : State) (p : Nat) : W64 :=
  maskOf ((List.range 64).filter (fun k =>
    let h := slotAt s k
    slotOwned h p && (!h.map || h.qst = 3 || (h.qst = 5 && h.infl = 0))))

/-! ## Messages and interrupts (R327, R371, R426, R433, R435, R436, R438, R443) -/

/-- The transaction of an agent or group, its tag not yet given. -/
structure Sender where
  guid : Nat
  core : Nat
  slot : Nat
  ctx : Nat
  pc : W64
  a : Nat
  deriving DecidableEq, Repr, Inhabited

/-- A message buffer's 64 bytes to a device (R433, R435): kind 10 when SHOOT is set. -/
def sendMessage (s : State) (w : Sender) (p : Nat) (b : List Byte) (dev : Nat) (vc : SMap Nat) : State :=
  let (s1, tag) := freshTag s
  let shoot := bit (fld b 2 1) 7
  let pay := b.take 3 ++ leBytes 1 p ++ (b.drop 4).take 60
  let x : Xact := ⟨tag, dev, 16, if shoot then 10 else 9, 64, w.guid, w.core, w.slot, w.ctx, w.pc, w.a, true, false, false, pay, w.a,
    vc, s.clock.toNat, false, none⟩
  if dev = ownDev s then
    let s2 := { s1 with xacts := s1.xacts ++ [x] }
    if shoot then
      enqueue s2 .linkRxShootdown { src := BitVec.ofNat 14 dev, tag := tag, ctx := fld b 8 4
                                    kind := BitVec.ofNat 8 (fld b 12 1), val := BitVec.ofNat 64 (fld b 16 8) }
    else enqueue s2 .linkRxMessage { src := BitVec.ofNat 14 dev, tag := tag, part := p, data := pay }
  else match routeOf s dev with
    | some port => sendXact s1 { x with port := port }
    | none => s

/-- An interrupt goes out. A message that no route can carry is not sent. -/
def sendIrq (s : State) (q : Irq) : State :=
  match q.msix with
  | some (port, vec) => emit s (.msix port vec)
  | none => sendMessage s ⟨0, 0, 0xFFFF, 0, 0, 0⟩ q.part q.data q.dev q.vc

/-- The interrupts that no outstanding write holds back any more. -/
def sendIrqs (s : State) : State :=
  (s.irqs.filter (fun q => q.tags = [])).foldl sendIrq { s with irqs := s.irqs.filter (fun q => q.tags ≠ []) }

/-- An interrupt raised: it is sent once every write it reports is performed at `.sys` (R329, R443). -/
def raiseIrq (s : State) (q : Irq) : State := if q.tags = [] then sendIrq s q else { s with irqs := s.irqs ++ [q] }

/-- The record writes of a context that are on their way to other devices (R457), which its launches' interrupts report. -/
def recordTags (s : State) (ctx : Nat) : List Nat := (s.xacts.filter (fun x => x.record.isSome && x.ctx = ctx)).map (fun x => x.tag)

/-- The link writes made since a tag was the next one, which an interrupt reports. -/
def newTags (s : State) (next : Nat) : List Nat := (s.xacts.filter (fun x => next ≤ x.tag)).map (fun x => x.tag)

/-- The interrupt that ERRVEC or DONEVEC names, after the writes of a record: an MSI-X message, or a kind-9 message to a link owner. -/
def ownerInterrupt (s : State) (p off what : Nat) (tags : List Nat) : State :=
  let v := (regVal s (regPart p off)).toNat
  let o := (regVal s (regPart p 0xE0)).toNat
  if !bit v 16 || !bit o 16 then s
  else if !bit o 15 then raiseIrq s ⟨tags, some (o % 2, bits v 10 0), 0, 0, [], []⟩
  else raiseIrq s ⟨tags, none, p, bits o 13 0, leBytes 4 0 ++ leBytes 4 what ++ leBytes 2 (bits v 10 0) ++ leBytes 54 0, []⟩

/-! ## The dispatcher's choice (R328, R334) -/

/-- The QCB that a slot maps (R324, R332). -/
def slotQcb (s : State) (h : HwSlot) (off n : Nat) : Nat := dramVal s (h.qcbp + off) n

def headAddr (s : State) (h : HwSlot) : Nat := slotQcb s h 0 8 + 64 * (h.ridx.toNat % 2 ^ slotQcb s h 8 1)

/-- The head packet's 64 bytes, when they can be read. -/
def headPkt (s : State) (h : HwSlot) : Option (List Byte) := agentLoad s (partBuf s h.part) h.ctx (headAddr s h) 64

/-- Whether a slot's head packet could start (R328), and is not throttled (R333). -/
def couldStart (s : State) (k : Nat) : Bool :=
  let h := slotAt s k
  let ord := match headPkt s h with | some b => bit (fld b 1 1) 0 || fld b 0 1 = 5 | none => false
  h.map && h.qst = 4 && h.ridx ≠ h.widx && ctxRuns s h.ctx && !h.thr && (!ord || h.infl = 0)

/-- The deadline order of R334: a smaller DEADL first, then the lower slot. -/
def sooner (s : State) (a b : Nat) : Bool :=
  (slotAt s a).deadl.toNat < (slotAt s b).deadl.toNat || ((slotAt s a).deadl = (slotAt s b).deadl && a < b)

/-- The step that starts a packet of a kind; one of reserved kind is examined by the step of NOP. -/
def packetStep (kind : Nat) : Instr :=
  match kind with
  | 1 => .packetLaunch | 2 => .packetCopy | 3 => .packetWaitmem | 4 => .packetSignal | 5 => .packetFence | _ => .packetNop

/-- The kind of a slot's head packet; reserved when it cannot be read. -/
def headKind (s : State) (k : Nat) : Nat := match headPkt s (slotAt s k) with | some b => fld b 0 1 | none => 6

/-- The slots of a partition whose head packets could start, in the dispatcher's order (R334). -/
def startable (s : State) (p : Nat) : List Nat :=
  ((List.range 64).filter (fun k => slotOwned (slotAt s k) p && couldStart s k)).foldr (fun k r =>
    let before := r.takeWhile (fun j => sooner s j k)
    before ++ [k] ++ r.drop before.length) []

/-- The dispatcher has something to start: its step is due. -/
def dispatch (s : State) (p : Nat) : State :=
  match startable s p with
  | k :: _ => enqueueOnce s (packetStep (headKind s k)) { slot := k }
  | [] => s

/-! ## Queue errors (R330, R331) -/

/-- A field of a queue's QCB: the one its slot maps, else that of its table. -/
def queueF (s : State) (p q off n : Nat) : Nat :=
  match slotOfQueue s p q with | some k => slotQcb s (slotAt s k) off n | none => qcbF s p q off n

/-- A queue enters ERROR: its state, the error record, the ERR event and the owner's interrupt. An unmapped queue is PENDING no
longer (R335). -/
def queueError (s : State) (p q reason ridx addr tag detail : Nat) (pkt : List Byte) : State :=
  let ctx := queueF s p q 28 4
  let erra := queueF s p q 64 8
  let s1 := match slotOfQueue s p q with
    | some k => updSlot s k (fun h => { h with qst := 5 })
    | none => setPend (qcbSet s p q 9 1 5) p q false
  let b := leBytes 4 reason ++ leBytes 4 ridx ++ leBytes 8 addr ++ leBytes 8 s.clock.toNat ++ leBytes 4 tag
    ++ leBytes 4 detail ++ (pkt ++ leBytes 32 0).take 32
  let s2 := putRecord s1 (partBuf s p) ctx 0xFFFF erra b ⟨1, 0xFFFF, 0⟩ []
  ownerInterrupt (schedEvent s2 p 3) p 0xE8 1 (newTags s2 s1.nextId)

/-- The offending head packet of a slot that had not started. -/
def headError (s : State) (k reason detail : Nat) : State :=
  let h := slotAt s k
  let b := (headPkt s h).getD []
  queueError s h.part h.qnum reason h.ridx.toNat (headAddr s h) (fld b 4 4) detail b

/-- What the kicks and waits of a queue have observed, and what its completed packets had (R329, R337). -/
def kickKey (p q : Nat) : Nat := 2 * (1024 * p + q)
def doneKey (p q : Nat) : Nat := 2 * (1024 * p + q) + 1
def qclkOf (s : State) (k : Nat) : SMap Nat := SMap.get [] s.qclk k
def noteQueue (s : State) (k : Nat) (vc : SMap Nat) : State :=
  { s with qclk := SMap.put [] s.qclk k (vcJoin (qclkOf s k) vc) }

/-- A packet completes (R328): INFL falls by 1, and the last completion makes its queue MAPPED-IDLE. `vc` is what its work had
observed, which later packets with ORD follow (R329). -/
def packetDone (s0 : State) (k : Nat) (vc : SMap Nat) : State :=
  let s := noteQueue s0 (doneKey (slotAt s0 k).part (slotAt s0 k).qnum) vc
  let s1 := updSlot s k (fun h => { h with infl := h.infl - 1 })
  let h := slotAt s1 k
  let s2 := if h.qst = 4 && h.infl = 0 && h.ridx = h.widx then
      schedEvent (updSlot s1 k (fun h => { h with qst := 3 })) h.part 2
    else s1
  dispatch s2 h.part

/-! ## Kicks (R337 to R339) -/

/-- Whether a kicker passes the first test of R337. -/
def kickAllowed (s : State) (p q ctx : Nat) (priv : Bool) : Bool :=
  q < qcount s p && (priv || queueF s p q 28 4 = ctx)

/-- The queue map's read of a queue's QCB reaches its row (R406). -/
def qcbTouch (s : State) (p q : Nat) : State :=
  touchRows s (match slotOfQueue s p q with | some k => (slotAt s k).qcbp | none => qcbAddr s p q) 80 false 2

/-- A kick of queue q with write index w, and its status. What the kicker has observed happens before the dispatcher's reads of the
packets. -/
def kickQueue (s0 : State) (p q : Nat) (w : W32) (ctx : Nat) (priv : Bool) (vc : SMap Nat) : State × Nat :=
  if !kickAllowed s0 p q ctx priv then (s0, 4)
  else
    let s := noteQueue (qcbTouch s0 p q) (kickKey p q) vc
    let st := qState s p q
    if st = 0 || st = 5 then (s, 3)
    else
      let ridx := qRidx s p q
      let newer := (w - qWidx s p q).toNat < 2 ^ 31
      if newer && 2 ^ queueF s p q 8 1 < (w - ridx).toNat then
        (queueError s p q 7 ridx.toNat (queueF s p q 0 8 + 64 * (ridx.toNat % 2 ^ queueF s p q 8 1)) 0 0 [], 5)
      else match slotOfQueue s p q with
        | some k =>
          let s1 := if newer then updSlot s k (fun h => { h with widx := w }) else s
          let s2 := if (slotAt s1 k).ridx ≠ (slotAt s1 k).widx then updSlot s1 k (fun h => { h with qst := 4 }) else s1
          (dispatch s2 p, 0)
        | none =>
          let s1 := if newer then qcbSet s p q 20 4 w.toNat else s
          if qRidx s1 p q = qWidx s1 p q then (s1, 1)
          else if st = 2 then (s1, 2)
          else (schedEvent (setPend (qcbSet s1 p q 9 1 2) p q true) p 0, 2)

/-- `KICK`: a release at `.dev` of the group's earlier accesses, then the kick. -/
def execKick (x : InsWord) (s : State) : Host.Outcome State Fault Refusal :=
  withGroup s (fun g =>
    if active g x = [] then finish s g
    else afterFence s g false
      (let r := kickQueue s g.part (src32 g x x.opa 0) (BitVec.ofNat 32 (src32 g x x.opb 0)) g.ctx g.priv g.vc
       finish r.1 (released (wrDstS g x r.2))))

/-- The snapshot of R339. -/
def qstatVal (s : State) (p q ctx : Nat) (priv : Bool) : Nat :=
  if !kickAllowed s p q ctx priv then 7
  else qState s p q + 8 * (pendBit s p q).toNat + 256 * ((slotOfQueue s p q).getD 0xFF)
    + 65536 * ((qWidx s p q - qRidx s p q).toNat % 65536)

def execQstat (x : InsWord) (s : State) : Host.Outcome State Fault Refusal :=
  withGroup s (fun g =>
    if active g x = [] then finish s g
    else
      let q := src32 g x x.opa 0
      finish (if q < qcount s g.part then qcbTouch s g.part q else s) (wrDstS g x (qstatVal s g.part q g.ctx g.priv)))

/-! ## Mapping (R340, R341) -/

/-- Whether an address lies in a page of another kind than normal; one that does not translate is left to R457 (log entry 44). -/
def offNormal (s : State) (buf ctx va : Nat) : Bool :=
  match lookup s buf ctx va with | .ok t => pteKind t.leaf.toNat ≠ 0 | .error _ => false

/-- The byte offset of the first field of a QCB that breaks R324, the address apart. -/
def qcbBroken (s : State) (p pa : Nat) : Option Nat :=
  let f (o n : Nat) : Nat := dramVal s (pa + o) n
  if f 0 8 % 64 ≠ 0 || 2 ^ 56 ≤ f 0 8 then some 0
  else if f 8 1 < 4 || 16 < f 8 1 then some 8
  else if 15 < f 10 1 then some 10
  else if 15 < f 11 1 then some 11
  else if 3 < f 13 1 then some 13
  else if 1023 < f 14 2 then some 14
  else if f 26 2 ≠ 0 then some 26
  else if f 64 8 % 64 ≠ 0 || offNormal s (partBuf s p) (f 28 4) (f 64 8) then some 64
  else if f 76 4 ≠ 0 then some 76
  else none

/-- A failed `QCBLD`: ERROR in the QCB, its pending bit cleared, then the record of R331. A QNUM that names no queue has no pending
bit (log entry 44). -/
def qcbldError (s : State) (p pa va detail : Nat) : State :=
  let q := dramVal s (pa + 14) 2
  let s0 := dramSet s (pa + 9) 1 5
  let s1 := if q < 1024 then setPend s0 p q false else s0
  let b := leBytes 4 2 ++ leBytes 4 (dramVal s (pa + 16) 4) ++ leBytes 8 va ++ leBytes 8 s.clock.toNat ++ leBytes 4 0
    ++ leBytes 4 detail ++ dramBytes s1 pa 32
  let s2 := putRecord s1 (partBuf s p) (dramVal s (pa + 28) 4) 0xFFFF (dramVal s (pa + 64) 8) b ⟨1, 0xFFFF, 0⟩ []
  ownerInterrupt (schedEvent s2 p 3) p 0xE8 1 (newTags s2 s1.nextId)

/-- The slot loaded from a QCB, its period brought up to the clock, throttled when its budget is used up (R333). -/
def loadSlot (s : State) (p pa va : Nat) : HwSlot :=
  let f (o n : Nat) : Nat := dramVal s (pa + o) n
  let per := f 32 4
  let pt := per * 1050
  let now := s.clock.toNat
  let dl := f 56 8
  let fresh := per ≠ 0 && dl ≤ now
  let relt := if fresh then (if dl = 0 then now else dl + pt * ((now - dl) / pt)) else f 48 8
  let used := if fresh then 0 else f 40 8
  { part := p, owned := true, map := true, qnum := f 14 2, qst := if f 16 4 ≠ f 20 4 then 4 else 3, ovr := false
    thr := per ≠ 0 && f 36 4 ≠ 0 && 1000 * f 36 4 ≤ used
    ridx := BitVec.ofNat 32 (f 16 4), widx := BitVec.ofNat 32 (f 20 4), infl := BitVec.ofNat 16 (f 24 2)
    period := BitVec.ofNat 32 per, budget := BitVec.ofNat 32 (f 36 4)
    used := BitVec.ofNat 64 used, relt := BitVec.ofNat 64 relt
    deadl := if per = 0 then BitVec.allOnes 64 else BitVec.ofNat 64 (if fresh then relt + pt else dl)
    ovrc := BitVec.ofNat 32 (f 72 4), qcba := BitVec.ofNat 64 va, qcbp := pa, ctx := f 28 4 }

/-- The effect of `QCBLD` on a QCB at a physical address, and its status. -/
def qcbld (s : State) (p sl va pa : Nat) : State × Nat :=
  let st := dramVal s (pa + 9) 1
  let q := dramVal s (pa + 14) 2
  if (st ≠ 1 && st ≠ 2) || dramVal s (pa + 12) 1 ≠ 0xFF then (s, 2)
  else match qcbBroken s p pa with
    | some d => (qcbldError s p pa va d, 3)
    | none =>
      if pa ≠ qcbAddr s p q then (qcbldError s p pa va 0, 3)
      else
        let h := loadSlot s p pa va
        let h := { h with ovr := (slotAt s sl).ovr }
        let s0 := dramSet (dramSet (dramSet s (pa + 9) 1 h.qst) (pa + 12) 1 sl) (pa + 11) 1 0
        let s1 := setPend (updSlot s0 sl (fun _ => h)) p q false
        (dispatch (if h.qst = 3 then schedEvent s1 p 2 else s1) p, 0)

def execQcbld (x : InsWord) (s : State) : Host.Outcome State Fault Refusal :=
  withGroup s (fun g =>
    let sl := src32 g x x.opb 0
    let va := src64 g x false x.opa 0
    if active g x = [] then finish s g
    else if 64 ≤ sl || !slotOwned (slotAt s sl) g.part || (slotAt s sl).map then finish s (wrDstS g x 1)
    else if 2 ^ 56 ≤ va then takeFault s g (permFlt .segmentRange va)
    else match lookup s (gBuf g) g.ctx va with
      | .error f => takeFault s g f
      | .ok t =>
        match pteKind t.leaf.toNat, locOf s t va with
        | 0, .dram pa lat _ =>
          if regionOf s pa ≠ .dram then takeFault s g (mkFlt 3 va)
          else if badLines s pa 80 ≠ [] then takeFault s g (mkFlt 5 va)
          else
          let r := qcbld (touchRows (cacheEnts s [t]) pa 80 false lat) g.part sl va pa
          finish r.1 (wrDstS g x r.2)
        | _, _ => finish s (wrDstS g x 3))

/-- A slot that maps no queue. -/
def freeSlot (h : HwSlot) : HwSlot := { HwSlot.reset with part := h.part, owned := h.owned, ovr := h.ovr }

/-- The effect of `QCBST` and its status. -/
def qcbst (s : State) (p sl : Nat) : State × Nat :=
  let h := slotAt s sl
  if 64 ≤ sl || !slotOwned h p then (s, 3)
  else if !h.map then (s, 2)
  else if h.qst = 4 || (h.qst = 5 && h.infl ≠ 0) then (s, 1)
  else
    let a := h.qcbp
    let s1 := dramSet (dramSet (dramSet s (a + 16) 4 h.ridx.toNat) (a + 20) 4 h.widx.toNat) (a + 24) 2 h.infl.toNat
    let s2 := dramSet (dramSet (dramSet s1 (a + 40) 8 h.used.toNat) (a + 48) 8 h.relt.toNat) (a + 56) 8 h.deadl.toNat
    let s3 := dramSet (dramSet s2 (a + 72) 4 h.ovrc.toNat) (a + 9) 1 (if h.qst = 5 then 5 else 1)
    (updSlot (dramSet s3 (a + 12) 1 0xFF) sl freeSlot, 0)

def execQcbst (x : InsWord) (s : State) : Host.Outcome State Fault Refusal :=
  withGroup s (fun g =>
    if active g x = [] then finish s g
    else
      let r := qcbst s g.part (src32 g x x.opa 0)
      finish r.1 (wrDstS g x r.2))

/-! ## Periods (R333) and the scheduling tick (R335, R336) -/

/-- The launches started from a slot may admit teams and dispatch pawns again (R192, R333). -/
def admitSlot (s : State) (k : Nat) : State :=
  (s.launches.filter (fun l => l.hwslot = k && l.started && !l.done)).foldl (fun s l =>
    (s.pawns.filter (fun q => q.pawn.lh = l.lh && !q.aside)).foldl (fun s q =>
        enqueueOnce s .pawnGroupDispatch { field := q.field, lh := l.lh, pc := q.pawn.pc })
      (enqueueOnce s .teamAdmit { lh := l.lh })) s

/-- At DEADL the slot's period is released: overrun check, new deadline, USED and THR cleared. -/
def releaseSlot (s : State) (k : Nat) : State :=
  let h := slotAt s k
  let late := h.infl ≠ 0
  let s1 := if late then emit s (.overrun k h.qnum h.ridx h.infl) else s
  let s2 := updSlot s1 k (fun h =>
    { h with ovr := h.ovr || late, ovrc := if late then h.ovrc + 1 else h.ovrc, relt := h.deadl
             deadl := h.deadl + BitVec.ofNat 64 (h.period.toNat * 1050), used := 0, thr := false })
  dispatch (admitSlot s2 k) h.part

def execSlotDeadline (s : State) : Host.Outcome State Fault Refusal :=
  let k := s.arg.slot
  let h := slotAt s k
  .next (if k < 64 && h.map && h.period ≠ 0 && h.deadl.toNat ≤ s.clock.toNat then releaseSlot s k else s)

/-- USED has reached the budget: the slot is throttled until its next release. -/
def execSlotBudgetExhausted (s : State) : Host.Outcome State Fault Refusal :=
  let k := s.arg.slot
  let h := slotAt s k
  .next (if k < 64 && h.map && h.period ≠ 0 && h.budget ≠ 0 && 1000 * h.budget.toNat ≤ h.used.toNat then
      updSlot s k (fun h => { h with thr := true })
    else s)

def execSchedTick (s : State) : Host.Outcome State Fault Refusal :=
  .next (if s.arg.part < 8 then schedEvent s s.arg.part 1 else s)

end Sys2Proof.Machine
end

