-- ==== Sys2Proof/Machine/Registers.lean ====
section
/-! DEFINITION. Device registers: what a read returns and what a write does, by physical address and by writer (R5, R6, R332,
R335, R336, R385, R404, R416, R418, R427, R430, R436, R438, R441, R442, R446, R447, R450, R452). -/

namespace Sys2Proof.Machine
open Sys2Proof

/-! ## Ports -/

def portAt (s : State) (n : Nat) : LPort := s.ports.getD n LPort.reset
def updPort (s : State) (n : Nat) (f : LPort → LPort) : State := { s with ports := updAt s.ports n f }
/-- A port state change sends an event to the management core (R419). -/
def setPort (s : State) (n st : Nat) : State :=
  if (portAt s n).st = st then s else emit (updPort s n (fun p => { p with st := st })) (.portEvent n st)

/-- The RETRAIN, ENABLE and QUIESCE actions of a port (R418, R419). -/
def portRetrain (s : State) (n : Nat) : State :=
  let st := (portAt s n).st
  if st = 2 || st = 3 || st = 5 then setPort s n 1 else s
def portEnable (s : State) (n : Nat) : State :=
  let s1 := updPort s n (fun p => { p with enable := true })
  if (portAt s n).st = 0 then setPort s1 n 1 else s1
def portDisable (s : State) (n : Nat) : State := setPort (updPort s n (fun p => { p with enable := false })) n 0
/-- Sends nothing new; with nothing outstanding the port is drained at once. -/
def portQuiesce (s : State) (n : Nat) : State :=
  let st := (portAt s n).st
  let s1 := updPort s n (fun p => { p with quiesce := true })
  if st = 2 || st = 3 then
    let s2 := setPort s1 n 4
    if s2.xacts.any (fun x => x.port = n) then s2 else enqueueOnce s2 .quiesceDrained { port := n }
  else s1

/-! ## Reads -/

/-- The running image's words of R446: PLID, UID, FWVER. -/
def plid : W64 := 0x0A91 ||| (Config.stepping.setWidth 64 <<< 16)

/-- ROLLMIN: the fuses as burned, else as fused (R447). -/
def rollminNow (s : State) : W64 := s.rollmin.getD Config.fusedRollmin

/-- The 64 bits at an aligned register address. -/
def regRead64 (s : State) (a : Nat) : W64 :=
  if a = regPlat 8 then plid
  else if a = regPlat 0x10 then Config.uid
  else if a = regPlat 0x20 then rollminNow s
  else if 0x1F000010000 ≤ a && a < 0x1F000018000 then
    let p := (a - 0x1F000010000) / 4096
    match a % 4096 with
    | 0x98 => slotsMask s p
    | 0xA0 => slavailMask s p
    | 0x100 => 0x7F
    | 0x110 => plid
    | 0x118 => Config.uid
    | 0x120 => regVal s (regPlat 0x18)
    | _ => regVal s a
  else if 0x1F000020000 ≤ a && a < 0x1F000021000 then
    let h := slotAt s ((a - 0x1F000020000) / 64)
    let q : Nat := match a % 64 with
      | 0 => h.qnum * 2 ^ 32 + h.part * 2 ^ 29 + 1024 * h.ovr.toNat + 512 * h.thr.toNat + 256 * h.map.toNat
          + (if h.map then h.qst else 0)
      | 8 => h.widx.toNat * 2 ^ 32 + h.ridx.toNat
      | 16 => h.infl.toNat
      | 24 => h.budget.toNat * 2 ^ 32 + h.period.toNat
      | 32 => h.used.toNat
      | 40 => h.relt.toNat
      | 48 => h.deadl.toNat
      | _ => h.qcba.toNat
    BitVec.ofNat 64 q
  else if 0x1F000040000 ≤ a && a < 0x1F000050000 then
    let p := (a - 0x1F000040000) / 8192
    let q := a % 8192 / 8
    if q < qcount s p then (qWidx s p q).setWidth 64 else 0
  else if 0x1F000060000 ≤ a && a < 0x1F000070000 then
    (if 0x140 ≤ a % 4096 && a % 4096 < 0x180 then 0x0300030003000300 else regVal s a)
  else if 0x1F000080000 ≤ a && a < 0x1F000080400 then
    let p := portAt s ((a - 0x1F000080000) / 64)
    let q : Nat := match a % 64 with
      | 0 => 4 * p.quiesce.toNat + 2 * p.enable.toNat
      | 8 => (if p.st = 2 || p.st = 3 then p.peer.toNat * 2 ^ 36 else 0) + p.rx * 2 ^ 27 + p.tx * 2 ^ 18 + p.st
      | 16 => p.epoch.toNat
      | 24 => p.retries.toNat
      | _ => 0
    BitVec.ofNat 64 q
  else if a = regLink 0x10 then s.epoch.setWidth 64
  else if 0x1F000090000 ≤ a && a < 0x1F000098000 then
    (List.range 4).foldl (fun v i => v ||| (regVal s (a + 2 * i) <<< (16 * i))) 0
  else regVal s a

/-- A read of `n` bytes; reads have no side effect (R335). -/
def regLoad (s : State) (a n : Nat) : Nat := (regRead64 s (a / 8 * 8)).toNat / 2 ^ (8 * (a % 8)) % 2 ^ (8 * n)

/-! ## Writers (R442) -/

/-- Whether the host on a PCIe port owns a partition. -/
def hostOwns (s : State) (port p : Nat) : Bool :=
  let o := (regVal s (regPart p 0xE0)).toNat
  bit o 16 && !bit o 15 && o % 2 = port

/-- The partition whose owner may write a register through BAR 0: doorbells, partition and slot blocks; none for the
others. -/
def regOwnerPart (s : State) (a : Nat) : Option Nat :=
  if 0x1F000010000 ≤ a && a < 0x1F000018000 then some ((a - 0x1F000010000) / 4096)
  else if 0x1F000020000 ≤ a && a < 0x1F000021000 then some (slotAt s ((a - 0x1F000020000) / 64)).part
  else if 0x1F000040000 ≤ a && a < 0x1F000050000 then some ((a - 0x1F000040000) / 8192)
  else none

/-- The MSI-X table and its pending bits (R442). -/
def regMsix (a : Nat) : Bool := (0x1F003F00000 ≤ a && a < 0x1F003F08000) || (0x1F003F80000 ≤ a && a < 0x1F003F80100)

/-- Whether a host's access through BAR 0 reaches a register. -/
def hostReaches (s : State) (port a : Nat) : Bool :=
  regMsix a || (match regOwnerPart s a with | some p => hostOwns s port p | none => false)

/-- A host's read of `n` bytes through BAR 0 (R335, R442): zero where R442 does not let it. -/
def hostRead (s : State) (port a n : Nat) : Nat := if hostReaches s port a then regLoad s a n else 0

/-! ## Writes -/

/-- A group's window S, when the writer is a privileged group (R336). -/
def writerWin (s : State) (who : Agent) : Option Seg :=
  match who with
  | .group c k => (groupAt s c k).bind (fun g => if g.priv then some g.segS else none)
  | _ => none

/-- Store the fields of SBAR or HBAR, with the window of a privileged group. -/
def sbarStore (s : State) (who : Agent) (p : Nat) (v : W64) : State :=
  let s1 := regPut s (regPart p 0x88) (v &&& 0x800000000000FFFF)
  match writerWin s who with
  | some w => updPart s1 p (fun q => { q with sbarWin := some w })
  | none => s1
def hbarStore (s : State) (who : Agent) (p : Nat) (v : W64) : State :=
  let s1 := regPut s (regPart p 0xC8) (v &&& 0x800000000000FFFF)
  match writerWin s who with
  | some w => updPart s1 p (fun q => { q with hbarWin := some w })
  | none => s1

/-- TICK: 0 is stored as 1, and the count restarts at the write. Of a value of 2 ^ 32 or more the low 32 bits are stored (log entry 36). -/
def tickStore (s : State) (p : Nat) (v : W64) : State :=
  let t := v.toNat % 2 ^ 32
  updPart (regPut s (regPart p 0x90) (BitVec.ofNat 64 (if t = 0 then 1 else t))) p (fun q => { q with tickAt := s.clock.toNat })

/-- DRVFEAT stores value AND DEVFEAT. -/
def drvfeatStore (s : State) (p : Nat) (v : W64) : State := regPut s (regPart p 0x108) (v &&& 0x7F)

/-- GO of ATCTL latches the nonce and sets BUSY unless it is set; DONE is W1C (R450, R452). -/
def atctlStore (s : State) (p : Nat) (v : W64) : State :=
  let a := regPart p 0x220
  let s1 := if v.getLsbD 2 then regPut s a (regVal s a &&& ~~~ 4#64) else s
  if v.getLsbD 0 && !(regVal s1 a).getLsbD 1 then
    let nonce := (List.range 4).flatMap (fun i => leBytes 8 (regVal s (regPart p (0x200 + 8 * i))).toNat)
    enqueue (updPart (regPut s1 a (regVal s1 a ||| 2#64)) p (fun q => { q with atNonce := nonce })) .attestReportDone
      { part := p }
  else s1

/-- DEVID takes effect only while every link port is DOWN (R446). -/
def devidStore (s : State) (v : W64) : State :=
  if s.ports.all (fun p => p.st = 0) then regPut s (regPlat 0) (v &&& 0x3FFF) else s

/-- ROLLMIN is one-way (R447). -/
def rollminStore (s : State) (v : W64) : State :=
  if (rollminNow s).toNat < v.toNat then { s with rollmin := some v } else s

/-- Every promotion slot of a stack is demoted as `ROW.DEM` does. -/
def demoteStack (s : State) (st : Nat) : State :=
  (s.rows.filter (fun kv => kv.1 / 32 / 131072 = st && kv.2.row ≠ 0)).foldl (fun s kv =>
    rowAct s st ⟨.dem, kv.2.row - 1, 2⟩) s

/-- The fast-direct address ranges of a stack's direct row r: its 128 MiB of stack-local offsets in units of 2 MiB. -/
def directRanges (st r k : Nat) : List (Nat × Nat × Nat) :=
  (List.range 64).map (fun u =>
    let a := 0x10000000000 + ((r * 64 + u) * 16 + st) * 2 ^ 21
    (a, a + 2 ^ 21, k))

/-- SCFG (R404): a larger DIRECT is stored as 32; a change demotes every slot, and rows that stop being direct keep no defined
content (a free value, log entry 8). -/
def scfgStore (s : State) (st : Nat) (v : W64) : State :=
  let d := min (v.toNat % 64) 32
  let old := directRows s st
  let s1 := regPut s (regStack st 0) (BitVec.ofNat 64 (v.toNat / 256 % 256 * 256 + d))
  if d = old then s1
  else
    let s2 := demoteStack s1 st
    if old ≤ d then s2
    else { s2 with free := s2.free + 1
                   undef := s2.undef ++ (List.range (old - d)).flatMap (fun i => directRanges st (d + i) s2.free) }

/-- LPCTL (R418). Each write acts by the bits it leaves: ENABLE trains a port that is DOWN, QUIESCE drains one that is UP or
DEGRADED (log entry 54). -/
def lpctlStore (s : State) (n : Nat) (v : W64) : State :=
  let s1 := if v.getLsbD 0 then portRetrain s n else s
  let s2 := if v.getLsbD 1 then portEnable s1 n else portDisable s1 n
  if v.getLsbD 2 then portQuiesce s2 n
  else updPort s2 n (fun p => { p with quiesce := false })

/-- Clamp LSWIN to a multiple of 4 KiB from 64 KiB to 64 MiB (R430). -/
def lswinClamp (v : Nat) : Nat := max 0x10000 (min 0x4000000 (v / 4096 * 4096))

/-- A write of `v` at an aligned register by the management core, or where any agent may; `w1` holds the bits written as 1
for W1C fields. Of a value of 2 ^ 32 or more TICK, LTMO, HTMO and TMO keep the low 32 bits (log entry 36). -/
def regWrite64 (s : State) (who : Agent) (a : Nat) (v w1 : W64) : State :=
  let mgmt := who = .mgmt
  let keep (m : W64) : State := regPut s a (v &&& m)
  let clr (m : W64) : State := regPut s a (regVal s a &&& ~~~ (w1 &&& m))
  if a = regPlat 0 then (if mgmt then devidStore s v else s)
  else if a = regPlat 0x20 then (if mgmt then rollminStore s v else s)
  else if a = regPlat 0x28 then (if mgmt then regPut s a (BitVec.ofNat 64 (max 1000 (min 3000 v.toNat))) else s)
  else if a = regPlat 0x50 then (if mgmt then keep (BitVec.allOnes 64) else s)
  else if 0x1F000010000 ≤ a && a < 0x1F000018000 then
    let p := (a - 0x1F000010000) / 4096
    match a % 4096 with
    | 0x80 => clr 0xF
    | 0x88 => sbarStore s who p v
    | 0x90 => tickStore s p v
    | 0xA8 => keep 0xFFFFFFFFFFFFFF00
    | 0xB0 => keep (BitVec.allOnes 64)
    | 0xC0 => clr 3
    | 0xC8 => hbarStore s who p v
    | 0xD0 => if mgmt then keep 0x800001FFFFFFFFFF else s
    | 0xD8 => if mgmt then keep 0xFFFFFFFF else s
    | 0xE0 => if mgmt then keep 0x1BFFF else s
    | 0xE8 => if mgmt then keep 0x107FF else s
    | 0xF0 => if mgmt then keep 0x107FF else s
    | 0xF8 => if mgmt then keep 0x800001FFFFFFFFFF else s
    | 0x108 => drvfeatStore s p v
    | 0x220 => atctlStore s p w1
    | off => if 0x200 ≤ off && off < 0x220 then keep (BitVec.allOnes 64) else s
  else if 0x1F000020000 ≤ a && a < 0x1F000021000 && a % 64 = 0 then
    let k := (a - 0x1F000020000) / 64
    updSlot s k (fun h => { h with ovr := h.ovr && !w1.getLsbD 10, part := if mgmt then bits v.toNat 31 29 else h.part
                                   owned := h.owned || mgmt })
  else if 0x1F000030000 ≤ a && a < 0x1F000030200 then
    if !mgmt then s
    else match a % 256 with
      | 0 => keep (BitVec.allOnes 64)
      | 8 =>
        let t := v.toNat % 2 ^ 32
        regPut s a ((regVal s a &&& 0x200000000) ||| (v &&& 0x100000000) ||| BitVec.ofNat 64 (if t = 0 then 1 else t))
      | 0x10 => regPut s a ((regVal s a &&& 0x7FE &&& ~~~ (w1 &&& 0x400)) ||| (v &&& 1))
      | 0x18 => keep 0xFFFFFFFFC0000000
      | 0x20 => keep 0xFFFFFFFFC0000000
      | 0x28 =>
        let t := v.toNat % 2 ^ 32
        regPut s a (BitVec.ofNat 64 (if t = 0 then 1 else t))
      | _ => s
  else if 0x1F000040000 ≤ a && a < 0x1F000050000 then
    (kickQueue s ((a - 0x1F000040000) / 8192) (a % 8192 / 8) (v.setWidth 32) 0 true []).1
  else if 0x1F000060000 ≤ a && a < 0x1F000070000 then
    if !mgmt then s
    else if a % 4096 = 0 then scfgStore s ((a - 0x1F000060000) / 4096) v
    else if 0x180 ≤ a % 4096 && a % 4096 < 0x500 then keep (BitVec.allOnes 64)
    else s
  else if 0x1F000080000 ≤ a && a < 0x1F000080400 then
    if mgmt && a % 64 = 0 then lpctlStore s ((a - 0x1F000080000) / 64) v else s
  else if a = regLink 0 then
    let t := v.toNat % 2 ^ 32
    if mgmt then regPut s a (BitVec.ofNat 64 (if t = 0 then 1 else t)) else s
  else if a = regLink 8 then (if mgmt then regPut s a (BitVec.ofNat 64 (lswinClamp v.toNat)) else s)
  else if 0x1F000090000 ≤ a && a < 0x1F000098000 then
    if !mgmt then s
    else (List.range 4).foldl (fun s i => regPut s (a + 2 * i) ((v >>> (16 * i)) &&& 0xFFF)) s
  else if regMsix a then keep (BitVec.allOnes 64)
  else s

/-- A write of `n` bytes: the rest of an RW register keeps its value, and no W1C bit outside the bytes is written 1. A group
kicks a doorbell as itself (R337), a host only where R442 lets it. What comes in over the link names no group: it writes as an agent that
is neither management core nor host, and a doorbell it writes kicks nothing (log entry 25). -/
def regStore (s : State) (who : Agent) (addr n val : Nat) : State :=
  let a := addr / 8 * 8
  let m : W64 := BitVec.ofNat 64 ((2 ^ (8 * n) - 1) * 2 ^ (8 * (addr % 8)))
  let w : W64 := BitVec.ofNat 64 (val % 2 ^ (8 * n) * 2 ^ (8 * (addr % 8)))
  let v := (regRead64 s a &&& ~~~ m) ||| w
  match who with
  | .mgmt => regWrite64 s who a v w
  | .host port => if hostReaches s port a then regWrite64 s who a v w else s
  | .group c k =>
    match groupAt s c k with
    | none => if c = 0xFFFF && !(0x1F000040000 ≤ a && a < 0x1F000050000) then regWrite64 s who a v w else s
    | some g =>
      if 0x1F000040000 ≤ a && a < 0x1F000050000 then
        (kickQueue s ((a - 0x1F000040000) / 8192) (a % 8192 / 8) (v.setWidth 32) g.ctx g.priv g.vc).1
      else regWrite64 s who a v w

/-! ## The register steps of the opcode table -/

/-- A write step of one register: none while the device is not running, or where no such block exists. -/
def regStep (s : State) (ok : Bool) (a : Nat) : Host.Outcome State Fault Refusal :=
  .next (if s.mode = .running && ok then regStore s s.arg.who a 8 s.arg.val.toNat else s)

def execDevidWrite (s : State) : Host.Outcome State Fault Refusal := regStep s true (regPlat 0)
def execRollminWrite (s : State) : Host.Outcome State Fault Refusal := regStep s true (regPlat 0x20)
def execDrvfeatWrite (s : State) : Host.Outcome State Fault Refusal := regStep s (s.arg.part < 8) (regPart s.arg.part 0x108)
def execAtctlGo (s : State) : Host.Outcome State Fault Refusal := regStep s (s.arg.part < 8) (regPart s.arg.part 0x220)
def execSbarWrite (s : State) : Host.Outcome State Fault Refusal := regStep s (s.arg.part < 8) (regPart s.arg.part 0x88)
def execHbarWrite (s : State) : Host.Outcome State Fault Refusal := regStep s (s.arg.part < 8) (regPart s.arg.part 0xC8)
def execTickWrite (s : State) : Host.Outcome State Fault Refusal := regStep s (s.arg.part < 8) (regPart s.arg.part 0x90)
def execScfgWrite (s : State) : Host.Outcome State Fault Refusal := regStep s (s.arg.stack < 16) (regStack s.arg.stack 0)

/-- A write of 1 to 8 bytes at a register address by any agent (R5). -/
def execRegisterWrite (s : State) : Host.Outcome State Fault Refusal :=
  .next (if s.mode = .running then regStore s s.arg.who s.arg.addr s.arg.len s.arg.val.toNat else s)

/-- A host's write to a doorbell (R337): admitted only from the owner's port. -/
def execDoorbellWrite (s : State) : Host.Outcome State Fault Refusal :=
  .next (if s.mode = .running && s.arg.part < 8 && s.arg.q < 1024 then
      regStore s (.host s.arg.port) (0x1F000040000 + 8192 * s.arg.part + 8 * s.arg.q) 4 s.arg.word.toNat
    else s)

/-- A step of a link port: none while the link is in reset or without power (R448, R449). -/
def portStep (s : State) (f : State → Nat → State) : Host.Outcome State Fault Refusal :=
  .next (if s.mode = .running then f s s.arg.port else s)

def execLinkEnable (s : State) : Host.Outcome State Fault Refusal := portStep s portEnable
def execLinkDisable (s : State) : Host.Outcome State Fault Refusal := portStep s portDisable
def execLinkQuiesce (s : State) : Host.Outcome State Fault Refusal := portStep s portQuiesce
def execLinkRetrain (s : State) : Host.Outcome State Fault Refusal := portStep s portRetrain

end Sys2Proof.Machine
end

