-- ==== Sys2Proof/Machine/LoadStore.lean ====
section
/-! DEFINITION. Memory instructions (R193 to R228): their checks in the order of R228, loads, stores, atomics, shaped accesses,
tiles, fences. Accesses to scratchpad and local device memory are performed in the step of their instruction (log entry 9);
those outside the part are in flight until the step that ends them. -/

namespace Sys2Proof.Machine
open Sys2Proof

/-! ## The checks of R228 -/

/-- One lane's access after its checks: the address as a fault would report it, and where it is performed. -/
structure LaneAcc where
  l : Nat
  a : Nat
  loc : Loc
  deriving DecidableEq, Repr, Inhabited

/-- What the checks give: the instruction ended (a fault), or it goes on with its lanes. -/
inductive Prep where
  | ended (s : State)
  | go (s : State) (g : Group) (ls : List LaneAcc)
  deriving DecidableEq, Repr, Inhabited

/-- The fault of the lowest lane, fatal ones first (R228). -/
def firstFault (l : List (Nat × Flt)) : Option Flt :=
  match l.find? (fun p => fatalReason p.2.reason) with
  | some p => some { p.2 with lanes := maskOf [p.1] }
  | none => l.head?.map (fun p => { p.2 with lanes := maskOf [p.1] })

/-- Checks that give a list of per-lane faults or go on. -/
def orFault (s : State) (g : Group) (bad : List (Nat × Flt)) (k : Prep) : Prep :=
  match firstFault bad with
  | some f => .ended (takeFault s g f)
  | none => k

/-- A store, atomic or reduction whose P offset lies in the pocket's header (R194). -/
def headerCheck (x : InsWord) (write : Bool) (o : Int) (p : Place) : Place :=
  match p with
  | .va a => if write && modF x 2 0 = 3 && o < 32 then .bad (permFlt .pocketHeader a) else p
  | p => p

/-- The address a fault names. -/
def placeAddr (s : State) (g : Group) (p : Place) : Nat :=
  match p with
  | .scr a => (match ctxOf s g.ctx with | some c => virtScr c a | none => a)
  | .va a => a
  | .off o => off64 o
  | .bad f => f.addr

/-- The translation of a lane's place, not yet checked for its shape descriptor; none for scratchpad. -/
def translate (s : State) (g : Group) (p : Place) : Except Flt (Option TlbEnt) :=
  match p with
  | .va a => (plainEnt s (gBuf g) g.ctx a).map some
  | _ => .ok none

/-- The location of a translated place under an access class (R204). -/
def locate (s : State) (acc : Acc) (t : Option TlbEnt) (p : Place) : Except Flt Loc :=
  match t, p with
  | some t, .va a => permitted s t a acc
  | _, .scr a => .ok (.scr a)
  | _, _ => .ok (.scr 0)

/-- The lines an access needs to read and cannot (R415): all of a load's, those a write covers in part. -/
def integrityBad (s : State) (write : Bool) (z : Nat) (loc : Loc) : Bool :=
  match loc with
  | .dram pa _ _ => (if write then badPartial s pa z else badLines s pa z) ≠ []
  | _ => false

/-! ## Planes of a shaped page (R205, R206) -/

/-- A lane's shaped access: its leaf, the code page's location, and where its cuff and band lie. -/
structure ShapedAcc where
  l : Nat
  a : Nat
  ent : TlbEnt
  pa : Nat
  lat : Nat
  n : Nat
  cuffVa : Nat
  bandVa : Nat
  cuff : Except Flt (TlbEnt × Loc)
  band : Except Flt (TlbEnt × Loc)

/-- The plane addresses of R206 of an access whose code address is translated; a broken descriptor faults. -/
def shapedAcc (s : State) (buf ctx : Nat) (r : LaneAcc) : Except Flt ShapedAcc :=
  match lookup s buf ctx r.a, r.loc with
  | .error f, _ => .error f
  | .ok t, .dram pa lat _ =>
    let n := bits t.leaf.toNat 63 54 * 131072 + 2 * (r.a % 65536)
    let cv := fld t.desc 0 8 + 2 * (n / 8)
    let bv := fld t.desc 8 8 + 2 * (n / 2 ^ fld t.desc 17 1 / 64)
    .ok ⟨r.l, r.a, t, pa, lat, n, cv, bv, normalAt s buf ctx cv, normalAt s buf ctx bv⟩
  | .ok _, _ => .error (mkFlt 3 r.a)

/-- A plane address, checked to read or to write its halfword: a write needs W, and reads the rest of its line. -/
def planeFault (s : State) (va : Nat) (rd wr : Bool) (p : Except Flt (TlbEnt × Loc)) : Option Flt :=
  match p with
  | .error f => some { f with addr := va }
  | .ok (t, loc) =>
    if wr && !bit t.leaf.toNat 5 then some (permFlt .write va)
    else if wr && integrityBad s true 2 loc then some (mkFlt 5 va)
    else if !rd then none
    else match unitBytes s loc va 2 with | .error f => some f | .ok _ => none

/-- The value of a plane's halfword. -/
def planeVal (s : State) (va : Nat) (p : Except Flt (TlbEnt × Loc)) : Nat :=
  match p.bind (fun q => unitBytes s q.2 va 2) with | .ok b => leVal b | .error _ => 0

/-- A cuff is corrupt (R37). -/
def corrupt (c : Nat) : Bool := (cuffSel c).isNone

/-- Step 4 of R228 for one access to a shaped page: its descriptor, its planes as the access class uses them (both are translated,
R207), its cuff. -/
def shapeFaults (s : State) (buf ctx : Nat) (acc : Acc) (r : LaneAcc) : List Flt :=
  match shapedAcc s buf ctx r with
  | .error f => [f]
  | .ok q =>
    match acc with
    | .lds band =>
      let c := planeFault s q.cuffVa true false q.cuff
      c.toList ++ (planeFault s q.bandVa band false q.band).toList
        ++ (if c.isNone && corrupt (planeVal s q.cuffVa q.cuff) then [mkFlt 4 q.cuffVa] else [])
    | .stq => (planeFault s q.cuffVa false true q.cuff).toList ++ (planeFault s q.bandVa false false q.band).toList
    | _ => []

/-- The translations of a shaped access and its planes, and those that an access uses. -/
def planeEnts (q : ShapedAcc) : List TlbEnt :=
  q.ent :: [q.cuff, q.band].filterMap (fun p => match p with | .ok e => some e.1 | .error _ => none)
def shapeEnts (s : State) (buf ctx : Nat) (acc : Acc) (r : LaneAcc) : List TlbEnt :=
  match shapedAcc s buf ctx r with
  | .error _ => []
  | .ok q => match acc with | .lds _ | .stq => planeEnts q | _ => [q.ent]

/-- Whether a lane's access goes through a shaped page. -/
def shaped (t : Option TlbEnt) : Bool := match t with | some t => pteKind t.leaf.toNat = 4 | none => false

/-- What a restart of a chain may not repeat (R69): the lanes of a load in a chain whose pages are not normal. -/
def chainFaults (s : State) (g : Group) (ps : List (Nat × Place)) : List (Nat × Flt) :=
  if g.iss.reader then
    ps.filterMap (fun p => match translate s g p.2 with
      | .ok (some t) => if pteKind t.leaf.toNat = 0 then none else some (p.1, { illegal 3 with addr := placeAddr s g p.2 })
      | _ => none)
  else []

/-- Steps 3 and 4 of R228: the first fault, or each lane's location, its translations kept. -/
def prepLocs (s : State) (g : Group) (z : Nat) (acc : Acc) (write : Bool) (ps : List (Nat × Place)) : Prep :=
  let ts := ps.map (fun p => (p, translate s g p.2))
  let rs := ts.map (fun p => (p.1, p.2.bind (fun t => (locate s acc t p.1.2).map (fun loc => (t, loc)))))
  let ok := rs.filterMap (fun r => match r.2 with
    | .ok (t, loc) => some (t, LaneAcc.mk r.1.1 (placeAddr s g r.1.2) loc)
    | .error _ => none)
  let sh := (ok.filter (fun r => shaped r.1)).map (fun r => r.2)
  let s1 := cacheEnts s ((ok.filterMap (fun r => if shaped r.1 then none else r.1)) ++ sh.flatMap (shapeEnts s (gBuf g) g.ctx acc))
  let ls := ok.map (fun r => r.2)
  orFault s g (rs.filterMap (fun r => match r.2 with | .error f => some (r.1.1, f) | .ok _ => none))
    (orFault s g (sh.flatMap (fun r => (shapeFaults s (gBuf g) g.ctx acc r).map (fun f => (r.l, f))))
      (orFault s1 g (ls.filterMap (fun r => if integrityBad s write z r.loc then some (r.l, mkFlt 5 r.a) else none))
        (.go s1 g ls)))

/-- The checks of one memory instruction on the lanes given: `off` their offsets, `z` the bytes, `al` the alignment. The chain rule, a
step 7 of R83, comes before all of them and before any lane is switched off. -/
def prepare (s : State) (g : Group) (x : InsWord) (lanes : List Nat) (off : Nat → Int) (z al : Nat) (acc : Acc) (write : Bool) :
    Prep :=
  let ps := lanes.map (fun l => (l, headerCheck x write (off l) (placeIn g (modF x 2 0) (off l) z l)))
  let (s1, g1) := lanesOff s g (ps.filterMap (fun p => match p.2 with | .off o => some (p.1, o) | _ => none))
  let rest := ps.filter (fun p => match p.2 with | .off _ => false | _ => true)
  orFault s g (chainFaults s g rest)
    (orFault s1 g1 (rest.filterMap (fun p => match p.2 with | .bad f => some (p.1, f) | _ => none))
      (orFault s1 g1 (rest.filterMap (fun p =>
          let a := match p.2 with | .scr a => a | .va a => a | _ => 0
          if a % al = 0 then none else some (p.1, mkFlt 7 (placeAddr s g p.2))))
        (prepLocs s1 g1 z acc write rest)))

/-- The fault of a plain window access that races (R290): it names the sector, and the stamped group in AUX (log entry 10). -/
def raceFlt (s : State) (g : Group) (z : Nat) (r : LaneAcc) : Option (Nat × Flt) :=
  match r.loc with
  | .scr a => (raceAt s g a z).map (fun p =>
      (r.l, ⟨10, 0, (match ctxOf s g.ctx with | some c => virtScr c (p.1 * 32) | none => p.1 * 32), 0,
        BitVec.ofNat 64 (p.2.core + p.2.slot * 2 ^ 16)⟩))
  | _ => none

/-- Plain window accesses are checked for races before any lane acts. -/
def checkRaces (z : Nat) (p : Prep) : Prep :=
  match p with
  | .ended s => .ended s
  | .go s g ls => orFault s g (ls.filterMap (raceFlt s g z)) (.go s g ls)

/-- The lanes of an instruction that acts when the checks pass. -/
def onPrep (p : Prep) (k : State → Group → List LaneAcc → State) : State :=
  match p with
  | .ended s => s
  | .go s g ls => k s g ls

/-! ## Locations outside the part -/

/-- Whether a location is served inside the part. -/
def isLocal : Loc → Bool
  | .scr _ | .dram .. | .reg _ => true
  | _ => false

/-- A location's target outside the part: its port or device, the address there, and whether a load of it blocks (R210,
R225, R227). -/
structure Ext where
  port : Option Nat
  dev : Option Nat
  cxl : Bool
  peer : Bool
  addr : Nat
  blocks : Bool
  deriving DecidableEq, Repr, Inhabited

def extOf : Loc → Option Ext
  | .host p a => some ⟨some p, none, false, false, a, true⟩
  | .cxl p a => some ⟨some p, none, true, false, a, true⟩
  | .peer p a => some ⟨some p, none, false, true, a, true⟩
  | .remote d a o => some ⟨none, some d, false, false, a, o⟩
  | _ => none

def sameTarget (a b : Ext) : Bool := a.port = b.port && a.dev = b.dev && a.cxl = b.cxl && a.peer = b.peer

/-- Whether a port can carry an access: its link is up in the mode the access needs, and a CXL window is enabled (R225, R417, R440). -/
def extUp (s : State) (e : Ext) : Bool :=
  match e.port with
  | some p =>
    if e.cxl then (regVal s (regPcie p 8)).getLsbD 32 && (regVal s (regPcie p 8)).getLsbD 33
    else (regVal s (regPcie p 0x10)).getLsbD 9 && !s.cxl.getLsbD p
  | none => true

/-- Whether the group has an earlier access outstanding to the 64-byte line (R286). -/
def lineBusy (s : State) (g : Group) (e : Ext) : Bool :=
  g.loads.any (fun p => p.port = e.port && p.dev = e.dev && p.addrs.any (fun a => a / 64 = e.addr / 64))
    || s.posted.any (fun p => p.guid = g.uid && some p.port = e.port && p.addr / 64 = e.addr / 64)
    || s.xacts.any (fun x => x.guid = g.uid && some x.dst = e.dev && !x.load && x.addr / 64 = e.addr / 64)

/-- Whether an external access must hold its group at the instruction for now: an outstanding access to the line, or no room
in a send window (R286, R431). -/
def extHeld (s : State) (g : Group) (z : Nat) (es : List Ext) : Bool :=
  es.any (fun e => lineBusy s g e || (match e.dev with
    | some d => !linkRoom s d (z * (es.filter (sameTarget e)).length)
    | none => false))

/-- The bus or host address of a peer or host access leaves the part as it is. -/
def readOut (e : Ext) (z : Nat) : Out :=
  if e.peer || e.cxl then .busRead (e.port.getD 0) e.addr z else .hostRead (e.port.getD 0) e.addr z

/-- `CLOCK` at the completion timeout of an access to a port (R225, R416, R441); 0 for a device on the link, whose transaction times out
itself. -/
def extDue (s : State) (e : Ext) : Nat :=
  match e.port with
  | some p => s.clock.toNat + 1050 * (if e.cxl then (regVal s (regPcie p 8)).toNat % 2 ^ 32 else (regVal s (regPcie p 0x28)).toNat)
  | none => 0

/-- The key of a location in the order of R294; none for registers. -/
def locKey : Loc → Option Nat
  | .scr a => some a
  | .dram pa _ _ => some (dramKey pa)
  | .host p a => some (2 ^ 80 + p * 2 ^ 72 + a)
  | .cxl p a => some (2 ^ 80 + (p + 2) * 2 ^ 72 + a)
  | .peer p a => some (2 ^ 80 + (p + 4) * 2 ^ 72 + a)
  | .remote d a _ => some (2 ^ 80 + (d + 8) * 2 ^ 72 + a)
  | .reg _ => none

/-- The accesses of one instruction, made lane by lane: the machine, the group, the tags it is held for and the addresses that no route
reaches. -/
structure Sent where
  s : State
  g : Group
  tags : List Nat
  lost : List Nat
  deriving DecidableEq, Repr, Inhabited

/-- Send one lane's load (R210, R227): a pending load that its answer completes, and for which a blocking page or an acquire holds the
group. -/
def sendLoad (m : Sent) (j : LaneJob) (e : Ext) : Sent :=
  let g := m.g
  let (s1, tag) := freshTag m.s
  let blocks := e.blocks || j.acq.isSome
  let pl : PendLoad := ⟨tag, j.dst, j.n, j.z, j.sgn, [j.l], [e.addr], blocks, e.port, e.dev, g.pc, restartPc g, false, [j.a],
    extDue m.s e, j.acq, (locKey j.loc).getD 0⟩
  let go (s : State) : Sent :=
    { m with s := s, g := { g with loads := g.loads ++ [pl] }, tags := if blocks then m.tags ++ [tag] else m.tags }
  match e.dev with
  | some d =>
    (match routeOf m.s d with
     | none => { m with lost := m.lost ++ [j.a] }
     | some port => go (sendXact s1 ⟨tag, d, port, 1, j.z, g.uid, g.core, g.slot, g.ctx, g.pc, e.addr, false, true, false, leBytes 2 j.z,
       j.a, [], 0, false, none⟩))
  | none => go (emit s1 (readOut e j.z))

/-- A group held until its loads end or its stores are accepted (R210): STALLED at the instruction, which the step that brings the
last answer completes. -/
def holdExt (s : State) (g : Group) (tags : List Nat) : State := setGroup s { g with st := .stalled, wait := .ext tags }

/-- The group goes on, or is held; a target that no route reaches faults imprecisely (R227, R429). -/
def endSent (m : Sent) (g : Group) : State :=
  m.lost.foldl (fun s a => lateFault s g.ctx g.core g.slot 6 g.pc a)
    (if m.tags.isEmpty then finish m.s m.g else holdExt m.s m.g m.tags)

/-- The lanes whose port is down: their fault is precise, before any lane acts (R225). -/
def downFault (s : State) (es : List (LaneAcc × Ext)) : Option Flt :=
  match es.filter (fun p => !extUp s p.2) with
  | [] => none
  | p :: r => some { mkFlt 6 p.1.a with lanes := maskOf ((p :: r).map (fun q => q.1.l)) }

/-! ## Loads (R211 to R214) -/

/-- Write a loaded value of `n` words to DST in a lane. -/
def putLane (g : Group) (o : Opd) (n l v : Nat) : Group :=
  match o with
  | .v r => wrVs g r.toNat l (words n v)
  | .s r => wrSs g r.toNat (words n v)
  | _ => g

/-- The value of a load of z bytes, extended to its destination. -/
def extendLd (sgn : Bool) (z v : Nat) : Nat := if sgn && z < 4 then wrapN (sext v (8 * z)) 32 else v

/-- The bytes at a location inside the part. -/
def locVal (s : State) (z : Nat) : Loc → Nat
  | .scr a => scrVal s a z
  | .dram pa _ _ => dramVal s pa z
  | .reg pa => regLoad s pa z
  | _ => 0

/-- What reading a lane's location leaves: the row touched, and what the group observed. -/
def noteLoad (s : State) (g : Group) (z : Nat) (acq : Option Nat) (loc : Loc) : State × Group :=
  let s1 := match loc with | .dram pa lat _ => touchRow s pa false lat | _ => s
  match locKey loc with
  | some k => (s1, noteRead s g k z acq)
  | none => (s1, g)

/-- One lane's load inside the part. -/
def loadLocal (m : Sent) (j : LaneJob) : Sent :=
  let r := noteLoad m.s (putLane m.g j.dst j.n j.l (extendLd j.sgn j.z (locVal m.s j.z j.loc))) j.z j.acq j.loc
  { m with s := r.1, g := r.2 }

/-! ## Stores (R211 to R214) -/

/-- One lane's store inside the part: `rel` for a release store, which is no plain window write. -/
def storeLocal (s : State) (g : Group) (rel : Option Nat) (loc : Loc) (b : List Byte) : State :=
  let wr := groupWriter s g
  let z := b.length
  match loc with
  | .scr a =>
    let s1 := groupScr s g a b wr
    noteWrite (if rel.isSome then stampClear s1 a z else stampWrite s1 g a z) g a z false rel
  | .dram pa lat _ => noteWrite (dramWrite s g.ctx pa lat b wr) g (dramKey pa) z false rel
  | .reg pa => regStore s (.group g.core g.slot) pa z (leVal b)
  | _ => s

/-- What leaves the part for a store to a port. -/
def writeOut (e : Ext) (b : List Byte) : Out :=
  if e.peer || e.cxl then .busWrite (e.port.getD 0) e.addr b else .hostWrite (e.port.getD 0) e.addr b

/-- One lane's store outside the part: posted, or held until accepted on a peer or device-ordered page (R210, R225, R443); a
`.sys` release to a remote page is a non-posted write marked ordered (R298, R424). -/
def storeExt (m : Sent) (j : LaneJob) (e : Ext) : Sent :=
  let g := m.g
  let (s0, tag) := freshTag m.s
  let s1 := match locKey j.loc with | some k => noteWrite s0 g k j.data.length false j.rel | none => s0
  let held (s : State) (h : Bool) : Sent := { m with s := s, tags := if h then m.tags ++ [tag] else m.tags }
  match e.dev with
  | some d =>
    (match routeOf m.s d with
     | none => { m with lost := m.lost ++ [j.a] }
     | some port =>
       let sys : Bool := j.rel = some 3
       held (sendXact s1 ⟨tag, d, port, if e.blocks || sys then 4 else 3, j.data.length, g.uid, g.core, g.slot, g.ctx, g.pc, e.addr,
         sys, false, false, j.data, j.a, [], 0, false, none⟩) e.blocks)
  | none =>
    let p : Posted := ⟨tag, g.core, g.slot, g.uid, g.ctx, e.port.getD 0, e.peer, e.cxl, e.addr, j.data, g.pc, j.a, false,
      if e.cxl then extDue m.s e else 0⟩
    if extUp m.s e then held (emit { s1 with posted := s1.posted ++ [p] } (writeOut e j.data)) e.peer
    else { m with lost := m.lost ++ [j.a] }

/-! ## The lanes of an instruction (R210) -/

/-- One lane's access. -/
def laneStep (m : Sent) (j : LaneJob) : Sent :=
  match extOf j.loc, j.load with
  | none, true => loadLocal m j
  | none, false => { m with s := storeLocal m.s m.g j.rel j.loc j.data }
  | some e, true => sendLoad m j e
  | some e, false => storeExt m j e

/-- Whether a lane's access outside the part is to a device-ordered page: the lanes after it wait until it is made. -/
def laneWaits (j : LaneJob) : Bool := match j.loc with | .remote _ _ o => o | .peer .. => true | _ => false

/-- Lanes in ascending order up to the first that holds those after it: what they did, and the lanes left. -/
def runLanes : List LaneJob → Sent → Sent × List LaneJob
  | [], m => (m, [])
  | j :: r, m =>
    let m1 := laneStep m j
    if laneWaits j && m1.tags ≠ m.tags then (m1, r) else runLanes r m1

/-- The lanes of an instruction are made, or its group is held with those left; what follows a store has a later count in the order of
R294. -/
def goLanes (s : State) (g : Group) (js : List LaneJob) : State :=
  let (m, rest) := runLanes js ⟨s, g, [], []⟩
  let g1 := if rest = [] && js.any (fun j => !j.load) then released m.g else m.g
  endSent { m with g := if rest = [] then g1 else { g1 with todo := rest } } g

/-- A load of z bytes into `n` words a lane, after its checks. -/
def performLoad (x : InsWord) (z n : Nat) (sgn : Bool) (acq : Option Nat) (s : State) (g : Group) (ls : List LaneAcc) : State :=
  let ext := ls.filterMap (fun r => (extOf r.loc).map (fun e => (r, e)))
  if extHeld s g z (ext.map (fun p => p.2)) then stallOf s g
  else match downFault s ext with
  | some f => takeFault s g f
  | none => goLanes s g (ls.map (fun r => ⟨r.l, r.a, r.loc, true, z, n, x.dst, sgn, acq, none, []⟩))

/-- A load instruction on its active lanes. -/
def loadOp (x : InsWord) (z : Nat) (sgn : Bool) (acq : Option Nat) (s : State) (g : Group) : State :=
  let p := prepare s g x (active g x) (offOf g x) z z (.ld z) false
  onPrep (if acq.isNone then checkRaces z p else p) (performLoad x z (regsOf z) sgn acq)

def ldSigned : LdKind → Bool | .i8 | .i16 => true | _ => false

def execLd (k : LdKind) (x : InsWord) (s : State) : Host.Outcome State Fault Refusal :=
  withGroup s (loadOp x (ldBytes k) (ldSigned k) none s)

/-- The scope field of the acquire loads and release stores (R214). -/
def execLdAcq (k : AqKind) (x : InsWord) (s : State) : Host.Outcome State Fault Refusal :=
  withGroup s (loadOp x (aqBytes k) false (some (modF x 7 6)) s)

/-- `LDC` (R215): one access at the group's single offset, when `Active()` is not empty. -/
def execLdc (k : UcKind) (x : InsWord) (s : State) : Host.Outcome State Fault Refusal :=
  withGroup s (fun g =>
    let z := ucBytes k
    onPrep (checkRaces z (prepare s g x ((active g x).take 1) (offOf g x) z z (.ld z) false))
      (performLoad x z (regsOf z) false none))

/-- Stores in ascending lane order, after their checks; the group is held until every one that holds it is accepted (R210). -/
def performStores (s : State) (g : Group) (z : Nat) (rel : Option Nat) (l : List (LaneAcc × List Byte)) : State :=
  if extHeld s g z (l.filterMap (fun p => extOf p.1.loc)) then stallOf s g
  else goLanes s g (l.map (fun p => ⟨p.1.l, p.1.a, p.1.loc, false, p.2.length, 0, .zero, false, none, rel, p.2⟩))

/-- A store after its checks. -/
def performStore (z : Nat) (rel : Option Nat) (data : Nat → List Byte) (s : State) (g : Group) (ls : List LaneAcc) : State :=
  performStores s g z rel (ls.map (fun r => (r, data r.l)))

/-- The z low bytes of a store's data in a lane. -/
def storeData (g : Group) (x : InsWord) (z l : Nat) : List Byte :=
  leBytes z (if z = 16 then (match x.opc with | .v n => rdVs g n.toNat l 4 | _ => 0)
    else if z = 8 then src64 g x false x.opc l else src32 g x x.opc l)

def execSt (k : StKind) (x : InsWord) (s : State) : Host.Outcome State Fault Refusal :=
  withGroup s (fun g =>
    let z := stBytes k
    onPrep (checkRaces z (prepare s g x (active g x) (offOf g x) z z (.st z) true))
      (performStore z none (storeData g x z)))

/-- `ST.REL`: the group first waits as `FENCE` at the scope does (R293). -/
def execStRel (k : AqKind) (x : InsWord) (s : State) : Host.Outcome State Fault Refusal :=
  withGroup s (fun g =>
    let z := aqBytes k
    let sc := modF x 7 6
    if active g x = [] then finish s g
    else afterFence s g (sc = 3)
      (onPrep (prepare s g x (active g x) (offOf g x) z z (.st z) true) (performStore z (some sc) (storeData g x z))))

/-! ## Atomics and reductions (R220 to R222) -/

/-- The new value of one read-modify-write of 8z bits. -/
def atomNew (op : AOp) (w64 uns : Bool) (old data cmp : Nat) : Nat :=
  let n := if w64 then 64 else 32
  match op with
  | .add => (old + data) % 2 ^ n
  | .min => if ext uns data n < ext uns old n then data % 2 ^ n else old
  | .max => if ext uns old n < ext uns data n then data % 2 ^ n else old
  | .and => old &&& data
  | .or => old ||| data
  | .xor => old ^^^ data
  | .exch => data % 2 ^ n
  | .cas => if old = cmp then data % 2 ^ n else old
  | .fadd => f32Add old data

/-- The data and compare values of a lane. -/
def atomData (g : Group) (x : InsWord) (op : AOp) (w64 : Bool) (l : Nat) : Nat × Nat :=
  match op, x.opc with
  | .cas, .v n => if w64 then (rdVs g (n.toNat + 2) l 2, rdVs g n.toNat l 2) else (rdV g (n.toNat + 1) l, rdV g n.toNat l)
  | .fadd, _ => (srcF g x .f32 x.opc l, 0)
  | _, _ => (src g x w64 false x.opc l, 0)

/-- One lane's read-modify-write inside the part: the old value goes to DST when `ret`. -/
def atomLocal (x : InsWord) (op : AOp) (w64 ret : Bool) (s : State) (g : Group) (r : LaneAcc) : State × Group :=
  let z := if w64 then 8 else 4
  let ord := modF x 6 5
  let sc := modF x 8 7
  let old := locVal s z r.loc
  let d := atomData g x op w64 r.l
  let b := leBytes z (atomNew op w64 (x.mod.getLsbD 4) old d.1 d.2)
  let wr := groupWriter s g
  let rel := if 2 ≤ ord then some sc else none
  let acq := if ord % 2 = 1 then some sc else none
  let g1 := match locKey r.loc with | some k => noteRead s g k z acq | none => g
  let s1 := match r.loc with
    | .scr a => noteWrite (stampClear (groupScr s g a b wr) a z) g1 a z true rel
    | .dram pa lat _ => noteWrite (dramWrite s g.ctx pa lat b wr) g1 (dramKey pa) z true rel
    | _ => s
  (s1, if ret then putLane g1 x.dst (wide w64) r.l old else g1)

/-- The code of an operation in a link atomic's payload. -/
def aopCode : AOp → Nat
  | .add => 0 | .min => 1 | .max => 2 | .and => 3 | .or => 4 | .xor => 5 | .exch => 6 | .cas => 7 | .fadd => 8

/-- One lane's read-modify-write over the link (R222, R424 kind 6); a release at `.sys` is marked ordered (R298). -/
def atomExt (x : InsWord) (op : AOp) (w64 ret : Bool) (m : Sent) (r : LaneAcc) (e : Ext) : Sent :=
  let g := m.g
  let z := if w64 then 8 else 4
  let d := atomData g x op w64 r.l
  let dev := e.dev.getD 0
  match routeOf m.s dev with
  | none => { m with lost := m.lost ++ [r.a] }
  | some port =>
    let (s1, tag) := freshTag m.s
    let b := leBytes 1 (aopCode op) ++ leBytes 1 z ++ leBytes 1 (x.mod.getLsbD 4).toNat ++ leBytes 1 (modF x 8 5)
      ++ leBytes 8 d.1 ++ leBytes 8 d.2
    let ord : Bool := 2 ≤ modF x 6 5 && modF x 8 7 = 3
    let blocks : Bool := ret && modF x 6 5 % 2 = 1
    let sc := modF x 8 7
    let k := (locKey r.loc).getD 0
    let rel := if 2 ≤ modF x 6 5 then some sc else none
    let acq := if modF x 6 5 % 2 = 1 then some sc else none
    let s2 := sendXact (noteWrite s1 g k z true rel)
      ⟨tag, dev, port, 6, b.length, g.uid, g.core, g.slot, g.ctx, g.pc, e.addr, ord, ret, false, b, r.a, [], 0, false, none⟩
    let pl : PendLoad := ⟨tag, x.dst, wide w64, z, false, [r.l], [e.addr], blocks, none, e.dev, g.pc, restartPc g, true, [r.a], 0, acq, k⟩
    { m with s := s2, g := if ret then { g with loads := g.loads ++ [pl] } else g, tags := if blocks then m.tags ++ [tag] else m.tags }

/-- The lanes of an atomic, ascending (R221). -/
def performAtom (x : InsWord) (op : AOp) (w64 ret : Bool) (s : State) (g : Group) (ls : List LaneAcc) : State :=
  if extHeld s g 20 (ls.filterMap (fun r => extOf r.loc)) then stallOf s g
  else
    let m := ls.foldl (fun m r => match extOf r.loc with
      | none => let sg := atomLocal x op w64 ret m.s m.g r; { m with s := sg.1, g := sg.2 }
      | some e => atomExt x op w64 ret m r e) (⟨s, g, [], []⟩ : Sent)
    endSent { m with g := released m.g } g

/-- An atomic or reduction: a release first waits as a fence at its scope does (R293); the index is not scaled (R220). -/
def atomOp (op : AOp) (w64 ret : Bool) (x : InsWord) (s : State) : Host.Outcome State Fault Refusal :=
  withGroup s (fun g =>
    let z := if w64 then 8 else 4
    let k := onPrep (prepare s g x (active g x) (memOff g x 0 (x.mod.getLsbD 3)) z z .atom true) (performAtom x op w64 ret)
    if active g x = [] then finish s g
    else if 2 ≤ modF x 6 5 then afterFence s g (modF x 8 7 = 3) k
    else k)

def execAtomAdd (w : Bool) (x : InsWord) (s : State) : Host.Outcome State Fault Refusal := atomOp .add w true x s
def execAtomMin (w : Bool) (x : InsWord) (s : State) : Host.Outcome State Fault Refusal := atomOp .min w true x s
def execAtomMax (w : Bool) (x : InsWord) (s : State) : Host.Outcome State Fault Refusal := atomOp .max w true x s
def execAtomAnd (w : Bool) (x : InsWord) (s : State) : Host.Outcome State Fault Refusal := atomOp .and w true x s
def execAtomOr (w : Bool) (x : InsWord) (s : State) : Host.Outcome State Fault Refusal := atomOp .or w true x s
def execAtomXor (w : Bool) (x : InsWord) (s : State) : Host.Outcome State Fault Refusal := atomOp .xor w true x s
def execAtomExch (w : Bool) (x : InsWord) (s : State) : Host.Outcome State Fault Refusal := atomOp .exch w true x s
def execAtomCas (w : Bool) (x : InsWord) (s : State) : Host.Outcome State Fault Refusal := atomOp .cas w true x s
def execAtomFadd (x : InsWord) (s : State) : Host.Outcome State Fault Refusal := atomOp .fadd false true x s
def execRedAdd (w : Bool) (x : InsWord) (s : State) : Host.Outcome State Fault Refusal := atomOp .add w false x s
def execRedMin (w : Bool) (x : InsWord) (s : State) : Host.Outcome State Fault Refusal := atomOp .min w false x s
def execRedMax (w : Bool) (x : InsWord) (s : State) : Host.Outcome State Fault Refusal := atomOp .max w false x s
def execRedAnd (w : Bool) (x : InsWord) (s : State) : Host.Outcome State Fault Refusal := atomOp .and w false x s
def execRedOr (w : Bool) (x : InsWord) (s : State) : Host.Outcome State Fault Refusal := atomOp .or w false x s
def execRedXor (w : Bool) (x : InsWord) (s : State) : Host.Outcome State Fault Refusal := atomOp .xor w false x s
def execRedFadd (x : InsWord) (s : State) : Host.Outcome State Fault Refusal := atomOp .fadd false false x s

/-! ## Fences (R223, R224, R303) -/

def execFence (x : InsWord) (s : State) : Host.Outcome State Fault Refusal :=
  withGroup s (fun g =>
    if active g x = [] then finish s g
    else afterFence s g (modF x 4 3 = 3) (finish s (noteFence g (modF x 4 3))))

/-- The lines that fetch already holds for a group in sequence, which a `FENCE.X` of it does not reach (R209, R305). -/
def linesHeld (s : State) (g : Group) : List (Nat × BitVec 512) :=
  let line := g.pc.toNat / 64 * 64
  [line, line + 64].filterMap (fun a =>
    if Config.fetchAhead s.turn a then (lineInBuf s g.core g.ctx a).map (fun b => (a, BitVec.ofNat 512 b)) else none)

/-- `FENCE.X`: waits as `FENCE.dev`, or `FENCE.sys` with `LNK`; `FETCH` discards the core's lines of the context. -/
def execFenceX (x : InsWord) (s : State) : Host.Outcome State Fault Refusal :=
  withGroup s (fun g =>
    let c (i : Nat) : Bool := x.mod.getLsbD (3 + i)
    let cls := [1, 2, 3, 4, 5, 6].filter c
    if active g x = [] then finish s g
    else afterFence s g (c 4)
      (let s1 := if c 6 then { s with ibuf := s.ibuf.filter (fun l => l.core ≠ g.core || l.ctx ≠ g.ctx) } else s
       let g1 := noteFenceX g (c 0) cls (if c 4 then 3 else 2)
       finish s1 (if c 6 then { g1 with fetched := linesHeld s g } else g1)))

/-! ## Shaped accesses (R205, R206, R216, R217) -/

/-- The result words of `LDS` for a lane. -/
def ldsWords (s : State) (mode : Nat) (q : ShapedAcc) : List Nat :=
  let c := planeVal s q.cuffVa q.cuff
  let b := planeVal s q.bandVa q.band
  let sel := (cuffSel c).getD 0
  let code (k : Nat) : Nat := dramVal s (q.pa + k / 2) 1 / 2 ^ (4 * (k % 2)) % 16
  let v (k : Nat) : FVal := sb4Decode sel (code k) c b
  match mode with
  | 0 => [dramVal s q.pa 4, c]
  | 1 => (List.range 4).map (fun k => rnF32 (v k))
  | _ => (List.range 4).map (fun k => roundF fmtBf16 0 false (v (2 * k)) + 65536 * roundF fmtBf16 0 false (v (2 * k + 1)))

/-- The row that a shaped access reads, and those of its planes (R401, R408). -/
def shapeTouch (s : State) (mode : Nat) (q : ShapedAcc) : State :=
  let plane (s : State) (p : Except Flt (TlbEnt × Loc)) : State := match p with | .ok e => unitTouch s e.2 2 | .error _ => s
  let s1 := plane (touchRow s q.pa false q.lat) q.cuff
  if mode = 0 then s1 else plane s1 q.band

def execLds (x : InsWord) (s : State) : Host.Outcome State Fault Refusal :=
  withGroup s (fun g =>
    let mode := modF x 7 6
    let z := if mode = 1 then 2 else 4
    onPrep (prepare s g x (active g x) (offOf g x) z z (.lds (mode ≠ 0)) false) (fun s g ls =>
      let qs := ls.filterMap (fun r => (shapedAcc s (gBuf g) g.ctx r).toOption)
      let g1 := qs.foldl (fun g q => match x.dst with | .v r => wrVs g r.toNat q.l (ldsWords s mode q) | _ => g) g
      finish (qs.foldl (fun s q => shapeTouch s mode q) s) g1))

/-- The quantised block of a lane (R41); none for a quantise fault. -/
def stqBlock (g : Group) (x : InsWord) (l : Nat) : Option (Nat × Nat) :=
  match x.opc with
  | .v c => quantiseBlock ((List.range 8).map (fun j => rdV g (c.toNat + j) l)) (src32 g x x.dst l) (modF x 9 6) (x.mod.getLsbD 3)
  | _ => none

/-- The two stores of a lane of `STQ`: its codes, then its cuff. -/
def stqStores (q : ShapedAcc) (codes cuff : Nat) : List (LaneAcc × List Byte) :=
  (⟨q.l, q.a, .dram q.pa q.lat false⟩, leBytes 4 codes) ::
    (match q.cuff with | .ok e => [(⟨q.l, q.cuffVa, e.2⟩, leBytes 2 cuff)] | .error _ => [])

/-- `STQ`: SX does not exist; each lane stores its codes, then its cuff. -/
def execStq (x : InsWord) (s : State) : Host.Outcome State Fault Refusal :=
  withGroup s (fun g =>
    onPrep (prepare s g x (active g x) (memOff g x (modF x 5 4) false) 4 4 .stq true) (fun s g ls =>
      let qs := ls.filterMap (fun r => (shapedAcc s (gBuf g) g.ctx r).toOption)
      onPrep (orFault s g (qs.filterMap (fun q => if (stqBlock g x q.l).isNone then some (q.l, mkFlt 11 q.a) else none)) (.go s g ls))
        (fun s g _ => performStores s g 4 none (qs.flatMap (fun q => match stqBlock g x q.l with
          | some b => stqStores q b.1 b.2
          | none => [])))))

/-! ## Tiles (R218) and pattern tables (R153) -/

/-- The lanes that supply row offsets: rows 0 to n − 1 of each tile. -/
def tileLanes (w n : Nat) : List Nat := (List.range (w / 32)).flatMap (fun q => (List.range n).map (fun r => 32 * q + r))

/-- The words of one destination lane, from the rows of its tile. -/
def tileWords (b8 : Bool) (row : Nat → List Byte) (t : Nat) : List Nat :=
  let e16 (r c : Nat) : Nat := fld (row r) (2 * c) 2
  let e8 (r c : Nat) : Nat := fld (row r) c 1
  if b8 then (List.range 8).map (fun k => (List.range 4).foldl (fun v j => v + 2 ^ (8 * j) * e8 (4 * k + j) t) 0)
  else (List.range 4).map (fun k => e16 (8 * (t % 2) + 2 * k) (t / 2) + 65536 * e16 (8 * (t % 2) + 2 * k + 1) (t / 2))

/-- `LDMT`: row offsets are read whatever the supplying lane's state; an out-of-range row delivers zeros and switches off its
lane if it lives. -/
def execLdmt (b8 : Bool) (x : InsWord) (s : State) : Host.Outcome State Fault Refusal :=
  withGroup s (fun g =>
    if active g x = [] then finish s g
    else
      let sup := tileLanes g.width (if b8 then 32 else 16)
      let pl (l : Nat) : Place := placeIn g (modF x 2 0) (offOf g x l) 32 l
      let outs := sup.filterMap (fun l => match pl l with | .off o => if g.live.getLsbD l then some (l, o) else none | _ => none)
      let (s1, g1) := lanesOff s g outs
      let scr := sup.filterMap (fun l => match pl l with | .scr a => some (LaneAcc.mk l (placeAddr s g (.scr a)) (.scr a)) | _ => none)
      onPrep (orFault s1 g1 (scr.filterMap (fun r => if offOf g x r.l % 32 = 0 then none else some (r.l, mkFlt 7 r.a)))
          (orFault s1 g1 (scr.filterMap (raceFlt s1 g1 32)) (.go s1 g1 scr)))
        (fun s g2 _ =>
          let row (q r : Nat) : List Byte := match pl (32 * q + r) with
            | .scr a => memBytes s.scr a 32
            | _ => leBytes 32 0
          let lanes := (active g x).filter (fun l => g2.live.getLsbD l)
          let g3 := lanes.foldl (fun h l => match x.dst with
            | .v r => wrVs h r.toNat l (tileWords b8 (row (l / 32)) (l % 32))
            | _ => h) g2
          let g4 := scr.foldl (fun h r => match r.loc with | .scr a => noteRead s h a 32 none | _ => h) g3
          finish s g4))

/-- `XPLD` (R153); its offset is a signed base as in R193. The records of its alignment and lock faults name the segment offset, and no
lane (log entries 18 and 19). -/
def execXpld (x : InsWord) (s : State) : Host.Outcome State Fault Refusal :=
  withGroup s (fun g =>
    let o : Int := sext (src32 g x x.opa 0) 32
    let t := modF x 6 3
    let acts := active g x
    let sg := segWin g (modF x 2 0)
    if acts = [] then finish s g
    else if o % 4 ≠ 0 then takeFault s g (mkFlt 7 (wrapN o 64))
    else if s.ptLock.contains (ptabCore g * 16 + t) then takeFault s g (permFlt .tableLock (wrapN o 64))
    else if o < 0 || (sg.limit : Int) < o + 384 then
      let (s1, g1) := lanesOff s g (acts.map (fun l => (l, o)))
      finish s1 g1
    else
      let a := o.toNat
      let ps := (List.range 96).map (fun i => LaneAcc.mk 0 (a + 4 * i) (.scr (segAddr sg (a + 4 * i))))
      onPrep (orFault s g ((ps.filterMap (raceFlt s g 4)).map (fun p => (acts.headD 0, p.2))) (.go s g ps)) (fun s g ps =>
        let b := ps.flatMap (fun r => match r.loc with | .scr p => memBytes s.scr p 4 | _ => [])
        let g1 := ps.foldl (fun h r => match r.loc with | .scr p => noteRead s h p 4 none | _ => h) g
        finish { s with ptab := SMap.putAll 0 s.ptab (b.zipIdx.map (fun p => (ptabBase (ptabCore g) t + p.2, p.1))) } g1))

/-! ## Completion of accesses outside the part (R210, R222, R225 to R227) -/

/-- The group that waits for a tag. -/
def loadGroup (s : State) (tag : Nat) : Option (Group × PendLoad) :=
  s.groups.findSome? (fun g => (g.loads.find? (fun p => p.tag = tag)).map (fun p => (g, p)))

/-- What a group is held for ends (R210): once nothing holds it the lanes left make their accesses, or it goes on at `Next`. -/
def holdEnds (s : State) (g : Group) (tag : Nat) : State :=
  match g.wait with
  | .ext tags =>
    if !tags.contains tag then setGroup s g
    else if tags.erase tag = [] then (if g.todo = [] then finish s g else goLanes s { g with todo := [] } g.todo)
    else setGroup s { g with wait := .ext (tags.erase tag) }
  | _ => setGroup s g

/-- A pending load leaves its group. -/
def loadEnds (s : State) (g : Group) (tag : Nat) : State :=
  holdEnds s { g with loads := g.loads.filter (fun p => p.tag ≠ tag) } tag

/-- A load's data returns: the destinations of its lanes are written, and what it reads is observed, as of the latest write sent there
(R294, log entry 43); a group in ENDING has dropped them (R158). -/
def loadReturns (s : State) (tag : Nat) (vals : List (BitVec 128)) : State :=
  match loadGroup s tag with
  | none => s
  | some (g, p) =>
    let g1 := (p.lanes.zipIdx).foldl (fun g li =>
      putLane g p.dst p.words li.1 (extendLd p.signed p.bytes ((vals.getD li.2 0).toNat % 2 ^ (8 * p.bytes)))) g
    loadEnds s (if p.key = 0 then g1 else noteRead s g1 p.key p.bytes p.acq) tag

/-- A load fails: fatal, and precise at a blocking load (R225), imprecise otherwise (R227). No data is returned. -/
def loadFails (s : State) (tag reason : Nat) : State :=
  match loadGroup s tag with
  | none => s
  | some (g, p) =>
    let g1 := { g with loads := g.loads.filter (fun q => !(q.blocking && q.pc = p.pc)), todo := [] }
    if p.blocking && p.port.isSome then takeFault s g1 { mkFlt reason (p.vas.headD 0) with lanes := maskOf p.lanes }
    else lateFault (loadEnds s g tag) g.ctx g.core g.slot reason p.pc (p.vas.headD 0)

/-- A load completes with its data, or with an error: an aborted completion, or poisoned data of an expander (R417, R443). -/
def execLoadDataReturn (s : State) : Host.Outcome State Fault Refusal :=
  .next (if s.arg.status = .error then loadFails s s.arg.tag 6 else loadReturns s s.arg.tag s.arg.lanes)

/-- The completion timeout of a load of a host, CXL or peer page has expired (R225). -/
def execHostLoadTimeout (s : State) : Host.Outcome State Fault Refusal :=
  .next (match loadGroup s s.arg.tag with
    | some (_, p) => if p.due ≠ 0 && p.due ≤ s.clock.toNat then loadFails s s.arg.tag 6 else s
    | none => s)

/-- The transactions that a send window held and now has room for go out, in order and by the route of now; one that no route reaches any
more ends as one that is not answered (R427, R429, R431). -/
def sendHeld (s : State) : State :=
  (s.xacts.filter (fun x => x.unsent)).foldl (fun s x =>
    if !linkRoom s x.dst x.size || s.xacts.any (fun y => y.unsent && y.dst = x.dst && y.tag < x.tag) then s
    else
      let y := { x with unsent := false, sent := s.clock.toNat, port := (routeOf s x.dst).getD 16 }
      let s1 := { s with xacts := updWhere s.xacts (fun z => z.tag = x.tag) (fun _ => y) }
      if (routeOf s x.dst).isSome then emitXact s1 y else enqueueOnce s1 .linkTimeout { tag := x.tag }) s

/-- An outstanding transaction leaves: a SIGNAL packet whose write it was goes on, what its send window held is sent, and interrupts that
waited for it go out (R431, R443). -/
def dropXact (s : State) (tag : Nat) : State :=
  sendIrqs (sendHeld
    ((s.pkts.filter (fun k => k.kind = 4 && k.stage = 0 && k.due = tag)).foldl (fun s k =>
      enqueueOnce s .signalDone { slot := k.slot, ridx := k.ridx, ok := true, link := true })
      { s with xacts := s.xacts.filter (fun x => x.tag ≠ tag)
               irqs := s.irqs.map (fun q => { q with tags := q.tags.filter (fun t => t ≠ tag) }) }))

/-- A group held at a store until its target accepts it goes on (R210, R443). -/
def storeAccepted (s : State) (tag : Nat) : State :=
  match s.groups.find? (fun g => (match g.wait with | .ext tags => tags.contains tag | _ => false) && g.loads.all (fun p => p.tag ≠ tag)) with
  | some g => holdEnds s g tag
  | none => s

end Sys2Proof.Machine
end

