-- ==== Sys2Proof/Machine/Launch.lean ====
section
/-! DEFINITION. Launches, teams, pawns and the tailor group (R18 to R21, R159, R160, R176 to R192): admission and placement,
`SPAWN`, `FETCHW`, the gatherers, and the end of groups, teams and launches. -/

namespace Sys2Proof.Machine
open Sys2Proof

/-! ## The launch descriptor (R178) -/

def lKind (l : Launch) : Nat := fld l.desc 0 1
def widthOf (code : Nat) : Nat := 16 * 2 ^ code
def lWidth (l : Launch) : Nat := widthOf (fld l.desc 1 1)
def lFlag (l : Launch) (i : Nat) : Bool := bit (fld l.desc 2 2) i
def lGroups (l : Launch) : Nat := fld l.desc 4 2
def lVregs (l : Launch) : Nat := fld l.desc 6 2
def lTeams (l : Launch) : Nat := fld l.desc 8 4
/-- GTO in ticks of `CLOCK`: units of 100 ns are 105 ticks; 0 means 2 µs. -/
def lGto (l : Launch) : Nat := if fld l.desc 14 2 = 0 then 2100 else 105 * fld l.desc 14 2
def lEntry (l : Launch) : Nat := fld l.desc 16 8
def lScratch (l : Launch) : Nat := fld l.desc 24 4
def lExita (l : Launch) : Nat := fld l.desc 64 8
def lCompa (l : Launch) : Nat := fld l.desc 72 8

/-! ## What a core can take (R159, R176, R177) -/

/-- The lowest free slot of a quarter; slot 16 of quarter 0 is the tailor slot. -/
def freeSlotIn (occ : List Nat) (q : Nat) : Option Nat :=
  ((List.range (if q = 0 then 16 else 17)).map (fun k => q * 17 + k)).find? (fun k => !occ.contains k)

/-- The slot of a group bound to a quarter, or passed on to the next quarters that have room. -/
def slotFor (occ : List Nat) (q : Nat) (bound : Bool) : Option Nat :=
  if bound then freeSlotIn occ q else (List.range 4).findSome? (fun i => freeSlotIn occ ((q + i) % 4))

/-- The slots of n groups placed on a core in order (R159). -/
def slotsFor (quads : Bool) : Nat → List Nat → Nat → Option (List Nat)
  | 0, _, _ => some []
  | n + 1, occ, k =>
    match slotFor occ (k % 4) quads with
    | none => none
    | some sl => (slotsFor quads n (sl :: occ) (k + 1)).map (fun r => sl :: r)

def occupied (s : State) (core : Nat) : List Nat := (s.groups.filter (fun g => g.core = core)).map (fun g => g.slot)
def regsUsed (s : State) (core : Nat) : Nat :=
  (s.groups.filter (fun g => g.core = core && g.kind ≠ .tailor)).foldl (fun t g => t + g.vregs * g.width) 0

/-- The scratch windows that lie on a core, as offsets and sizes. -/
def windowsOn (s : State) (core : Nat) : List (Nat × Nat) :=
  s.teams.flatMap (fun t => (t.win.parts.filter (fun p => p / 2 ^ 19 = core)).map (fun p => (p % 2 ^ 19, t.win.psize)))

/-- Whether an offset range is free of windows. -/
def rangeFree (ws : List (Nat × Nat)) (b n : Nat) : Bool := n = 0 || ws.all (fun w => w.1 + w.2 ≤ b || b + n ≤ w.1)

/-- The lowest slice offset where `n` bytes are free of the listed windows, below the reserved 16 KiB (log entry 7). -/
def windowOffset (ws : List (Nat × Nat)) (n : Nat) : Option Nat :=
  ((0 :: ws.map (fun w => w.1 + w.2)).filter (fun b => b + n ≤ 507904 && rangeFree ws b n)).foldl (fun m b =>
    match m with
    | none => some b
    | some a => some (min a b)) none

/-- Where a team or pawn group goes: for each of its cores the slots of its groups, and the slice offset of its window. -/
structure Spot where
  cores : List (Nat × List Nat)
  off : Nat
  deriving DecidableEq, Repr, Inhabited

/-- A team of n groups on one core, when its slots, registers and window are free. -/
def fitCore (s : State) (n regs w : Nat) (quads : Bool) (core : Nat) : Option Spot :=
  if 130048 < regsUsed s core + n * regs then none
  else match slotsFor quads n (occupied s core) 0, windowOffset (windowsOn s core) w with
    | some sl, some b => some ⟨[(core, sl)], b⟩
    | _, _ => none

/-- A team on a core pair: the first half of its groups on the even core, each core holding half of the window (R159, R177). -/
def fitPair (s : State) (n regs w : Nat) (quads : Bool) (core : Nat) : Option Spot :=
  let odd := core + 1
  let n0 := (n + 1) / 2
  if 130048 < regsUsed s core + n0 * regs || 130048 < regsUsed s odd + (n - n0) * regs then none
  else match slotsFor quads n0 (occupied s core) 0, slotsFor quads (n - n0) (occupied s odd) 0,
      windowOffset (windowsOn s core ++ windowsOn s odd) (w / 2) with
    | some a, some c, some b => some ⟨[(core, a), (odd, c)], b⟩
    | _, _, _ => none

/-- Whether a team spans a core pair (R159): more than 67 groups (64 with quads), or resources that fit no single core. -/
def spansPair (l : Launch) : Bool :=
  if lFlag l 0 then 64 < lGroups l
  else 67 < lGroups l || 130048 < lGroups l * lVregs l * lWidth l || 507904 < lScratch l

/-- The spots of one team in a field. -/
def spotsIn (s : State) (l : Launch) (f : Nat) : List Spot :=
  let cs := (List.range 24).map (fieldCore f)
  if spansPair l then
    (cs.filter (fun c => c % 2 = 0)).filterMap (fitPair s (lGroups l) (lVregs l * lWidth l) (lScratch l) (lFlag l 0))
  else cs.filterMap (fitCore s (lGroups l) (lVregs l * lWidth l) (lScratch l) (lFlag l 0))

/-- One of a field's spots (R454: the choice is open). -/
def chooseSpot (s : State) (l : List Spot) : Option Spot := if l.isEmpty then none else l[Config.place s.free % l.length]?

/-! ## Fields (R18 to R20) -/

/-- The virtual fields of a context: those its remap sends into its partition. -/
def ctxFields (s : State) (c : Ctx) : List Nat :=
  (List.range 16).filter (fun v => (partOf s c.part).fields.contains (physField c v))

/-- The field that is home to a hint address: a local normal, device-ordered or shaped DRAM page whose home lies in the
partition (R19). -/
def hintField (s : State) (c : Ctx) (va : Nat) : Option Nat :=
  match lookup s (partBuf s c.part) c.id va with
  | .error _ => none
  | .ok t => match locOf s t va with
    | .dram pa _ _ =>
      let f := homeStack pa
      if regionOf s pa = .dram && (partOf s c.part).fields.contains f then some f else none
    | _ => none

/-- Insert by ascending key. -/
def insertBy (key : Nat → Nat) (a : Nat) : List Nat → List Nat
  | [] => [a]
  | b :: r => if key a < key b then a :: b :: r else b :: insertBy key a r
def sortBy (key : Nat → Nat) (l : List Nat) : List Nat := l.foldr (insertBy key) []

/-- Fields nearest to one first: hops between centres, other dies last, then the lower number (R18), taken as the physical one (DESIGN
CHOICE, log entry 46). -/
def nearest (f : Nat) (l : List Nat) : List Nat := sortBy (fun g => fieldHops f g * 16 + g) l

/-- The physical fields a launch may use, in order, and whether a hint or mask was ignored or dropped in part (R19). Without a hint
or a mask the order is that of the virtual fields (DEDUCED from R20, log entry 46). -/
def launchFields (s : State) (l : Launch) : List Nat × Bool :=
  match ctxOf s l.ctx with
  | none => ([], false)
  | some c =>
    let all := ctxFields s c
    let m := fld l.desc 48 2
    let named := (List.range 16).filter (fun v => bit m v)
    let kept := named.filter (fun v => all.contains v)
    let maskOn := lFlag l 4 && !kept.isEmpty
    let maskIgn := lFlag l 4 && (kept ≠ named || kept = [])
    let vs := if maskOn then kept else all
    let ps := vs.map (physField c)
    if lFlag l 3 then
      match hintField s c (fld l.desc 40 8) with
      | none => (ps, true)
      | some f => if ps.contains f then (nearest f ps, maskIgn) else (ps, true)
    else (ps, maskIgn)

/-- The field of a usable hint inside the allowed fields. -/
def usableHint (s : State) (l : Launch) : Option Nat :=
  match ctxOf s l.ctx with
  | none => none
  | some c => if lFlag l 3 then (hintField s c (fld l.desc 40 8)).filter (fun f => (launchFields s l).1.contains f) else none

/-- The dies that the LAUNCH at the head of a slot may use (R334). -/
def headDies (s : State) (k : Nat) : List Nat :=
  let h := slotAt s k
  match (headPkt s h).bind (fun b => agentLoad s (partBuf s h.part) h.ctx (fld b 8 8) 128) with
  | some d =>
    let l : Launch := { (default : Launch) with ctx := h.ctx, part := h.part, desc := d }
    if lKind l = 3 then [] else (launchFields s l).1.map (fun f => f / 8)
  | none => []

/-- The dies on which a launch gets no new team: those that a head LAUNCH of an earlier deadline waits for (R334). -/
def heldDies (s : State) (l : Launch) : List Nat :=
  (List.range 64).flatMap (fun k =>
    if (slotAt s k).part = l.part && k ≠ l.hwslot && sooner s k l.hwslot && couldStart s k && headKind s k = 1 then headDies s k
    else [])

/-- The fields on which teams of a launch may be placed now, in order. -/
def openFields (s : State) (l : Launch) : List Nat :=
  let held := heldDies s l
  (launchFields s l).1.filter (fun f => !held.contains (f / 8))

/-! ## Starting groups (R177, R180) -/

/-- A segment over a window. -/
def winSeg (parts : List Nat) (psize limit : Nat) : Seg := ⟨parts, psize, 0, limit⟩

/-- A scratch range of a window is zeroed, its stamps, releases and phases dropped (R177). -/
def clearScr (s : State) (a n : Nat) : State :=
  dropStamps { s with scr := SMap.clear s.scr a (a + n), phases := SMap.clear s.phases (a * 65536) ((a + n) * 65536) } a n

/-- A group of a launch as dispatch leaves it, for any kind (R180). -/
def freshGroup (s : State) (l : Launch) (kind : GKind) (core slot uid team : Nat) (seg nseg : Seg) (lanes : Nat) : Group :=
  let m : W64 := widthMask lanes
  { (default : Group) with
    uid := uid, core := core, slot := slot, ctx := l.ctx, part := l.part, lh := l.lh, kind := kind, priv := lFlag l 2
    quads := lFlag l 0, width := lWidth l, vregs := lVregs l, teamId := team, teamN := 1, st := .ready
    pc := BitVec.ofNat 64 (lEntry l), entry := BitVec.ofNat 64 (lEntry l), em := m, live := m
    segS := seg, segN := nseg, winS := seg, winN := nseg, cbase := BitVec.ofNat 64 (fld l.desc 32 8)
    clim := BitVec.ofNat 32 (fld l.desc 28 4), stamp := s.clks, since := s.clks, sub := BitVec.allOnes 64
    vc := SMap.put 0 l.vc uid 1 }

/-- An illegal entry at a dispatch is a fault at the dispatched PC (R55, R184), once the line can be read. -/
def checkEntry (s : State) (core slot : Nat) : State :=
  match groupAt s core slot with
  | some g => (match entryAt s (gBuf g) core g.ctx g.pc with
    | some true => s
    | some false => takeFault s g (illegal 5)
    | none => setGroup s { g with land := some g.pc })
  | none => s

/-- The window of a spot: one part a core. -/
def spotWin (sp : Spot) (w : Nat) : Seg :=
  let n := sp.cores.length
  winSeg (sp.cores.map (fun c => c.1 * 2 ^ 19 + sp.off)) (w / n) w

/-- A team's window zeroed and its groups placed; `nseg` is its neighbourhood's N window and `nb` its index there. -/
def placeTeam (s : State) (l : Launch) (kind : GKind) (t nb : Nat) (sp : Spot) (nseg : Seg) : State :=
  let w := lScratch l
  let seg := spotWin sp w
  let team := s.nextId
  let s1 := seg.parts.foldl (fun s p => clearScr s p seg.psize) { s with nextId := s.nextId + 1 + lGroups l, free := s.free + 1 }
  let at' := sp.cores.flatMap (fun c => c.2.map (fun sl => (c.1, sl)))
  let gs := at'.zipIdx.map (fun p =>
    let g := freshGroup s1 l kind p.1.1 p.1.2 (team + 1 + p.2) team seg nseg (lWidth l)
    { g with index := BitVec.ofNat 32 p.2, team := BitVec.ofNat 32 t, teamN := BitVec.ofNat 32 (lTeams l)
             nbh := BitVec.ofNat 32 nb })
  let tm : Team := ⟨team, l.lh, t, lGroups l, lGroups l, 0, 0, 0, List.replicate (lGroups l) 0, false, 0, [], seg,
    sp.cores.map (fun c => c.1)⟩
  let s2 := { s1 with groups := s1.groups ++ gs, teams := s1.teams ++ [tm] }
  let s3 := updLaunch s2 l.lh (fun l => { l with placed := l.placed ++ [t] })
  at'.foldl (fun s p => checkEntry s p.1 p.2) s3

/-! ## Admission (R181) -/

/-- The lowest team index not yet placed. -/
def nextTeam (l : Launch) : Option Nat := (List.range (l.placed.length + 1)).find? (fun t => !l.placed.contains t && t < lTeams l)

/-- The next team of a grid or gang launch on the first field with room. -/
def admitOne (s : State) (l : Launch) (kind : GKind) : Option State :=
  match nextTeam l with
  | none => none
  | some t =>
    match (openFields s l).findSome? (fun f => chooseSpot s (spotsIn s l f)) with
    | none => none
    | some sp => some (placeTeam s l kind t 0 sp ⟨[], 0, 0, 0⟩)

/-- All teams of a gang, or none. -/
def admitGang : Nat → State → W32 → Option State
  | 0, s, _ => some s
  | n + 1, s, lh =>
    match (launchOf s lh).bind (fun l => admitOne s l .gang) with
    | none => none
    | some s1 => admitGang n s1 lh

/-- The cores of a w × h rectangle, row-major, from a top-left core; none when it leaves the die. -/
def rectangle (w h top : Nat) : Option (List Nat) :=
  if top % 16 + w ≤ 16 && top % 192 / 16 + h ≤ 12 then
    some ((List.range h).flatMap (fun r => (List.range w).map (fun c => top + 16 * r + c)))
  else none

/-- A free rectangle's spots within the allowed fields (R21). A rectangle is free when every core of it has room for its team (DESIGN
CHOICE, log entry 46). -/
def rectSpots (s : State) (l : Launch) (fs : List Nat) (top : Nat) : Option (List Spot) :=
  match rectangle (fld l.desc 12 1) (fld l.desc 13 1) top with
  | none => none
  | some cs =>
    let sp := cs.map (fun c => if fs.contains (coreField c) then
      fitCore s (lGroups l) (lVregs l * lWidth l) (lScratch l) (lFlag l 0) c else none)
    if sp.all Option.isSome then some (sp.filterMap id) else none

/-- All teams of a neighbourhood on the free rectangle that R21 picks. -/
def admitNbh (s : State) (l : Launch) : Option State :=
  let fs := openFields s l
  let tops := match usableHint s l with
    | some f => sortBy (fun c => coreHops c (fieldCore f 0) * 384 + c) (List.range 384)
    | none => List.range 384
  match tops.findSome? (rectSpots s l fs) with
  | none => none
  | some sps =>
    let w := lScratch l
    let nseg := winSeg (sps.map (fun sp => (sp.cores.headD (0, [])).1 * 2 ^ 19 + sp.off)) w (lTeams l * w)
    some (sps.zipIdx.foldl (fun s p => match launchOf s l.lh with
      | some l => placeTeam s l .nbh p.2 p.2 p.1 nseg
      | none => s) s)

/-- The started launches of a partition, in the order of their slots' deadlines (R334). -/
def startedLaunches (s : State) (p : Nat) : List Launch :=
  (s.launches.filter (fun l => l.part = p && l.started && !l.done)).foldr (fun l r =>
    let before := r.takeWhile (fun m => sooner s m.hwslot l.hwslot)
    before ++ [l] ++ r.drop before.length) []

/-- Whether a launch's teams may still be placed. -/
def teamsLeft (l : Launch) : Bool := lKind l = 0 && (nextTeam l).isSome

/-- Whether a launch's slot is throttled (R333). -/
def heldBack (s : State) (l : Launch) : Bool := (slotAt s l.hwslot).thr

/-- Whether a started launch takes free resources now: a team of it fits, or a queue of its pawns that is due. -/
def takesNow (s : State) (due : Queued → Bool) (l : Launch) : Bool :=
  ctxRuns s l.ctx && !heldBack s l
    && ((teamsLeft l && (admitOne s l .grid).isSome) || s.pawns.any (fun q => q.pawn.lh = l.lh && !q.aside && due q))

/-- The launches that come before one for free resources, and take some now (R334). -/
def ahead (s : State) (due : Queued → Bool) (l : Launch) : List Launch :=
  (startedLaunches s l.part).filter (fun m => m.lh ≠ l.lh && sooner s m.hwslot l.hwslot && takesNow s due m)

/-- A launch's own steps for free resources: its next team, then its queues of pawns. -/
def offer (s : State) (l : Launch) : State :=
  (s.pawns.filter (fun q => q.pawn.lh = l.lh && !q.aside)).foldl (fun s q =>
      enqueueOnce s .pawnGroupDispatch { field := q.field, lh := l.lh, pc := q.pawn.pc })
    (if teamsLeft l then enqueueOnce s .teamAdmit { lh := l.lh } else s)

/-- The pawns of a queue: a launch's of one PC, at one virtual field of its context, oldest first. -/
def queueOf (s : State) (f : Nat) (lh : W32) (pc : W64) : List Queued :=
  s.pawns.filter (fun q => q.field = f && q.pawn.lh = lh && q.pawn.pc = pc && !q.aside)

/-- The field where a launch's pawns of a virtual field gather. -/
def launchField (s : State) (l : Launch) (v : Nat) : Nat := match ctxOf s l.ctx with | some c => physField c v | none => v

/-- A pawn group's spots in a field: any core with a free slot of any quarter (R454), or a core pair whose even core has one (R159,
R177). -/
def pawnSpots (s : State) (l : Launch) (f : Nat) : List Spot :=
  let cs := (List.range 24).map (fieldCore f)
  let free (c : Nat) : List Nat :=
    if 130048 < regsUsed s c + lVregs l * lWidth l then [] else (List.range 4).filterMap (freeSlotIn (occupied s c))
  if 507904 < lScratch l then
    (cs.filter (fun c => c % 2 = 0)).flatMap (fun c =>
      match windowOffset (windowsOn s c ++ windowsOn s (c + 1)) (lScratch l / 2) with
      | some b => (free c).map (fun k => ⟨[(c, [k]), (c + 1, [])], b⟩)
      | none => [])
  else
    cs.flatMap (fun c => match windowOffset (windowsOn s c) (lScratch l) with
      | some b => (free c).map (fun k => ⟨[(c, [k])], b⟩)
      | none => [])

/-- Whether a queue of pawns is due (R183): full, or its oldest has waited GTO; and fits. -/
def gatherDue (s : State) (l : Launch) (f : Nat) (pc : W64) : Bool :=
  match queueOf s f l.lh pc with
  | q :: _ => q.clk + lGto l ≤ s.clock.toNat
  | [] => false
def pawnsDue (s : State) (q : Queued) : Bool :=
  match launchOf s q.pawn.lh with
  | some l =>
    (lWidth l ≤ (queueOf s q.field l.lh q.pawn.pc).length || gatherDue s l q.field q.pawn.pc)
      && !(pawnSpots s l (launchField s l q.field)).isEmpty
  | none => false

/-- The next team of a started grid is admitted when it fits and no earlier launch takes the resources (R334). -/
def admitTeam (s : State) (lh : W32) : State :=
  match launchOf s lh with
  | none => s
  | some l =>
    if !l.started || l.done || lKind l ≠ 0 || !ctxRuns s l.ctx || heldBack s l then s
    else if !(ahead s (pawnsDue s) l).isEmpty then enqueueOnce ((ahead s (pawnsDue s) l).foldl offer s) .teamAdmit { lh := lh }
    else match admitOne s l .grid with
      | none => s
      | some s1 => if (launchOf s1 lh).bind nextTeam = none then s1 else enqueueOnce s1 .teamAdmit { lh := lh }

def execTeamAdmit (s : State) : Host.Outcome State Fault Refusal := .next (admitTeam s s.arg.lh)

/-- Resources of a partition became free: its launches and their gatherers may go on in the order of R334, and its dispatcher look
again. -/
def resourcesFree (s : State) (p : Nat) : State :=
  dispatch ((startedLaunches s p).foldl offer s) p

/-! ## The end of groups, teams and launches (R158, R191) -/

/-- A team's exit record. -/
def exitRecord (s : State) (l : Launch) (t : Team) (status : Nat) : State :=
  if lExita l = 0 || lTeams l ≤ t.idx then s
  else
    let g := lGroups l
    let b := leBytes 4 t.idx ++ leBytes 2 status ++ leBytes 2 g ++ leBytes 8 s.clock.toNat ++ leBytes 4 t.lanesOff
      ++ leBytes 4 t.firstGroup ++ leBytes 8 t.firstOff.toNat ++ leBytes 32 0 ++ t.masks.flatMap (fun m => leBytes 8 m.toNat)
    let padded := b ++ List.replicate (64 * ((g + 7) / 8) + 64 - b.length) 0
    putRecord s (partBuf s l.part) l.ctx 0xFFFF (lExita l + 64 * (1 + (g + 7) / 8) * t.idx) padded ⟨1, 0xFFFF, 0⟩ []

/-- A launch's 64-byte completion record; `flags0` is its complete bit. -/
def compRecord (s : State) (l : Launch) (complete : Bool) : State :=
  if lCompa l = 0 then s
  else
    let flags := complete.toNat + 2 * l.hintIgnored.toNat + 4 * (decide (l.dropped ≠ 0)).toNat + 8 * l.ctxFaulted.toNat
      + 16 * l.pawnFault.toNat
    putRecord s (partBuf s l.part) l.ctx 0xFFFF (lCompa l) (leBytes 4 flags ++ leBytes 4 l.lh.toNat ++ leBytes 8 l.dropped.toNat
      ++ leBytes 8 l.firstDrop.toNat ++ leBytes 8 s.clock.toNat ++ leBytes 8 l.lanesOff.toNat ++ leBytes 8 l.firstOff.toNat
      ++ leBytes 8 l.firstEntry.toNat ++ leBytes 8 0) ⟨1, 0xFFFF, 0⟩ []

/-- The launch handle is written into the record at admission (R191). -/
def writeHandle (s : State) (l : Launch) : State :=
  if lCompa l = 0 then s else putRecord s (partBuf s l.part) l.ctx 0xFFFF (lCompa l + 4) (leBytes 4 l.lh.toNat) ⟨1, 0xFFFF, 0⟩ []

/-- Whether any pawn of a launch is queued or on its way. -/
def pawnsLeft (s : State) (lh : W32) : Bool :=
  s.pawns.any (fun q => q.pawn.lh = lh) || s.agenda.any (fun e => e.1 = .pawnArrival && e.2.pawn.lh = lh)

/-- Whether a group of a launch lives, in a slot or in the image of its context (R382). -/
def groupsLeft (s : State) (l : Launch) : Bool :=
  let mine (gs : List Group) : Bool := gs.any (fun g => g.lh = l.lh && g.kind ≠ .tailor)
  mine s.groups || (match (ctxOf s l.ctx).bind (fun c => c.image) with | some i => mine i.groups | none => false)

/-- Whether a launch is complete (R191, R375): a stream's when RIDX has passed every record it has read (R346). -/
def launchComplete (s : State) (l : Launch) : Bool :=
  l.started && !l.done && !groupsLeft s l && !pawnsLeft s l.lh &&
  (if lKind l = 3 then
    (match streamOf s l.lh with | some t => t.flushed && t.wins.isEmpty && t.retired = t.next | none => false)
   else l.ended.length = lTeams l)

/-- A stream's ingress ring. -/
def inRing (t : Stream) : Nat := fld t.ext 0 8

/-- The virtual field that is home to a local page. -/
def homeField (s : State) (ctx va : Nat) : Nat :=
  match ctxOf s ctx, lookup s (partBuf s (partOfCtx s ctx)) ctx va with
  | some c, .ok t => (match locOf s t va with | .dram pa _ _ => virtField c (homeStack pa) | _ => 0)
  | _, _ => 0

/-- The ingress reader's virtual field and its translation unit (R346). -/
def ringField (s : State) (t : Stream) : Nat := homeField s t.ctx (inRing t)
def ringBuf (s : State) (t : Stream) : Nat := winBuf s t.ctx (ringField s t)

/-- The statistics record of a stream, which its reader writes (R375). -/
def writeStats (s : State) (t : Stream) : State :=
  let a := fld t.ext 112 8
  if a = 0 then s
  else
    let b := leBytes 8 t.read.toNat ++ leBytes 8 t.late.toNat ++ leBytes 8 t.malformed.toNat ++ leBytes 8 t.opened.toNat
      ++ leBytes 8 t.closed.toNat ++ leBytes 8 t.dropped.toNat ++ leBytes 8 t.wm.toNat ++ leBytes 8 0
    let buf := ringBuf s t
    let u := 480 + ringField s t
    if agentLoad s buf t.ctx a 64 = some b then s else putRecord s buf t.ctx u a b ⟨4, u, 0⟩ []

/-- A complete launch: its record, its interrupt, its packet, which hands on what its groups had observed (R329). -/
def finishLaunch (s : State) (lh : W32) : State :=
  match launchOf s lh with
  | none => s
  | some l =>
    if !launchComplete s l then s
    else
      let s1 := updLaunch s lh (fun l => { l with done := true })
      let s2 := match streamOf s1 lh with
        | some t => { writeStats s1 t with streams := s1.streams.filter (fun t => t.lh ≠ lh) }
        | none => s1
      let s3 := compRecord s2 l true
      let s4 := if lFlag l 6 then ownerInterrupt s3 l.part 0xF0 2 (recordTags s3 l.ctx) else s3
      packetDone s4 l.hwslot l.endVc

/-- A team with no group left ends: its window is freed, and its contents are lost (R177). -/
def endTeam (s : State) (t : Team) : State :=
  t.win.parts.foldl (fun s p => clearScr s p t.win.psize) { s with teams := s.teams.filter (fun u => u.id ≠ t.id) }

/-- An ENDING group leaves its slot; with the last group of a team the team ends (R191), with everything of a launch the
launch. A tailor group is started again (R160). -/
def retireGroup (s : State) (g : Group) : State :=
  let s1 := { s with groups := s.groups.filter (fun h => h.core ≠ g.core || h.slot ≠ g.slot) }
  if g.kind = .tailor then enqueueOnce s1 .tailorStart { core := g.core }
  else
    let s2 := updTeam (updLaunch s1 g.lh (fun l => { l with endVc := vcJoin l.endVc g.vc })) g.teamId (fun t =>
      { t with live := t.live - 1, masks := updAt t.masks g.index.toNat (fun _ => g.lfault)
               faulted := t.faulted || g.lfault ≠ 0 })
    match s2.teams.find? (fun t => t.id = g.teamId) with
    | none => s2
    | some t =>
      let s3 :=
        if t.live ≠ 0 then s2
        else
          let s3 := endTeam s2 t
          match g.kind, launchOf s3 t.lh with
          | .pawn, _ => s3
          | .window, _ => s3
          | _, some l =>
            exitRecord (updLaunch s3 t.lh (fun l => { l with ended := l.ended ++ [t.idx] })) l t (if t.faulted then 1 else 0)
          | _, none => s3
      swapDue (resourcesFree (finishLaunch s3 g.lh) g.part) g.part

def execGroupRetire (s : State) : Host.Outcome State Fault Refusal :=
  .next (match groupAt s s.arg.core s.arg.slot with
    | some g => if g.st = .ending then retireGroup s g else s
    | none => s)

/-! ## The tailor group (R160) -/

/-- A tailor start block that keeps R160's rules. -/
def tailorBlockOk (b : List Byte) : Bool :=
  fld b 8 1 ≤ 2 && fld b 9 1 % 8 = 0 && 8 ≤ fld b 9 1 && fld b 9 1 * widthOf (fld b 8 1) ≤ 1024
    && fld b 10 6 = 0 && fld b 36 220 = 0 && pcForm (BitVec.ofNat 64 (fld b 0 8))

/-- The group a start block starts. -/
def tailorGroup (s : State) (core : Nat) (b : List Byte) : Group :=
  let w := widthOf (fld b 8 1)
  let seg := winSeg [reservedBase core] 16384 16384
  let pc : W64 := BitVec.ofNat 64 (fld b 0 8)
  { (default : Group) with
    uid := s.nextId, core := core, slot := 16, ctx := 0, part := (partOfField s (coreField core)).getD 0, kind := .tailor
    priv := true, width := w, vregs := fld b 9 1, teamId := 0, st := .ready, pc := pc, entry := pc, em := widthMask w
    live := widthMask w, segS := seg, winS := seg, cbase := BitVec.ofNat 64 (fld b 24 8), clim := BitVec.ofNat 32 (fld b 32 4)
    s := (List.range 64).filterMap (fun k =>
      if fld b (256 + 4 * k) 4 = 0 then none else some (k, BitVec.ofNat 32 (fld b (256 + 4 * k) 4)))
    stamp := s.clks, since := s.clks, sub := BitVec.allOnes 64, vc := [(s.nextId, 1)] }

/-- Start the tailor group of a core from its start block, or report the block (R160). -/
def startTailor (s : State) (core : Nat) : State :=
  let a := (regVal s (regPlat 0x50)).toNat + 512 * core
  let b := dramBytes s a 512
  let s1 := updCtx s 0 (fun c => { c with root := fld b 16 8 })
  let entry := entryAt s1 (4 * core) core 0 (BitVec.ofNat 64 (fld b 0 8))
  let g := tailorGroup s core b
  if core < 384 && (groupAt s core 16).isNone then
    (if regionOf s a = .dram && badLines s a 512 = [] && tailorBlockOk b && entry ≠ some false then
      { s1 with nextId := s.nextId + 1, groups := s.groups ++ [{ g with land := if entry = none then some g.pc else none }] }
     else fatalEvent s 3 core)
  else s

def execTailorStart (s : State) : Host.Outcome State Fault Refusal :=
  .next (if s.mode = .running then startTailor s s.arg.core else s)

/-! ## `SPAWN` and `FETCHW` (R186 to R190) -/

/-- The pawns of one physical field's store, with those on their way to it; pawns set aside are with their context (R376). -/
def storeFill (s : State) (f : Nat) : Nat :=
  let here (lh : W32) (v : Nat) : Bool := match launchOf s lh with | some l => launchField s l v = f | none => false
  s.pawns.countP (fun q => !q.aside && here q.pawn.lh q.field)
    + s.agenda.countP (fun e => e.1 = .pawnArrival && here e.2.pawn.lh e.2.field)

/-- Send pawns to the gatherer of a virtual field as one unit. -/
def sendPawns (s : State) (f : Nat) (ps : List Pawn) : State :=
  ps.foldl (fun s p => enqueue s .pawnArrival { field := f, pawn := p }) s

/-- The virtual field of a core for its context. -/
def vfieldOf (s : State) (ctx core : Nat) : Nat :=
  match ctxOf s ctx with | some c => virtField c (coreField core) | none => coreField core

/-- A 64-bit operand that is an `s` pair or the literal. -/
def addrOf (g : Group) (x : InsWord) (o : Opd) : Nat := src64 g x false o 0

/-- One lane's pawn (R182, R187): NARG argument words from B. -/
def spawnPawn (s : State) (g : Group) (x : InsWord) (l : Nat) : Pawn :=
  let n := modF x 3 0
  { pc := BitVec.ofNat 64 (addrOf g x x.opa), lh := g.lh, kind := 0, narg := BitVec.ofNat 8 n
    sfld := BitVec.ofNat 8 (vfieldOf s g.ctx g.core)
    arg := (List.range 12).map (fun k => if k < n then BitVec.ofNat 32 (rdV g ((match x.opb with | .v b => b.toNat | _ => 0) + k) l) else 0)
    win := none, vc := g.vc }

/-- `SPAWN` to a virtual field of the context, or to the own one with the hint-ignored flag (R187): a release at `.dev`, held
while the store is full (R184). -/
def spawnTo (s : State) (g : Group) (x : InsWord) (vf : Option Nat) : State :=
  let lanes := active g x
  let own := vfieldOf s g.ctx g.core
  let ok := match vf, ctxOf s g.ctx with
    | some v, some c => (ctxFields s c).contains v
    | _, _ => true
  let v := if ok then vf.getD own else own
  let f := match ctxOf s g.ctx with | some c => physField c v | none => coreField g.core
  if lanes = [] then finish s g
  else afterFence s g false
    (if 65536 < storeFill s f + lanes.length then stallOf s g
     else
      let s1 := if ok then s else updLaunch s g.lh (fun l => { l with hintIgnored := true })
      finish (sendPawns s1 v (lanes.map (spawnPawn s g x))) (released g))

def execSpawn (x : InsWord) (s : State) : Host.Outcome State Fault Refusal := withGroup s (fun g => spawnTo s g x none)
def execSpawnFld (x : InsWord) (s : State) : Host.Outcome State Fault Refusal :=
  withGroup s (fun g => spawnTo s g x (some (src32 g x x.opc 0)))

/-- `FETCHW` sends its request and goes on at once (R189). -/
def execFetchw (x : InsWord) (s : State) : Host.Outcome State Fault Refusal :=
  withGroup s (fun g =>
    let b := src32 g x x.opb 0
    let sg := segWin g (modF x 2 0)
    if active g x = [] then finish s g
    else if b % 64 ≠ 0 then takeFault s g (mkFlt 7 b)
    else if sg.limit < b + 64 then
      let (s1, g1) := lanesOff s g ((active g x).map (fun l => (l, (b : Int))))
      finish s1 g1
    else
      let mbx := match ctxOf s g.ctx with | some c => virtScr c (segAddr sg b) | none => segAddr sg b
      let s1 := { s with fetchws := s.fetchws ++ [⟨g.ctx, BitVec.ofNat 64 (addrOf g x x.opa), mbx⟩] }
      finish (enqueue s1 .fetchwReply {}) g)

/-- Free bytes (log entry 8): what the spec states no value for. -/
def freeBytes (s : State) (n : Nat) : State × List Byte :=
  ({ s with free := s.free + n }, (List.range n).map (fun i => Config.freeByte (s.free + i)))

/-- The reply of the distributor to a request: a grant withdraws the lowest team not yet placed, ends it for the launch
and writes its exit record with status 3 (R189, R190). Fields of a reply that has no launch or team are free values. -/
def fetchwReply (s : State) (q : FetchReq) : State :=
  let s0 := { s with fetchws := s.fetchws.erase q }
  let mbx := match ctxOf s q.ctx with | some c => physScr c q.mbx | none => q.mbx
  let (s1, fr) := freeBytes s0 24
  let found := s1.launches.find? (fun l => l.ctx = q.ctx && l.descA = q.descA && l.started && !l.done && lKind l = 0 && lFlag l 5)
  let (s2, b) : State × List Byte := match found with
    | none => (s1, leBytes 4 2 ++ fr.take 8 ++ leBytes 4 0 ++ fr.drop 8)
    | some l =>
      let rest := leBytes 4 (lTeams l) ++ leBytes 4 0 ++ leBytes 8 (fld l.desc 32 8) ++ leBytes 8 (lEntry l)
      match nextTeam l with
      | none => (s1, leBytes 4 1 ++ fr.take 4 ++ rest)
      | some t =>
        let s2 := updLaunch s1 l.lh (fun l => { l with placed := l.placed ++ [t], ended := l.ended ++ [t] })
        let tm : Team := ⟨0, l.lh, t, lGroups l, 0, 0, 0, 0, List.replicate (lGroups l) 0, false, 0, [], ⟨[], 0, 0, 0⟩, []⟩
        (exitRecord s2 l tm 3, leBytes 4 0 ++ leBytes 4 t ++ rest)
  let s3 := agentScr s2 q.ctx mbx b ⟨1, 0xFFFF, 0⟩ []
  let s4 := if (barAt s3 (mbx + 48)).valid then barNoted s3 (mbx + 48) [] (fun b => arriveB b 1)
    else elog s3 (partOfCtx s q.ctx) 2 0xFFFF q.ctx (q.mbx + 48) 0 []
  match found with
  | some l => finishLaunch s4 l.lh
  | none => s4

/-- The oldest request of a running context is served (R189); one of a context that does not run waits in its place. -/
def execFetchwReply (s : State) : Host.Outcome State Fault Refusal :=
  let qs := s.fetchws.filter (fun q => (ctxOf s q.ctx).isSome)
  .next (match qs.find? (fun q => ctxRuns s q.ctx) with
    | some q => fetchwReply { s with fetchws := qs } q
    | none => if qs = [] then { s with fetchws := [] } else enqueue { s with fetchws := qs } .fetchwReply {})

/-! ## The gatherers (R183 to R185) -/

/-- The spawnable entries of a launch, as the gatherer of a virtual field reads them. -/
def spawnable (s : State) (l : Launch) (f : Nat) : List Nat :=
  (List.range (fld l.desc 51 1)).filterMap (fun i =>
    (agentLoad s (fieldBuf (launchField s l f)) l.ctx (fld l.desc 56 8 + 8 * i) 8).map leVal)

/-- Whether a pawn is accepted (R183). -/
def pawnOk (s : State) (l : Launch) (f : Nat) (p : Pawn) : Bool :=
  match p.kind.toNat with
  | 0 => (spawnable s l f).contains p.pc.toNat
  | 1 => true
  | k => match streamOf s l.lh with
    | some t => sxEntry t k ≠ 0 && sxEntry t k = p.pc.toNat
    | none => false

/-- A pawn reaches its field's gatherer: dropped, or queued, a full queue being due for dispatch. -/
def pawnArrive (s0 : State) (f : Nat) (p : Pawn) : State :=
  match launchOf s0 p.lh with
  | none => s0
  | some l =>
    let s := if p.kind = 0 then agentTouch s0 (fieldBuf (launchField s0 l f)) l.ctx (fld l.desc 56 8) (8 * fld l.desc 51 1) else s0
    if !pawnOk s l f p then
      finishLaunch (updLaunch s p.lh (fun l =>
        { l with dropped := l.dropped + 1, firstDrop := if l.firstDrop = 0 then p.pc else l.firstDrop })) p.lh
    else
      let s1 := { s with pawns := s.pawns ++ [⟨f, p, s.clock.toNat, !ctxRuns s l.ctx⟩] }
      if lWidth l ≤ (queueOf s1 f p.lh p.pc).length then
        enqueueOnce s1 .pawnGroupDispatch { field := f, lh := p.lh, pc := p.pc }
      else s1

def execPawnArrival (s : State) : Host.Outcome State Fault Refusal := .next (pawnArrive s s.arg.field s.arg.pawn)

/-- The pocket header of a window (R354): PEND counts the pawns queued and not yet dispatched. -/
def pendOf (w : Win) : Nat := w.queue.length + (if w.inflight.isSome && !w.disp then 1 else 0)
def pkStateCode : PkState → Nat
  | .idle => 1 | .running => 2 | .closing => 3 | .absorbed => 4 | .filling => 5 | .shared => 6
/-- A window is CLOSING from its closing trigger on, also while its CLOSE waits for PANE pawns (R355, R358). -/
def winCode (w : Win) : Nat := if !w.pane && w.last && (w.st = .idle || w.st = .running) then 3 else pkStateCode w.st
def headerBytes (w : Win) : List Byte :=
  leBytes 8 w.wid.toNat ++ leBytes 8 w.start ++ leBytes 8 w.stop ++ leBytes 4 w.rcount.toNat
    ++ leBytes 1 (winCode w) ++ leBytes 1 (w.pane.toNat + 2 * w.incomplete.toNat) ++ leBytes 1 (min 255 (pendOf w))
    ++ leBytes 1 w.pref

/-- The write of a pocket's header by the engine of its field (R354). -/
def putHeader (s : State) (ctx : Nat) (w : Win) : Except Flt State :=
  let f := match ctxOf s ctx with | some c => physField c w.field | none => w.field
  agentStore s (fieldBuf f) ctx w.pocket.toNat (headerBytes w) ⟨4, 480 + w.field, 0⟩ [pathRel 3 ctx w.vc]

/-- A pawn of a window is dispatched to a lane: its window runs, and the header is written (R354, R355). -/
def pawnDispatched (s : State) (p : Pawn) (ctx : Nat) : State :=
  match p.win with
  | none => s
  | some id =>
    if p.kind.toNat < 2 then s
    else
      let s1 := updStream s p.lh (fun t => updWin t id (fun w =>
        { w with disp := true, st := if w.st = .idle then .running else w.st }))
      match (streamOf s1 p.lh).bind (fun t => winOf t id) with
      | some w => (putHeader s1 ctx w).toOption.getD s1
      | none => s1

/-- A 64-bit value of two argument words. -/
def argPair (p : Pawn) (k : Nat) : Nat := (p.arg.getD k 0).toNat + 2 ^ 32 * (p.arg.getD (k + 1) 0).toNat

/-- The header of the pocket a repack pawn names, read at its dispatch (R369). -/
def pocketHead (s : State) (l : Launch) (f : Nat) (p : Pawn) : Except Flt UnitRead :=
  unitRead s (fieldBuf (launchField s l f)) l.ctx (argPair p 8) 32

/-- Why a pawn's pocket header cannot be written, or read: the window engine's fault before the dispatch (R354, R369, R384). -/
def headerFault (s : State) (l : Launch) (f : Nat) (p : Pawn) : Option (Nat × Flt) :=
  let err {α : Type} (v : Nat) (r : Except Flt α) : Option (Nat × Flt) :=
    match r with | .error f => some (480 + v, f) | .ok _ => none
  if p.kind = 0 then none
  else if p.kind = 1 then err f (pocketHead s l f p)
  else match p.win.bind (fun id => (streamOf s p.lh).bind (fun t => winOf t id)) with
    | none => none
    | some w => err w.field (putHeader s l.ctx w)

/-- What a window thread's lane finds in the header of its pocket at dispatch (R362, R369): WID, START, END, RCOUNT. -/
structure Head where
  wid : W64
  start : W64
  stop : W64
  count : W32
  deriving DecidableEq, Repr, Inhabited

def pawnHead (s : State) (l : Launch) (f : Nat) (p : Pawn) : Head :=
  if p.kind = 0 then default
  else if p.kind = 1 then
    match pocketHead s l f p with
    | .ok r => ⟨BitVec.ofNat 64 (fld r.bytes 0 8), BitVec.ofNat 64 (fld r.bytes 8 8), BitVec.ofNat 64 (fld r.bytes 16 8),
        BitVec.ofNat 32 (fld r.bytes 24 4)⟩
    | .error _ => default
  else match p.win.bind (fun id => (streamOf s p.lh).bind (fun t => winOf t id)) with
    | some w => ⟨w.wid, BitVec.ofNat 64 w.start, BitVec.ofNat 64 w.stop, w.rcount⟩
    | none => default

/-- Sparse per-lane registers from a value of each lane. -/
def laneMap {α : Type} [DecidableEq α] (d : α) (vs : List α) : SMap α :=
  vs.zipIdx.filterMap (fun p => if p.1 = d then none else some (p.2, p.1))

/-- A group of pawns of a virtual field as dispatch leaves it (R180, R185, R362). -/
def pawnGroup (s : State) (l : Launch) (f : Nat) (ps : List Pawn) (core slot : Nat) (seg : Seg) (rsize : Nat) : Group :=
  let win := ps.any (fun p => p.kind ≠ 0)
  let g := freshGroup s l (if win then .window else .pawn) core slot (s.nextId + 1) s.nextId seg ⟨[], 0, 0, 0⟩ ps.length
  let pc := (ps.head?.map (fun p => p.pc)).getD 0
  let args := (List.range 12).flatMap (fun k => ps.zipIdx.filterMap (fun p =>
    if p.1.arg.getD k 0 = 0 then none else some (64 * k + p.2, p.1.arg.getD k 0)))
  let hs := ps.map (pawnHead s l f)
  let pocket := match streamOf s l.lh with | some t => sxPocket t | none => 0
  { g with
    pc := pc, entry := pc, quads := false, v := args, vc := ps.foldl (fun v p => vcJoin v p.vc) g.vc
    pB := laneMap 0 (ps.map (fun p => if p.kind = 0 then 0 else BitVec.ofNat 64 (argPair p 8)))
    pL := laneMap 0 (ps.map (fun p => if p.kind = 0 then 0 else BitVec.ofNat 32 pocket))
    qB := laneMap 0 (ps.map (fun p => if p.kind = 0 then 0 else BitVec.ofNat 64 (argPair p 10)))
    qL := laneMap 0 (ps.map (fun p => if p.kind = 0 || argPair p 10 = 0 then 0 else BitVec.ofNat 32 rsize))
    winid := laneMap 0 (hs.map (fun h => h.wid)), wstart := laneMap 0 (hs.map (fun h => h.start))
    wend := laneMap 0 (hs.map (fun h => h.stop)), wcount := laneMap 0 (hs.map (fun h => h.count))
    pawnk := laneMap 0 (ps.map (fun p => p.kind.setWidth 32))
    pk := ps.zipIdx.filterMap (fun p => p.1.win.map (fun id => (p.2, id))) }

/-- The record size of a stream's ingress ring (R345), where a pawn of a group names a record, or the fault of the ring's engine that
cannot read it. -/
def ringSize (s : State) (l : Launch) (ps : List Pawn) : Except (Nat × Flt) (State × Nat) :=
  match streamOf s l.lh with
  | some t =>
    if ps.all (fun p => p.kind = 0 || argPair p 10 = 0) then .ok (s, 0)
    else match agentRead s (ringBuf s t) t.ctx (inRing t + 9) 1 with
      | .ok r => .ok (r.1, 16 * 2 ^ leVal r.2)
      | .error f => .error (480 + ringField s t, f)
  | none => .ok (s, 0)

/-- The group of a pawn group placed at a spot, its window zeroed, its pawns taken from the store. -/
def placePawns (s : State) (l : Launch) (f : Nat) (q : List Queued) (sp : Spot) (rsize : Nat) : State :=
  let ps := q.map (fun x => x.pawn)
  let (core, slot) := match sp.cores with | (c, k :: _) :: _ => (c, k) | _ => (0, 0)
  let seg := spotWin sp (lScratch l)
  let taken := { s with pawns := q.foldl (fun l x => l.erase x) s.pawns }
  let s1 := seg.parts.foldl (fun s p => clearScr s p seg.psize) (ps.foldl (fun s p => pawnDispatched s p l.ctx) taken)
  let g := pawnGroup s1 l f ps core slot seg rsize
  let tm : Team := ⟨s1.nextId, l.lh, 0, 1, 1, 0, 0, 0, [0], false, 0, [], seg, sp.cores.map (fun c => c.1)⟩
  let s2 := { s1 with nextId := s1.nextId + 2, free := s1.free + 1, groups := s1.groups ++ [g], teams := s1.teams ++ [tm] }
  let s3 := ps.foldl (fun s p => match pocketHead s1 l f p with
    | .ok r => if p.kind = 1 then readEffect s r else s
    | .error _ => s) s2
  checkEntry s3 core slot

/-- Dispatch up to WIDTH pawns of a queue as one group, when a slot, registers and a window are free and no earlier launch takes them
(R334). -/
def dispatchPawns (s : State) (f : Nat) (lh : W32) (pc : W64) : State :=
  match launchOf s lh with
  | none => s
  | some l =>
    let q := (queueOf s f lh pc).take (lWidth l)
    if q.isEmpty || !ctxRuns s l.ctx || heldBack s l then s
    else if !(ahead s (pawnsDue s) l).isEmpty then
      enqueueOnce ((ahead s (pawnsDue s) l).foldl offer s) .pawnGroupDispatch { field := f, lh := lh, pc := pc }
    else match chooseSpot s (pawnSpots s l (launchField s l f)) with
      | none => s
      | some sp =>
        match (q.map (fun x => x.pawn)).findSome? (headerFault s l f) with
        | some (u, e) => unitFault s l.ctx u e.reason e.detail 0 0 e.addr
        | none =>
        match ringSize s l (q.map (fun x => x.pawn)) with
        | .error (u, e) => unitFault s l.ctx u e.reason e.detail 0 0 e.addr
        | .ok (s0, rsize) =>
          let s1 := placePawns s0 l f q sp rsize
          if lWidth l ≤ (queueOf s1 f lh pc).length then
            enqueueOnce s1 .pawnGroupDispatch { field := f, lh := lh, pc := pc }
          else s1

/-- A full queue is dispatched (R183). -/
def execPawnGroupDispatch (s : State) : Host.Outcome State Fault Refusal :=
  .next (match launchOf s s.arg.lh with
    | some l =>
      if lWidth l ≤ (queueOf s s.arg.field s.arg.lh s.arg.pc).length then dispatchPawns s s.arg.field s.arg.lh s.arg.pc else s
    | none => s)

/-- The pawns present are dispatched once the oldest has waited GTO (R183). -/
def execGatherTimeout (s : State) : Host.Outcome State Fault Refusal :=
  .next (match launchOf s s.arg.lh with
    | some l => if gatherDue s l s.arg.field s.arg.pc then dispatchPawns s s.arg.field s.arg.lh s.arg.pc else s
    | none => s)

/-- A group has waited too long for its issue (R162): normal and issuable for more than 1,024 clks. -/
def execGroupAged (s : State) : Host.Outcome State Fault Refusal :=
  .next (match groupAt s s.arg.core s.arg.slot with
    | some g =>
      if g.st = .ready && g.hint = 0 && !g.aged && g.kind ≠ .tailor && g.since + 1024 < s.clks then
        setGroup s { g with aged := true } else s
    | none => s)

end Sys2Proof.Machine
end

