-- ==== Sys2Proof/Machine/Engines.lean ====
section
/-! DEFINITION. Copy and gather engines (R253 to R282): the job tables, the commands, and the steps of an engine. A step
processes one sub-chunk of a copy job, one unit with DEV, or one chunk of indices; what an engine reads outside the part is a
free value (log entry 8). -/

namespace Sys2Proof.Machine
open Sys2Proof

/-! ## Tables and ids (R254 to R256) -/

def engCount (gather : Bool) : Nat := if gather then 2 else 4
def tabCount (gather : Bool) : Nat := if gather then 128 else 256

def jobEnded (j : Job) : Bool := j.st = .done || j.st = .error || j.st = .aborted

/-- The physical field of a job's engines. -/
def jobField (s : State) (j : Job) : Nat := match ctxOf s j.ctx with | some c => physField c j.field | none => j.field

/-- A job id (R255). -/
def jobId (j : Job) : Nat := j.gen.toNat * 65536 + j.field % 16 * 4096 + j.entry

/-- The unit number of an engine for its context (R387). -/
def jobUnit (j : Job) : Nat := if j.gather then 448 + 2 * j.field + j.eng.getD 0 else 384 + 4 * j.field + j.eng.getD 0

/-- The translation unit of its field (R10, R207). -/
def jobBuf (s : State) (j : Job) : Nat := fieldBuf (jobField s j)

/-- The class of its path (R224), and what its writes hand on to a `FENCE.X` that names it (R303). -/
def pathOf (gather : Bool) : Nat := if gather then 2 else 1
def jobRel (j : Job) : List Rel := [pathRel (pathOf j.gather) j.ctx j.vc]

/-- The writer of an engine's writes (R389). -/
def jobWriter (j : Job) : Writer := ⟨if j.gather then 3 else 2, jobUnit j, 0⟩

/-- The jobs of one table: a context's, of a class and virtual field, the ended ones in the order they ended. -/
def inTable (ctx vf : Nat) (gather : Bool) (j : Job) : Bool := j.ctx = ctx && j.field = vf && j.gather = gather

/-- The entry an accepted job takes: the lowest never used, else that of the job that ended first; none while the table is
full (R254, R256). -/
def freeEntry (s : State) (ctx vf : Nat) (gather : Bool) : Option Nat :=
  let t := s.jobs.filter (inTable ctx vf gather)
  match (List.range (tabCount gather)).find? (fun e => !t.any (fun j => j.entry = e)) with
  | some e => some e
  | none => (t.find? jobEnded).map (fun j => j.entry)

def genKey (ctx vf : Nat) (gather : Bool) (e : Nat) : Nat := ((ctx * 16 + vf) * 2 + gather.toNat) * 256 + e

/-- Same job: its table and entry. -/
def sameJob (j k : Job) : Bool := inTable k.ctx k.field k.gather j && j.entry = k.entry
def putJob (s : State) (j : Job) : State := { s with jobs := updWhere s.jobs (sameJob j) (fun _ => j) }

/-- Every idle engine of a class in a field looks for a job. -/
def kickEngines (s : State) (f : Nat) (gather : Bool) : State :=
  (List.range (engCount gather)).foldl (fun s e =>
    if s.jobs.any (fun j => j.st = .running && j.gather = gather && jobField s j = f && j.eng = some e) then s
    else enqueueOnce s .jobTake { gather := gather, field := f, eng := e }) s

/-- A job to be accepted: what `GO` or a COPY packet supplies. -/
structure NewJob where
  ctx : Nat
  vf : Nat
  gather : Bool
  guid : Nat
  order : Bool
  badOpt : Bool
  descA : W64
  segS : Seg
  segN : Seg
  packet : Option (Nat × W32)
  vc : SMap Nat
  deriving DecidableEq, Repr, Inhabited

/-- Acceptance (R254, R257): the job with its entry; none while no entry is free. -/
def acceptJob (s : State) (n : NewJob) : Option (State × Job) :=
  match freeEntry s n.ctx n.vf n.gather with
  | none => none
  | some e =>
    let used := s.jobs.any (fun j => inTable n.ctx n.vf n.gather j && j.entry = e)
    let key := genKey n.ctx n.vf n.gather e
    let gen := SMap.get 0 s.jobGen key + (if used then 1 else 0)
    let fp : Fprint := ⟨0, 0, 0, 0, 0⟩
    let j : Job := ⟨n.vf, n.gather, e, gen, .queued, 0, n.ctx, partOfCtx s n.ctx, n.guid, n.order, n.badOpt, n.descA, n.segS,
      n.segN, [], none, 0, 0, fp, fp, none, false, none, false, 0, 0, n.packet, [], false, n.vc⟩
    let s1 := { s with jobs := s.jobs.filter (fun k => !(inTable n.ctx n.vf n.gather k && k.entry = e)) ++ [j]
                       jobGen := SMap.put 0 s.jobGen key gen }
    some (kickEngines s1 (jobField s1 j) n.gather, j)

/-- The job an id names for a context and class (R255). -/
def findJob (s : State) (ctx : Nat) (gather : Bool) (id : Nat) : Option Job :=
  s.jobs.find? (fun j => j.ctx = ctx && j.gather = gather && jobId j = id)

def jobCode : JobState → Nat
  | .queued => 1 | .running => 2 | .stopped => 3 | .done => 4 | .error => 5 | .aborted => 6

/-- The status word of R258. -/
def jobStatus (j : Job) : Nat := j.next % 65536 * 65536 + j.err * 256 + jobCode j.st

/-! ## Descriptors (R260 to R264, R280) -/

def dF (j : Job) (o n : Nat) : Nat := fld j.desc o n
def dFlags (j : Job) : Nat := if j.gather then dF j 30 1 else dF j 30 2
def dRack (j : Job) : Bool := if j.gather then bit (dFlags j) 0 else bit (dFlags j) 5
def dSegn (j : Job) : Bool := if j.gather then bit (dFlags j) 1 else bit (dFlags j) 4
def dArr (j : Job) : Bool := if j.gather then bit (dFlags j) 2 else bit (dFlags j) 6
def dDev (j : Job) : Bool := !j.gather && bit (dFlags j) 1
def dFp (j : Job) : Bool := !j.gather && bit (dFlags j) 0
def dSsp (j : Job) : Bool := !j.gather && bit (dFlags j) 2
def dDsp (j : Job) : Bool := j.gather || bit (dFlags j) 3
def dXf (j : Job) : Nat := if j.gather then 0 else dF j 28 1
def dFmt (j : Job) : Nat := dF j 29 1
def dDst (j : Job) : Nat := if j.gather then dF j 32 4 else dF j 8 8
def dBar (j : Job) : Nat := if j.gather then dF j 36 4 else dF j 40 4
def dComp (j : Job) : Nat := if j.gather then dF j 40 8 else dF j 32 8
def dLen (j : Job) : Nat := dF j 16 8
def dChunk (j : Job) : Nat := dF j 24 4
def dNext (j : Job) : Nat := if j.gather then dF j 52 4 else dF j 44 4 + 2 ^ 32 * dF j 56 4
def dSeg (j : Job) : Seg := if dSegn j then j.segN else j.segS
def noBar : Nat := 0xFFFFFFFF

/-- Element bytes of the formats the transforms accept (R32). -/
def elemBytes (f : Nat) : Nat :=
  match f with
  | 0 | 12 | 13 => 4 | 1 | 2 | 10 | 11 => 2 | 14 | 15 => 8 | _ => 1

/-- A range within the address space or the captured window (R260). -/
def rangeOk (sg : Seg) (scr : Bool) (a n : Nat) : Bool := if scr then a + n ≤ sg.limit else a + n ≤ 2 ^ 56

/-- SSIZE as the rack descriptor holds it; a bad rack is found at its claim. -/
def rackSize (s : State) (j : Job) : Nat := scrVal s (segAddr (dSeg j) (dDst j + 4)) 4

def ceilDiv (a b : Nat) : Nat := if b = 0 then 0 else (a + b - 1) / b

/-- Chunks of a copy job, units with DEV, slots with RACK; indices of a gather job. -/
def jobTotal (s : State) (j : Job) : Nat :=
  if j.gather then dF j 24 4
  else if dDev j then dLen j / 8
  else ceilDiv (dLen j) (if dRack j then rackSize s j else dChunk j)

/-- Bytes a copy job writes at DST (R271). -/
def dstBytes (j : Job) : Nat :=
  match dXf j with
  | 1 => dLen j / 8
  | 2 => 2 * elemBytes (dFmt j) * dLen j
  | _ => dLen j

/-- Alignment and formats of a transform (R271, R274, R275). -/
def xfOk (j : Job) : Bool :=
  let e := elemBytes (dFmt j)
  let src := dF j 0 8
  let dst := dDst j
  match dXf j with
  | 0 => !dFp j || (src % e = 0 && dLen j % e = 0)
  | 1 => dFmt j = 0 && src % 4 = 0 && dLen j % 32 = 0 && dst % 4 = 0
  | 2 => (dFmt j = 0 || dFmt j = 2) && src % 4 = 0 && dLen j % 4 = 0 && dst % 4 = 0
  | 3 => [0, 1, 2, 10, 11, 12, 13].contains (dFmt j) && src % e = 0 && dst % e = 0
      && 1 ≤ dF j 48 4 && dF j 48 4 ≤ 65536 && 1 ≤ dF j 52 4 && dF j 52 4 ≤ 65536 && dLen j = dF j 48 4 * dF j 52 4 * e
  | 4 => (if bits (dFlags j) 14 12 < 6 then [12, 13, 14, 15].contains (dFmt j) else dFmt j = 0)
      && src % e = 0 && dst % e = 0 && dLen j % e = 0 && dChunk j = 4096 && !dDsp j
  | _ => false

/-- A power of two from 4,096 to 1,048,576; CHUNK is ignored with RACK and DEV (R276, R278). -/
def chunkOk (j : Job) : Bool :=
  dRack j || dDev j || (List.range 9).any (fun k => dChunk j = 4096 * 2 ^ k)

/-- COMP alone (R259). -/
def compOk (j : Job) : Bool := dComp j % 64 = 0 && dComp j + 64 ≤ 2 ^ 56

/-- BAR of a job (R260, R262): unused with RACK, where it must be 0. -/
def barOk (j : Job) : Bool :=
  if dRack j then dBar j = 0
  else if dBar j = noBar then !dArr j
  else dBar j % 16 = 0 && rangeOk (dSeg j) true (dBar j) 16

/-- A copy descriptor that passes R264. -/
def copyOk (s : State) (j : Job) : Bool :=
  let fl := dFlags j
  let xf := dXf j
  let src := dF j 0 8
  1 ≤ dLen j && dLen j ≤ 2 ^ 40 && chunkOk j && xf ≤ 4 && !bit fl 15 && bits fl 14 12 ≠ 7
    && (xf = 4 || bits fl 14 12 = 0) && (xf = 1 || bits fl 11 7 = 0) && (xf = 1 || xf = 3 || dF j 48 4 = 0)
    && (xf = 3 || dF j 52 4 = 0) && dF j 60 4 = 0 && compOk j && xfOk j && barOk j
    && (!dFp j || (dFmt j ≤ 2 && xf ≠ 2)) && (!dRack j || (xf = 0 && dDsp j))
    && (!dDev j || (xf = 0 && !dFp j && !dRack j && !dSsp j && !dDsp j && src % 8 = 0 && dDst j % 8 = 0 && dLen j % 8 = 0))
    && !(dSsp j && xf = 2) && !(dDsp j && xf = 1) && rangeOk (dSeg j) (dSsp j) src (dLen j)
    && rangeOk (dSeg j) (dDsp j) (dDst j) (if dRack j then 32 else dstBytes j)
    && (dRack j || dSsp j != dDsp j || dDst j + dstBytes j ≤ src || src + dLen j ≤ dDst j)
    && (dNext j < jobTotal s j || (dRack j && rackSize s j = 0))

/-- A gather descriptor that passes R280. -/
def gatherOk (j : Job) : Bool :=
  let n := dF j 24 4
  let r := dF j 28 2
  dF j 0 8 % 4 = 0 && dF j 0 8 + 4 * n ≤ 2 ^ 56 && dF j 8 8 < 2 ^ 56 && dF j 16 8 % 4 = 0 && dF j 16 8 < 2 ^ 40
    && 1 ≤ n && n ≤ 2 ^ 24 && r % 4 = 0 && 4 ≤ r && r ≤ 256 && dFlags j < 16 && dF j 31 1 = 0 && !(dRack j && dArr j)
    && dF j 56 8 = 0 && compOk j && barOk j && rangeOk (dSeg j) true (dDst j) (if dRack j then 32 else n * r)
    && dNext j < n

/-! ## Access (R261, R265) -/

/-- A run of bytes in one place, with the address a fault would name. -/
structure Piece where
  va : Nat
  loc : Loc
  n : Nat
  deriving DecidableEq, Repr, Inhabited

/-- One run inside a page of an allowed kind, translated and checked; a read outside the part may end in an error. -/
def pagePiece (s : State) (buf ctx : Nat) (ok : Nat → Bool) (w : Bool) (r : Nat × Nat) : Except Flt (List TlbEnt × Piece) :=
  match lookup s buf ctx r.1 with
  | .error f => .error f
  | .ok t =>
    let e := t.leaf.toNat
    let loc := locOf s t r.1
    let fails := !w && Config.readFails s.turn r.1
    if !ok (pteKind e) then .error (permFlt .kind r.1)
    else if w && !bit e 5 then .error (permFlt .write r.1)
    else match loc with
      | .dram pa _ _ =>
        if regionOf s pa ≠ .dram then .error (mkFlt 3 r.1)
        else if (if w then badPartial s pa r.2 else badLines s pa r.2) ≠ [] then .error (mkFlt 5 r.1)
        else .ok ([t], ⟨r.1, loc, r.2⟩)
      | .remote d _ _ => if (routeOf s d).isNone || fails then .error (mkFlt 6 r.1) else .ok ([t], ⟨r.1, loc, r.2⟩)
      | _ => match extOf loc with
        | some e => if extUp s e && !fails then .ok ([t], ⟨r.1, loc, r.2⟩) else .error (mkFlt 6 r.1)
        | none => .ok ([t], ⟨r.1, loc, r.2⟩)

/-- The pieces of a range: in the job's window, or at virtual addresses, cut at the 1 KiB rows of R403. -/
def piecesOf (s : State) (j : Job) (scr : Bool) (ok : Nat → Bool) (w : Bool) (a n : Nat) : Except Flt (List TlbEnt × List Piece) :=
  if scr then
    let sg := dSeg j
    if sg.limit < a + n then .error (permFlt .segmentRange a)
    else .ok ([], (runs sg.psize (sg.start + a) n).map (fun r =>
      ⟨r.1 - sg.start, .scr (sg.parts.getD (r.1 / sg.psize) 0 + r.1 % sg.psize), r.2⟩))
  else match allOk ((runs 1024 a n).map (pagePiece s (jobBuf s j) j.ctx ok w)) with
    | .error f => .error f
    | .ok l => .ok (l.flatMap (fun p => p.1), l.map (fun p => p.2))

/-- Read a piece; what lies outside the part is asked for there and is a free value. -/
def readPiece (s : State) (p : Piece) : State × List Byte :=
  match p.loc with
  | .scr a => (s, memBytes s.scr a p.n)
  | .dram pa lat _ => (touchRow s pa false lat, dramBytes s pa p.n)
  | .reg pa => (s, leBytes p.n (regLoad s pa p.n))
  | .remote .. => freeBytes (unitTouch s p.loc p.n) p.n
  | l => match extOf l with
    | some e => freeBytes (emit s (readOut e p.n)) p.n
    | none => freeBytes s p.n

def readPieces (s : State) (ps : List Piece) : State × List Byte :=
  ps.foldl (fun sb p => let (s1, b) := readPiece sb.1 p; (s1, sb.2 ++ b)) (s, [])

/-- A unit of a DEV job stored to a register: by an agent that is neither the management core nor a host, a doorbell kicking as
the job's context does (R337, R442). -/
def jobRegStore (s : State) (j : Job) (a : Nat) (v : W64) : State :=
  if 0x1F000040000 ≤ a && a < 0x1F000050000 then
    (kickQueue s ((a - 0x1F000040000) / 8192) (a % 8192 / 8) (v.setWidth 32) j.ctx false j.vc).1
  else regWrite64 s (.group 0xFFFF 0xFFFF) a v v

/-- Write a piece: inside the part it reaches its target in this step, elsewhere it is a posted write (R265). -/
def writePiece (s : State) (j : Job) (p : Piece) (b : List Byte) : State :=
  match p.loc with
  | .scr a => agentScr s j.ctx a b (jobWriter j) (jobRel j)
  | .dram pa lat _ => agentDram s j.ctx pa lat b (jobWriter j) (jobRel j)
  | .reg pa => jobRegStore s j pa (BitVec.ofNat 64 (leVal b))
  | .remote d a _ =>
    match routeOf s d with
    | some port =>
      let (s1, tag) := freshTag s
      sendXact s1 ⟨tag, d, port, 3, b.length, 0, 0, jobUnit j, j.ctx, 0, a, false, false, false, b, p.va, [], 0, false, none⟩
    | none => s
  | l => match extOf l with
    | some e =>
      let (s1, tag) := freshTag s
      let w : Posted := ⟨tag, 0, jobUnit j, 0, j.ctx, e.port.getD 0, e.peer, e.cxl, e.addr, b, 0, p.va, false,
        if e.cxl then extDue s e else 0⟩
      emit { s1 with posted := s1.posted ++ [w] } (writeOut e b)
    | none => s

def writePieces (s : State) (j : Job) : List Piece → List Byte → State
  | [], _ => s
  | p :: r, b => writePieces (writePiece s j p (b.take p.n)) j r (b.drop p.n)

/-- Read a range. -/
def readRange (s : State) (j : Job) (scr : Bool) (ok : Nat → Bool) (a n : Nat) : Except Flt (State × List Byte) :=
  match piecesOf s j scr ok false a n with
  | .error f => .error f
  | .ok (ts, ps) => .ok (readPieces (cacheEnts s ts) ps)

/-- Write ranges, every page of them translated and checked before any byte is written (R265). -/
def writeRanges (s : State) (j : Job) (scr : Bool) (ok : Nat → Bool) (ws : List (Nat × List Byte)) : Except Flt State :=
  match allOk (ws.map (fun w => piecesOf s j scr ok true w.1 w.2.length)) with
  | .error f => .error f
  | .ok l =>
    .ok ((l.zip ws).foldl (fun s p => writePieces s j p.1.2 p.2.2) (cacheEnts s (l.flatMap (fun p => p.1))))

/-- The page kinds a copy job may read and write (R261, R273, R275), those of a gather job, and of descriptors. -/
def srcKinds (j : Job) (k : Nat) : Bool :=
  match dXf j with
  | 2 => k = 4
  | 0 => k = 0 || k = 2 || k = 3 || k = 4 || (k = 1 && dDev j)
  | _ => k = 0 || k = 2 || k = 3
def dstKinds (j : Job) (k : Nat) : Bool :=
  match dXf j with
  | 0 => k = 0 || k = 2 || k = 3 || k = 4 || (k = 1 && dDev j)
  | 3 => k = 0 || k = 2 || k = 3
  | _ => k = 0
def rowKinds (k : Nat) : Bool := k = 0 || k = 2 || k = 3
def normKind (k : Nat) : Bool := k = 0

/-! ## Records and ends (R267 to R270) -/

/-- The completion record. -/
def recBytes (s : State) (j : Job) (st err : Nat) (fpv ended : Bool) : List Byte :=
  let c : W64 := if dDev j then BitVec.ofNat 64 j.next else j.saved.count
  leBytes 4 (st + 256 * err + 65536 * fpv.toNat) ++ leBytes 4 j.next ++ leBytes 8 j.saved.nanc.toNat ++ leBytes 8 c.toNat
    ++ leBytes 8 j.saved.sum.toNat ++ leBytes 8 j.saved.sumsq.toNat ++ leBytes 4 j.saved.maxf.toNat ++ leBytes 4 (jobId j)
    ++ leBytes 8 (if ended then s.clock.toNat else 0) ++ leBytes 8 j.erra.toNat

/-- Write the record at COMP; a COMP that fails its check is handled as one that cannot be written (R259, R457). -/
def putComp (s : State) (j : Job) (st err : Nat) (fpv ended : Bool) : State :=
  if j.desc = [] then s
  else
    let b := recBytes s j st err fpv ended
    if compOk j then putRecord s (jobBuf s j) j.ctx (jobUnit j) (dComp j) b (jobWriter j) (jobRel j)
    else elog s j.part 4 (jobUnit j) j.ctx (dComp j) 0 b

/-- A job ends: it moves behind the jobs that ended before it, its engine is free, its packet complete. -/
def endJob (s : State) (j : Job) (st : JobState) (err : Nat) (erra : Nat) : State :=
  let j1 := { j with st := st, err := err, erra := BitVec.ofNat 64 erra, eng := none, wait := none, endclk := s.clock }
  let s1 := { s with jobs := s.jobs.filter (fun k => !sameJob k j) ++ [j1] }
  let s2 := kickEngines s1 (jobField s1 j) j.gather
  match j.packet with
  | some p => packetDone s2 p.1 j.vc
  | none => dispatch s2 j.part

/-- A job ends with its final record: FPV as R267 has it. -/
def endWith (s : State) (j : Job) (st : JobState) (err erra : Nat) (fpv : Bool) : State :=
  endJob (putComp s { j with erra := BitVec.ofNat 64 erra } (jobCode st) err fpv true) j st err erra

/-- A job ends in ERROR before anything of it is final (R264, R266, R278). -/
def jobError (s : State) (j : Job) (err erra : Nat) : State := endWith s j .error err erra false

/-- A running job stops at its last boundary (R269). -/
def parkJob (s : State) (j : Job) : State :=
  let s1 := putComp s j 3 0 false false
  kickEngines (putJob s1 { j with st := .stopped, eng := none, sub := 0, cur := j.saved, wait := none, held := [] }) (jobField s j) j.gather

/-- The chunk index of a stop record (R387): of a gather job, its chunk of rows. -/
def rowsPer (s : State) (j : Job) : Nat := if dRack j then rackSize s j / dF j 28 2 else 16
def chunkIndex (s : State) (j : Job) : Nat := if j.gather then j.next / rowsPer s j else j.next

/-- A fault met by a job (R270): it stops, and the halt line rises; a fatal one ends it in ERROR when the context is faulted. -/
def jobFault (s : State) (j : Job) (f : Flt) : State :=
  let s1 := parkJob s j
  let s2 := if fatalReason f.reason then
      { s1 with jobs := updWhere s1.jobs (sameJob j) (fun j => { j with err := 5, erra := BitVec.ofNat 64 f.addr }) }
    else s1
  unitFault s2 j.ctx (jobUnit j) f.reason f.detail (jobId j + 2 ^ 32 * (chunkIndex s j % 2 ^ 32)) j.next f.addr

/-! ## Racks and boundaries (R253, R266, R268, R278) -/

/-- The rack of a job, checked by R251. -/
def jobRack (s : State) (j : Job) : Option Rack :=
  if dDst j % 32 = 0 then rackAt s (segAddr (dSeg j) (dDst j)) (dSeg j).limit else none

/-- Land a slot on its full barrier and arrive there once; the offset of a barrier that refuses. -/
def landSlot (s : State) (j : Job) (c : Nat) : State × Option Nat :=
  match jobRack s j with
  | none => (s, some (dDst j))
  | some r =>
    let o := claimBar r (BitVec.ofNat 32 c) false
    match agentBar s (dSeg j) o with
    | none => (s, some o)
    | some ba => (barNoted (barNoted s ba j.vc (fun b => landB b r.ssize)) ba j.vc (fun b => arriveB b 1), none)

/-- An abort takes effect at a boundary (R259); a claimed slot is landed once its wait has ended (R278). -/
def abortJob (s : State) (j : Job) : State :=
  match j.claim with
  | some c =>
    if !j.rackReady then s
    else endWith (landSlot s j c).1 { j with claim := none } .aborted 0 0 false
  | none => endWith s j .aborted 0 0 false

/-- Write NEXT into the descriptor (R266 step 3). -/
def putNext (s : State) (j : Job) (n : Nat) : Except Flt State :=
  let a := j.descA.toNat
  writeRanges s j false normKind (if j.gather then [(a + 52, leBytes 4 n)]
    else [(a + 44, leBytes 4 n), (a + 56, leBytes 4 (n / 2 ^ 32))])

/-- Bytes of the chunk in progress: of the source, and of its landing (R271). -/
def chunkBytes (s : State) (j : Job) : Nat :=
  let c := if dRack j then rackSize s j else dChunk j
  min c (dLen j - j.next * c)
def landBytes (s : State) (j : Job) : Nat :=
  if j.gather then min 16 (dF j 24 4 - j.next) * dF j 28 2
  else if dDev j then 8 * j.sub
  else match dXf j with
    | 1 => 6 * (chunkBytes s j / 32)
    | 2 => 2 * elemBytes (dFmt j) * chunkBytes s j
    | _ => chunkBytes s j

/-- NEXT after the chunk in progress. -/
def nextAfter (s : State) (j : Job) : Nat :=
  if j.gather then min (j.next + rowsPer s j) (dF j 24 4) else if dDev j then j.next else j.next + 1

/-- After the last chunk (R268): the final record, then the arrival of ARR. -/
def finalJob (s : State) (j : Job) : State :=
  let s1 := putComp s j 4 0 (dFp j) true
  if !dArr j || dRack j then endJob s1 j .done 0 0
  else match agentBar s1 (dSeg j) (dBar j) with
    | some ba => endJob (barNoted s1 ba j.vc (fun b => arriveB b 1)) j .done 0 0
    | none =>
      endJob (putComp s1 { j with erra := BitVec.ofNat 64 (dBar j) } 5 2 (dFp j) true) j .error 2 (dBar j)

/-- The landing of a chunk on BAR or on its slot's barrier; the offset of a barrier that refuses. -/
def landChunk (s : State) (j : Job) : State × Option Nat :=
  match j.claim with
  | some c => landSlot s j c
  | none =>
    if dBar j = noBar || dRack j then (s, none)
    else match agentBar s (dSeg j) (dBar j) with
      | none => (s, some (dBar j))
      | some ba => (barNoted s ba j.vc (fun b => landB b (landBytes s j)), none)

/-- NEXT written for a chunk that is landed and recorded; a fault there stops the job with only NEXT left to write (R266, R269). The
job as it goes on, none when it has stopped. -/
def endBoundary (s : State) (j : Job) : State × Option Job :=
  match putNext s j j.next with
  | .error f => (jobFault (putJob s { j with landed := true }) { j with landed := true } f, none)
  | .ok s1 => (putJob s1 { j with landed := false }, some { j with landed := false })

/-- A chunk's boundary (R266): landing, record, NEXT. The job as it goes on, none when it has ended or stopped. -/
def boundary (s : State) (j : Job) : State × Option Job :=
  match landChunk s j with
  | (s1, some o) => (jobError s1 j 2 o, none)
  | (s1, none) =>
    let j1 := { j with next := nextAfter s j, sub := 0, saved := j.cur, claim := none, rackReady := false, held := [] }
    endBoundary (putComp s1 j1 2 0 false false) j1

/-- A fault met at a sub-chunk or unit; the units a DEV job has done are recorded first, since none is made twice (R270, R276). -/
def workFault (s : State) (j : Job) (f : Flt) : State :=
  if dDev j && j.sub ≠ 0 then
    match boundary s j with
    | (s1, none) => s1
    | (s1, some j1) => jobFault s1 j1 f
  else jobFault s j f

/-- The running job of an engine. -/
def engJob (s : State) (gather : Bool) (f e : Nat) : Option Job :=
  s.jobs.find? (fun j => j.st = .running && j.gather = gather && j.eng = some e && jobField s j = f)

/-- The step of an engine that is due next. -/
def nextStep (s : State) (j : Job) (i : Instr) : State :=
  enqueueOnce s i { gather := j.gather, field := jobField s j, eng := j.eng.getD 0 }

/-- Whether the chunk in progress is written whole. -/
def chunkFull (s : State) (j : Job) : Bool :=
  if j.gather then j.sub ≠ 0
  else if dDev j then j.next = jobTotal s j && j.sub ≠ 0
  else j.sub ≠ 0 && chunkBytes s j ≤ j.sub

/-- An engine's step acts on its running job while the context runs. -/
def onEngine (s : State) (k : Job → State) : Host.Outcome State Fault Refusal :=
  .next (match engJob s s.arg.gather s.arg.field s.arg.eng with
    | some j => if ctxRuns s j.ctx then k j else s
    | none => s)

/-- The job's writes over the link that are not yet acknowledged, and whether any write of it is not yet performed (R265). -/
def jobXacts (s : State) (j : Job) : List Xact := s.xacts.filter (fun x => x.guid = 0 && x.slot = jobUnit j && x.ctx = j.ctx)
def jobOut (s : State) (j : Job) : Bool :=
  jobXacts s j ≠ [] || s.posted.any (fun p => p.guid = 0 && p.slot = jobUnit j && p.ctx = j.ctx)

/-- A job goes on after a boundary, or ends with its last chunk. -/
def goOnJob (s : State) (j : Job) : State :=
  if jobTotal s j ≤ j.next then finalJob s j else nextStep s j (if dRack j then .engineRackClaim else .subchunkBoundary)

/-- A chunk boundary, once the chunk's writes are performed, after which the job goes on or ends. -/
def execChunkBoundary (s : State) : Host.Outcome State Fault Refusal :=
  onEngine s (fun j =>
    if !chunkFull s j then s
    else if jobOut s j then nextStep s j .chunkBoundary
    else if j.abort then abortJob s j
    else match boundary s j with
      | (s1, none) => s1
      | (s1, some j1) => goOnJob s1 j1)

/-- The end of a wait on a slot's empty barrier is an acquire (R234, R253). -/
def waitEnds (s : State) (j : Job) : Job :=
  match j.wait with
  | some (ba, t) => { j with wait := none, vc := vcJoin j.vc (SMap.get [] s.phases (phaseKey ba (t - 1))) }
  | none => j

/-- The engine begins a slot: it claims TAIL and waits on the slot's empty barrier (R253, R278). A claim kept across a stop is
not made again. -/
def claimRack (s : State) (j : Job) : State :=
  match jobRack s j with
  | none => jobError s j 3 (dDst j)
  | some r =>
    if j.gather && r.ssize < dF j 28 2 then jobError s j 3 (dDst j)
    else
      let c : W32 := match j.claim with | some c => BitVec.ofNat 32 c | none => r.tail
      let s1 := if j.claim.isSome then s else rackClaim s (segAddr (dSeg j) (dDst j)) r true
      let ba := segAddr (dSeg j) (claimBar r c true)
      let t := claimTarget r c true
      let ready := j.rackReady || reached (barAt s1 ba) t
      let j0 := { j with claim := some c.toNat, rackReady := ready, wait := some (ba, t) }
      let j1 := if ready then waitEnds s1 j0 else j0
      let s2 := putJob s1 j1
      if ready then nextStep s2 j1 .engineRackWaitEnd else s2

def execEngineRackClaim (s : State) : Host.Outcome State Fault Refusal :=
  onEngine s (fun j =>
    if !dRack j || j.wait.isSome || j.sub ≠ 0 then s
    else if j.abort && j.claim.isNone then abortJob s j
    else claimRack s j)

/-- The wait on a slot's empty barrier has ended. -/
def execEngineRackWaitEnd (s : State) : Host.Outcome State Fault Refusal :=
  onEngine s (fun j =>
    if j.claim.isNone || !j.rackReady || j.sub ≠ 0 then s
    else if j.abort then abortJob s j
    else
      let j1 := waitEnds s j
      nextStep (putJob s j1) j1 .subchunkBoundary)

/-! ## Transforms (R271 to R277, R281, R282) -/

/-- The fingerprint after one more element (R277). -/
def foldOne (F : Fmt) (p : Fprint) (x : Nat) : Fprint :=
  let v := FVal.decode F x
  if v.isNan then { p with count := p.count + 1, nanc := p.nanc + 1 }
  else
    let m := if !v.isInf && FVal.cmp v.abs (f32v p.maxf.toNat) = some .gt then BitVec.ofNat 32 (rnF32 v.abs) else p.maxf
    { count := p.count + 1, nanc := p.nanc, sum := BitVec.ofNat 64 (f64Add p.sum.toNat v)
      sumsq := BitVec.ofNat 64 (f64Add p.sumsq.toNat (v.mul v)), maxf := m }

/-- Source bytes folded in ascending element order. -/
def foldFp (j : Job) (p : Fprint) (b : List Byte) : Fprint :=
  let e := elemBytes (dFmt j)
  let F := match dFmt j with | 1 => fmtF16 | 2 => fmtBf16 | _ => fmtF32
  if !dFp j then p else (List.range (b.length / e)).foldl (fun p i => foldOne F p (fld b (i * e) e)) p

/-- The planes of a shaped element at a virtual address of a job's context. -/
def planesOf (s : State) (j : Job) (va : Nat) : Except Flt ShapedAcc :=
  (lookup s (jobBuf s j) j.ctx va).bind (fun t =>
    if pteKind t.leaf.toNat ≠ 4 then .error (permFlt .kind va)
    else shapedAcc s (jobBuf s j) j.ctx ⟨0, va, locOf s t va⟩)

/-- The output of dequantise for the eight codes at a source address (R273), with what it reads. -/
def dequant8 (s : State) (j : Job) (va : Nat) : Except Flt (ShapedAcc × List Byte) :=
  match planesOf s j va with
  | .error f => .error f
  | .ok q =>
    match planeFault s q.cuffVa true false q.cuff, planeFault s q.bandVa true false q.band with
    | some f, _ => .error f
    | none, some f => .error f
    | none, none =>
      let c := planeVal s q.cuffVa q.cuff
      let b := planeVal s q.bandVa q.band
      let F := if dFmt j = 0 then fmtF32 else fmtBf16
      if badLines s q.pa 4 ≠ [] then .error (mkFlt 5 va)
      else match cuffSel c with
        | none => .error (mkFlt 4 q.cuffVa)
        | some sel => .ok (q, (List.range 8).flatMap (fun k =>
            leBytes (elemBytes (dFmt j))
              (roundF F 0 false (sb4Decode sel (dramVal s (q.pa + k / 2) 1 / 2 ^ (4 * (k % 2)) % 16) c b))))

/-- The blocks of a byte range quantised; the offset of the first block that raises a quantise fault (R272). -/
def quantAll (j : Job) (b : List Byte) : Except Nat (List (Nat × Nat)) :=
  (List.range (b.length / 32)).foldr (fun i r =>
    match quantiseBlock ((List.range 8).map (fun k => fld b (32 * i + 4 * k) 4)) (dF j 48 4) (bits (dFlags j) 11 8)
        (bit (dFlags j) 7), r with
    | none, _ => .error (32 * i)
    | some _, .error e => .error e
    | some q, .ok l => .ok (q :: l)) (.ok [])

/-- Write quantised blocks from block number `k` on: codes to DST, cuffs to the side plane, every page checked first. -/
def quantWrite (s : State) (j : Job) (k : Nat) (qs : List (Nat × Nat)) : Except Flt State :=
  let vas := (List.range qs.length).map (fun i => dDst j + 4 * (k + i))
  let chk (va : Nat) : Except Flt ShapedAcc :=
    match planesOf s j va with
    | .error f => .error f
    | .ok q =>
      if !bit q.ent.leaf.toNat 5 then .error (permFlt .write va)
      else if badPartial s q.pa 4 ≠ [] then .error (mkFlt 5 va)
      else match planeFault s q.cuffVa false true q.cuff with
        | some f => .error f
        | none => .ok q
  match allOk (vas.map chk) with
  | .error f => .error f
  | .ok ls =>
    .ok ((ls.zip qs).foldl (fun s p =>
      let q := p.1
      let s1 := writePiece s j ⟨q.a, .dram q.pa q.lat false, 4⟩ (leBytes 4 p.2.1)
      match q.cuff with
      | .ok e => writePiece s1 j ⟨q.cuffVa, e.2, 2⟩ (leBytes 2 p.2.2)
      | .error _ => s1) (cacheEnts s (ls.flatMap planeEnts)))

/-- The operation of a reduce (R263, R275). -/
def ropOf (n : Nat) : AOp :=
  match n with
  | 0 => .add | 1 => .min | 2 => .max | 3 => .and | 4 => .or | 5 => .xor | _ => .fadd

/-- Reduce one piece of the destination by the source bytes for it: relaxed reductions at device scope, over the link as
atomics (R222, R275). -/
def reducePiece (s : State) (j : Job) (p : Piece) (b : List Byte) : State :=
  let e := elemBytes (dFmt j)
  let op := ropOf (bits (dFlags j) 14 12)
  let uns : Bool := dFmt j % 2 = 1
  (List.range (p.n / e)).foldl (fun s i =>
    let x := fld b (i * e) e
    match p.loc with
    | .dram pa lat _ =>
      let b := leBytes e (atomNew op (e = 8) uns (dramVal s (pa + i * e) e) x 0)
      agentWrote (dramWrite s j.ctx (pa + i * e) lat b (jobWriter j)) (dramKey (pa + i * e)) e true (jobRel j)
    | .remote d a _ =>
      match routeOf s d with
      | some port =>
        let (s1, tag) := freshTag s
        let pay := leBytes 1 (aopCode op) ++ leBytes 1 e ++ leBytes 1 uns.toNat ++ leBytes 1 8 ++ leBytes 8 x ++ leBytes 8 0
        sendXact s1 ⟨tag, d, port, 6, pay.length, 0, 0, jobUnit j, j.ctx, 0, a + i * e, false, false, false, pay, p.va + i * e, [], 0,
          false, none⟩
      | none => s
    | _ => s) s

/-- The pieces of a reduce's destination: a reduction reads every line it changes, so that one that fails integrity faults (R415). -/
def redPieces (s : State) (j : Job) (a n : Nat) : Except Flt (List TlbEnt × List Piece) :=
  (piecesOf s j false (dstKinds j) true a n).bind (fun r =>
    match r.2.find? (fun p => match p.loc with | .dram pa _ _ => badLines s pa p.n ≠ [] | _ => false) with
    | some p => .error (mkFlt 5 p.va)
    | none => .ok r)

def reducePieces (s : State) (j : Job) : List Piece → List Byte → State
  | [], _ => s
  | p :: r, b => reducePieces (reducePiece s j p (b.take p.n)) j r (b.drop p.n)

/-- The writes of a transpose of source elements from element `k` on (R274). -/
def transposeWrites (j : Job) (k : Nat) (b : List Byte) : List (Nat × List Byte) :=
  let e := elemBytes (dFmt j)
  let rows := dF j 48 4
  let cols := dF j 52 4
  (List.range (b.length / e)).map (fun i =>
    (dDst j + ((k + i) % cols * rows + (k + i) / cols) * e, (b.drop (i * e)).take e))

/-- The slot offset a rack job fills now. -/
def slotOff (s : State) (j : Job) : Nat :=
  match jobRack s j, j.claim with
  | some r, some c => r.sbase + claimSlot r (BitVec.ofNat 32 c) * r.ssize
  | _, _ => 0

/-- A quantise with SAT clear reads and checks every block of its chunk before it writes any (R272): the job holds what it read. -/
def holdChunk (s : State) (j : Job) (cs : Nat) : Except Flt (State × Job) :=
  let a := dF j 0 8 + cs
  if dXf j ≠ 1 || bit (dFlags j) 7 || j.sub ≠ 0 then .ok (s, j)
  else match readRange s j (dSsp j) (srcKinds j) a (chunkBytes s j) with
    | .error f => .error f
    | .ok (s1, b) =>
      match quantAll j b with
      | .error i => .error (mkFlt 11 (a + i))
      | .ok _ => .ok (s1, { j with held := b })

/-- The source bytes that a quantise takes now: those its job holds, or a fresh read. -/
def quantSrc (s : State) (j : Job) (cs o n : Nat) : Except Flt (State × List Byte) :=
  if bit (dFlags j) 7 then readRange s j (dSsp j) (srcKinds j) (dF j 0 8 + o) n
  else .ok (s, (j.held.drop (o - cs)).take n)

/-- One sub-chunk of a copy job: `o` source bytes from SRC on, `n` of them, in the chunk that begins at `cs`. -/
def copyWork (s : State) (j : Job) (cs o n : Nat) : Except Flt (State × List Byte) :=
  let src := dF j 0 8
  match dXf j with
  | 1 =>
    match quantSrc s j cs o n with
    | .error f => .error f
    | .ok (s1, b) =>
      match quantAll j b with
      | .error i => .error (mkFlt 11 (src + o + i))
      | .ok qs =>
        match quantWrite s1 j (o / 32) qs with
        | .error f => .error f
        | .ok s2 => .ok (s2, b)
  | 2 =>
    match allOk ((List.range (n / 4)).map (fun i => dequant8 s j (src + o + 4 * i))) with
    | .error f => .error f
    | .ok bs =>
      let s0 := bs.foldl (fun s p => shapeTouch s 1 p.1) (cacheEnts s (bs.flatMap (fun p => planeEnts p.1)))
      match writeRanges s0 j (dDsp j) (dstKinds j) [(dDst j + 2 * elemBytes (dFmt j) * o, bs.flatMap (fun p => p.2))] with
      | .error f => .error f
      | .ok s1 => .ok (s1, [])
  | xf =>
    match readRange s j (dSsp j) (srcKinds j) (src + o) n with
    | .error f => .error f
    | .ok (s1, b) =>
      let w : Except Flt State :=
        if xf = 3 then writeRanges s1 j (dDsp j) (dstKinds j) (transposeWrites j (o / elemBytes (dFmt j)) b)
        else if xf = 4 then
          (match redPieces s1 j (dDst j + o) n with
           | .error f => .error f
           | .ok (ts, ps) => .ok (reducePieces (cacheEnts s1 ts) j ps b))
        else writeRanges s1 j (dDsp j) (dstKinds j) [(if dRack j then slotOff s j + (o - cs) else dDst j + o, b)]
      match w with
      | .error f => .error f
      | .ok s2 => .ok (s2, b)

/-- The row an index names (R281, R282): none for a zero row that BOUND supplies. -/
def gatherRow (s : State) (j : Job) (k : Nat) : Except Flt (Option (List TlbEnt × List Piece)) :=
  let a := dF j 8 8 + k * dF j 16 8
  let r := dF j 28 2
  if bit (dFlags j) 3 && dF j 48 4 ≤ k then .ok none
  else if a % 4 ≠ 0 then .error (mkFlt 7 a)
  else if 2 ^ 56 < a + r then .error (permFlt .segmentRange a)
  else match piecesOf s j false rowKinds false a r with
    | .error f => .error f
    | .ok p => .ok (some p)

/-- Where the rows of a chunk go: in a rack row k lies at slot offset (k mod RPS) · ROWB (R278). -/
def gatherWrites (s : State) (j : Job) (n : Nat) (b : List Byte) : List (Nat × List Byte) :=
  let r := dF j 28 2
  if dRack j then
    (List.range n).map (fun i => (slotOff s j + (j.next + i) % rowsPer s j * r, (b.drop (i * r)).take r))
  else [(dDst j + j.next * r, b)]

/-- One chunk of a gather job. -/
def gatherWork (s : State) (j : Job) : Except Flt (State × Nat) :=
  let r := dF j 28 2
  let n := nextAfter s j - j.next
  match readRange s j false rowKinds (dF j 0 8 + 4 * j.next) (4 * n) with
  | .error f => .error f
  | .ok (s1, ib) =>
    match allOk ((List.range n).map (fun i => gatherRow s1 j (fld ib (4 * i) 4))) with
    | .error f => .error f
    | .ok rows =>
      let (s2, b) := rows.foldl (fun sb row => match row with
        | none => (sb.1, sb.2 ++ List.replicate r 0)
        | some (ts, ps) => let (s1, b) := readPieces (cacheEnts sb.1 ts) ps; (s1, sb.2 ++ b)) (s1, [])
      match writeRanges s2 j true normKind (gatherWrites s j n b) with
      | .error f => .error f
      | .ok s3 => .ok (s3, (rows.filter Option.isNone).length)

/-- One step of a running job: a unit, a sub-chunk or a chunk of indices. -/
def workJob (s : State) (j : Job) : State :=
  if j.gather then
    match gatherWork s j with
    | .error f => workFault s j f
    | .ok (s1, z) =>
      let j1 := { j with sub := 1, cur := { j.saved with nanc := j.saved.nanc + BitVec.ofNat 64 z } }
      nextStep (putJob s1 j1) j1 .chunkBoundary
  else
    let size := if dRack j then rackSize s j else dChunk j
    let cs := if dDev j then 0 else j.next * size
    let o := if dDev j then 8 * j.next else cs + j.sub
    let n := if dDev j then 8 else min (4096 - o % 4096) (chunkBytes s j - j.sub)
    match (holdChunk s j cs).bind (fun h => (copyWork h.1 h.2 cs o n).map (fun r => (r.1, h.2, r.2))) with
    | .error f => workFault s j f
    | .ok (s1, j, b) =>
      let j1 := if dDev j then { j with next := j.next + 1, sub := j.sub + 1 }
        else { j with sub := j.sub + n, cur := foldFp j (if j.sub = 0 then j.saved else j.cur) b }
      nextStep (putJob s1 j1) j1 (if chunkFull s1 j1 then .chunkBoundary else .subchunkBoundary)

/-- A sub-chunk; the job pauses while a send window holds one of its writes (R431), and a DEV job until its unit is written (R276). -/
def execSubchunkBoundary (s : State) : Host.Outcome State Fault Refusal :=
  onEngine s (fun j =>
    if chunkFull s j || (dRack j && !(j.claim.isSome && j.rackReady)) then s
    else if j.abort then abortJob s j
    else if (dDev j && jobOut s j) || (jobXacts s j).any (fun x => x.unsent) then nextStep s j .subchunkBoundary
    else workJob s j)

/-! ## Taking a job (R254, R257, R264, R269) -/

/-- The first job of a table's order that may start: ORDER holds a job, and the later ones of its group, while an earlier one
of the group has not ended (R254, R257). -/
def pickJob (run : Nat → Bool) : List Nat → List Nat → List Job → Option Job
  | _, _, [] => none
  | held, live, j :: r =>
    if jobEnded j then pickJob run held live r
    else if j.st ≠ .queued || !run j.ctx then pickJob run held (j.guid :: live) r
    else if held.contains j.guid || (j.order && live.contains j.guid) then pickJob run (j.guid :: held) (j.guid :: live) r
    else some j

/-- A job taken with its descriptor read: its checks, its record, its first step. One whose last chunk only NEXT did not yet count
first writes it. -/
def beginJob (s : State) (j : Job) (d : List Byte) : State :=
  let j1 := { j with desc := d }
  let j2 := { j1 with next := if j.landed then j.next else dNext j1, sub := 0 }
  let s1 := putJob s j2
  if !(if j.gather then gatherOk j2 else copyOk s j2) then jobError s1 { j2 with next := j.next } 1 j.descA.toNat
  else if j2.next = 0 then
    let fp : Fprint := ⟨0, 0, 0, 0, 0⟩
    let j3 := { j2 with saved := fp, cur := fp }
    nextStep (putJob (putComp s1 j3 2 0 false false) j3) j3 (if dRack j3 then .engineRackClaim else .subchunkBoundary)
  else match readRange s1 j2 false normKind (dComp j2) 64 with
    | .error f => jobFault s1 j2 f
    | .ok (s2, r) =>
      let fp : Fprint := ⟨if dDev j2 then 0 else BitVec.ofNat 64 (fld r 16 8), BitVec.ofNat 64 (fld r 8 8),
        BitVec.ofNat 64 (fld r 24 8), BitVec.ofNat 64 (fld r 32 8), BitVec.ofNat 32 (fld r 40 4)⟩
      let j3 := { j2 with saved := fp, cur := fp }
      if !j3.landed then nextStep (putJob s2 j3) j3 (if dRack j3 then .engineRackClaim else .subchunkBoundary)
      else match endBoundary s2 j3 with
        | (s3, none) => s3
        | (s3, some j4) => goOnJob s3 j4

/-- An idle engine takes a job. -/
def takeJob (s : State) (gather : Bool) (f e : Nat) : State :=
  if (engJob s gather f e).isSome then s
  else match pickJob (ctxRuns s) [] [] (s.jobs.filter (fun j => j.gather = gather && jobField s j = f)) with
    | none => s
    | some j =>
      let j1 := { j with st := .running, eng := some e }
      let s1 := putJob s j1
      if j.descA.toNat % 64 ≠ 0 || j.badOpt then endJob s1 j1 .error 1 j.descA.toNat
      else match readRange s1 j1 false normKind j.descA.toNat 64 with
        | .error f => jobFault s1 j1 f
        | .ok (s2, d) => beginJob s2 j1 d

def execJobTake (s : State) : Host.Outcome State Fault Refusal :=
  .next (if s.arg.eng < engCount s.arg.gather then takeJob s s.arg.gather s.arg.field s.arg.eng else s)

/-! ## Stop and resume (R269, R384) -/

/-- A halt or swap stops a context's jobs: a chunk written whole is first recorded, and an abort that may take effect does;
queued jobs keep their place. -/
def stopJob (s : State) (j : Job) : State :=
  if j.st = .queued then putJob s { j with st := .stopped }
  else if j.st ≠ .running then s
  else if j.abort && (j.claim.isNone || j.rackReady) then abortJob s j
  else if chunkFull s j || (dDev j && j.sub ≠ 0) then
    (match boundary s j with
     | (s1, none) => s1
     | (s1, some j1) => if jobTotal s1 j1 ≤ j1.next then finalJob s1 j1 else parkJob s1 j1)
  else parkJob s j

def stopJobs (s : State) (ctx : Nat) : State := (s.jobs.filter (fun j => j.ctx = ctx)).foldl stopJob s

/-- The jobs that a fatal fault stopped end when the context is faulted (R270). -/
def failJobs (s : State) (ctx : Nat) : State :=
  (s.jobs.filter (fun j => j.ctx = ctx && j.st = .stopped && j.err = 5)).foldl (fun s j => jobError s j 5 j.erra.toNat) s

/-- At resume each stopped job is queued again, in its place. -/
def resumeJobs (s : State) (ctx : Nat) : State :=
  let s1 := { s with jobs := updWhere s.jobs (fun j : Job => j.ctx = ctx && j.st = JobState.stopped) (fun j => { j with st := JobState.queued }) }
  (s1.jobs.filter (fun j => j.ctx = ctx && j.st = .queued)).foldl (fun s j => kickEngines s (jobField s j) j.gather) s1

/-! ## The commands (R77 to R79, R257 to R259) -/

/-- An engine command: it acts once, and writes its reply when it has one (R79). -/
def engCmd (reply : Bool) (x : InsWord) (s : State) (k : Group → Nat → Nat → Option (State × Group × Nat)) :
    Host.Outcome State Fault Refusal :=
  withGroup s (fun g =>
    if active g x = [] then finish s g
    else match k g (addrOf g x x.opa) (addrOf g x x.opb) with
      | none => stallOf s g
      | some (s1, h, r) => finish s1 (if reply then wrDstS h x r else g))

/-- A status reply observes what its job has written, for a later `FENCE.X` (R303). -/
def sawJob (g : Group) (j : Job) : Group := { g with seen := g.seen ++ jobRel j }

/-- `CPY.GO` and `GTH.GO`: accepted when the table has an entry; the reply is the job id. -/
def goCmd (gather : Bool) (s : State) (g : Group) (a b : Nat) : Option (State × Group × Nat) :=
  (acceptJob s ⟨g.ctx, vfieldOf s g.ctx g.core, gather, g.uid, bit b 0, 2 ≤ b, BitVec.ofNat 64 a, g.segS, g.segN, none,
    pathClk g (pathOf gather)⟩).map
    (fun r => (r.1, g, jobId r.2))

/-- `CPY.ST` and `GTH.ST`. -/
def stCmd (gather : Bool) (s : State) (g : Group) (a b : Nat) : Option (State × Group × Nat) :=
  if 2 ^ 32 ≤ a || b ≠ 0 then some (s, g, 256)
  else match findJob s g.ctx gather a with
    | some j => some (s, sawJob g j, jobStatus j)
    | none => some (s, g, 0)

/-- The abort of a queued job: COMP is read from its descriptor for its record; a slot it has claimed must still be landed, so
the job then waits for an engine (R259, R278). -/
def abortQueued (s : State) (j : Job) : State :=
  if j.claim.isSome then putJob s { j with abort := true }
  else
    let o := if j.gather then 40 else 32
    let old := if j.desc = [] then List.replicate 64 (0 : Byte) else j.desc
    match agentLoad s (jobBuf s j) j.ctx (j.descA.toNat + o) 8 with
    | some b => endWith (agentTouch s (jobBuf s j) j.ctx (j.descA.toNat + o) 8) { j with desc := old.take o ++ b ++ old.drop (o + 8) } .aborted 0 0 false
    | none => endJob (elog s j.part 4 (jobUnit j) j.ctx (j.descA.toNat + o) 0 []) j .aborted 0 0

/-- `CPY.ABT` and `GTH.ABT`: the reply is the status before the abort takes effect. -/
def abtCmd (gather : Bool) (s : State) (g : Group) (a b : Nat) : Option (State × Group × Nat) :=
  if 2 ^ 32 ≤ a || b ≠ 0 then some (s, g, 256)
  else match findJob s g.ctx gather a with
    | none => some (s, g, 0)
    | some j =>
      let s1 := match j.st with
        | .queued => abortQueued s j
        | .running => putJob s { j with abort := true }
        | _ => s
      some (s1, sawJob g j, jobStatus j)

def execCpyGo (reply : Bool) (x : InsWord) (s : State) : Host.Outcome State Fault Refusal := engCmd reply x s (goCmd false s)
def execCpySt (reply : Bool) (x : InsWord) (s : State) : Host.Outcome State Fault Refusal := engCmd reply x s (stCmd false s)
def execCpyAbt (reply : Bool) (x : InsWord) (s : State) : Host.Outcome State Fault Refusal := engCmd reply x s (abtCmd false s)
def execGthGo (reply : Bool) (x : InsWord) (s : State) : Host.Outcome State Fault Refusal := engCmd reply x s (goCmd true s)
def execGthSt (reply : Bool) (x : InsWord) (s : State) : Host.Outcome State Fault Refusal := engCmd reply x s (stCmd true s)
def execGthAbt (reply : Bool) (x : InsWord) (s : State) : Host.Outcome State Fault Refusal := engCmd reply x s (abtCmd true s)

end Sys2Proof.Machine
end

