-- ==== Sys2Proof/Machine/Rows.lean ====
section
/-! DEFINITION. Row functions and promotion (R403 to R413). The states of a row are in Machine/Memory.lean; no promotion
changes a value (R17). -/

namespace Sys2Proof.Machine
open Sys2Proof

/-! ## Translation of the operands (R409) -/

/-- The local DRAM address of a range in one page, for a read or a write; none where the frame is not local DRAM. -/
def rowPlace (s : State) (buf ctx va : Nat) (w : Bool) : Except Flt (TlbEnt × Option Nat) :=
  match lookup s buf ctx va with
  | .error f => .error f
  | .ok t =>
    let e := t.leaf.toNat
    if w && !bit e 5 then .error (permFlt .write va)
    else match locOf s t va with
      | .dram pa _ _ => if regionOf s pa = .dram then .ok (t, some pa) else .error (mkFlt 3 va)
      | _ => .ok (t, none)

/-- Whether a range lies within one 64 KiB-aligned block. -/
def oneBlock (a n : Nat) : Bool := n ≠ 0 && a < 2 ^ 56 && a / 65536 = (a + n - 1) / 65536

/-! ## Ids (R409) -/

def rowGenKey (st e : Nat) : Nat := 2 ^ 40 + 64 * st + e

/-- The lowest free entry of a base die's row-job table. -/
def rowEntry (s : State) (st : Nat) : Option Nat :=
  (List.range 64).find? (fun e => !s.rowJobs.any (fun j => j.stack = st && j.entry = e))

/-- The id of a row job (R255, R409): bits [11:8] hold 1, bit 31 is zero. -/
def rowId (s : State) (ctx st e : Nat) : Nat :=
  let v := match ctxOf s ctx with | some c => virtField c st | none => st
  (SMap.get 0 s.jobGen (rowGenKey st e)).toNat % 32768 * 65536 + v % 16 * 4096 + 256 + e

/-- An entry is free again: its next use has the next generation. -/
def bumpGen (s : State) (st e : Nat) : State :=
  { s with jobGen := SMap.put 0 s.jobGen (rowGenKey st e) (SMap.get 0 s.jobGen (rowGenKey st e) + 1) }

/-- The reply of a refused command. -/
def refused (r : Nat) : Nat := 2 ^ 31 + r

/-- A row function: it acts once, after its operands are read, translated and checked. -/
def rowCmd (reply : Bool) (x : InsWord) (s : State) (k : Group → Nat → Nat → Except Flt (Option (State × Nat))) :
    Host.Outcome State Fault Refusal :=
  withGroup s (fun g =>
    if active g x = [] then finish s g
    else match k g (addrOf g x x.opa) (addrOf g x x.opb) with
      | .error f => takeFault s g f
      | .ok none => stallOf s g
      | .ok (some (s1, r)) => finish s1 (if reply then wrDstS g x r else g))

/-! ## Promotion commands (R410) -/

/-- A row function reaches the rows of a range, those of the slow class. -/
def onRows (c : RowCmd) (s : State) (pa n : Nat) : State :=
  (List.range n).foldl (fun s i =>
    let a := pa + 1024 * i
    if 0x0F000000000 ≤ a then s else rowAct s (homeStack a) ⟨c, stackOff a / 1024, 2⟩) s

/-- `ROW.PROM`, `ROW.DEM`, `ROW.PIN`, `ROW.UNPIN` on `n` rows from `a`. -/
def promCmd (c : RowCmd) (s : State) (g : Group) (a n : Nat) : Except Flt (Option (State × Nat)) :=
  if a % 1024 ≠ 0 || n = 0 || 64 < n || !oneBlock a (1024 * n) then .ok (some (s, refused 1))
  else match rowPlace s (gBuf g) g.ctx a false with
    | .error f => .error f
    | .ok (t, none) => .ok (some (cacheEnts s [t], refused 2))
    | .ok (t, some pa) =>
      match rowEntry s (homeStack pa) with
      | none => .ok none
      | some e =>
        .ok (some (bumpGen (onRows c (cacheEnts s [t]) pa n) (homeStack pa) e, rowId s g.ctx (homeStack pa) e))

def execRowProm (reply : Bool) (x : InsWord) (s : State) : Host.Outcome State Fault Refusal :=
  rowCmd reply x s (promCmd .prom s)
def execRowDem (reply : Bool) (x : InsWord) (s : State) : Host.Outcome State Fault Refusal := rowCmd reply x s (promCmd .dem s)
def execRowPin (reply : Bool) (x : InsWord) (s : State) : Host.Outcome State Fault Refusal :=
  rowCmd reply x s (promCmd .pin s)
def execRowUnpin (reply : Bool) (x : InsWord) (s : State) : Host.Outcome State Fault Refusal := rowCmd reply x s (promCmd .unpin s)

/-! ## `ROW.COPY` and `ROW.INIT` (R411, R412) -/

/-- The 32-byte descriptor and what reading it leaves: misaligned, untranslated and unreadable ones, and those in a host or CXL page,
fault at the instruction; none for one that lies neither in this device's memory nor in another's (log entry 47). -/
def rowDesc (s : State) (buf ctx a : Nat) : Except Flt (Option (State × List Byte)) :=
  if a % 32 ≠ 0 then .error (mkFlt 7 a)
  else (lookup s buf ctx a).bind (fun t =>
    let loc := locOf s t a
    let read := (unitBytes s loc a 32).map (fun b => some (unitTouch (cacheEnts s [t]) loc 32, b))
    if pteKind t.leaf.toNat = 2 || pteKind t.leaf.toNat = 3 then .error (permFlt .kind a)
    else match loc with
      | .dram pa _ _ => if regionOf s pa = .dram then read else .error (mkFlt 3 a)
      | .remote .. => read
      | _ => .ok none)

/-- What a base die's writes hand on (R303). -/
def rowRel (j : RowJob) : List Rel := [pathRel 5 j.ctx j.vc]

/-- A fill pattern of a stack (R404): PAT0 is zero, PAT1 the halfword 0x0300 repeated. -/
def patBytes (s : State) (st k : Nat) : List Byte :=
  (List.range 8).flatMap (fun i => leBytes 8 (regRead64 s (regStack st (0x100 + 64 * k + 8 * i))).toNat)

/-- One line copied undecoded (R411): a line that does not verify passes its error on. -/
def copyLine (s : State) (j : RowJob) (i : Nat) : State :=
  let p := j.src + 64 * i
  let q := j.dst + 64 * i
  let ok := lineOk s (p / 64)
  let s1 := agentDram (touchRow s p false 2) j.ctx q 2 (dramBytes s p 64) ⟨6, Config.rowWriter j.stack, 0⟩ (rowRel j)
  if ok then s1 else { s1 with bad := (q / 64) :: s1.bad }

/-- One line filled with its pattern (R412). -/
def initLine (s : State) (j : RowJob) (i : Nat) : State :=
  agentDram s j.ctx (j.dst + 64 * i) 2 (patBytes s j.stack j.pat) ⟨6, Config.rowWriter j.stack, 0⟩ (rowRel j)

/-- The base die receives the command behind the writes accepted before it and ahead of later ones: its lines are performed as those
writes leave them (R402). -/
def rowLines (s : State) (j : RowJob) : State :=
  (List.range (j.len / 64)).foldl (fun s i => if j.init then initLine s j i else copyLine s j i) s

/-- Accept a row job: its entry, its id, its lines; the step that ends it is due. -/
def acceptRow (s : State) (g : Group) (init : Bool) (src dst len pat comp : Nat) : Option (State × Nat) :=
  let ctx := g.ctx
  let st := homeStack dst
  match rowEntry s st with
  | none => none
  | some e =>
    let id := rowId s ctx st e
    let j : RowJob := ⟨st, BitVec.ofNat 32 id, ctx, init, e, src, dst, len, pat, BitVec.ofNat 64 comp, pathClk g 5⟩
    some (enqueue (rowLines { s with rowJobs := s.rowJobs ++ [j] } j) .rowJobDone { stack := st }, id)

/-- Whether a row job's COMP breaks R411: no multiple of 16, past the address space, or in a page of another kind than normal; one
that does not translate now is left to the record's write (R457; log entry 47). -/
def badComp (s : State) (g : Group) (comp : Nat) : Bool :=
  comp % 16 ≠ 0 || 2 ^ 56 < comp + 16 || offNormal s (gBuf g) g.ctx comp

def copyCmd (s0 : State) (g : Group) (a b : Nat) : Except Flt (Option (State × Nat)) :=
  match rowDesc s0 (gBuf g) g.ctx a with
  | .error f => .error f
  | .ok none => .ok (some (s0, refused 2))
  | .ok (some (s, d)) =>
    let src := fld d 0 8
    let dst := fld d 8 8
    let n := fld d 16 4
    if b ≠ 0 then .ok (some (s, refused 1))
    else if src % 1024 ≠ 0 || dst % 1024 ≠ 0 || n % 1024 ≠ 0 || n < 1024 || 65536 < n || fld d 20 4 ≠ 0
      || badComp s g (fld d 24 8) || !oneBlock src n || !oneBlock dst n || (src < dst + n && dst < src + n)
    then .ok (some (s, refused 3))
    else match rowPlace s (gBuf g) g.ctx src false, rowPlace s (gBuf g) g.ctx dst true with
      | .error f, _ => .error f
      | .ok _, .error f => .error f
      | .ok (t1, some p), .ok (t2, some q) =>
        let s1 := cacheEnts s [t1, t2]
        if homeStack p ≠ homeStack q || (p < q + n && q < p + n) then .ok (some (s1, refused 3))
        else .ok (acceptRow s1 g false p q n 0 (fld d 24 8))
      | .ok _, .ok _ => .ok (some (s, refused 2))

def initCmd (s0 : State) (g : Group) (a b : Nat) : Except Flt (Option (State × Nat)) :=
  match rowDesc s0 (gBuf g) g.ctx a with
  | .error f => .error f
  | .ok none => .ok (some (s0, refused 2))
  | .ok (some (s, d)) =>
    let dst := fld d 8 8
    let n := fld d 16 4
    if 15 < b then .ok (some (s, refused 1))
    else if fld d 0 8 ≠ 0 || dst % 64 ≠ 0 || n % 64 ≠ 0 || n = 0 || 65536 < n || fld d 20 4 ≠ 0 || badComp s g (fld d 24 8)
      || !oneBlock dst n
    then .ok (some (s, refused 3))
    else match rowPlace s (gBuf g) g.ctx dst true with
      | .error f => .error f
      | .ok (t1, some q) => .ok (acceptRow (cacheEnts s [t1]) g true 0 q n b (fld d 24 8))
      | .ok (t1, none) => .ok (some (cacheEnts s [t1], refused 2))

def execRowCopy (reply : Bool) (x : InsWord) (s : State) : Host.Outcome State Fault Refusal := rowCmd reply x s (copyCmd s)
def execRowInit (reply : Bool) (x : InsWord) (s : State) : Host.Outcome State Fault Refusal := rowCmd reply x s (initCmd s)

/-! ## The steps of a base die -/

/-- The copy into a slot has ended: PROMOTING to CLEAN, and the requests held are performed (R405). -/
def execRowPromoteDone (s : State) : Host.Outcome State Fault Refusal :=
  let r := rowGet s s.arg.addr
  .next (if r.row ≠ 0 && r.busy && !r.writingBack then
      replayRows (rowPut s s.arg.addr { r with busy := false, held := [] }) s.arg.stack r.held
    else s)

/-- The copy of a slot to its slow row has ended: the row is SLOW, and the slot is free or takes the row that evicted it (R405,
R406); then the requests held are performed. -/
def execRowWritebackDone (s : State) : Host.Outcome State Fault Refusal :=
  let r := rowGet s s.arg.addr
  .next (if r.row ≠ 0 && r.writingBack then
      replayRows (match r.next with
        | some n => promoteInto s s.arg.stack s.arg.addr n.1 n.2
        | none => rowPut s s.arg.addr default) s.arg.stack r.held
    else s)

/-- The epoch of a stack advances (R406). -/
def execEpochTick (s : State) : Host.Outcome State Fault Refusal :=
  .next (if s.arg.stack < 16 then
      { s with stEpoch := SMap.put 0 s.stEpoch s.arg.stack (SMap.get 0 s.stEpoch s.arg.stack + 1) }
    else s)

/-- The oldest row job of a base die ends: its completion record, which an acquire or a `FENCE.X` reads after its lines (R304,
R413). -/
def endRow (s : State) (st : Nat) : State :=
  match s.rowJobs.find? (fun j => j.stack = st) with
  | none => s
  | some j =>
    let b := leBytes 4 4 ++ leBytes 4 j.id.toNat ++ leBytes 8 s.clock.toNat
    let s1 := putRecord s (fieldBuf st) j.ctx 0xFFFF j.comp.toNat b ⟨6, Config.rowWriter st, 0⟩ (sysRel j.ctx j.vc :: rowRel j)
    bumpGen { s1 with rowJobs := s1.rowJobs.erase j } st j.entry

def execRowJobDone (s : State) : Host.Outcome State Fault Refusal := .next (endRow s s.arg.stack)

end Sys2Proof.Machine
end

