-- ==== Sys2Proof/Machine/Link.lean ====
section
/-! DEFINITION. The Brudjauri link and the PCIe ports (R198, R225 to R227, R246, R247, R416 to R443): commands, inbound
transactions, answers, port states. What the far ends do is an input: the steps of the opcode table bring it in `State.arg`. -/

namespace Sys2Proof.Machine
open Sys2Proof

/-! ## Translations dropped (R396, R435) -/

def tlbDrop (s : State) (p : TlbEnt → Bool) : State := { s with tlb := s.tlb.filter (fun t => !p t) }
def tlbDropPage (s : State) (ctx va : Nat) : State :=
  tlbDrop s (fun t => t.ctx = ctx && va / lvlSize t.lvl * lvlSize t.lvl = t.base)
def tlbDropCtx (s : State) (ctx : Nat) : State := tlbDrop s (fun t => t.ctx = ctx)

/-! ## Flits (R422) -/

/-- One flit of 256 bytes: header, payload padded with zeros, and the CRC over the whole with its own field read as zero. -/
def flitBytes (dst src kind tag : Nat) (ord more : Bool) (addr : Nat) (pay : List Byte) : List Byte :=
  let head := leBytes 2 (dst % 2 ^ 14) ++ leBytes 2 (src % 2 ^ 14) ++ leBytes 1 kind ++ leBytes 1 (pay.take 240).length ++
    leBytes 2 (tag % 2 ^ 12 + (if ord then 2 ^ 12 else 0) + (if more then 2 ^ 13 else 0)) ++ leBytes 6 (addr % 2 ^ 41)
  let body := pay.take 240 ++ List.replicate (240 - pay.length) 0#8
  head ++ leBytes 2 (crc16 (head ++ [0#8, 0#8] ++ body)).toNat ++ body

/-- The flits of a transaction: one for every 240 bytes of payload and one when there is none; the first alone carries ADDR. -/
def flitsOf (dst src kind tag : Nat) (ord : Bool) (addr : Nat) (pay : List Byte) : List (List Byte) :=
  let n := max 1 ((pay.length + 239) / 240)
  (List.range n).map (fun i => flitBytes dst src kind tag ord (i + 1 < n) (if i = 0 then addr else 0) (pay.drop (240 * i)))

/-! ## Sending (R426, R432 to R435) -/

/-- An arrival of `n` at a global barrier address (R433, R434): over its port, or by the inbound path for the own id, where it hands on
what its sender has observed (R299). -/
def sendArrival (s : State) (w : Sender) (a n : Nat) (vc : SMap Nat) : State :=
  let dev := bits a 54 41
  let (s1, tag) := freshTag s
  let x : Xact := ⟨tag, dev, 16, 8, 10, w.guid, w.core, w.slot, w.ctx, w.pc, w.a, true, false, false, leBytes 8 a ++ leBytes 2 n,
    w.a, vc, s.clock.toNat, false, none⟩
  if dev = ownDev s then
    enqueue { s1 with xacts := s1.xacts ++ [x] } .linkRxArrival
      { src := BitVec.ofNat 14 dev, tag := tag, val := BitVec.ofNat 64 a, word := BitVec.ofNat 32 n }
  else match routeOf s dev with
    | some port => sendXact s1 { x with port := port }
    | none => s

def groupSender (g : Group) (a : Nat) : Sender := ⟨g.uid, g.core, g.slot, g.ctx, g.pc, a⟩

/-- The reply of a link command and its group going on. -/
def linkReply (reply : Bool) (x : InsWord) (s : State) (g : Group) (st : Nat) : State :=
  finish s (if reply then wrDstS g x st else g)

def execLnkArr (reply : Bool) (x : InsWord) (s : State) : Host.Outcome State Fault Refusal :=
  withGroup s (fun g =>
    let a := addrOf g x x.opa
    let n := addrOf g x x.opb
    let dev := bits a 54 41
    if active g x = [] then finish s g
    else if bits a 63 55 ≠ 0 || bits a 40 31 ≠ 0 || 65535 < n then linkReply reply x s g 2
    else if dev ≠ ownDev s && (routeOf s dev).isNone then linkReply reply x s g 1
    else if dev ≠ ownDev s && !linkRoom s dev 10 then stallOf s g
    else afterFence s g true (linkReply reply x (sendArrival s (groupSender g a) a n g.vc) (released g) 0))

def execLnkMsg (reply : Bool) (x : InsWord) (s : State) : Host.Outcome State Fault Refusal :=
  withGroup s (fun g =>
    let a := addrOf g x x.opa
    let d := addrOf g x x.opb
    if active g x = [] then finish s g
    else if a % 64 ≠ 0 || 2 ^ 14 ≤ d then linkReply reply x s g 2
    else if d ≠ ownDev s && (routeOf s d).isNone then linkReply reply x s g 1
    else if 2 ^ 56 ≤ a then takeFault s g (permFlt .segmentRange a)
    else match agentRead s (gBuf g) g.ctx a 64 with
      | .error f => takeFault s g f
      | .ok (s1, b) =>
        if bits (fld b 2 1) 6 3 ≠ 0 then linkReply reply x s1 g 2
        else if bit (fld b 2 1) 7 && !g.priv then takeFault s1 g (permFlt .linkPrivilege a)
        else if d ≠ ownDev s && !linkRoom s d 64 then stallOf s g
        else afterFence s g true (linkReply reply x (sendMessage s1 (groupSender g a) g.part b d g.vc) (released g) 0))

/-! ## Inbound requests (R425, R434, R435) -/

/-- Whether a source's requests are served, by its routing entry: also the own id's, whose arrivals and messages take this path
(R425 to R427; log entry 25). -/
def served (s : State) (src : Nat) (priv : Bool) : Bool :=
  let e := (regVal s (routeReg src)).toNat
  bit e 10 && (!priv || bit e 11)

/-- A transaction from outside arrives: over a port that serves, or by the own device's path (R420, R426). -/
def inbound (s : State) (k : State) : Host.Outcome State Fault Refusal :=
  .next (if s.mode = .running && (s.arg.src.toNat = ownDev s || portServes s s.arg.port) then k else s)

/-- Answer a request: over the link by the route to its source, or to a transaction of the own device. No route, no answer (R427). -/
def respond (s : State) (src kind tag : Nat) (st : Resp) (data : List Byte) : State :=
  if src = ownDev s then enqueue s .linkRxWriteResponse { tag := tag, status := st }
  else match routeOf s src with
    | some port => emit s (.response port src kind tag st data)
    | none => s

/-- The writer of an inbound link write: the port it came in on and the source device (R389). -/
def linkWriter (s : State) (src : Nat) : Writer := ⟨5, s.arg.port + 256 * src, 0⟩

/-- A physical write from outside: the watchpoints of every context in the banks see it. No leaf gives it a LAT hint (log entry 42). A
read-modify-write carries on the releases made there before (R294). -/
def inboundDram (s : State) (pa : Nat) (b : List Byte) (wr : Writer) (rmw : Bool) (rs : List Rel) : State :=
  (s.ctxs.filter (fun c => c.st = .active || c.st = .halted)).foldl (fun s c => watch s c.id false pa b wr)
    (notice (agentWrote (dramPut s pa b 2) (dramKey pa) b.length rmw rs))

/-- Bytes at listed addresses as runs of consecutive ones. -/
def putRuns : List (Nat × Byte) → List (Nat × List Byte)
  | [] => []
  | (a, b) :: r =>
    match putRuns r with
    | (a', bs) :: rest => if a' = a + 1 then (a, b :: bs) :: rest else (a, [b]) :: (a', bs) :: rest
    | [] => [(a, [b])]

/-- Whether a window of a port takes accesses: its link is up, and a CXL window is enabled (R417, R443). -/
def windowUp (s : State) (p : Nat) (cxl : Bool) : Bool := extUp s ⟨some p, none, cxl, !cxl, 0, true⟩

/-- The bus address that a window's local address stands for (R416, R443). -/
def cxlAddr (s : State) (p a : Nat) : Nat := (regVal s (regPcie p 0)).toNat + a % 2 ^ 37
def peerAddr (s : State) (p a : Nat) : Nat := (regVal s (regPcie p 0x18)).toNat + a % 2 ^ 37

/-- One run written at local addresses; none where it is answered with an error. Registers are written eight bytes at a time. -/
def inboundWrite (s : State) (r : Nat × List Byte) (wr : Writer) : Option State :=
  match regionRun s r.1 r.2.length with
  | .dram => if badPartial s r.1 r.2.length ≠ [] then none else some (inboundDram s r.1 r.2 wr false [])
  | .reg => some ((runs 8 r.1 r.2.length).foldl (fun s u =>
      regStore s (.group 0xFFFF 0xFFFF) u.1 u.2 (leVal ((r.2.drop (u.1 - r.1)).take u.2))) s)
  | .cxl p => if windowUp s p true then some (emit s (.busWrite p (cxlAddr s p r.1) r.2)) else none
  | .peer p => if windowUp s p false then some (emit s (.busWrite p (peerAddr s p r.1) r.2)) else none
  | .none => none

/-- The runs of a write, all or, where one is refused, those before it. -/
def inboundWrites (s : State) (wr : Writer) : List (Nat × List Byte) → State × Bool
  | [] => (s, true)
  | r :: rest =>
    match inboundWrite s r wr with
    | some s1 => inboundWrites s1 wr rest
    | none => (s, false)

/-- Bytes read at local addresses for a request from outside; none where it is answered with an error. What an expander or a peer answers
is a free value in the same step, an error, poisoned data or a timeout (R417, R443) by `Config.readFails` (log entry 8). -/
def inboundRead (s : State) (a n : Nat) : Option (State × List Byte) :=
  let bus (p addr : Nat) (up : Bool) : Option (State × List Byte) :=
    if up && !Config.readFails s.turn addr then some (freeBytes (emit s (.busRead p addr n)) n) else none
  match regionRun s a n with
  | .dram => if badLines s a n ≠ [] then none else some (touchRows s a n false 2, dramBytes s a n)
  | .reg => some (s, (runs 8 a n).flatMap (fun u => leBytes u.2 (regLoad s u.1 u.2)))
  | .cxl p => bus p (cxlAddr s p a) (windowUp s p true)
  | .peer p => bus p (peerAddr s p a) (windowUp s p false)
  | .none => none

def execLinkRxReadRequest (s : State) : Host.Outcome State Fault Refusal :=
  let src := s.arg.src.toNat
  inbound s (if !served s src false then respond s src 2 s.arg.tag .error []
    else match inboundRead s s.arg.addr s.arg.len with
      | some (s1, b) => respond s1 src 2 s.arg.tag .accepted b
      | none => respond s src 2 s.arg.tag .error [])

/-- A write of any kind: performed and acknowledged, or answered with an error. -/
def rxWrite (s : State) (tag : Nat) : State :=
  let src := s.arg.src.toNat
  if !served s src false then respond s src 5 tag .error []
  else
    let (s1, ok) := inboundWrites s (linkWriter s src) (putRuns s.arg.put)
    respond s1 src 5 tag (if ok then .accepted else .error) []

def execLinkRxPostedWrite (s : State) : Host.Outcome State Fault Refusal := inbound s (rxWrite s s.arg.tag)
def execLinkRxNonpostedWrite (s : State) : Host.Outcome State Fault Refusal := inbound s (rxWrite s s.arg.tag)

/-- A read-modify-write from outside at a local address: the old value; none where it is answered with an error. -/
def inboundAtom (s : State) (q : AtomReq) (a : Nat) (wr : Writer) : Option (State × Nat) :=
  let z := if q.w64 then 8 else 4
  if regionOf s a ≠ .dram || a % z ≠ 0 || badPartial s a z ≠ [] then none
  else
    let old := dramVal s a z
    some (inboundDram s a (leBytes z (atomNew q.op q.w64 q.uns old (q.data.toNat % 2 ^ (8 * z)) (q.cmp.toNat % 2 ^ (8 * z)))) wr true [], old)

/-- An atomic is answered with the old value, a reduction by a write's response (R424). -/
def execLinkRxAtomic (s : State) : Host.Outcome State Fault Refusal :=
  let src := s.arg.src.toNat
  let q := s.arg.atom
  let kind := if q.ret then 7 else 5
  inbound s (if !served s src false then respond s src kind s.arg.tag .error []
    else match inboundAtom s q q.addr (linkWriter s src) with
      | some (s1, old) => respond s1 src kind s.arg.tag .accepted (if q.ret then leBytes 8 old else [])
      | none => respond s src kind s.arg.tag .error [])

/-- The physical scratch address of a scratch address of a context; none outside its cores. -/
def ctxScr (c : Ctx) (a : Nat) : Option Nat :=
  if a / 2 ^ 19 < c.ncore && physCore c (a / 2 ^ 19) < 384 then some (physScr c a) else none

/-- The barrier a remote arrival names, when R246 lets it act. -/
def remoteBar (s : State) (c : Ctx) (a : Nat) : Option Nat :=
  match ctxScr c a with
  | none => none
  | some ba => if ba % 16 = 0 && (barAt s ba).valid && (barAt s ba).remote then some ba else none

/-- A remote arrival for a resident context (R246). -/
def barArrival (s : State) (c : Ctx) (a n : Nat) (vc : SMap Nat) : State × Resp :=
  match remoteBar s c a with
  | some ba => (barNoted s ba vc (fun b => arriveB b n), .accepted)
  | none => (s, .error)

/-- A remote arrival for a context that is not resident: parked for it (R247; log entry 48). -/
def parkArrival (s : State) (p id a n : Nat) (vc : SMap Nat) : State × Resp :=
  if 256 ≤ (partOf s p).parked.length then (s, .retry)
  else (updPart s p (fun q => { q with parked := q.parked ++ [⟨id, vc, a, BitVec.ofNat 16 n⟩] }), .accepted)

/-- A remote arrival: applied, parked or refused (R246, R247, R434). -/
def rxArrival (s : State) (a n : Nat) (vc : SMap Nat) : State × Resp :=
  let p := bits a 30 28
  let id := (regVal s (regPart p 0xD8)).toNat % 2 ^ 32
  if id = 0 then (s, .error)
  else match ctxOf s id with
  | none => parkArrival s p id (bits a 27 0) n vc
  | some c => if c.inBanks then barArrival s c (bits a 27 0) n vc else parkArrival s p id (bits a 27 0) n vc

/-- What the sender of an inbound transaction had observed: known of the own device's. -/
def senderVc (s : State) (src tag : Nat) : SMap Nat :=
  if src = ownDev s then (match s.xacts.find? (fun x => x.tag = tag) with | some x => x.vc | none => []) else []

def execLinkRxArrival (s : State) : Host.Outcome State Fault Refusal :=
  let src := s.arg.src.toNat
  inbound s (if !served s src false then respond s src 5 s.arg.tag .error []
    else
      let r := rxArrival s s.arg.val.toNat (s.arg.word.toNat % 65536) (senderVc s src s.arg.tag)
      respond r.1 src 5 s.arg.tag r.2 [])

/-- A message written to its partition's ring, WIDX as a release at `.sys` (R435, R436). -/
def rxMessage (s : State) (src spart : Nat) (b : List Byte) (vc : SMap Nat) : State × Resp :=
  let p := bits (fld b 2 1) 2 0
  let r := (regVal s (regPart p 0xD0)).toNat
  let cb := r % 2 ^ 41 / 64 * 64
  let log2n := dramVal s (cb + 8) 1
  let ctx := (regVal s (regPart p 0xD8)).toNat % 2 ^ 32
  if !bit r 63 || regionRun s cb 64 ≠ .dram || badLines s cb 64 ≠ [] || dramVal s (cb + 9) 1 ≠ 2 || log2n < 1 || 20 < log2n then (s, .error)
  else
    let widx := dramVal s (cb + 16) 4
    let ridx := dramVal s (cb + 20) 4
    let rec64 := leBytes 2 src ++ leBytes 1 (fld b 2 1) ++ leBytes 1 spart ++ (b.drop 4).take 60
    if 2 ^ log2n ≤ (widx + 2 ^ 32 - ridx) % 2 ^ 32 then (s, .retry)
    else
      let va := dramVal s cb 8 + 64 * (widx % 2 ^ log2n)
      match storeTo s (partBuf s p) ctx (va, 64) with
      | .error _ => (s, .error)
      | .ok (t, loc) =>
        let s0 := cacheEnts (touchRows s cb 64 false 2) [t]
        let s1 := match loc with
          | .dram pa _ _ => inboundDram s0 pa rec64 (linkWriter s src) false []
          | l => storeRun s0 ctx va l rec64 (linkWriter s src) []
        (inboundDram s1 (cb + 16) (leBytes 4 (widx + 1)) (linkWriter s src) false [inboundRel ctx vc], .accepted)

def execLinkRxMessage (s : State) : Host.Outcome State Fault Refusal :=
  let src := s.arg.src.toNat
  inbound s (if !served s src false then respond s src 5 s.arg.tag .error []
    else
      let r := rxMessage s src s.arg.part s.arg.data (senderVc s src s.arg.tag)
      respond r.1 src 5 s.arg.tag r.2 [])

/-- An inbound shootdown (R435). -/
def execLinkRxShootdown (s : State) : Host.Outcome State Fault Refusal :=
  let src := s.arg.src.toNat
  inbound s (if !served s src true || 1 < s.arg.kind.toNat then respond s src 5 s.arg.tag .error []
    else respond (if s.arg.kind = 0 then tlbDropPage s s.arg.ctx s.arg.val.toNat else tlbDropCtx s s.arg.ctx) src 5 s.arg.tag
      .accepted [])

/-! ## Answers (R424, R429, R432) -/

/-- The running job of an engine unit's write. -/
def writerJob (s : State) (ctx unit : Nat) : Option Job :=
  s.jobs.find? (fun j => j.ctx = ctx && jobUnit j = unit && j.st = .running)

/-- What the loss of an outstanding transaction raises: against the group, engine or record that sent it (R226, R227, R270,
R433, R457). That of an agent without a unit number of R387, a SIGNAL packet, faults its context and names no unit (log entry 25). -/
def xactFault (s : State) (x : Xact) : State :=
  if x.load then loadFails s x.tag 6
  else
    let s1 := storeAccepted s x.tag
    match x.record with
    | some u => elog s1 (partOfCtx s x.ctx) 4 u x.ctx x.va 0 x.payload
    | none =>
    if x.guid ≠ 0 then lateFault s1 x.ctx x.core x.slot 6 x.pc x.va
    else if x.ctx = 0 then s1
    else if x.slot = 0xFFFF then lateFault s1 x.ctx 0xFFFF 0xFFFF 6 x.pc x.va
    else match writerJob s1 x.ctx x.slot with
      | some j => jobFault s1 j (mkFlt 6 x.va)
      | none => unitFault s1 x.ctx x.slot 6 0 0 0 x.va

/-- A port that drains may be done (R419). -/
def drainLook (s : State) (port : Nat) : State :=
  if (portAt s port).st = 4 then enqueueOnce s .quiesceDrained { port := port } else s

/-- A transaction ends; a port that drains may be done. -/
def endXact (s : State) (x : Xact) : State := drainLook (dropXact s x.tag) x.port

def xactOf (s : State) (tag : Nat) : Option Xact := s.xacts.find? (fun x => x.tag = tag)

/-- The outstanding transaction that an answer ends: it comes back from the own device or over a port that receives, one that drains
with them (R419). -/
def answered (s : State) (tag : Nat) : Option Xact :=
  (xactOf s tag).filter (fun x => x.dst = ownDev s || portServes s x.port || (portAt s x.port).st = 4)

/-- An update is performed, or accepted, at its target (R222, R223, R443). -/
def execUpdatePerformed (s : State) : Host.Outcome State Fault Refusal :=
  let tag := s.arg.tag
  let s1 := match xactOf s tag with | some x => if x.load then s else endXact s x | none => s
  .next (storeAccepted { s1 with posted := s1.posted.filter (fun p => p.tag ≠ tag) } tag)

/-- A posted store fails: an imprecise external fault with its address and PC (R226), or a fault of the engine's job (R270). -/
def postedFails (s : State) (tag : Nat) : State :=
  match s.posted.find? (fun p => p.tag = tag) with
  | none => s
  | some p =>
    let s1 := storeAccepted { s with posted := s.posted.filter (fun p => p.tag ≠ tag) } tag
    if p.guid ≠ 0 then lateFault s1 p.ctx p.core p.slot 6 p.pc p.va
    else match writerJob s1 p.ctx p.slot with
      | some j => jobFault s1 j (mkFlt 6 p.va)
      | none => unitFault s1 p.ctx p.slot 6 0 0 0 p.va

def execHostStoreFailure (s : State) : Host.Outcome State Fault Refusal := .next (postedFails s s.arg.tag)

/-- A load's or atomic's answer; one of kind 5 says that the line failed integrity at its home (R227, R415). -/
def loadAnswer (s : State) (tag : Nat) (ok : Bool) (vals : List (BitVec 128)) : State :=
  match answered s tag with
  | none => s
  | some x =>
    if !x.load then s
    else
      let s1 := endXact s x
      if ok then loadReturns s1 tag vals else loadFails s1 tag (if s.arg.kind = 5 then 5 else 6)

def execLinkRxReadCompletion (s : State) : Host.Outcome State Fault Refusal :=
  .next (loadAnswer s s.arg.tag s.arg.ok s.arg.lanes)
def execLinkRxAtomicCompletion (s : State) : Host.Outcome State Fault Refusal :=
  .next (loadAnswer s s.arg.tag s.arg.ok [s.arg.val.setWidth 128])

/-- A posted write's acknowledgement is cumulative for its destination. -/
def ackPosted (s : State) (x : Xact) : State :=
  let earlier := (s.xacts.takeWhile (fun y => y.tag ≠ x.tag)).filter (fun y => y.dst = x.dst && y.kind = 3)
  if x.kind = 3 then earlier.foldl endXact s else s

/-- A write's response: accepted, retry (it is sent again each µs) or error. -/
def execLinkRxWriteResponse (s : State) : Host.Outcome State Fault Refusal :=
  .next (match answered s s.arg.tag with
    | none => s
    | some x =>
      if x.load then s
      else match s.arg.status with
        | .accepted => storeAccepted (endXact (ackPosted s x) x) x.tag
        | .retry =>
          enqueueOnce { s with xacts := updWhere s.xacts (fun y => y.tag = x.tag) (fun y => { y with retry := true }) }
            .linkRetryResend { tag := x.tag }
        | .error => xactFault (endXact s x) x)

/-- A transaction answered with retry is sent again; to the own device it takes the inbound path again. -/
def execLinkRetryResend (s : State) : Host.Outcome State Fault Refusal :=
  .next (match xactOf s s.arg.tag with
    | none => s
    | some x =>
      if !x.retry then s
      else
        let s1 := { s with xacts := updWhere s.xacts (fun y => y.tag = x.tag) (fun y => { y with retry := false }) }
        if x.dst = ownDev s then
          if x.kind = 8 then
            enqueue s1 .linkRxArrival { src := BitVec.ofNat 14 x.dst, tag := x.tag, val := BitVec.ofNat 64 (fld x.payload 0 8)
                                        word := BitVec.ofNat 32 (fld x.payload 8 2) }
          else enqueue s1 .linkRxMessage { src := BitVec.ofNat 14 x.dst, tag := x.tag, part := fld x.payload 3 1, data := x.payload }
        else match routeOf s x.dst with
          | none => enqueueOnce { s1 with xacts := s.xacts } .linkRetryResend { tag := x.tag }
          | some port =>
            drainLook (emitXact { s1 with xacts := updWhere s1.xacts (fun y => y.tag = x.tag) (fun y => { y with port := port }) }
              { x with port := port }) x.port)

/-- Whether a transaction has had no answer within LTMO of its first flit (R432), or found no route when its send window let it go. -/
def expired (s : State) (x : Xact) : Bool :=
  !x.unsent && (x.sent + 1050 * (regVal s (regLink 0)).toNat ≤ s.clock.toNat || (x.port = 16 && x.dst ≠ ownDev s))

/-- A transaction unanswered within its time ends with an external error. -/
def xactTimeout (s : State) (tag : Nat) : State :=
  match xactOf s tag with
  | none => s
  | some x => if expired s x then xactFault (endXact s x) x else s

/-- A remote access whose completion timeout expires (R227), and any transaction unanswered within LTMO (R432). -/
def execRemoteAccessTimeout (s : State) : Host.Outcome State Fault Refusal := .next (xactTimeout s s.arg.tag)
def execLinkTimeout (s : State) : Host.Outcome State Fault Refusal := .next (xactTimeout s s.arg.tag)

/-- Flits discarded are counted in LDISC (R424, R428, R430). -/
def countDisc (s : State) : State := regPut s (regLink 0x18) (regVal s (regLink 0x18) + 1)

def execLinkRxUnknownKind (s : State) : Host.Outcome State Fault Refusal :=
  .next (if (s.arg.kind = 0 || 12 ≤ s.arg.kind.toNat) && portServes s s.arg.port then countDisc s else s)
def execLinkRxMisrouted (s : State) : Host.Outcome State Fault Refusal :=
  .next (if portServes s s.arg.port then countDisc s else s)

/-! ## Port states (R419 to R421, R423, R437) -/

/-- The epoch and device id a port learns; another epoch of the far end it had when it was UP or DEGRADED is an epoch change
(R437, R439). -/
def learnEpoch (s : State) (n : Nat) (peer : BitVec 14) (e : W32) : State :=
  let p := portAt s n
  let s1 := updPort s n (fun p => { p with peer := peer, epoch := e, known := true })
  if (p.known || portServes s n) && p.peer = peer && p.epoch ≠ e then
    enqueueOnce s1 .hostWarmRestart { link := true, ctx := peer.toNat }
  else s1

def execLinkRxEpochReport (s : State) : Host.Outcome State Fault Refusal :=
  .next (if portServes s s.arg.port then learnEpoch s s.arg.port (portAt s s.arg.port).peer s.arg.epoch else s)

/-- The port reports the own epoch in a kind-11 flit (R437): a device reset, which alone changes it, leaves every port DOWN. -/
def reportEpoch (s : State) (n : Nat) (peer : BitVec 14) : State :=
  emit s (.flit n peer.toNat 11 0 false 0 (leBytes 4 s.epoch.toNat))

/-- Training ends: UP with 256 lanes each way, else DEGRADED with at least 64. What waits for a send window and had no route may go. -/
def execLinkTrained (s : State) : Host.Outcome State Fault Refusal :=
  let n := s.arg.port
  let a := s.arg
  .next (if s.mode ≠ .running || (portAt s n).st ≠ 1 || a.tx < 64 || a.rx < 64 || 256 < a.tx || 256 < a.rx then s
    else
      let s1 := updPort (learnEpoch s n a.peer a.epoch) n (fun p => { p with tx := a.tx, rx := a.rx })
      sendHeld (setPort (reportEpoch s1 n a.peer) n (if a.tx = 256 && a.rx = 256 then 2 else 3)))

/-- A port enters FAILED: what is outstanding on it ends in errors, and nothing is sent again (R421). -/
def portFails (s : State) (n : Nat) : State :=
  (s.xacts.filter (fun x => x.port = n)).foldl (fun s x => xactFault (dropXact s x.tag) x) (setPort s n 5)

/-- Training ends with fewer than 64 lanes after 10 ms. -/
def execLinkTrainingFail (s : State) : Host.Outcome State Fault Refusal :=
  .next (if (portAt s s.arg.port).st = 1 then portFails s s.arg.port else s)

/-- The failure of a port that is in service or drains. -/
def failPort (s : State) (n : Nat) : State :=
  let st := (portAt s n).st
  if st = 2 || st = 3 || st = 4 then portFails s n else s

def execPortFailed (s : State) : Host.Outcome State Fault Refusal := .next (failPort s s.arg.port)

/-- Lost lanes are mapped out; below 64 the port fails. -/
def execLaneLoss (s : State) : Host.Outcome State Fault Refusal :=
  let n := s.arg.port
  let p := portAt s n
  let tx := min p.tx s.arg.tx
  let rx := min p.rx s.arg.rx
  .next (if p.st ≠ 2 && p.st ≠ 3 then s
    else
      let s1 := updPort s n (fun p => { p with tx := tx, rx := rx })
      if tx < 64 || rx < 64 then failPort s1 n else if tx < 256 || rx < 256 then setPort s1 n 3 else s1)

def execQuiesceDrained (s : State) : Host.Outcome State Fault Refusal :=
  let n := s.arg.port
  .next (if (portAt s n).st = 4 && !s.xacts.any (fun x => x.port = n) then setPort s n 0 else s)

/-- Retransmissions are counted (R418, R423); a flit that fails 16 times in a row is the port's failure (R421). -/
def execFlitRetransmit (s : State) : Host.Outcome State Fault Refusal :=
  .next (updPort s s.arg.port (fun p => { p with retries := p.retries + BitVec.ofNat 64 s.arg.count }))

/-! ## PCIe and CXL ports (R225, R226, R440 to R442) -/

def pctl (p : Nat) : Nat := regPcie p 0x10
/-- Whether a port runs in CXL mode: the MODE it sampled (R441). -/
def cxlMode (s : State) (p : Nat) : Bool := s.cxl.getLsbD p

/-- A host's write through BAR 0 in RECOVERY (R449): the nonce, and commands and the staging SRAM while RSTAT is not busy. -/
def recoveryWrite (s : State) (o n v : Nat) : State :=
  if 0x100000 ≤ o && o + n ≤ 0x200000 then
    (if s.rstat = 1 then s else { s with staging := memPutVal s.staging (o - 0x100000) n v })
  else if o = 0x1000 then
    if s.rstat = 1 then s
    else (match v % 2 ^ (8 * n) with
     | 1 => enqueue s .rcmdInstallA {}
     | 2 => enqueue s .rcmdInstallB {}
     | 3 => enqueue s .rcmdAttest {}
     | _ => s)
  else if 0x2000 ≤ o && o + n ≤ 0x2020 && o / 8 = (o + n - 1) / 8 then
    let a := o / 8 * 8
    let m := (2 ^ (8 * n) - 1) * 2 ^ (8 * (o % 8))
    regPut s a ((regVal s a &&& ~~~ BitVec.ofNat 64 m) ||| BitVec.ofNat 64 (v % 2 ^ (8 * n) * 2 ^ (8 * (o % 8))))
  else s

/-- What a host reads through BAR 0: in RECOVERY the window of R449. -/
def bar0Read (s : State) (port o n : Nat) : Nat :=
  if s.mode ≠ .recovery then hostRead s port (0x1F000000000 + o) n
  else if 0x100000 ≤ o then memVal s.staging (o - 0x100000) n
  else if 0x2000 ≤ o then (regVal s (o / 8 * 8)).toNat / 2 ^ (8 * (o % 8)) % 2 ^ (8 * n)
  else if (8 ≤ o && o < 0x20) || o / 8 = 9 then regLoad s (regPlat o) n
  else if o / 8 * 8 = 0x1008 then s.rstat.toNat / 2 ^ (8 * (o % 8)) % 2 ^ (8 * n)
  else 0

/-- A host's request through BAR 0 (R442): a write, or a read of kind 1, which is answered. -/
def execPcieBar0Write (s : State) : Host.Outcome State Fault Refusal :=
  let a := s.arg
  let inRecovery := s.mode = .recovery && a.port = 0 && 1 ≤ a.len && a.len ≤ 8
  let running := s.mode = .running && a.port < 2 && !cxlMode s a.port && a.addr + a.len ≤ 2 ^ 26
  .next (if a.kind = 1 then
      (if inRecovery || running then emit s (.pcieReply a.port true (leBytes a.len (bar0Read s a.port a.addr a.len))) else s)
    else if inRecovery then recoveryWrite s a.addr a.len a.val.toNat
    else if running then regStore s (.host a.port) (0x1F000000000 + a.addr) a.len a.val.toNat
    else s)

/-- The device address a BAR 2 request reaches; none for Unsupported Request (R441), as in RECOVERY and without power (R448, R449). -/
def bar2Addr (s : State) (p o n : Nat) : Option Nat :=
  let a := (regVal s (regPcie p 0x20)).toNat + o
  if s.mode = .running && p < 2 && !cxlMode s p && o + n ≤ 2 ^ 36 && regionRun s a n = .dram then some a else none

def pcieWriter (p : Nat) : Writer := ⟨7, p, 0⟩

/-- A host's or peer's request through BAR 2: a read when it brings no data (R442). -/
def execPcieBar2Request (s : State) : Host.Outcome State Fault Refusal :=
  let a := s.arg
  .next (match bar2Addr s a.port a.addr a.len with
    | none => emit s (.pcieReply a.port false [])
    | some pa =>
      if a.data = [] then
        match inboundRead s pa a.len with
        | some (s1, b) => emit s1 (.pcieReply a.port true b)
        | none => emit s (.pcieReply a.port false [])
      else match inboundWrite s (pa, a.data) (pcieWriter a.port) with
        | some s1 => emit s1 (.pcieReply a.port true [])
        | none => emit s (.pcieReply a.port false []))

/-- FetchAdd, Swap and CAS on BAR 2 (R440). -/
def execPcieAtomicop (s : State) : Host.Outcome State Fault Refusal :=
  let a := s.arg
  let q := a.atom
  let z := if q.w64 then 8 else 4
  .next (match bar2Addr s a.port q.addr z with
    | none => emit s (.pcieReply a.port false [])
    | some pa =>
      if q.op ≠ .add && q.op ≠ .exch && q.op ≠ .cas then emit s (.pcieReply a.port false [])
      else match inboundAtom s q pa (pcieWriter a.port) with
        | some (s1, old) => emit s1 (.pcieReply a.port true (leBytes z old))
        | none => emit s (.pcieReply a.port false []))

/-- The PCIe port of a SIGNAL's word in a host page. -/
def signalPort (s : State) (k : Pkt) : Option Nat :=
  match lookup s (partBuf s (slotAt s k.slot).part) (slotAt s k.slot).ctx (fld k.data 8 8) with
  | .ok t => (match locOf s t (fld k.data 8 8) with | .host p _ => some p | _ => none)
  | .error _ => none

/-- What is outstanding on a PCIe or CXL port ends in errors: loads, posted stores, a packet's atomic add (R225, R226, R328). -/
def failPcie (s : State) (p : Nat) : State :=
  let tags := s.groups.flatMap (fun g => (g.loads.filter (fun l => l.port = some p)).map (fun l => l.tag))
  let s1 := tags.foldl (fun s t => loadFails s t 6) s
  let s2 := (s1.posted.filter (fun q => q.port = p)).foldl (fun s q => postedFails s q.tag) s1
  (s2.pkts.filter (fun k => k.kind = 4 && k.stage = 0 && signalPort s2 k = some p)).foldl (fun s k =>
    enqueueOnce s .signalDone { slot := k.slot, ridx := k.ridx, port := p, ok := false }) s2

/-- The sticky mark of an event of R439 on a port. -/
def markHrst (s : State) (p : Nat) : State := if p < 2 then regPut s (pctl p) (regVal s (pctl p) ||| 0x400) else s

/-- A port's link goes down: an event of R439 on it. -/
def execPortLinkDown (s : State) : Host.Outcome State Fault Refusal :=
  let p := s.arg.port
  .next (if 2 ≤ p then s
    else
      let s1 := regPut s (pctl p) ((regVal s (pctl p) &&& ~~~ 0x3FE) ||| 0x400)
      let s2 := regPut s1 (regPcie p 8) (regVal s1 (regPcie p 8) &&& ~~~ 0x200000000)
      enqueueOnce (failPcie s2 p) .hostWarmRestart { link := false, ctx := p })

/-- A port that comes out of its reset samples PCTL.MODE: one whose link is down, as its link trains up (log entry 54). -/
def sampleMode (s : State) (p : Nat) : State :=
  if (regVal s (pctl p)).getLsbD 9 || (regVal s (regPcie p 8)).getLsbD 33 then s
  else
    let m := 1#2 <<< p
    { s with cxl := if (regVal s (pctl p)).getLsbD 0 then s.cxl ||| m else s.cxl &&& ~~~ m }

/-- A port's link trains up: PCTL.UP, WIDTH and SPEED, and CXLCTL.UP in CXL mode (R416, R441). -/
def execPortLinkUp (s0 : State) : Host.Outcome State Fault Refusal :=
  let p := s0.arg.port
  let s := sampleMode s0 p
  .next (if 2 ≤ p then s0
    else
      let s1 := regPut s (pctl p) ((regVal s (pctl p) &&& ~~~ 0x3FE) ||| 0x200
        ||| BitVec.ofNat 64 (16 * (s.arg.width % 32) + 2 * (s.arg.speed % 8)))
      if cxlMode s p then regPut s1 (regPcie p 8) (regVal s1 (regPcie p 8) ||| 0x200000000) else s1)

end Sys2Proof.Machine
end

