-- ==== Sys2Proof/Machine/Matrix.lean ====
section
/-! DEFINITION. Matrix operations (R43 to R48, R307 to R322): the quad rendezvous, the arrays, `ACCMV` and `MMAW`. The source
fragments are taken at the rendezvous: no instruction can change them before the operation begins (R320). -/

namespace Sys2Proof.Machine
open Sys2Proof

/-- The form, the word and whether D starts from zero, of a matrix instruction. -/
def matParts : Instr → Option (MForm × InsWord × Bool)
  | .mma f x => some (f, x, false)
  | .mmaz f x => some (f, x, true)
  | _ => none

/-- The opcode and MOD that members must share (R311). -/
def matKey (i : Instr) : Option (MForm × Bool × BitVec 10) := (matParts i).map (fun p => (p.1, p.2.2, p.2.1.mod))

def vIdx : Opd → Nat | .v n => n.toNat | _ => 0

/-- `n` registers from `r` as a fragment (R314, R315). -/
def fragOf (g : Group) (r n : Nat) : SMap W32 := SMap.slice g.v (64 * r) (64 * (r + n))
def fragW (m : SMap W32) (k l : Nat) : Nat := (SMap.get 0 m (64 * k + l)).toNat

/-- The K of a form, its element width in bits, and its A and B element formats (R313). -/
def matK : MForm → Nat | .sb4 => 64 | .bf16 | .f16 => 16 | _ => 32
def matBits : MForm → Nat | .bf16 | .f16 => 16 | _ => 8
def matFmts : MForm → Fmt × Fmt
  | .e4m3 => (fmtE4m3, fmtE4m3) | .e5m2 => (fmtE5m2, fmtE5m2) | .bf16 => (fmtBf16, fmtBf16) | .f16 => (fmtF16, fmtF16)
  | .e4e5 => (fmtE4m3, fmtE5m2) | _ => (fmtE5m2, fmtE4m3)

/-- Element j of a lane's packed fragment (R33). -/
def packedElem (bitsN : Nat) (m : SMap W32) (l j : Nat) : Nat :=
  fragW m (j * bitsN / 32) l / 2 ^ (j * bitsN % 32) % 2 ^ bitsN

/-- A[i][k] and B[k][n] of a plain form at a width (R314). -/
def elemA (f : MForm) (w : Nat) (a : SMap W32) (i k : Nat) : Nat :=
  let e := 32 * matK f / w
  packedElem (matBits f) a (i + 32 * (k / e)) (k % e)
def elemB (f : MForm) (w : Nat) (b : List (SMap W32)) (n k : Nat) : Nat :=
  let e := 8 * matK f / w
  packedElem (matBits f) (b.getD (n / 8) []) (n % 8 + 8 * (k / e)) (k % e)

/-- Block kb of row i of A, of column n of B: codes and cuff (R314). -/
def blockA (w : Nat) (a : SMap W32) (i kb : Nat) : Nat × Nat :=
  let e := 256 / w
  let l := i + 32 * (kb / e)
  (fragW a (2 * (kb % e)) l, fragW a (2 * (kb % e) + 1) l % 65536)
def blockB (w : Nat) (b : List (SMap W32)) (n kb : Nat) : Nat × Nat :=
  let e := 64 / w
  let m := b.getD (n / 8) []
  let l := n % 8 + 8 * (kb / e)
  (fragW m (2 * (kb % e)) l, fragW m (2 * (kb % e) + 1) l % 65536)

/-- One output element from the old D (R317). -/
def matElem (f : MForm) (sat : Bool) (w : Nat) (a : SMap W32) (b : List (SMap W32)) (c : SMap W32) (i n old : Nat) : Nat :=
  match f with
  | .sb4 =>
    let ts := (List.range 8).map (fun kb =>
      let p := blockA w a i kb
      let q := blockB w b n kb
      sb4Term p.1 p.2 q.1 q.2)
    accSb4 old ts (fragW c 0 i % 65536) (fragW c 0 n / 65536)
  | .i8 =>
    let s := (List.range 32).foldl (fun t k => t + sext (elemA f w a i k) 8 * sext (elemB f w b n k) 8) (0 : Int)
    fit false sat (sext old 32 + s) 32
  | f =>
    let fm := matFmts f
    accF old (groupSumX ((List.range (matK f)).map (fun k =>
      (FVal.decode fm.1 (elemA f w a i k)).mul (FVal.decode fm.2 (elemB f w b n k)))))

/-- D after an operation, in the lanes active at its issue (R314, R317). -/
def matWrite (op : MatOp) (g : Group) : Group :=
  match matParts op.x with
  | none => g
  | some (f, x, z) =>
    let cN := 1024 / g.width
    (lanesOf op.act g.width).foldl (fun h l =>
      (List.range cN).foldl (fun h j =>
        let old := if z then 0 else rdV g (vIdx x.dst + j) l
        wrV h (vIdx x.dst + j) l
          (matElem f (x.mod.getLsbD 0) g.width op.a op.b op.c (l % 32) (l / 32 * cN + j) old)) h) g

/-! ## The rendezvous (R310, R311, R318) -/

/-- The quad of a group: member q is the group of index 4m + q. -/
def quadMember (s : State) (team quad q : Nat) : Option Group :=
  s.groups.find? (fun g => g.teamId = team && g.quads && g.index.toNat = 4 * quad + q)

/-- The matrix instruction a member waits with. -/
def waitsMat (g : Group) : Option Instr := match g.wait with | .quad i => if g.st = .waiting then some i else none | _ => none

/-- The registers of a member's fragments: A, B and bands. -/
def memberFrags (g : Group) (i : Instr) : SMap W32 × SMap W32 × SMap W32 :=
  match matParts i with
  | none => ([], [], [])
  | some (f, x, _) =>
    (fragOf g (vIdx x.opa) (mmaRegsA f g.width), fragOf g (vIdx x.opb) (mmaRegsB f g.width),
      if f = .sb4 then fragOf g (vIdx x.opc) 1 else [])

/-- The lowest lane's lowest register of a member's A or B fragment that holds a corrupt cuff (R318); of several in one lane those of A
come first (DESIGN CHOICE, log entry 45). -/
def badCuff (g : Group) (i : Instr) : Option (Nat × Nat) :=
  match matParts i with
  | some (.sb4, x, _) =>
    (allLanes g).findSome? (fun l =>
      let regs := (List.range (mmaRegsA .sb4 g.width / 2)).map (fun j => vIdx x.opa + 2 * j + 1)
        ++ (List.range (mmaRegsB .sb4 g.width / 2)).map (fun j => vIdx x.opb + 2 * j + 1)
      (regs.find? (fun r => corrupt (rdV g r l % 65536))).map (fun r => (l, r)))
  | _ => none

/-- A waiting member stops at its matrix instruction, with the fault that is its own or none (R311). -/
def quadStop (s : State) (g : Group) (f : Option Flt) : State :=
  match f with
  | some f => takeFault s g f
  | none => setGroup s (stopAt g (restartPc g))

/-- The slots of a quad's members, a byte each, 0xFF where there is none, and the quad's number above (DESIGN CHOICE of their place in
FADDR, log entry 45). -/
def quadName (ms : List (Option Group)) (quad : Nat) : Nat :=
  leVal (ms.map (fun m => match m with | some g => BitVec.ofNat 8 g.slot | none => 0xFF)) + 2 ^ 32 * (quad % 65536)

/-- The quad-mismatch fault of a member (R311): it names the quad and its members' slots, and its sequence number in AUX (R387). -/
def quadFlt (name : Nat) (g : Group) : Flt := ⟨9, 0, name, g.live, BitVec.ofNat 64 g.mseq.toNat⟩

/-- The members at fault when the instructions differ (R311 case 1). -/
def quadWrong (ks : List (Option (MForm × Bool × BitVec 10))) : List Nat :=
  let k0 := ks.getD 0 none
  let diff := (List.range 4).filter (fun q => ks.getD q none ≠ k0)
  if diff.length = 3 && ks.getD 1 none = ks.getD 2 none && ks.getD 2 none = ks.getD 3 none then [0] else diff

/-- The operations of a quarter past their rendezvous and not yet begun, and begun. -/
def matQueued (s : State) (core quarter : Nat) : List MatOp :=
  s.arrays.filter (fun o => o.core = core && o.quarter = quarter && !o.begun)
def matBegun (s : State) (core quarter : Nat) : List MatOp :=
  s.arrays.filter (fun o => o.core = core && o.quarter = quarter && o.begun)

/-- One member passes: its operation enters its quarter's array and it goes on at `Next`. -/
def quadPass (bs : List (SMap W32)) (s : State) (gi : Group × Instr) : State :=
  let g := gi.1
  let act := match matParts gi.2 with | some (_, x, _) => effMask g x | none => 0
  let fr := memberFrags g gi.2
  let op : MatOp := ⟨g.core, g.slot / 17, g.uid, gi.2, act, false, fr.1, bs, fr.2.2⟩
  enqueue (finish { s with arrays := s.arrays ++ [op] } { g with mseq := g.mseq + 1 }) .mmaBegin
    { core := g.core, quarter := g.slot / 17 }

/-- The rendezvous of a quad, when something of it has changed. A corrupt cuff's fault names its `v` register in FADDR and its lane in
LANES (DESIGN CHOICE, log entry 45). -/
def rendezvous (s : State) (team quad : Nat) : State :=
  let ms := (List.range 4).map (quadMember s team quad)
  let waiting := ms.filterMap (fun m => m.bind (fun g => (waitsMat g).map (fun i => (g, i))))
  match waiting with
  | [] => s
  | (g0, _) :: _ =>
    if !ctxRuns s g0.ctx then s
    else if ms.any (fun m => match m with | none => true | some g => g.st = .ending) then
      waiting.foldl (fun s gi => quadStop s gi.1 (some (quadFlt (quadName ms quad) gi.1))) s
    else if waiting.length ≠ 4 then s
    else
      let wrong := quadWrong (waiting.map (fun gi => matKey gi.2))
      if wrong ≠ [] then
        (waiting.zipIdx).foldl (fun s p =>
          quadStop s p.1.1 (if wrong.contains p.2 then some (quadFlt (quadName ms quad) p.1.1) else none)) s
      else match (waiting.zipIdx).findSome? (fun p => (badCuff p.1.1 p.1.2).map (fun lr => (p.2, lr))) with
        | some (q, l, r) =>
          (waiting.zipIdx).foldl (fun s p =>
            quadStop s p.1.1 (if p.2 = q then some ⟨4, 0, r, maskOf [l], 0⟩ else none)) s
        | none =>
          if waiting.any (fun gi => 4 ≤ (matQueued s gi.1.core (gi.1.slot / 17)).length) then s
          else waiting.foldl (quadPass (waiting.map (fun gi => (memberFrags gi.1 gi.2).2.1))) s

def execQuadRendezvous (s : State) : Host.Outcome State Fault Refusal := .next (rendezvous s s.arg.team s.arg.quad)

/-- A member waits on its quad's rendezvous, whatever `Active()` holds (R310). -/
def matWait (i : Instr) (s : State) (g : Group) : State :=
  enqueue (setGroup s { g with st := .waiting, wait := .quad i }) .quadRendezvous { team := g.teamId, quad := g.index.toNat / 4 }

def execMma (f : MForm) (x : InsWord) (s : State) : Host.Outcome State Fault Refusal := withGroup s (matWait (.mma f x) s)
def execMmaz (f : MForm) (x : InsWord) (s : State) : Host.Outcome State Fault Refusal := withGroup s (matWait (.mmaz f x) s)

/-! ## The arrays (R319) -/

/-- The oldest queued operation of a quarter begins while fewer than six are in the pipeline; a quad that waited for room may
pass. -/
def beginMat (s : State) (core quarter : Nat) : State :=
  match matQueued s core quarter with
  | [] => s
  | op :: rest =>
    if 6 ≤ (matBegun s core quarter).length then s
    else
      let s1 := { s with arrays := s.arrays.erase op }
      let n := s1.arrays.findIdx (fun o => o.core = core && o.quarter = quarter && !o.begun)
      let s2 := { s1 with arrays := s1.arrays.take n ++ [{ op with begun := true }] ++ s1.arrays.drop n }
      let s3 := enqueue s2 .mmaComplete { core := core, quarter := quarter }
      let s4 := if rest.isEmpty then s3 else enqueueOnce s3 .mmaBegin { core := core, quarter := quarter }
      (s4.groups.filter (fun g => g.core = core && (waitsMat g).isSome)).foldl (fun s g =>
        enqueueOnce s .quadRendezvous { team := g.teamId, quad := g.index.toNat / 4 }) s4

def execMmaBegin (s : State) : Host.Outcome State Fault Refusal := .next (beginMat s s.arg.core s.arg.quarter)

/-- The oldest begun operation of a quarter writes its D registers; a group that has ended has dropped them (R158). -/
def completeMat (s : State) (core quarter : Nat) : State :=
  match matBegun s core quarter with
  | [] => s
  | op :: _ =>
    let s1 := { s with arrays := s.arrays.erase op
                       groups := updWhere s.groups (fun g => g.uid = op.guid && g.st ≠ .ending) (matWrite op) }
    if matQueued s1 core quarter = [] then s1 else enqueueOnce s1 .mmaBegin { core := core, quarter := quarter }

def execMmaComplete (s : State) : Host.Outcome State Fault Refusal := .next (completeMat s s.arg.core s.arg.quarter)

/-- The incomplete operations of a group past their rendezvous. -/
def matOpen (s : State) (g : Group) : Nat := s.arrays.countP (fun o => o.guid = g.uid)

def execMmaw (x : InsWord) (s : State) : Host.Outcome State Fault Refusal :=
  withGroup s (fun g =>
    if active g x = [] then finish s g
    else if src32 g x x.opa 0 < matOpen s g then stallOf s g
    else finish s (wrDstS g x g.mseq.toNat))

/-! ## `ACCMV` (R322) -/

/-- The offset of a lane's first word in the tile; a is a signed base as in R193, the pitch p is unsigned. -/
def accOff (g : Group) (a : Int) (p l : Nat) : Int := a + ((l % 32 * p + 4 * (l / 32 * (1024 / g.width)) : Nat) : Int)

/-- The scratch addresses of a lane's words from its first offset on. -/
def accWords (g : Group) (sg : Seg) (o : Int) : List Nat := (List.range (1024 / g.width)).map (fun j => segAddr sg (o.toNat + 4 * j))

/-- The checks shared by the two directions, then one direction's effect on the lanes in range. -/
def accmv (x : InsWord) (s : State) (k : State → Group → List (Nat × List Nat) → State) : Host.Outcome State Fault Refusal :=
  withGroup s (fun g =>
    let a : Int := sext (src32 g x x.opa 0) 32
    let p := src32 g x x.opb 0
    let sg := segWin g (modF x 2 0)
    if a % 16 ≠ 0 || p % 16 ≠ 0 then takeFault s g (mkFlt 7 (wrapN a 64))
    else if p < 128 then takeFault s g (permFlt .matrixFormat (wrapN a 64))
    else
      let fits (o : Int) : Bool := 0 ≤ o && o + ((4096 / g.width : Nat) : Int) ≤ (sg.limit : Int)
      let ls := (active g x).map (fun l => (l, accOff g a p l))
      let ins := (ls.filter (fun q => fits q.2)).map (fun q => (q.1, accWords g sg q.2))
      let (s1, g1) := lanesOff s g (ls.filter (fun q => !fits q.2))
      let accs := ins.flatMap (fun q => q.2.map (fun b => LaneAcc.mk q.1 b (.scr b)))
      onPrep (orFault s1 g1 (accs.filterMap (raceFlt s1 g1 4)) (.go s1 g1 accs)) (fun s g _ => k s g ins))

def execAccmvRd (x : InsWord) (s : State) : Host.Outcome State Fault Refusal :=
  accmv x s (fun s g ls =>
    let g1 := ls.foldl (fun h q => wrVs h (vIdx x.dst) q.1 (q.2.map (fun b => scrVal s b 4))) g
    finish s (ls.foldl (fun h q => q.2.foldl (fun h b => noteRead s h b 4 none) h) g1))

def execAccmvWr (x : InsWord) (s : State) : Host.Outcome State Fault Refusal :=
  accmv x s (fun s g ls =>
    finish (ls.foldl (fun s q => (q.2.zipIdx).foldl (fun s bj =>
      storeLocal s g none (.scr bj.1) (leBytes 4 (rdV g (vIdx x.opc + bj.2) q.1))) s) s) (if ls = [] then g else released g))

end Sys2Proof.Machine
end

