-- ==== Sys2Proof/Machine/Windows.lean ====
section
/-! DEFINITION. Window engines (R343 to R376, R459): taking a stream up, reading its ring, opening, merging and closing
windows, sending pawns, and the instructions of window threads. The table's own operations are in Machine/Pockets.lean. -/

namespace Sys2Proof.Machine
open Sys2Proof

/-! ## The engine's accesses -/

/-- A fault of the window engine of a virtual field (R384, R387). -/
def winFault (s : State) (t : Stream) (vf : Nat) (f : Flt) : State := unitFault s t.ctx (480 + vf) f.reason f.detail 0 0 f.addr

/-- Bytes of normal pages, as a unit reads them. -/
def winLoad (s : State) (buf ctx va n : Nat) : Except Flt (List Byte) := (unitRead s buf ctx va n).map (fun r => r.bytes)

/-- A write of the window engine of a virtual field, which hands on what its path has observed (R302, R303). -/
def winStore (s : State) (t : Stream) (vf va : Nat) (b : List Byte) (rs : List Rel) : Except Flt State :=
  agentStore s (winBuf s t.ctx vf) t.ctx va b ⟨4, 480 + vf, 0⟩ (pathRel 3 t.ctx t.vc :: rs)

/-- Such a write, or its fault. -/
def winPut (s : State) (t : Stream) (vf va : Nat) (b : List Byte) : State :=
  match winStore s t vf va b [] with
  | .ok s1 => s1
  | .error f => winFault s t vf f

/-! ## Rings and keys (R345, R347) -/

/-- A ring's control block. -/
structure Ring where
  base : Nat
  log2n : Nat
  size : Nat
  alarm : Nat
  lowwm : Nat
  widx : W32
  ridx : W32
  atgt : Nat
  amsg : Nat
  alarmc : Nat
  deriving DecidableEq, Repr, Inhabited

def ringOf (b : List Byte) : Ring :=
  ⟨fld b 0 8, fld b 8 1, 16 * 2 ^ fld b 9 1, fld b 10 1, fld b 12 4, BitVec.ofNat 32 (fld b 16 4), BitVec.ofNat 32 (fld b 20 4),
    fld b 24 8, fld b 32 8, fld b 40 4⟩

/-- The rules of R345. -/
def ringOk (b : List Byte) (egress : Bool) : Bool :=
  fld b 0 8 % 64 = 0 && fld b 0 8 < 2 ^ 56 && 1 ≤ fld b 8 1 && fld b 8 1 ≤ 20 && fld b 9 1 ≤ 4 && fld b 10 1 ≤ 3
    && (egress || fld b 10 1 = 0) && fld b 11 1 = 0 && fld b 12 4 ≤ 2 ^ fld b 8 1 && fld b 44 20 = 0

def ringRec (r : Ring) (i : W32) : Nat := r.base + r.size * (i.toNat % 2 ^ r.log2n)

/-- Free entries of a ring. -/
def ringFree (r : Ring) : Nat := 2 ^ r.log2n - (r.widx - r.ridx).toNat

/-- Bytes that the ingress reader reads. -/
def ringLoad (s : State) (t : Stream) (va n : Nat) : Except Flt (List Byte) := winLoad s (ringBuf s t) t.ctx va n

/-- What its read of WIDX observes: an acquire at `.sys` (R346). -/
def widxSees (s : State) (t : Stream) : SMap Nat :=
  match normalAt s (ringBuf s t) t.ctx (inRing t + 16) with
  | .ok (_, .dram pa _ _) => agentSees s t.ctx (dramKey pa) 4
  | _ => []

/-- Bits [63:48] of the key hash. -/
def keyHash (key : W64) : Nat := (key * 0x9E3779B97F4A7C15#64).toNat / 2 ^ 48

/-- What the reader's look at the key map reaches (R347, R401). -/
def mapTouch (s : State) (t : Stream) (key : W64) : State :=
  let hm := fld t.ext 104 8
  if hm = 0 then s else agentTouch s (ringBuf s t) t.ctx (hm + keyHash key / 1024) 1

/-- The virtual field of a key, and whether a map's entry was ignored (R347). -/
def keyField (s : State) (t : Stream) (key : W64) : Nat × Bool :=
  match ctxOf s t.ctx with
  | none => (0, false)
  | some c =>
    let fs := ctxFields s c
    let d := fs.getD (keyHash key * fs.length / 65536) 0
    let hm := fld t.ext 104 8
    if hm = 0 then (d, false)
    else match ringLoad s t (hm + keyHash key / 1024) 1 with
      | .ok b => if fs.contains (leVal b) then (leVal b, false) else (d, true)
      | .error _ => (d, true)

/-! ## Opening and delivering (R354, R355, R459) -/

/-- The pool of a stream in a virtual field (R363). -/
def poolOf (s : State) (t : Stream) (vf : Nat) : W64 := SMap.get 0 s.pools (t.lh.toNat * 16 + vf)

/-- The lowest free pocket of a pool; none when the pool or the field's window table is full. -/
def freePocket (t : Stream) (vf : Nat) (base : W64) : Option W64 :=
  let at' (i : Nat) : W64 := base + BitVec.ofNat 64 (sxPocket t * i)
  ((List.range (t.wins.length + 1)).find? (fun i =>
    i < 2 ^ sxWtlog2 t && !t.wins.any (fun w => w.field = vf && w.pocket = at' i))).map at'

/-- Open a window or pane pocket; none without room. -/
def openWin (t : Stream) (vf : Nat) (base : W64) (pane : Bool) (key wid : W64) (start stop close : Nat) : Option (Stream × Nat) :=
  (freePocket t vf base).map (fun p =>
    let w : Win := ⟨t.nextId, pane, key, wid, start, stop, close, 0, if pane then .filling else .idle, false, false, 0, [], none,
      false, vf, p, [], 0⟩
    ({ t with wins := t.wins ++ [w], resting := t.resting.filter (fun r => !(r.1 = vf && r.2.1 = p.toNat)), nextId := t.nextId + 1
              opened := if pane then t.opened else t.opened + 1 }, t.nextId))

/-- A window opens with its OPEN pawn, when one is declared. -/
def openWindow (t : Stream) (vf : Nat) (base : W64) (key wid : W64) (start stop close : Nat) (num : W64) (ring : W32) :
    Option (Stream × Nat) :=
  (openWin t vf base false key wid start stop close).map (fun r =>
    (if sxEntry t 2 = 0 then r.1 else queuePawn r.1 r.2 ⟨2, num, none, false, some ring⟩, r.2))

/-- A record delivered to a window or pane. -/
def deliver (t : Stream) (id : Nat) (num : W64) (ring : W32) : Stream :=
  updWin (queuePawn t id ⟨3, num, none, false, some ring⟩) id (fun w => { w with rcount := w.rcount + 1 })

/-- The open window of a key and id, the filling pane. -/
def findWin (t : Stream) (pane : Bool) (key wid : W64) : Option Win :=
  t.wins.find? (fun w => w.pane == pane && w.key = key && w.wid = wid && (if pane then w.st = .filling else winOpen w))

def markLast (t : Stream) (id : Nat) : Stream := updWin t id (fun w => { w with last := true })

/-- The pane of a record: opened with its first record; none without room. -/
def intoPane (t : Stream) (vf : Nat) (base : W64) (key : W64) (p : Nat) (num : W64) (ring : W32) : Option (Stream × Nat) :=
  let len := sxPaneLen t
  let stop := if sxKind t = 0 then (p + 1) * len - 1 else (p + 1) * len
  let close := if sxKind t = 0 then stop else (p + 1) * len + sxLate t
  match findWin t true key (BitVec.ofNat 64 p) with
  | some w => some (deliver t w.id num ring, w.id)
  | none => (openWin t vf base true key (BitVec.ofNat 64 p) (p * len) stop close).map (fun r => (deliver r.1 r.2 num ring, r.2))

/-! ## Count, time and gap windows (R351 to R353, R357 to R359) -/

/-- The records of a key counted so far. -/
def keyCount (t : Stream) (key : W64) : Nat := match t.counts.find? (fun p => p.1 = key) with | some p => p.2.toNat | none => 0
def bumpCount (t : Stream) (key : W64) : Stream :=
  { t with counts := (key, BitVec.ofNat 64 (keyCount t key + 1)) :: t.counts.filter (fun p => p.1 ≠ key) }

/-- The numbers from `lo` to `hi`. -/
def span (lo hi : Nat) : List Nat := (List.range (hi + 1 - lo)).map (fun i => lo + i)

def countRecord (t : Stream) (vf : Nat) (base : W64) (key : W64) (ring : W32) : Option Stream :=
  let n := keyCount t key
  let bigN := sxP1 t
  let sS := sxP2 t
  let num := BitVec.ofNat 64 n
  let j0 := n / sS
  let opened : Option Stream :=
    if n % sS = 0 then
      (openWindow t vf base key (BitVec.ofNat 64 j0) n (n + bigN - 1) (n + bigN - 1) num ring).map (fun r => r.1)
    else some t
  let js := span (if n < bigN then 0 else (n - bigN) / sS + 1) j0
  let deliverAll (t : Stream) : Option Stream :=
    if sxPanes t then
      (intoPane t vf base key (n / sxPaneLen t) num ring).map (fun r =>
        if (n + 1) % sxPaneLen t = 0 then markLast r.1 r.2 else r.1)
    else some (js.foldl (fun t j => match findWin t false key (BitVec.ofNat 64 j) with
      | some w => deliver t w.id num ring
      | none => t) t)
  ((opened.bind deliverAll).map (fun t => js.foldl (fun t j =>
    if j * sS + bigN - 1 = n then
      (match findWin t false key (BitVec.ofNat 64 j) with | some w => markLast t w.id | none => t)
    else t) t)).map (fun t => bumpCount t key)

def timeRecord (t : Stream) (vf : Nat) (base : W64) (key time : W64) (ring : W32) : Option Stream :=
  let bigL := sxP1 t
  let bigD := sxP2 t
  let tm := time.toNat
  let ks := span (if tm < bigL then 0 else (tm - bigL) / bigD + 1) (tm / bigD)
  let openK (t : Stream) (k : Nat) : Option (Stream × Nat) :=
    match findWin t false key (BitVec.ofNat 64 k) with
    | some w => some (t, w.id)
    | none =>
      openWindow t vf base key (BitVec.ofNat 64 k) (k * bigD) (k * bigD + bigL) (k * bigD + bigL + sxLate t) time ring
  let one (o : Option Stream) (k : Nat) : Option Stream :=
    o.bind (fun t => (openK t k).map (fun r => if sxPanes t then r.1 else deliver r.1 r.2 time ring))
  let t1 := ks.foldl one (some t)
  if sxPanes t then t1.bind (fun t => (intoPane t vf base key (tm / sxPaneLen t) time ring).map (fun r => r.1)) else t1

/-- Two sessions merge (R359): the survivor first. -/
def mergeWins (t : Stream) (a b : Win) (tm : Nat) : Stream :=
  let stop := max (max a.stop b.stop) tm
  let t1 := updWin t a.id (fun w =>
    { w with start := min (min a.start b.start) tm, stop := stop, close := stop + sxP1 t + sxLate t, rcount := a.rcount + b.rcount
             queue := a.queue ++ ⟨6, 0, some b.id, false, none⟩ :: b.queue })
  { updWin t1 b.id (fun w => { w with st := .absorbed, queue := [] }) with asked := t1.asked ++ [a.id] }

def gapRecord (t : Stream) (vf : Nat) (base : W64) (key time : W64) (ring : W32) : Option Stream :=
  let g := sxP1 t
  let tm := time.toNat
  let reach := t.wins.filter (fun w => winOpen w && !w.last && w.key = key && w.start < tm + g && tm < w.stop + g)
  match reach with
  | [] =>
    (openWindow { t with nextWid := t.nextWid + 1 } vf base key (BitVec.ofNat 64 t.nextWid) tm tm (tm + g + sxLate t) time ring).map
      (fun r => deliver r.1 r.2 time ring)
  | [w] =>
    let stop := max w.stop tm
    some (deliver (updWin t w.id (fun w => { w with start := min w.start tm, stop := stop, close := stop + g + sxLate t })) w.id
      time ring)
  | w :: v :: _ =>
    let first := w.start < v.start || (w.start = v.start && w.wid.toNat < v.wid.toNat)
    let a := if first then w else v
    let b := if first then v else w
    some (deliver (mergeWins t a b tm) a.id time ring)

/-- The pawns that a virtual field of a stream holds: those its windows have queued, and those in the gatherer's store. The queued-pawn
store of R363 is read as that of R183 (log entry 27). -/
def fieldPawns (s : State) (t : Stream) (vf : Nat) : Nat :=
  let f := match ctxOf s t.ctx with | some c => physField c vf | none => vf
  (t.wins.filter (fun w => w.field = vf)).foldl (fun n w => n + w.queue.length) (storeFill s f)

/-- One data record; none while its key's field has no room for a pocket, a window or its pawns (R363). -/
def dataRecord (s : State) (t : Stream) (key time : W64) (ring : W32) : Option Stream :=
  let vf := (keyField s t key).1
  let base := poolOf s t vf
  (match sxKind t with
  | 0 => countRecord t vf base key ring
  | 1 => timeRecord t vf base key time ring
  | _ => gapRecord t vf base key time ring).filter (fun t => fieldPawns s t vf ≤ 65536)

/-! ## Watermark and flush (R349, R360, R361) -/

/-- The watermark advances; what closes by it has had its last record. -/
def advanceWm (t : Stream) (w : W64) : Stream :=
  let wm := if t.wm.toNat < w.toNat then w else t.wm
  let t1 := { t with wm := wm }
  if sxKind t = 0 then t1
  else { t1 with wins := t1.wins.map (fun v =>
    if v.close ≤ wm.toNat && (winOpen v || v.st = .filling) then { v with last := true } else v) }

/-- A window discarded by a flush: CLOSING without a CLOSE. -/
def discardWin (t : Stream) (w : Win) : Stream :=
  updWin (dropQueue t w) w.id (fun w => { w with st := .closing, incomplete := true })

/-- A flush; a second one has no effect. -/
def flushStream (t : Stream) (discard : Bool) : Stream :=
  if t.flushed then t
  else
    let marked : List Win := t.wins.map (fun w : Win => if w.st = PkState.filling then { w with last := true } else w)
    let t1 : Stream := { t with flushed := true, wins := marked }
    let ws := t1.wins.filter (fun w => winOpen w && !w.last)
    if discard then ws.foldl discardWin t1
    else ws.foldl (fun t w => updWin t w.id (fun w => { w with last := true, incomplete := true })) t1

/-! ## The ingress reader (R346 to R350, R361, R363) -/

/-- A step of a stream's engines while its context runs. -/
def onStream (s : State) (k : Stream → State) : Host.Outcome State Fault Refusal :=
  .next (match streamOf s s.arg.lh with
    | some t => if ctxRuns s t.ctx then k t else s
    | none => s)

/-- What follows a change of the table: the table settled, and the launch complete when nothing of it is left. -/
def goOn (s : State) (t : Stream) : State := finishLaunch (settleStream (updStream s t.lh (fun _ => t)) t.lh) t.lh

/-- The ring's control block and the record at `next`. -/
def nextRecord (s : State) (t : Stream) : Except Flt (Ring × List Byte) :=
  match ringLoad s t (inRing t) 64 with
  | .error f => .error f
  | .ok b =>
    let r := ringOf b
    match ringLoad s t (ringRec r t.next) r.size with
    | .error f => .error f
    | .ok d => .ok (r, d)

/-- The step that processes a record. -/
def recordStep (r : Ring) (d : List Byte) : Instr :=
  if fld d 0 8 ≠ 2 ^ 64 - 1 then .ingressDataRecord
  else if r.size ≤ 16 then .controlWatermark
  else match fld d 16 1 with
    | 0 => .controlWatermark
    | 1 => .controlFlush
    | _ => .controlMalformed

/-- RIDX advances past the records that no pawn names: a release at `.sys` of what the reader and the lanes that ended have observed
(R346). -/
def retire (s : State) (t : Stream) : State × Stream :=
  let n := (t.next - t.retired).toNat
  let k := ((List.range n).takeWhile (fun i => !t.named.contains (t.retired + BitVec.ofNat 32 i))).length
  if k = 0 then (s, t)
  else
    let t1 := { t with retired := t.retired + BitVec.ofNat 32 k }
    let seen := t.wins.foldl (fun v w => vcJoin v w.vc) t.vc
    match winStore s t (ringField s t) (inRing t + 20) (leBytes 4 t1.retired.toNat) [sysRel t.ctx seen] with
    | .ok s1 => (updStream s1 t.lh (fun _ => t1), t1)
    | .error f => (winFault s t (ringField s t) f, t)

/-- The reply of a stream command to the group that waits for it. -/
def answerCmd (s : State) (uid st : Nat) : State :=
  match s.groups.find? (fun g => g.uid = uid && (match g.wait with | .stream _ _ => true | _ => false)) with
  | some g => finish s (match g.wait with | .stream _ (some d) => wrS g d st | _ => g)
  | none => s

/-- A stream command takes effect: its status (R373, R374). -/
def applyCmd (t : Stream) (k : Nat) (v : W64) : Stream × Nat :=
  if t.flushed then (t, 2)
  else if k = 0 then (if v.toNat ≤ t.wm.toNat then (t, 3) else (advanceWm t v, 0))
  else (flushStream t (k = 2), 0)

/-- After a flush no record is read any more: the commands left find the stream flushed. -/
def endCmds (s : State) (t : Stream) : State × Stream :=
  if t.flushed then (t.cmds.foldl (fun s c => answerCmd s c.2.2.2 2) s, { t with cmds := [] }) else (s, t)

/-- The oldest command takes effect once the records before it have been processed. -/
def runCmds (s : State) (t : Stream) : State × Stream :=
  match t.cmds with
  | [] => (s, t)
  | (i, k, v, u) :: rest =>
    if i ≠ t.next then (s, t)
    else
      let r := applyCmd { t with cmds := rest } k v
      endCmds (answerCmd s u r.2) r.1

/-- The reader looks at its ring: RIDX, statistics, WIDX, then the next record. -/
def pollStream (s : State) (t0 : Stream) : State :=
  let (s1, t1) := retire s t0
  let (sc, t2) := runCmds s1 t1
  let s2 := if t2 = t1 then s1 else goOn sc t2
  match streamOf s2 t2.lh with
  | none => s2
  | some t =>
    let s3 := writeStats s2 t
    if t.flushed then finishLaunch s3 t.lh
    else match agentRead s3 (ringBuf s3 t) t.ctx (inRing t) 64 with
      | .error f => winFault s3 t (ringField s3 t) f
      | .ok (sr, b) =>
        let t3 := { t with seen := (ringOf b).widx, vc := vcJoin t.vc (widxSees s3 t) }
        let s4 := updStream sr t.lh (fun _ => t3)
        if !t3.cmds.isEmpty && t2 ≠ t1 then enqueueOnce s4 .ingressPoll { lh := t.lh }
        else if t3.next = t3.seen then s4
        else match nextRecord s4 t3 with
          | .error f => winFault s4 t3 (ringField s4 t) f
          | .ok (r, d) =>
            if !t3.paused then enqueueOnce s4 (recordStep r d) { lh := t.lh }
            else if (dataRecord s4 t3 (BitVec.ofNat 64 (fld d 0 8)) (BitVec.ofNat 64 (fld d 8 8)) t3.next).isSome then
              enqueueOnce s4 .ingressResume { lh := t.lh }
            else s4

def execIngressPoll (s : State) : Host.Outcome State Fault Refusal := onStream s (pollStream s)

/-- Act on the record at `next` when it is of the step's kind, not beyond what was read of WIDX; its read reaches its rows. -/
def onRecord (s : State) (i : Instr) (k : State → Stream → List Byte → State) : Host.Outcome State Fault Refusal :=
  onStream s (fun t =>
    if t.flushed || t.paused || t.next = t.seen || t.cmds.any (fun c => c.1 = t.next) then s
    else match nextRecord s t with
      | .error f => winFault s t (ringField s t) f
      | .ok (r, d) => if recordStep r d = i then k (agentTouch s (ringBuf s t) t.ctx (ringRec r t.next) r.size) t d else s)

/-- Zero the bytes of new pockets behind their headers (R354), 32 at a time; or the first fault, with the field whose engine met it. -/
def zeroPockets (s : State) (t : Stream) (ws : List Win) : Except (Nat × Flt) State :=
  ws.foldl (fun r w => (List.range (sxPocket t / 32 - 1)).foldl (fun r i => r.bind (fun s =>
    (winStore s t w.field (w.pocket.toNat + 32 * (i + 1)) (List.replicate 32 0) []).mapError (fun f => (w.field, f)))) r) (.ok s)

/-- Whether a record is late (R350). -/
def isLate (t : Stream) (time : W64) : Bool := sxKind t ≠ 0 && time.toNat + sxLate t < t.wm.toNat

/-- A data record: dropped when late, held when there is no room, else delivered. One whose new pocket cannot be zeroed is left to be
processed after the stop (R376). -/
def readData (s : State) (t : Stream) (d : List Byte) : State :=
  let key : W64 := BitVec.ofNat 64 (fld d 0 8)
  let time : W64 := BitVec.ofNat 64 (fld d 8 8)
  let t0 := { t with next := t.next + 1, read := t.read + 1 }
  if isLate t time then goOn s { t0 with late := t.late + 1 }
  else match dataRecord s t key time t.next with
    | none => updStream s t.lh (fun t => { t with paused := true })
    | some t1 =>
      match zeroPockets (mapTouch s t key) t1 (t1.wins.filter (fun w => t.nextId ≤ w.id)) with
      | .error (vf, f) => winFault s t vf f
      | .ok s1 =>
      let s2 := if (keyField s t key).2 then updLaunch s1 t.lh (fun l => { l with hintIgnored := true }) else s1
      let ws := updWhere t1.wins (fun w : Win => t.nextId ≤ w.id) (fun w => { w with idle := s.clock.toNat })
      goOn s2 { t1 with next := t.next + 1, read := t.read + 1, wins := ws }

def execIngressDataRecord (s : State) : Host.Outcome State Fault Refusal := onRecord s .ingressDataRecord readData
def execControlWatermark (s : State) : Host.Outcome State Fault Refusal :=
  onRecord s .controlWatermark (fun s t d =>
    goOn s (advanceWm { t with next := t.next + 1 } (BitVec.ofNat 64 (fld d 8 8))))
def execControlFlush (s : State) : Host.Outcome State Fault Refusal :=
  onRecord s .controlFlush (fun s t _ =>
    let r := endCmds s (flushStream { t with next := t.next + 1 } (sxEndpol t = 1))
    goOn r.1 r.2)
def execControlMalformed (s : State) : Host.Outcome State Fault Refusal :=
  onRecord s .controlMalformed (fun s t _ => goOn s { t with next := t.next + 1, malformed := t.malformed + 1 })

/-- Reading resumes when there is room again (R363). -/
def execIngressResume (s : State) : Host.Outcome State Fault Refusal :=
  onStream s (fun t =>
    if t.paused then enqueueOnce (updStream s t.lh (fun t => { t with paused := false })) .ingressPoll { lh := t.lh } else s)

/-! ## Sending pawns (R356, R362, R364) -/

/-- Where the record that a pawn names lies, by its ring's control block; 0 for one that names none. -/
def recordAddr (s : State) (t : Stream) (p : WPawn) : Except Flt (State × Nat) :=
  match p.ring with
  | some i => (agentRead s (ringBuf s t) t.ctx (inRing t) 64).map (fun r => (r.1, ringRec (ringOf r.2) i))
  | none => .ok (s, 0)

/-- The argument words of a window pawn, with the address of its record. -/
def pawnArgs (t : Stream) (w : Win) (p : WPawn) (rc : Nat) : List W32 :=
  let two (v : Nat) : List W32 := [BitVec.ofNat 32 v, BitVec.ofNat 32 (v / 2 ^ 32)]
  let o := p.other.bind (winOf t)
  two w.wid.toNat ++ two (if p.kind = 2 || p.kind = 3 then p.num.toNat else 0)
    ++ two (match o with | some v => v.pocket.toNat | none => 0)
    ++ [(if p.kind = 4 then (match o with | some v => v.wid.setWidth 32 | none => 0) else 0),
        (if p.incomplete then 1 else 0)]
    ++ two w.pocket.toNat ++ two rc

/-- The head of a window's queue is sent to its field's gatherer, when it has room. -/
def sendPawn (s : State) (t : Stream) (w : Win) : State :=
  match w.queue with
  | [] => s
  | p :: rest =>
    match ctxOf s t.ctx with
    | none => s
    | some c =>
      let f := physField c w.field
      if 65536 ≤ storeFill s f then enqueueOnce s .windowPawnSend { lh := t.lh, win := w.id }
      else match recordAddr s t p with
      | .error e => winFault s t (ringField s t) e
      | .ok (s0, rc) =>
        let pw : Pawn := ⟨BitVec.ofNat 64 (sxEntry t p.kind), t.lh, BitVec.ofNat 8 p.kind, 12, BitVec.ofNat 8 w.field,
          pawnArgs t w p rc, some w.id, vcJoin t.vc w.vc⟩
        let s1 := updStream s0 t.lh (fun t => updWin t w.id (fun w => { w with queue := rest, inflight := some p, disp := false }))
        sendPawns s1 w.field [pw]

def execWindowPawnSend (s : State) : Host.Outcome State Fault Refusal :=
  onStream s (fun t => match winOf t s.arg.win with
    | some w => if sendable t w then sendPawn s t w else s
    | none => s)

/-- The pockets that lie in the row of an address. -/
def rowPockets (t : Stream) (va : Nat) : List Win :=
  t.wins.filter (fun w => w.pocket.toNat / 1024 ≤ va / 1024 && va / 1024 ≤ (w.pocket.toNat + sxPocket t - 1) / 1024)

/-- The pockets there that are back in their pool: virtual field and the clock at which the last pawn ended. -/
def rowRests (t : Stream) (va : Nat) : List (Nat × Nat) :=
  (t.resting.filter (fun r => r.2.1 / 1024 ≤ va / 1024 && va / 1024 ≤ (r.2.1 + sxPocket t - 1) / 1024)).map (fun r => (r.1, r.2.2))

/-- The virtual field of the pockets in a row; none where no pocket has been used. -/
def rowField (t : Stream) (va : Nat) : Option Nat := ((rowPockets t va).map (fun w => w.field) ++ (rowRests t va).map (fun r => r.1)).head?

/-- Whether every pocket in a row has had no pawn for DORM (R343, R364). -/
def dormant (s : State) (t : Stream) (va : Nat) : Bool :=
  sxDorm t ≠ 0 && (rowPockets t va).all (fun w =>
    w.queue.isEmpty && w.inflight.isNone && w.idle + sxDorm t ≤ s.clock.toNat)
    && (rowRests t va).all (fun r => r.2 + sxDorm t ≤ s.clock.toNat)

/-- A row whose pockets are dormant is demoted (R364). -/
def execDormancyDemote (s : State) : Host.Outcome State Fault Refusal :=
  onStream s (fun t => match rowField t s.arg.addr with
    | some vf => if dormant s t s.arg.addr then rowAsk s (winBuf s t.ctx vf) t.ctx s.arg.addr .dem else s
    | none => s)

/-! ## Egress (R370, R371) -/

/-- The control block address of egress ring e. -/
def egressAddr (s : State) (buf : Nat) (t : Stream) (e : Nat) : Except Flt (State × Nat) :=
  (agentRead s buf t.ctx (fld t.ext 96 8 + 8 * e) 8).map (fun r => (r.1, leVal r.2))

/-- The alarm of a ring (R371): a host interrupt or a link message, once the writes it reports are performed (R443), or an arrival on
a barrier of the context. -/
def raiseAlarm (s : State) (t : Stream) (buf cb : Nat) (r : Ring) (vc : SMap Nat) (tags : List Nat) : State :=
  let p := partOfCtx s t.ctx
  match r.alarm with
  | 1 => raiseIrq s ⟨tags, some (bits r.atgt 15 15, bits r.atgt 10 0), 0, 0, [], []⟩
  | 2 =>
    let d := bits r.atgt 13 0
    (match agentRead s buf t.ctx r.amsg 64 with
     | .ok (s, b) =>
       if d ≠ ownDev s && (routeOf s d).isNone || bits (fld b 2 1) 7 3 ≠ 0 then elog s p 5 (480 + homeField s t.ctx cb) t.ctx cb 1 []
       else raiseIrq s ⟨tags, none, p, d, b, vc⟩
     | .error f => elog s p 5 (480 + homeField s t.ctx cb) t.ctx cb f.reason [])
  | 3 =>
    (match ctxOf s t.ctx with
     | none => s
     | some c =>
       match ctxScr c r.atgt with
       | some a => agentArrive s p t.ctx (480 + homeField s t.ctx cb) (some ⟨[0], 2 ^ 40, 0, 2 ^ 40⟩) a 1 vc
       | none => elog s p 2 (480 + homeField s t.ctx cb) t.ctx r.atgt 0 [])
  | _ => s

/-- One record written to a ring with room, WIDX after it, and the alarm when the free count falls below LOWWM. -/
def emitRec (s : State) (t : Stream) (g : Group) (x : InsWord) (e cb : Nat) (r : Ring) (l : Nat) : Except Flt State :=
  let path := pathRel 3 g.ctx g.vc
  let wr : Writer := ⟨4, 480 + vfieldOf s g.ctx g.core, g.pc⟩
  let b := match x.opa with
    | .v n => (List.range (r.size / 4)).flatMap (fun k => leBytes 4 (rdV g (n.toNat + k) l))
    | _ => []
  match agentStore s (gBuf g) t.ctx (ringRec r r.widx) b wr [path] with
  | .error f => .error f
  | .ok s1 =>
    match agentStore s1 (gBuf g) t.ctx (cb + 16) (leBytes 4 (r.widx + 1).toNat) wr [mkRel g .access (2 ^ 41) 3 g.vc, path] with
    | .error f => .error f
    | .ok s2 =>
      let low := r.lowwm ≠ 0 && r.lowwm ≤ ringFree r && ringFree r - 1 < r.lowwm && !t.disarmed.contains e && r.alarm ≠ 0
      if !low then .ok s2
      else
        let s3 := updStream s2 t.lh (fun t => { t with disarmed := e :: t.disarmed })
        let s4 := (agentStore s3 (gBuf g) t.ctx (cb + 40) (leBytes 4 (r.alarmc + 1)) wr [path]).toOption.getD s3
        .ok (raiseAlarm s4 t (gBuf g) cb r g.vc (newTags s4 s.nextId))

/-- How far an `EMITR` got: all its lanes, as many as the ring had room for, or a fault. -/
inductive Emitted where
  | all (s : State)
  | part (s : State) (n : Nat)
  | bad (f : Flt)
  deriving DecidableEq, Repr, Inhabited

/-- The lanes of an `EMITR`, ascending. -/
def emitLanes (g : Group) (x : InsWord) (e cb : Nat) : List Nat → Nat → State → Emitted
  | [], _, s => .all s
  | l :: rest, k, s =>
    match streamOf s g.lh with
    | none => .all s
    | some t =>
      match agentRead s (gBuf g) t.ctx cb 64 with
      | .error f => .bad f
      | .ok (s0, b) =>
        let r := ringOf b
        if ringFree r = 0 then .part s k
        else match emitRec s0 t g x e cb r l with
          | .ok s1 => emitLanes g x e cb rest (k + 1) s1
          | .error f => .bad f

/-- The lanes an `EMITR` has already written, none while another holds the ring. -/
def emitDone (t : Stream) (g : Group) (e : Nat) : Option Nat :=
  match t.emits.find? (fun q => q.1 = e) with
  | some (_, u, k) => if u = g.uid then some k else none
  | none => some 0

def setEmit (s : State) (lh : W32) (e : Nat) (q : Option (Nat × Nat)) : State :=
  let own : List (Nat × Nat × Nat) := match q with | some (u, k) => [(e, u, k)] | none => []
  updStream s lh (fun t => { t with emits := own ++ t.emits.filter (fun q => q.1 ≠ e) })

/-- `EMITR`: a release at `.sys`; STALLED while the ring is full or another `EMITR` is under way on it. -/
def execEmitr (x : InsWord) (s : State) : Host.Outcome State Fault Refusal :=
  withGroup s (fun g =>
    let e := modF x 1 0
    if active g x = [] then finish s g
    else match streamOf s g.lh with
      | none => finish s g
      | some t =>
        match emitDone t g e with
        | none => stallOf s g
        | some k =>
          afterFence s g true
            (match egressAddr s (gBuf g) t e with
             | .error f => takeFault s g f
             | .ok (s, cb) =>
               match emitLanes g x e cb ((active g x).drop k) k s with
               | .all s1 => finish (setEmit s1 g.lh e none) (released g)
               | .part s1 n => stallOf (setEmit s1 g.lh e (some (g.uid, n))) g
               | .bad f => takeFault s g f))

/-- A consumer's write of RIDX has restored the free count: the alarm is armed again (R371). -/
def execEgressRearm (s : State) : Host.Outcome State Fault Refusal :=
  .next (match streamOf s s.arg.lh with
    | none => s
    | some t =>
      match egressAddr s (ringBuf s t) t s.arg.ring with
      | .error _ => s
      | .ok (s0, cb) =>
        match agentRead s0 (ringBuf s t) t.ctx cb 64 with
        | .error _ => s
        | .ok (s, b) =>
          if (ringOf b).lowwm ≤ ringFree (ringOf b) then
            updStream s t.lh (fun t => { t with disarmed := t.disarmed.filter (fun r => r ≠ s.arg.ring) })
          else s)

/-! ## Window threads (R365 to R369, R372) -/

/-- The window whose pocket a lane holds. -/
def laneWin (s : State) (g : Group) (l : Nat) : Option Win :=
  (g.pk.find? (fun kv => kv.1 = l)).bind (fun kv => (streamOf s g.lh).bind (fun t => winOf t kv.2))

/-- The snapshot of `WINF` (R372). -/
def winfVal (s : State) (g : Group) (mode l : Nat) : Nat :=
  match streamOf s g.lh with
  | none => 0
  | some t =>
    match mode with
    | 0 => t.wm.toNat
    | 3 => t.late.toNat
    | m => match laneWin s g l with
      | none => 0
      | some w => if m = 1 then pendOf w else w.close % 2 ^ 64

def execWinf (x : InsWord) (s : State) : Host.Outcome State Fault Refusal :=
  withGroup s (fun g => finish s ((active g x).foldl (fun h l => match x.dst with
    | .v n => wrVs h n.toNat l (words 2 (winfVal s g (modF x 1 0) l))
    | _ => h) g))

def execPark (x : InsWord) (s : State) : Host.Outcome State Fault Refusal :=
  withGroup s (fun g =>
    if active g x = [] then finish s g
    else afterFence s g false (finish (pawnsEnd s g (active g x) false g.vc) (dropLanes (released g) (effMask g x))))

/-- `DIE`: every active lane's pawn in flight must be its window's CLOSE. -/
def execDie (x : InsWord) (s : State) : Host.Outcome State Fault Refusal :=
  withGroup s (fun g =>
    let wrong := (active g x).filter (fun l => match (laneWin s g l).bind (fun w => w.inflight) with
      | some p => p.kind ≠ 5
      | none => true)
    if active g x = [] then finish s g
    else match wrong with
      | l :: _ => takeFault s g { permFlt .windowOrder 0 with lanes := maskOf [l] }
      | [] => afterFence s g false (finish (pawnsEnd s g (active g x) true g.vc) (dropLanes (released g) (effMask g x))))

/-- One lane's repack pawn (R369). -/
def repackPawn (s : State) (g : Group) (x : InsWord) (pc : W64) (l : Nat) : Pawn :=
  let n := modF x 3 0
  let two (v : W64) : List W32 := [v.setWidth 32, (v >>> 32).setWidth 32]
  { pc := pc, lh := g.lh, kind := 1, narg := 12, sfld := BitVec.ofNat 8 (vfieldOf s g.ctx g.core)
    arg := (List.range 8).map (fun k => if k < n then BitVec.ofNat 32 (rdV g (vIdx x.opa + k) l) else 0)
      ++ two (SMap.get 0 g.pB l) ++ two (SMap.get 0 g.qB l)
    win := (g.pk.find? (fun kv => kv.1 = l)).map (fun kv => kv.2), vc := g.vc }

def execRepack (x : InsWord) (s : State) : Host.Outcome State Fault Refusal :=
  withGroup s (fun g =>
    let ls := active g x
    let th := match launchOf s g.lh with | some l => fld l.desc 50 1 | none => 0
    let t := if th = 0 then g.width / 4 else th
    let pc := relTarget g x
    let f := coreField g.core
    if ls = [] || t < ls.length then finish s g
    else if !pcForm pc then takeFault s g { illegal 5 with addr := pc.toNat }
    else afterFence s g false
      (if 65536 < storeFill s f + ls.length then stallOf s g
       else finish (sendPawns s (vfieldOf s g.ctx g.core) (ls.map (repackPawn s g x pc))) (dropLanes (released g) (effMask g x))))

/-! ## `WIN.WMARK` and `WIN.FLUSH` (R373, R374) -/

/-- The stream a handle names for a context. -/
def streamFor (s : State) (g : Group) (a : Nat) : Option Stream :=
  (streamOf s (BitVec.ofNat 32 a)).filter (fun t => t.ctx = g.ctx)

/-- A command takes effect behind the records that WIDX covers now and the commands before it: at once where there are none, else its
group is held until then (log entry 49). -/
def streamCmd (reply : Bool) (x : InsWord) (s0 : State) (g : Group) (t : Stream) (k : Nat) (v : W64) : State :=
  let s := agentTouch s0 (ringBuf s0 t) t.ctx (inRing t + 16) 4
  let widx := (ringLoad s t (inRing t) 64).toOption.map (fun b => (ringOf b).widx)
  let w := widx.getD t.next
  let sd := match x.dst with | .s n => if reply then some n.toNat else none | _ => none
  if widx = some t.next && t.cmds.isEmpty then
    let r := applyCmd t k v
    goOn (finish s (if reply then wrDstS g x r.2 else g)) r.1
  else enqueueOnce (setGroup (updStream s t.lh (fun t => { t with cmds := t.cmds ++ [(w, k, v, g.uid)] }))
    { g with st := .stalled, wait := .stream t.lh sd }) .ingressPoll { lh := t.lh }

/-- A stream command: it is refused at once, or waits for its turn. -/
def winCmd (reply : Bool) (x : InsWord) (s : State) (bad : Nat → Bool) (k : Stream → Nat → Nat × W64) :
    Host.Outcome State Fault Refusal :=
  withGroup s (fun g =>
    let a := addrOf g x x.opa
    let b := addrOf g x x.opb
    let out (r : Nat) : State := finish s (if reply then wrDstS g x r else g)
    if active g x = [] then finish s g
    else afterFence s g false
      (if 2 ^ 32 ≤ a || bad b then out 4
       else match streamFor s g a with
         | none => out 1
         | some t => if t.flushed then out 2 else streamCmd reply x s g t (k t b).1 (k t b).2))

def execWinWmark (reply : Bool) (x : InsWord) (s : State) : Host.Outcome State Fault Refusal :=
  winCmd reply x s (fun _ => false) (fun _ b => (0, BitVec.ofNat 64 b))

def execWinFlush (reply : Bool) (x : InsWord) (s : State) : Host.Outcome State Fault Refusal :=
  winCmd reply x s (fun b => 2 < b) (fun t b => (if b = 0 then (if sxEndpol t = 1 then 2 else 1) else b, 0))

/-! ## Taking a stream up (R344, R451) -/

/-- The rules of R344 for an extension and the launch descriptor it belongs to, the rings apart. -/
def streamExtOk (d b : List Byte) : Bool :=
  let t : Stream := { (default : Stream) with ext := b }
  let kind := sxKind t
  let p1 := sxP1 t
  let p2 := sxP2 t
  let lim := if kind = 0 then 2 ^ 32 else 2 ^ 48
  fld d 4 2 = 1 && 16 ≤ fld d 6 2 && fld d 8 4 = 0
    && kind ≤ 2 && fld b 9 1 ≤ 1 && fld b 10 1 ≤ 1 && 1 ≤ sxNegr t && sxNegr t ≤ 4
    && sxPocket t % 32 = 0 && 32 ≤ sxPocket t && sxPocket t ≤ 4096 && fld b 120 8 = 0
    && 1 ≤ fld b 40 4 && fld b 40 4 ≤ 1000000 && (if kind = 0 then fld b 48 4 = 0 else 1 ≤ fld b 48 4)
    && 10 ≤ sxWtlog2 t && sxWtlog2 t ≤ 24 && (kind ≠ 0 || sxLate t = 0) && sxLate t < 2 ^ 48 && fld b 112 8 % 64 = 0
    && 1 ≤ p1 && p1 < lim && (if kind = 2 then p2 = 0 else 1 ≤ p2 && p2 ≤ p1)
    && sxEntry t 3 ≠ 0 && [2, 3, 4, 5, 6].all (fun k => sxEntry t k = 0 || pcForm (BitVec.ofNat 64 (sxEntry t k)))
    && (if sxPanes t then kind ≠ 2 && p1 / sxPaneLen t ≤ 16 && sxEntry t 4 ≠ 0 else kind = 2 || ceilDiv p1 p2 ≤ 1024)
    && (kind ≠ 2 || sxEntry t 6 ≠ 0)

/-- The control blocks of a stream keep R345: they lie in this device's memory. -/
def streamRingsOk (s : State) (ctx : Nat) (b : List Byte) : Bool :=
  let buf := partBuf s (partOfCtx s ctx)
  let near (a : Nat) : Bool := match normalAt s buf ctx a with | .ok (_, .dram ..) => true | _ => false
  let ok (a : Nat) (eg : Bool) : Bool :=
    a % 64 = 0 && near a && (match winLoad s buf ctx a 64 with | .ok r => ringOk r eg | .error _ => false)
  ok (fld b 0 8) false && (List.range (fld b 11 1)).all (fun e =>
    match winLoad s buf ctx (fld b 96 8 + 8 * e) 8 with
    | .ok a => ok (leVal a) true
    | .error _ => false)

/-- What the reads of a stream's control blocks leave behind. -/
def ringsTouch (s : State) (ctx : Nat) (b : List Byte) : State :=
  (List.range (fld b 11 1)).foldl (fun s e => agentTouch s (partBuf s (partOfCtx s ctx)) ctx (fld b 96 8 + 8 * e) 8)
    (agentTouch s (partBuf s (partOfCtx s ctx)) ctx (fld b 0 8) 64)

/-- The window engines take up a stream launch: its pools, and its reader from RIDX on. -/
def takeStream (s0 : State) (lh : W32) (ctx : Nat) (b : List Byte) : State :=
  let s := ringsTouch s0 ctx b
  let r := match winLoad s (partBuf s (partOfCtx s ctx)) ctx (fld b 0 8) 64 with | .ok c => ringOf c | .error _ => default
  let t : Stream := { (default : Stream) with lh := lh, ctx := ctx, ext := b, next := r.ridx, seen := r.ridx, retired := r.ridx }
  let pools := (List.range 16).map (fun v => (lh.toNat * 16 + v, BitVec.ofNat 64 (Config.poolBase (lh.toNat * 16 + v)).toNat &&& ~~~ 0xFFF#64))
  enqueueOnce { s with streams := s.streams ++ [t], pools := SMap.putAll 0 s.pools pools } .ingressPoll { lh := lh }

end Sys2Proof.Machine
end

