-- ==== Sys2Proof/Machine/Packets.lean ====
section
/-! DEFINITION. The packets (R326 to R331, R178 to R181, R451): what a malformed one is, and the steps that start, continue and
complete each kind. -/

namespace Sys2Proof.Machine
open Sys2Proof

/-! ## Reading for a packet (R330, R331): a failure is a reason and a detail -/

/-- `n` bytes at an address that the packet names at byte `off`, in a normal page: a translation fault has its reason code, a page
kind that refuses the use the offset. -/
def pktRead (s : State) (h : HwSlot) (va n off : Nat) : Except (Nat × Nat) (List Byte) :=
  match lookup s (partBuf s h.part) h.ctx va with
  | .error f => .error (5, f.reason)
  | .ok t =>
    if pteKind t.leaf.toNat ≠ 0 then .error (4, off)
    else match winLoad s (partBuf s h.part) h.ctx va n with | .ok b => .ok b | .error f => .error (5, f.reason)

/-- What such a read leaves behind. -/
def pktTouch (s : State) (h : HwSlot) (va n : Nat) : State := agentTouch s (partBuf s h.part) h.ctx va n

/-- What the dispatcher's read of `n` bytes observes, an acquire at `.sys` (R329, R337). -/
def pktSees (s : State) (h : HwSlot) (va n : Nat) : SMap Nat :=
  match normalAt s (partBuf s h.part) h.ctx va with
  | .ok (_, .dram pa _ _) => agentSees s h.ctx (dramKey pa) n
  | _ => []

/-- The packet's own 64 bytes, in local device memory (R323). -/
def headBytes (s : State) (h : HwSlot) : Except (Nat × Nat) (List Byte) :=
  match normalAt s (partBuf s h.part) h.ctx (headAddr s h) with
  | .ok (_, .remote ..) => .error (4, 0)
  | _ => pktRead s h (headAddr s h) 64 0

/-- What has happened before a packet's work: the kicks, what the dispatcher's reads of the packets observed and what a FENCE handed on,
and with ORD what the completed packets had observed (R329, R337). -/
def pktClk (s : State) (h : HwSlot) (ord : Bool) : SMap Nat :=
  vcJoin (qclkOf s (kickKey h.part h.qnum)) (if ord then qclkOf s (doneKey h.part h.qnum) else [])

/-- The bytes that R327 assigns to a kind, with the bits that may be set. -/
def assigned (kind i : Nat) : Nat :=
  if i = 0 || (4 ≤ i && i < 8) then 255
  else if i = 1 then 1
  else match kind with
    | 1 => if 8 ≤ i && i < 16 then 255 else 0
    | 2 => if 8 ≤ i && i < 17 then 255 else 0
    | 3 => if (8 ≤ i && i < 33) || (36 ≤ i && i < 40) then 255 else 0
    | 4 =>
      if (8 ≤ i && i < 25) || i = 26 || (32 ≤ i && i < 42) then 255
      else if i = 25 then 3
      else if i = 27 then 0x87
      else 0
    | _ => 0

/-- The first byte with a bit that R327 does not assign. -/
def strayByte (b : List Byte) : Option Nat :=
  (List.range 64).find? (fun i => fld b i 1 &&& (255 - assigned (fld b 0 1) i) ≠ 0)

/-- What is wrong with a packet's own bytes (R330): a reserved kind, an RZ field, an unassigned value, a misaligned address. -/
def packetBad (s : State) (h : HwSlot) (b : List Byte) : Option (Nat × Nat) :=
  let kind := fld b 0 1
  if 5 < kind then some (1, 0)
  else match strayByte b with
    | some i => some (2, i)
    | none =>
      match kind with
      | 1 => if fld b 8 8 % 128 ≠ 0 then some (4, 8) else none
      | 2 =>
        let ok := match ctxOf s h.ctx with | some c => (ctxFields s c).contains (fld b 16 1) | none => false
        if !ok then some (8, 16) else if fld b 8 8 % 64 ≠ 0 then some (4, 8) else none
      | 3 => if 5 < fld b 32 1 then some (8, 32) else if fld b 8 8 % 8 ≠ 0 then some (4, 8) else none
      | 4 =>
        if 1 < fld b 24 1 then some (8, 24)
        else if fld b 8 8 % 8 ≠ 0 then some (4, 8)
        else if bit (fld b 25 1) 1 && fld b 32 8 % 64 ≠ 0 then some (4, 32)
        else none
      | _ => none

/-! ## Launch descriptors (R177, R179, R308, R451) -/

/-- How many teams of a launch one core, or one core pair, holds when it is empty; n groups of it on that core. -/
def corePlaces (l : Launch) (n : Nat) (w : Nat) : Nat :=
  let regs := n * lVregs l * lWidth l
  let slots := if lFlag l 0 then 16 / (n / 4) else 67 / n
  min slots (min (if regs = 0 then slots else 130048 / regs) (if w = 0 then slots else 507904 / w))

/-- The teams of a launch that the empty partition of the given number of cores holds (R179). -/
def emptyPlaces (l : Launch) (cores : Nat) : Nat :=
  let g := lGroups l
  if spansPair l then
    cores / 2 * min (corePlaces l ((g + 1) / 2) (lScratch l / 2)) (if g / 2 = 0 then 67 else corePlaces l (g / 2) (lScratch l / 2))
  else cores * corePlaces l g (lScratch l)

/-- The first field of a launch descriptor that breaks R179, R344 or R451, by its byte offset. -/
def launchBad (s : State) (l : Launch) : Option Nat :=
  let d := l.desc
  let h := slotAt s l.hwslot
  let attr := slotQcb s h 13 1
  let kind := lKind l
  let g := lGroups l
  let quads := lFlag l 0
  let w := lScratch l
  let cores := 24 * (partOf s l.part).fields.length
  let drv := regVal s (regPart l.part 0x108)
  let checks : List (Bool × Nat) := [
    (decide (3 < kind), 0), (decide (2 < fld d 1 1), 1), (decide (128 ≤ fld d 2 2), 2), (decide (g < 1 || 128 < g), 4),
    (decide (lVregs l % 8 ≠ 0 || lVregs l < 8 || 256 < lVregs l), 6),
    (match kind with
     | 1 => decide (lTeams l ≠ fld d 12 1 * fld d 13 1)
     | 3 => decide (lTeams l ≠ 0)
     | _ => decide (lTeams l < 1 || 2 ^ 24 < lTeams l), 8),
    (if kind = 1 then decide (fld d 12 1 * fld d 13 1 < 1 || 24 < fld d 12 1 * fld d 13 1) else fld d 12 2 ≠ 0, 12),
    (decide (w % 256 ≠ 0 || 1015808 < w || (507904 < w && w % 512 ≠ 0)), 24),
    (decide (16 < fld d 51 1), 51), (decide (fld d 52 4 ≠ 0), 52), (decide (lExita l % 64 ≠ 0), 64),
    (decide (lCompa l % 64 ≠ 0), 72), (if kind = 3 then decide (fld d 80 8 = 0 || fld d 80 8 % 128 ≠ 0) else fld d 80 8 ≠ 0, 80),
    (decide (fld d 88 40 ≠ 0), 88), (quads && (decide (g % 4 ≠ 0) || (decide (64 < g) && decide (g % 8 ≠ 0))), 4),
    (decide (lVregs l < 16) && fld d 51 1 ≠ 0, 6), (kind = 2 && !bit attr 0, 0), (lFlag l 2 && !bit attr 1, 2),
    (kind = 2 && !drv.getLsbD 4, 0), (kind = 3 && !drv.getLsbD 0, 0),
    (kind ≠ 3 && quads && emptyPlaces l cores = 0, 4),
    (kind = 1 && (spansPair l || emptyPlaces l cores = 0), 4),
    (kind = 2 && emptyPlaces l cores < lTeams l, 8)]
  (checks.find? (fun c => c.1)).map (fun c => c.2)

/-- What is wrong with the extension of a stream launch, by reason and detail. -/
def streamBad (s : State) (l : Launch) : Except (Nat × Nat) (List Byte) :=
  match pktRead s (slotAt s l.hwslot) (fld l.desc 80 8) 128 80 with
  | .error e => .error e
  | .ok b =>
    let panes := fld b 9 1 = 1 && !(regVal s (regPart l.part 0x108)).getLsbD 1
    if !streamExtOk l.desc b || panes || !streamRingsOk s l.ctx b then .error (3, 80) else .ok b

/-! ## Starting (R328) -/

/-- The head packet starts: RIDX and INFL rise by 1. -/
def startPkt (s : State) (k : Nat) : State := updSlot s k (fun h => { h with ridx := h.ridx + 1, infl := h.infl + 1 })

/-- A handle that no launch holds (R182); never 0, which the groups of no launch hold (log entry 8). -/
def freshHandle (s : State) : W32 :=
  let free (h : W32) : Bool := h ≠ 0 && !s.launches.any (fun l => l.lh = h)
  if free (Config.handle s.nextHandle) then Config.handle s.nextHandle
  else BitVec.ofNat 32 (((List.range (s.launches.length + 2)).find? (fun i => free (BitVec.ofNat 32 i))).getD 0)

/-- A launch from its descriptor, not yet admitted. -/
def newLaunch (s : State) (k a : Nat) (d : List Byte) (ord : Bool) : Launch :=
  let h := slotAt s k
  let l : Launch := { (default : Launch) with
    lh := freshHandle s, ctx := h.ctx, part := h.part, hwslot := k, ridx := h.ridx, descA := BitVec.ofNat 64 a, desc := d
    started := true, vc := pktClk s h ord }
  { l with hintIgnored := (launchFields s l).2 }

/-- A head packet's try at starting: it is malformed, with a reason and a detail; it does not fit yet; it has started. -/
inductive Try where
  | bad (e : Nat × Nat)
  | wait
  | go (s : State)
  deriving DecidableEq, Repr, Inhabited

/-- Admission of a launch by its kind (R181). -/
def admitLaunch (s : State) (l : Launch) (ext : List Byte) : Option State :=
  match lKind l with
  | 0 => admitOne s l .grid
  | 1 => admitNbh s l
  | 2 => admitGang (lTeams l) s l.lh
  | _ => some (takeStream s l.lh l.ctx ext)

/-- A LAUNCH head (R181, R191): admitted with its handle written, or held while its resources do not fit. -/
def tryLaunch (s : State) (k : Nat) (b : List Byte) : Try :=
  match pktRead s (slotAt s k) (fld b 8 8) 128 8 with
  | .error e => .bad e
  | .ok d =>
    let l := newLaunch s k (fld b 8 8) d (bit (fld b 1 1) 0)
    match launchBad s l with
    | some o => .bad (3, o)
    | none =>
      match (if lKind l = 3 then streamBad s l else .ok []) with
      | .error e => .bad e
      | .ok ext =>
        let h := slotAt s k
        let sd := pktTouch s h (fld b 8 8) 128
        let s0 := if lKind l = 3 then pktTouch sd h (fld d 80 8) 128 else sd
        let s1 := { s0 with launches := s.launches ++ [l], nextHandle := s.nextHandle + 1 }
        match admitLaunch s1 l ext with
        | none => .wait
        | some s2 =>
          let s3 := startPkt (writeHandle s2 l) k
          .go (if lKind l = 0 then enqueueOnce s3 .teamAdmit { lh := l.lh } else s3)

/-- A COPY head: its descriptor translated (R330), its job accepted, or held while the table is full (R254). -/
def tryCopy (s : State) (k : Nat) (b : List Byte) : Try :=
  let h := slotAt s k
  let none' : Seg := ⟨[], 0, 0, 0⟩
  match pktRead s h (fld b 8 8) 64 8 with
  | .error e => .bad e
  | .ok _ =>
    match acceptJob s ⟨h.ctx, fld b 16 1, false, 0, false, false, BitVec.ofNat 64 (fld b 8 8), none', none', some (k, h.ridx),
        pktClk s h (bit (fld b 1 1) 0)⟩ with
    | none => .wait
    | some (s1, _) => .go (startPkt s1 k)

/-- A packet in flight. -/
def addPkt (s : State) (k : Nat) (b : List Byte) (due : Nat) : State :=
  let h := slotAt s k
  startPkt { s with pkts := s.pkts ++ [⟨k, h.ridx, fld b 0 1, BitVec.ofNat 64 (headAddr s h), b, due, 0⟩] } k

/-- What a WAITMEM's read of its word observes: an acquire at `.sys` (R329). -/
def wordSees (s : State) (h : HwSlot) (va : Nat) : SMap Nat := pktSees s h va 8

/-- A WAITMEM's condition on its word (R327). -/
def waitHolds (b : List Byte) (w : Nat) : Bool :=
  let m := fld b 24 8
  let x := w &&& m
  let y := fld b 16 8 &&& m
  match fld b 32 1 with
  | 0 => x = y
  | 1 => x ≠ y
  | 2 => y ≤ x
  | 3 => x < y
  | 4 => sext y 64 ≤ sext x 64
  | _ => sext x 64 < sext y 64

/-- A packet in flight is complete, with what it had observed. -/
def pktDone (s : State) (p : Pkt) (vc : SMap Nat) : State := packetDone { s with pkts := s.pkts.erase p } p.slot vc

/-- A packet in flight fails (R330): INFL falls, its queue is in ERROR. -/
def pktFail (s : State) (p : Pkt) (e : Nat × Nat) : State :=
  let s1 := updSlot { s with pkts := s.pkts.erase p } p.slot (fun h => { h with infl := h.infl - 1 })
  let h := slotAt s1 p.slot
  dispatch (queueError s1 h.part h.qnum e.1 p.ridx.toNat p.addr.toNat (fld p.data 4 4) e.2 p.data) h.part

/-- A WAITMEM looks at its word, over the link when it lies in another device. -/
def waitLook (s : State) (p : Pkt) : State :=
  let h := slotAt s p.slot
  let va := fld p.data 8 8
  match pktRead s h va 8 8 with
  | .error e => pktFail s p e
  | .ok w =>
    let s1 := pktTouch s h va 8
    if waitHolds p.data (leVal w) then pktDone s1 p (wordSees s h va) else s1

/-- The packet in flight of a slot and ring index. -/
def pktOf (s : State) (k : Nat) (r : W32) : Option Pkt := s.pkts.find? (fun p => p.slot = k && p.ridx = r)

/-- A WAITMEM head: started when its word can be read. -/
def tryWait (s : State) (k : Nat) (b : List Byte) : Try :=
  let h := slotAt s k
  match pktRead s h (fld b 8 8) 8 8 with
  | .error e => .bad e
  | .ok _ =>
    let us := fld b 36 4
    let s1 := addPkt s k b (if us = 0 then 0 else s.clock.toNat + 1050 * us)
    .go (match pktOf s1 k h.ridx with | some p => waitLook s1 p | none => s1)

/-! ## SIGNAL (R327 to R329) -/

/-- The message buffer of a SIGNAL: a bad one is malformed, a destination with no route an error (R429); SHOOT needs a privileged
queue (log entry 30). -/
def signalMsg (s : State) (h : HwSlot) (b : List Byte) : Except (Nat × Nat) (List Byte) :=
  let d := fld b 40 2 % 2 ^ 14
  match pktRead s h (fld b 32 8) 64 32 with
  | .error e => .error e
  | .ok m =>
    if d ≠ ownDev s && (routeOf s d).isNone then .error (4, 40)
    else if bits (fld m 2 1) 6 3 ≠ 0 then .error (2, 2)
    else if bit (fld m 2 1) 7 && !bit (slotQcb s h 13 1) 1 then .error (4, 32)
    else .ok m

/-- The message goes to the link once it has room in its send window; then the packet is complete. -/
def signalSend (s : State) (p : Pkt) : State :=
  let h := slotAt s p.slot
  let d := fld p.data 40 2 % 2 ^ 14
  let vc := pktClk s h true
  if !bit (fld p.data 25 1) 1 then pktDone s p []
  else match signalMsg s h p.data with
    | .error e => pktFail s p e
    | .ok m =>
      if d = ownDev s || linkRoom s d 64 then
        pktDone (sendMessage (pktTouch s h (fld p.data 32 8) 64) ⟨0, 0, 0xFFFF, h.ctx, 0, fld p.data 32 8⟩ h.part m d vc) p []
      else { s with pkts := updWhere s.pkts (fun q => q = p) (fun q => { q with stage := 1, due := 0 }) }

/-- A SIGNAL's write is performed: the interrupt, once the records it reports are (R443), then the message. -/
def signalWritten (s : State) (p : Pkt) : State :=
  let v := fld p.data 26 2
  let tags := recordTags s (slotAt s p.slot).ctx
  signalSend (if bit (fld p.data 25 1) 0 then raiseIrq s ⟨tags, some (bits v 15 15, bits v 10 0), 0, 0, [], []⟩ else s) p

/-- The write of a SIGNAL, a release at `.sys` of the packets completed before it (R329): made in its step in a local page, else sent
and awaited. -/
def signalWrite (s : State) (p : Pkt) : State :=
  let h := slotAt s p.slot
  let va := fld p.data 8 8
  let v := fld p.data 16 8
  let add := fld p.data 24 1 = 1
  let rel := [sysRel h.ctx (pktClk s h true)]
  if va = 0 then signalWritten s p
  else match lookup s (partBuf s h.part) h.ctx va with
    | .error f => pktFail s p (5, f.reason)
    | .ok t =>
      match locOf s t va with
      | .dram pa lat _ =>
        let x := if add then (dramVal s pa 8 + v) % 2 ^ 64 else v
        let s1 := dramWrite (cacheEnts s [t]) h.ctx pa lat (leBytes 8 x) ⟨1, 0xFFFF, 0⟩
        signalWritten (agentWrote s1 (dramKey pa) 8 add rel) p
      | .host port a => emit s (if add then .hostAdd port a (BitVec.ofNat 64 v) else .hostWrite port a (leBytes 8 v))
      | .remote d a _ =>
        (match routeOf s d with
         | none => pktFail s p (4, 8)
         | some port =>
           let (s1, tag) := freshTag s
           let pay := if add then leBytes 1 0 ++ leBytes 1 8 ++ leBytes 1 1 ++ leBytes 1 14 ++ leBytes 8 v ++ leBytes 8 0
             else leBytes 8 v
           let s2 := sendXact s1 ⟨tag, d, port, if add then 6 else 4, pay.length, 0, 0, 0xFFFF, h.ctx, 0, a, true, false,
             false, pay, va, [], 0, false, none⟩
           { s2 with pkts := updWhere s2.pkts (fun q => q = p) (fun q => { q with due := tag }) })
      | _ => pktFail s p (4, 8)

/-- Why a SIGNAL's word cannot be written. -/
def signalBad (s : State) (h : HwSlot) (b : List Byte) : Option (Nat × Nat) :=
  let va := fld b 8 8
  if va = 0 then none
  else match lookup s (partBuf s h.part) h.ctx va with
    | .error f => some (5, f.reason)
    | .ok t =>
      let k := pteKind t.leaf.toNat
      if (k ≠ 0 && k ≠ 2) || !bit t.leaf.toNat 5 then some (4, 8)
      else match locOf s t va with
        | .dram pa _ _ => if regionOf s pa ≠ .dram then some (5, 3) else if badPartial s pa 8 ≠ [] then some (5, 5) else none
        | .remote d _ _ => if (routeOf s d).isNone then some (4, 8) else none
        | _ => none

def trySignal (s : State) (k : Nat) (b : List Byte) : Try :=
  let h := slotAt s k
  match signalBad s h b with
  | some e => .bad e
  | none =>
    match (if bit (fld b 25 1) 1 then signalMsg s h b else .ok []) with
    | .error e => .bad e
    | .ok _ =>
      let s1 := addPkt s k b 0
      .go (match pktOf s1 k h.ridx with | some p => signalWrite s1 p | none => s1)

/-! ## The dispatcher's step (R328, R329, R334) -/

/-- Whether every write of the earlier packets' work of a context, records too, is performed (R329). -/
def workQuiet (s : State) (ctx : Nat) : Bool :=
  !s.posted.any (fun p => p.ctx = ctx) && !s.xacts.any (fun x => x.ctx = ctx && (x.slot ≠ 0xFFFF || x.record.isSome))

/-- A FENCE is complete: every later packet of its queue follows the completed ones (R329). -/
def fenceDone (s : State) (k : Nat) : State :=
  let h := slotAt s k
  packetDone (startPkt (noteQueue s (kickKey h.part h.qnum) (qclkOf s (doneKey h.part h.qnum))) k) k []

/-- The head packet of a slot tries to start, read as an acquire at `.sys` (R337). -/
def tryHead (s0 : State) (k : Nat) : Try :=
  let h := slotAt s0 k
  match headBytes s0 h with
  | .error e => .bad e
  | .ok b =>
    let s := noteQueue s0 (kickKey h.part h.qnum) (pktSees s0 h (headAddr s0 h) 64)
    match packetBad s h b with
    | some e => .bad e
    | none =>
      if (bit (fld b 1 1) 0 || fld b 0 1 = 5) && !workQuiet s h.ctx then .wait
      else match fld b 0 1 with
        | 1 => tryLaunch s k b
        | 2 => tryCopy s k b
        | 3 => tryWait s k b
        | 4 => trySignal s k b
        | 5 => .go (fenceDone s k)
        | _ => .go (packetDone (startPkt s k) k [])

/-- The first slot of a list whose head starts or is malformed, and what becomes of it. -/
def firstTry (s : State) : List Nat → Option (Nat × Try)
  | [] => none
  | k :: r => match tryHead s k with
    | .wait => firstTry s r
    | t => some (k, t)

/-- What a try leaves, with the dispatcher going on. -/
def applyTry (s : State) (k : Nat) (t : Try) : State :=
  let p := (slotAt s k).part
  match t with
  | .bad e => dispatch (headError s k e.1 e.2) p
  | .wait => s
  | .go s1 => dispatch (pktTouch (qcbTouch s1 p (slotAt s k).qnum) (slotAt s k) (headAddr s (slotAt s k)) 64) p

/-- The step that starts the packet of a kind at a slot's head: taken when the dispatcher picks that slot, else the step of the
slot it does pick is due. -/
def packetHead (i : Instr) (s : State) : Host.Outcome State Fault Refusal :=
  let k := s.arg.slot
  .next (if 64 ≤ k then s
    else match firstTry s (startable s (slotAt s k).part) with
      | none => s
      | some (j, t) =>
        if j = k && packetStep (headKind s k) = i then applyTry s k t
        else enqueueOnce s (packetStep (headKind s j)) { slot := j })

def execPacketNop (s : State) : Host.Outcome State Fault Refusal := packetHead .packetNop s
def execPacketLaunch (s : State) : Host.Outcome State Fault Refusal := packetHead .packetLaunch s
def execPacketCopy (s : State) : Host.Outcome State Fault Refusal := packetHead .packetCopy s
def execPacketWaitmem (s : State) : Host.Outcome State Fault Refusal := packetHead .packetWaitmem s
def execPacketSignal (s : State) : Host.Outcome State Fault Refusal := packetHead .packetSignal s
def execPacketFence (s : State) : Host.Outcome State Fault Refusal := packetHead .packetFence s

/-- A WAITMEM reads its word again. -/
def execWaitmemRecheck (s : State) : Host.Outcome State Fault Refusal :=
  .next (match pktOf s s.arg.slot s.arg.ridx with
    | some p => if p.kind = 3 then waitLook s p else s
    | none => s)

/-- A WAITMEM's timeout has passed (R330). -/
def execWaitmemTimeout (s : State) : Host.Outcome State Fault Refusal :=
  .next (match pktOf s s.arg.slot s.arg.ridx with
    | some p => if p.kind = 3 && p.due ≠ 0 && p.due ≤ s.clock.toNat then pktFail s p (6, 0) else s
    | none => s)

/-- A SIGNAL's write is answered, or its message may go: a failed atomic add to a host page is the queue's error (R330). -/
def execSignalDone (s : State) : Host.Outcome State Fault Refusal :=
  .next (match pktOf s s.arg.slot s.arg.ridx with
    | some p =>
      if p.kind ≠ 4 then s
      else if p.stage = 1 then signalSend s p
      else if !s.arg.ok && fld p.data 24 1 = 1 then pktFail s p (4, 8)
      else signalWritten s p
    | none => s)

end Sys2Proof.Machine
end

