-- ==== Sys2Proof/Machine/Fetch.lean ====
section
/-! DEFINITION. Fetch lines (R52 to R57), the chains and prefix units of a line (R68 to R75), the checks that come before an
instruction's own effect (R59, R83), and the meanings of the prefixes and of an unassigned opcode. -/

namespace Sys2Proof.Machine
open Sys2Proof

/-! ## The line (R52 to R55) -/

/-- The word in slot k of a line, and the instruction it is read as. -/
def slotWord (b k : Nat) : Nat := b / 2 ^ (32 + 96 * k) % 2 ^ 96
def slotInstr (b k : Nat) : Instr := decodeLax (slotWord b k)
def slotOp (b k : Nat) : Nat := slotWord b k % 512
def slotClass (b k : Nat) : IClass := classOf (slotOp b k)
/-- ENTRY and PAIR bits. -/
def entryBit (b k : Nat) : Bool := k < 5 && bit b k
def pairBit (b j : Nat) : Bool := j < 4 && bit b (5 + j)

/-- A line's address and a PC in it. -/
def lineOf (pc : W64) : Nat := pc.toNat / 64 * 64
def pcIn (line k : Nat) : W64 := BitVec.ofNat 64 (line + k)

/-! ## Delivery (R11, R56, R57) -/

/-- Keep a line in a core's instruction buffer of 1,024 lines. -/
def keepLine (s : State) (core ctx line b : Nat) : State :=
  let rest := s.ibuf.filter (fun l => !(l.core = core && l.ctx = ctx && l.va = line))
  let own := rest.filter (fun l => l.core = core)
  let kept := if own.length < 1024 then rest else rest.erase (own.headD default)
  { s with ibuf := kept ++ [⟨core, ctx, line, BitVec.ofNat 512 b⟩] }

/-- A line read from memory for a group: the translation kept, the rows it lies in touched (R57, R207, R401). -/
def readLine (s : State) (g : Group) (line : Nat) : Except Flt (State × Nat) :=
  (lineInMem s (gBuf g) g.ctx line).map (fun r => (unitTouch (cacheEnts s [r.2.1]) r.2.2 64, r.1))

/-- A line for a group: fetch holds it already, or the core's buffer does, or it is read (R11, R305). -/
def heldLine (s : State) (g : Group) (line : Nat) : Option Nat :=
  match g.fetched.find? (fun l => l.1 = line) with
  | some l => some l.2.toNat
  | none => lineInBuf s g.core g.ctx line

/-- A line as the fetch unit delivers it: its parity is checked, and a line that fails is read once more from memory. -/
def deliver' (s : State) (g : Group) (line : Nat) : Except Flt (State × Nat) :=
  let fresh : Except Flt (State × Nat) :=
    match readLine s g line with
    | .error f => .error f
    | .ok (s1, b) => if lineSound b then .ok (keepLine s1 g.core g.ctx line b, b) else .error { illegal 6 with addr := line }
  match heldLine s g line with
  | some b => if lineSound b then .ok (s, b) else fresh
  | none => fresh

/-- Fetch may read the next line in sequence too, where its page allows (R209). -/
def fetchAhead (s : State) (g : Group) (line : Nat) : State :=
  let u : State := if (lineInBuf s g.core g.ctx line).isSome || !Config.fetchAhead s.turn line then s
    else match readLine s g line with
      | .ok (s1, b) => keepLine s1 g.core g.ctx line b
      | .error _ => s
  { s with tlb := u.tlb, rows := u.rows, agenda := u.agenda, ibuf := u.ibuf, out := u.out, nextId := u.nextId }

/-- The line of a group's PC is brought into its core's buffer; what stops it is reported when the group would execute. -/
def execLineFetch (s : State) : Host.Outcome State Fault Refusal :=
  .next (match groupAt s s.arg.core s.arg.slot with
    | some g => (match deliver' s g (lineOf g.pc) with | .ok r => fetchAhead r.1 g (lineOf g.pc + 64) | .error _ => s)
    | none => s)

/-! ## Chains (R68 to R70) -/

/-- The head of a slot's chain. -/
def chainHead (b k : Nat) : Nat := ((List.range (k + 1)).reverse.find? (fun h => entryBit b h)).getD 0

def readsLatch (b k : Nat) : Bool := !(latchReads (slotInstr b k)).isEmpty

/-- Whether a later slot of the line, in slot k's chain, reads a latch; and the same from slot k on. R69's "slots h to k − 1 of the
chain of any latch reader k" leave the last reader itself out, and so does this (log entry 50). -/
def readerAfter (b k : Nat) : Bool := (List.range 5).any (fun r => k < r && chainHead b r ≤ k && readsLatch b r)
def readerFrom (b k : Nat) : Bool := readsLatch b k || readerAfter b k

/-- The restart PC that an open chain gives (R70): its head, from the slot after it to its last latch reader. -/
def chainRestart (line b k : Nat) : Option W64 :=
  if chainHead b k < k && readerFrom b k then some (pcIn line (chainHead b k)) else none

/-- The latch results made in a slot's chain before it. -/
def latchesBefore (e : Env) (b k : Nat) : Nat :=
  ((List.range k).filter (fun i => chainHead b k ≤ i && makesLatch e (slotInstr b i))).length

/-- Step 7 of R83: a latch read without its producer, or an instruction barred from the chain of a later reader. -/
def chainBad (e : Env) (b k : Nat) : Bool :=
  (latchReads (slotInstr b k)).any (fun j => latchesBefore e b k < j + 1)
    || (readerAfter b k && barredInChain (slotOp b k))

/-! ## Pairs (R59) -/

/-- The first condition that the pair at slot j fails, by its number in R59; none when it is legal. -/
def pairFault (e : Env) (b j : Nat) : Option Nat :=
  let a := slotInstr b j
  let c := slotInstr b (j + 1)
  let ka := slotClass b j
  let kc := slotClass b (j + 1)
  let sole (k : IClass) : Bool := k = .sys || k = .pfx
  let ra := if ka = .nop then [] else writesOf e a
  let rc := if kc = .nop then [] else readsOf e c
  if pairBit b (j + 1) then some 1
  else if entryBit b (j + 1) then some 2
  else if sole ka || sole kc || ka = .ctl then some 3
  else if ka = kc && ka ≠ .nop then some 4
  else if ra.any (fun r => rc.contains r) then some 5
  else if ra.any (fun r => r < 330 && (if kc = .nop then [] else writesOf e c).contains r) then some 6
  else none

/-- Whether the pair at slot j is legal. -/
def pairLegal (e : Env) (b j : Nat) : Bool := (pairFault e b j).isNone

/-- The slot j whose pair holds slot k: of two overlapping pairs the earlier one, which is illegal at its own slot j. -/
def pairOfSlot (b k : Nat) : Option Nat := if 0 < k && pairBit b (k - 1) then some (k - 1) else if pairBit b k then some k else none

/-- Step 3 of R83: the slot j at which a pairing fault is taken, checked at both members; no target of a prefix may be in a
pair (R74). -/
def pairBad (e : Env) (b k : Nat) (unit : Bool) : Option Nat :=
  match pairOfSlot b k with
  | none => none
  | some j =>
    if unit || !pairLegal e b j then some j else none

/-! ## Prefix units (R71 to R75) -/

/-- The kind of a prefix: 1 `PFX.W`, 2 `PFX.L` or `PFX.L.HI`; 0 for others. -/
def prefixKind (op : Nat) : Nat := if op = 0x1E0 then 1 else if op = 0x1E1 || op = 0x1E2 then 2 else 0

/-- Whether a target accepts a prefix of a kind (R73). -/
def accepts (e : Env) (b t kind : Nat) : Bool :=
  let assigned := match slotInstr b t with | .unassignedOpcode _ => false | _ => true
  assigned && (if kind = 1 then takesPfxW e (slotInstr b t) else takesPfxL (slotOp b t))

/-- Step 4 of R83 at the first prefix of a unit: the slot of the prefix fault. -/
def unitBad (e : Env) (b k : Nat) : Option Nat :=
  let k1 := prefixKind (slotOp b k)
  if k1 = 0 then none
  else if k = 4 then some k
  else
    let k2 := prefixKind (slotOp b (k + 1))
    if k2 = 0 then (if entryBit b (k + 1) || !accepts e b (k + 1) k1 then some k else none)
    else if k1 = k2 || k1 = 2 then some (k + 1)
    else if k + 1 = 4 then some (k + 1)
    else if prefixKind (slotOp b (k + 2)) ≠ 0 then some (k + 2)
    else if entryBit b (k + 2) || !accepts e b (k + 2) 1 then some k
    else if !accepts e b (k + 2) 2 then some (k + 1)
    else none

/-- A prefix executed: its unit is open, begun at the first prefix. -/
def openUnit (s : State) (g : Group) (f : Group → Group) : State :=
  let g1 := f { g with unit := some (g.unit.getD g.pc) }
  setGroup s { g1 with pc := nextPc g, st := .ready, wait := .none }

/-- `PFX.W` supplies the high half of the target's 64-bit literal. -/
def execPfxW (lit : W32) (s : State) : Host.Outcome State Fault Refusal :=
  withGroup s (fun g => openUnit s g (fun g => { g with pfxW := some lit }))

/-- The sub-mask of `PFX.L`: its literal in lanes 0 to 31, every lane above. -/
def subLow (lit : W32) : W64 := 0xFFFFFFFF00000000 ||| lit.setWidth 64
/-- The sub-mask of `PFX.L.HI`: every lane below 32, its literal above. -/
def subHigh (lit : W32) : W64 := 0xFFFFFFFF ||| (lit.setWidth 64 <<< 32)

def execPfxL (lit : W32) (s : State) : Host.Outcome State Fault Refusal :=
  withGroup s (fun g => openUnit s g (fun g => { g with sub := subLow lit }))

/-- `PFX.L.HI` is illegal at widths 16 and 32 (R72). -/
def execPfxLHi (lit : W32) (s : State) : Host.Outcome State Fault Refusal :=
  withGroup s (fun g =>
    if g.width < 64 then takeFault s g (illegal 8) else openUnit s g (fun g => { g with sub := subHigh lit }))

/-- An unassigned opcode (R81): an illegal-instruction fault, detail 1, whatever its other fields hold. -/
def execUnassignedOpcode (_op : BitVec 9) (s : State) : Host.Outcome State Fault Refusal :=
  withGroup s (fun g => takeFault s g (illegal 1))

/-! ## What stands before an instruction's own effect (R83) -/

/-- What the checks know of a group. -/
def envOf (s : State) (g : Group) : Env :=
  let rings := match streamOf s g.lh with
    | none => []
    | some t => (List.range (sxNegr t)).map (fun e => match egressAddr s (gBuf g) t e with
        | .error _ => 0
        | .ok (_, cb) => (match winLoad s (gBuf g) t.ctx cb 64 with | .ok b => (ringOf b).size | .error _ => 0))
  { width := g.width, vregs := g.vregs, priv := g.priv, quads := g.quads, window := g.kind = .window
    tailor := g.kind = .tailor, stream := (streamOf s g.lh).isSome, rings := rings }

/-- The decode error of a slot's word as a fault of R83's step 6. -/
def stepSix (e : Env) (w : Nat) (i : Instr) : Bool := (decodeErr w).isNone && operandsOk e i

/-- The first of the faults of R83's steps 2 to 7 at slot k of a line, with the slot it names. -/
def slotFault (e : Env) (b k : Nat) (unit : Bool) : Option (Nat × Flt) :=
  let i := slotInstr b k
  if bits b 23 9 ≠ 0 then some (k, illegal 9)
  else match pairBad e b k unit with
    | some j => some (j, illegal 2)
    | none =>
      match (if unit then none else unitBad e b k) with
      | some j => some (j, illegal 4)
      | none =>
        match i with
        | .unassignedOpcode _ => some (k, illegal 1)
        | _ =>
          if privileged (slotOp b k) && !e.priv then some (k, illegal 7)
          else if !stepSix e (slotWord b k) i then some (k, illegal 8)
          else if chainBad e b k then some (k, illegal 3)
          else none

/-- What the fetch unit tells an instruction about its slot. -/
def issueOf (e : Env) (line b k : Nat) : Issue :=
  { latches := latchesBefore e b k, reader := readerAfter b k
    head := if readerAfter b k then some (pcIn line (chainHead b k)) else none
    restart := chainRestart line b k, nextPc := none }

/-- The head of a chain that a group has begun and not ended: as its held instruction or its last one found it (R70). -/
def openChain (g : Group) : Option W64 := if g.st = .ready then g.iss.head else g.iss.restart

/-- The restart PC of a group between instructions (R70, R75). -/
def restartOf (g : Group) : W64 := (openChain g).getD (g.unit.getD g.pc)

end Sys2Proof.Machine
end

