-- ==== Sys2Proof/Machine/System.lean ====
section
/-! DEFINITION. Contexts, halts and swaps (R377 to R400): the stop of a context and its records, resume, the exchange of banks,
spill and fill, and the system instructions. -/

namespace Sys2Proof.Machine
open Sys2Proof

/-! ## The context control block (R379, R380) -/

def stCode : CtxState → Nat
  | .absent => 0 | .filling => 1 | .shadow => 2 | .active => 3 | .spilling => 4 | .saved => 5 | .halted => 6 | .faulted => 7
  | .dead => 8

/-- STATE and FLAGS of a context written into its CCB, with CHK after them; firmware's own address space has none. -/
def ccbPut (s : State) (id : Nat) : State :=
  match ctxOf s id with
  | none => s
  | some c =>
    if id = 0 then s
    else
      let s1 := dramSet (dramSet s (c.ccb + 24) 1 (stCode c.st)) (c.ccb + 26) 1 (c.hf.toNat + 2 * c.dbg.toNat)
      dramSet s1 (c.ccb + 252) 4 (crc32 (dramBytes s1 c.ccb 252)).toNat

/-- A context changed, and its CCB after it. -/
def putCtx (s : State) (id : Nat) (f : Ctx → Ctx) : State := ccbPut (updCtx s id f) id
def setSt (s : State) (id : Nat) (st : CtxState) : State := putCtx s id (fun c => { c with st := st })

/-- Whether `n` bytes lie in backed local DRAM (R379). -/
def inDram (s : State) (pa n : Nat) : Bool := regionRun s pa n = .dram

/-- A watchpoint word that keeps R388. -/
def wpOk (w : Nat) : Bool :=
  bits w 127 72 = 0 && bits w 63 41 = 0
    && (!bit w 71 || (3 ≤ bits w 69 64 && bits w 69 64 ≤ 16 && bits w 40 0 % 2 ^ bits w 69 64 = 0))

/-- The fields of a CCB in range and its CHK right. -/
def ccbOk (s : State) (a : Nat) : Bool :=
  let b := dramBytes s a 256
  a % 256 = 0 && inDram s a 256 && fld b 27 1 = 0 && fld b 56 8 = 0 && fld b 192 60 = 0 && fld b 26 1 < 4
    && fld b 252 4 = (crc32 (b.take 252)).toNat && fld b 24 1 ≤ 8 && fld b 25 1 ≤ 7 && 1 ≤ fld b 28 4 && fld b 28 4 ≤ 384
    && fld b 20 4 ≠ 0 && fld b 0 8 % 8192 = 0 && inDram s (fld b 0 8) 8192 && inDram s (fld b 32 8) (1114112 * fld b 28 4) && fld b 40 8 % 64 = 0 && inDram s (fld b 40 8) 32768
    && inDram s (fld b 48 8) 784 && (List.range 8).all (fun i => wpOk (fld b (64 + 16 * i) 16))

/-- The remap table at a physical address: physical fields and cores (R383). -/
def remapFields (s : State) (a : Nat) : List Nat := (List.range 16).map (fun v => dramVal s (a + v) 1)
def remapCores (s : State) (a n : Nat) : List Nat := (List.range n).map (fun v => dramVal s (a + 16 + 2 * v) 2)

/-- R14's rules for a remap, as far as the table shows them: dies and pairs kept, and the cores in use are distinct cores of
the partition's mapped fields. A pair is kept in its order: an even virtual core is an even physical one (log entry 14). -/
def remapOk (s : State) (p a n : Nat) : Bool :=
  let fs := remapFields s a
  let cs := remapCores s a n
  fs.zipIdx.all (fun x => 16 ≤ x.1 || x.1 / 8 = x.2 / 8) && (fs.filter (fun f => f < 16)).Nodup && cs.Nodup
    && cs.zipIdx.all (fun x => x.1 < 384 && fs.contains (coreField x.1) && (partOf s p).fields.contains (coreField x.1)
      && x.1 % 2 = x.2 % 2 && (x.2 % 2 = 0 || cs.getD (x.2 - 1) 0 + 1 = x.1))

/-- Whether a team is that of a pawn group (R191). -/
def pawnTeam (gs : List Group) (t : Team) : Bool := gs.any (fun g => g.teamId = t.id && (g.kind = .pawn || g.kind = .window))

/-- R14's rules for what a saved context holds: every core keeps its virtual field, and the cores of each resident neighbourhood form its
rectangle again. -/
def imageKept (s : State) (o : Ctx) (remapA ncore : Nat) : Bool :=
  match o.image with
  | none => true
  | some m =>
    let n : Ctx := { o with vfield := remapFields s remapA, vcore := remapCores s remapA ncore }
    (List.range (min o.ncore ncore)).all (fun v =>
      virtField o (coreField (physCore o v)) = virtField n (coreField (physCore n v)))
    && s.launches.all (fun l =>
      let w := fld l.desc 12 1
      let ts := m.teams.filter (fun t => t.lh = l.lh && !pawnTeam m.groups t)
      w = 0 || ts.isEmpty || (List.range 384).any (fun top => match rectangle w (fld l.desc 13 1) top with
        | none => false
        | some cs => ts.all (fun t => t.cores.map (physCore n) = (cs[t.idx]?).toList)))

/-- A context as its CCB describes it, with what the device already holds for it: its image, and the cores that it last had, by which
the next remap is judged (R14) and late faults are named. -/
def ctxOfCcb (s : State) (a : Nat) (old : Option Ctx) : Ctx :=
  let b := dramBytes s a 256
  { id := fld b 20 4, ccb := a, st := .filling, part := fld b 25 1, hf := bit (fld b 26 1) 0, dbg := bit (fld b 26 1) 1
    root := fld b 0 8, sdtb := BitVec.ofNat 64 (fld b 8 8), sdtn := BitVec.ofNat 32 (fld b 16 4), ncore := fld b 28 4
    imga := fld b 32 8, stopa := fld b 40 8, remapA := fld b 48 8, vfield := (old.map (fun c => c.vfield)).getD [], vcore := (old.map (fun c => c.vcore)).getD []
    wp := (List.range 8).map (fun i => BitVec.ofNat 128 (fld b (64 + 16 * i) 16)), wpHit := [], line := false, lineHalt := none
    faults := [], image := old.bind (fun c => c.image), inBanks := false, spilling := false }

/-! ## Stopping a context (R384 to R387) -/

/-- The groups of a context in their slots; a tailor group is none of them. -/
def groupsOf (s : State) (ctx : Nat) : List Group := s.groups.filter (fun g => g.ctx = ctx && g.kind ≠ .tailor)

/-- What a stop waits for: loads and held stores outside the part, matrix operations past their rendezvous, and an engine's
writes on their way (R265, R312, R381, R384). -/
def stopBusy (s : State) (ctx : Nat) : Bool :=
  (groupsOf s ctx).any (fun g => !g.loads.isEmpty || (match g.wait with | .ext _ => true | _ => false)
    || s.arrays.any (fun o => o.guid = g.uid))
  || s.jobs.any (fun j => j.ctx = ctx && j.st = .running && jobOut s j)

/-- A group as a stop leaves it, in the state it is in (R158, R384): at an instruction boundary, chains and units at their heads. A
group STALLED at a stream command gives the command up, to issue it again (log entry 49). One that had gone on in sequence resumes from a saved
PC; one that has just been dispatched, has been transferred or has stopped has had its ENTRY bit looked at (R55, log entry 31). -/
def stopGroup (g : Group) : Group :=
  match g.st, g.wait with
  | .ready, _ | .stalled, .none => savedAt (holdAt g (restartOf g)) (decide (g.iss = default) || decide (restartOf g ≠ g.pc))
  | .stalled, .stream _ _ => { holdAt g (restartOf g) with wait := .none }
  | _, _ => g

/-- Every group of a context stopped, unclaimed requests and stream commands withdrawn (R174), its queued pawns aside. -/
def stopGroups (s : State) (ctx : Nat) : State :=
  let gs := groupsOf s ctx
  let s1 := gs.foldl (fun t g => setGroup t (stopGroup g)) s
  { s1 with mbx := s.mbx.filter (fun m => m.claimed || !gs.any (fun g => g.uid = m.uid))
            streams := updWhere s1.streams (fun t => t.ctx = ctx)
              (fun t => { t with cmds := t.cmds.filter (fun c => !gs.any (fun g => g.uid = c.2.2.2)) })
            pawns := updWhere s1.pawns (fun q => (launchOf s q.pawn.lh).any (fun l => l.ctx = ctx)) (fun q => { q with aside := true }) }

/-- The record a unit writes among its faults: a fatal one first, then the lowest slot (R387). -/
def pickRec (l : List FaultRec) : Option FaultRec :=
  let first (l : List FaultRec) : Option FaultRec := l.foldl (fun b r => match b with
    | none => some r
    | some q => if r.slot < q.slot then some r else some q) none
  match first (l.filter (fun r => fatalReason r.reason)) with
  | some r => some r
  | none => first l

/-- The record of a unit with no fault of its own. -/
def quietRec (unit reason : Nat) (detail : Byte) (pc rpc : Nat) : FaultRec :=
  ⟨some unit, 0, 0xFFFF, reason, detail, BitVec.ofNat 64 pc, BitVec.ofNat 64 rpc, 0, 0, 0, 0⟩

/-- The record of virtual core v's fault, with the restart PC at which its group has stopped; `gs` are the groups on it. -/
def coreFault (c : Ctx) (gs : List Group) (v : Nat) : Option FaultRec :=
  (pickRec (c.faults.filter (fun r => r.unit.isNone && r.core = physCore c v))).map (fun r =>
    match gs.find? (fun g => g.slot = r.slot) with
    | some g => { r with rpc := g.pc }
    | none => r)

/-- The records of a context that is out: of the cores whose late stores failed (R226). -/
def awayRecs (c : Ctx) : List (Nat × FaultRec) :=
  let gs := match c.image with | some m => m.groups | none => []
  (List.range c.ncore).filterMap (fun v => (coreFault c (gs.filter (fun g => g.core = v)) v).map (fun r => (v, r)))

/-- The stop records of a context's cores. -/
def coreRecs (s : State) (c : Ctx) : List (Nat × FaultRec) :=
  (List.range c.ncore).filterMap (fun v =>
    let gs := (groupsOf s c.id).filter (fun g => g.core = physCore c v)
    match coreFault c gs v with
    | some r => some (v, r)
    | none =>
      if !gs.isEmpty then
        some (v, match c.lineHalt with | some d => quietRec v 15 d 0 0 | none => quietRec v 0 0 0 0)
      else none)

/-- The units of the window engines that hold work of a context (R387). -/
def winUnits (s : State) (c : Ctx) : List Nat :=
  (((s.streams.filter (fun t => t.ctx = c.id && !(t.flushed && t.wins.isEmpty))).flatMap (fun t =>
      homeField s c.id (inRing t) :: t.wins.map (fun w => w.field))).eraseDups).map (fun f => 480 + f)

/-- The stop records of its other units: their faults, the jobs the engines held (`js`, with where each is now), and the window
engines that serve it. -/
def unitRecs (s : State) (c : Ctx) (js : List Job) : List (Nat × FaultRec) :=
  let faulted := (c.faults.filterMap (fun r => r.unit)).eraseDups
  let fr := faulted.filterMap (fun u => (pickRec (c.faults.filter (fun r => r.unit = some u))).map (fun r => (u, r)))
  let jr := js.filterMap (fun j =>
    if faulted.contains (jobUnit j) then none
    else
      let now := (s.jobs.find? (sameJob j)).getD j
      some (jobUnit j, quietRec (jobUnit j) 0 0 (jobId j + 2 ^ 32 * (chunkIndex s now % 2 ^ 32)) now.next))
  let wr := (winUnits s c).filterMap (fun u => if faulted.contains u then none else some (u, quietRec u 0 0 0 0))
  fr ++ jr ++ wr

/-- The records written at STOPA. -/
def writeStops (s : State) (c : Ctx) (l : List (Nat × FaultRec)) : State :=
  l.foldl (fun s ur => dramPut s (c.stopa + 64 * ur.1) (stopRecord s ur.1 c.id ur.2.slot ur.2) 2) s

/-- The bits of HEV and the arrival of HBAR (R385). -/
def haltEvent (s : State) (c : Ctx) : State :=
  let b : W64 := if c.faults.any (fun r => r.reason = 12) then 3 else 1
  let s1 := regPut s (regPart c.part 0xC0) (regVal s (regPart c.part 0xC0) ||| b)
  barReg s1 c.part 0xC8 (partOf s c.part).hbarWin

/-- Groups that wait in `HALT` for this context go on with status 0 (R397). -/
def wakeHalts (s : State) (ctx : Nat) : State :=
  s.groups.foldl (fun s g => match g.wait with
    | .halted c sd => if c = ctx then finish s (wrS g sd 0) else s
    | _ => s) s

/-- What a fatal fault ends: the jobs that it stopped, the launches, which say so in their records; firmware's fatal-error event. -/
def fatalEnds (s : State) (ctx : Nat) : State :=
  let s1 := failJobs s ctx
  fatalEvent { s1 with launches := updWhere s1.launches (fun l => l.ctx = ctx && !l.done) (fun l => { l with ctxFaulted := true }) } 1 ctx

/-- A resident context has stopped: its records (of a HALTED one, those of the units with a new fault), its state, what a fatal
one ends, the events. A job may meet a fault of its own as it stops (R270). -/
def stopCtx (s : State) (c0 : Ctx) : State :=
  let js := s.jobs.filter (fun j => j.ctx = c0.id && j.st = .running && j.eng.isSome)
  let s1 := stopJobs (stopGroups s c0.id) c0.id
  let c := (ctxOf s1 c0.id).getD c0
  let s2 := writeStops s1 c ((coreRecs s1 c ++ unitRecs s1 c js).filter (fun r => c.st = .active || r.2.reason ≠ 0))
  let fatal := c.faults.any (fun r => fatalReason r.reason)
  let s3 := putCtx s2 c.id (fun d =>
    { d with st := if fatal then CtxState.faulted else CtxState.halted, line := false, lineHalt := none, faults := [] })
  let s4 := if fatal then fatalEnds s3 c.id else s3
  let s5 := updPart s4 c.part (fun p => { p with swapHeld := p.swapHeld || (p.swap && !c.faults.isEmpty) })
  swapDue (wakeHalts (haltEvent s5 c) c.id) c.part

/-- A fault recorded against a context that is not in the active banks: FAULTED, or halted while saved (R381). -/
def stopAway (s : State) (c : Ctx) : State :=
  let s1 := writeStops s c (awayRecs c ++ unitRecs s c [])
  let fatal := c.faults.any (fun r => fatalReason r.reason)
  let s2 := putCtx s1 c.id (fun d =>
    { d with st := if fatal then CtxState.faulted else d.st, hf := d.hf || !fatal, line := false, lineHalt := none, faults := [] })
  let s3 := if fatal then fatalEnds s2 c.id else s2
  haltEvent s3 c

/-- The instant at which the last unit of a context has stopped. -/
def contextStop (s : State) (ctx : Nat) : State :=
  match ctxOf s ctx with
  | none => s
  | some c =>
    if !c.line then s
    else match c.st with
      | .active => if stopBusy s ctx then enqueue s .contextStopped { ctx := ctx } else stopCtx s c
      | .halted => if stopBusy s ctx then enqueue s .contextStopped { ctx := ctx } else stopCtx s c
      | .faulted | .dead | .absent => updCtx s ctx (fun d => { d with line := false, lineHalt := none, faults := [] })
      | _ => stopAway s c

def execContextStopped (s : State) : Host.Outcome State Fault Refusal := .next (contextStop s s.arg.ctx)

/-! ## Resuming (R248, R376, R390) -/

/-- Everything of a context that became ACTIVE goes on; its groups have been issuable for no clk yet (R162). -/
def resumeCtx (s : State) (ctx : Nat) : State :=
  let p := partOfCtx s ctx
  let s0 := { s with groups := updWhere s.groups (fun g => g.ctx = ctx && g.kind ≠ .tailor) (fun g => { g with since := s.clks }) }
  let s1 := updPart (updCtx s0 ctx (fun c => { c with wpHit := [] })) p (fun q => { q with halt := false, swapHeld := false })
  let s2 := { s1 with pawns := updWhere s1.pawns (fun q => (launchOf s q.pawn.lh).any (fun l => l.ctx = ctx))
                        (fun q => { q with aside := false }) }
  let s3 := resumeJobs (recheckWaits s2 ctx) ctx
  let s4 := (s3.streams.filter (fun t => t.ctx = ctx)).foldl (fun s t => settleStream s t.lh) s3
  let s5 := (groupsOf s4 ctx).foldl (fun s g =>
    if g.st = .ending then enqueueOnce s .groupRetire { core := g.core, slot := g.slot } else s) s4
  swapDue (resourcesFree s5 p) p

/-! ## The exchange of banks (R381 to R383) -/

/-- A physical scratch address under a renaming of cores. -/
def mapScr (f : Nat → Nat) (a : Nat) : Nat := f (a / 2 ^ 19) * 2 ^ 19 + a % 2 ^ 19
def mapSeg (f : Nat → Nat) (sg : Seg) : Seg := { sg with parts := sg.parts.map (mapScr f) }
def mapWait (f : Nat → Nat) : WaitOn → WaitOn
  | .phase ba ph => .phase (mapScr f ba) ph
  | .rack ba t sd v => .rack (mapScr f ba) t sd v
  | .reply ba ph t sd sA => .reply (mapScr f ba) ph t sd sA
  | w => w
def mapGroup (f : Nat → Nat) (g : Group) : Group :=
  { g with core := f g.core, segS := mapSeg f g.segS, segN := mapSeg f g.segN, winS := mapSeg f g.winS, winN := mapSeg f g.winN
           wait := mapWait f g.wait }
def mapTeam (f : Nat → Nat) (t : Team) : Team :=
  { t with win := mapSeg f t.win, cores := t.cores.map f
           arrived := t.arrived.map (fun k => mapScr f (k / 2 ^ 64) * 2 ^ 64 + k % 2 ^ 64) }
def mapJob (f : Nat → Nat) (j : Job) : Job :=
  { j with segS := mapSeg f j.segS, segN := mapSeg f j.segN, wait := j.wait.map (fun w => (mapScr f w.1, w.2)) }

/-- The entries of a map whose keys lie on given cores, renamed; and the map without them. `core` and `ren` read and rename a
key. -/
def takeKeys {α : Type} [DecidableEq α] (d : α) (m : SMap α) (mine : Nat → Bool) (ren : Nat → Nat) : SMap α :=
  SMap.putAll d [] ((m.filter (fun kv => mine kv.1)).map (fun kv => (ren kv.1, kv.2)))
def dropKeys {α : Type} (m : SMap α) (mine : Nat → Bool) : SMap α := m.filter (fun kv => !mine kv.1)

/-- Whether a scratch address is exchanged with its core's bank: all but reserved offsets 0x1540 to 0x3FFF. -/
def exchanged (a : Nat) : Bool := a % 2 ^ 19 < 0x7C000 + 0x1540

/-- The physical cores a context uses. -/
def usedCores (c : Ctx) : List Nat := ((List.range c.ncore).map (physCore c)).filter (fun k => k < 384)

/-- What a context leaves when it is taken out, with its cores named as the context sees them. -/
def imageOf (s : State) (c : Ctx) : Image :=
  let cs := usedCores c
  let f := virtCore c
  let scrK (a : Nat) : Bool := cs.contains (a / 2 ^ 19) && exchanged a
  { groups := (groupsOf s c.id).map (mapGroup f)
    teams := (s.teams.filter (fun t => (launchOf s t.lh).any (fun l => l.ctx = c.id))).map (mapTeam f)
    scr := takeKeys 0 s.scr scrK (mapScr f)
    ptab := takeKeys 0 s.ptab (fun k => cs.contains (k / 6144)) (fun k => f (k / 6144) * 6144 + k % 6144)
    ptLock := (s.ptLock.filter (fun k => cs.contains (k / 16))).map (fun k => f (k / 16) * 16 + k % 16)
    stamps := takeKeys default s.stamps (fun k => scrK (32 * k)) (fun k => mapScr f (32 * k) / 32)
    rels := takeKeys [] s.rels (fun k => k / 2 < 2 ^ 41 && scrK (k / 2)) (fun k => 2 * mapScr f (k / 2) + k % 2)
    phases := takeKeys [] s.phases (fun k => scrK (k / 65536)) (fun k => mapScr f (k / 65536) * 65536 + k % 65536) }

/-- The active banks without a context. -/
def clearBanks (s : State) (c : Ctx) : State :=
  let cs := usedCores c
  let scrK (a : Nat) : Bool := cs.contains (a / 2 ^ 19) && exchanged a
  { s with
    groups := s.groups.filter (fun g => g.ctx ≠ c.id || g.kind = .tailor)
    teams := s.teams.filter (fun t => !(launchOf s t.lh).any (fun l => l.ctx = c.id))
    scr := dropKeys s.scr scrK, ptab := dropKeys s.ptab (fun k => cs.contains (k / 6144))
    ptLock := s.ptLock.filter (fun k => !cs.contains (k / 16)), stamps := dropKeys s.stamps (fun k => scrK (32 * k))
    rels := dropKeys s.rels (fun k => k / 2 < 2 ^ 41 && scrK (k / 2)), phases := dropKeys s.phases (fun k => scrK (k / 65536)) }

/-- The jobs of a context under a renaming of cores. -/
def renameJobs (s : State) (ctx : Nat) (f : Nat → Nat) : State :=
  { s with jobs := updWhere s.jobs (fun j => j.ctx = ctx) (mapJob f) }

/-- The stores and link transactions of a context under a renaming of cores, for the faults that name them. -/
def renameLate (s : State) (ctx : Nat) (f : Nat → Nat) : State :=
  { s with posted := updWhere s.posted (fun p => p.ctx = ctx) (fun p => { p with core := f p.core })
           xacts := updWhere s.xacts (fun x => x.ctx = ctx) (fun x => { x with core := f x.core }) }

/-- The banks hold a context's image on the cores it now has. -/
def loadBanks (s : State) (c : Ctx) (m : Image) : State :=
  let f := physCore c
  { s with
    groups := s.groups ++ m.groups.map (mapGroup f), teams := s.teams ++ m.teams.map (mapTeam f)
    scr := SMap.putAll 0 s.scr (m.scr.map (fun kv => (mapScr f kv.1, kv.2)))
    ptab := SMap.putAll 0 s.ptab (m.ptab.map (fun kv => (f (kv.1 / 6144) * 6144 + kv.1 % 6144, kv.2)))
    ptLock := s.ptLock ++ m.ptLock.map (fun k => f (k / 16) * 16 + k % 16)
    stamps := SMap.putAll default s.stamps (m.stamps.map (fun kv => (mapScr f (32 * kv.1) / 32, kv.2)))
    rels := SMap.putAll [] s.rels (m.rels.map (fun kv => (2 * mapScr f (kv.1 / 2) + kv.1 % 2, kv.2)))
    phases := SMap.putAll [] s.phases (m.phases.map (fun kv => (mapScr f (kv.1 / 65536) * 65536 + kv.1 % 65536, kv.2))) }

/-- The context of a partition in the shadow banks. -/
def shadowOf (s : State) (p : Nat) : Option Ctx := s.ctxs.find? (fun c => c.id ≠ 0 && c.part = p && c.st = .shadow)
/-- Whether the shadow bank is taken or its last spill is under way (R378, R382). -/
def shadowBusy (s : State) (p : Nat) : Bool :=
  s.ctxs.any (fun c => c.id ≠ 0 && c.part = p && (c.st = .filling || c.st = .shadow || c.spilling))

/-- Whether a requested swap may exchange the banks now (R381). -/
def swapReady (s : State) (p : Nat) : Bool :=
  let q := partOf s p
  q.swap && !q.swapHeld && (q.swapDue || noHints s p) && (q.lastSwap = 0 || q.lastSwap + 42000 ≤ s.clock.toNat + 1)
    && (shadowOf s p).isSome &&
  (match residentOf s p with
   | none => true
   | some c => (c.st = .active || c.st = .halted) && !c.line && !stopBusy s c.id)

/-- The outgoing context, stopped, leaves the banks: SPILLING until its image is written. -/
def swapOut (s1 : State) (c : Ctx) : State :=
  let s2 := renameJobs (clearBanks s1 c) c.id (virtCore c)
  enqueueOnce (putCtx s2 c.id (fun d =>
    { d with st := .spilling, hf := decide (c.st = .halted), image := some (imageOf s1 c), inBanks := false, spilling := true }))
    .spillDone { ctx := c.id }

/-- The arrivals parked in a partition for a context, each checked as it is applied (R247); those for another context stay (log
entry 48). -/
def applyParked (s : State) (p id : Nat) : State :=
  match ctxOf s id with
  | none => s
  | some c =>
    let mine (q : Parked) : Bool := q.ctx = id
    ((partOf s p).parked.filter mine).foldl (fun s q => match remoteBar s c q.ba with
      | some ba => barNoted s ba q.vc (fun b => arriveB b q.n.toNat)
      | none => elog s p 3 0xFFFF id q.ba 0 []) (updPart s p (fun q => { q with parked := q.parked.filter (fun r => !mine r) }))

/-- The incoming context takes the active banks under its remap. -/
def swapIn (s : State) (c : Ctx) : State :=
  let d : Ctx := { c with vfield := remapFields s c.remapA, vcore := remapCores s c.remapA c.ncore }
  let s1 := clearBanks s d
  let s2 := match c.image with | some m => loadBanks s1 d m | none => s1
  let s3 := renameLate (renameJobs s2 c.id (physCore d)) c.id (fun k => physCore d (virtCore c k))
  let s4 := putCtx s3 c.id (fun e =>
    { e with vfield := d.vfield, vcore := d.vcore, image := none, hf := false, inBanks := true
             st := if c.hf then CtxState.halted else CtxState.active })
  let s5 := applyParked s4 c.part c.id
  if c.hf then s5 else resumeCtx s5 c.id

/-- The banks exchanged, the outgoing context stopped. -/
def exchangeBanks (s : State) (p : Nat) (c : Ctx) (out : Option Ctx) : State :=
  let s1 := match out with | some o => swapOut s o | none => s
  let s2 := updPart s1 p (fun q =>
    { q with swap := false, swapDue := false, swapHeld := false, halt := false, lastSwap := s.clock.toNat + 1 })
  swapIn s2 c

/-- The swap itself: the outgoing context stops first, and a fault that one of its engines meets there cancels it (R381). -/
def exchange (s : State) (p : Nat) : State :=
  match shadowOf s p with
  | none => s
  | some c =>
    match residentOf s p with
    | none => exchangeBanks s p c none
    | some o =>
      let s1 := stopJobs (stopGroups s o.id) o.id
      if (ctxOf s1 o.id).any (fun o => o.line) then s1 else exchangeBanks s1 p c (some o)

/-- A pending swap goes on: its deferral has ended once no group has a hint, and it exchanges the banks when nothing else holds
it. -/
def execSwapProceed (s : State) : Host.Outcome State Fault Refusal :=
  let p := s.arg.part
  .next (if 8 ≤ p || !(partOf s p).swap then s
    else if swapReady s p then exchange s p
    else if noHints s p then updPart s p (fun q => { q with swapDue := true })
    else s)

/-- The deferral limit has passed (R164): an overrun event, and the swap proceeds. -/
def execHintDeferralTimeout (s : State) : Host.Outcome State Fault Refusal :=
  let p := s.arg.part
  let q := partOf s p
  .next (if p < 8 && q.swap && !q.swapDue && q.swapAt ≤ s.clock.toNat && !noHints s p then
      swapDue (emit (updPart s p (fun q => { q with swapDue := true })) (.deferral p)) p
    else s)

/-- The image area's bytes are the device's own once it is written (R382): free values to any other reader (log entry 8). Its lines are
written in full, each in its row (R405, R414). -/
def spillImage (s0 : State) (c : Ctx) : State :=
  let n := 1114112 * c.ncore
  let s := healArea (touchArea s0 c.imga n true) c.imga n
  { s with free := s.free + 1, undef := cutUndef s.undef c.imga n ++ [(c.imga, c.imga + n, s.free)] }

/-- The spill of a context is complete: it is SAVED, unless a fault has made it FAULTED meanwhile. -/
def execSpillDone (s : State) : Host.Outcome State Fault Refusal :=
  .next (match ctxOf s s.arg.ctx with
    | some c =>
      if !c.spilling then s
      else
        let s1 := updCtx (spillImage s c) c.id (fun d => { d with spilling := false })
        if c.st = .spilling then setSt s1 c.id .saved else s1
    | none => s)

/-- The virtual core whose image holds a line that fails. -/
def badImage (s : State) (c : Ctx) : Option Nat :=
  if c.image.isNone then none
  else (List.range c.ncore).find? (fun v => (lineSuspects s).any (fun l =>
    c.imga + 1114112 * v ≤ l * 64 && l * 64 < c.imga + 1114112 * (v + 1) && !lineOk s l))

/-- The fill of a context is complete, or has met a line that fails (R382). -/
def execFillDone (s : State) : Host.Outcome State Fault Refusal :=
  .next (match ctxOf s s.arg.ctx with
    | none => s
    | some c =>
      if c.st ≠ .filling then s
      else match badImage s c with
        | none => swapDue (setSt (touchArea s c.imga (1114112 * c.ncore) false) c.id .shadow) c.part
        | some v =>
          let s1 := setSt (writeStops s c [(v, { quietRec v 5 0 0 0 with faddr := BitVec.ofNat 64 (c.imga + 1114112 * v) })]) c.id
            .faulted
          fatalEvent s1 1 c.id)

/-! ## `SEGLD`, `MFSR`, `MTSR` (R394, R395) -/

/-- A window segment narrowed to a range of the dispatched window. -/
def narrow (w : Seg) (a b : Nat) : Option Seg :=
  if w.limit = 0 || w.limit < a + b then none else some { w with start := w.start + a, limit := b }

def execSegld (x : InsWord) (s : State) : Host.Outcome State Fault Refusal :=
  withGroup s (fun g =>
    let b := src32 g x x.opb 0
    let a := src64 g x false x.opa 0
    let ls := active g x
    if ls = [] then finish s g
    else match modF x 2 0 with
      | 1 => (match narrow g.winS a b with
        | some sg => finish s { g with segS := sg }
        | none => takeFault s g (permFlt .segmentLoad a))
      | 2 => (match narrow g.winN a b with
        | some sg => finish s { g with segN := sg }
        | none => takeFault s g (permFlt .segmentLoad a))
      | 3 => finish s (ls.foldl (fun h l => { h with pB := SMap.put 0 h.pB l (BitVec.ofNat 64 (src64 g x false x.opa l))
                                                     pL := SMap.put 0 h.pL l (BitVec.ofNat 32 b) }) g)
      | 4 => finish s (ls.foldl (fun h l => { h with qB := SMap.put 0 h.qB l (BitVec.ofNat 64 (src64 g x false x.opa l))
                                                     qL := SMap.put 0 h.qL l (BitVec.ofNat 32 b) }) g)
      | 5 => finish s { g with cbase := BitVec.ofNat 64 a, clim := BitVec.ofNat 32 b }
      | _ => takeFault s g (illegal 8))

/-- The value of a special register in a lane. -/
def srVal (s : State) (g : Group) (sr l : Nat) : Nat :=
  match sr with
  | 0x00 => l
  | 0x01 => g.width
  | 0x02 => g.index.toNat
  | 0x03 => g.team.toNat
  | 0x04 => g.teamN.toNat
  | 0x05 => g.nbh.toNat
  | 0x06 => coreUnit s g.ctx g.core
  | 0x07 => vfieldOf s g.ctx g.core
  | 0x08 => s.clock.toNat
  | 0x09 => (SMap.get 0 g.winid l).toNat
  | 0x0A => (SMap.get 0 g.wstart l).toNat
  | 0x0B => (SMap.get 0 g.wend l).toNat
  | 0x0C => (SMap.get 0 g.wcount l).toNat
  | 0x0D => (SMap.get 0 g.pawnk l).toNat
  | 0x0E => g.lfault.toNat
  | 0x0F => g.mseq.toNat
  | 0x40 => g.ctx
  | 0x41 => g.part
  | 0x42 => (partOf s g.part).deflim.toNat
  | 0x43 => (match residentOf s g.part with | some c => c.dbg.toNat | none => 0)
  | _ => 0

/-- `MFSR`: an `s` destination takes the lowest active lane's value. -/
def execMfsr (x : InsWord) (s : State) : Host.Outcome State Fault Refusal :=
  withGroup s (fun g =>
    let sr := modF x 6 0
    match srRegs g.width sr with
    | none => takeFault s g (illegal 8)
    | some k =>
      match x.dst, active g x with
      | _, [] => finish s g
      | .s n, l :: _ => finish s (wrSs g n.toNat (words k (srVal s g sr l)))
      | .v n, ls => finish s (ls.foldl (fun h l => wrVs h n.toNat l (words k (srVal s g sr l))) g)
      | _, _ => takeFault s g (illegal 8))

def execMtsr (x : InsWord) (s : State) : Host.Outcome State Fault Refusal :=
  withGroup s (fun g =>
    let v := src32 g x x.opa 0
    if active g x = [] then finish s g
    else match modF x 6 0 with
      | 0x42 =>
        if v < 1 || 65535 < v then takeFault s g (illegal 8)
        else finish (updPart s g.part (fun p => { p with deflim := BitVec.ofNat 16 v })) g
      | 0x43 =>
        if 1 < v then takeFault s g (illegal 8)
        else (match residentOf s g.part with
          | some c => finish (putCtx s c.id (fun c => { c with dbg := v = 1 })) g
          | none => finish s g)
      | _ => takeFault s g (illegal 8))

/-! ## The status of a system instruction (R393) -/

/-- Whether an id names firmware's address space or a context of the group's partition. -/
def ownCtx (s : State) (g : Group) (c : Nat) : Option Ctx := (ctxOf s c).filter (fun d => d.id = 0 || d.part = g.part)

/-- A system instruction: nothing for an empty `Active()`, else its effect and its status. -/
def sysCmd (x : InsWord) (s : State) (k : Group → State × Nat) : Host.Outcome State Fault Refusal :=
  withGroup s (fun g =>
    if active g x = [] then finish s g
    else
      let r := k g
      finish r.1 (wrDstS ((curGroup r.1).getD g) x r.2))

/-! ## `TLBINV` (R396) -/

/-- A `TLBINV` waits as `FENCE.dev` does, then drops what its test names. -/
def tlbCmd (x : InsWord) (s : State) (k : Group → State × Nat) : Host.Outcome State Fault Refusal :=
  withGroup s (fun g =>
    if active g x = [] then finish s g
    else afterFence s g false
      (let r := k g
       finish r.1 (wrDstS g x r.2)))

def execTlbinvPg (x : InsWord) (s : State) : Host.Outcome State Fault Refusal :=
  tlbCmd x s (fun g =>
    let c := src32 g x x.opa 0
    if (ownCtx s g c).isNone then (s, 2) else (tlbDropPage s c (src64 g x false x.opb 0), 0))

def execTlbinvCtx (x : InsWord) (s : State) : Host.Outcome State Fault Refusal :=
  tlbCmd x s (fun g =>
    let c := src32 g x x.opa 0
    if (ownCtx s g c).isNone then (s, 2) else (tlbDropCtx s c, 0))

def execTlbinvAll (x : InsWord) (s : State) : Host.Outcome State Fault Refusal :=
  tlbCmd x s (fun g => (tlbDrop s (fun t => (ownCtx s g t.ctx).isSome), 0))

/-- A walk ends: its leaf is kept (R203, R207). -/
def execPageWalkDone (s : State) : Host.Outcome State Fault Refusal :=
  .next (match ctxOf s s.arg.ctx, lookup s (4 * s.arg.core + s.arg.slot / 17) s.arg.ctx s.arg.addr with
    | some _, .ok t => cacheEnts s [t]
    | _, _ => s)

/-! ## `RFT`, `HALT`, `CTXSV` (R397) -/

/-- `RFT` on a context of the partition. -/
def rftCtx (s : State) (c : Ctx) : State × Nat :=
  match c.st with
  | .halted => if c.line then (s, 1) else (resumeCtx (setSt s c.id .active) c.id, 0)
  | .saved => if c.hf then (putCtx s c.id (fun d => { d with hf := false }), 0) else (s, 1)
  | _ => (s, 1)

def execRft (x : InsWord) (s : State) : Host.Outcome State Fault Refusal :=
  sysCmd x s (fun g => match ownCtx s g (src32 g x x.opa 0) with
    | none => (s, 2)
    | some c => if c.id = 0 then (s, 2) else rftCtx s c)

/-- The halt line raised by `HALT` with its code. -/
def haltCtx (s : State) (c : Ctx) (k : Byte) : State :=
  let s1 := updCtx s c.id (fun d => { d with line := true, lineHalt := if c.line then d.lineHalt else some k })
  enqueueOnce (updPart s1 c.part (fun p => { p with halt := true })) .contextStopped { ctx := c.id }

/-- `HALT` holds its group until the context has stopped. -/
def execHalt (x : InsWord) (s : State) : Host.Outcome State Fault Refusal :=
  withGroup s (fun g =>
    if active g x = [] then finish s g
    else match ownCtx s g (src32 g x x.opa 0), x.dst with
      | none, _ => finish s (wrDstS g x 2)
      | some c, .s d =>
        if c.id = 0 then finish s (wrDstS g x 2)
        else if c.st ≠ .active then finish s (wrDstS g x 1)
        else
          let s1 := setGroup s { g with st := .stalled, wait := .halted c.id d.toNat }
          haltCtx s1 c (BitVec.ofNat 8 (src32 g x x.opb 0))
      | some _, _ => finish s g)

/-- `CTXSV.fill`: a context ABSENT or SAVED begins to load into the shadow banks. -/
def fillCtx (s : State) (g : Group) (c p : Nat) : State × Nat :=
  let old := ctxOf s c
  let a := match old with | some d => d.ccb | none => (Config.ccbAddr (BitVec.ofNat 32 c)).toNat
  if c = 0 then (s, 2)
  else if 8 ≤ p then (s, 3)
  else if old.any (fun d => d.st ≠ .absent && d.st ≠ .saved && d.st ≠ .dead) then
    (if old.any (fun d => d.part = g.part) then (s, 1) else (s, 2))
  else if !ccbOk s a then (s, 3)
  else
    let st := dramVal s (a + 24) 1
    let d := ctxOfCcb s a (if st = 5 then old else none)
    if d.id ≠ c || d.part ≠ g.part then (s, 2)
    else if d.part ≠ p then (s, 3)
    else if !(st = 0 || (st = 5 && old.any (fun o => o.st = .saved))) || shadowBusy s p then (s, 1)
    else if !remapOk s p d.remapA d.ncore then (s, 3)
    else if st = 5 && !old.all (fun o => imageKept s o d.remapA d.ncore) then (s, 3)
    else
      let s1 := { touchRows (touchRows s a 256 false 2) d.remapA 784 false 2 with ctxs := s.ctxs.filter (fun e => e.id ≠ c) ++ [d] }
      (enqueueOnce (ccbPut s1 c) .fillDone { ctx := c }, 0)

def execCtxsvFill (x : InsWord) (s : State) : Host.Outcome State Fault Refusal :=
  sysCmd x s (fun g => fillCtx s g (src32 g x x.opa 0) (src32 g x x.opb 0))

/-- `CTXSV.swap`: the request of R381, with its deferral (R164). -/
def requestSwap (s : State) (p : Nat) : State :=
  let s1 := updPart s p (fun q =>
    { q with swap := true, swapDue := noHints s p, swapHeld := (residentOf s p).any (fun c => c.line && !c.faults.isEmpty)
             swapAt := s.clock.toNat + 1050 * q.deflim.toNat })
  enqueueOnce s1 .swapProceed { part := p }

/-- A `CTXSV` on a known context of the partition p. -/
def ctxsv (s : State) (g : Group) (c p : Nat) (k : Ctx → State × Nat) : State × Nat :=
  if 8 ≤ p then (s, 3)
  else match ownCtx s g c with
    | none => (s, 2)
    | some d => if d.id = 0 then (s, 2) else if d.part ≠ p then (s, 3) else if d.st ≠ .shadow then (s, 1) else k d

def execCtxsvSwap (x : InsWord) (s : State) : Host.Outcome State Fault Refusal :=
  sysCmd x s (fun g =>
    let p := src32 g x x.opb 0
    ctxsv s g (src32 g x x.opa 0) p (fun _ => if (partOf s p).swap then (s, 1) else (requestSwap s p, 0)))

def execCtxsvEvict (x : InsWord) (s : State) : Host.Outcome State Fault Refusal :=
  sysCmd x s (fun g => ctxsv s g (src32 g x x.opa 0) (src32 g x x.opb 0) (fun d => (setSt s d.id .saved, 0)))

/-! ## `WAKE`, `MBXRD` (R399) -/

/-- `WAKE`: an arrival on a core's mailbox barrier, refused ones recorded (R244). -/
def execWake (x : InsWord) (s : State) : Host.Outcome State Fault Refusal :=
  withGroup s (fun g =>
    let k := src32 g x x.opa 0
    if active g x = [] then finish s g
    else if 384 ≤ k then finish s (wrDstS g x 3)
    else
      let s1 := finish s (wrDstS g x 0)
      if (barAt s1 (mailboxBar k)).valid then groupArrive s1 g (mailboxBar k) (fun b => arriveB b 1)
      else elog s1 ((partOfField s (coreField k)).getD 0) 2 (coreUnit s g.ctx g.core) g.ctx (mailboxBar k) 0 [])

/-- `MBXRD` claims the oldest unclaimed request of its core. -/
def execMbxrd (x : InsWord) (s : State) : Host.Outcome State Fault Refusal :=
  withGroup s (fun g =>
    if active g x = [] then finish s g
    else match x.opa with
      | .s r =>
        if r.toNat % 16 ≠ 0 then takeFault s g (illegal 8)
        else (match s.mbx.find? (fun m => m.core = g.core && !m.claimed) with
          | none => finish s (wrDstS g x 1)
          | some m =>
            let b := memBytes s.scr (reqAddr g.core m.slot) 64
            let s1 := { s with mbx := updWhere s.mbx (fun n => n = m) (fun n => { n with claimed := true }) }
            finish s1 (wrDstS (wrSs g r.toNat ((List.range 16).map (fun i => fld b (4 * i) 4))) x 0))
      | _ => takeFault s g (illegal 8))

/-! ## `PTLD` (R400) -/

/-- The 384 bytes of a pattern table, a word at a time. -/
def tableBytes (buf ctx va : Nat) : Nat → State → Except Flt (State × List Byte)
  | 0, s => .ok (s, [])
  | n + 1, s =>
    match tableBytes buf ctx va n s with
    | .error f => .error f
    | .ok (s1, b) => (match agentRead s1 buf ctx (va + 4 * n) 4 with
      | .error f => .error f
      | .ok (s2, w) => .ok (s2, b ++ w))

/-- The context a `PTLD` may act on. -/
def ptldCtx (s : State) (g : Group) (c : Nat) : Except Nat Ctx :=
  match ownCtx s g c with
  | none => .error 2
  | some d => if d.id = 0 then .error 2 else if d.st = .active || d.st = .halted then .ok d else .error 1

def execPtldLk (x : InsWord) (s : State) : Host.Outcome State Fault Refusal :=
  withGroup s (fun g =>
    let t := modF x 3 0
    let va := src64 g x false x.opb 0
    if active g x = [] then finish s g
    else match ptldCtx s g (src32 g x x.opa 0) with
      | .error r => finish s (wrDstS g x r)
      | .ok c =>
        if va % 4 ≠ 0 then takeFault s g (mkFlt 7 va)
        else match tableBytes (gBuf g) c.id va 96 s with
          | .error f => takeFault s g f
          | .ok (s1, b) =>
            finish { s1 with ptab := SMap.putAll 0 s1.ptab (b.zipIdx.map (fun p => (ptabBase g.core t + p.2, p.1)))
                             ptLock := (g.core * 16 + t) :: s1.ptLock.erase (g.core * 16 + t) } (wrDstS g x 0))

def execPtldUn (x : InsWord) (s : State) : Host.Outcome State Fault Refusal :=
  withGroup s (fun g =>
    let t := modF x 3 0
    if active g x = [] then finish s g
    else match ptldCtx s g (src32 g x x.opa 0) with
      | .error r => finish s (wrDstS g x r)
      | .ok _ => finish { s with ptLock := s.ptLock.filter (fun k => k ≠ g.core * 16 + t) } (wrDstS g x 0))

/-! ## `DUMP` (R398) -/

/-- The 12 bytes of a segment register. -/
def segBytes (base limit : Nat) : List Byte := leBytes 8 base ++ leBytes 4 limit

/-- The base of a window segment: the scratch address of its first byte as the context sees it. -/
def segBase (f : Nat → Nat) (sg : Seg) : Nat := if sg.limit = 0 then 0 else mapScr f (segAddr sg 0)

/-- The slot state code of R158, in the order of its table. -/
def slotCode (g : Group) : Nat := match g.st with | .ready => 1 | .stalled => 2 | .waiting => 3 | .ending => 4

/-- The offset of a scratch address in a window, when it lies there. -/
def winOff (sg : Seg) (a : Nat) : Option Nat :=
  (sg.parts.findIdx? (fun p => p ≤ a && a < p + sg.psize)).map (fun i => i * sg.psize + (a - sg.parts.getD i 0) - sg.start)

/-- The offset and phase of the barrier a group waits on: in its window, or of its reply barrier in the reserved area (log entry 33). -/
def waitBar (g : Group) : Nat × Nat :=
  let off (ba : Nat) : Nat := ((winOff g.segS ba).orElse (fun _ => winOff g.segN ba)).getD (ba % 2 ^ 19)
  match g.wait with
  | .phase ba ph => (off ba, ph.toNat)
  | .rack ba t _ _ => (off ba, t.toNat)
  | .reply ba ph _ _ _ => (ba - reservedBase g.core, ph.toNat)
  | _ => (0, 0)

/-- The 2 KiB slot record of a group. -/
def slotRecord (f : Nat → Nat) (g : Group) : List Byte :=
  let w := waitBar g
  let head := leBytes 8 g.pc.toNat ++ leBytes 8 g.em.toNat ++ leBytes 8 g.live.toNat ++ leBytes 8 g.lfault.toNat
    ++ leBytes 1 (slotCode g) ++ leBytes 1 g.hint ++ leBytes 2 0 ++ leBytes 4 g.mseq.toNat ++ leBytes 4 w.1 ++ leBytes 4 w.2
    ++ segBytes 0 0 ++ segBytes (segBase f g.segS) g.segS.limit ++ segBytes (segBase f g.segN) g.segN.limit
    ++ segBytes (SMap.get 0 g.pB 0).toNat (SMap.get 0 g.pL 0).toNat ++ segBytes (SMap.get 0 g.qB 0).toNat (SMap.get 0 g.qL 0).toNat
    ++ segBytes g.cbase.toNat g.clim.toNat
  let sregs := (List.range 64).flatMap (fun k => leBytes 4 (rdS g k))
  let bases := (List.range 64).flatMap (fun l => leBytes 8 (SMap.get 0 g.pB l).toNat ++ leBytes 8 (SMap.get 0 g.qB l).toNat)
  let limits := (List.range 64).flatMap (fun l => leBytes 4 (SMap.get 0 g.pL l).toNat ++ leBytes 4 (SMap.get 0 g.qL l).toNat)
  head ++ leBytes (128 - head.length) 0 ++ sregs ++ bases ++ limits ++ leBytes (2048 - 1920) 0

/-- What of a context a dump shows, its cores named as in its image: one that has no image and is in no bank is filled as zeros
(R380). -/
def dumpImage (s : State) (c : Ctx) : Image :=
  match c.image with
  | some m => m
  | none => if c.inBanks then imageOf s c else default

/-- The register byte that a key of `Config.dumpReg` names. -/
def regByte (m : Image) (v key : Nat) : Byte :=
  match m.groups.find? (fun g => g.core = v && g.slot = key / 65536 % 68) with
  | some g => BitVec.ofNat 8 ((SMap.get 0 g.v (64 * (key / 256 % 256) + key / 4 % 64)).toNat / 2 ^ (8 * (key % 4)))
  | none => 0

/-- The part of a dump for virtual core v. The spec gives its register part no layout (log entry 8). -/
def coreDump (s : State) (m : Image) (v : Nat) : State × List Byte :=
  let s1 := s
  let regs := (List.range 524288).map (fun i => regByte m v (Config.dumpReg i))
  let scr := memBytes m.scr (v * 2 ^ 19) (2 ^ 19)
  let tabs := (List.range 6144).map (fun i => SMap.get (0 : Byte) m.ptab (v * 6144 + i))
  let lock := (List.range 16).foldl (fun t i => t + (if m.ptLock.contains (v * 16 + i) then 2 ^ i else 0)) 0
  let slots := (List.range 68).flatMap (fun k => match m.groups.find? (fun g => g.core = v && g.slot = k) with
    | some g => slotRecord id g
    | none => leBytes 2048 0)
  (s1, regs ++ scr ++ tabs ++ leBytes 4 lock ++ leBytes 2044 0 ++ slots)

/-- The queues of a context, in order. -/
def queuesOf (s : State) (p ctx : Nat) : List Nat := (List.range (qcount s p)).filter (fun q => qcbF s p q 28 4 = ctx)

/-- The bytes of a dump. The order of the sizes in its header is not stated: those bytes are free (log entry 8). -/
def dumpBytes (s : State) (c : Ctx) : State × List Byte :=
  let (s1, fr) := freeBytes s 52
  let head := leBytes 4 0x504D5544 ++ leBytes 4 c.id ++ leBytes 4 c.ncore ++ fr
  let m := dumpImage s c
  let (s2, cores) := (List.range c.ncore).foldl (fun (r : State × List Byte) v =>
    let q := coreDump r.1 m v
    (q.1, r.2 ++ q.2)) (s1, [])
  let qs := (queuesOf s c.part c.id).flatMap (fun q => dramBytes s (qcbAddr s c.part q) 256)
  let la := (regVal s (regPart c.part 0xF8)).toNat % 2 ^ 41
  let log := dramBytes s la 65536
  let s3 := (queuesOf s c.part c.id).foldl (fun s q => touchRows s (qcbAddr s c.part q) 256 false 2)
    (touchArea (touchArea (touchRows s2 c.ccb 256 false 2) c.stopa 32768 false) la 65536 false)
  (s3, head ++ dramBytes s c.ccb 256 ++ dramBytes s c.stopa 32768 ++ cores ++ qs ++ log)

/-- Write bytes line by line in normal pages; the fault of the first line that cannot be written. -/
def putLines (buf ctx : Nat) (wr : Writer) : Nat → Nat → List Byte → State → Except Flt State
  | 0, _, _, s => .ok s
  | n + 1, a, b, s =>
    if b.isEmpty then .ok s
    else (agentStore s buf ctx a (b.take 64) wr []).bind (putLines buf ctx wr n (a + 64) (b.drop 64))

/-- A team's fault masks, those of its groups that have not ended among them. -/
def masksNow (gs : List Group) (t : Team) : Team :=
  { t with masks := (gs.filter (fun g => g.teamId = t.id)).foldl (fun ms g => updAt ms g.index.toNat (fun _ => g.lfault)) t.masks }

/-- A launch of a context that is torn down: its teams' exit records with status 2, its completion record with flag 3 (R191). `img` holds
what of it is out of the banks. -/
def killLaunch (img : Image) (s : State) (l : Launch) : State :=
  let gs := s.groups ++ img.groups
  let ts := (s.teams ++ img.teams).filter (fun t => t.lh = l.lh && !pawnTeam gs t)
  let s1 := ts.foldl (fun s t => exitRecord s l (masksNow gs t) 2) s
  compRecord s1 { l with ctxFaulted := true } false

/-- The queues of a context leave service and its slots are free. -/
def freeQueues (s : State) (p ctx : Nat) : State :=
  let s1 := (List.range 64).foldl (fun s k =>
    if (slotAt s k).map && (slotAt s k).part = p && (slotAt s k).ctx = ctx then
      updSlot s k freeSlot else s) s
  (queuesOf s p ctx).foldl (fun s q => setPend (qcbSet (qcbSet s p q 9 1 0) p q 12 1 0xFF) p q false) s1

/-- Everything the device holds for a context is freed. -/
def tearDown (s : State) (c : Ctx) : State :=
  let s0 := (s.launches.filter (fun l => l.ctx = c.id && !l.done)).foldl (killLaunch (c.image.getD default)) s
  let mine (lh : W32) : Bool := (launchOf s0 lh).any (fun l => l.ctx = c.id)
  let s1 := if c.inBanks then clearBanks s0 c else s0
  let s2 := { s1 with
    pawns := s1.pawns.filter (fun q => !mine q.pawn.lh), streams := s1.streams.filter (fun t => t.ctx ≠ c.id)
    jobs := s1.jobs.filter (fun j => j.ctx ≠ c.id), rowJobs := s1.rowJobs, fetchws := s1.fetchws.filter (fun q => q.ctx ≠ c.id)
    pkts := s1.pkts.filter (fun k => (slotAt s1 k.slot).ctx ≠ c.id)
    pools := dropKeys s1.pools (fun k => mine (BitVec.ofNat 32 (k / 16)))
    launches := updWhere s1.launches (fun l => l.ctx = c.id) (fun l => { l with done := true, ctxFaulted := true })
    mbx := s1.mbx.filter (fun m => m.ctx ≠ c.id) }
  let s3 := freeQueues s2 c.part c.id
  let s4 := putCtx s3 c.id (fun d => { d with st := .dead, line := false, faults := [], image := none, inBanks := false })
  let s5 := if c.inBanks then updPart s4 c.part (fun q => { q with swapHeld := false, halt := false }) else s4
  swapDue (resourcesFree s5 c.part) c.part

/-- `DUMP`: the dump written at a for the issuing group, then the context torn down. -/
def execDump (x : InsWord) (s : State) : Host.Outcome State Fault Refusal :=
  withGroup s (fun g =>
    let a := src64 g x false x.opb 0
    if active g x = [] then finish s g
    else match ownCtx s g (src32 g x x.opa 0) with
      | none => finish s (wrDstS g x 2)
      | some c =>
        if c.id = 0 then finish s (wrDstS g x 2)
        else if c.st ≠ .faulted || c.line then finish s (wrDstS g x 1)
        else if a % 64 ≠ 0 then finish s (wrDstS g x 3)
        else
          let d := dumpBytes s c
          match putLines (gBuf g) g.ctx (groupWriter s g) (d.2.length / 64 + 1) a d.2 d.1 with
          | .error f => takeFault s g f
          | .ok s1 => finish (tearDown s1 c) (wrDstS g x 0))

end Sys2Proof.Machine
end

