-- ==== Sys2Proof/Machine/Platform.lean ====
section
/-! DEFINITION. The platform (R391, R437, R439, R444 to R452): device reset and boot, recovery mode, power and temperature,
attestation, host warm restarts and firmware recovery. -/

namespace Sys2Proof.Machine
open Sys2Proof

/-! ## Images and boot (R444, R445, R447) -/

/-- The size of a flash slot and of the staging SRAM. -/
def imageSize : Nat := 0x100000

/-- Whether a slot's image, at an offset of a store, is valid. -/
def imageValid (s : State) (m : Memory) (o : Nat) : Bool :=
  let h (a n : Nat) : Nat := memVal m (o + a) n
  let key := memBytes m (o + 48) 1312
  h 0 4 = 0x31574657 && h 4 2 = 1 && h 6 2 = 0 && h 3780 316 = 0 && 1 ≤ h 12 4 && h 12 4 ≤ 1044480
    && Config.sha3 key = Config.vendorKeyHash
    && Config.mldsaVerify key (memBytes m (o + 1360) 2420) (Config.sha3 (memBytes m o 1360))
    && (Config.sha3 (memBytes m (o + 4096) (h 12 4))).toNat = h 16 32 && (rollminNow s).toNat ≤ h 8 4

/-- The partitions as the management core configures them: each has the fields given to it (R378, log entry 52). -/
def configureParts (s : State) : State :=
  (List.range 8).foldl (fun s p =>
    updPart s p (fun q => { q with fields := (List.range 16).filter (fun f => Config.fieldPart f = p) })) s

/-- The boot ROM's check of both slots: it boots A, else B, else the device enters RECOVERY; BOOTSTAT and FWVER say so. -/
def bootRom (s : State) : State :=
  let a := imageValid s s.flash 0
  let b := imageValid s s.flash imageSize
  let useB := !a && b
  let stat : W64 := BitVec.ofNat 64 (useB.toNat + 2 * (!a).toNat + 4 * (!b).toNat + 8 * s.tripped.toNat)
  let ver : Nat := if a then memVal s.flash 8 4 else if b then memVal s.flash (imageSize + 8) 4 + 2 ^ 32 else 0
  let s1 := regPut (regPut s (regPlat 0x48) stat) (regPlat 0x18) (BitVec.ofNat 64 ver)
  let s2 := if a || b then configureParts s1 else s1
  { s2 with mode := if a || b then Mode.running else Mode.recovery, bootB := useB, tripped := false }

/-- What a device reset leaves: the reset state, but for the always-on domain (flash, fuses, epoch, the mark of a trip), the
counters of this model and what has been sent out. -/
def afterReset (s : State) : State :=
  { State.reset with epoch := s.epoch + 1, flash := s.flash, rollmin := s.rollmin, tripped := s.tripped, turn := s.turn
                     free := s.free, out := s.out, nextId := s.nextId }

/-- A device reset and the boot after it. A device still before its first boot has had its reset (R437). -/
def resetDevice (s : State) : State := bootRom (if s.mode = .boot then s else afterReset s)

def execDeviceReset (s : State) : Host.Outcome State Fault Refusal := .next (resetDevice s)

/-! ## RECOVERY (R449) -/

/-- The keys of `State.regs` that hold the recovery nonce and report: the BAR 0 offsets of R449 (log entry 34). -/
def recNonce : Nat := 0x2000
def recReport : Nat := 0x2200

/-- The nonce that a host has written. -/
def recoveryNonce (s : State) : List Byte := (List.range 4).flatMap (fun i => leBytes 8 (regVal s (recNonce + 8 * i)).toNat)

/-- A recovery command: ignored while RSTAT is busy. -/
def recoveryCmd (s : State) (n : Nat) (i : Instr) : Host.Outcome State Fault Refusal :=
  .next (if s.mode = .recovery && s.rstat ≠ 1 then
      enqueue { s with rstat := 1, rcmd := n } i { part := 8, ok := true }
    else s)

def execRcmdInstallA (s : State) : Host.Outcome State Fault Refusal := recoveryCmd s 1 .recoveryInstallDone
def execRcmdInstallB (s : State) : Host.Outcome State Fault Refusal := recoveryCmd s 2 .recoveryInstallDone
/-- An attestation latches the nonce as it is now (R452). -/
def execRcmdAttest (s : State) : Host.Outcome State Fault Refusal :=
  recoveryCmd (if s.mode = .recovery && s.rstat ≠ 1 then { s with rnonce := recoveryNonce s } else s) 3 .attestReportDone

/-- The staged image in place of a flash slot. -/
def installSlot (s : State) (o : Nat) : Memory :=
  SMap.putAll 0 (SMap.clear s.flash o (o + imageSize))
    ((s.staging.filter (fun kv => kv.1 < imageSize)).map (fun kv => (o + kv.1, kv.2)))

/-- Verification ends: an image that is not valid is rejected, a valid one is written unless the flash fails. -/
def execRecoveryInstallDone (s : State) : Host.Outcome State Fault Refusal :=
  .next (if s.mode ≠ .recovery || s.rstat ≠ 1 || (s.rcmd ≠ 1 && s.rcmd ≠ 2) then s
    else if !imageValid s s.staging 0 then { s with rstat := 3 }
    else if !s.arg.ok then { s with rstat := 4 }
    else enqueueOnce { s with rstat := 2, rtimer := true, flash := installSlot s (if s.rcmd = 1 then 0 else imageSize) }
      .recoveryResetTimer {})

/-- 100 ms after an install the device resets. -/
def execRecoveryResetTimer (s : State) : Host.Outcome State Fault Refusal :=
  .next (if s.mode = .recovery && s.rtimer then resetDevice s else s)

/-! ## Power and temperature (R448) -/

/-- What the management core has measured. -/
def measured (s : State) (power temp : W64) : State := regPut (regPut s (regPlat 0x30) power) (regPlat 0x38) temp
def clkNow (s : State) : Nat := (regVal s (regPlat 0x40)).toNat
def pwrLim (s : State) : Nat := (regVal s (regPlat 0x28)).toNat
def setClk (s : State) (v : Nat) : State := regPut s (regPlat 0x40) (BitVec.ofNat 64 v)

def execClockStepDown (s : State) : Host.Outcome State Fault Refusal :=
  let s1 := measured s s.arg.val s.arg.temp
  .next (if s.mode ≠ .running then s
    else if pwrLim s < s.arg.val.toNat || 105 * 16 ≤ s.arg.temp.toNat then setClk s1 (max 525 (clkNow s - 50))
    else s1)

def execClockStepUp (s : State) : Host.Outcome State Fault Refusal :=
  let s1 := measured s s.arg.val s.arg.temp
  .next (if s.mode ≠ .running then s
    else if 100 * s.arg.val.toNat < 95 * pwrLim s && s.arg.temp.toNat < 100 * 16 then setClk s1 (min 1050 (clkNow s + 50))
    else s1)

/-- At 120 °C everything but the always-on domain loses power, in RECOVERY too. -/
def execThermalTrip (s : State) : Host.Outcome State Fault Refusal :=
  .next (if (s.mode = .running || s.mode = .recovery) && 120 * 16 ≤ s.arg.temp.toNat then
      { afterReset s with epoch := s.epoch, mode := .tripped, tripped := true }
    else s)

/-! ## Attestation (R452) -/

/-- The report over a nonce and a digest of the running image. -/
def report (s : State) (ver : Nat) (nonce bdig : List Byte) : List Byte :=
  let b := leBytes 4 0x50545441 ++ leBytes 4 ver ++ leBytes 8 Config.uid.toNat ++ (nonce ++ leBytes 32 0).take 32
    ++ (bdig ++ leBytes 32 0).take 32 ++ leBytes 32 Config.romDigest.toNat ++ leBytes 8 (rollminNow s).toNat ++ leBytes 8 0
  b ++ (Config.mldsaSign Config.uid (Config.sha3 b) ++ leBytes 2420 0).take 2420

/-- A report stored in 64-bit registers from an address on. -/
def putReport (s : State) (a : Nat) (b : List Byte) : State :=
  (List.range ((b.length + 7) / 8)).foldl (fun s i => regPut s (a + 8 * i) (BitVec.ofNat 64 (fld b (8 * i) 8))) s

/-- A report is complete: BUSY clears, DONE is set, HBAR gets its arrival. In RECOVERY no image runs, and the digest field has no
stated value (log entry 8). -/
def attestDone (s : State) (p : Nat) : State :=
  if s.mode = .recovery then
    (if s.rcmd ≠ 3 || s.rstat ≠ 1 then s
     else
       let (s1, dig) := freeBytes s 32
       { putReport s1 recReport (report s 0 s.rnonce dig) with rstat := 0 })
  else if s.mode ≠ .running || 8 ≤ p || !(regVal s (regPart p 0x220)).getLsbD 1 then s
  else
    let dig := memBytes s.flash ((if s.bootB then imageSize else 0) + 16) 32
    let s1 := putReport s (regPart p 0x400) (report s ((regVal s (regPlat 0x18)).toNat % 2 ^ 32) (partOf s p).atNonce dig)
    barReg (regPut s1 (regPart p 0x220) ((regVal s1 (regPart p 0x220) &&& ~~~ 2#64) ||| 4)) p 0xC8 (partOf s p).hbarWin

def execAttestReportDone (s : State) : Host.Outcome State Fault Refusal := .next (attestDone s s.arg.part)

/-! ## Host warm restarts (R439) -/

/-- The partitions that a restarted host owns. -/
def ownedBy (s : State) (link : Bool) (id : Nat) : List Nat :=
  (List.range 8).filter (fun p =>
    let o := (regVal s (regPart p 0xE0)).toNat
    bit o 16 && (bit o 15 == link) && (if link then bits o 13 0 = id else o % 2 = id))

/-- The records with reason 6 of a context's cores, and of the engines that hold work of it. -/
def restartRecs (s : State) (c : Ctx) : List FaultRec :=
  (usedCores c).map (fun k => ⟨none, k, 0xFFFF, 6, 0, 0, 0, 0, 0, 0, 0⟩)
    ++ ((s.jobs.filter (fun j => j.ctx = c.id && j.st = .running)).map jobUnit ++ winUnits s c).map (fun u =>
      ⟨some u, 0, 0xFFFF, 6, 0, 0, 0, 0, 0, 0, 0⟩)

/-- A context of a restarted owner is made FAULTED. -/
def restartCtx (s : State) (c : Ctx) : State :=
  match c.st with
  | .active | .halted => (restartRecs s c).foldl (fun s r => raiseLine s c.id r) s
  | .filling | .shadow | .spilling =>
    setSt (writeStops s c ((List.range c.ncore).map (fun v => (v, quietRec v 6 0 0 0)))) c.id .faulted
  | .saved => setSt s c.id .faulted
  | _ => s

/-- The effects of a restart: contexts, translations, transactions. -/
def warmRestart (s : State) (link : Bool) (id : Nat) : State :=
  let ps := ownedBy s link id
  let s1 := (s.ctxs.filter (fun c => c.id ≠ 0 && ps.contains c.part)).foldl restartCtx s
  let s2 := if ps.isEmpty then s1 else tlbDrop s1 (fun t =>
    let e := t.leaf.toNat
    if link then (pteKind e = 0 || pteKind e = 1) && pteDev e = id && id ≠ ownDev s else pteKind e = 2 && (bit e 11).toNat = id)
  if link then (s2.xacts.filter (fun x => x.dst = id)).foldl (fun s x => xactFault (endXact s x) x) s2 else failPcie s2 id

def execHostWarmRestart (s : State) : Host.Outcome State Fault Refusal :=
  .next (if s.mode = .running then warmRestart (if s.arg.link then s else markHrst s s.arg.ctx) s.arg.link s.arg.ctx else s)

/-! ## Recovery by the management core (R391) -/

/-- A context checked: its CCB and its image sound, else FAULTED with a record of reason 5 on unit 0. -/
def recoverCtx (s : State) (c : Ctx) : State :=
  let b := dramBytes s c.ccb 256
  let sound := fld b 252 4 = (crc32 (b.take 252)).toNat && (badImage s c).isNone
  if sound || c.id = 0 || c.st = .absent || c.st = .dead || c.st = .faulted then s
  else if c.st = .active || c.st = .halted then raiseLine s c.id (quietRec 0 5 0 0 0)
  else fatalEvent (setSt (writeStops s c [(0, quietRec 0 5 0 0 0)]) c.id .faulted) 1 c.id

/-- A free slot that a sound QCB of a mapped queue names serves that queue again. -/
def remapQueue (s : State) (p q : Nat) : State :=
  let k := qcbF s p q 12 1
  let st := qcbF s p q 9 1
  if k < 64 && slotOwned (slotAt s k) p && !(slotAt s k).map && (st = 3 || st = 4) && (qcbBroken s p (qcbAddr s p q)).isNone then
    updSlot s k (fun h => { loadSlot s p (qcbAddr s p q) (qcbAddr s p q) with ovr := h.ovr })
  else s

/-- The queue maps rebuilt: pending bits from the QCBs, a slot whose QCB does not name it is free, one that a QCB names serves it. -/
def rebuildMaps (s : State) (p : Nat) : State :=
  let s1 := (List.range (qcount s p)).foldl (fun s q => setPend s p q (qcbF s p q 9 1 = 2)) s
  let s2 := (List.range 64).foldl (fun s k =>
    let h := slotAt s k
    if h.part = p && h.map && qcbF s p h.qnum 12 1 ≠ k then updSlot s k freeSlot else s) s1
  (List.range (qcount s p)).foldl (fun s q => remapQueue s p q) s2

/-- The requests whose tailor agents begin again (R174, R391): one not yet answered is unclaimed once more, or withdrawn while its context
is out, so that its group makes it anew. -/
def rebuildReqs (s : State) : List MbxReq :=
  (s.mbx.filter (fun m => m.answered || s.groups.any (fun g => g.uid = m.uid))).map (fun m => if m.answered then m else { m with claimed := false })

/-- Maps, tickets and tailor slots begin again; contexts go on where they were. -/
def recover (s : State) : State :=
  let s1 := (List.range 8).foldl rebuildMaps s
  let ms := rebuildReqs s1
  let gs : List Group := s1.groups.filter (fun g : Group => g.kind ≠ GKind.tailor)
  let s2 : State := { s1 with mbx := ms, groups := gs }
  let s3 := s2.ctxs.foldl recoverCtx s2
  let s4 := (List.range 384).foldl (fun s k => enqueueOnce s .tailorStart { core := k }) s3
  (List.range 8).foldl dispatch s4

def execRecovery (s : State) : Host.Outcome State Fault Refusal := .next (if s.mode = .running then recover s else s)

end Sys2Proof.Machine
end

