-- ==== Sys2Proof/Machine/Schedule.lean ====
section
/-! DEFINITION. What may move next: the steps that the clock makes due, the choice of a quarter (R162), the scoreboard (R163,
R320), and the issue of a group's instruction or pair (R59, R83). The step function calls these and no more. -/

namespace Sys2Proof.Machine
open Sys2Proof

/-! ## The scoreboard (R163, R320) -/

/-- The registers of a range of `v`. -/
def vRange (o : Opd) (n : Nat) : List Nat := match o with | .v r => (List.range n).map (fun k => r.toNat + k) | _ => []

/-- Whether an instruction waits for a load in flight of its group. -/
def loadHolds (g : Group) (rw : List Nat) : Bool :=
  g.loads.any (fun p => (resources { roleNone with n := p.words } p.dst).any (fun r => rw.contains r))

/-- Whether it waits for a matrix operation of its group: for the accumulator, unless it is a chain on it, and, to overwrite its
sources, until it begins. -/
def matHolds (s : State) (g : Group) (e : Env) (i : Instr) : Bool :=
  (s.arrays.filter (fun o => o.guid = g.uid)).any (fun o =>
    match matParts o.x with
    | none => false
    | some (f, x, _) =>
      let chain := match matParts i with
        | some (f2, x2, _) => x2.dst = x.dst && ((f2 = .i8) == (f = .i8))
        | none => false
      let srcs := vRange x.opa (mmaRegsA f g.width) ++ vRange x.opb (mmaRegsB f g.width) ++ vRange x.opc 1
      (!chain && (readsOf e i ++ writesOf e i).any (fun r => (vRange x.dst (mmaRegsD g.width)).contains r))
        || (!o.begun && (writesOf e i).any (fun r => srcs.contains r)))

/-- Whether the scoreboard holds an instruction. -/
def boardHolds (s : State) (g : Group) (e : Env) (i : Instr) : Bool :=
  (!g.loads.isEmpty && loadHolds g (readsOf e i ++ writesOf e i)) || matHolds s g e i

/-- Whether the scoreboard holds what a group would issue at slot k of a line: its instruction, or the other member of its pair. -/
def boardBlocks (s : State) (g : Group) (b k : Nat) : Bool :=
  let e := envOf s g
  (slotFault e b k g.unit.isSome).isNone
    && (boardHolds s g e (slotInstr b k) || (pairBit b k && boardHolds s g e (slotInstr b (k + 1))))

/-- Whether a READY group could not issue now: the scoreboard would hold it at its line, where that can be read. -/
def boardWaits (s : State) (g : Group) : Bool :=
  (!g.loads.isEmpty || s.arrays.any (fun o => o.guid = g.uid)) &&
  (match lineInBuf s g.core g.ctx (lineOf g.pc) with
   | some b => boardBlocks s g b (g.pc.toNat % 8)
   | none => match lineInMem s (gBuf g) g.ctx (lineOf g.pc) with
     | .ok (b, _) => boardBlocks s g b (g.pc.toNat % 8)
     | .error _ => false)

/-! ## Steps that are due (R162, R164, R183, R328, R333, R336, R364, R381, R406) -/

def dueSlot (s : State) (k : Nat) : State :=
  let h := slotAt s k
  if !h.map || h.period = 0 then s
  else
    let s1 := if h.deadl.toNat ≤ s.clock.toNat then enqueueOnce s .slotDeadline { slot := k } else s
    if h.budget ≠ 0 && !h.thr && 1000 * h.budget.toNat ≤ h.used.toNat then enqueueOnce s1 .slotBudgetExhausted { slot := k } else s1

/-- Scheduling ticks fall every TICK µs; a due swap and a due hint timeout of a partition. -/
def duePart (s : State) (p : Nat) : State :=
  let q := partOf s p
  if q.fields.isEmpty then s
  else
    let t := q.tickAt + 1050 * (regVal s (regPart p 0x90)).toNat
    let s1 := if t ≤ s.clock.toNat then enqueue (updPart s p (fun q => { q with tickAt := t })) .schedTick { part := p } else s
    if !q.swap then s1
    else
      let s2 := if swapReady s1 p then enqueueOnce s1 .swapProceed { part := p } else s1
      if !q.swapDue && q.swapAt ≤ s.clock.toNat && !noHints s2 p then enqueueOnce s2 .hintDeferralTimeout { part := p } else s2

/-- The pawns of a queue have waited long enough, and there is room for them. -/
def duePawn (s : State) (q : Queued) : State :=
  match launchOf s q.pawn.lh with
  | none => s
  | some l =>
    if !q.aside && gatherDue s l q.field q.pawn.pc && ctxRuns s l.ctx && !heldBack s l
        && !(pawnSpots s l (launchField s l q.field)).isEmpty then
      enqueueOnce s .gatherTimeout { field := q.field, lh := q.pawn.lh, pc := q.pawn.pc }
    else s

/-- A packet in flight: a WAITMEM looks again and times out, a SIGNAL's message goes when it can. -/
def duePkt (s : State) (k : Pkt) : State :=
  if k.kind = 3 then
    let s1 := if k.due ≠ 0 && k.due ≤ s.clock.toNat then enqueueOnce s .waitmemTimeout { slot := k.slot, ridx := k.ridx } else s
    enqueueOnce s1 .waitmemRecheck { slot := k.slot, ridx := k.ridx }
  else if k.stage = 1 then
    let d := fld k.data 40 2 % 2 ^ 14
    if d = ownDev s || (routeOf s d).isNone || linkRoom s d 64 then enqueueOnce s .signalDone { slot := k.slot, ridx := k.ridx, ok := true } else s
  else s

/-- The loads of a group whose completion timeout has passed (R225). -/
def dueLoads (s : State) (g : Group) : State :=
  (g.loads.filter (fun p => p.due ≠ 0 && p.due ≤ s.clock.toNat)).foldl (fun s p => enqueueOnce s .hostLoadTimeout { tag := p.tag }) s

/-- A normal group that has been issuable for more than 1,024 clks on end: those in which the scoreboard holds it do not count. -/
def dueGroup (s0 : State) (g : Group) : State :=
  let s := dueLoads s0 g
  if g.st ≠ .ready || g.hint ≠ 0 || g.aged || g.kind = .tailor then s
  else if boardWaits s g then setGroup s { g with since := s.clks }
  else if g.since + 1024 < s.clks then enqueueOnce s .groupAged { core := g.core, slot := g.slot }
  else s

/-- A posted store, and a link transaction, whose timeout has passed (R226, R227, R416, R432). -/
def duePosted (s : State) (p : Posted) : State :=
  if p.due ≠ 0 && p.due ≤ s.clock.toNat then enqueueOnce s .hostStoreFailure { tag := p.tag } else s
def dueXact (s : State) (x : Xact) : State :=
  if !expired s x then s
  else enqueueOnce s (if [1, 3, 4, 6].contains x.kind then .remoteAccessTimeout else .linkTimeout) { tag := x.tag }

/-- A head packet that waited for earlier work to be performed may start (R329). -/
def dueHead (s : State) (k : Nat) : State :=
  let h := slotAt s k
  if h.map && couldStart s k && workQuiet s h.ctx then
    (match headPkt s h with
     | some b =>
       if bit (fld b 1 1) 0 || fld b 0 1 = 5 then enqueueOnce s (packetStep (fld b 0 1)) { slot := k } else s
     | none => s)
  else s

def dueEpoch (s : State) (st : Nat) : State :=
  if SMap.get 0 s.stEpoch st = BitVec.ofNat 16 (s.clock.toNat / 1050) then s else enqueueOnce s .epochTick { stack := st }

/-- Whether the row of an address, as a window engine's buffer translates it, is promoted and neither pinned nor being copied. -/
def rowResting (s : State) (buf ctx va : Nat) : Bool :=
  match lookup s buf ctx va with
  | .error _ => false
  | .ok e => match locOf s e va with
    | .dram pa _ _ =>
      pa < 0x0F000000000 && (match rowSlotOf s (homeStack pa) (stackOff pa) with
        | some k => !(rowGet s k).pin && !(rowGet s k).busy
        | none => false)
    | _ => false

/-- The promoted rows of a stream's pockets whose pockets are all dormant are due to be demoted (R364). -/
def dueStream (s : State) (t : Stream) : State :=
  (t.wins.map (fun w => (w.field, w.pocket.toNat)) ++ t.resting.map (fun r => (r.1, r.2.1))).foldl (fun s q =>
    (runs 1024 q.2 (sxPocket t)).foldl (fun s r =>
      if dormant s t r.1 && rowResting s (winBuf s t.ctx q.1) t.ctx r.1 then
        enqueueOnce s .dormancyDemote { lh := t.lh, addr := r.1 }
      else s) s) s

/-- All that is due now is in the agenda. -/
def due (s : State) : State :=
  let s0 := s.streams.foldl dueStream s
  let s1 := (List.range 8).foldl duePart ((List.range 64).foldl dueSlot s0)
  let sx := s1.xacts.foldl dueXact (s1.posted.foldl duePosted s1)
  let s2 := s1.groups.foldl dueGroup (s1.pawns.foldl duePawn (s1.pkts.foldl duePkt sx))
  (List.range 16).foldl dueEpoch ((List.range 64).foldl dueHead s2)

/-! ## The choice of a quarter (R162) -/

/-- Tailor, critical, normal. -/
def classRank (g : Group) : Nat := if g.kind = .tailor then 0 else if 0 < g.hint || g.aged then 1 else 2

/-- The order of R162 among groups of one quarter. -/
def issuesFirst (g h : Group) : Bool :=
  classRank g < classRank h
    || (classRank g = classRank h && (g.stamp < h.stamp || (g.stamp = h.stamp && g.slot < h.slot)))

/-- Whether a group may be tried: it runs, and no event of its own holds it. -/
def mayIssue (s : State) (g : Group) : Bool :=
  ctxRuns s g.ctx && (g.st = .ready || (g.st = .stalled && g.wait = .none))

/-- Whether a group stands inside a chain or a prefix unit (R70, R75). -/
def inUnit (g : Group) : Bool := restartOf g ≠ g.pc

/-- The group before all others of a list. -/
def bestOf : List Group → Option Group
  | [] => none
  | g :: r => match bestOf r with
    | none => some g
    | some h => some (if issuesFirst h g then h else g)

/-- The groups of one quarter that may move: the one inside a unit alone, also while it is not issuable; else the best ready one, and
those held, which look again whether their hold has cleared (`lookAgain`: a group that looks again does not issue). -/
def quarterPicks (s : State) (gs : List Group) : List Group :=
  match gs.filter inUnit with
  | [] => (bestOf (gs.filter (fun g => mayIssue s g && g.st = .ready))).toList ++ gs.filter (fun g => mayIssue s g && g.st = .stalled)
  | open' => open'.filter (mayIssue s)

/-- The groups that may move in the whole device. -/
def picks (s : State) : List Group :=
  let gs := s.groups.filter (fun g => ctxRuns s g.ctx && g.st ≠ .ending)
  ((gs.map (fun g => (g.core, g.slot / 17))).eraseDups).flatMap (fun q =>
    quarterPicks s (gs.filter (fun g => g.core = q.1 && g.slot / 17 = q.2)))

/-! ## Issue (R59, R83) -/

/-- What runs one instruction: `exec`. -/
abbrev Runner := Instr → State → Host.Outcome State Fault Refusal

/-- The machine about to execute slot k of a line for a group. -/
def atSlot (s : State) (g : Group) (e : Env) (line b k : Nat) : State :=
  { setGroup s { g with iss := issueOf e line b k, aged := false, since := s.clks, land := none, link := none } with cur := (g.core, g.slot) }

/-- The group as the fault of a slot finds it. -/
def faultSlot (g : Group) (line b k j : Nat) : Group :=
  { g with pc := pcIn line j
           unit := if g.unit.isSome || prefixKind (slotOp b k) ≠ 0 then some (g.unit.getD g.pc) else none
           iss := { (default : Issue) with restart := chainRestart line b j } }

/-- An attempt that holds the group at its instruction is no issue: an aged group stays aged (R162). -/
def agedStill (t : State) (g : Group) : State :=
  match groupAt t g.core g.slot with
  | some h => if g.aged && h.uid = g.uid && h.st = .stalled && h.wait = .none then setGroup t { h with aged := true } else t
  | none => t
def attempted (g : Group) (o : Host.Outcome State Fault Refusal) : Host.Outcome State Fault Refusal :=
  match o with
  | .next t => .next (agedStill t g)
  | .fault f => .fault f
  | .refused r => .refused r

/-- One slot: its fault of R83's steps 2 to 7, or its instruction. -/
def issueSlot (run : Runner) (s : State) (g : Group) (line b k : Nat) : Host.Outcome State Fault Refusal :=
  let e := envOf s g
  match slotFault e b k g.unit.isSome with
  | some (j, f) => .next (takeFault s (faultSlot g line b k j) f)
  | none => attempted g (run (slotInstr b k) (atSlot s g e line b k))

/-- The second member of a pair follows in the same step while its group goes on to it. -/
def secondSlot (run : Runner) (s : State) (g : Group) (line b k : Nat) : Host.Outcome State Fault Refusal :=
  match groupAt s g.core g.slot with
  | none => .next s
  | some h =>
    if pairBit b k && h.uid = g.uid && h.st = .ready && h.pc = pcIn line (k + 1) && ctxRuns s h.ctx then issueSlot run s h line b (k + 1)
    else .next s

/-- The illegal entry of a transfer or dispatch whose line could not be read when it was made (R55, R166): taken at its own PC. -/
def landBad (g : Group) (b k : Nat) : Option W64 := if entryBit b k then none else g.land

/-- A group whose transfer turns out to be an illegal entry: the register pair that a call wrote holds what it held before (R166). -/
def unlink (g : Group) : Group :=
  match g.link with
  | some (n, v) => { wrSs g n (words 2 v) with link := none }
  | none => g

/-- A group's turn: its line, the entry it lands on, the scoreboard for its instruction and the other member of its pair, then the
instructions. -/
def issueGroup (run : Runner) (s : State) (g : Group) : Host.Outcome State Fault Refusal :=
  let line := lineOf g.pc
  let k := g.pc.toNat % 8
  match deliver' s g line with
  | .error f => .next (takeFault s { g with iss := { (default : Issue) with restart := openChain g } } f)
  | .ok (s1, b) =>
    let e := envOf s1 g
    match landBad g b k with
    | some p => .next (takeFault s1 { unlink g with pc := p, land := none, iss := default } { illegal 5 with addr := g.pc.toNat })
    | none =>
    if boardBlocks s1 g b k then
      .next (stallOf s1 { g with iss := issueOf e line b k })
    else match issueSlot run s1 g line b k with
      | .next s2 => secondSlot run s2 g line b k
      | o => o

/-- Whether a group is still held at its instruction. -/
def stillHeld (s : State) (g : Group) : Bool :=
  match groupAt s g.core g.slot with
  | some h => h.uid = g.uid && h.st = .stalled && h.wait = .none
  | none => false

/-- A held group looks again: once its instruction would be held no more it is READY, with a new stamp, and issues when its quarter
chooses it (R158, R162). -/
def lookAgain (run : Runner) (s : State) (g : Group) : Host.Outcome State Fault Refusal :=
  match issueGroup run s g with
  | .next t =>
    if stillHeld t g then .next t
    else .next (setGroup s { g with st := .ready, stamp := s.clks, since := s.clks, iss := { g.iss with head := g.iss.restart } })
  | o => o

/-- A group's turn, and what fetch reads beside (R209). -/
def moveGroup (run : Runner) (s : State) (g : Group) : Host.Outcome State Fault Refusal :=
  if g.st = .ready then
    match issueGroup run s g with
    | .next t => .next (fetchAhead t g (lineOf g.pc + 64))
    | o => o
  else lookAgain run s g

/-! ## Time (R4, R333, R395) -/

/-- The nanoseconds of a count of CLOCK, at 1.05 GHz. -/
def nsOf (c : Nat) : Nat := c * 20 / 21

/-- Core-ns charged to the slots whose launches hold cores, as CLOCK goes from one value to another (R333). -/
def charge (s : State) (c d : Nat) : State :=
  { s with hwslots := s.hwslots.zipIdx.map (fun (hk : HwSlot × Nat) =>
      if !hk.1.map || hk.1.period = 0 then hk.1
      else
        let mine := s.launches.filter (fun l => l.hwslot = hk.2 && !l.done)
        let cores := ((s.groups.filter (fun g => g.kind ≠ .tailor && mine.any (fun l => l.lh = g.lh))).map (fun g => g.core)).eraseDups
        { hk.1 with used := hk.1.used + BitVec.ofNat 64 (cores.length * (nsOf d - nsOf c)) }) }

/-- What the management core sets of the unit domains while a step passes (R414, log entry 35). -/
def setDomain (s : State) : State :=
  { s with unitDom := match Config.unitDomain s.turn with
      | some (u, d) => SMap.put 0 s.unitDom u d
      | none => s.unitDom }

/-- Time passes after a step: CLOCK and the count of clks, which keep no fixed ratio (R4), rise by open amounts, and the charges with
CLOCK; the choice counter moves on. -/
def tick (s : State) : State :=
  let c := s.clock.toNat
  let d := c + Config.ticks s.turn
  { charge (setDomain s) c d with clock := BitVec.ofNat 64 d, clks := s.clks + 1 + Config.clks s.turn, turn := s.turn + 1 }

/-- What follows any outcome of a unit's move. -/
def ticked (o : Host.Outcome State Fault Refusal) : Host.Outcome State Fault Refusal :=
  match o with
  | .next s => .next (tick s)
  | .fault f => .fault f
  | .refused r => .refused r

/-- The oldest step of the agenda. -/
def runAgenda (run : Runner) (s : State) : Host.Outcome State Fault Refusal :=
  match s.agenda with
  | [] => .next s
  | (i, a) :: rest => run i { s with agenda := rest, arg := a }

/-- The group whose last issue lies furthest back. -/
def longestWait : List Group → Option Group
  | [] => none
  | g :: r => match longestWait r with
    | none => some g
    | some h => some (if h.since < g.since then h else g)

/-- The READY group that has waited longest; and of those held, one after the other. -/
def waitsLongest (gs : List Group) : Option Group := longestWait (gs.filter (fun g => g.st = .ready))
def heldTurn (gs : List Group) (n : Nat) : Option Group :=
  let hs := gs.filter (fun g => g.st ≠ .ready)
  hs[n % hs.length]?

/-- The group that moves next, none for the oldest step of the agenda: an open choice (R17), but that the agenda has every 64th move,
the READY group that has waited longest another, and the held groups in turn a third, so that all go on in the end (R192, log entry
51). -/
def nextMover (s : State) (gs : List Group) : Option Group :=
  let n := gs.length + (if s.agenda.isEmpty then 0 else 1)
  if n ≤ 1 then gs.head?
  else if s.turn % 64 = 0 && !s.agenda.isEmpty then none
  else if s.turn % 64 = 32 && (waitsLongest gs).isSome then waitsLongest gs
  else if s.turn % 64 = 16 && (heldTurn gs 0).isSome then heldTurn gs (s.turn / 64)
  else gs[Config.pick s.turn % n]?

/-- One move of a running device: one of the groups that may issue, or the oldest step of the agenda. -/
def moveOne (run : Runner) (s : State) : Host.Outcome State Fault Refusal :=
  match nextMover s (picks s) with
  | some g => moveGroup run s g
  | none => runAgenda run s

/-- A step of the device with a given `exec`. -/
def stepWith (run : Runner) (s : State) : Host.Outcome State Fault Refusal :=
  match s.mode with
  | .boot => ticked (run .deviceReset s)
  | .running => ticked (moveOne run (due s))
  | .recovery => ticked (runAgenda run s)
  | .tripped => ticked (runAgenda run s)

/-! ## A word placed for the next step -/

/-- An instruction that accepts a prefix: `MOV.b64 v0:v1` of a literal for `PFX.W`, `MOV` of `v0` to itself for the others. -/
def targetWord (op : Nat) : Nat :=
  if op = 0x1E0 then wordOf 0x03D ⟨0, 0, .zero, .zero, .lit, false, .v 0, false, 7⟩
  else if op = 0x1E1 || op = 0x1E2 then wordOf 0x01D ⟨0, 0, .zero, .zero, .v 0, false, .v 0, false, 7⟩
  else 0

/-- The line that holds a word in slot 0, an entry, with its parity. -/
def oneLine (w : Nat) : Nat :=
  let b := 1 + 2 ^ 32 * (w % 2 ^ 96) + 2 ^ 128 * targetWord (w % 512)
  b + 2 ^ 24 * lineParity b

/-- A privileged group about to execute at 0x10000 in firmware's address space. -/
def probeGroup (s : State) : Group :=
  { (default : Group) with
    uid := s.nextId, kind := .grid, priv := true, quads := true, width := 64, vregs := 256, st := .ready, wait := .none
    pc := 0x10000, entry := 0x10000, em := BitVec.allOnes 64, live := BitVec.allOnes 64, sub := BitVec.allOnes 64
    vc := [(s.nextId, 1)] }

/-- A device that runs one group, whose first instruction is a given word: its line in memory at 0x10000, with a cached
translation, and nothing else due. -/
def placeWord (s : State) (w : Nat) : State :=
  let s1 := dramPut s 0x10000 (leBytes 64 (oneLine w)) 2
  { s1 with
    mode := .running, groups := [probeGroup s], agenda := [], nextId := s.nextId + 1
    ibuf := s1.ibuf.filter (fun l => l.ctx ≠ 0), bad := s1.bad.filter (fun l => l ≠ 0x400)
    tlb := ⟨0, 0, 0x10000, 0, BitVec.ofNat 64 (0x10063 + 2 ^ 41 * ownDev s), []⟩ :: s1.tlb }

end Sys2Proof.Machine
end

