-- ==== Sys2Proof/Machine/Dispatch.lean ====
section
/-! DEFINITION. The meaning of every row of the opcode table: one arm per constructor of `Instr`. -/

namespace Sys2Proof.Machine
open Sys2Proof

def exec (i : Instr) (s : State) : Host.Outcome State Fault Refusal :=
  match i with
  | .nop => Sys2Proof.Machine.execNop s
  | .iadd w64 x => Sys2Proof.Machine.execIadd w64 x s
  | .isub w64 x => Sys2Proof.Machine.execIsub w64 x s
  | .imul w64 x => Sys2Proof.Machine.execImul w64 x s
  | .imulh w64 x => Sys2Proof.Machine.execImulh w64 x s
  | .imad w64 x => Sys2Proof.Machine.execImad w64 x s
  | .idiv w64 x => Sys2Proof.Machine.execIdiv w64 x s
  | .irem w64 x => Sys2Proof.Machine.execIrem w64 x s
  | .imin w64 x => Sys2Proof.Machine.execImin w64 x s
  | .imax w64 x => Sys2Proof.Machine.execImax w64 x s
  | .iabs w64 x => Sys2Proof.Machine.execIabs w64 x s
  | .and w64 x => Sys2Proof.Machine.execAnd w64 x s
  | .or w64 x => Sys2Proof.Machine.execOr w64 x s
  | .xor w64 x => Sys2Proof.Machine.execXor w64 x s
  | .bfn3 w64 x => Sys2Proof.Machine.execBfn3 w64 x s
  | .shl w64 x => Sys2Proof.Machine.execShl w64 x s
  | .shr w64 x => Sys2Proof.Machine.execShr w64 x s
  | .sar w64 x => Sys2Proof.Machine.execSar w64 x s
  | .rot w64 x => Sys2Proof.Machine.execRot w64 x s
  | .fsh w64 x => Sys2Proof.Machine.execFsh w64 x s
  | .clz w64 x => Sys2Proof.Machine.execClz w64 x s
  | .popc w64 x => Sys2Proof.Machine.execPopc w64 x s
  | .brev w64 x => Sys2Proof.Machine.execBrev w64 x s
  | .bfe w64 x => Sys2Proof.Machine.execBfe w64 x s
  | .bfi w64 x => Sys2Proof.Machine.execBfi w64 x s
  | .sel w64 x => Sys2Proof.Machine.execSel w64 x s
  | .icmp w64 x => Sys2Proof.Machine.execIcmp w64 x s
  | .iset w64 x => Sys2Proof.Machine.execIset w64 x s
  | .lea w64 x => Sys2Proof.Machine.execLea w64 x s
  | .mov w64 x => Sys2Proof.Machine.execMov w64 x s
  | .movl w64 x => Sys2Proof.Machine.execMovl w64 x s
  | .fadd f x => Sys2Proof.Machine.execFadd f x s
  | .fmul f x => Sys2Proof.Machine.execFmul f x s
  | .ffma f x => Sys2Proof.Machine.execFfma f x s
  | .fmin f x => Sys2Proof.Machine.execFmin f x s
  | .fmax f x => Sys2Proof.Machine.execFmax f x s
  | .fcmp f x => Sys2Proof.Machine.execFcmp f x s
  | .fset f x => Sys2Proof.Machine.execFset f x s
  | .frnd f x => Sys2Proof.Machine.execFrnd f x s
  | .cvt d x => Sys2Proof.Machine.execCvt d x s
  | .exp2 acc x => Sys2Proof.Machine.execExp2 acc x s
  | .log2 acc x => Sys2Proof.Machine.execLog2 acc x s
  | .rcp acc x => Sys2Proof.Machine.execRcp acc x s
  | .rsq acc x => Sys2Proof.Machine.execRsq acc x s
  | .sqrt acc x => Sys2Proof.Machine.execSqrt acc x s
  | .sin acc x => Sys2Proof.Machine.execSin acc x s
  | .cos acc x => Sys2Proof.Machine.execCos acc x s
  | .tanh acc x => Sys2Proof.Machine.execTanh acc x s
  | .sigm acc x => Sys2Proof.Machine.execSigm acc x s
  | .gelu acc x => Sys2Proof.Machine.execGelu acc x s
  | .silu acc x => Sys2Proof.Machine.execSilu acc x s
  | .erf acc x => Sys2Proof.Machine.execErf acc x s
  | .exp2Bf2 x => Sys2Proof.Machine.execExp2Bf2 x s
  | .rcpBf2 x => Sys2Proof.Machine.execRcpBf2 x s
  | .rsqBf2 x => Sys2Proof.Machine.execRsqBf2 x s
  | .tanhBf2 x => Sys2Proof.Machine.execTanhBf2 x s
  | .sigmBf2 x => Sys2Proof.Machine.execSigmBf2 x s
  | .geluBf2 x => Sys2Proof.Machine.execGeluBf2 x s
  | .siluBf2 x => Sys2Proof.Machine.execSiluBf2 x s
  | .erfBf2 x => Sys2Proof.Machine.execErfBf2 x s
  | .add2h half x => Sys2Proof.Machine.execAdd2h half x s
  | .mul2h half x => Sys2Proof.Machine.execMul2h half x s
  | .fma2h half x => Sys2Proof.Machine.execFma2h half x s
  | .min2h half x => Sys2Proof.Machine.execMin2h half x s
  | .max2h half x => Sys2Proof.Machine.execMax2h half x s
  | .cmp2h half x => Sys2Proof.Machine.execCmp2h half x s
  | .dot4 uns x => Sys2Proof.Machine.execDot4 uns x s
  | .dot8 uns x => Sys2Proof.Machine.execDot8 uns x s
  | .dot2 half x => Sys2Proof.Machine.execDot2 half x s
  | .cvtPk2 half x => Sys2Proof.Machine.execCvtPk2 half x s
  | .cvtPk4 e5 x => Sys2Proof.Machine.execCvtPk4 e5 x s
  | .cvtUnpk x => Sys2Proof.Machine.execCvtUnpk x s
  | .shflAt w64 x => Sys2Proof.Machine.execShflAt w64 x s
  | .shflLo w64 x => Sys2Proof.Machine.execShflLo w64 x s
  | .shflHi w64 x => Sys2Proof.Machine.execShflHi w64 x s
  | .shflFlip w64 x => Sys2Proof.Machine.execShflFlip w64 x s
  | .voteEvery x => Sys2Proof.Machine.execVoteEvery x s
  | .voteSome x => Sys2Proof.Machine.execVoteSome x s
  | .voteSame x => Sys2Proof.Machine.execVoteSame x s
  | .voteMask x => Sys2Proof.Machine.execVoteMask x s
  | .matchPeers w64 x => Sys2Proof.Machine.execMatchPeers w64 x s
  | .matchUnan w64 x => Sys2Proof.Machine.execMatchUnan w64 x s
  | .reduxAdd x => Sys2Proof.Machine.execReduxAdd x s
  | .reduxMin x => Sys2Proof.Machine.execReduxMin x s
  | .reduxMax x => Sys2Proof.Machine.execReduxMax x s
  | .reduxAnd x => Sys2Proof.Machine.execReduxAnd x s
  | .reduxOr x => Sys2Proof.Machine.execReduxOr x s
  | .reduxXor x => Sys2Proof.Machine.execReduxXor x s
  | .reduxFadd x => Sys2Proof.Machine.execReduxFadd x s
  | .reduxFmin x => Sys2Proof.Machine.execReduxFmin x s
  | .reduxFmax x => Sys2Proof.Machine.execReduxFmax x s
  | .scanInc x => Sys2Proof.Machine.execScanInc x s
  | .scanExc x => Sys2Proof.Machine.execScanExc x s
  | .cmpr x => Sys2Proof.Machine.execCmpr x s
  | .expd x => Sys2Proof.Machine.execExpd x s
  | .xbar x => Sys2Proof.Machine.execXbar x s
  | .xpld x => Sys2Proof.Machine.execXpld x s
  | .laneid x => Sys2Proof.Machine.execLaneid x s
  | .bra x => Sys2Proof.Machine.execBra x s
  | .braNone x => Sys2Proof.Machine.execBraNone x s
  | .braAny x => Sys2Proof.Machine.execBraAny x s
  | .braAll x => Sys2Proof.Machine.execBraAll x s
  | .brx x => Sys2Proof.Machine.execBrx x s
  | .call x => Sys2Proof.Machine.execCall x s
  | .callx x => Sys2Proof.Machine.execCallx x s
  | .ret x => Sys2Proof.Machine.execRet x s
  | .exit x => Sys2Proof.Machine.execExit x s
  | .emrd x => Sys2Proof.Machine.execEmrd x s
  | .emwr x => Sys2Proof.Machine.execEmwr x s
  | .pset x => Sys2Proof.Machine.execPset x s
  | .plop x => Sys2Proof.Machine.execPlop x s
  | .acqh x => Sys2Proof.Machine.execAcqh x s
  | .relh x => Sys2Proof.Machine.execRelh x s
  | .yield x => Sys2Proof.Machine.execYield x s
  | .trap x => Sys2Proof.Machine.execTrap x s
  | .req x => Sys2Proof.Machine.execReq x s
  | .bpt x => Sys2Proof.Machine.execBpt x s
  | .ld k x => Sys2Proof.Machine.execLd k x s
  | .st k x => Sys2Proof.Machine.execSt k x s
  | .fence x => Sys2Proof.Machine.execFence x s
  | .fenceX x => Sys2Proof.Machine.execFenceX x s
  | .ldAcq k x => Sys2Proof.Machine.execLdAcq k x s
  | .stRel k x => Sys2Proof.Machine.execStRel k x s
  | .lds x => Sys2Proof.Machine.execLds x s
  | .stq x => Sys2Proof.Machine.execStq x s
  | .ldmt b8 x => Sys2Proof.Machine.execLdmt b8 x s
  | .ldc k x => Sys2Proof.Machine.execLdc k x s
  | .atomAdd w64 x => Sys2Proof.Machine.execAtomAdd w64 x s
  | .atomMin w64 x => Sys2Proof.Machine.execAtomMin w64 x s
  | .atomMax w64 x => Sys2Proof.Machine.execAtomMax w64 x s
  | .atomAnd w64 x => Sys2Proof.Machine.execAtomAnd w64 x s
  | .atomOr w64 x => Sys2Proof.Machine.execAtomOr w64 x s
  | .atomXor w64 x => Sys2Proof.Machine.execAtomXor w64 x s
  | .atomExch w64 x => Sys2Proof.Machine.execAtomExch w64 x s
  | .atomCas w64 x => Sys2Proof.Machine.execAtomCas w64 x s
  | .atomFadd x => Sys2Proof.Machine.execAtomFadd x s
  | .redAdd w64 x => Sys2Proof.Machine.execRedAdd w64 x s
  | .redMin w64 x => Sys2Proof.Machine.execRedMin w64 x s
  | .redMax w64 x => Sys2Proof.Machine.execRedMax w64 x s
  | .redAnd w64 x => Sys2Proof.Machine.execRedAnd w64 x s
  | .redOr w64 x => Sys2Proof.Machine.execRedOr w64 x s
  | .redXor w64 x => Sys2Proof.Machine.execRedXor w64 x s
  | .redFadd x => Sys2Proof.Machine.execRedFadd x s
  | .binit x => Sys2Proof.Machine.execBinit x s
  | .arrive x => Sys2Proof.Machine.execArrive x s
  | .expect x => Sys2Proof.Machine.execExpect x s
  | .waitph x => Sys2Proof.Machine.execWaitph x s
  | .btest x => Sys2Proof.Machine.execBtest x s
  | .binv x => Sys2Proof.Machine.execBinv x s
  | .rkacq x => Sys2Proof.Machine.execRkacq x s
  | .rkrel x => Sys2Proof.Machine.execRkrel x s
  | .mma f x => Sys2Proof.Machine.execMma f x s
  | .mmaz f x => Sys2Proof.Machine.execMmaz f x s
  | .accmvRd x => Sys2Proof.Machine.execAccmvRd x s
  | .accmvWr x => Sys2Proof.Machine.execAccmvWr x s
  | .mmaw x => Sys2Proof.Machine.execMmaw x s
  | .spawn x => Sys2Proof.Machine.execSpawn x s
  | .spawnFld x => Sys2Proof.Machine.execSpawnFld x s
  | .fetchw x => Sys2Proof.Machine.execFetchw x s
  | .emitr x => Sys2Proof.Machine.execEmitr x s
  | .winf x => Sys2Proof.Machine.execWinf x s
  | .kick x => Sys2Proof.Machine.execKick x s
  | .qstat x => Sys2Proof.Machine.execQstat x s
  | .park x => Sys2Proof.Machine.execPark x s
  | .die x => Sys2Proof.Machine.execDie x s
  | .repack x => Sys2Proof.Machine.execRepack x s
  | .cpyGo reply x => Sys2Proof.Machine.execCpyGo reply x s
  | .cpySt reply x => Sys2Proof.Machine.execCpySt reply x s
  | .cpyAbt reply x => Sys2Proof.Machine.execCpyAbt reply x s
  | .gthGo reply x => Sys2Proof.Machine.execGthGo reply x s
  | .gthSt reply x => Sys2Proof.Machine.execGthSt reply x s
  | .gthAbt reply x => Sys2Proof.Machine.execGthAbt reply x s
  | .rowProm reply x => Sys2Proof.Machine.execRowProm reply x s
  | .rowDem reply x => Sys2Proof.Machine.execRowDem reply x s
  | .rowPin reply x => Sys2Proof.Machine.execRowPin reply x s
  | .rowUnpin reply x => Sys2Proof.Machine.execRowUnpin reply x s
  | .rowCopy reply x => Sys2Proof.Machine.execRowCopy reply x s
  | .rowInit reply x => Sys2Proof.Machine.execRowInit reply x s
  | .winWmark reply x => Sys2Proof.Machine.execWinWmark reply x s
  | .winFlush reply x => Sys2Proof.Machine.execWinFlush reply x s
  | .lnkArr reply x => Sys2Proof.Machine.execLnkArr reply x s
  | .lnkMsg reply x => Sys2Proof.Machine.execLnkMsg reply x s
  | .segld x => Sys2Proof.Machine.execSegld x s
  | .mfsr x => Sys2Proof.Machine.execMfsr x s
  | .mtsr x => Sys2Proof.Machine.execMtsr x s
  | .tlbinvPg x => Sys2Proof.Machine.execTlbinvPg x s
  | .tlbinvCtx x => Sys2Proof.Machine.execTlbinvCtx x s
  | .tlbinvAll x => Sys2Proof.Machine.execTlbinvAll x s
  | .rft x => Sys2Proof.Machine.execRft x s
  | .halt x => Sys2Proof.Machine.execHalt x s
  | .ctxsvFill x => Sys2Proof.Machine.execCtxsvFill x s
  | .ctxsvSwap x => Sys2Proof.Machine.execCtxsvSwap x s
  | .ctxsvEvict x => Sys2Proof.Machine.execCtxsvEvict x s
  | .wake x => Sys2Proof.Machine.execWake x s
  | .ptldLk x => Sys2Proof.Machine.execPtldLk x s
  | .ptldUn x => Sys2Proof.Machine.execPtldUn x s
  | .qcbld x => Sys2Proof.Machine.execQcbld x s
  | .qcbst x => Sys2Proof.Machine.execQcbst x s
  | .mbxrd x => Sys2Proof.Machine.execMbxrd x s
  | .dump x => Sys2Proof.Machine.execDump x s
  | .pfxW lit => Sys2Proof.Machine.execPfxW lit s
  | .pfxL lit => Sys2Proof.Machine.execPfxL lit s
  | .pfxLHi lit => Sys2Proof.Machine.execPfxLHi lit s
  | .unassignedOpcode op => Sys2Proof.Machine.execUnassignedOpcode op s
  | .deviceReset => Sys2Proof.Machine.execDeviceReset s
  | .rcmdInstallA => Sys2Proof.Machine.execRcmdInstallA s
  | .rcmdInstallB => Sys2Proof.Machine.execRcmdInstallB s
  | .rcmdAttest => Sys2Proof.Machine.execRcmdAttest s
  | .recoveryInstallDone => Sys2Proof.Machine.execRecoveryInstallDone s
  | .recoveryResetTimer => Sys2Proof.Machine.execRecoveryResetTimer s
  | .clockStepDown => Sys2Proof.Machine.execClockStepDown s
  | .clockStepUp => Sys2Proof.Machine.execClockStepUp s
  | .thermalTrip => Sys2Proof.Machine.execThermalTrip s
  | .devidWrite => Sys2Proof.Machine.execDevidWrite s
  | .rollminWrite => Sys2Proof.Machine.execRollminWrite s
  | .drvfeatWrite => Sys2Proof.Machine.execDrvfeatWrite s
  | .atctlGo => Sys2Proof.Machine.execAtctlGo s
  | .attestReportDone => Sys2Proof.Machine.execAttestReportDone s
  | .sbarWrite => Sys2Proof.Machine.execSbarWrite s
  | .hbarWrite => Sys2Proof.Machine.execHbarWrite s
  | .tickWrite => Sys2Proof.Machine.execTickWrite s
  | .scfgWrite => Sys2Proof.Machine.execScfgWrite s
  | .linkEnable => Sys2Proof.Machine.execLinkEnable s
  | .linkDisable => Sys2Proof.Machine.execLinkDisable s
  | .linkQuiesce => Sys2Proof.Machine.execLinkQuiesce s
  | .linkRetrain => Sys2Proof.Machine.execLinkRetrain s
  | .registerWrite => Sys2Proof.Machine.execRegisterWrite s
  | .doorbellWrite => Sys2Proof.Machine.execDoorbellWrite s
  | .schedTick => Sys2Proof.Machine.execSchedTick s
  | .slotDeadline => Sys2Proof.Machine.execSlotDeadline s
  | .slotBudgetExhausted => Sys2Proof.Machine.execSlotBudgetExhausted s
  | .packetNop => Sys2Proof.Machine.execPacketNop s
  | .packetLaunch => Sys2Proof.Machine.execPacketLaunch s
  | .packetCopy => Sys2Proof.Machine.execPacketCopy s
  | .packetWaitmem => Sys2Proof.Machine.execPacketWaitmem s
  | .packetSignal => Sys2Proof.Machine.execPacketSignal s
  | .packetFence => Sys2Proof.Machine.execPacketFence s
  | .waitmemRecheck => Sys2Proof.Machine.execWaitmemRecheck s
  | .waitmemTimeout => Sys2Proof.Machine.execWaitmemTimeout s
  | .signalDone => Sys2Proof.Machine.execSignalDone s
  | .teamAdmit => Sys2Proof.Machine.execTeamAdmit s
  | .groupRetire => Sys2Proof.Machine.execGroupRetire s
  | .tailorStart => Sys2Proof.Machine.execTailorStart s
  | .groupAged => Sys2Proof.Machine.execGroupAged s
  | .hintDeferralTimeout => Sys2Proof.Machine.execHintDeferralTimeout s
  | .lineFetch => Sys2Proof.Machine.execLineFetch s
  | .pageWalkDone => Sys2Proof.Machine.execPageWalkDone s
  | .loadDataReturn => Sys2Proof.Machine.execLoadDataReturn s
  | .hostLoadTimeout => Sys2Proof.Machine.execHostLoadTimeout s
  | .hostStoreFailure => Sys2Proof.Machine.execHostStoreFailure s
  | .remoteAccessTimeout => Sys2Proof.Machine.execRemoteAccessTimeout s
  | .fetchwReply => Sys2Proof.Machine.execFetchwReply s
  | .pawnArrival => Sys2Proof.Machine.execPawnArrival s
  | .pawnGroupDispatch => Sys2Proof.Machine.execPawnGroupDispatch s
  | .gatherTimeout => Sys2Proof.Machine.execGatherTimeout s
  | .quadRendezvous => Sys2Proof.Machine.execQuadRendezvous s
  | .mmaBegin => Sys2Proof.Machine.execMmaBegin s
  | .mmaComplete => Sys2Proof.Machine.execMmaComplete s
  | .jobTake => Sys2Proof.Machine.execJobTake s
  | .subchunkBoundary => Sys2Proof.Machine.execSubchunkBoundary s
  | .chunkBoundary => Sys2Proof.Machine.execChunkBoundary s
  | .engineRackClaim => Sys2Proof.Machine.execEngineRackClaim s
  | .engineRackWaitEnd => Sys2Proof.Machine.execEngineRackWaitEnd s
  | .ingressPoll => Sys2Proof.Machine.execIngressPoll s
  | .ingressDataRecord => Sys2Proof.Machine.execIngressDataRecord s
  | .controlWatermark => Sys2Proof.Machine.execControlWatermark s
  | .controlFlush => Sys2Proof.Machine.execControlFlush s
  | .controlMalformed => Sys2Proof.Machine.execControlMalformed s
  | .windowPawnSend => Sys2Proof.Machine.execWindowPawnSend s
  | .ingressResume => Sys2Proof.Machine.execIngressResume s
  | .dormancyDemote => Sys2Proof.Machine.execDormancyDemote s
  | .egressRearm => Sys2Proof.Machine.execEgressRearm s
  | .rowPromoteDone => Sys2Proof.Machine.execRowPromoteDone s
  | .rowWritebackDone => Sys2Proof.Machine.execRowWritebackDone s
  | .epochTick => Sys2Proof.Machine.execEpochTick s
  | .rowJobDone => Sys2Proof.Machine.execRowJobDone s
  | .linkTrained => Sys2Proof.Machine.execLinkTrained s
  | .linkTrainingFail => Sys2Proof.Machine.execLinkTrainingFail s
  | .laneLoss => Sys2Proof.Machine.execLaneLoss s
  | .portFailed => Sys2Proof.Machine.execPortFailed s
  | .quiesceDrained => Sys2Proof.Machine.execQuiesceDrained s
  | .flitRetransmit => Sys2Proof.Machine.execFlitRetransmit s
  | .linkRxReadRequest => Sys2Proof.Machine.execLinkRxReadRequest s
  | .linkRxReadCompletion => Sys2Proof.Machine.execLinkRxReadCompletion s
  | .linkRxPostedWrite => Sys2Proof.Machine.execLinkRxPostedWrite s
  | .linkRxNonpostedWrite => Sys2Proof.Machine.execLinkRxNonpostedWrite s
  | .linkRxWriteResponse => Sys2Proof.Machine.execLinkRxWriteResponse s
  | .linkRxAtomic => Sys2Proof.Machine.execLinkRxAtomic s
  | .linkRxAtomicCompletion => Sys2Proof.Machine.execLinkRxAtomicCompletion s
  | .linkRxArrival => Sys2Proof.Machine.execLinkRxArrival s
  | .linkRxMessage => Sys2Proof.Machine.execLinkRxMessage s
  | .linkRxShootdown => Sys2Proof.Machine.execLinkRxShootdown s
  | .linkRxEpochReport => Sys2Proof.Machine.execLinkRxEpochReport s
  | .linkRxUnknownKind => Sys2Proof.Machine.execLinkRxUnknownKind s
  | .linkRxMisrouted => Sys2Proof.Machine.execLinkRxMisrouted s
  | .linkRetryResend => Sys2Proof.Machine.execLinkRetryResend s
  | .linkTimeout => Sys2Proof.Machine.execLinkTimeout s
  | .pcieBar0Write => Sys2Proof.Machine.execPcieBar0Write s
  | .pcieBar2Request => Sys2Proof.Machine.execPcieBar2Request s
  | .pcieAtomicop => Sys2Proof.Machine.execPcieAtomicop s
  | .hostWarmRestart => Sys2Proof.Machine.execHostWarmRestart s
  | .contextStopped => Sys2Proof.Machine.execContextStopped s
  | .swapProceed => Sys2Proof.Machine.execSwapProceed s
  | .spillDone => Sys2Proof.Machine.execSpillDone s
  | .fillDone => Sys2Proof.Machine.execFillDone s
  | .recovery => Sys2Proof.Machine.execRecovery s
  | .updatePerformed => Sys2Proof.Machine.execUpdatePerformed s
  | .portLinkDown => Sys2Proof.Machine.execPortLinkDown s
  | .portLinkUp => Sys2Proof.Machine.execPortLinkUp s

end Sys2Proof.Machine
end

