-- ==== Sys2Proof/Machine/Step.lean ====
section
/-! DEFINITION. The step of the device: `stepWith` (Machine/Schedule.lean) around `exec`. -/

namespace Sys2Proof.Machine
open Sys2Proof

/-- One step of the device: its boot, one move of a group, or one step of another unit. -/
def step (s : State) : Host.Outcome State Fault Refusal := stepWith exec s

/-- The device with one group whose next instruction is the given word (see `placeWord`). -/
def State.withFetchWord (s : State) (_nbits w : Nat) : State := placeWord s w

end Sys2Proof.Machine
end

