-- ==== Sys2Proof/Safety.lean ====
section
/-! DEFINITION. The terms statements use: a step that completes, the canonical forms, and what an instruction may change. -/

namespace Sys2Proof.Machine
open Sys2Proof

/-- The step answers a next state. -/
def Completes (o : Host.Outcome State Fault Refusal) : Prop := ∃ t, o = .next t

/-- A group's registers are in canonical form and its lanes are at most 64 (R64, R157). -/
def Group.ok (g : Group) : Bool :=
  SMap.wf 0 g.v && SMap.wf 0 g.s && SMap.wf 0 g.p && SMap.wf 0 g.lat && decide (g.width ≤ 64)

/-- Word i of a value (R62). -/
def wordOfVal (x i : Nat) : Nat := x / 2 ^ (32 * i) % 2 ^ 32

/-- `h` is `g` with a result of `k` registers written by an instruction word in the given lanes (R66, R67, R99): DST and the
latches are as the rules say, and nothing else of the group has changed. -/
def ResultWritten (g h : Group) (x : InsWord) (k : Nat) (lanes : List Nat) (f : Nat → Nat) : Prop :=
  match x.nw, x.dst with
  | true, _ =>
    h = { g with lat := h.lat }
      ∧ (∀ l, l < g.width → rdLat h 0 l = if l ∈ lanes then f l % 2 ^ 64 else 0)
      ∧ (∀ j l, j < 3 → l < 64 → rdLat h (j + 1) l = rdLat g j l)
  | false, .v n =>
    h = { g with v := h.v, lat := h.lat }
      ∧ (∀ l i, l ∈ lanes → i < k → rdV h (n.toNat + i) l = wordOfVal (f l) i)
      ∧ (∀ m l, l < 64 → ¬ (l ∈ lanes ∧ n.toNat ≤ m ∧ m < n.toNat + k) → rdV h m l = rdV g m l)
      ∧ (∀ l, l < g.width → rdLat h 0 l = rdVs h n.toNat l k % 2 ^ 64)
      ∧ (∀ j l, j < 3 → l < 64 → rdLat h (j + 1) l = rdLat g j l)
  | false, .s n =>
    h = { g with s := h.s, lat := h.lat }
      ∧ (∀ l i, lanes.head? = some l → i < k → rdS h (n.toNat + i) = wordOfVal (f l) i)
      ∧ (∀ m, ¬ (lanes ≠ [] ∧ n.toNat ≤ m ∧ m < n.toNat + k) → rdS h m = rdS g m)
      ∧ (∀ l, l < g.width → rdLat h 0 l = rdSs h n.toNat k % 2 ^ 64)
      ∧ (∀ j l, j < 3 → l < 64 → rdLat h (j + 1) l = rdLat g j l)
  | false, _ => h = g

/-- `h` is `g` with predicate `k` written in the given lanes, `p7` never (R64). -/
def PredWritten (g h : Group) (k : Nat) (lanes : List Nat) (f : Nat → Bool) : Prop :=
  h = { g with p := h.p } ∧ (∀ j l, l < 64 → rdP h j l = if j = k ∧ k ≠ 7 ∧ l ∈ lanes then f l else rdP g j l)

/-- The instruction completes at `Next` with a result of `k` registers in the lanes of `Active()`. -/
def Computes (i : Instr) (s : State) (g : Group) (x : InsWord) (k : Nat) (f : Nat → Nat) : Prop :=
  ∃ h, exec i s = .next (finish s h) ∧ ResultWritten g h x k (active g x) f

/-! ## Memory instructions -/

/-- Every memory and register store of the machine is in canonical form (log entries 2 to 4), and the banks keep their sizes
(R332, R378, R418). -/
def State.ok (s : State) : Bool :=
  Memory.wf s.mem && Memory.wf s.scr && SMap.wf 0 s.ptab && SMap.wf 0 s.regs && SMap.wf default s.rows && SMap.wf 0 s.stEpoch
    && Memory.wf s.flash && Memory.wf s.staging && decide (s.parts.length = 8) && decide (s.hwslots.length = 64)
    && decide (s.ports.length = 16)

/-- The per-lane segment registers of a group are in canonical form. -/
def Group.banksOk (g : Group) : Bool := SMap.wf 0 g.pB && SMap.wf 0 g.pL && SMap.wf 0 g.qB && SMap.wf 0 g.qL

/-- Every group, in a slot or in a context's image, has canonical registers and at most 64 lanes; every launch has a width. -/
def State.tidy (s : State) : Prop :=
  (∀ g ∈ s.groups, g.ok = true ∧ g.banksOk = true)
    ∧ (∀ c ∈ s.ctxs, ∀ m, c.image = some m → ∀ g ∈ m.groups, g.ok = true ∧ g.banksOk = true)
    ∧ ∀ l ∈ s.launches, fld l.desc 1 1 ≤ 2

/-- Bytes at a location of the part's own memories. -/
def Loc.plain : Loc → Bool
  | .scr _ | .dram .. => true
  | _ => false

/-- Whether an access of `z` bytes at a location covers a scratchpad byte, or a byte of device memory. -/
def Loc.inScr (loc : Loc) (z a : Nat) : Bool := match loc with | .scr b => b ≤ a && a < b + z | _ => false
def Loc.inDram (loc : Loc) (z a : Nat) : Bool := match loc with | .dram b _ _ => b ≤ a && a < b + z | _ => false

/-- The same bytes, for accesses of one size. -/
def Loc.same : Loc → Loc → Bool
  | .scr a, .scr b => a = b
  | .dram a _ _, .dram b _ _ => a = b
  | _, _ => false

/-- The first byte of a location lies at a multiple of `z`. -/
def Loc.aligned (loc : Loc) (z : Nat) : Bool := match loc with | .scr a => a % z = 0 | .dram a _ _ => a % z = 0 | _ => false

/-- What the checks of R228 make of a plain access of `z` bytes by the lanes `act` (R69, R194 to R196, R204, R387). Lanes out of range in S, N
or P are switched off. Faults name the lowest lane of the first check that fails: an offset out of range in G, Q or C, a virtual address past
2^56 or a store to the header of a pocket; then alignment; then the page. Before all of them a load in a chain faults whose page is not
normal. -/
def LaneChecks (i : Instr) (s : State) (g : Group) (x : InsWord) (act : List Nat) (off : Nat → Int) (z : Nat) (acc : Acc) (write : Bool) : Prop :=
  let seg := modF x 2 0
  let window : Bool := seg = 1 || seg = 2
  let limit (l : Nat) : Nat := match seg with
    | 0 => 2 ^ 56 | 1 => g.segS.limit | 2 => g.segN.limit
    | 3 => (SMap.get 0 g.pL l).toNat | 4 => (SMap.get 0 g.qL l).toNat | _ => g.clim.toNat
  let base (l : Nat) : Nat := match seg with
    | 3 => (SMap.get 0 g.pB l).toNat | 4 => (SMap.get 0 g.qB l).toNat | 5 => g.cbase.toNat | _ => 0
  let fits (l : Nat) : Prop := 0 ≤ off l ∧ off l + (z : Int) ≤ (limit l : Int)
  let addr (l : Nat) : Nat := if window then segAddr (segWin g seg) (off l).toNat else base l + (off l).toNat
  let named (l : Nat) : Nat := match window, ctxOf s g.ctx with | true, some c => virtScr c (addr l) | _, _ => addr l
  let passes (l : Nat) : Prop := fits l ∧ (window = true ∨ addr l + z ≤ 2 ^ 56) ∧ ¬ (write = true ∧ seg = 3 ∧ off l < 32)
  let page (l : Nat) (e : TlbEnt) : Prop := window = false ∧ plainEnt s (gBuf g) g.ctx (addr l) = .ok e
  let first (p : Nat → Prop) (l : Nat) : Prop := l ∈ act ∧ p l ∧ ∀ m ∈ act, p m → l ≤ m
  let faults (l reason at' : Nat) : Prop := ∃ d, exec i s = .next (takeFault s g ⟨reason, d, at', maskOf [l], 0⟩)
  let odd (l : Nat) : Prop := passes l ∧ ∃ e, page l e ∧ pteKind e.leaf.toNat ≠ 0
  act ≠ [] → seg ≤ 5 →
    (∀ l, g.iss.reader = true → first odd l → exec i s = .next (takeFault s g ⟨8, 3, addr l, maskOf [l], 0⟩))
      ∧ ((g.iss.reader = true → ∀ l ∈ act, ¬ odd l) →
        (1 ≤ seg → seg ≤ 3 → (∀ l ∈ act, ¬ fits l) → ∃ u h, exec i s = .next (finish u h) ∧ u.mem = s.mem ∧ u.scr = s.scr
            ∧ h = { g with live := h.live, em := h.em, lfault := h.lfault, vc := h.vc }
            ∧ ∀ l, l < 64 → h.live.getLsbD l = (g.live.getLsbD l && decide (l ∉ act)) ∧ h.em.getLsbD l = (g.em.getLsbD l && decide (l ∉ act))
              ∧ h.lfault.getLsbD l = (g.lfault.getLsbD l || decide (l ∈ act)))
          ∧ (∀ l, seg = 0 ∨ 4 ≤ seg ∨ (∀ m ∈ act, fits m) → first (fun m => ¬ passes m) l →
              (fits l → faults l 2 (addr l)) ∧ (¬ fits l → faults l 2 (off l % (2 ^ 64 : Nat)).toNat))
          ∧ (∀ l, (∀ m ∈ act, passes m) → first (fun m => addr m % z ≠ 0) l → faults l 7 (named l))
          ∧ (∀ l e, (∀ m ∈ act, passes m ∧ addr m % z = 0) → l ∈ act → page l e →
              (write = true ∧ bit e.leaf.toNat 5 = false) ∨ (acc = .atom ∧ pteKind e.leaf.toNat ≠ 0)
                ∨ (acc ≠ .atom ∧ 8 < z ∧ pteKind e.leaf.toNat ≠ 0 ∧ pteKind e.leaf.toNat ≠ 4) →
              (∀ m ∈ act, m < l → ∃ t loc, page m t ∧ permitted s t (addr m) acc = .ok loc) → faults l 2 (addr l)))

/-- A lane's access of `z` bytes at the virtual address `a` passes the checks of R228 and leaves the part, to the target `e`. -/
def LaneOut (s : State) (g : Group) (x : InsWord) (off : Nat → Int) (z : Nat) (acc : Acc) (write : Bool) (l a : Nat) (loc : Loc) (e : Ext) : Prop :=
  headerCheck x write (off l) (placeIn g (modF x 2 0) (off l) z l) = .va a ∧ a % z = 0 ∧ extOf loc = some e
    ∧ ∃ t, resolve s (gBuf g) g.ctx a acc = .ok (t, loc) ∧ (g.iss.reader = true → pteKind t.leaf.toNat = 0)

/-- An access outside the part may start: nothing of the group is outstanding to its line, and its device's window has room (R286, R431). -/
def mayStart (s : State) (g : Group) (z : Nat) (e : Ext) : Bool :=
  !lineBusy s g e && (match e.dev with | some d => linkRoom s d z | none => true)

/-- The one transaction that `u` sends beyond `b`, with its first flit unless an earlier one still waits for its device's window. -/
def SendsXact (s b u : State) (d port kind tag addr : Nat) (ord : Bool) (pay : List Byte) : Prop :=
  (∃ y, u.xacts = s.xacts ++ [y] ∧ y.dst = d ∧ y.port = port ∧ y.kind = kind ∧ y.tag = tag ∧ y.addr = addr ∧ y.ord = ord ∧ y.payload = pay)
    ∧ ((∀ y ∈ s.xacts, y.unsent = true → y.dst ≠ d) → u.out = b.out ++ [.flit port d kind tag ord (addr % 2 ^ 41) pay])

/-- A group goes on, or is held at its instruction for one answer (R210). -/
def goesOrHeld (u : State) (h : Group) (held : Prop) [Decidable held] (tag : Nat) : State :=
  if held then setGroup u { h with st := .stalled, wait := .ext [tag] } else finish u h

/-- A lane's access of `z` bytes passes the checks of R228 and is performed at `loc`, inside the part (R193, R194, R204, R415). -/
def LaneReady (s : State) (g : Group) (x : InsWord) (off : Nat → Int) (z : Nat) (acc : Acc) (write : Bool) (l : Nat) (loc : Loc) : Prop :=
  (match headerCheck x write (off l) (placeIn g (modF x 2 0) (off l) z l) with
    | .scr a => a % z = 0 ∧ loc = .scr a
    | .va a => a % z = 0 ∧ ∃ t, resolve s (gBuf g) g.ctx a acc = .ok (t, loc) ∧ (g.iss.reader = true → pteKind t.leaf.toNat = 0)
    | _ => False)
  ∧ isLocal loc = true ∧ integrityBad s write z loc = false

/-- No plain access of the listed lanes races (R290). -/
def NoRace (s : State) (g : Group) (z : Nat) (lanes : List Nat) (loc : Nat → Loc) : Prop :=
  ∀ l ∈ lanes, ∀ a, loc l = .scr a → raceAt s g a z = none

/-- No listed scratch address is part of a claimed request whose context is out: a tailor's reply there goes elsewhere (R174). -/
def StaysHere (s : State) (g : Group) (lanes : List Nat) (loc : Nat → Loc) : Prop :=
  ∀ l ∈ lanes, ∀ a, loc l = .scr a → awayScr s g a = none

/-- Nothing leaves the part but reads of shape descriptors that lie on other devices (R199, R205). -/
def SendsReads (s t : State) : Prop :=
  ∃ o, t.out = s.out ++ o ∧ ∀ y ∈ o, ∃ port dev tag addr pay, y = Out.flit port dev 1 tag false addr pay

/-- What an instruction that only reads leaves of the machine: translations may be cached, promotions begun (R207, R405). -/
def ReadsOnly (s t : State) : Prop :=
  t = { s with tlb := t.tlb, rows := t.rows, agenda := t.agenda, out := t.out, nextId := t.nextId } ∧ SendsReads s t

/-- `h` is `g` with `k` words of a value in `v[n]` on, in the given lanes; what the group observed of the order may differ. -/
def LoadedV (g h : Group) (n k : Nat) (lanes : List Nat) (f : Nat → Nat → Nat) : Prop :=
  h = { g with v := h.v, vc := h.vc, seen := h.seen }
    ∧ (∀ l i, l ∈ lanes → i < k → rdV h (n + i) l = f l i)
    ∧ (∀ m l, l < 64 → ¬ (l ∈ lanes ∧ n ≤ m ∧ m < n + k) → rdV h m l = rdV g m l)

/-- The same for `s[n]` on, once for the group. -/
def LoadedS (g h : Group) (n k : Nat) (f : Nat → Nat) : Prop :=
  h = { g with s := h.s, vc := h.vc, seen := h.seen }
    ∧ (∀ i, i < k → rdS h (n + i) = f i) ∧ (∀ m, ¬ (n ≤ m ∧ m < n + k) → rdS h m = rdS g m)

/-- A 64-bit or 32-bit value in `s[n]` on: word i of it in `s[n + i]`, every other register of the group as before. -/
def WrittenS (g h : Group) (n k x : Nat) : Prop :=
  h = { g with s := h.s } ∧ (∀ i, i < k → rdS h (n + i) = wordOfVal x i) ∧ (∀ m, ¬ (n ≤ m ∧ m < n + k) → rdS h m = rdS g m)

/-- `h` is `g` with a 32-bit status or reply in the `s` destination of a word; other destinations take none (R77, R236, R392). -/
def StatusWritten (g h : Group) (x : InsWord) (v : Nat) : Prop :=
  match x.dst with
  | .s d => WrittenS g h d.toNat 1 v
  | _ => h = g

/-- What a store leaves of the machine but for the memories: registers, groups, queues and launches are as before (watchpoints may
raise the context's halt line, R389). -/
def StoresOnly (s t : State) : Prop :=
  t.groups = s.groups ∧ t.regs = s.regs ∧ t.ptab = s.ptab ∧ t.hwslots = s.hwslots ∧ t.launches = s.launches ∧ t.jobs = s.jobs
    ∧ t.mode = s.mode ∧ t.flash = s.flash ∧ t.ports = s.ports ∧ t.xacts = s.xacts ∧ t.posted = s.posted ∧ SendsReads s t
    ∧ t.teams = s.teams ∧ t.pawns = s.pawns

/-- Every byte outside the listed accesses of `z` bytes reads in `t` as it does in `s`. -/
def OtherBytesKept (s t : State) (z : Nat) (lanes : List Nat) (loc : Nat → Loc) : Prop :=
  (∀ a, (∀ l ∈ lanes, (loc l).inScr z a = false) → memGet t.scr a = memGet s.scr a)
    ∧ (∀ a, (∀ l ∈ lanes, (loc l).inDram z a = false) → dramByte t a = dramByte s a)

end Sys2Proof.Machine
end

