-- ==== Sys2Proof/WellFormed.lean ====
section
/-! DEFINITION. Well-formed instructions: the encoding's own ties, and for a group the step 6 checks of R83. -/

namespace Sys2Proof

/-- An instruction with a word whose own fields agree (see `formOk`). -/
def Instr.encodable (i : Instr) : Bool := formOk i

/-- An instruction that a group with the given facts may execute (R61, R62, R65, R67, R82). -/
def Instr.legal (e : Machine.Env) (i : Instr) : Bool :=
  formOk i && Machine.operandsOk e i && (!Machine.privileged (opcodeOf i) || e.priv)

end Sys2Proof
end

