-- ==== Sys2Proof/Certificates/Slice0/Obligations.lean ====
section
/-! DEFINITION. The statements for the provers, by chapter of the spec. -/

open Sys2Proof Sys2Proof.Machine

/-! ## Arithmetic (05_arithmetic.md) -/

/-- R104, with R22's wrap and clamp as integers: each integer operation writes the stated value of its extended operands in the
lanes of `Active()` and changes nothing else of its group (R66, R99); `IABS` reads a as signed. -/
def Obligations.IntegerArithmetic : Prop :=
  (∀ (s : State) (g : Group) (w : Bool) (x : InsWord), curGroup s = some g → g.ok = true →
    let n : Nat := if w then 64 else 32
    let u : Bool := x.mod.getLsbD 0
    let a (l : Nat) : Int := ext u (src g x w (!u) x.opa l) n
    let b (l : Nat) : Int := ext u (src g x w (!u) x.opb l) n
    let c (l : Nat) : Int := ext u (src g x w (!u) x.opc l) n
    let lo : Int := if u then 0 else -(2 ^ (n - 1) : Nat)
    let hi : Int := if u then (2 ^ n : Nat) - 1 else (2 ^ (n - 1) : Nat) - 1
    let pat (y : Int) : Nat := (y % (2 ^ n : Nat)).toNat
    let fitTo (y : Int) : Nat := if x.mod.getLsbD 1 then pat (max lo (min hi y)) else pat y
    let k : Nat := if w then 2 else 1
    Computes (.iadd w x) s g x k (fun l => fitTo (a l + b l))
      ∧ Computes (.isub w x) s g x k (fun l => fitTo (a l - b l))
      ∧ Computes (.imul w x) s g x k (fun l => fitTo (a l * b l))
      ∧ Computes (.imulh w x) s g x k (fun l => pat ((a l * b l) / (2 ^ n : Nat)))
      ∧ Computes (.imad w x) s g x k (fun l => fitTo (a l * b l + c l))
      ∧ Computes (.idiv w x) s g x k (fun l => if b l = 0 then 2 ^ n - 1 else fitTo ((a l).tdiv (b l)))
      ∧ Computes (.irem w x) s g x k (fun l => if b l = 0 then pat (a l) else pat (a l - b l * (a l).tdiv (b l)))
      ∧ Computes (.imin w x) s g x k (fun l => pat (min (a l) (b l)))
      ∧ Computes (.imax w x) s g x k (fun l => pat (max (a l) (b l))))
  ∧ (∀ (s : State) (g : Group) (w : Bool) (x : InsWord), curGroup s = some g → g.ok = true →
    let n : Nat := if w then 64 else 32
    let a (l : Nat) : Int := sext (src g x w true x.opa l) n
    Computes (.iabs w x) s g x (if w then 2 else 1) (fun l =>
      if a l = -(2 ^ (n - 1) : Nat) then (if x.mod.getLsbD 1 then 2 ^ (n - 1) - 1 else 2 ^ (n - 1)) else (a l).natAbs))

/-- R105 and R106: bitwise operations and shifts, each bit and each amount as the rules give them. -/
def Obligations.LogicAndShifts : Prop :=
  ∀ (s : State) (g : Group) (w : Bool) (x : InsWord), curGroup s = some g → g.ok = true →
    let n : Nat := if w then 64 else 32
    let k : Nat := if w then 2 else 1
    let a (l : Nat) : Nat := src g x w false x.opa l
    let b (l : Nat) : Nat := src g x w false x.opb l
    let c (l : Nat) : Nat := src g x w false x.opc l
    let sh (l : Nat) : Nat := src32 g x x.opb l
    let fk (l : Nat) : Nat := src32 g x x.opc l % n
    let tt : Nat := modF x 9 2
    Computes (.and w x) s g x k (fun l => a l &&& b l)
      ∧ Computes (.or w x) s g x k (fun l => a l ||| b l)
      ∧ Computes (.xor w x) s g x k (fun l => a l ^^^ b l)
      ∧ (∃ f : Nat → Nat, Computes (.bfn3 w x) s g x k f
          ∧ ∀ l i, f l < 2 ^ n ∧ (i < n → bit (f l) i = bit tt (4 * (bit (c l) i).toNat + 2 * (bit (a l) i).toNat + (bit (b l) i).toNat)))
      ∧ Computes (.shl w x) s g x k (fun l => if n ≤ sh l then 0 else a l * 2 ^ sh l % 2 ^ n)
      ∧ Computes (.shr w x) s g x k (fun l => if n ≤ sh l then 0 else a l / 2 ^ sh l)
      ∧ Computes (.sar w x) s g x k (fun l =>
          ((sext (src g x w true x.opa l) n / (2 ^ min (sh l) (n - 1) : Nat)) % (2 ^ n : Nat)).toNat)
      ∧ Computes (.rot w x) s g x k (fun l => (a l * 2 ^ (sh l % n) % 2 ^ n) ||| (a l / 2 ^ (n - sh l % n)))
      ∧ Computes (.fsh w x) s g x k (fun l =>
          if x.mod.getLsbD 2 then (b l * 2 ^ n + a l) * 2 ^ fk l / 2 ^ n % 2 ^ n else (b l * 2 ^ n + a l) / 2 ^ fk l % 2 ^ n)

/-- R107 and R108: counts, reversal, and the extracted and inserted bit fields. -/
def Obligations.CountsAndFields : Prop :=
  ∀ (s : State) (g : Group) (w : Bool) (x : InsWord), curGroup s = some g → g.ok = true →
    let n : Nat := if w then 64 else 32
    let k : Nat := if w then 2 else 1
    let u : Bool := x.mod.getLsbD 0
    let a (l : Nat) : Nat := src g x w false x.opa l
    let b (l : Nat) : Nat := src g x w false x.opb l
    let c (l : Nat) : Nat := src32 g x x.opc l
    (∃ f : Nat → Nat, Computes (.clz w x) s g x 1 f
        ∧ ∀ l, f l ≤ n ∧ (f l < n → bit (a l) (n - 1 - f l) = true) ∧ ∀ i, n - f l ≤ i → i < n → bit (a l) i = false)
      ∧ Computes (.popc w x) s g x 1 (fun l => ((List.range n).filter (fun i => bit (a l) i)).length)
      ∧ (∃ f : Nat → Nat, Computes (.brev w x) s g x k f ∧ ∀ l i, f l < 2 ^ n ∧ (i < n → bit (f l) (n - 1 - i) = bit (a l) i))
      ∧ Computes (.bfe w x) s g x k (fun l =>
          let ctl := src32 g x x.opb l
          let len := min (ctl / 256 % 256) n
          let f : Nat := ((ext u (src g x w (!u) x.opa l) n / (2 ^ min (ctl % 256) n : Nat)) % (2 ^ len : Nat)).toNat
          if len = 0 then 0 else ((ext u f len) % (2 ^ n : Nat)).toNat)
      ∧ Computes (.bfi w x) s g x k (fun l =>
          let pos := min (c l % 256) n
          let len := min (c l / 256 % 256) (n - pos)
          b l % 2 ^ pos + a l % 2 ^ len * 2 ^ pos + b l / 2 ^ (pos + len) * 2 ^ (pos + len))

/-- R109, R111 and R112: selection, addresses and moves. -/
def Obligations.SelectAddressMove : Prop :=
  ∀ (s : State) (g : Group) (w : Bool) (x : InsWord), curGroup s = some g → g.ok = true →
    let n : Nat := if w then 64 else 32
    let k : Nat := if w then 2 else 1
    let u : Bool := x.mod.getLsbD 0
    Computes (.sel w x) s g x k (fun l =>
        if rdP g (modF x 4 2) l != x.mod.getLsbD 5 then src g x w false x.opa l else src g x w false x.opb l)
      ∧ Computes (.lea w x) s g x k (fun l =>
          (((src g x w (!u) x.opa l : Int) + ext u (src32 g x x.opb l) 32 * (2 ^ modF x 4 2 : Nat) + sext (src32 g x x.opc l) 32)
            % (2 ^ n : Nat)).toNat)
      ∧ Computes (.mov w x) s g x k (fun l => src g x w false x.opa l)
      ∧ Computes (.movl w x) s g x k (fun l => ((ext u (src32 g x x.opa l) (8 * 2 ^ modF x 3 2)) % (2 ^ n : Nat)).toNat)

/-- R110: the conditions, the combination with the old predicate, and `ISET`'s result. -/
def Obligations.IntegerCompare : Prop :=
  ∀ (s : State) (g : Group) (w : Bool) (x : InsWord), curGroup s = some g → g.ok = true → modF x 4 2 < 6 →
    let n : Nat := if w then 64 else 32
    let u : Bool := x.mod.getLsbD 0
    let a (l : Nat) : Int := ext u (src g x w (!u) x.opa l) n
    let b (l : Nat) : Int := ext u (src g x w (!u) x.opb l) n
    let cond (l : Nat) : Bool := (([a l = b l, a l ≠ b l, a l < b l, a l ≤ b l, b l < a l, b l ≤ a l] : List Bool))[modF x 4 2]?.getD false
    let pd : Nat := modF x 7 5
    let old (l : Nat) : Bool := rdP g pd l
    (∃ h, exec (.icmp w x) s = .next (finish s h) ∧ PredWritten g h pd (active g x) (fun l =>
        (([cond l, old l && cond l, old l || cond l, old l != cond l] : List Bool))[modF x 9 8]?.getD false))
      ∧ Computes (.iset w x) s g x 1 (fun l => if cond l then (if x.mod.getLsbD 5 then 2 ^ 32 - 1 else 1) else 0)

/-- R114 to R118: scalar float results, each rounded once by `Res`, and the comparisons. -/
def Obligations.ScalarFloat : Prop :=
  ∀ (s : State) (g : Group) (f : FFmt) (x : InsWord), curGroup s = some g → g.ok = true →
    let F := ffmt f
    let a (l : Nat) : FVal := fArg f g x 0 x.opa l
    let b (l : Nat) : FVal := fArg f g x 1 x.opb l
    let c (l : Nat) : FVal := fArg f g x 2 x.opc l
    let one : Nat := match f with | .f32 => 0x3F800000 | .f16 => 0x3C00 | .bf16 => 0x3F80
    let ones : Nat := match f with | .f32 => 0xFFFFFFFF | _ => 0xFFFF
    let cmpArg (o : Opd) (l : Nat) : FVal := fSrcOf F (x.mod.getLsbD 3) (x.mod.getLsbD 9) false (srcF g x f o l)
    let pd : Nat := modF x 6 4
    Computes (.fadd f x) s g x 1 (fun l => fRes F x (FVal.sum (fRnd x) [a l, b l]))
      ∧ Computes (.fmul f x) s g x 1 (fun l => fRes F x ((a l).mul (b l)))
      ∧ Computes (.ffma f x) s g x 1 (fun l => fRes F x (FVal.sum (fRnd x) [(a l).mul (b l), c l]))
      ∧ Computes (.fmin f x) s g x 1 (fun l => minMaxF F false (fArgCode f g x 0 x.opa l) (fArgCode f g x 1 x.opb l))
      ∧ Computes (.fmax f x) s g x 1 (fun l => minMaxF F true (fArgCode f g x 0 x.opa l) (fArgCode f g x 1 x.opb l))
      ∧ Computes (.frnd f x) s g x 1 (fun l => frndVal F (fRnd x) (fFtz x) (a l))
      ∧ Computes (.fset f x) s g x 1 (fun l =>
          if floatCond (modF x 2 0) (a l) (b l) then (if x.mod.getLsbD 4 then ones else one) else 0)
      ∧ (∃ h, exec (.fcmp f x) s = .next (finish s h) ∧ PredWritten g h pd (active g x) (fun l =>
          combine (modF x 8 7) (rdP g pd l) (floatCond (modF x 2 0) (cmpArg x.opa l) (cmpArg x.opb l))))

/-- R119, R120, R125, R126, with R31's table: conversions, scalar and packed. An integer from an integer wraps, or with SAT is clamped; one
from a float is rounded and always clamped, a NaN giving 0; a float is rounded once from the exact source. -/
def Obligations.Conversions : Prop :=
  ∀ (s : State) (g : Group) (x : InsWord), curGroup s = some g → g.ok = true →
    let clamp (u : Bool) (n : Nat) (y : Int) : Int :=
      if u then max 0 (min ((2 ^ n : Nat) - 1) y) else max (-(2 ^ (n - 1) : Nat)) (min ((2 ^ (n - 1) : Nat) - 1) y)
    let placed (u : Bool) (n : Nat) (y : Int) : Nat := ((ext u (y % (2 ^ n : Nat)).toNat n) % (2 ^ max 32 n : Nat)).toNat
    let flushes (F : Fmt) : Bool := F = fmtF32 || F = fmtF16 || F = fmtBf16
    let value (F : Fmt) (fz : Bool) (v : Nat) : FVal := FVal.decode F (flush F fz (v % 2 ^ (F.mbits + F.ebits + 1)))
    let rounded (F G : Fmt) (v : Nat) : Nat :=
      let fz := fFtz x && (flushes F || flushes G)
      flush G fz (roundF G (fRnd x) (fSat x) (value F fz v))
    let a (l : Nat) : Nat := srcF g x .f32 x.opa l
    let b (l : Nat) : Nat := srcF g x .f32 x.opb l
    (∀ d from', nfmtOfCode (modF x 8 5) = some from' →
        ∃ f, Computes (.cvt d x) s g x (if d = .i64 ∨ d = .n64 then 2 else 1) f
          ∧ ∀ l, let v := cvtSrc g x from' x.opa l
            (∀ k u n w, nfmtKind from' = .inr (k, u) → nfmtKind d = .inr (n, w) →
                f l = placed w n (if fSat x then clamp w n (ext u v k) else ext u v k))
              ∧ (∀ F n w, nfmtKind from' = .inl F → nfmtKind d = .inr (n, w) →
                  f l = placed w n (match value F (fFtz x && flushes F) v with
                    | .nan => 0
                    | .inf neg => clamp w n (if neg then -(2 ^ 64 : Nat) else (2 ^ 64 : Nat))
                    | .fin neg m e => clamp w n (roundInt (fRnd x) neg m e)))
              ∧ (∀ k u G, nfmtKind from' = .inr (k, u) → nfmtKind d = .inl G → let y := ext u v k
                  f l = flush G (fFtz x && flushes G) (roundF G (fRnd x) (fSat x) (.fin (decide (y < 0)) y.natAbs 0)))
              ∧ (∀ F G, nfmtKind from' = .inl F → nfmtKind d = .inl G → f l = rounded F G v
                  ∧ (value F false v = .nan → f l = G.nanCode)
                  ∧ ∀ neg, value F false v = .inf neg → f l =
                      if fSat x then G.maxCode + (if neg then 2 ^ (G.mbits + G.ebits) else 0)
                      else if d = .e4m3 then G.nanCode else G.maxCode + 1 + (if neg then 2 ^ (G.mbits + G.ebits) else 0)))
      ∧ (∀ half, let G := if half then fmtF16 else fmtBf16
          Computes (.cvtPk2 half x) s g x 1 (fun l => rounded fmtF32 G (a l) + 2 ^ 16 * rounded fmtF32 G (b l)))
      ∧ (∀ e5, let G := if e5 then fmtE5m2 else fmtE4m3
          Computes (.cvtPk4 e5 x) s g x 1 (fun l =>
            let p := rounded fmtF32 G (a l) + 2 ^ 8 * rounded fmtF32 G (b l)
            let c := src32 g x x.opc l
            if x.mod.getLsbD 5 then c % 2 ^ 16 + 2 ^ 16 * p else c / 2 ^ 16 * 2 ^ 16 + p))
      ∧ Computes (.cvtUnpk x) s g x 1 (fun l =>
          let el (n : Nat) : Nat := src32 g x x.opa l / 2 ^ (n * (src32 g x x.opb l % (32 / n))) % 2 ^ n
          roundF fmtF32 0 false (match modF x 8 5 with
            | 1 => value fmtF16 (fFtz x) (el 16)
            | 2 => value fmtBf16 (fFtz x) (el 16)
            | 3 => value fmtE4m3 false (el 8)
            | _ => value fmtE5m2 false (el 8)))

/-- R121 to R124: packed pairs act on each half by itself; dot products add the exact products to c and fit or round once. -/
def Obligations.PackedAndDot : Prop :=
  ∀ (s : State) (g : Group) (half : Bool) (x : InsWord), curGroup s = some g → g.ok = true →
    let F := if half then fmtF16 else fmtBf16
    let el (o : Opd) (l i : Nat) : Nat := src32 g x o l / 2 ^ (16 * i) % 2 ^ 16
    let a (l i : Nat) : FVal := pkArg F x 0 (el x.opa l i)
    let b (l i : Nat) : FVal := pkArg F x 1 (el x.opb l i)
    let c (l i : Nat) : FVal := pkArg F x 2 (el x.opc l i)
    let pair (r : Nat → Nat → Nat) (l : Nat) : Nat := r l 0 + 2 ^ 16 * r l 1
    let dot (n k l : Nat) : Nat := fit half (x.mod.getLsbD 4) ((List.range n).foldl (fun t i =>
      t + ext half (src32 g x x.opa l / 2 ^ (k * i)) k * ext half (src32 g x x.opb l / 2 ^ (k * i)) k) (ext half (src32 g x x.opc l) 32)) 32
    Computes (.add2h half x) s g x 1 (pair (fun l i => fRes F x (FVal.sum (fRnd x) [a l i, b l i])))
      ∧ Computes (.mul2h half x) s g x 1 (pair (fun l i => fRes F x ((a l i).mul (b l i))))
      ∧ Computes (.fma2h half x) s g x 1 (pair (fun l i => fRes F x (FVal.sum (fRnd x) [(a l i).mul (b l i), c l i])))
      ∧ Computes (.min2h half x) s g x 1 (pair (fun l i => minMaxF F false (pkCode F x 0 (el x.opa l i)) (pkCode F x 1 (el x.opb l i))))
      ∧ Computes (.max2h half x) s g x 1 (pair (fun l i => minMaxF F true (pkCode F x 0 (el x.opa l i)) (pkCode F x 1 (el x.opb l i))))
      ∧ Computes (.cmp2h half x) s g x 1 (pair (fun l i => if floatCond (modF x 2 0) (a l i) (b l i) then 0xFFFF else 0))
      ∧ Computes (.dot4 half x) s g x 1 (dot 4 8)
      ∧ Computes (.dot8 half x) s g x 1 (dot 8 4)
      ∧ Computes (.dot2 half x) s g x 1 (fun l => fRes fmtF32 x (FVal.sum (fRnd x)
          [fSrcOf fmtF32 (x.mod.getLsbD 3) false (x.mod.getLsbD 7) (srcF g x .f32 x.opc l), (a l 0).mul (b l 0), (a l 1).mul (b l 1)]))

/-- R127 to R131: the special functions, in both grades and in pairs: the fast grade's flushed input, R127's table of special values,
and the 23 significant bits and flushed results of the fast grade. -/
def Obligations.SpecialFunctions : Prop :=
  ∀ (s : State) (g : Group) (acc : Bool) (x : InsWord), curGroup s = some g → g.ok = true →
    let arg (fast : Bool) (c : Nat) : Nat :=
      let a := if fast = true ∧ c / 2 ^ 23 % 2 ^ 8 = 0 then c / 2 ^ 31 * 2 ^ 31 else c
      let b := if x.mod.getLsbD 8 then a % 2 ^ 31 else a
      if x.mod.getLsbD 5 then (b + 2 ^ 31) % 2 ^ 32 else b
    let tabled (fn : Sfn) (y : Nat) : Option Nat :=
      if 0x7F800000 < y % 2 ^ 31 then some 0x7FC00000
      else if y = 0x7F800000 then some (match fn with
        | .exp2 | .log2 | .sqrt | .gelu | .silu => 0x7F800000
        | .rcp | .rsq => 0
        | .sin | .cos => 0x7FC00000
        | .tanh | .sigm | .erf => 0x3F800000)
      else if y = 0xFF800000 then some (match fn with
        | .exp2 | .sigm => 0
        | .rcp | .gelu | .silu => 0x80000000
        | .tanh | .erf => 0xBF800000
        | .log2 | .rsq | .sqrt | .sin | .cos => 0x7FC00000)
      else if y % 2 ^ 31 = 0 then some (match fn with
        | .exp2 | .cos => 0x3F800000
        | .log2 => 0xFF800000
        | .rcp | .rsq => y + 0x7F800000
        | .sigm => 0x3F000000
        | .sqrt | .sin | .tanh | .gelu | .silu | .erf => y)
      else if 2 ^ 31 < y ∧ (fn = .log2 ∨ fn = .rsq ∨ fn = .sqrt) then some 0x7FC00000
      else none
    let one (i : Instr) (fn : Sfn) : Prop := ∃ f, Computes i s g x 1 f ∧ ∀ l,
      f l = sfu fn acc (x.mod.getLsbD 8) (x.mod.getLsbD 5) (srcF g x .f32 x.opa l)
        ∧ (∀ v, tabled fn (arg (!acc) (srcF g x .f32 x.opa l)) = some v → f l = v)
        ∧ (acc = false → f l % 2 = 0 ∧ (f l / 2 ^ 23 % 2 ^ 8 = 0 → f l % 2 ^ 23 = 0))
    let two (i : Instr) (fn : Sfn) : Prop := ∃ f, Computes i s g x 1 f ∧ ∀ l,
      f l = sfuBf2 fn (x.mod.getLsbD 8) (x.mod.getLsbD 5) (src32 g x x.opa l)
        ∧ ∀ j, j < 2 → let r := f l / 2 ^ (16 * j) % 2 ^ 16
          (∀ v, tabled fn (arg true (src32 g x x.opa l / 2 ^ (16 * j) % 2 ^ 16 * 2 ^ 16)) = some v → r = v / 2 ^ 16)
            ∧ (r / 2 ^ 7 % 2 ^ 8 = 0 → r % 2 ^ 7 = 0)
    one (.exp2 acc x) .exp2 ∧ one (.log2 acc x) .log2
      ∧ one (.rcp acc x) .rcp ∧ one (.rsq acc x) .rsq
      ∧ one (.sqrt acc x) .sqrt ∧ one (.sin acc x) .sin
      ∧ one (.cos acc x) .cos ∧ one (.tanh acc x) .tanh
      ∧ one (.sigm acc x) .sigm ∧ one (.gelu acc x) .gelu
      ∧ one (.silu acc x) .silu ∧ one (.erf acc x) .erf
      ∧ two (.exp2Bf2 x) .exp2 ∧ two (.rcpBf2 x) .rcp
      ∧ two (.rsqBf2 x) .rsq ∧ two (.tanhBf2 x) .tanh
      ∧ two (.sigmBf2 x) .sigm ∧ two (.geluBf2 x) .gelu
      ∧ two (.siluBf2 x) .silu ∧ two (.erfBf2 x) .erf

/-! ## Cross-lane (06_lanes.md) -/

/-- R140, R144: each active lane reads the lane its shuffle names, as it stood before, and the predicate says whether the index
was in range; `MATCH` finds the active lanes of equal value. -/
def Obligations.ShuffleAndMatch : Prop :=
  ∀ (s : State) (g : Group) (w : Bool) (x : InsWord), curGroup s = some g → g.ok = true →
    let seg : Nat := if modF x 2 0 = 0 then g.width else min (2 ^ modF x 2 0) g.width
    let k : Nat := if w then 2 else 1
    let key (l : Nat) : Nat := src32 g x x.opb l
    let inRange (l : Nat) : Bool := decide (key l < seg)
    let val (l : Nat) : Nat := src g x w false x.opa l
    let act := active g x
    let peers (l : Nat) : List Nat := act.filter (fun m => val m = val l)
    let allSame : Bool := act.all (fun l => act.all (fun m => val m = val l))
    let mk : Nat := if g.width = 64 then 2 else 1
    let both (i : Instr) (kk pd : Nat) (f : Nat → Nat) (p : Nat → Bool) : Prop :=
      ∃ h1 h, exec i s = .next (finish s h) ∧ ResultWritten g h1 x kk act f ∧ PredWritten h1 h pd act p
    both (.shflAt w x) k (modF x 5 3) (fun l => val (l - l % seg + key l % seg)) inRange
      ∧ both (.shflLo w x) k (modF x 5 3) (fun l => if key l ≤ l % seg then val (l - l % seg + (l % seg - key l)) else val (l - l % seg + l % seg))
          (fun l => decide (key l ≤ l % seg))
      ∧ both (.shflHi w x) k (modF x 5 3) (fun l => if l % seg + key l < seg then val (l - l % seg + (l % seg + key l)) else val (l - l % seg + l % seg))
          (fun l => decide (l % seg + key l < seg))
      ∧ both (.shflFlip w x) k (modF x 5 3) (fun l => val (l - l % seg + (l % seg ^^^ (key l % seg)))) inRange
      ∧ both (.matchPeers w x) mk (modF x 2 0) (fun l => (maskOf (peers l)).toNat) (fun _ => allSame)
      ∧ both (.matchUnan w x) mk (modF x 2 0) (fun _ => if allSame then (maskOf act).toNat else 0) (fun _ => allSame)

/-- R142: the votes over the counting lanes C, those of `Active()` selected by the predicate and, with an operand, nonzero. -/
def Obligations.Votes : Prop :=
  ∀ (s : State) (g : Group) (x : InsWord), curGroup s = some g → g.ok = true →
    let act := active g x
    let c := act.filter (fun l => (rdP g (modF x 2 0) l != x.mod.getLsbD 3) && (x.opa = .zero || src32 g x x.opa l ≠ 0))
    let pd := modF x 6 4
    (∃ h, exec (.voteEvery x) s = .next (finish s h) ∧ PredWritten g h pd act (fun _ => decide (∀ l ∈ act, l ∈ c)))
      ∧ (∃ h, exec (.voteSome x) s = .next (finish s h) ∧ PredWritten g h pd act (fun _ => decide (∃ l ∈ act, l ∈ c)))
      ∧ (∃ h, exec (.voteSame x) s = .next (finish s h)
          ∧ PredWritten g h pd act (fun _ => decide ((∀ l ∈ act, l ∈ c) ∨ ∀ l ∈ act, l ∉ c)))
      ∧ Computes (.voteMask x) s g x (if g.width = 64 then 2 else 1) (fun _ => (maskOf c).toNat)

/-- R146, R147: one result over the selected lanes, and running sums; the float reductions go through the fixed tree of R49 and R50
over all the group's lanes, an absent lane taking no part. -/
def Obligations.ReduceAndScan : Prop :=
  (∀ (s : State) (g : Group) (x : InsWord), curGroup s = some g → g.ok = true →
    let b := (active g x).filter (fun l => rdP g (modF x 6 4) l != x.mod.getLsbD 7)
    let u : Bool := x.mod.getLsbD 0
    let v (l : Nat) : Nat := src32 g x x.opa l
    let e (l : Nat) : Int := ext u (v l) 32
    (Computes (.reduxAdd x) s g x 1 (fun _ => fit u (x.mod.getLsbD 1) (b.map e).sum 32))
      ∧ (∃ r, Computes (.reduxMin x) s g x 1 (fun _ => r) ∧ (∀ l ∈ b, ext u r 32 ≤ e l)
          ∧ ((∃ l ∈ b, r = v l) ∨ (b = [] ∧ r = if u then 2 ^ 32 - 1 else 2 ^ 31 - 1)))
      ∧ (∃ r, Computes (.reduxMax x) s g x 1 (fun _ => r) ∧ (∀ l ∈ b, e l ≤ ext u r 32)
          ∧ ((∃ l ∈ b, r = v l) ∨ (b = [] ∧ r = if u then 0 else 2 ^ 31)))
      ∧ (∃ r, Computes (.reduxAnd x) s g x 1 (fun _ => r) ∧ r < 2 ^ 32 ∧ ∀ i, i < 32 → (bit r i = true ↔ ∀ l ∈ b, bit (v l) i = true))
      ∧ (∃ r, Computes (.reduxOr x) s g x 1 (fun _ => r) ∧ r < 2 ^ 32 ∧ ∀ i, i < 32 → (bit r i = true ↔ ∃ l ∈ b, bit (v l) i = true))
      ∧ (∃ r, Computes (.reduxXor x) s g x 1 (fun _ => r) ∧ r < 2 ^ 32
          ∧ ∀ i, i < 32 → (bit r i = true ↔ (b.filter (fun l => bit (v l) i)).length % 2 = 1))
      ∧ Computes (.scanInc x) s g x 1 (fun l => ((b.filter (fun m => m ≤ l)).map v).sum % 2 ^ 32)
      ∧ Computes (.scanExc x) s g x 1 (fun l => ((b.filter (fun m => m < l)).map v).sum % 2 ^ 32))
  ∧ (∀ (s : State) (g : Group) (x : InsWord), curGroup s = some g → g.ok = true →
    let y := f32Word g x
    let b := selected g y (modF y 6 4) (y.mod.getLsbD 7)
    let tree (f : Nat → Nat → Nat) (t : Nat → Nat → Option Nat) : Prop :=
      (∀ l, t 0 l = if l ∈ b then some (src32 g y y.opa l) else none)
        ∧ ∀ k i, t (k + 1) i = match t k (2 * i), t k (2 * i + 1) with
          | some p, some q => some (f p q)
          | some p, none => some p
          | none, q => q
    let reduces (i : Instr) (f : Nat → Nat → Nat) (identity : Nat) : Prop := ∃ t r, tree f t ∧ Computes i s g x 1 (fun _ => r)
      ∧ r = match t g.width.log2 0 with
        | some q => if b.length = 1 then canonF32 q else q
        | none => identity
    reduces (.reduxFadd x) (fun p q => roundF fmtF32 0 false (FVal.sum 0 [FVal.decode fmtF32 p, FVal.decode fmtF32 q])) 0
      ∧ reduces (.reduxFmin x) (minMaxF fmtF32 false) 0x7F800000
      ∧ reduces (.reduxFmax x) (minMaxF fmtF32 true) 0xFF800000)

/-- R148 to R150, R155: compaction, expansion, the byte crossbar and lane ids. -/
def Obligations.CompactExpandCross : Prop :=
  ∀ (s : State) (g : Group) (x : InsWord), curGroup s = some g → g.ok = true →
    let b := (active g x).filter (fun l => rdP g (modF x 8 6) l != x.mod.getLsbD 9)
    let e (l k : Nat) : Nat := ptabDesc s (ptabCore g) (modF x 3 0) (4 * l + k)
    let byte (l k : Nat) : Nat := if bit (e l k) 10 = true ∨ g.width ≤ e l k % 2 ^ 7 then 0
      else src32 g x (if bit (e l k) 9 then x.opb else x.opa) (e l k % 2 ^ 7) / 2 ^ (8 * (e l k / 2 ^ 7 % 4)) % 2 ^ 8
    (∃ h1, exec (.cmpr x) s = .next (finish s (if x.nw then h1 else wrS h1 (modF x 5 0) b.length))
        ∧ ResultWritten g h1 x 1 (List.range g.width) (fun i => ((b[i]?).map (fun l => src32 g x x.opa l)).getD 0))
      ∧ Computes (.expd x) s g x 1 (fun l => if l ∈ b then src32 g x x.opa ((b.filter (fun m => m < l)).length) else 0)
      ∧ Computes (.xbar x) s g x 1 (fun l =>
          byte l 0 + 2 ^ 8 * byte l 1 + 2 ^ 16 * byte l 2 + 2 ^ 24 * byte l 3)
      ∧ Computes (.laneid x) s g x (if modF x 1 0 = 0 ∨ g.width ≠ 64 then 1 else 2) (fun l =>
          (([l, 2 ^ l - 1, 2 ^ (l + 1) - 1, 2 ^ g.width - 2 ^ (l + 1)] : List Nat))[modF x 1 0]?.getD 0)

/-! ## Control (07_group.md) -/

/-- R169, R170: masks and predicates; `NOP` changes nothing. -/
def Obligations.MasksAndPredicates : Prop :=
  ∀ (s : State) (g : Group) (x : InsWord), curGroup s = some g → g.ok = true →
    let act := active g x
    let a : Nat := if g.width = 64 then src64 g x false x.opa 0 else src32 g x x.opa 0
    let p (k l : Nat) : Bool := rdP g k l
    exec .nop s = .next (finish s g)
      ∧ (∀ d, x.dst = .s d → ∃ h, exec (.emrd x) s = .next (finish s h)
          ∧ WrittenS g h d.toNat (if g.width = 64 then 2 else 1) (g.em.toNat % 2 ^ g.width))
      ∧ (modF x 1 0 < 3 → ∃ e : W64, exec (.emwr x) s = .next (finish s { g with em := e })
          ∧ ∀ l, l < 64 → e.getLsbD l = (decide (l < g.width)
              && (([bit a l && g.live.getLsbD l, g.em.getLsbD l && bit a l, g.em.getLsbD l && (p (modF x 4 2) l != x.mod.getLsbD 5)] : List Bool))[modF x 1 0]?.getD false))
      ∧ (∃ h, exec (.pset x) s = .next (finish s h)
          ∧ PredWritten g h (modF x 2 0) act (fun l => if x.mod.getLsbD 3 then decide (src32 g x x.opa l ≠ 0) else bit a l))
      ∧ (∃ h, exec (.plop x) s = .next (finish s h)
          ∧ PredWritten g h (modF x 2 0) act (fun l =>
              bit (src32 g x x.opa l) (2 * (p (modF x 5 3) l).toNat + (p (modF x 8 6) l).toNat)))

/-- R164, R171: the hint depth saturates at both ends, the release of the last hint ends a swap's deferral, and `YIELD` gives a new ready
stamp and clears ageing. -/
def Obligations.HintsAndYield : Prop :=
  ∀ (s : State) (g : Group) (x : InsWord), curGroup s = some g → g.core = s.cur.1 → g.slot = s.cur.2 →
    let on : Bool := !(active g x).isEmpty
    exec (.acqh x) s = .next (finish s (if on then { g with hint := min 15 (g.hint + 1) } else g))
      ∧ ((partOf s g.part).swap = false →
          exec (.relh x) s = .next (finish s (if on then { g with hint := g.hint - 1 } else g)))
      ∧ (on = true → (partOf s g.part).swap = true → ∃ t, exec (.relh x) s = .next t
          ∧ (Instr.swapProceed, ({ part := g.part } : Arg)) ∈ t.agenda ∧ t.groups = (finish s { g with hint := g.hint - 1 }).groups
          ∧ (g.part < s.parts.length → noHints (finish s { g with hint := g.hint - 1 }) g.part = true → (partOf t g.part).swapDue = true))
      ∧ (on = false → exec (.yield x) s = .next (finish s g))
      ∧ (on = true → g.live ≠ 0 → ∃ t h, exec (.yield x) s = .next t ∧ groupAt t g.core g.slot = some h
          ∧ h = { g with pc := nextPc g, stamp := s.clks + 1, since := s.clks + 1, aged := false, st := .ready, wait := .none
                         pfxW := none, sub := BitVec.allOnes 64, unit := none })

/-- R54, R55, R166, R167: a transfer is taken on its condition to an entry, else takes the illegal-entry fault with its link
unwritten; not taken it goes on at `Next`. Where the target's line cannot be read yet the group goes there and its `ENTRY` bit is
checked at the fetch, which may put the link back (R57; the model's reading, log entry 31). -/
def Obligations.Transfers : Prop :=
  ∀ (s : State) (g : Group) (x : InsWord), curGroup s = some g → g.ok = true →
    let act := active g x
    let ps (l : Nat) : Bool := rdP g (modF x 2 0) l != x.mod.getLsbD 3
    let rel : W64 := BitVec.ofNat 64 (g.pc.toNat / 64 * 64) + x.lit.signExtend 64
    let fault (pc : W64) : State := takeFault s g ⟨8, 5, pc.toNat, 0, 0⟩
    let look (pc : W64) : Option Bool := entryAt s (gBuf g) g.core g.ctx pc
    let goes (i : Instr) (c : Prop) (pc : W64) : Prop :=
      (c → look pc = some true → exec i s = .next (finishAt s g pc none))
        ∧ (c → look pc = some false → exec i s = .next (fault pc))
        ∧ (c → look pc = none → exec i s = .next (finishAt s { g with link := none } pc (some g.pc)))
        ∧ (¬ c → exec i s = .next (finish s g))
    let calls (i : Instr) (pc : W64) : Prop := ∀ d, x.dst = .s d →
      (act ≠ [] → look pc ≠ some false → ∃ h, exec i s = .next (finishAt s h pc (if look pc = none then some g.pc else none))
          ∧ WrittenS { g with link := h.link } h d.toNat 2 (nextPc g).toNat
          ∧ h.link = if look pc = none then some (d.toNat, rdSs g d.toNat 2) else g.link)
        ∧ (act ≠ [] → look pc = some false → exec i s = .next (fault pc))
        ∧ (act = [] → exec i s = .next (finish s g))
    goes (.bra x) (act ≠ []) rel
      ∧ goes (.braNone x) (g.em = 0) rel
      ∧ goes (.braAny x) (∃ l ∈ act, ps l = true) rel
      ∧ goes (.braAll x) (act ≠ [] ∧ ∀ l ∈ act, ps l = true) rel
      ∧ calls (.call x) rel
      ∧ (∀ a, x.opa = .s a →
          let pc : W64 := BitVec.ofNat 64 (rdS g a.toNat + 2 ^ 32 * rdS g (a.toNat + 1))
          goes (.brx x) (act ≠ []) pc ∧ goes (.ret x) (act ≠ []) pc ∧ calls (.callx x) pc)

/-- R168, R175: `EXIT` removes the active lanes; `BPT` has no effect with the debug flag clear, and with it set stops the context
with reason 13 at `Next`. -/
def Obligations.ExitAndBreakpoint : Prop :=
  ∀ (s : State) (g : Group) (x : InsWord), curGroup s = some g → groupAt s g.core g.slot = some g →
    let act := active g x
    let dbg : Bool := match ctxOf s g.ctx with | some c => c.dbg | none => false
    (∃ (u : State) (m e : W64), exec (.exit x) s = .next (finish u { g with live := m, em := e })
        ∧ (g.pk = [] → u = s)
        ∧ ∀ l, l < 64 → g.width ≤ 64 → m.getLsbD l = (g.live.getLsbD l && decide (l ∉ act)) ∧ e.getLsbD l = (g.em.getLsbD l && decide (l ∉ act)))
      ∧ (act = [] ∨ dbg = false ∨ g.kind = .tailor → exec (.bpt x) s = .next (finish s g))
      ∧ (∀ c, act ≠ [] → ctxOf s g.ctx = some c → c.dbg = true → g.kind ≠ .tailor → g.iss.restart = none →
          ∃ t c', exec (.bpt x) s = .next t ∧ ctxOf t g.ctx = some c' ∧ c'.line = true
            ∧ c'.faults = c.faults ++ [⟨none, g.core, g.slot, 13, 0, g.pc, nextPc g, 0, 0, 0, 0⟩]
            ∧ ∃ h, groupAt t g.core g.slot = some h ∧ h.pc = nextPc g ∧ h.st = .ready ∧ h.v = g.v ∧ h.s = g.s ∧ h.p = g.p)

/-- R172, R173: a request is written in the slot's record, but for the tailor's status word, and counted on the mailbox barrier, and its group waits for the reply. -/
def Obligations.Requests : Prop :=
  ∀ (s : State) (g : Group) (x : InsWord), curGroup s = some g → groupAt s g.core g.slot = some g → s.ok = true →
    let seq : W32 := SMap.get 0 s.reqSeq (g.core * 128 + g.slot) + 1
    let sent (i : Instr) (kind fn : Nat) (payload : Nat → Nat) (trap : Bool) (sd sA : Nat) : Prop :=
      ∃ u, exec i s = .next (if (barAt u (mailboxBar g.core)).valid then
            groupArrive u g (mailboxBar g.core) (fun b => arriveB b 1) else u)
        ∧ (let r (o n : Nat) : Nat := memVal u.scr (reqAddr g.core g.slot + o) n
           r 0 2 = kind ∧ r 2 2 = g.slot % 2 ^ 16 ∧ r 4 4 = fn % 2 ^ 32 ∧ r 8 8 = g.pc.toNat ∧ r 16 8 = g.em.toNat
             ∧ r 24 4 = seq.toNat ∧ r 28 4 = memVal s.scr (reqAddr g.core g.slot + 28) 4 ∧ ∀ k, k < 8 → r (32 + 4 * k) 4 = payload k)
        ∧ (∀ a, ¬ (reqAddr g.core g.slot ≤ a ∧ a < reqAddr g.core g.slot + 64) → memGet u.scr a = memGet s.scr a)
        ∧ u.mem = s.mem ∧ u.mbx = s.mbx ++ [⟨g.uid, g.core, g.slot, seq, g.ctx, false, false⟩]
        ∧ groupAt u g.core g.slot = some { g with vc := (released g).vc, st := .waiting
                                                  wait := .reply (replyBar g.core g.slot)
                                                    (BitVec.ofNat 16 (memVal s.scr (replyBar g.core g.slot) 2)) trap sd sA }
    (active g x = [] → exec (.req x) s = .next (finish s g) ∧ exec (.trap x) s = .next (finish s g))
      ∧ (active g x ≠ [] → sent (.trap x) 2 x.lit.toNat (fun _ => 0) true 0 0)
      ∧ (active g x ≠ [] → ∀ d a, x.dst = .s d → x.opa = .s a →
          sent (.req x) 1 (src32 g x x.opb 0) (fun k => rdS g (a.toNat + k)) false d.toNat a.toNat)

/-! ## Memory instructions (09_page.md) -/

/-- R194 to R196, R204, R210 to R215, R225, R227, R228: loads. Inside the part each active lane gets the little-endian bytes at its location,
sign-extended for `.i8` and `.i16`; an uniform load makes one access for the group. What the checks refuse faults, or is switched off. A lane's
load outside the part starts a read of a port's bus, or a read request over the link (its payload the length, log entry 25), which holds the
group where the page or an acquire blocks. -/
def Obligations.Loads : Prop :=
  (∀ (s : State) (g : Group) (x : InsWord) (loc : Nat → Loc), curGroup s = some g → g.ok = true →
    let act := active g x
    let ready (z : Nat) (lanes : List Nat) : Prop := ∀ l ∈ lanes, LaneReady s g x (offOf g x) z (.ld z) false l (loc l)
    let val (z l i : Nat) : Nat := wordOfVal (locVal s z (loc l)) i
    (∀ k r, x.dst = .v r → ready (ldBytes k) act → NoRace s g (ldBytes k) act loc →
        ∃ u h, exec (.ld k x) s = .next (finish u h) ∧ ReadsOnly s u
          ∧ LoadedV g h r.toNat (regsOf (ldBytes k)) act (fun l i =>
              match k with
              | .i8 => (sext (val 1 l 0) 8 % (2 ^ 32 : Nat)).toNat
              | .i16 => (sext (val 2 l 0) 16 % (2 ^ 32 : Nat)).toNat
              | _ => val (ldBytes k) l i))
      ∧ (∀ k r, x.dst = .v r → ready (aqBytes k) act →
          ∃ u h, exec (.ldAcq k x) s = .next (finish u h) ∧ ReadsOnly s u
            ∧ LoadedV g h r.toNat (regsOf (aqBytes k)) act (val (aqBytes k)))
      ∧ (∀ k r l rest, x.dst = .s r → act = l :: rest → ready (ucBytes k) [l] → NoRace s g (ucBytes k) [l] loc →
          ∃ u h, exec (.ldc k x) s = .next (finish u h) ∧ ReadsOnly s u
            ∧ LoadedS g h r.toNat (regsOf (ucBytes k)) (val (ucBytes k) l)))
  ∧ (∀ (s : State) (g : Group) (x : InsWord), curGroup s = some g →
    (∀ k, LaneChecks (.ld k x) s g x (active g x) (offOf g x) (ldBytes k) (.ld (ldBytes k)) false)
      ∧ (∀ k, LaneChecks (.ldAcq k x) s g x (active g x) (offOf g x) (aqBytes k) (.ld (aqBytes k)) false)
      ∧ (∀ k, LaneChecks (.ldc k x) s g x ((active g x).take 1) (offOf g x) (ucBytes k) (.ld (ucBytes k)) false))
  ∧ (∀ (s : State) (g : Group) (x : InsWord) (l : Nat), curGroup s = some g → active g x = [l] →
    let starts (i : Instr) (z : Nat) (sgn : Bool) (acq : Option Nat) : Prop := ∀ a loc e, LaneOut s g x (offOf g x) z (.ld z) false l a loc e →
      (mayStart s g z e = false → ∃ u, exec i s = .next (stallOf u g) ∧ ReadsOnly s u)
        ∧ (mayStart s g z e = true → extUp s e = false → ∃ u, exec i s = .next (takeFault u g ⟨6, 0, a, maskOf [l], 0⟩) ∧ ReadsOnly s u)
        ∧ (∀ d, mayStart s g z e = true → e.dev = some d → routeOf s d = none →
            ∃ u, exec i s = .next (lateFault (finish u g) g.ctx g.core g.slot 6 g.pc a) ∧ ReadsOnly s u)
        ∧ (mayStart s g z e = true → extUp s e = true → (∀ d, e.dev = some d → routeOf s d ≠ none) → ∃ (b u : State) (p : PendLoad),
            exec i s = .next (goesOrHeld u { g with loads := g.loads ++ [p] } (e.blocks = true ∨ acq ≠ none) p.tag) ∧ ReadsOnly s b
              ∧ u = { b with nextId := u.nextId, xacts := u.xacts, out := u.out }
              ∧ p.dst = x.dst ∧ p.words = regsOf z ∧ p.bytes = z ∧ p.signed = sgn ∧ p.lanes = [l] ∧ p.addrs = [e.addr] ∧ p.vas = [a]
              ∧ p.port = e.port ∧ p.dev = e.dev ∧ p.pc = g.pc ∧ p.acq = acq ∧ p.fatom = false ∧ (p.blocking = true ↔ e.blocks = true ∨ acq ≠ none)
              ∧ (∀ n, e.port = some n → e.dev = none → u.xacts = s.xacts
                  ∧ u.out = b.out ++ [if e.peer || e.cxl then .busRead n e.addr z else .hostRead n e.addr z])
              ∧ ∀ d port, e.dev = some d → routeOf s d = some port → SendsXact s b u d port 1 p.tag e.addr false (leBytes 2 z))
    (∀ k, starts (.ld k x) (ldBytes k) (decide (k = .i8 ∨ k = .i16)) none)
      ∧ (∀ k, starts (.ldAcq k x) (aqBytes k) false (some (modF x 7 6)))
      ∧ (∀ k, starts (.ldc k x) (ucBytes k) false none))

/-- R174, R194 to R196, R198, R204, R210, R212, R214, R221, R225, R226, R228, R335: stores inside the part write each lane's low bytes, the
highest lane last, and nothing else of the memories changes; a store of one lane to a device register is that register's write by the group;
a tailor's reply to a request whose context is swapped out goes into the saved image. What the checks refuse faults, or is switched off. A
lane's store outside the part starts a posted write of a port, or a write over the link, and holds its group only where its page does. A
store's group goes on with a later count in the model's order of R294 (`released`). -/
def Obligations.Stores : Prop :=
  (∀ (s : State) (g : Group) (x : InsWord) (loc : Nat → Loc), curGroup s = some g → s.ok = true →
    let act := active g x
    let data (z l : Nat) : List Byte := leBytes z (if z = 16 then (match x.opc with | .v n => rdVs g n.toNat l 4 | _ => 0)
      else if z = 8 then src64 g x false x.opc l else src32 g x x.opc l)
    let ready (z : Nat) : Prop := StaysHere s g act loc
      ∧ ∀ l ∈ act, LaneReady s g x (offOf g x) z (.st z) true l (loc l) ∧ (loc l).aligned z = true
    let stored (z : Nat) (u : State) : Prop := StoresOnly s u ∧ OtherBytesKept s u z act loc
      ∧ ∀ l ∈ act, (∀ m ∈ act, l < m → (loc l).same (loc m) = false) →
          (∀ a, loc l = .scr a → memBytes u.scr a z = data z l) ∧ (∀ a t d, loc l = .dram a t d → dramBytes u a z = data z l)
    (∀ k, ready (stBytes k) → NoRace s g (stBytes k) act loc →
        ∃ u, exec (.st k x) s = .next (finish u (if act = [] then g else released g)) ∧ stored (stBytes k) u)
      ∧ (∀ k, act ≠ [] → ready (aqBytes k) → outstanding s g (modF x 7 6 = 3) = false →
          ∃ u, exec (.stRel k x) s = .next (finish u (released g)) ∧ stored (aqBytes k) u))
  ∧ (∀ (s : State) (g : Group) (x : InsWord) (k : StKind) (l pa : Nat), curGroup s = some g → active g x = [l] → stBytes k ≤ 8 →
    LaneReady s g x (offOf g x) (stBytes k) (.st (stBytes k)) true l (.reg pa) →
    ∃ u, exec (.st k x) s = .next (finish (regStore u (.group g.core g.slot) pa (stBytes k)
        ((if stBytes k = 8 then src64 g x false x.opc l else src32 g x x.opc l) % 2 ^ (8 * stBytes k))) (released g))
      ∧ ReadsOnly s u)
  ∧ (∀ (s : State) (g : Group) (x : InsWord) (k : StKind) (l a c a' : Nat), curGroup s = some g → active g x = [l] → stBytes k ≤ 8 →
    LaneReady s g x (offOf g x) (stBytes k) (.st (stBytes k)) true l (.scr a) → NoRace s g (stBytes k) [l] (fun _ => .scr a) →
    awayScr s g a = some (some c, a') → Memory.wf (imageScr s c) = true →
    ∃ u, exec (.st k x) s = .next (finish u (released g)) ∧ u.scr = s.scr ∧ u.mem = s.mem
      ∧ memBytes (imageScr u c) a' (stBytes k)
          = leBytes (stBytes k) (if stBytes k = 8 then src64 g x false x.opc l else src32 g x x.opc l))
  ∧ (∀ (s : State) (g : Group) (x : InsWord), curGroup s = some g →
    (∀ k, LaneChecks (.st k x) s g x (active g x) (offOf g x) (stBytes k) (.st (stBytes k)) true)
      ∧ (∀ k, outstanding s g (modF x 7 6 = 3) = false →
          LaneChecks (.stRel k x) s g x (active g x) (offOf g x) (aqBytes k) (.st (aqBytes k)) true))
  ∧ (∀ (s : State) (g : Group) (x : InsWord) (l : Nat), curGroup s = some g → active g x = [l] →
    let data (z : Nat) : List Byte := leBytes z (if z = 16 then (match x.opc with | .v n => rdVs g n.toNat l 4 | _ => 0)
      else if z = 8 then src64 g x false x.opc l else src32 g x x.opc l)
    let starts (i : Instr) (z : Nat) (sys : Bool) : Prop := ∀ a loc e, LaneOut s g x (offOf g x) z (.st z) true l a loc e →
      let kept (b u : State) : Prop := ReadsOnly s b ∧ u = { b with nextId := u.nextId, rels := u.rels, posted := u.posted, xacts := u.xacts, out := u.out }
      (mayStart s g z e = false → ∃ u, exec i s = .next (stallOf u g) ∧ ReadsOnly s u)
        ∧ (mayStart s g z e = true → (∀ n, e.port = some n → extUp s e = false) → (∀ d, e.dev = some d → routeOf s d = none) →
            ∃ b u, exec i s = .next (lateFault (finish u (released g)) g.ctx g.core g.slot 6 g.pc a) ∧ kept b u)
        ∧ (∀ n, mayStart s g z e = true → e.port = some n → e.dev = none → extUp s e = true → ∃ (b u : State) (q : Posted),
            exec i s = .next (goesOrHeld u (released g) (e.peer = true) q.tag) ∧ kept b u ∧ u.posted = s.posted ++ [q] ∧ u.xacts = s.xacts
              ∧ q.guid = g.uid ∧ q.core = g.core ∧ q.slot = g.slot ∧ q.ctx = g.ctx ∧ q.port = n ∧ q.peer = e.peer ∧ q.cxl = e.cxl
              ∧ q.addr = e.addr ∧ q.data = data z ∧ q.pc = g.pc ∧ q.va = a ∧ q.flushed = false
              ∧ u.out = b.out ++ [if e.peer || e.cxl then .busWrite n e.addr (data z) else .hostWrite n e.addr (data z)])
        ∧ (∀ d port, mayStart s g z e = true → e.dev = some d → routeOf s d = some port → ∃ (b u : State) (tag : Nat),
            exec i s = .next (goesOrHeld u (released g) (e.blocks = true) tag) ∧ kept b u ∧ u.posted = s.posted
              ∧ SendsXact s b u d port (if e.blocks || sys then 4 else 3) tag e.addr sys (data z))
    (∀ k, starts (.st k x) (stBytes k) false)
      ∧ (∀ k, outstanding s g (modF x 7 6 = 3) = false → starts (.stRel k x) (aqBytes k) (decide (modF x 7 6 = 3))))

/-- R216: `LDS` delivers a block's codes and cuff, or its elements decoded by R40, and nothing else. -/
def Obligations.ShapedLoads : Prop :=
  ∀ (s u : State) (g g' : Group) (x : InsWord) (r : BitVec 8) (ls : List LaneAcc) (q : Nat → ShapedAcc) (c b : Nat → Nat),
    curGroup s = some g → g.ok = true → x.dst = .v r →
    prepare s g x (active g x) (offOf g x) (if modF x 7 6 = 1 then 2 else 4) (if modF x 7 6 = 1 then 2 else 4)
      (.lds (decide (modF x 7 6 ≠ 0))) false = .go u g' ls →
    (∀ y ∈ ls, shapedAcc u (gBuf g') g'.ctx y = .ok (q y.l) ∧ (q y.l).l = y.l ∧ y.l < 64) →
    (∀ y ∈ ls, ∃ cp bytes, (q y.l).cuff = .ok cp ∧ unitBytes u cp.2 (q y.l).cuffVa 2 = .ok bytes ∧ c y.l = leVal bytes) →
    (modF x 7 6 ≠ 0 → ∀ y ∈ ls, ∃ bp bytes, (q y.l).band = .ok bp ∧ unitBytes u bp.2 (q y.l).bandVa 2 = .ok bytes ∧ b y.l = leVal bytes) →
    let lanes := ls.map (fun y => y.l)
    let code (l k : Nat) : Nat := dramVal u ((q l).pa + k / 2) 1 / 2 ^ (4 * (k % 2)) % 16
    let v (l k : Nat) : FVal := sb4Decode ((cuffSel (c l)).getD 0) (code l k) (c l) (b l)
    g'.ok = true → lanes.Nodup →
    ∃ t h, exec (.lds x) s = .next (finish t h) ∧ t = { u with rows := t.rows, agenda := t.agenda, out := t.out, nextId := t.nextId }
      ∧ LoadedV g' h r.toNat (if modF x 7 6 = 0 then 2 else 4) lanes (fun l i =>
          match modF x 7 6, i with
          | 0, 0 => dramVal u (q l).pa 4
          | 0, _ => c l
          | 1, i => rnF32 (v l i) % 2 ^ 32
          | _, i => (roundF fmtBf16 0 false (v l (2 * i)) + 65536 * roundF fmtBf16 0 false (v l (2 * i + 1))) % 2 ^ 32)

/-- R217: `STQ` stores each lane's four code bytes and its cuff, as R41 quantises them; no register changes. -/
def Obligations.ShapedStores : Prop :=
  ∀ (s u : State) (g g' : Group) (x : InsWord) (ls : List LaneAcc) (q : Nat → ShapedAcc) (codes cuff cp : Nat → Nat),
    curGroup s = some g → u.ok = true →
    prepare s g x (active g x) (memOff g x (modF x 5 4) false) 4 4 .stq true = .go u g' ls →
    (∀ y ∈ ls, shapedAcc u (gBuf g') g'.ctx y = .ok (q y.l) ∧ (q y.l).l = y.l
      ∧ (∃ e lat d, (q y.l).cuff = .ok (e, .dram (cp y.l) lat d)) ∧ stqBlock g' x y.l = some (codes y.l, cuff y.l)) →
    let apart (a n b m : Nat) : Prop := a + n ≤ b ∨ b + m ≤ a
    (ls.map (fun y => y.l)).Nodup →
    ∃ t, exec (.stq x) s = .next (finish t (if ls = [] then g' else released g')) ∧ StoresOnly u t ∧ t.scr = u.scr
      ∧ (∀ a, (∀ y ∈ ls, apart a 1 (q y.l).pa 4 ∧ apart a 1 (cp y.l) 2) → dramByte t a = dramByte u a)
      ∧ ∀ y ∈ ls, apart (cp y.l) 2 (q y.l).pa 4 →
          (∀ m ∈ ls, m.l ≠ y.l → apart (q m.l).pa 4 (q y.l).pa 4 ∧ apart (cp m.l) 2 (q y.l).pa 4
            ∧ apart (q m.l).pa 4 (cp y.l) 2 ∧ apart (cp m.l) 2 (cp y.l) 2) →
          dramVal t (q y.l).pa 4 = codes y.l % 2 ^ 32 ∧ dramVal t (cp y.l) 2 = cuff y.l % 2 ^ 16

/-- R194 to R196, R204, R220 to R222, R227, R228, R424: an atomic's lanes act in ascending order, each on what the lanes before it left; `ATOM`
returns the value each found, and `RED` writes no register. `CAS` compares first and stores second. What the checks refuse faults, or is
switched off. A lane's atomic on another device starts a request of kind 6 (its payload's layout is the model's, log entry 25), with a pending
load for its old value that holds the group where it is an acquire. -/
def Obligations.Atomics : Prop :=
  (∀ (s : State) (g : Group) (x : InsWord) (loc : Nat → Loc) (w : Bool), curGroup s = some g → s.ok = true → g.ok = true →
    active g x ≠ [] → StaysHere s g (active g x) loc →
    outstanding s g (modF x 8 7 = 3) = false ∨ modF x 6 5 < 2 →
    let act := active g x
    let u := x.mod.getLsbD 4
    let run (i : Bool → Instr) (w : Bool) (dst : Option Nat) (new : Nat → Nat → Nat) : Prop :=
      let z := if w then 8 else 4
      (∀ l ∈ act, LaneReady s g x (memOff g x 0 (x.mod.getLsbD 3)) z .atom true l (loc l) ∧ (loc l).aligned z = true) →
      ∃ (t : State) (h : Group) (old : Nat → Nat), exec (i w) s = .next (finish t h) ∧ StoresOnly s t ∧ OtherBytesKept s t z act loc
        ∧ (∀ l ∈ act, old l = (match (act.filter (fun m => m < l && (loc m).same (loc l))).getLast? with
            | some m => new m (old m) % 2 ^ (8 * z)
            | none => locVal s z (loc l)))
        ∧ (∀ l ∈ act, (∀ m ∈ act, l < m → (loc m).same (loc l) = false) → locVal t z (loc l) = new l (old l) % 2 ^ (8 * z))
        ∧ (match dst with
           | some r => LoadedV g h r (if w then 2 else 1) act (fun l j => wordOfVal (old l) j)
           | none => h = { g with vc := h.vc, seen := h.seen })
    let n : Nat := if w then 64 else 32
    let d (l : Nat) : Nat := src g x w false x.opc l
    let pick (less : Int → Int → Bool) (l o : Nat) : Nat := if less (ext u (d l) n) (ext u o n) then d l else o
    let both (a b : Bool → InsWord → Instr) (new : Nat → Nat → Nat) : Prop :=
      (∀ r, x.dst = .v r → run (fun w => a w x) w (some r.toNat) new) ∧ run (fun w => b w x) w none new
    both .atomAdd .redAdd (fun l o => o + d l)
      ∧ both .atomMin .redMin (pick (fun a b => decide (a < b)))
      ∧ both .atomMax .redMax (pick (fun a b => decide (b < a)))
      ∧ both .atomAnd .redAnd (fun l o => o &&& d l)
      ∧ both .atomOr .redOr (fun l o => o ||| d l)
      ∧ both .atomXor .redXor (fun l o => o ^^^ d l)
      ∧ (∀ r, x.dst = .v r → run (fun w => .atomExch w x) w (some r.toNat) (fun l _ => d l))
      ∧ (∀ r c, x.dst = .v r → x.opc = .v c → run (fun w => .atomCas w x) w (some r.toNat) (fun l o =>
          let k := if w then 2 else 1
          if o = rdVs g c.toNat l k then rdVs g (c.toNat + k) l k else o))
      ∧ (∀ r, x.dst = .v r → run (fun _ => .atomFadd x) false (some r.toNat) (fun l o => f32Add o (srcF g x .f32 x.opc l)))
      ∧ run (fun _ => .redFadd x) false none (fun l o => f32Add o (srcF g x .f32 x.opc l)))
  ∧ (∀ (s : State) (g : Group) (x : InsWord) (w : Bool), curGroup s = some g → outstanding s g (modF x 8 7 = 3) = false ∨ modF x 6 5 < 2 →
    let ops (b : Bool) : List (Nat × Bool × Instr) := [(0, true, .atomAdd b x), (1, true, .atomMin b x), (2, true, .atomMax b x), (3, true, .atomAnd b x),
      (4, true, .atomOr b x), (5, true, .atomXor b x), (6, true, .atomExch b x), (7, true, .atomCas b x), (0, false, .redAdd b x),
      (1, false, .redMin b x), (2, false, .redMax b x), (3, false, .redAnd b x), (4, false, .redOr b x), (5, false, .redXor b x)]
    let all : List (Nat × Bool × Bool × Instr) := (ops w).map (fun q => (q.1, w, q.2)) ++ [(8, false, true, .atomFadd x), (8, false, false, .redFadd x)]
    let off := memOff g x 0 (x.mod.getLsbD 3)
    ∀ q ∈ all,
      let code := q.1
      let wide := q.2.1
      let ret := q.2.2.1
      let i := q.2.2.2
      let z := if wide then 8 else 4
      LaneChecks i s g x (active g x) off z .atom true
        ∧ ∀ l a loc e d, active g x = [l] → LaneOut s g x off z .atom true l a loc e → e.dev = some d →
          let acq : Bool := modF x 6 5 % 2 = 1
          let sys : Bool := 2 ≤ modF x 6 5 && modF x 8 7 = 3
          let k := if wide then 2 else 1
          let data : Nat := match code, x.opc with
            | 7, .v c => rdVs g (c.toNat + k) l k
            | 8, o => srcF g x .f32 o l
            | _, o => src g x wide false o l
          let cmp : Nat := match code, x.opc with | 7, .v c => rdVs g c.toNat l k | _, _ => 0
          let pay := leBytes 1 code ++ leBytes 1 z ++ leBytes 1 (x.mod.getLsbD 4).toNat ++ leBytes 1 (modF x 8 5) ++ leBytes 8 data ++ leBytes 8 cmp
          (mayStart s g 20 e = false → ∃ u, exec i s = .next (stallOf u g) ∧ ReadsOnly s u)
            ∧ (mayStart s g 20 e = true → routeOf s d = none →
                ∃ u, exec i s = .next (lateFault (finish u (released g)) g.ctx g.core g.slot 6 g.pc a) ∧ ReadsOnly s u)
            ∧ (∀ port, mayStart s g 20 e = true → routeOf s d = some port → code ≠ 7 ∨ (∃ c, x.opc = .v c) → ∃ (b u : State) (p : PendLoad),
                exec i s = .next (if ret then goesOrHeld u { released g with loads := g.loads ++ [p] } (acq = true) p.tag else finish u (released g))
                  ∧ ReadsOnly s b ∧ u = { b with nextId := u.nextId, rels := u.rels, xacts := u.xacts, out := u.out }
                  ∧ p.dst = x.dst ∧ p.words = k ∧ p.bytes = z ∧ p.lanes = [l] ∧ p.addrs = [e.addr] ∧ p.dev = some d ∧ p.pc = g.pc ∧ p.fatom = true
                  ∧ SendsXact s b u d port 6 p.tag e.addr sys pay))

/-- R223, R224, R295, R300, R303: a fence is performed once nothing of its group is outstanding, makes the releases its earlier relaxed
reads saw acquired, and with `FETCH` discards the core's fetched lines of the context; one that names `LSU` orders what its group has
seen before later commands to the paths it names. Else its group stays at it, and at `.sys` a flushing read goes behind its posted
host stores. -/
def Obligations.Fences : Prop :=
  ∀ (s : State) (g : Group) (x : InsWord), curGroup s = some g → active g x ≠ [] → SMap.wf 0 g.vc = true →
    let sc := modF x 4 3
    let c (i : Nat) : Bool := x.mod.getLsbD (3 + i)
    let fenced (h : Group) (scope : Nat) : Prop := h = { g with vc := h.vc, fences := h.fences, xfences := h.xfences, fetched := h.fetched }
      ∧ ∃ v, (scope, v) ∈ h.fences ∧ ∀ r ∈ g.seen, relCovers r g scope = true → SMap.wf 0 r.vc = true →
          ∀ k, SMap.get 0 r.vc k ≤ SMap.get 0 v k
    let stays (i : Instr) (sys : Prop) : Prop := ∃ u, exec i s = .next (stallOf u g) ∧ u = { s with posted := u.posted, out := u.out }
      ∧ (¬ sys → u = s)
      ∧ (sys → ∀ q ∈ u.posted, q.guid = g.uid → q.port < 2 → q.peer = false → q.cxl = false → q.flushed = true)
    (outstanding s g (sc = 3) = false → ∃ h, exec (.fence x) s = .next (finish s h) ∧ fenced h sc ∧ h.xfences = g.xfences
        ∧ h.fetched = g.fetched)
      ∧ (outstanding s g (sc = 3) = true → stays (.fence x) (sc = 3))
      ∧ (outstanding s g (c 4) = false → ∃ h u, exec (.fenceX x) s = .next (finish u h)
          ∧ u = { s with ibuf := u.ibuf }
          ∧ (∀ l, l ∈ u.ibuf ↔ l ∈ s.ibuf ∧ ¬ (c 6 = true ∧ l.core = g.core ∧ l.ctx = g.ctx))
          ∧ (if c 0 then fenced h (if c 4 then 3 else 2) ∧ ∀ k, 1 ≤ k → k ≤ 6 → c k = true →
                ∃ v, (k, v) ∈ h.xfences ∧ ∀ i, SMap.get 0 g.vc i ≤ SMap.get 0 v i
             else h = { g with xfences := h.xfences, fetched := h.fetched })
          ∧ (c 6 = false → h.fetched = g.fetched))
      ∧ (outstanding s g (c 4) = true → stays (.fenceX x) (c 4 = true))

/-- R153, R218: `LDMT` gives each active lane its elements of the tile rows, and `XPLD` fills its table from scratchpad. -/
def Obligations.TilesAndTables : Prop :=
  ∀ (s : State) (g : Group) (x : InsWord), curGroup s = some g → g.ok = true → s.ok = true → active g x ≠ [] →
    let act := active g x
    (∀ (b8 : Bool) (r : BitVec 8) (row : Nat → Nat), x.dst = .v r → g.width = 32 ∨ g.width = 64 →
        (∀ l ∈ tileLanes g.width (if b8 then 32 else 16), placeIn g (modF x 2 0) (offOf g x l) 32 l = .scr (row l)
          ∧ offOf g x l % 32 = 0 ∧ raceAt s g (row l) 32 = none) →
        (∀ l ∈ act, g.live.getLsbD l = true) →
        let e (n l i j : Nat) : Nat := memVal s.scr (row (32 * (l / 32) + i) + n * j) n
        ∃ h, exec (.ldmt b8 x) s = .next (finish s h)
          ∧ LoadedV g h r.toNat (if b8 then 8 else 4) act (fun l k =>
              let t := l % 32
              if b8 then e 1 l (4 * k) t + 2 ^ 8 * e 1 l (4 * k + 1) t + 2 ^ 16 * e 1 l (4 * k + 2) t + 2 ^ 24 * e 1 l (4 * k + 3) t
              else e 2 l (8 * (t % 2) + 2 * k) (t / 2) + 2 ^ 16 * e 2 l (8 * (t % 2) + 2 * k + 1) (t / 2)))
      ∧ (∀ a : Nat, sext (src32 g x x.opa 0) 32 = (a : Int) → a % 4 = 0 →
          let sg := segWin g (modF x 2 0)
          let t := modF x 6 3
          let base := ptabBase (ptabCore g) t
          a + 384 ≤ sg.limit → s.ptLock.contains (ptabCore g * 16 + t) = false →
          (∀ i, i < 96 → raceAt s g (segAddr sg (a + 4 * i)) 4 = none) →
          ∃ u h, exec (.xpld x) s = .next (finish u h) ∧ u = { s with ptab := u.ptab } ∧ h = { g with vc := h.vc, seen := h.seen }
            ∧ (∀ i j, i < 96 → j < 4 → SMap.get 0 u.ptab (base + 4 * i + j) = memGet s.scr (segAddr sg (a + 4 * i) + j))
            ∧ ∀ k, ¬ (base ≤ k ∧ k < base + 384) → SMap.get 0 u.ptab k = SMap.get 0 s.ptab k)

/-! ## Barriers and racks (10_barrier.md) -/

/-- R174, R232, R234, R237 to R243: each barrier instruction on a barrier that its checks accept changes the object as its rule says, and no other
byte of scratchpad (a tailor's arrival for a request whose context is swapped out changes the reply barrier in the saved image). An arrival,
landing or `EXPECT` (`barEvent`) after which the phase waited for has ended takes a waiting group of a running context on at `Next`, and one
after which it has not leaves it waiting; `BINIT` releases it where the new phase is another, `BINV` of a valid barrier always, each without
an acquire. -/
def Obligations.BarrierInstructions : Prop :=
  (∀ (s : State) (g : Group) (x : InsWord), curGroup s = some g → active g x ≠ [] → s.ok = true →
    let a := src32 g x x.opa 0
    let sg := segWin g (modF x 2 0)
    let ba := segAddr sg a
    let b := barAt s ba
    let n := src32 g x x.opb 0
    let keeps (u : State) : Prop := ∀ k, ¬ (ba ≤ k ∧ k < ba + 16) → memGet u.scr k = memGet s.scr k
    let event (y : Barrier) : Barrier := if y.valid = true ∧ y.penda = 0 ∧ y.pendb = 0 then
      { y with phase := y.phase + 1, penda := y.expa, pendb := y.expb } else y
    let leaves (i : Instr) (h : Group) (y : Barrier) : Prop := ∃ u, exec i s = .next (finish u h) ∧ barAt u ba = y ∧ keeps u
    let arrived (home : Option (Nat × Nat)) (y : Barrier) : Prop := match home with
      | none => awayScr s g ba = none ∧ y = b
      | some (k, a') => awayScr s g ba = some (some k, a') ∧ Memory.wf (imageScr s k) = true ∧ y = barIn (imageScr s k) a'
    a % 16 = 0 → a + 16 ≤ sg.limit →
    (∀ nb, src32 g x x.opc 0 = nb → 1 ≤ n → n ≤ 65535 → nb < 2 ^ 31 → leaves (.binit x) g
        { pendb := BitVec.ofNat 32 nb, expb := BitVec.ofNat 32 nb, remote := x.mod.getLsbD 3, ovf := false, valid := true
          penda := BitVec.ofNat 16 n, expa := BitVec.ofNat 16 n, phase := if b.valid then b.phase + 1 else 0 })
      ∧ (∀ home y, arrived home y → y.valid = true → n ≤ 65535 → (x.mod.getLsbD 3 = true → n < y.expa.toNat) →
          outstanding s g false = false → ∃ u h, exec (.arrive x) s = .next (finish u (released h)) ∧ StatusWritten g h x y.phase.toNat
            ∧ (let c := if x.mod.getLsbD 3 then { y with expa := y.expa - BitVec.ofNat 16 n } else y
               let z := event (if y.penda.toNat < n then { c with ovf := true, penda := 0 } else { c with penda := y.penda - BitVec.ofNat 16 n })
               match home with
               | none => barAt u ba = z ∧ keeps u
               | some (k, a') => barIn (imageScr u k) a' = z ∧ u.scr = s.scr))
      ∧ (b.valid = true → x.mod.getLsbD 3 = true → n < 2 ^ 31 → leaves (.expect x) g (event { b with expb := BitVec.ofNat 32 n }))
      ∧ (b.valid = true → x.mod.getLsbD 3 = false → b.pendb.toInt + (n : Int) < (2 ^ 31 : Nat) →
          leaves (.expect x) g (event { b with pendb := b.pendb + BitVec.ofNat 32 n }))
      ∧ (b.valid = true → b.phase ≠ BitVec.ofNat 16 n → ∃ h, leaves (.waitph x) h b ∧ h = { g with vc := h.vc })
      ∧ (¬ (b.valid = true ∧ b.phase ≠ BitVec.ofNat 16 n) →
          exec (.waitph x) s = .next (setGroup s { g with st := .waiting, wait := .phase ba (BitVec.ofNat 16 n) }))
      ∧ (∃ h, leaves (.btest x) h b ∧ StatusWritten g h x (match modF x 4 3 with
          | 0 => b.phase.toNat + 2 ^ 16 * b.valid.toNat + 2 ^ 17 * b.ovf.toNat + 2 ^ 18 * b.remote.toNat
          | 1 => b.penda.toNat + 2 ^ 16 * b.expa.toNat
          | 2 => b.pendb.toNat
          | _ => b.expb.toNat))
      ∧ leaves (.binv x) g (if b.valid then { b with phase := b.phase + 1, penda := 0, pendb := 0, valid := false, ovf := false } else b))
  ∧ (∀ (s : State) (ba : Nat) (b : Barrier) (g : Group) (ph : BitVec 16), s.ok = true →
    s.groups = [g] → ctxRuns s g.ctx = true → g.st = .waiting → g.wait = .phase ba ph → g.live ≠ 0 →
    (∀ j ∈ s.jobs, j.wait = none) →
    let now : BitVec 16 := if b.penda = 0 ∧ b.pendb = 0 then b.phase + 1 else b.phase
    (b.valid = true → now ≠ ph →
        ∃ h, groupAt (barEvent s ba (fun _ => b)) g.core g.slot = some h ∧ h.st = .ready ∧ h.wait = .none ∧ h.pc = nextPc g
          ∧ h.v = g.v ∧ h.s = g.s ∧ h.p = g.p ∧ h.lat = g.lat)
      ∧ (b.valid = false ∨ now = ph → groupAt (barEvent s ba (fun _ => b)) g.core g.slot = some g))
  ∧ (∀ (s : State) (g h : Group) (x : InsWord) (ph : BitVec 16), curGroup s = some g → active g x ≠ [] → s.groups = [g, h] →
    (g.core, g.slot) ≠ (h.core, h.slot) → g.st = .ready → ctxRuns s h.ctx = true → h.st = .waiting → h.live ≠ 0 → (∀ j ∈ s.jobs, j.wait = none) →
    s.ok = true →
    let a := src32 g x x.opa 0
    let sg := segWin g (modF x 2 0)
    let b := barAt s (segAddr sg a)
    let n := src32 g x x.opb 0
    let goesOn (i : Instr) : Prop := ∃ t k, exec i s = .next t ∧ groupAt t h.core h.slot = some k ∧ k.st = .ready ∧ k.wait = .none
      ∧ k.pc = nextPc h ∧ k.v = h.v ∧ k.s = h.s ∧ k.p = h.p ∧ k.vc = h.vc ∧ k.seen = h.seen
    let stays (i : Instr) : Prop := ∃ t, exec i s = .next t ∧ groupAt t h.core h.slot = some h
    a % 16 = 0 → a + 16 ≤ sg.limit → h.wait = .phase (segAddr sg a) ph →
    (b.valid = true → goesOn (.binv x))
      ∧ (b.valid = false → stays (.binv x))
      ∧ (1 ≤ n → n ≤ 65535 → src32 g x x.opc 0 < 2 ^ 31 → let new : BitVec 16 := if b.valid then b.phase + 1 else 0
          (new ≠ ph → goesOn (.binit x)) ∧ (new = ph → stays (.binit x))))

/-- R237, R239 to R241, R387: what a barrier instruction's checks refuse: a misaligned object, an INVALID barrier, a count it
cannot hold; an offset out of range switches the active lanes off. -/
def Obligations.BarrierChecks : Prop :=
  ∀ (s : State) (g : Group) (x : InsWord), curGroup s = some g → active g x ≠ [] →
    let a := src32 g x x.opa 0
    let sg := segWin g (modF x 2 0)
    let b := barAt s (segAddr sg a)
    let at' := arriveBar s g (segAddr sg a)
    let n := src32 g x x.opb 0
    let named : Nat := match ctxOf s g.ctx with | some c => virtScr c (segAddr sg a) | none => segAddr sg a
    let faults (i : Instr) (reason : Nat) : Prop := ∃ d, exec i s = .next (takeFault s g ⟨reason, d, named, 0, 0⟩)
    (a + 16 ≤ sg.limit → a % 16 ≠ 0 → faults (.binit x) 7 ∧ faults (.arrive x) 7 ∧ faults (.expect x) 7 ∧ faults (.waitph x) 7
        ∧ faults (.btest x) 7 ∧ faults (.binv x) 7)
      ∧ (a + 32 ≤ sg.limit → a % 32 ≠ 0 → faults (.rkacq x) 7 ∧ faults (.rkrel x) 7)
      ∧ (a + 16 ≤ sg.limit → a % 16 = 0 → (n = 0 ∨ 65535 < n ∨ 2 ^ 31 ≤ src32 g x x.opc 0) → faults (.binit x) 2)
      ∧ (a + 16 ≤ sg.limit → a % 16 = 0 → b.valid = false → faults (.expect x) 2)
      ∧ (a + 16 ≤ sg.limit → a % 16 = 0 → at'.valid = false → faults (.arrive x) 2)
      ∧ (a + 16 ≤ sg.limit → a % 16 = 0 → at'.valid = true → (65535 < n ∨ (x.mod.getLsbD 3 = true ∧ at'.expa.toNat ≤ n)) →
          faults (.arrive x) 2)
      ∧ (sg.limit < a + 16 → ∀ i ∈ [Instr.binit x, .arrive x, .expect x, .waitph x, .btest x, .binv x, .rkacq x, .rkrel x],
          ∃ u h, exec i s = .next (finish u h) ∧ h = { g with live := h.live, em := h.em, lfault := h.lfault }
            ∧ u.scr = s.scr ∧ ∀ l ∈ active g x, l < 64 → h.live.getLsbD l = false ∧ h.em.getLsbD l = false ∧ h.lfault.getLsbD l = true)

/-- R250 to R252: `RKACQ` makes the next claim of its side and waits for the claimed slot's barrier to reach its round; `RKREL`
arrives once on the slot's barrier. -/
def Obligations.RackInstructions : Prop :=
  ∀ (s : State) (g : Group) (x : InsWord) (r : Rack), curGroup s = some g → active g x ≠ [] → s.ok = true →
    let a := src32 g x x.opa 0
    let sg := segWin g (modF x 2 0)
    let e := x.mod.getLsbD 3
    let c : W32 := if e then r.tail else r.head
    let i := c.toNat % 2 ^ r.log2n
    let ba := segAddr sg ((if e then r.ebase else r.fbase) + 16 * i)
    let t : BitVec 16 := BitVec.ofNat 16 (c.toNat / 2 ^ r.log2n + (if e then 0 else 1))
    let off := segAddr sg a + (if e then 24 else 20)
    let v := src32 g x x.opb 0
    a % 32 = 0 → a + 32 ≤ sg.limit → rackAt s (segAddr sg a) sg.limit = some r →
    (∀ d, x.dst = .s d → ∃ u, memVal u.scr off 4 = (c.toNat + 1) % 2 ^ 32
        ∧ (∀ k, ¬ (off ≤ k ∧ k < off + 4) → memGet u.scr k = memGet s.scr k) ∧ u = { s with scr := u.scr, stamps := u.stamps }
        ∧ (let b := barAt u ba
           if b.valid = true ∧ (b.phase - t).toNat < 2 ^ 15 then
             ∃ h w, exec (.rkacq x) s = .next (finish u h) ∧ WrittenS { g with vc := w } h d.toNat 1 (r.sbase + i * r.ssize)
           else exec (.rkacq x) s = .next (setGroup u { g with st := .waiting, wait := .rack ba t d.toNat (BitVec.ofNat 32 (r.sbase + i * r.ssize)) })))
      ∧ (∀ j, j < 2 ^ r.log2n → v = r.sbase + j * r.ssize → outstanding s g false = false →
          let bj := segAddr sg ((if e then r.ebase else r.fbase) + 16 * j)
          (barAt s bj).valid = true → exec (.rkrel x) s = .next (finish (groupArrive s g bj (fun b => arriveB b 1)) (released g)))

/-! ## Matrix (13_matrix.md) -/

/-- R310, R311, R319: `MMA` and `MMAZ` wait for their quad whatever `Active()` holds; four members with one instruction pass together,
each at `Next` with its operation in its quarter's array, and a member that differs takes the quad-mismatch fault, whose record names the
members' slots (in FADDR, the model's choice, log entry 45). -/
def Obligations.MatrixRendezvous : Prop :=
  ((∀ (s : State) (g : Group) (f : MForm) (x : InsWord) (i : Instr), i ∈ [Instr.mma f x, .mmaz f x] → curGroup s = some g →
      groupAt s g.core g.slot = some g →
      ∃ t, exec i s = .next t ∧ groupAt t g.core g.slot = some { g with st := .waiting, wait := .quad i }
        ∧ (Instr.quadRendezvous, ({ team := g.teamId, quad := g.index.toNat / 4 } : Arg)) ∈ t.agenda)
    ∧ (∀ (s : State) (m : Nat → Group) (i : Nat → Instr),
        (∀ q, q < 4 → quadMember s s.arg.team s.arg.quad q = some (m q) ∧ groupAt s (m q).core (m q).slot = some (m q)
          ∧ (m q).st = .waiting ∧ (m q).wait = .quad (i q) ∧ (m q).live ≠ 0 ∧ matKey (i q) = matKey (i 0) ∧ badCuff (m q) (i q) = none
          ∧ (matQueued s (m q).core ((m q).slot / 17)).length < 4) →
        (∀ p q, p < 4 → q < 4 → (m p).core = (m q).core → (m p).slot = (m q).slot → p = q) →
        ctxRuns s (m 0).ctx = true →
        ∃ t ops, exec .quadRendezvous s = .next t ∧ t.arrays = s.arrays ++ ops ∧ ops.length = 4
          ∧ (∀ q, q < 4 → ∃ op, ops[q]? = some op ∧ op.core = (m q).core ∧ op.quarter = (m q).slot / 17 ∧ op.guid = (m q).uid
              ∧ op.x = i q ∧ op.begun = false ∧ op.a = (memberFrags (m q) (i q)).1 ∧ op.c = (memberFrags (m q) (i q)).2.2
              ∧ op.b = (List.range 4).map (fun k => (memberFrags (m k) (i k)).2.1))
          ∧ ∀ q, q < 4 → ∃ h, groupAt t (m q).core (m q).slot = some h ∧ h.pc = nextPc (m q) ∧ h.st = .ready
              ∧ h.mseq = (m q).mseq + 1 ∧ h.v = (m q).v))
  ∧ (∀ (s : State) (m : Nat → Group) (i : Nat → Instr) (k : Nat), k < 4 →
    (∀ q, q < 4 → quadMember s s.arg.team s.arg.quad q = some (m q) ∧ (m q).st = .waiting ∧ (m q).wait = .quad (i q)
      ∧ (m q).ctx = (m 0).ctx ∧ (m q).kind ≠ .tailor ∧ ((i q) = (i ((k + 1) % 4)) ∨ q = k)) →
    matKey (i k) ≠ matKey (i ((k + 1) % 4)) → ctxRuns s (m 0).ctx = true →
    ∃ t c c', exec .quadRendezvous s = .next t ∧ t.arrays = s.arrays ∧ ctxOf s (m 0).ctx = some c ∧ ctxOf t (m 0).ctx = some c'
      ∧ c'.line = true ∧ ∃ r, c'.faults = c.faults ++ [r] ∧ r.reason = 9 ∧ r.core = (m k).core ∧ r.slot = (m k).slot ∧ r.pc = (m k).pc
        ∧ r.aux = (m k).mseq.setWidth 64 ∧ ∀ j, j < 4 → r.faddr.toNat / 2 ^ (8 * j) % 2 ^ 8 = (m j).slot % 2 ^ 8)

/-- R33 to R36, R40, R43, R45, R47, R313, R314, R317, R319: the oldest queued operation begins while fewer than six are in the pipeline; the
oldest begun one writes its D elements in the lanes active at its issue, lane l those of row l mod 32 from column (l div 32)·C on. Each element
of every form is the sum of the exact products of the A row's and the B column's elements, where their lanes hold them packed, fitted or
rounded as the form's rule says. -/
def Obligations.MatrixArrays : Prop :=
  (∀ (s : State) (op : MatOp) (rest : List MatOp),
    let c := s.arg.core
    let q := s.arg.quarter
    (matQueued s c q = op :: rest → (matBegun s c q).length < 6 →
        ∃ t, exec .mmaBegin s = .next t ∧ matQueued t c q = rest ∧ { op with begun := true } ∈ matBegun t c q
          ∧ (Instr.mmaComplete, ({ core := c, quarter := q } : Arg)) ∈ t.agenda ∧ t.groups = s.groups)
      ∧ (∀ (g : Group) (f : MForm) (x : InsWord) (z : Bool), matBegun s c q = op :: rest → groupAt s g.core g.slot = some g → g.ok = true →
          g.uid = op.guid → g.st ≠ .ending → matParts op.x = some (f, x, z) →
          ∃ t h, exec .mmaComplete s = .next t ∧ groupAt t g.core g.slot = some h ∧ h = { g with v := h.v }
            ∧ t.arrays = s.arrays.erase op
            ∧ (let n := 1024 / g.width
               let lane (l : Nat) : Prop := l < g.width ∧ op.act.getLsbD l = true
               (∀ l j, lane l → j < n → rdV h (vIdx x.dst + j) l =
                   matElem f (x.mod.getLsbD 0) g.width op.a op.b op.c (l % 32) (l / 32 * n + j)
                     (if z then 0 else rdV g (vIdx x.dst + j) l) % 2 ^ 32)
                 ∧ ∀ k l, l < 64 → ¬ (lane l ∧ vIdx x.dst ≤ k ∧ k < vIdx x.dst + n) → rdV h k l = rdV g k l)))
  ∧ (∀ (sat : Bool) (w : Nat) (a : SMap W32) (b : List (SMap W32)) (c : SMap W32) (i n old : Nat), w = 32 ∨ w = 64 →
    let word (m : SMap W32) (r l : Nat) : Nat := (SMap.get 0 m (64 * r + l)).toNat
    let packed (m : SMap W32) (l j e : Nat) : Nat := word m (j / (32 / e)) l / 2 ^ (e * (j % (32 / e))) % 2 ^ e
    let elA (K e k : Nat) : Nat := let E := 32 * K / w; packed a (i + 32 * (k / E)) (k % E) e
    let elB (K e k : Nat) : Nat := let F := 8 * K / w; packed (b.getD (n / 8) []) (n % 8 + 8 * (k / F)) (k % F) e
    let floats (f : MForm) (K e : Nat) (A B : Fmt) : Prop := matElem f sat w a b c i n old = accF old (groupSumX ((List.range K).map (fun k =>
      (FVal.decode A (elA K e k)).mul (FVal.decode B (elB K e k)))))
    floats .bf16 16 16 fmtBf16 fmtBf16 ∧ floats .f16 16 16 fmtF16 fmtF16 ∧ floats .e4m3 32 8 fmtE4m3 fmtE4m3 ∧ floats .e5m2 32 8 fmtE5m2 fmtE5m2
      ∧ floats .e4e5 32 8 fmtE4m3 fmtE5m2 ∧ floats .e5e4 32 8 fmtE5m2 fmtE4m3
      ∧ matElem .i8 sat w a b c i n old = fit false sat (sext old 32 + ((List.range 32).map (fun k =>
          sext (elA 32 8 k) 8 * sext (elB 32 8 k) 8)).sum) 32
      ∧ (let laneA (kb : Nat) : Nat := i + 32 * (kb / (256 / w))
         let laneB (kb : Nat) : Nat := n % 8 + 8 * (kb / (64 / w))
         let regA (kb : Nat) : Nat := 2 * (kb % (256 / w))
         let regB (kb : Nat) : Nat := 2 * (kb % (64 / w))
         let bq := b.getD (n / 8) []
         let cuffA (kb : Nat) : Nat := word a (regA kb + 1) (laneA kb) % 2 ^ 16
         let cuffB (kb : Nat) : Nat := word bq (regB kb + 1) (laneB kb) % 2 ^ 16
         let codeA (kb j : Nat) : Nat := word a (regA kb) (laneA kb) / 16 ^ j % 16
         let codeB (kb j : Nat) : Nat := word bq (regB kb) (laneB kb) / 16 ^ j % 16
         ∀ sa sb : Nat → Nat, (∀ kb, kb < 8 → cuffSel (cuffA kb) = some (sa kb) ∧ cuffSel (cuffB kb) = some (sb kb)) →
         let sum (kb : Nat) : Int := ((List.range 8).map (fun j => sb4Level (sa kb) (codeA kb j) * sb4Level (sb kb) (codeB kb j))).sum
         matElem .sb4 sat w a b c i n old = accSb4 old ((List.range 8).map (fun kb => FVal.fin (decide (sum kb < 0))
             ((sum kb).natAbs * e3m5 (cuffA kb % 2 ^ 8) * e3m5 (cuffB kb % 2 ^ 8)) (sb4Lambda (sa kb) + sb4Lambda (sb kb) - 16)))
           (word c 0 i % 2 ^ 16) (word c 0 n / 2 ^ 16)))

/-- R321, R322: `MMAW` waits until at most its operand of the group's operations are incomplete; `ACCMV` moves a member's D between
registers and scratchpad, one row of its tile every p bytes, its alignment checked whatever `Active()` holds. That the base offset is
read as a signed number (DEDUCED, log entry 18) and that the fault's FADDR holds it (log entry 19) are the model's readings. -/
def Obligations.MatrixMoves : Prop :=
  (∀ (s : State) (g : Group) (x : InsWord), curGroup s = some g →
    sext (src32 g x x.opa 0) 32 % 16 ≠ 0 ∨ src32 g x x.opb 0 % 16 ≠ 0 →
    let fault := takeFault s g ⟨7, 0, (sext (src32 g x x.opa 0) 32 % (2 ^ 64 : Nat)).toNat, 0, 0⟩
    exec (.accmvRd x) s = .next fault ∧ exec (.accmvWr x) s = .next fault)
  ∧ ∀ (s : State) (g : Group) (x : InsWord) (o : Nat → Nat), curGroup s = some g → active g x ≠ [] → g.ok = true → s.ok = true →
    let act := active g x
    let n := 1024 / g.width
    let sg := segWin g (modF x 2 0)
    let p := src32 g x x.opb 0
    let at' (l j : Nat) : Nat := segAddr sg (o l + 4 * j)
    let ready : Prop := sext (src32 g x x.opa 0) 32 % 16 = 0 ∧ p % 16 = 0 ∧ 128 ≤ p
      ∧ ∀ l ∈ act, (o l : Int) = sext (src32 g x x.opa 0) 32 + ((l % 32 * p + 4 * (l / 32 * n) : Nat) : Int) ∧ o l + 4 * n ≤ sg.limit
        ∧ 4096 / g.width = 4 * n ∧ ∀ j, j < n → raceAt s g (at' l j) 4 = none
    let word (l j k : Nat) : Prop := at' l j ≤ k ∧ k < at' l j + 4
    ((s.arrays.filter (fun o => o.guid = g.uid)).length ≤ src32 g x x.opa 0 → ∃ h, exec (.mmaw x) s = .next (finish s h)
        ∧ StatusWritten g h x g.mseq.toNat)
      ∧ (src32 g x x.opa 0 < (s.arrays.filter (fun o => o.guid = g.uid)).length → exec (.mmaw x) s = .next (stallOf s g))
      ∧ (∀ r, x.dst = .v r → ready → ∃ h, exec (.accmvRd x) s = .next (finish s h)
          ∧ LoadedV g h r.toNat n act (fun l j => memVal s.scr (at' l j) 4))
      ∧ (∀ r, x.opc = .v r → ready → (∀ l j, l ∈ act → j < n → awayScr s g (at' l j) = none) → ∃ u, exec (.accmvWr x) s = .next (finish u (released g)) ∧ StoresOnly s u ∧ u.mem = s.mem
          ∧ (∀ k, (∀ l j, l ∈ act → j < n → ¬ word l j k) → memGet u.scr k = memGet s.scr k)
          ∧ ∀ l j, l ∈ act → j < n →
              (∀ m i, m ∈ act → i < n → (m, i) ≠ (l, j) → at' m i + 4 ≤ at' l j ∨ at' l j + 4 ≤ at' m i) →
              memVal u.scr (at' l j) 4 = rdV g (r.toNat + j) l)

/-! ## Launching work (08_kernel.md) and queues (14_queue.md) -/

/-- R182, R187, R189: `SPAWN` sends one pawn a lane, ascending, to its own field or, with `.FLD`, to a field of its context; `FETCHW`
sends its request. Each goes on at `Next`. -/
def Obligations.SpawnAndFetch : Prop :=
  ∀ (s : State) (g : Group) (x : InsWord) (c : Ctx), curGroup s = some g → active g x ≠ [] → ctxOf s g.ctx = some c →
    let act := active g x
    let own := virtField c (coreField g.core)
    let narg := modF x 3 0
    let sent (i : Instr) (v : Nat) (hint : Bool) : Prop := ∃ (u : State) (p : Nat → Pawn), exec i s = .next (finish u (released g))
      ∧ u.agenda = s.agenda ++ act.map (fun l => (Instr.pawnArrival, { field := v, pawn := p l }))
      ∧ u = { s with agenda := u.agenda, launches := u.launches }
      ∧ (∀ l, l ∈ u.launches ↔ ∃ k ∈ s.launches, l = if hint = true ∧ k.lh = g.lh then { k with hintIgnored := true } else k)
      ∧ ∀ l ∈ act, (p l).pc = BitVec.ofNat 64 (src64 g x false x.opa 0) ∧ (p l).lh = g.lh ∧ (p l).kind = 0
          ∧ (p l).narg = BitVec.ofNat 8 narg ∧ (p l).sfld = BitVec.ofNat 8 own ∧ (p l).win = none ∧ (p l).arg.length = 12
          ∧ ∀ b k, x.opb = .v b → k < 12 → (p l).arg[k]? = some (if k < narg then BitVec.ofNat 32 (rdV g (b.toNat + k) l) else 0)
    let room (v : Nat) : Prop := storeFill s (physField c v) + act.length ≤ 65536
    (outstanding s g false = false → room own → sent (.spawn x) own false)
      ∧ (∀ v, src32 g x x.opc 0 = v → outstanding s g false = false →
          (v ∈ ctxFields s c → room v → sent (.spawnFld x) v false)
            ∧ (v ∉ ctxFields s c → room own → sent (.spawnFld x) own true))
      ∧ (let b := src32 g x x.opb 0
         let sg := segWin g (modF x 2 0)
         (b % 64 ≠ 0 → exec (.fetchw x) s = .next (takeFault s g ⟨7, 0, b, 0, 0⟩))
           ∧ (b % 64 = 0 → b + 64 ≤ sg.limit → ∃ u, exec (.fetchw x) s = .next (finish u g)
               ∧ u.fetchws = s.fetchws ++ [⟨g.ctx, BitVec.ofNat 64 (src64 g x false x.opa 0), virtScr c (segAddr sg b)⟩]
               ∧ u.agenda = s.agenda ++ [(Instr.fetchwReply, ({} : Arg))] ∧ u.mem = s.mem ∧ u.scr = s.scr))

/-- R337 to R339: the status of a kick and the snapshot of a queue, by the queue map. -/
def Obligations.KickAndQuery : Prop :=
  ∀ (s : State) (g : Group) (x : InsWord), curGroup s = some g → active g x ≠ [] →
    let p := g.part
    let q := src32 g x x.opa 0
    let w : W32 := BitVec.ofNat 32 (src32 g x x.opb 0)
    let allowed : Prop := q < qcount s p ∧ (g.priv = true ∨ queueF s p q 28 4 = g.ctx)
    let newer : Prop := (w - qWidx s p q).toNat < 2 ^ 31
    let fits : Prop := newer → (w - qRidx s p q).toNat ≤ 2 ^ queueF s p q 8 1
    let kicks (v : Nat) (post : State → Prop) : Prop :=
      ∃ u h, exec (.kick x) s = .next (finish u (released h)) ∧ StatusWritten g h x v ∧ post u
    outstanding s g false = false →
    (¬ allowed → kicks 4 (fun u => u = s))
      ∧ (allowed → qState s p q = 0 ∨ qState s p q = 5 → kicks 3 (fun u => u = { s with qclk := u.qclk, rows := u.rows, agenda := u.agenda }))
      ∧ (∀ k, allowed → slotOfQueue s p q = some k → k < s.hwslots.length → qState s p q ≠ 0 → qState s p q ≠ 5 → fits →
          kicks 0 (fun u => (slotAt u k).widx = (if (w - qWidx s p q).toNat < 2 ^ 31 then w else qWidx s p q)
            ∧ (slotAt u k).qst = (if (slotAt u k).ridx = (slotAt u k).widx then (slotAt s k).qst else 4)
            ∧ (slotAt u k).ridx = (slotAt s k).ridx ∧ (∀ j, j ≠ k → slotAt u j = slotAt s j) ∧ u.mem = s.mem))
      ∧ (allowed → slotOfQueue s p q = none → qState s p q ≠ 0 → qState s p q ≠ 5 → newer → fits → w ≠ qRidx s p q → s.ok = true →
          q < 1024 → (regVal s (regPart p 0x88)).getLsbD 63 = false →
          kicks 2 (fun u => qWidx u p q = w ∧ qcbF u p q 9 1 = 2 ∧ (qState s p q ≠ 2 → pendBit u p q = true)))
      ∧ (allowed → qState s p q ≠ 0 → qState s p q ≠ 5 → newer → 2 ^ queueF s p q 8 1 < (w - qRidx s p q).toNat → kicks 5 (fun _ => True))
      ∧ (∃ u h, exec (.qstat x) s = .next (finish u h) ∧ u = { s with rows := u.rows, agenda := u.agenda }
          ∧ (¬ allowed → StatusWritten g h x 7)
          ∧ (allowed → StatusWritten g h x (qState s p q + 2 ^ 3 * (pendBit s p q).toNat
              + 2 ^ 8 * (match slotOfQueue s p q with | some k => k | none => 0xFF) + 2 ^ 16 * ((qWidx s p q - qRidx s p q).toNat % 2 ^ 16))))

/-- R228, R325, R332, R333, R336, R340, R341: a queue is loaded into a free slot of the partition, its period brought up to the clock,
throttled when its budget is used up, with the IDLE event when nothing waits in it; an address that does not translate to readable local memory
faults; an idle queue is saved where it was loaded from; each with the statuses of the rules. -/
def Obligations.QueueMapping : Prop :=
  ∀ (s : State) (g : Group) (x : InsWord), curGroup s = some g → active g x ≠ [] → s.ok = true →
    let sl := src32 g x x.opb 0
    let va := src64 g x false x.opa 0
    let sv := src32 g x x.opa 0
    (64 ≤ sl ∨ slotOwned (slotAt s sl) g.part = false ∨ (slotAt s sl).map = true → ∃ h, exec (.qcbld x) s = .next (finish s h) ∧ StatusWritten g h x 1)
      ∧ (sl < 64 → slotOwned (slotAt s sl) g.part = true → (slotAt s sl).map = false →
          let faults (reason : Nat) : Prop := ∃ d, exec (.qcbld x) s = .next (takeFault s g ⟨reason, d, va, 0, 0⟩)
          (2 ^ 56 ≤ va → faults 2)
            ∧ (∀ f, va < 2 ^ 56 → lookup s (gBuf g) g.ctx va = .error f → exec (.qcbld x) s = .next (takeFault s g f))
            ∧ (∀ t pa lat dv, va < 2 ^ 56 → lookup s (gBuf g) g.ctx va = .ok t → pteKind t.leaf.toNat = 0 → locOf s t va = .dram pa lat dv →
                (regionOf s pa ≠ .dram → faults 3) ∧ (regionOf s pa = .dram → badLines s pa 80 ≠ [] → faults 5))
            ∧ (∀ t, va < 2 ^ 56 → lookup s (gBuf g) g.ctx va = .ok t →
                pteKind t.leaf.toNat ≠ 0 ∨ (∀ pa lat dv, locOf s t va ≠ .dram pa lat dv) →
                ∃ h, exec (.qcbld x) s = .next (finish s h) ∧ StatusWritten g h x 3))
      ∧ (∀ t pa lat dv, sl < 64 → sl < s.hwslots.length → slotOwned (slotAt s sl) g.part = true → (slotAt s sl).map = false → va < 2 ^ 56 →
          lookup s (gBuf g) g.ctx va = .ok t → pteKind t.leaf.toNat = 0 → locOf s t va = .dram pa lat dv → regionOf s pa = .dram →
          badLines s pa 80 = [] →
          let idle : Bool := decide (dramVal s (pa + 16) 4 = dramVal s (pa + 20) 4)
          let f (o n : Nat) : Nat := dramVal s (pa + o) n
          (((f 9 1 ≠ 1 ∧ f 9 1 ≠ 2) ∨ f 12 1 ≠ 0xFF) → ∃ u h, exec (.qcbld x) s = .next (finish u h) ∧ StatusWritten g h x 2
                ∧ ReadsOnly s u)
            ∧ ((f 9 1 = 1 ∨ f 9 1 = 2) → f 12 1 = 0xFF → qcbBroken (touchRows (cacheEnts s [t]) pa 80 false lat) g.part pa = none →
                pa = qcbAddr s g.part (f 14 2) → (idle = true → (regVal s (regPart g.part 0x88)).getLsbD 63 = false) →
                ∃ u h, exec (.qcbld x) s = .next (finish u h) ∧ StatusWritten g h x 0
                  ∧ (let k := slotAt u sl
                     k.map = true ∧ slotOwned k g.part = true ∧ k.qnum = f 14 2 ∧ k.ctx = f 28 4 ∧ k.qcba = BitVec.ofNat 64 va ∧ k.qcbp = pa
                       ∧ k.ridx = BitVec.ofNat 32 (f 16 4) ∧ k.widx = BitVec.ofNat 32 (f 20 4)
                       ∧ k.qst = (if idle then 3 else 4) ∧ k.ovr = (slotAt s sl).ovr
                       ∧ (k.thr = true ↔ f 32 4 ≠ 0 ∧ f 36 4 ≠ 0 ∧ s.clock.toNat < f 56 8 ∧ 1000 * f 36 4 ≤ f 40 8)
                       ∧ k.period.toNat = f 32 4 ∧ k.budget.toNat = f 36 4 ∧ k.infl.toNat = f 24 2 ∧ k.ovrc.toNat = f 72 4
                       ∧ (let per := 1050 * f 32 4
                          let now := s.clock.toNat
                          let rel := if f 56 8 = 0 then now else f 56 8 + per * ((now - f 56 8) / per)
                          (f 32 4 = 0 → k.deadl = BitVec.allOnes 64 ∧ k.relt.toNat = f 48 8 ∧ k.used.toNat = f 40 8)
                            ∧ (f 32 4 ≠ 0 → now < f 56 8 → k.deadl.toNat = f 56 8 ∧ k.relt.toNat = f 48 8 ∧ k.used.toNat = f 40 8)
                            ∧ (f 32 4 ≠ 0 → f 56 8 ≤ now → k.relt = BitVec.ofNat 64 rel ∧ k.deadl = BitVec.ofNat 64 (rel + per) ∧ k.used = 0)))
                  ∧ (idle = true → (regVal u (regPart g.part 0x80)).getLsbD 2 = true)
                  ∧ dramVal u (pa + 12) 1 = sl ∧ dramVal u (pa + 9) 1 = (if idle then 3 else 4)
                  ∧ pendBit u g.part (f 14 2) = false))
      ∧ (64 ≤ sv ∨ slotOwned (slotAt s sv) g.part = false → ∃ h, exec (.qcbst x) s = .next (finish s h) ∧ StatusWritten g h x 3)
      ∧ (sv < 64 → slotOwned (slotAt s sv) g.part = true → (slotAt s sv).map = false → ∃ h, exec (.qcbst x) s = .next (finish s h) ∧ StatusWritten g h x 2)
      ∧ (sv < 64 → sv < s.hwslots.length → slotOwned (slotAt s sv) g.part = true → (slotAt s sv).map = true →
          let k := slotAt s sv
          let a := k.qcbp
          ((k.qst = 4 ∨ (k.qst = 5 ∧ k.infl ≠ 0)) → ∃ h, exec (.qcbst x) s = .next (finish s h) ∧ StatusWritten g h x 1)
            ∧ (¬ (k.qst = 4 ∨ (k.qst = 5 ∧ k.infl ≠ 0)) → ∃ u h, exec (.qcbst x) s = .next (finish u h) ∧ StatusWritten g h x 0
                ∧ (slotAt u sv).map = false ∧ slotOwned (slotAt u sv) g.part = true
                ∧ dramVal u (a + 16) 4 = k.ridx.toNat ∧ dramVal u (a + 20) 4 = k.widx.toNat ∧ dramVal u (a + 24) 2 = k.infl.toNat
                ∧ dramVal u (a + 40) 8 = k.used.toNat ∧ dramVal u (a + 48) 8 = k.relt.toNat ∧ dramVal u (a + 56) 8 = k.deadl.toNat
                ∧ dramVal u (a + 72) 4 = k.ovrc.toNat ∧ dramVal u (a + 9) 1 = (if k.qst = 5 then 5 else 1)
                ∧ dramVal u (a + 12) 1 = 0xFF
                ∧ ∀ b, (b < a ∨ a + 256 ≤ b) → dramByte u b = dramByte s b))

/-! ## Units asked by instructions: engines, rows, windows, links (11_engines.md, 15_window.md, 17_rows.md, 18_link.md) -/

/-- R254 to R259, R279, R303: an accepted job takes an entry and its id is the reply; a full table holds the group; status and abort by id, whose
reply observes what the job has written. -/
def Obligations.EngineCommands : Prop :=
  ∀ (s : State) (g : Group) (x : InsWord) (reply : Bool), curGroup s = some g → active g x ≠ [] →
    let a := src64 g x false x.opa 0
    let b := src64 g x false x.opb 0
    let vf := match ctxOf s g.ctx with | some c => virtField c (coreField g.core) | none => coreField g.core
    let replied (h : Group) (v : Nat) : Prop := if reply then StatusWritten g h x v else h = g
    let told (h : Group) (v : Nat) : Prop := if reply then StatusWritten { g with seen := h.seen } h x v else h = g
    let status (j : Job) : Nat := j.next % 2 ^ 16 * 2 ^ 16 + j.err * 2 ^ 8
      + (match j.st with | .queued => 1 | .running => 2 | .stopped => 3 | .done => 4 | .error => 5 | .aborted => 6)
    let go (i : Instr) (gather : Bool) : Prop :=
      (∀ e, freeEntry s g.ctx vf gather = some e → ∃ u h j, exec i s = .next (finish u h) ∧ j ∈ u.jobs
          ∧ j.st = .queued ∧ j.ctx = g.ctx ∧ j.field = vf ∧ j.gather = gather ∧ j.entry = e ∧ j.descA = BitVec.ofNat 64 a
          ∧ j.guid = g.uid ∧ j.order = bit b 0 ∧ j.segS = g.segS ∧ j.segN = g.segN ∧ j.packet = none
          ∧ replied h (j.gen.toNat * 2 ^ 16 + vf % 16 * 2 ^ 12 + e) ∧ u.mem = s.mem ∧ u.scr = s.scr ∧ u.groups = s.groups)
        ∧ (freeEntry s g.ctx vf gather = none → exec i s = .next (stallOf s g))
    let query (i : Instr) (gather : Bool) : Prop :=
      (∀ j, a < 2 ^ 32 → b = 0 → findJob s g.ctx gather a = some j → ∃ h, exec i s = .next (finish s h) ∧ told h (status j))
        ∧ (a < 2 ^ 32 → b = 0 → findJob s g.ctx gather a = none → ∃ h, exec i s = .next (finish s h) ∧ replied h 0)
        ∧ (2 ^ 32 ≤ a ∨ b ≠ 0 → ∃ h, exec i s = .next (finish s h) ∧ replied h 256)
    let abort (i : Instr) (gather : Bool) : Prop := ∀ j, a < 2 ^ 32 → b = 0 → findJob s g.ctx gather a = some j →
      (j.st = .running → ∃ u h, exec i s = .next (finish u h) ∧ told h (status j) ∧ { j with abort := true } ∈ u.jobs ∧ u.mem = s.mem)
        ∧ (j.st = .queued → j.claim = none → j.packet = none → ∃ u h k, exec i s = .next (finish u h) ∧ told h (status j)
            ∧ k ∈ u.jobs ∧ k.st = .aborted ∧ k.entry = j.entry ∧ k.field = j.field ∧ k.gather = j.gather ∧ k.ctx = j.ctx)
        ∧ (j.st = .done ∨ j.st = .error ∨ j.st = .aborted → ∃ h, exec i s = .next (finish s h) ∧ told h (status j))
    go (.cpyGo reply x) false ∧ go (.gthGo reply x) true ∧ query (.cpySt reply x) false ∧ query (.gthSt reply x) true
      ∧ abort (.cpyAbt reply x) false ∧ abort (.gthAbt reply x) true

/-- R402, R405 to R407, R409 to R412: a row function on 1 to 64 rows of the slow class is accepted with its id, changes no byte, and acts on
each row's slot, or waits there while the slot is being copied; a row job is accepted with its id and its lines are copied or filled as
the writes accepted before it leave them. That an address which is no multiple of 1,024 is refused with reason 1 is the model's reading
(log entry 23). -/
def Obligations.RowCommands : Prop :=
  ∀ (s : State) (g : Group) (x : InsWord) (reply : Bool) (t : TlbEnt) (pa e : Nat), curGroup s = some g → active g x ≠ [] →
    SMap.wf default s.rows = true →
    let a := src64 g x false x.opa 0
    let b := src64 g x false x.opb 0
    let replied (h : Group) (v : Nat) : Prop := if reply then StatusWritten g h x v else h = g
    let id (st e : Nat) : Nat := (SMap.get 0 s.jobGen (2 ^ 40 + 64 * st + e)).toNat % 2 ^ 15 * 2 ^ 16
      + (match ctxOf s g.ctx with | some c => virtField c st | none => st) % 16 * 2 ^ 12 + 2 ^ 8 + e
    let st := homeStack pa
    let epoch := SMap.get 0 s.stEpoch st
    let v := cacheEnts s [t]
    let accepts (i : Instr) (post : State → Prop) : Prop := ∃ u h, exec i s = .next (finish u h) ∧ replied h (id st e)
      ∧ u.scr = s.scr ∧ post u
    let evicts (k : Nat) (next : Option (Nat × Bool)) (u : State) : Prop :=
      rowGet u k = { rowGet v k with busy := true, writingBack := true, next := next }
        ∧ (Instr.rowWritebackDone, ({ stack := st, addr := k } : Arg)) ∈ u.agenda
    let acts (c : RowCmd) (row : Nat) (u : State) : Prop :=
      let o := row * 1024
      let same : Prop := ∀ j, j < 32 → rowGet u (rowKey st (subarray o) j) = rowGet v (rowKey st (subarray o) j)
      let waits (k : Nat) : Prop := rowGet u k = { rowGet v k with held := (rowGet v k).held ++ [⟨c, row, 2⟩] }
      let asks : Bool := c = .prom || c = .pin
      let pin : Bool := c = .pin
      (rowSlotOf v st o = none → asks = false ∨ victimSlot v st o 0 = none → same)
        ∧ (∀ k, rowSlotOf v st o = none → asks = true → victimSlot v st o 0 = some k →
            if (rowGet v k).busy then waits k
            else if (rowGet v k).dirty then evicts k (some (row + 1, pin)) u
            else rowGet u k = { row := row + 1, dirty := false, pin := pin, busy := true, writingBack := false, epoch := epoch, next := none, held := [] }
              ∧ (Instr.rowPromoteDone, ({ stack := st, addr := k } : Arg)) ∈ u.agenda)
        ∧ (∀ k, rowSlotOf v st o = some k → let r := rowGet v k
            if r.busy then waits k
            else match c with
              | .pin => rowGet u k = { r with pin := true }
              | .unpin => rowGet u k = { r with pin := false }
              | .dem => if r.pin then same else if r.dirty then evicts k none u else rowGet u k = default
              | _ => rowGet u k = { r with epoch := epoch })
    let fns : List (RowCmd × Instr) := [(.prom, .rowProm reply x), (.dem, .rowDem reply x), (.pin, .rowPin reply x), (.unpin, .rowUnpin reply x)]
    (a % 1024 ≠ 0 ∨ b = 0 ∨ 64 < b ∨ oneBlock a (1024 * b) = false → ∀ f ∈ fns, ∃ h, exec f.2 s = .next (finish s h) ∧ replied h (2 ^ 31 + 1))
      ∧ (1 ≤ b → b ≤ 64 → a % 1024 = 0 → oneBlock a (1024 * b) = true → rowPlace s (gBuf g) g.ctx a false = .ok (t, some pa) →
          rowEntry s st = some e → ∀ f ∈ fns,
          (pa < 0x0F000000000 → pa % 2 ^ 16 = a % 2 ^ 16 →
              accepts f.2 (fun u => u.mem = s.mem ∧ ∀ i, i < b → acts f.1 (stackOff (pa + 1024 * i) / 1024) u))
            ∧ (0x0F000000000 ≤ pa → accepts f.2 (fun u => u.mem = s.mem ∧ u.rows = v.rows)))
      ∧ (∀ d s0 t1 p, rowDesc s (gBuf g) g.ctx a = .ok (some (s0, d)) →
          let src := fld d 0 8
          let dst := fld d 8 8
          let n := fld d 16 4
          let comp := fld d 24 8
          let job (init : Bool) (from' pat : Nat) (u : State) : Prop := ∃ j ∈ u.rowJobs, j.stack = st ∧ j.entry = e ∧ j.ctx = g.ctx
            ∧ j.init = init ∧ j.src = from' ∧ j.dst = pa ∧ j.len = n ∧ j.pat = pat ∧ j.comp = BitVec.ofNat 64 comp
            ∧ j.id.toNat = id st e % 2 ^ 32 ∧ (Instr.rowJobDone, ({ stack := st } : Arg)) ∈ u.agenda
            ∧ ∀ k, k < pa ∨ pa + n ≤ k → dramByte u k = dramByte s k
          let common : Prop := fld d 20 4 = 0 ∧ comp % 16 = 0 ∧ comp + 16 ≤ 2 ^ 56 ∧ offNormal s0 (gBuf g) g.ctx comp = false
            ∧ oneBlock dst n = true ∧ n ≤ 65536
            ∧ rowPlace s0 (gBuf g) g.ctx dst true = .ok (t, some pa) ∧ rowEntry s st = some e
          (b = 0 → common → src % 1024 = 0 → dst % 1024 = 0 → n % 1024 = 0 → 1024 ≤ n → oneBlock src n = true →
              (src + n ≤ dst ∨ dst + n ≤ src) → rowPlace s0 (gBuf g) g.ctx src false = .ok (t1, some p) → homeStack p = st →
              (p + n ≤ pa ∨ pa + n ≤ p) → accepts (.rowCopy reply x) (fun u => job false p 0 u
                ∧ ∀ k, k < n → dramByte u (pa + k) = dramByte s (p + k)))
            ∧ (b ≤ 15 → common → src = 0 → dst % 64 = 0 → n % 64 = 0 → n ≠ 0 → accepts (.rowInit reply x) (fun u => job true 0 b u
                ∧ ∀ k, k < n → dramByte u (pa + k) = (patBytes s st b).getD (k % 64) 0)))

/-- R426, R431 to R435: an arrival or a message to another device that has a route and room is sent, ordered behind the group's earlier work,
with reply 0; 1 where there is no route, 2 where an operand is malformed; without room the group is held. One to the own device takes the
inbound path: the model makes it a step of its own that comes back as a link answer (DEDUCED, log entry 25). -/
def Obligations.LinkCommands : Prop :=
  ∀ (s : State) (g : Group) (x : InsWord) (reply : Bool), curGroup s = some g → active g x ≠ [] →
    let a := src64 g x false x.opa 0
    let b := src64 g x false x.opb 0
    let replied (h g : Group) (v : Nat) : Prop := if reply then StatusWritten g h x v else h = g
    let answers (i : Instr) (v : Nat) : Prop := ∃ h, exec i s = .next (finish s h) ∧ replied h g v
    let sends (b : State) (i : Instr) (dev port kind addr : Nat) (pay : List Byte) : Prop := ∃ u h y, exec i s = .next (finish u h)
      ∧ replied h (released g) 0 ∧ u.xacts = s.xacts ++ [y] ∧ y.dst = dev ∧ y.port = port ∧ y.kind = kind ∧ y.payload = pay
      ∧ y.ord = true ∧ y.guid = g.uid ∧ y.tag = b.nextId ∧ u.mem = s.mem ∧ u.scr = s.scr
      ∧ ((∀ z ∈ s.xacts, z.unsent = true → z.dst ≠ dev) → u.out = b.out ++ [.flit port dev kind y.tag true addr pay])
    let own (kind : Nat) (step : Instr) (u : State) : Prop := ∃ y a', u.xacts = s.xacts ++ [y] ∧ y.kind = kind ∧ y.vc = g.vc ∧ y.dst = ownDev s
      ∧ (step, a') ∈ u.agenda ∧ a'.tag = y.tag ∧ a'.src.toNat = ownDev s
    let dev := bits a 54 41
    (bits a 63 55 ≠ 0 ∨ bits a 40 31 ≠ 0 ∨ 65535 < b → answers (.lnkArr reply x) 2)
      ∧ (bits a 63 55 = 0 → bits a 40 31 = 0 → b ≤ 65535 → dev ≠ ownDev s → routeOf s dev = none → answers (.lnkArr reply x) 1)
      ∧ (∀ port, bits a 63 55 = 0 → bits a 40 31 = 0 → b ≤ 65535 → dev ≠ ownDev s → routeOf s dev = some port →
          (linkRoom s dev 10 = false → exec (.lnkArr reply x) s = .next (stallOf s g))
            ∧ (linkRoom s dev 10 = true → outstanding s g true = false →
          sends s (.lnkArr reply x) dev port 8 (a % 2 ^ 41) (leBytes 8 a ++ leBytes 2 b)))
      ∧ (bits a 63 55 = 0 → bits a 40 31 = 0 → b ≤ 65535 → dev = ownDev s → outstanding s g true = false →
          ∃ u h, exec (.lnkArr reply x) s = .next (finish u h) ∧ replied h (released g) 0 ∧ own 8 .linkRxArrival u)
      ∧ (a % 64 ≠ 0 ∨ 2 ^ 14 ≤ b → answers (.lnkMsg reply x) 2)
      ∧ (a % 64 = 0 → b < 2 ^ 14 → b ≠ ownDev s → routeOf s b = none → answers (.lnkMsg reply x) 1)
      ∧ (a % 64 = 0 → b < 2 ^ 14 → b = ownDev s ∨ routeOf s b ≠ none →
          (2 ^ 56 ≤ a → ∃ d, exec (.lnkMsg reply x) s = .next (takeFault s g ⟨2, d, a, 0, 0⟩))
            ∧ ∀ f, a < 2 ^ 56 → agentRead s (gBuf g) g.ctx a 64 = .error f → exec (.lnkMsg reply x) s = .next (takeFault s g f))
      ∧ (∀ r m, a % 64 = 0 → b < 2 ^ 14 → b = ownDev s ∨ routeOf s b ≠ none → a < 2 ^ 56 → agentRead s (gBuf g) g.ctx a 64 = .ok (r, m) →
          let pay := m.take 3 ++ leBytes 1 g.part ++ (m.drop 4).take 60
          let shoot := bit (fld m 2 1) 7
          (bits (fld m 2 1) 6 3 ≠ 0 → ∃ h, exec (.lnkMsg reply x) s = .next (finish r h) ∧ replied h g 2)
            ∧ (bits (fld m 2 1) 6 3 = 0 → shoot = true → g.priv = false →
                ∃ d, exec (.lnkMsg reply x) s = .next (takeFault r g ⟨2, d, a, 0, 0⟩))
            ∧ (bits (fld m 2 1) 6 3 = 0 → (shoot = true → g.priv = true) → b ≠ ownDev s → linkRoom s b 64 = false →
                exec (.lnkMsg reply x) s = .next (stallOf s g))
            ∧ (bits (fld m 2 1) 6 3 = 0 → (shoot = true → g.priv = true) → b = ownDev s ∨ linkRoom s b 64 = true → outstanding s g true = false →
                (∀ port, b ≠ ownDev s → routeOf s b = some port → sends r (.lnkMsg reply x) b port (if shoot then 10 else 9) 0 pay)
                  ∧ (b = ownDev s → ∃ u h, exec (.lnkMsg reply x) s = .next (finish u h) ∧ replied h (released g) 0
                      ∧ own (if shoot then 10 else 9) (if shoot then .linkRxShootdown else .linkRxMessage) u)))

/-- R349, R360, R361, R373, R374: the statuses of stream commands; a command takes effect at once when its ring holds no record to
process first, else it is queued behind those records and its group waits (the model's way of holding it, log entry 49). -/
def Obligations.StreamCommands : Prop :=
  ∀ (s : State) (g : Group) (x : InsWord) (reply : Bool), curGroup s = some g → active g x ≠ [] → outstanding s g false = false →
    let a := src64 g x false x.opa 0
    let b := src64 g x false x.opb 0
    let replied (h : Group) (v : Nat) : Prop := if reply then StatusWritten g h x v else h = g
    let answers (i : Instr) (v : Nat) : Prop := ∃ h, exec i s = .next (finish s h) ∧ replied h v
    let waits (i : Instr) (t : Stream) (w : W32) (k : Nat) (v : W64) : Prop := ∃ u t' sd, exec i s = .next u
      ∧ streamOf u t.lh = some t' ∧ t' = { t with cmds := t.cmds ++ [(w, k, v, g.uid)] }
      ∧ u.groups = (setGroup s { g with st := .stalled, wait := .stream t.lh sd }).groups
      ∧ (∀ d, x.dst = .s d → sd = if reply then some d.toNat else none)
      ∧ (Instr.ingressPoll, ({ lh := t.lh } : Arg)) ∈ u.agenda ∧ u.mem = s.mem
    let closes (t : Stream) (w : Nat) : Stream := { t with
      wm := BitVec.ofNat 64 w
      wins := if fld t.ext 8 1 = 0 then t.wins else t.wins.map (fun v =>
        if v.close ≤ w ∧ (winOpen v = true ∨ v.st = .filling) then { v with last := true } else v) }
    (2 ^ 32 ≤ a → answers (.winWmark reply x) 4)
      ∧ (2 ^ 32 ≤ a ∨ 2 < b → answers (.winFlush reply x) 4)
      ∧ (a < 2 ^ 32 → (∀ t, streamOf s (BitVec.ofNat 32 a) = some t → t.ctx ≠ g.ctx) →
          answers (.winWmark reply x) 1 ∧ (b ≤ 2 → answers (.winFlush reply x) 1))
      ∧ (∀ t, a < 2 ^ 32 → streamOf s (BitVec.ofNat 32 a) = some t → t.ctx = g.ctx →
          (t.flushed = true → answers (.winWmark reply x) 2 ∧ (b ≤ 2 → answers (.winFlush reply x) 2))
            ∧ (∀ s1 r w, t.flushed = false → s1 = agentTouch s (ringBuf s t) t.ctx (fld t.ext 0 8 + 16) 4 → ringLoad s1 t (fld t.ext 0 8) 64 = .ok r →
                w = BitVec.ofNat 32 (fld r 16 4) →
                let pol := if b = 0 then (if fld t.ext 10 1 = 1 then 2 else 1) else b
                let acts (i : Instr) (t' : Stream) (v : Nat) : Prop := ∃ h, exec i s = .next (goOn (finish s1 h) t') ∧ replied h v
                (w = t.next → t.cmds = [] →
                    (b ≤ t.wm.toNat → acts (.winWmark reply x) t 3)
                      ∧ (t.wm.toNat < b → acts (.winWmark reply x) (closes t b) 0)
                      ∧ (b ≤ 2 → acts (.winFlush reply x) (flushStream t (pol = 2)) 0 ∧ (flushStream t (pol = 2)).flushed = true))
                  ∧ (w ≠ t.next ∨ t.cmds ≠ [] → waits (.winWmark reply x) t w 0 (BitVec.ofNat 64 b)
                      ∧ (b ≤ 2 → waits (.winFlush reply x) t w pol 0))))

/-- R366 to R372: `PARK` and `DIE` end their lanes and their pawns, `REPACK` sends a pawn for each of a few lanes, `WINF` gives a
snapshot, `EMITR` appends a record and then WIDX. -/
def Obligations.WindowThreads : Prop :=
  ∀ (s : State) (g : Group) (x : InsWord), curGroup s = some g → active g x ≠ [] → g.ok = true →
    let act := active g x
    let ends (h b : Group) : Prop := h = { b with live := h.live, em := h.em }
      ∧ ∀ l, l < 64 → h.live.getLsbD l = (g.live.getLsbD l && decide (l ∉ act)) ∧ h.em.getLsbD l = (g.em.getLsbD l && decide (l ∉ act))
    (outstanding s g false = false → ∃ h, exec (.park x) s = .next (finish (pawnsEnd s g act false g.vc) h) ∧ ends h (released g))
      ∧ (outstanding s g false = false → (∀ l ∈ act, ∃ w p, laneWin s g l = some w ∧ w.inflight = some p ∧ p.kind = 5) →
          ∃ h, exec (.die x) s = .next (finish (pawnsEnd s g act true g.vc) h) ∧ ends h (released g))
      ∧ (∀ l rest, act = l :: rest → (laneWin s g l = none ∨ ∃ w p, laneWin s g l = some w ∧ w.inflight = some p ∧ p.kind ≠ 5) →
          ∃ d, exec (.die x) s = .next (takeFault s g ⟨2, d, 0, maskOf [l], 0⟩))
      ∧ (let th := match launchOf s g.lh with | some l => fld l.desc 50 1 | none => 0
         let most := if th = 0 then g.width / 4 else th
         let pc : W64 := BitVec.ofNat 64 (g.pc.toNat / 64 * 64) + x.lit.signExtend 64
         let f := coreField g.core
         (most < act.length → exec (.repack x) s = .next (finish s g))
           ∧ (act.length ≤ most → pcForm pc = true → outstanding s g false = false → storeFill s f + act.length ≤ 65536 →
               ∃ (u : State) (h : Group) (p : Nat → Pawn), exec (.repack x) s = .next (finish u h) ∧ ends h (released g)
                 ∧ u.agenda = s.agenda ++ act.map (fun l => (Instr.pawnArrival, { field := vfieldOf s g.ctx g.core, pawn := p l }))
                 ∧ ∀ l ∈ act, (p l).pc = pc ∧ (p l).lh = g.lh ∧ (p l).kind = 1
                     ∧ ∀ k n, k < modF x 3 0 → k < 8 → x.opa = .v n → (p l).arg[k]? = some (BitVec.ofNat 32 (rdV g (n.toNat + k) l))))
      ∧ (∀ n t, x.dst = .v n → streamOf s g.lh = some t → ∃ h, exec (.winf x) s = .next (finish s h) ∧ LoadedV g h n.toNat 2 act (fun l i =>
          wordOfVal (match modF x 1 0, laneWin s g l with
            | 0, _ => t.wm.toNat
            | 1, some w => w.queue.length + (if w.inflight.isSome = true ∧ w.disp = false then 1 else 0)
            | 2, some w => w.close % 2 ^ 64
            | 3, _ => t.late.toNat
            | _, _ => 0) i))
      ∧ (∀ t c cb b l n r s0 s1 s2, streamOf s g.lh = some t → (∀ q ∈ t.emits, q.1 ≠ modF x 1 0) → outstanding s g true = false →
          egressAddr s (gBuf g) t (modF x 1 0) = .ok (c, cb) → agentRead c (gBuf g) t.ctx cb 64 = .ok (s0, b) → r = ringOf b → x.opa = .v n →
          let wr : Writer := ⟨4, 480 + vfieldOf s g.ctx g.core, g.pc⟩
          let path := pathRel 3 g.ctx g.vc
          (ringFree r = 0 → ∃ u, exec (.emitr x) s = .next (stallOf u g) ∧ u.mem = s.mem)
            ∧ (ringFree r ≠ 0 → act = [l] → r.lowwm = 0 →
                agentStore s0 (gBuf g) t.ctx (r.base + r.size * (r.widx.toNat % 2 ^ r.log2n))
                  ((List.range (r.size / 4)).flatMap (fun k => leBytes 4 (rdV g (n.toNat + k) l))) wr [path] = .ok s1 →
                agentStore s1 (gBuf g) t.ctx (cb + 16) (leBytes 4 (r.widx + 1).toNat) wr [mkRel g .access (2 ^ 41) 3 g.vc, path] = .ok s2 →
                ∃ u, exec (.emitr x) s = .next (finish u (released g)) ∧ u.mem = s2.mem ∧ u.scr = s2.scr ∧ u.tlb = s2.tlb))

/-! ## System instructions (16_context.md) and prefixes (03_encoding.md) -/

/-- R394, R395: a window segment narrows within its dispatched window, P, Q and C are loaded; the special registers read as listed,
and DEFLIM and the debug flag are written. That MTSR's fault on a value out of range has detail 8 is the model's reading (DEDUCED, log
entry 16). -/
def Obligations.SegmentsAndSpecialRegisters : Prop :=
  ∀ (s : State) (g : Group) (x : InsWord), curGroup s = some g → active g x ≠ [] → g.ok = true →
    let act := active g x
    let a (l : Nat) := src64 g x false x.opa l
    let b := src32 g x x.opb 0
    let narrows (w : Seg) (h : Group) (sg : Seg) : Prop := sg.limit = b ∧ (∀ o, o < b → segAddr sg o = segAddr w (a 0 + o))
      ∧ h.v = g.v ∧ h.s = g.s ∧ h.p = g.p
    let lanes (m m' : SMap W64) (l l' : SMap W32) : Prop := ∀ k, SMap.get 0 m' k = (if k ∈ act then BitVec.ofNat 64 (a k) else SMap.get 0 m k)
      ∧ SMap.get 0 l' k = (if k ∈ act then BitVec.ofNat 32 b else SMap.get 0 l k)
    let win (w : Seg) : Prop := w.limit ≠ 0 ∧ a 0 + b ≤ w.limit
    (modF x 2 0 = 1 → win g.winS → ∃ h, exec (.segld x) s = .next (finish s h) ∧ narrows g.winS h h.segS ∧ h = { g with segS := h.segS })
      ∧ (modF x 2 0 = 2 → win g.winN → ∃ h, exec (.segld x) s = .next (finish s h) ∧ narrows g.winN h h.segN ∧ h = { g with segN := h.segN })
      ∧ ((modF x 2 0 = 1 ∧ ¬ win g.winS) ∨ (modF x 2 0 = 2 ∧ ¬ win g.winN) →
          ∃ d, exec (.segld x) s = .next (takeFault s g ⟨2, d, a 0, 0, 0⟩))
      ∧ (modF x 2 0 = 3 → SMap.wf 0 g.pB = true → SMap.wf 0 g.pL = true → ∃ h, exec (.segld x) s = .next (finish s h)
          ∧ h = { g with pB := h.pB, pL := h.pL } ∧ lanes g.pB h.pB g.pL h.pL)
      ∧ (modF x 2 0 = 4 → SMap.wf 0 g.qB = true → SMap.wf 0 g.qL = true → ∃ h, exec (.segld x) s = .next (finish s h)
          ∧ h = { g with qB := h.qB, qL := h.qL } ∧ lanes g.qB h.qB g.qL h.qL)
      ∧ (modF x 2 0 = 5 → exec (.segld x) s = .next (finish s { g with cbase := BitVec.ofNat 64 (a 0), clim := BitVec.ofNat 32 b }))
      ∧ (∀ k, srRegs g.width (modF x 6 0) = some k →
          let val (l : Nat) : Nat := match modF x 6 0 with
            | 0x00 => l | 0x01 => g.width | 0x02 => g.index.toNat | 0x03 => g.team.toNat | 0x04 => g.teamN.toNat | 0x05 => g.nbh.toNat
            | 0x06 => (match ctxOf s g.ctx with | some c => virtCore c g.core | none => g.core)
            | 0x07 => (match ctxOf s g.ctx with | some c => virtField c (coreField g.core) | none => coreField g.core)
            | 0x08 => s.clock.toNat
            | 0x09 => (SMap.get 0 g.winid l).toNat | 0x0A => (SMap.get 0 g.wstart l).toNat | 0x0B => (SMap.get 0 g.wend l).toNat
            | 0x0C => (SMap.get 0 g.wcount l).toNat | 0x0D => (SMap.get 0 g.pawnk l).toNat
            | 0x0E => g.lfault.toNat | 0x0F => g.mseq.toNat | 0x40 => g.ctx | 0x41 => g.part
            | 0x42 => (partOf s g.part).deflim.toNat
            | 0x43 => (match residentOf s g.part with | some c => c.dbg.toNat | none => 0)
            | _ => 0
          (∀ d l rest, x.dst = .s d → act = l :: rest → ∃ h, exec (.mfsr x) s = .next (finish s h) ∧ WrittenS g h d.toNat k (val l))
            ∧ (∀ d, x.dst = .v d → ∃ h, exec (.mfsr x) s = .next (finish s h) ∧ LoadedV g h d.toNat k act (fun l i => wordOfVal (val l) i)))
      ∧ (let v := src32 g x x.opa 0
         (modF x 6 0 = 0x42 → 1 ≤ v → v ≤ 65535 → g.part < s.parts.length → ∃ u, exec (.mtsr x) s = .next (finish u g)
             ∧ (partOf u g.part).deflim.toNat = v ∧ u = { s with parts := u.parts })
           ∧ (modF x 6 0 = 0x43 → v ≤ 1 → ∀ c, residentOf s g.part = some c → ∃ u, exec (.mtsr x) s = .next (finish u g)
               ∧ (∀ d, ctxOf u c.id = some d → d.dbg = decide (v = 1)) ∧ u.groups = s.groups)
           ∧ (modF x 6 0 = 0x42 → v = 0 ∨ 65535 < v → exec (.mtsr x) s = .next (takeFault s g ⟨8, 8, 0, 0, 0⟩)))

/-- R396, R399, R400: translations are dropped once earlier accesses are performed; a mailbox is woken and read; a pattern table is
filled and locked, and unlocked. -/
def Obligations.SystemServices : Prop :=
  ∀ (s : State) (g : Group) (x : InsWord), curGroup s = some g → active g x ≠ [] → g.ok = true → s.ok = true →
    let c := src32 g x x.opa 0
    let va := src64 g x false x.opb 0
    let own : Prop := ∃ d, ctxOf s c = some d ∧ (d.id = 0 ∨ d.part = g.part)
    let drops (i : Instr) (p : TlbEnt → Prop) : Prop := ∃ u h, exec i s = .next (finish u h) ∧ StatusWritten g h x 0
      ∧ u = { s with tlb := u.tlb } ∧ ∀ t, t ∈ u.tlb ↔ t ∈ s.tlb ∧ ¬ p t
    let answers (i : Instr) (v : Nat) : Prop := ∃ h, exec i s = .next (finish s h) ∧ StatusWritten g h x v
    (outstanding s g false = false → own →
        drops (.tlbinvPg x) (fun t => t.ctx = c ∧ va / lvlSize t.lvl * lvlSize t.lvl = t.base) ∧ drops (.tlbinvCtx x) (fun t => t.ctx = c))
      ∧ (outstanding s g false = false → ¬ own → answers (.tlbinvPg x) 2 ∧ answers (.tlbinvCtx x) 2)
      ∧ (outstanding s g false = false → drops (.tlbinvAll x) (fun t => ∃ d, ctxOf s t.ctx = some d ∧ (d.id = 0 ∨ d.part = g.part)))
      ∧ (384 ≤ c → answers (.wake x) 3)
      ∧ (c < 384 → (barAt s (mailboxBar c)).valid = true → ∃ h, StatusWritten g h x 0
          ∧ exec (.wake x) s = .next (groupArrive (finish s h) g (mailboxBar c) (fun b => arriveB b 1)))
      ∧ (∀ r, x.opa = .s r → r.toNat % 16 = 0 → s.mbx.find? (fun m => m.core = g.core && !m.claimed) = none → answers (.mbxrd x) 1)
      ∧ (∀ r m, x.opa = .s r → r.toNat % 16 = 0 → s.mbx.find? (fun m => m.core = g.core && !m.claimed) = some m →
          ∃ u h h', exec (.mbxrd x) s = .next (finish u h) ∧ StatusWritten h' h x 0 ∧ h' = { g with s := h'.s }
            ∧ (∀ i, i < 16 → rdS h' (r.toNat + i) = memVal s.scr (reqAddr g.core m.slot + 4 * i) 4)
            ∧ { m with claimed := true } ∈ u.mbx ∧ m ∉ u.mbx ∧ u = { s with mbx := u.mbx })
      ∧ (let t := modF x 3 0
         ∀ d, ctxOf s c = some d → d.id ≠ 0 → d.part = g.part →
          (d.st ≠ .active → d.st ≠ .halted → answers (.ptldLk x) 1 ∧ answers (.ptldUn x) 1)
            ∧ (∀ s1 b, (d.st = .active ∨ d.st = .halted) → va % 4 = 0 → tableBytes (gBuf g) d.id va 96 s = .ok (s1, b) → b.length = 384 → s1.ok = true →
                ∃ u h, exec (.ptldLk x) s = .next (finish u h) ∧ StatusWritten g h x 0
                  ∧ (∀ i, i < 384 → SMap.get 0 u.ptab (ptabBase g.core t + i) = b.getD i 0)
                  ∧ u.ptLock.contains (g.core * 16 + t) = true ∧ u.mem = s1.mem ∧ u.scr = s1.scr)
            ∧ ((d.st = .active ∨ d.st = .halted) → ∃ u h, exec (.ptldUn x) s = .next (finish u h) ∧ StatusWritten g h x 0
                ∧ u = { s with ptLock := u.ptLock } ∧ ∀ k, k ∈ u.ptLock ↔ k ∈ s.ptLock ∧ k ≠ g.core * 16 + t))

/-- R397, R398: `RFT` makes a halted context ACTIVE, `HALT` raises its halt line and holds its group, `CTXSV` begins a fill, requests
a swap and evicts, `DUMP` leaves the context DEAD; each with its status. Status 3 for a context of another partition whatever its state,
and the CCB of an id not yet known at Config.ccbAddr, are the model's readings (DEDUCED, log entry 32). -/
def Obligations.ContextInstructions : Prop :=
  ∀ (s : State) (g : Group) (x : InsWord) (d : Ctx), curGroup s = some g → groupAt s g.core g.slot = some g → active g x ≠ [] →
    let c := src32 g x x.opa 0
    let p := src32 g x x.opb 0
    let answers (i : Instr) (v : Nat) : Prop := ∃ h, exec i s = .next (finish s h) ∧ StatusWritten g h x v
    let leaves (i : Instr) (post : State → Prop) : Prop := ∃ u h, exec i s = .next (finish u h)
      ∧ StatusWritten ((curGroup u).getD g) h x 0 ∧ post u
    let state (st : CtxState) (u : State) : Prop := ∀ e, ctxOf u c = some e → e.st = st
    (ctxOf s c = none ∨ (ctxOf s c = some d ∧ (d.id = 0 ∨ d.part ≠ g.part)) →
        answers (.rft x) 2 ∧ answers (.halt x) 2 ∧ answers (.dump x) 2)
      ∧ (ctxOf s c = some d → d.id ≠ 0 → d.part = g.part →
          (d.st = .halted → d.line = false → leaves (.rft x) (state .active))
            ∧ (d.st = .saved → d.hf = true → leaves (.rft x) (fun u => ∀ e, ctxOf u c = some e → e.hf = false ∧ e.st = .saved))
            ∧ (d.st = .active → answers (.rft x) 1)
            ∧ (d.st ≠ .active → ∀ r, x.dst = .s r → answers (.halt x) 1)
            ∧ (d.st = .active → ∀ r, x.dst = .s r → ∃ t e h, exec (.halt x) s = .next t ∧ ctxOf t c = some e ∧ e.line = true
                ∧ (d.line = false → e.lineHalt = some (BitVec.ofNat 8 p)) ∧ groupAt t g.core g.slot = some h
                ∧ h = { g with st := .stalled, wait := .halted c r.toNat }
                ∧ (Instr.contextStopped, ({ ctx := c } : Arg)) ∈ t.agenda)
            ∧ (p < 8 → d.part = p → d.st = .shadow → p < s.parts.length → (partOf s p).swap = false →
                leaves (.ctxsvSwap x) (fun u => (partOf u p).swap = true ∧ (Instr.swapProceed, ({ part := p } : Arg)) ∈ u.agenda))
            ∧ (p < 8 → d.part = p → d.st = .shadow → (partOf s p).swap = true → answers (.ctxsvSwap x) 1)
            ∧ (p < 8 → d.part = p → d.st = .shadow → leaves (.ctxsvEvict x) (state .saved))
            ∧ (p < 8 → d.part ≠ p → answers (.ctxsvSwap x) 3 ∧ answers (.ctxsvEvict x) 3)
            ∧ (d.st ≠ .faulted → answers (.dump x) 1)
            ∧ (d.st = .faulted → d.line = false → src64 g x false x.opb 0 % 64 ≠ 0 → answers (.dump x) 3)
            ∧ (∀ s1, d.st = .faulted → d.line = false → src64 g x false x.opb 0 % 64 = 0 →
                putLines (gBuf g) g.ctx (groupWriter s g) ((dumpBytes s d).2.length / 64 + 1) (src64 g x false x.opb 0) (dumpBytes s d).2 (dumpBytes s d).1
                  = .ok s1 →
                ∃ u h, exec (.dump x) s = .next (finish u h) ∧ StatusWritten g h x 0 ∧ state .dead u))
      ∧ (let a := match ctxOf s c with | some e => e.ccb | none => (Config.ccbAddr (BitVec.ofNat 32 c)).toNat
         let f (o n : Nat) : Nat := dramVal s (a + o) n
         (∀ e, ctxOf s c = some e → e.st = .absent ∨ e.st = .saved ∨ e.st = .dead) → c ≠ 0 → p < 8 → ccbOk s a = true → f 20 4 = c →
          f 25 1 = g.part → g.part = p → f 24 1 = 0 → shadowBusy s p = false → remapOk s p (f 48 8) (f 28 4) = true →
          leaves (.ctxsvFill x) (fun u => (∃ e, ctxOf u c = some e ∧ e.st = .filling ∧ e.part = p ∧ e.ccb = a ∧ e.root = f 0 8
              ∧ e.ncore = f 28 4) ∧ (Instr.fillDone, ({ ctx := c } : Arg)) ∈ u.agenda))

/-- R71 to R75, R81, R386: a prefix supplies its word or lane mask to the next instruction and moves its group to the next slot; an
unassigned opcode is an illegal instruction with detail 1. That PFX.L.HI below width 64 has detail 8 is the model's reading (DEDUCED, log
entry 17). -/
def Obligations.PrefixesAndUnassigned : Prop :=
  ∀ (s : State) (g : Group) (lit : W32) (op : BitVec 9), curGroup s = some g → groupAt s g.core g.slot = some g →
    let opens (i : Instr) (h : Group) : Prop := ∃ t, exec i s = .next t ∧ groupAt t g.core g.slot = some h
      ∧ t = { s with groups := t.groups }
    let next : Group := { g with pc := nextPc g, st := .ready, wait := .none, unit := some (g.unit.getD g.pc) }
    opens (.pfxW lit) { next with pfxW := some lit }
      ∧ (∃ m : W64, opens (.pfxL lit) { next with sub := m } ∧ ∀ l, l < 64 → m.getLsbD l = (decide (32 ≤ l) || lit.getLsbD l))
      ∧ (64 ≤ g.width → ∃ m : W64, opens (.pfxLHi lit) { next with sub := m }
          ∧ ∀ l, l < 64 → m.getLsbD l = (decide (l < 32) || lit.getLsbD (l - 32)))
      ∧ (g.width < 64 → exec (.pfxLHi lit) s = .next (takeFault s g ⟨8, 8, 0, 0, 0⟩))
      ∧ exec (.unassignedOpcode op) s = .next (takeFault s g ⟨8, 1, 0, 0, 0⟩)

/-! ## The steps of the other units: reset, boot, recovery, power (16_context.md, 19_platform.md) -/

/-- R437, R445, R447 to R449, R452: a device reset clears all but the always-on domain and boots the slot that is valid; the commands of
recovery mode are taken while RSTAT is not busy, and its report attests the nonce latched then; the clock steps with power and
temperature, and a trip cuts power. Device memory and scratchpad empty after a reset (log entries 2, 3), the one firmware context (4), the
fields of Config.fieldPart (52) and the reset timer due at once (15) are the model's choices. -/
def Obligations.PlatformEvents : Prop :=
  ∀ s : State,
    (∃ t, exec .deviceReset s = .next t ∧ t.flash = s.flash ∧ t.rollmin = s.rollmin ∧ t.turn = s.turn
        ∧ t.mode = (if imageValid s s.flash 0 || imageValid s s.flash imageSize then Mode.running else Mode.recovery)
        ∧ t.bootB = (!imageValid s s.flash 0 && imageValid s s.flash imageSize)
        ∧ (s.mode ≠ .boot → t.epoch = s.epoch + 1 ∧ t.groups = [] ∧ t.mem = [] ∧ t.scr = [] ∧ t.ptab = [] ∧ t.tlb = [] ∧ t.jobs = []
            ∧ t.launches = [] ∧ t.ctxs = [Ctx.firmware]
            ∧ (t.mode = .recovery → t.parts = List.replicate 8 Part.reset)
            ∧ (t.mode = .running → t.parts = (List.range 8).map (fun p =>
                { Part.reset with fields := (List.range 16).filter (fun f => Config.fieldPart f = p) }))
            ∧ t.hwslots = List.replicate 64 HwSlot.reset ∧ t.ports = List.replicate 16 LPort.reset))
      ∧ (let nonce := (List.range 4).flatMap (fun k => leBytes 8 (regVal s (recNonce + 8 * k)).toNat)
         ∀ i n d, (i, n, d) ∈ [(Instr.rcmdInstallA, 1, Instr.recoveryInstallDone), (Instr.rcmdInstallB, 2, Instr.recoveryInstallDone),
            (Instr.rcmdAttest, 3, Instr.attestReportDone)] →
          (s.mode = .recovery → s.rstat ≠ 1 → exec i s = .next { enqueue s d { part := 8, ok := true } with
              rstat := 1, rcmd := n, rnonce := if n = 3 then nonce else s.rnonce })
            ∧ (s.mode ≠ .recovery ∨ s.rstat = 1 → exec i s = .next s))
      ∧ (s.mode = .recovery → s.rstat = 1 → s.rcmd = 3 → SMap.wf 0 s.regs = true → ∃ t, exec .attestReportDone s = .next t ∧ t.rstat = 0
          ∧ ∀ i, i < 4 → (regVal t (recReport + 16 + 8 * i)).toNat = fld s.rnonce (8 * i) 8)
      ∧ (s.mode = .recovery → s.rstat = 1 → s.rcmd = 1 ∨ s.rcmd = 2 → Memory.wf s.flash = true → Memory.wf s.staging = true →
          let valid := imageValid s s.staging 0
          let o := if s.rcmd = 1 then 0 else imageSize
          ∃ t, exec .recoveryInstallDone s = .next t ∧ t.rstat = (if !valid then 3 else if !s.arg.ok then 4 else 2)
            ∧ (!(valid && s.arg.ok) → t = { s with rstat := t.rstat })
            ∧ (valid && s.arg.ok → t.rtimer = true ∧ (Instr.recoveryResetTimer, ({} : Arg)) ∈ t.agenda
                ∧ (∀ a, a < imageSize → memGet t.flash (o + a) = memGet s.staging a)
                ∧ ∀ a, a < o ∨ o + imageSize ≤ a → memGet t.flash a = memGet s.flash a))
      ∧ (s.mode = .recovery → s.rtimer = true → exec .recoveryResetTimer s = exec .deviceReset s)
      ∧ (s.mode = .running → SMap.wf 0 s.regs = true →
          let clk := (regVal s (regPlat 0x40)).toNat
          let lim := (regVal s (regPlat 0x28)).toNat
          let measured (c : Nat) (t : State) : Prop := regVal t (regPlat 0x30) = s.arg.val ∧ regVal t (regPlat 0x38) = s.arg.temp
            ∧ (regVal t (regPlat 0x40)).toNat = c ∧ t = { s with regs := t.regs }
          (∃ t, exec .clockStepDown s = .next t
              ∧ measured (if lim < s.arg.val.toNat ∨ 1680 ≤ s.arg.temp.toNat then max 525 (clk - 50) else clk) t)
            ∧ ∃ t, exec .clockStepUp s = .next t
              ∧ measured (if 100 * s.arg.val.toNat < 95 * lim ∧ s.arg.temp.toNat < 1600 then min 1050 (clk + 50) else clk) t)
      ∧ (s.mode = .running ∨ s.mode = .recovery → 1920 ≤ s.arg.temp.toNat → ∃ t, exec .thermalTrip s = .next t ∧ t.mode = .tripped ∧ t.tripped = true
          ∧ t.epoch = s.epoch ∧ t.flash = s.flash ∧ t.groups = [] ∧ t.mem = [] ∧ t.scr = [])

/-! ## Writes of device registers (14_queue.md, 16_context.md to 19_platform.md) -/

/-- R5, R336, R404, R437, R442, R446, R447, R450, R452: what a write of each register with an effect of its own does, and who may
make it. That a write of part of ATNONCE keeps the bytes it does not cover (DEDUCED), and that of a value above 2^32 - 1 TICK keeps the low
32 bits (DESIGN CHOICE), are the model's readings (log entry 36). -/
def Obligations.RegisterWrites : Prop :=
  ∀ (s : State) (p : Nat), s.mode = .running → SMap.wf 0 s.regs = true → s.parts.length = 8 → s.arg.part = p → p < 8 →
    let a := s.arg
    let v := a.val
    let admitted : Prop := match a.who with
      | .mgmt => True
      | .host port => hostOwns s port p = true
      | .group c k => c = 0xFFFF ∨ groupAt s c k ≠ none
    let win (old : Option Seg) : Option Seg := match a.who with
      | .group c k => (match groupAt s c k with | some g => if g.priv then some g.segS else old | none => old)
      | _ => old
    let barrier (i : Instr) (off : Nat) (w : State → Option Seg) : Prop := ∃ t, exec i s = .next t
      ∧ regVal t (regPart p off) = v &&& 0x800000000000FFFF ∧ w t = win (w s) ∧ t = { s with regs := t.regs, parts := t.parts }
    (a.who = .mgmt → (s.ports.all (fun q => q.st = 0) = true → exec .devidWrite s = .next (regPut s (regPlat 0) (v &&& 0x3FFF)))
        ∧ (s.ports.all (fun q => q.st = 0) = false → exec .devidWrite s = .next s)
        ∧ ((rollminNow s).toNat < v.toNat → exec .rollminWrite s = .next { s with rollmin := some v })
        ∧ (v.toNat ≤ (rollminNow s).toNat → exec .rollminWrite s = .next s))
      ∧ (a.who ≠ .mgmt → exec .devidWrite s = .next s ∧ exec .rollminWrite s = .next s ∧ (a.stack < 16 → exec .scfgWrite s = .next s))
      ∧ (admitted →
          exec .drvfeatWrite s = .next (regPut s (regPart p 0x108) (v &&& 0x7F))
            ∧ barrier .sbarWrite 0x88 (fun t => (partOf t p).sbarWin) ∧ barrier .hbarWrite 0xC8 (fun t => (partOf t p).hbarWin)
            ∧ (∃ t, exec .tickWrite s = .next t ∧ (regVal t (regPart p 0x90)).toNat = max 1 (v.toNat % 2 ^ 32)
                ∧ (partOf t p).tickAt = s.clock.toNat ∧ t = { s with regs := t.regs, parts := t.parts })
            ∧ (v.getLsbD 0 = true → v.getLsbD 2 = false → (regVal s (regPart p 0x220)).getLsbD 1 = false →
                ∃ t, exec .atctlGo s = .next t ∧ (regVal t (regPart p 0x220)).getLsbD 1 = true
                  ∧ (partOf t p).atNonce = (List.range 4).flatMap (fun i => leBytes 8 (regVal s (regPart p (0x200 + 8 * i))).toNat)
                  ∧ t.agenda = s.agenda ++ [(.attestReportDone, { part := p })])
            ∧ (v.getLsbD 2 = false → (v.getLsbD 0 = false ∨ (regVal s (regPart p 0x220)).getLsbD 1 = true) → exec .atctlGo s = .next s)
            ∧ (a.addr = regPart p 0x80 → a.len = 8 →
                exec .registerWrite s = .next (regPut s (regPart p 0x80) (regVal s (regPart p 0x80) &&& ~~~ (v &&& 0xF))))
            ∧ (∀ o, o < 32 → 1 ≤ a.len → o % 8 + a.len ≤ 8 → a.addr = regPart p (0x200 + o) → ∃ t, exec .registerWrite s = .next t
                ∧ regLoad t a.addr a.len = v.toNat % 2 ^ (8 * a.len) ∧ t = { s with regs := t.regs }
                ∧ ∀ j, j < 8 → (j < o % 8 ∨ o % 8 + a.len ≤ j) → regLoad t (a.addr / 8 * 8 + j) 1 = regLoad s (a.addr / 8 * 8 + j) 1))
      ∧ (¬ admitted → exec .drvfeatWrite s = .next s ∧ exec .sbarWrite s = .next s ∧ exec .hbarWrite s = .next s
          ∧ exec .tickWrite s = .next s ∧ exec .atctlGo s = .next s)
      ∧ ((regVal s (regPart p 0x220)).getLsbD 1 = true → ∃ u, exec .attestReportDone s = .next (barReg u p 0xC8 (partOf s p).hbarWin)
          ∧ (regVal u (regPart p 0x220)).getLsbD 1 = false ∧ (regVal u (regPart p 0x220)).getLsbD 2 = true ∧ u = { s with regs := u.regs }
          ∧ ∀ i, i < 319 → (regVal u (regPart p (0x400 + 8 * i))).toNat = fld (report s ((regVal s (regPlat 0x18)).toNat % 2 ^ 32)
              (partOf s p).atNonce (memBytes s.flash ((if s.bootB then imageSize else 0) + 16) 32)) (8 * i) 8)
      ∧ (a.who = .mgmt → a.stack < 16 → let d := min (v.toNat % 64) 32
          ∃ t, exec .scfgWrite s = .next t ∧ (regVal t (regStack a.stack 0)).toNat = v.toNat / 256 % 256 * 256 + d ∧ t.mem = s.mem
            ∧ (d = directRows s a.stack → t = { s with regs := t.regs }))
      ∧ (a.q < 1024 → (hostOwns s a.port p = true → exec .doorbellWrite s = .next (kickQueue s p a.q a.word 0 true []).1)
          ∧ (hostOwns s a.port p = false → exec .doorbellWrite s = .next s))

/-! ## Port states (18_link.md) -/

/-- R418 to R423, R437, R439, R441: what enabling, disabling, quiescing, training, losing lanes, draining and reports of the far end
make of a link port, and what a PCIe port's link going up or down does. That a port samples its mode as its link trains up, and that
ENABLE written again trains a DOWN port, are the model's readings (DEDUCED, log entry 54). -/
def Obligations.PortEvents : Prop :=
  ∀ s : State, s.arg.port < s.ports.length →
    let n := s.arg.port
    let q := portAt s n
    let a := s.arg
    let becomes (i : Instr) (q' : LPort) : Prop := ∃ t, exec i s = .next t ∧ portAt t n = q' ∧ (∀ m, m ≠ n → portAt t m = portAt s m)
      ∧ t.xacts = s.xacts ∧ t.mem = s.mem ∧ t.groups = s.groups
      ∧ t.out = s.out ++ (if q.st = q'.st then [] else [Out.portEvent n q'.st])
    (s.mode = .running → becomes .linkEnable { q with enable := true, st := if q.st = 0 then 1 else q.st }
        ∧ becomes .linkDisable { q with enable := false, st := 0 }
        ∧ becomes .linkQuiesce { q with quiesce := true, st := if q.st = 2 ∨ q.st = 3 then 4 else q.st }
        ∧ becomes .linkRetrain { q with st := if q.st = 2 ∨ q.st = 3 ∨ q.st = 5 then 1 else q.st })
      ∧ (s.mode ≠ .running → ∀ i ∈ [Instr.linkEnable, .linkDisable, .linkQuiesce, .linkRetrain, .linkTrained], exec i s = .next s)
      ∧ (s.mode = .running → q.st = 1 → 64 ≤ a.tx → a.tx ≤ 256 → 64 ≤ a.rx → a.rx ≤ 256 →
          let st := if a.tx = 256 ∧ a.rx = 256 then 2 else 3
          ∃ t, exec .linkTrained s = .next t ∧ t.mem = s.mem ∧ t.groups = s.groups ∧ (∀ m, m ≠ n → portAt t m = portAt s m)
            ∧ portAt t n = { q with peer := a.peer, epoch := a.epoch, known := true, tx := a.tx, rx := a.rx, st := st }
            ∧ ((∀ x ∈ s.xacts, x.unsent = false) → t.xacts = s.xacts
                ∧ t.out = s.out ++ [.flit n a.peer.toNat 11 0 false 0 (leBytes 4 s.epoch.toNat), .portEvent n st]))
      ∧ (q.st = 1 → ∃ t, exec .linkTrainingFail s = .next t ∧ (portAt t n).st = 5)
      ∧ (q.st ≠ 1 ∨ (∀ x ∈ s.xacts, x.port ≠ n) → becomes .linkTrainingFail { q with st := if q.st = 1 then 5 else q.st })
      ∧ (q.st = 2 ∨ q.st = 3 → 64 ≤ min q.tx a.tx → 64 ≤ min q.rx a.rx → becomes .laneLoss { q with
          tx := min q.tx a.tx, rx := min q.rx a.rx, st := if min q.tx a.tx < 256 ∨ min q.rx a.rx < 256 then 3 else q.st })
      ∧ (q.st = 2 ∨ q.st = 3 → min q.tx a.tx < 64 ∨ min q.rx a.rx < 64 → ∃ t, exec .laneLoss s = .next t ∧ (portAt t n).st = 5)
      ∧ (q.st = 2 ∨ q.st = 3 ∨ q.st = 4 → ∃ t, exec .portFailed s = .next t ∧ (portAt t n).st = 5)
      ∧ ((∀ x ∈ s.xacts, x.port ≠ n) → q.st = 2 ∨ q.st = 3 ∨ q.st = 4 → becomes .portFailed { q with st := 5 })
      ∧ ((∀ x ∈ s.xacts, x.port ≠ n) → becomes .quiesceDrained { q with st := if q.st = 4 then 0 else q.st })
      ∧ becomes .flitRetransmit { q with retries := q.retries + BitVec.ofNat 64 a.count }
      ∧ (q.st = 2 ∨ q.st = 3 → becomes .linkRxEpochReport { q with epoch := a.epoch, known := true })
      ∧ (q.st = 2 ∨ q.st = 3 → q.epoch ≠ a.epoch → ∃ t, exec .linkRxEpochReport s = .next t
          ∧ (Instr.hostWarmRestart, ({ link := true, ctx := q.peer.toNat } : Arg)) ∈ t.agenda)
      ∧ (n < 2 → ∃ t, exec .portLinkDown s = .next t ∧ (Instr.hostWarmRestart, ({ link := false, ctx := n } : Arg)) ∈ t.agenda)
      ∧ (n < 2 → SMap.wf 0 s.regs = true → (∀ g ∈ s.groups, ∀ p ∈ g.loads, p.port ≠ some n) → (∀ w ∈ s.posted, w.port ≠ n) → s.pkts = [] →
          ∃ t, exec .portLinkDown s = .next t ∧ (regVal t (regPcie n 0x10)).getLsbD 9 = false
            ∧ (regVal t (regPcie n 0x10)).getLsbD 10 = true ∧ (regVal t (regPcie n 8)).getLsbD 33 = false ∧ t.groups = s.groups)
      ∧ (n < 2 → SMap.wf 0 s.regs = true → ∃ t, exec .portLinkUp s = .next t ∧ t = { s with regs := t.regs, cxl := t.cxl }
          ∧ ((regVal s (regPcie n 0x10)).getLsbD 9 = false → (regVal s (regPcie n 8)).getLsbD 33 = false →
              cxlMode t n = (regVal s (regPcie n 0x10)).getLsbD 0)
          ∧ ((regVal s (regPcie n 0x10)).getLsbD 9 = true ∨ (regVal s (regPcie n 8)).getLsbD 33 = true → t.cxl = s.cxl)
          ∧ (cxlMode t n = true → (regVal t (regPcie n 8)).getLsbD 33 = true)
          ∧ (regVal t (regPcie n 0x10)).getLsbD 9 = true
          ∧ bits (regVal t (regPcie n 0x10)).toNat 8 4 = a.width % 32 ∧ bits (regVal t (regPcie n 0x10)).toNat 3 1 = a.speed % 8)

/-! ## Queues and packets (14_queue.md) -/

/-- R327 to R336: ticks, deadlines and budgets of hardware slots; a packet at the head that the dispatcher picks starts, and packets
in flight complete, wait on or fail. -/
def Obligations.QueueEvents : Prop :=
  ∀ s : State, SMap.wf 0 s.regs = true → Memory.wf s.mem = true → s.hwslots.length = 64 →
    let a := s.arg
    let k := a.slot
    let h := slotAt s k
    let p := h.part
    (a.part < 8 → ∃ u, exec .schedTick s = .next (barReg u a.part 0x88 (partOf s a.part).sbarWin)
        ∧ regVal u (regPart a.part 0x80) = regVal s (regPart a.part 0x80) ||| 2 ∧ u = { s with regs := u.regs })
      ∧ (k < 64 → h.map = true → h.period ≠ 0 → h.deadl.toNat ≤ s.clock.toNat → ∃ t, exec .slotDeadline s = .next t
          ∧ slotAt t k = { h with
              ovr := h.ovr || decide (h.infl ≠ 0), ovrc := if h.infl = 0 then h.ovrc else h.ovrc + 1, relt := h.deadl
              deadl := h.deadl + BitVec.ofNat 64 (h.period.toNat * 1050), used := 0, thr := false }
          ∧ t.out = s.out ++ (if h.infl = 0 then [] else [.overrun k h.qnum h.ridx h.infl]) ∧ ∀ j, j ≠ k → slotAt t j = slotAt s j)
      ∧ (k < 64 → h.map = true → h.period ≠ 0 → h.budget ≠ 0 → 1000 * h.budget.toNat ≤ h.used.toNat → ∃ t,
          exec .slotBudgetExhausted s = .next t ∧ slotAt t k = { h with thr := true } ∧ t = { s with hwslots := t.hwslots })
      ∧ (∀ b rest, k < 64 → startable s p = k :: rest → headBytes s h = .ok b → headPkt s h = some b →
          let ctx := h.ctx
          let sk : State := noteQueue s (kickKey p h.qnum) (pktSees s h (headAddr s h) 64)
          let goesOn (u : State) : State := dispatch (pktTouch (qcbTouch u p h.qnum) h (headAddr s h) 64) p
          let started (u : State) (n : BitVec 16) : Prop := (slotAt u k).ridx = h.ridx + 1 ∧ (slotAt u k).infl = h.infl + n
          let bad (i : Instr) (r d : Nat) : Prop := exec i s = .next (dispatch (headError s k r d) p)
          let done (i : Instr) : Prop := (h.ridx + 1 ≠ h.widx ∨ h.infl ≠ 0) → ∃ t, exec i s = .next t ∧ started t 0
            ∧ t = { s with hwslots := t.hwslots, agenda := t.agenda, qclk := t.qclk, tlb := t.tlb, rows := t.rows, out := t.out, nextId := t.nextId }
            ∧ SendsReads s t
          let idles (i : Instr) : Prop := h.ridx + 1 = h.widx → h.infl = 0 → ∃ u,
            exec i s = .next (goesOn (dispatch (schedEvent u p 2) p)) ∧ started u 0 ∧ (slotAt u k).qst = 3
            ∧ u = { s with hwslots := u.hwslots, qclk := u.qclk }
          (∀ e, packetBad s h b = some e → bad (packetStep (fld b 0 1)) e.1 e.2)
            ∧ (packetBad s h b = none → ((bit (fld b 1 1) 0 = true ∨ fld b 0 1 = 5) → workQuiet s ctx = true) →
              (fld b 0 1 = 0 → done .packetNop ∧ idles .packetNop)
                ∧ (fld b 0 1 = 5 → done .packetFence ∧ idles .packetFence ∧ (SMap.wf [] s.qclk = true → h.ridx + 1 ≠ h.widx ∨ h.infl ≠ 0 →
                    ∃ t, exec .packetFence s = .next t ∧ qclkOf t (kickKey p h.qnum)
                      = vcJoin (qclkOf sk (kickKey p h.qnum)) (qclkOf s (doneKey p h.qnum))))
                ∧ (∀ e, fld b 0 1 = 1 → pktRead s h (fld b 8 8) 128 8 = .error e → bad .packetLaunch e.1 e.2)
                ∧ (∀ d, fld b 0 1 = 1 → pktRead s h (fld b 8 8) 128 8 = .ok d →
                    let l := newLaunch sk k (fld b 8 8) d (bit (fld b 1 1) 0)
                    let s1 : State := { pktTouch sk h (fld b 8 8) 128 with launches := s.launches ++ [l], nextHandle := s.nextHandle + 1 }
                    (∀ e, launchBad s l = some e → bad .packetLaunch 3 e)
                      ∧ (∀ s2, launchBad s l = none → fld d 0 1 < 3 → admitLaunch s1 l [] = some s2 → s2.hwslots = s.hwslots →
                          ∃ u, exec .packetLaunch s = .next (dispatch u p) ∧ started u 1 ∧ u.groups = s2.groups
                            ∧ u.launches = s2.launches ∧ u.scr = s2.scr))
                ∧ (∀ e, fld b 0 1 = 2 → pktRead s h (fld b 8 8) 64 8 = .error e → bad .packetCopy e.1 e.2)
                ∧ (∀ d e, fld b 0 1 = 2 → pktRead s h (fld b 8 8) 64 8 = .ok d → freeEntry s ctx (fld b 16 1) false = some e →
                    ∃ u j, exec .packetCopy s = .next (dispatch u p) ∧ started u 1 ∧ j ∈ u.jobs ∧ j.st = .queued
                      ∧ j.packet = some (k, h.ridx) ∧ j.descA.toNat = fld b 8 8 ∧ j.field = fld b 16 1 ∧ j.entry = e ∧ j.ctx = ctx
                      ∧ u.mem = s.mem)
                ∧ (∀ e, fld b 0 1 = 3 → pktRead s h (fld b 8 8) 8 8 = .error e → bad .packetWaitmem e.1 e.2)
                ∧ (∀ w, fld b 0 1 = 3 → pktOf s k h.ridx = none → pktRead s h (fld b 8 8) 8 8 = .ok w →
                    (waitHolds b (leVal w) = false → ∃ t, exec .packetWaitmem s = .next t ∧ started t 1 ∧ t.pkts = s.pkts ++ [⟨k, h.ridx, 3,
                        BitVec.ofNat 64 (headAddr s h), b, if fld b 36 4 = 0 then 0 else s.clock.toNat + 1050 * fld b 36 4, 0⟩])
                      ∧ (waitHolds b (leVal w) = true → ∃ u,
                          exec .packetWaitmem s = .next (goesOn (packetDone u k (wordSees s h (fld b 8 8))))
                            ∧ started u 1 ∧ u.pkts = s.pkts ∧ u.mem = s.mem))
                ∧ (∀ e, fld b 0 1 = 4 → signalBad s h b = some e → bad .packetSignal e.1 e.2)
                ∧ (∀ t pa lat dev, fld b 0 1 = 4 → fld b 25 1 = 0 → fld b 8 8 ≠ 0 → pktOf s k h.ridx = none →
                    lookup s (partBuf s p) ctx (fld b 8 8) = .ok t → pteKind t.leaf.toNat = 0 → bit t.leaf.toNat 5 = true →
                    locOf s t (fld b 8 8) = .dram pa lat dev → regionOf s pa = .dram → badPartial s pa 8 = [] →
                    ∃ u, exec .packetSignal s = .next (goesOn (packetDone u k [])) ∧ started u 1 ∧ u.pkts = s.pkts
                      ∧ dramVal u pa 8 = (if fld b 24 1 = 1 then (dramVal s pa 8 + fld b 16 8) % 2 ^ 64 else fld b 16 8)
                      ∧ ∀ q, q < pa ∨ pa + 8 ≤ q → dramByte u q = dramByte s q)))
      ∧ (∀ q, k < 64 → pktOf s k a.ridx = some q → let base : State := { s with pkts := s.pkts.erase q }
          let fails (i : Instr) (r d : Nat) : Prop := ∃ u, exec i s =
              .next (dispatch (queueError u p h.qnum r a.ridx.toNat q.addr.toNat (fld q.data 4 4) d q.data) p)
            ∧ slotAt u k = { h with infl := h.infl - 1 } ∧ u = { base with hwslots := u.hwslots }
          let va := fld q.data 8 8
          let looked : State := pktTouch s h va 8
          (∀ w, q.kind = 3 → pktRead s h va 8 8 = .ok w → exec .waitmemRecheck s = .next (if waitHolds q.data (leVal w) then
              packetDone { looked with pkts := looked.pkts.erase q } k (wordSees s h va) else looked))
            ∧ (∀ e, q.kind = 3 → pktRead s h va 8 8 = .error e → fails .waitmemRecheck e.1 e.2)
            ∧ (q.kind = 3 → q.due ≠ 0 → q.due ≤ s.clock.toNat → fails .waitmemTimeout 6 0)
            ∧ (q.kind = 4 → q.stage = 0 → a.ok = true → fld q.data 25 1 = 0 → exec .signalDone s = .next (packetDone base k []))
            ∧ (q.kind = 4 → q.stage = 0 → a.ok = false → fld q.data 24 1 = 1 → fails .signalDone 4 8))

/-! ## Launches, groups and pawns (07_group.md, 08_kernel.md) -/

/-- R21, R160, R162 to R164, R176 to R191, R344: a team that fits is admitted, the teams of a gang or neighbourhood all at once, a stream is
taken up at its ring's RIDX, an ending group leaves its slot, a start block starts its tailor group, and pawns are queued, dropped and
dispatched. -/
def Obligations.LaunchEvents : Prop :=
  ∀ s : State, Memory.wf s.scr = true →
    let a := s.arg
    let slot (g : Group) : Nat × Nat := (g.core, g.slot)
    let dispatched (i : Instr) (l : Launch) (n core sl : Nat) : Prop := ∃ t h, exec i s = .next t ∧ h ∈ t.groups ∧ slot h = (core, sl)
      ∧ h.lh = l.lh ∧ h.ctx = l.ctx ∧ h.width = lWidth l ∧ h.vregs = lVregs l ∧ h.live = widthMask n ∧ h.em = widthMask n
      ∧ h.segS.limit = lScratch l ∧ t.pawns.length + n = s.pawns.length ∧ t.groups.length = s.groups.length + 1
    let free (l : Launch) : Prop := ahead s (pawnsDue s) l = []
    let yields (i : Instr) (arg : Arg) (l : Launch) : Prop := ∃ t, exec i s = .next t ∧ t = { s with agenda := t.agenda }
      ∧ (i, arg) ∈ t.agenda ∧ ∀ m ∈ ahead s (pawnsDue s) l, teamsLeft m = true → (Instr.teamAdmit, ({ lh := m.lh } : Arg)) ∈ t.agenda
    (∀ l i sp, launchOf s a.lh = some l → l.started = true → l.done = false → lKind l = 0 → ctxRuns s l.ctx = true → heldBack s l = false → free l →
        nextTeam l = some i → (openFields s l).findSome? (fun f => chooseSpot s (spotsIn s l f)) = some sp →
        ∃ t m, exec .teamAdmit s = .next t ∧ launchOf t a.lh = some m ∧ m.placed = l.placed ++ [i]
          ∧ t.groups.length = s.groups.length + (sp.cores.flatMap (fun c => c.2)).length)
      ∧ (∀ l, launchOf s a.lh = some l → l.started = true → lKind l = 0 →
          free l → (openFields s l).findSome? (fun f => chooseSpot s (spotsIn s l f)) = none → exec .teamAdmit s = .next s)
      ∧ (∀ l, launchOf s a.lh = some l → l.started = true → l.done = false → ctxRuns s l.ctx = true → heldBack s l = false → ¬ free l →
          (lKind l = 0 → yields .teamAdmit { lh := a.lh } l)
            ∧ (1 ≤ lWidth l → lWidth l ≤ (queueOf s a.field a.lh a.pc).length →
                yields .pawnGroupDispatch { field := a.field, lh := a.lh, pc := a.pc } l))
      ∧ (∀ g, groupAt s a.core a.slot = some g → g.st = .ending →
          (g.kind = .tailor → ∃ t, exec .groupRetire s = .next t ∧ t.groups = s.groups.filter (fun h => h.core ≠ a.core || h.slot ≠ a.slot)
              ∧ (Instr.tailorStart, ({ core := a.core } : Arg)) ∈ t.agenda)
            ∧ (∀ tm, g.kind ≠ .tailor → s.teams.find? (fun t => t.id = g.teamId) = some tm → 2 ≤ tm.live →
                (∃ h ∈ s.groups, h.lh = g.lh ∧ h.kind ≠ .tailor ∧ slot h ≠ slot g) → ∃ t m, exec .groupRetire s = .next t
                  ∧ t = { s with groups := s.groups.filter (fun h => h.core ≠ a.core || h.slot ≠ a.slot), teams := t.teams
                                 launches := t.launches, agenda := t.agenda }
                  ∧ (∀ l, launchOf s g.lh = some l → launchOf t g.lh = some { l with endVc := vcJoin l.endVc g.vc })
                  ∧ t.teams.find? (fun t => t.id = g.teamId) = some m ∧ m.live = tm.live - 1
                  ∧ m.faulted = (tm.faulted || decide (g.lfault ≠ 0)) ∧ m.masks = updAt tm.masks g.index.toNat (fun _ => g.lfault)))
      ∧ (let b := dramBytes s ((regVal s (regPlat 0x50)).toNat + 512 * a.core) 512
         let at' := (regVal s (regPlat 0x50)).toNat + 512 * a.core
         let pc : W64 := BitVec.ofNat 64 (fld b 0 8)
         let look := entryAt (updCtx s 0 (fun c => { c with root := fld b 16 8 })) (4 * a.core) a.core 0 pc
         let sound : Bool := decide (regionOf s at' = .dram) && decide (badLines s at' 512 = []) && tailorBlockOk b
         s.mode = .running → a.core < 384 → groupAt s a.core 16 = none →
          ((sound = true → look ≠ some false →
              ∃ t g, exec .tailorStart s = .next t ∧ groupAt t a.core 16 = some g ∧ g.kind = .tailor ∧ g.priv = true
                ∧ g.pc = pc ∧ g.land = (if look = none then some pc else none) ∧ g.width = 16 * 2 ^ fld b 8 1 ∧ g.vregs = fld b 9 1 ∧ g.segS.limit = 16384
                ∧ (∀ k, k < 64 → rdS g k = fld b (256 + 4 * k) 4) ∧ t.mem = s.mem ∧ t.scr = s.scr)
            ∧ (sound = false ∨ look = some false → exec .tailorStart s = .next (fatalEvent s 3 a.core))))
      ∧ (∀ g, groupAt s a.core a.slot = some g → g.st = .ready → g.hint = 0 → g.aged = false → g.kind ≠ .tailor →
          g.since + 1024 < s.clks → exec .groupAged s = .next (setGroup s { g with aged := true }))
      ∧ (let q := partOf s a.part
         a.part < 8 → s.parts.length = 8 → q.swap = true → q.swapDue = false → q.swapAt ≤ s.clock.toNat → noHints s a.part = false →
          ∃ t, exec .hintDeferralTimeout s = .next t ∧ partOf t a.part = { q with swapDue := true } ∧ t.out = s.out ++ [.deferral a.part]
            ∧ (Instr.swapProceed, ({ part := a.part } : Arg)) ∈ t.agenda ∧ t.groups = s.groups)
      ∧ (∀ q rest, s.fetchws = q :: rest → ctxRuns s q.ctx = true →
          let mbx := match ctxOf s q.ctx with | some c => physScr c q.mbx | none => q.mbx
          let found := s.launches.find? (fun l => l.ctx = q.ctx && l.descA = q.descA && l.started && !l.done && lKind l = 0 && lFlag l 5)
          (found = none → ∃ t, exec .fetchwReply s = .next t ∧ memVal t.scr mbx 4 = 2
              ∧ t.fetchws = rest.filter (fun r => (ctxOf s r.ctx).isSome))
            ∧ (∀ l, found = some l → launchOf s l.lh = some l → nextTeam l = none → l.ended.length ≠ lTeams l →
                ∃ t, exec .fetchwReply s = .next t ∧ memVal t.scr mbx 4 = 1 ∧ memVal t.scr (mbx + 8) 4 = lTeams l)
            ∧ (∀ l i, found = some l → launchOf s l.lh = some l → nextTeam l = some i → l.ended.length + 1 ≠ lTeams l →
                ∃ t m, exec .fetchwReply s = .next t ∧ memVal t.scr mbx 4 = 0 ∧ memVal t.scr (mbx + 4) 4 = i
                  ∧ memVal t.scr (mbx + 24) 8 = lEntry l ∧ launchOf t l.lh = some m ∧ m.placed = l.placed ++ [i]))
      ∧ (∀ l, launchOf s a.pawn.lh = some l →
          let u : State := if a.pawn.kind = 0 then
              agentTouch s (fieldBuf (launchField s l a.field)) l.ctx (fld l.desc 56 8) (8 * fld l.desc 51 1) else s
          (pawnOk u l a.field a.pawn = true → ∃ t, exec .pawnArrival s = .next t ∧ t = { u with pawns := t.pawns, agenda := t.agenda }
              ∧ t.pawns = s.pawns ++ [⟨a.field, a.pawn, s.clock.toNat, !ctxRuns s l.ctx⟩])
            ∧ (pawnOk u l a.field a.pawn = false → ∃ v m, exec .pawnArrival s = .next (finishLaunch v l.lh) ∧ v = { u with launches := v.launches }
                ∧ launchOf v l.lh = some m ∧ m.dropped = l.dropped + 1 ∧ m.firstDrop = (if l.firstDrop = 0 then a.pawn.pc else l.firstDrop)))
      ∧ (∀ l sp core sl ks cs, launchOf s a.lh = some l → ctxRuns s l.ctx = true → heldBack s l = false → 1 ≤ lWidth l → lWidth l ≤ 64 →
          free l → chooseSpot s (pawnSpots s l (launchField s l a.field)) = some sp → sp.cores = (core, sl :: ks) :: cs →
          let ps := ((queueOf s a.field a.lh a.pc).take (lWidth l)).map (fun q => q.pawn)
          let faults (u : Nat) (e : Flt) : Prop := lWidth l ≤ (queueOf s a.field a.lh a.pc).length →
            exec .pawnGroupDispatch s = .next (unitFault s l.ctx u e.reason e.detail 0 0 e.addr)
          (∀ u e, ps.findSome? (headerFault s l a.field) = some (u, e) → faults u e)
            ∧ (∀ u e, ps.findSome? (headerFault s l a.field) = none → ringSize s l ps = .error (u, e) → faults u e)
            ∧ ∀ r, ps.findSome? (headerFault s l a.field) = none → ringSize s l ps = .ok r →
          (lWidth l ≤ (queueOf s a.field a.lh a.pc).length → dispatched .pawnGroupDispatch l (lWidth l) core sl)
            ∧ (gatherDue s l a.field a.pc = true →
                dispatched .gatherTimeout l (min (lWidth l) (queueOf s a.field a.lh a.pc).length) core sl))
      ∧ (∀ b d, let k := a.slot
          let h := slotAt s k
          let sk : State := noteQueue s (kickKey h.part h.qnum) (pktSees s h (headAddr s h) 64)
          let l := newLaunch sk k (fld b 8 8) d (bit (fld b 1 1) 0)
          let taken (v : State) : State := { v with launches := s.launches ++ [l], nextHandle := s.nextHandle + 1 }
          let read : State := pktTouch sk h (fld b 8 8) 128
          let admitted (v : State) (post : State → Prop) : Prop := ∃ u, exec .packetLaunch s = .next (dispatch u h.part)
            ∧ (slotAt u k).ridx = h.ridx + 1 ∧ (slotAt u k).infl = h.infl + 1 ∧ u.teams = v.teams ∧ u.groups = v.groups ∧ post u
          let whole (i : Nat → Team → Prop) : Prop :=
            (admitLaunch (taken read) l [] = none → exec .packetLaunch s = .next s)
              ∧ ∀ v, admitLaunch (taken read) l [] = some v → v.hwslots = s.hwslots → admitted v (fun u =>
                  u.groups.length = s.groups.length + lTeams l * lGroups l
                    ∧ (∀ m, launchOf u l.lh = some m → m.placed = List.range (lTeams l))
                    ∧ u.teams.take s.teams.length = s.teams ∧ u.teams.length = s.teams.length + lTeams l
                    ∧ ∀ j t, u.teams[s.teams.length + j]? = some t → t.lh = l.lh ∧ t.idx = j ∧ t.live = lGroups l ∧ i j t)
          k < 64 → s.hwslots.length = 64 → startable s h.part = [k] → headBytes s h = .ok b → headPkt s h = some b → packetBad s h b = none →
          (bit (fld b 1 1) 0 = true → workQuiet s h.ctx = true) → fld b 0 1 = 1 → pktRead s h (fld b 8 8) 128 8 = .ok d →
          launchBad sk l = none → (∀ m ∈ s.launches, m.lh ≠ l.lh) →
          (lKind l = 2 → whole (fun _ _ => True))
            ∧ (lKind l = 1 → (admitLaunch (taken read) l [] = none → exec .packetLaunch s = .next s)
                ∧ ∀ v, admitLaunch (taken read) l [] = some v → ∃ top cs, rectangle (fld d 12 1) (fld d 13 1) top = some cs
                    ∧ (∀ c ∈ cs, coreField c ∈ openFields (taken read) l) ∧ whole (fun j t => cs[j]? = t.cores.head? ∧ t.cores.length = 1))
            ∧ (∀ e, lKind l = 3 → streamBad sk l = .error e → exec .packetLaunch s = .next (dispatch (headError s k e.1 e.2) h.part))
            ∧ (∀ ext, lKind l = 3 → streamBad sk l = .ok ext →
                let w := ringsTouch (taken (pktTouch read h (fld d 80 8) 128)) l.ctx ext
                ∀ c, winLoad w (partBuf w (partOfCtx w l.ctx)) l.ctx (fld ext 0 8) 64 = .ok c →
                  admitted s (fun u => ∃ t, u.streams = s.streams ++ [t] ∧ t.lh = l.lh ∧ t.ctx = l.ctx ∧ t.ext = ext
                    ∧ (let r : W32 := BitVec.ofNat 32 (fld c 20 4)
                       t.next = r ∧ t.seen = r ∧ t.retired = r) ∧ t.wins = [] ∧ t.flushed = false
                    ∧ (Instr.ingressPoll, ({ lh := l.lh } : Arg)) ∈ u.agenda)))

/-! ## Fetched lines and returned data (03_encoding.md, 09_page.md, 18_link.md) -/

/-- R56, R203, R207, R222 to R227, R443: a fetched line is in its core's buffer, a walk's leaf is cached, a load's data is written in
its lanes, and what fails, times out or is performed outside the part reaches the group, engine or record that it belongs to. That a lost
write of an agent without a unit number names no unit is the model's reading (log entry 25). -/
def Obligations.MemoryReturns : Prop :=
  ∀ s : State,
    let a := s.arg
    let holds (g : Group) : Bool := (match g.wait with | .ext tags => tags.contains a.tag | _ => false) && g.loads.all (fun p => p.tag ≠ a.tag)
    (∀ g b t loc, groupAt s a.core a.slot = some g → heldLine s g (lineOf g.pc) = none →
        lineInMem s (gBuf g) g.ctx (lineOf g.pc) = .ok (b, t, loc) → lineSound b = true →
        ∃ u, exec .lineFetch s = .next (fetchAhead u g (lineOf g.pc + 64)) ∧ lineInBuf u g.core g.ctx (lineOf g.pc) = some b
          ∧ t ∈ u.tlb ∧ u = { unitTouch (cacheEnts s [t]) loc 64 with ibuf := u.ibuf })
      ∧ (∀ c t, ctxOf s a.ctx = some c → lookup s (4 * a.core + a.slot / 17) a.ctx a.addr = .ok t → ∃ u, exec .pageWalkDone s = .next u
          ∧ t ∈ u.tlb ∧ ReadsOnly s u)
      ∧ (∀ g p, loadGroup s a.tag = some (g, p) →
          let seen (h : Group) : Group := if p.key = 0 then h else noteRead s h p.key p.bytes p.acq
          let lost : Group := { g with loads := g.loads.filter (fun q => !(q.blocking && q.pc = p.pc)), todo := [] }
          let fails (i : Instr) : Prop := (p.blocking = true → p.port ≠ none → exec i s =
                .next (takeFault s lost ⟨6, 0, p.vas.headD 0, maskOf p.lanes, 0⟩))
            ∧ (p.blocking = false ∨ p.port = none → exec i s =
                .next (lateFault (loadEnds s g a.tag) g.ctx g.core g.slot 6 p.pc (p.vas.headD 0)))
          (∀ n, a.status ≠ .error → p.dst = .v n → g.ok = true → p.lanes.Nodup → (∀ l ∈ p.lanes, l < 64) →
              ∃ h, exec .loadDataReturn s = .next (loadEnds s (seen h) a.tag)
              ∧ h = { g with v := h.v } ∧ (∀ k l i, p.lanes[k]? = some l → i < p.words → rdV h (n.toNat + i) l =
                  wordOfVal (extendLd p.signed p.bytes ((a.lanes.getD k 0).toNat % 2 ^ (8 * p.bytes))) i)
              ∧ (∀ m l, l < 64 → ¬ (l ∈ p.lanes ∧ n.toNat ≤ m ∧ m < n.toNat + p.words) → rdV h m l = rdV g m l))
            ∧ (∀ n l, a.status ≠ .error → p.dst = .s n → g.ok = true → p.lanes = [l] → ∃ h, exec .loadDataReturn s = .next (loadEnds s (seen h) a.tag)
                ∧ WrittenS g h n.toNat p.words (extendLd p.signed p.bytes ((a.lanes.getD 0 0).toNat % 2 ^ (8 * p.bytes))))
            ∧ (a.status = .error → fails .loadDataReturn)
            ∧ (p.due ≠ 0 → p.due ≤ s.clock.toNat → fails .hostLoadTimeout)
            ∧ (p.due = 0 ∨ s.clock.toNat < p.due → exec .hostLoadTimeout s = .next s))
      ∧ (s.groups.find? holds = none →
          (∀ p, s.posted.find? (fun p => p.tag = a.tag) = some p →
              let u : State := { s with posted := s.posted.filter (fun p => p.tag ≠ a.tag) }
              (p.guid ≠ 0 → exec .hostStoreFailure s = .next (lateFault u p.ctx p.core p.slot 6 p.pc p.va))
                ∧ (∀ j, p.guid = 0 → writerJob s p.ctx p.slot = some j → exec .hostStoreFailure s = .next (jobFault u j (mkFlt 6 p.va)))
                ∧ (p.guid = 0 → writerJob s p.ctx p.slot = none →
                    exec .hostStoreFailure s = .next (unitFault u p.ctx p.slot 6 0 0 0 p.va)))
            ∧ (∀ x i, xactOf s a.tag = some x → i ∈ [Instr.remoteAccessTimeout, .linkTimeout] →
              let u := endXact s x
              let sent := x.sent + 1050 * (regVal s (regLink 0)).toNat ≤ s.clock.toNat
              (x.unsent = true ∨ (¬ sent ∧ x.port ≠ 16) → exec i s = .next s)
                ∧ (x.unsent = false → sent →
                  (x.load = true → exec i s = .next (loadFails u a.tag 6))
                    ∧ (∀ r, x.load = false → x.record = some r → exec i s = .next (elog u (partOfCtx u x.ctx) 4 r x.ctx x.va 0 x.payload))
                    ∧ (x.load = false → x.record = none →
                      (x.guid ≠ 0 → exec i s = .next (lateFault u x.ctx x.core x.slot 6 x.pc x.va))
                        ∧ (x.guid = 0 → x.ctx = 0 → exec i s = .next u)
                        ∧ (x.guid = 0 → x.ctx ≠ 0 → x.slot = 0xFFFF → exec i s = .next (lateFault u x.ctx 0xFFFF 0xFFFF 6 x.pc x.va))
                        ∧ (∀ j, x.guid = 0 → x.ctx ≠ 0 → x.slot ≠ 0xFFFF → writerJob u x.ctx x.slot = some j →
                            exec i s = .next (jobFault u j (mkFlt 6 x.va)))
                        ∧ (x.guid = 0 → x.ctx ≠ 0 → x.slot ≠ 0xFFFF → writerJob u x.ctx x.slot = none →
                            exec i s = .next (unitFault u x.ctx x.slot 6 0 0 0 x.va)))))
            ∧ (let done (u : State) : State := { u with posted := u.posted.filter (fun p => p.tag ≠ a.tag) }
               (∀ x, xactOf s a.tag = some x → exec .updatePerformed s = .next (done (if x.load then s else endXact s x)))
                 ∧ (xactOf s a.tag = none → exec .updatePerformed s = .next (done s))))
      ∧ (∀ x, xactOf s a.tag = some x → (portAt s x.port).st ≠ 4 → s.pkts = [] → s.irqs = [] → (∀ y ∈ s.xacts, y.unsent = false) →
          endXact s x = { s with xacts := s.xacts.filter (fun x => x.tag ≠ a.tag) })
      ∧ (∀ g tags, s.groups.find? holds = some g → g.wait = .ext tags → ∃ u, u.groups = s.groups ∧ u.mem = s.mem
          ∧ u.posted = s.posted.filter (fun p => p.tag ≠ a.tag)
          ∧ exec .updatePerformed s = .next (if tags.erase a.tag = [] then (if g.todo = [] then finish u g else goLanes u { g with todo := [] } g.todo)
              else setGroup u { g with wait := .ext (tags.erase a.tag) }))

/-! ## Engines and base dies (11_engines.md, 17_rows.md) -/

/-- R253, R254, R264 to R268, R272, R276, R278, R405, R406, R413: an idle engine takes a job, does its pieces, lands its chunks and
claims its slots; promotions and write-backs end, epochs advance, and a row job ends with its record. That a descriptor outside a normal
page is a fault of the job (DEDUCED, log entry 22), and the id of a base die as the writer of its records (Config.rowWriter, log entry 24),
are the model's readings. -/
def Obligations.EngineAndRowEvents : Prop :=
  ∀ s : State,
    let a := s.arg
    let due (i : Instr) (t : State) : Prop := (i, ({ gather := a.gather, field := a.field, eng := a.eng } : Arg)) ∈ t.agenda
    let answers (i : Instr) (post : State → Job → Prop) : Prop := ∃ t j, exec i s = .next t ∧ j ∈ t.jobs ∧ post t j
    (∀ j, a.eng < engCount a.gather → engJob s a.gather a.field a.eng = none →
        pickJob (ctxRuns s) [] [] (s.jobs.filter (fun j => j.gather = a.gather && jobField s j = a.field)) = some j →
        let j1 : Job := { j with st := .running, eng := some a.eng }
        (j.descA.toNat % 64 ≠ 0 ∨ j.badOpt = true → exec .jobTake s = .next (endJob (putJob s j1) j1 .error 1 j.descA.toNat))
          ∧ (∀ f, j.descA.toNat % 64 = 0 → j.badOpt = false → readRange (putJob s j1) j1 false normKind j.descA.toNat 64 = .error f →
              exec .jobTake s = .next (jobFault (putJob s j1) j1 f))
          ∧ (∀ s2 d, j.descA.toNat % 64 = 0 → j.badOpt = false → j.landed = false →
              readRange (putJob s j1) j1 false normKind j.descA.toNat 64 = .ok (s2, d) →
              let j2 : Job := { j1 with desc := d, next := 0, sub := 0 }
              dNext { j1 with desc := d } = 0 → (if j.gather then gatherOk j2 else copyOk s2 j2) = true →
              answers .jobTake (fun t k => k.st = .running ∧ k.eng = some a.eng ∧ k.desc = d ∧ k.next = 0 ∧ k.entry = j.entry
                ∧ k.ctx = j.ctx ∧ due (if dRack j2 then .engineRackClaim else .subchunkBoundary) t)))
      ∧ (∀ j, engJob s a.gather a.field a.eng = some j → ctxRuns s j.ctx = true →
          let room : Prop := ∀ x ∈ jobXacts s j, x.unsent = false
          let ready : Prop := dRack j = true → j.claim ≠ none ∧ j.rackReady = true
          (j.gather = false → dDev j = false → chunkFull s j = false → ready → j.abort = false → room →
              let cs := j.next * (if dRack j then rackSize s j else dChunk j)
              let o := cs + j.sub
              let n := min (4096 - o % 4096) (chunkBytes s j - j.sub)
              (∀ f, holdChunk s j cs = .error f → exec .subchunkBoundary s = .next (workFault s j f))
                ∧ ∀ s0 h, holdChunk s j cs = .ok (s0, h) → (∀ f, copyWork s0 h cs o n = .error f → exec .subchunkBoundary s = .next (workFault s j f))
                  ∧ ∀ s1 b, copyWork s0 h cs o n = .ok (s1, b) → s1.jobs = s.jobs → answers .subchunkBoundary (fun _ k => k.sub = j.sub + n
                      ∧ k.next = j.next ∧ k.entry = j.entry ∧ k.st = .running ∧ k.held = h.held))
            ∧ (∀ s1 b, dDev j = true → dXf j = 0 → chunkFull s j = false → ready → j.abort = false → room →
                (jobOut s j = true → exec .subchunkBoundary s = .next (nextStep s j .subchunkBoundary))
                  ∧ (jobOut s j = false → copyWork s j 0 (8 * j.next) 8 = .ok (s1, b) → s1.jobs = s.jobs → answers .subchunkBoundary
                      (fun _ k => k.next = j.next + 1 ∧ k.sub = j.sub + 1 ∧ k.entry = j.entry ∧ k.st = .running)))
            ∧ (chunkFull s j = false → ready → j.abort = true → exec .subchunkBoundary s = .next (abortJob s j))
            ∧ (chunkFull s j = false → ready → j.abort = false → ¬ room → exec .subchunkBoundary s = .next (nextStep s j .subchunkBoundary))
            ∧ (j.gather = true → dDev j = false → chunkFull s j = false → ready → j.abort = false → room →
                (∀ f, gatherWork s j = .error f → exec .subchunkBoundary s = .next (workFault s j f))
                  ∧ ∀ s1 z, gatherWork s j = .ok (s1, z) → s1.jobs = s.jobs → answers .subchunkBoundary (fun t k => k.sub = 1 ∧ k.next = j.next
                      ∧ k.entry = j.entry ∧ k.st = .running ∧ k.cur.nanc = j.saved.nanc + BitVec.ofNat 64 z ∧ due .chunkBoundary t))
            ∧ (∀ n b i, j.gather = true → dRack j = true → i < n → (gatherWrites s j n b)[i]?
                = some (slotOff s j + (j.next + i) % rowsPer s j * dF j 28 2, (b.drop (i * dF j 28 2)).take (dF j 28 2)))
            ∧ (chunkFull s j = true → jobOut s j = false → j.abort = false →
                (∀ u k, boundary s j = (u, some k) →
                  exec .chunkBoundary s = .next (if jobTotal u k ≤ k.next then finalJob u k
                      else nextStep u k (if dRack k then .engineRackClaim else .subchunkBoundary))
                    ∧ k.next = nextAfter s j ∧ k.sub = 0 ∧ k.saved = j.cur ∧ k.claim = none ∧ k.landed = false)
                  ∧ ∀ u, boundary s j = (u, none) → exec .chunkBoundary s = .next u)
            ∧ (chunkFull s j = true → jobOut s j = true → exec .chunkBoundary s = .next (nextStep s j .chunkBoundary))
            ∧ (dRack j = true → j.wait = none → j.sub = 0 → j.abort = false → j.claim = none → j.rackReady = false →
                (jobRack s j = none → exec .engineRackClaim s = .next (jobError s j 3 (dDst j)))
                  ∧ ∀ r, jobRack s j = some r → (j.gather = true → dF j 28 2 ≤ r.ssize) →
                    answers .engineRackClaim (fun t k => k.claim = some r.tail.toNat ∧ k.entry = j.entry
                      ∧ (k.wait = some (segAddr (dSeg j) (claimBar r r.tail true), claimTarget r r.tail true)
                          ∨ (k.wait = none ∧ k.rackReady = true ∧ due .engineRackWaitEnd t))))
            ∧ (∀ c, j.claim = some c → j.rackReady = true → j.sub = 0 → j.abort = false →
                answers .engineRackWaitEnd (fun t k => k = { j with wait := none, vc := (waitEnds s j).vc } ∧ due .subchunkBoundary t)))
      ∧ (SMap.wf default s.rows = true → let r := rowGet s a.addr
          (r.row ≠ 0 → r.busy = true → r.writingBack = false → ∃ u, exec .rowPromoteDone s = .next (replayRows u a.stack r.held)
              ∧ rowGet u a.addr = { r with busy := false, held := [] } ∧ u = { s with rows := u.rows })
            ∧ (r.row ≠ 0 → r.writingBack = true → ∃ u, exec .rowWritebackDone s = .next (replayRows u a.stack r.held)
                ∧ u = { s with rows := u.rows, agenda := u.agenda } ∧ (r.next = none → rowGet u a.addr = default ∧ u.agenda = s.agenda)
                ∧ ∀ n, r.next = some n → n.1 ≠ 0 → (Instr.rowPromoteDone, ({ stack := a.stack, addr := a.addr } : Arg)) ∈ u.agenda
                    ∧ rowGet u a.addr = ⟨n.1, false, n.2, true, false, SMap.get 0 s.stEpoch a.stack, none, []⟩))
      ∧ (a.stack < 16 → SMap.wf 0 s.stEpoch = true → ∃ t, exec .epochTick s = .next t
          ∧ SMap.get 0 t.stEpoch a.stack = SMap.get 0 s.stEpoch a.stack + 1 ∧ t = { s with stEpoch := t.stEpoch })
      ∧ (∀ j, s.rowJobs.find? (fun j => j.stack = a.stack) = some j →
          let b := leBytes 4 4 ++ leBytes 4 j.id.toNat ++ leBytes 8 s.clock.toNat
          let done (u : State) : State := bumpGen { u with rowJobs := u.rowJobs.erase j } a.stack j.entry
          let put := agentStore s (fieldBuf a.stack) j.ctx j.comp.toNat b ⟨6, Config.rowWriter a.stack, 0⟩ (sysRel j.ctx j.vc :: rowRel j)
          (∀ u, put = .ok u → exec .rowJobDone s
              = .next (done { u with xacts := updWhere u.xacts (fun x => s.nextId ≤ x.tag) (fun x => { x with record := some 0xFFFF }) }))
            ∧ ∀ f, put = .error f → exec .rowJobDone s = .next (done (elog s (partOfCtx s j.ctx) 4 0xFFFF j.ctx j.comp.toNat 0 b)))

/-! ## Window engines (15_window.md) -/

/-- R343, R346 to R364, R371: the reader looks at its ring, records are late, delivered or held, control records advance the watermark,
flush or count as malformed, pawns are sent one at a time, and reading, rows and alarms go on again. That late records count among the
records read, and control records do not, is the model's choice (log entry 26). -/
def Obligations.WindowEvents : Prop :=
  ∀ (s : State) (t : Stream), streamOf s s.arg.lh = some t → ctxRuns s t.ctx = true →
    let a := s.arg
    let becomes (u : State) (t' : Stream) : Prop := streamOf u a.lh = some t'
    let reads (i : Instr) (post : Ring → List Byte → Prop) : Prop := ∀ r d, t.flushed = false → t.paused = false → t.next ≠ t.seen →
      (∀ c ∈ t.cmds, c.1 ≠ t.next) → nextRecord s t = .ok (r, d) → recordStep r d = i → post r d
    let goes (i : Instr) (q : Stream → Prop) : Prop := ∃ u t', exec i s = .next (goOn u t') ∧ q t' ∧ t'.next = t.next + 1 ∧ t'.lh = t.lh
    (t.flushed = false → t.cmds = [] → t.paused = false → t.next = t.retired → fld t.ext 112 8 = 0 →
        (∀ f, agentRead s (ringBuf s t) t.ctx (fld t.ext 0 8) 64 = .error f → exec .ingressPoll s = .next (winFault s t (ringField s t) f))
          ∧ (∀ s1 b, agentRead s (ringBuf s t) t.ctx (fld t.ext 0 8) 64 = .ok (s1, b) →
              let w : W32 := BitVec.ofNat 32 (fld b 16 4)
              let t1 : Stream := { t with seen := w, vc := vcJoin t.vc (widxSees s t) }
              let s2 := updStream s1 t.lh (fun _ => t1)
              (t.next = w → exec .ingressPoll s = .next s2 ∧ becomes s2 t1)
                ∧ (∀ r d, t.next ≠ w → nextRecord s2 t1 = .ok (r, d) → ∃ u, exec .ingressPoll s = .next u ∧ becomes u t1
                    ∧ (recordStep r d, ({ lh := a.lh } : Arg)) ∈ u.agenda ∧ u.mem = s.mem)))
      ∧ reads .ingressDataRecord (fun r d =>
          let late : Prop := fld t.ext 8 1 ≠ 0 ∧ fld d 8 8 + fld t.ext 32 8 < t.wm.toNat
          let s1 := agentTouch s (ringBuf s t) t.ctx (ringRec r t.next) r.size
          let what := dataRecord s1 t (BitVec.ofNat 64 (fld d 0 8)) (BitVec.ofNat 64 (fld d 8 8)) t.next
          (late → goes .ingressDataRecord (fun t' => t' = { t with next := t.next + 1, read := t.read + 1, late := t.late + 1 }))
            ∧ (∀ t1, ¬ late → what = some t1 →
                let zeroed := zeroPockets (mapTouch s1 t (BitVec.ofNat 64 (fld d 0 8))) t1 (t1.wins.filter (fun w => t.nextId ≤ w.id))
                (∀ u, zeroed = .ok u → goes .ingressDataRecord (fun t' =>
                    t' = { t1 with next := t.next + 1, read := t.read + 1, wins := t'.wins }
                      ∧ t'.wins = t1.wins.map (fun w => if t.nextId ≤ w.id then { w with idle := s.clock.toNat } else w)))
                  ∧ ∀ vf f, zeroed = .error (vf, f) → exec .ingressDataRecord s = .next (winFault s1 t vf f))
            ∧ (¬ late → what = none → ∃ u, exec .ingressDataRecord s = .next u ∧ becomes u { t with paused := true }))
      ∧ reads .controlWatermark (fun _ d => goes .controlWatermark (fun t' => t'.wm.toNat = max t.wm.toNat (fld d 8 8)
          ∧ ∀ w ∈ t'.wins, fld t.ext 8 1 ≠ 0 → (winOpen w = true ∨ w.st = .filling) → w.close ≤ t'.wm.toNat → w.last = true))
      ∧ reads .controlFlush (fun _ _ => goes .controlFlush (fun t' => t'.flushed = true ∧ t'.cmds = []))
      ∧ reads .controlMalformed (fun _ _ => goes .controlMalformed (fun t' =>
          t' = { t with next := t.next + 1, malformed := t.malformed + 1 }))
      ∧ (∀ w p rest c, winOf t a.win = some w → w.queue = p :: rest → sendable t w = true → ctxOf s t.ctx = some c →
          let f := physField c w.field
          (∀ e, storeFill s f < 65536 → recordAddr s t p = .error e → exec .windowPawnSend s = .next (winFault s t (ringField s t) e))
            ∧ (∀ s0 rc, storeFill s f < 65536 → recordAddr s t p = .ok (s0, rc) → ∃ u pw t' w', exec .windowPawnSend s = .next u
              ∧ (Instr.pawnArrival, ({ field := w.field, pawn := pw } : Arg)) ∈ u.agenda ∧ pw.kind.toNat = p.kind % 256 ∧ pw.lh = t.lh
              ∧ pw.win = some w.id ∧ pw.narg = 12 ∧ pw.arg = pawnArgs t w p rc ∧ pw.vc = vcJoin t.vc w.vc ∧ becomes u t' ∧ winOf t' w.id = some w'
              ∧ w' = { w with queue := rest, inflight := some p, disp := false })
            ∧ (65536 ≤ storeFill s f → ∃ u, exec .windowPawnSend s = .next u ∧ u = { s with agenda := u.agenda }
                ∧ (Instr.windowPawnSend, ({ lh := t.lh, win := w.id } : Arg)) ∈ u.agenda))
      ∧ (t.paused = true → ∃ u, exec .ingressResume s = .next u ∧ becomes u { t with paused := false }
          ∧ (Instr.ingressPoll, ({ lh := a.lh } : Arg)) ∈ u.agenda)
      ∧ ((rowField t a.addr = none ∨ dormant s t a.addr = false → exec .dormancyDemote s = .next s)
          ∧ (∀ vf e pa lat dev k, rowField t a.addr = some vf → dormant s t a.addr = true →
              lookup s (winBuf s t.ctx vf) t.ctx a.addr = .ok e → locOf s e a.addr = .dram pa lat dev → pa < 0x0F000000000 →
              let s1 := cacheEnts s [e]
              SMap.wf default s1.rows = true → rowSlotOf s1 (homeStack pa) (stackOff pa / 1024 * 1024) = some k →
              let r := rowGet s1 k
              r.busy = false → r.pin = false → ∃ u, exec .dormancyDemote s = .next u ∧ u = { s1 with rows := u.rows, agenda := u.agenda }
                ∧ (r.dirty = false → rowGet u k = default)
                ∧ (r.dirty = true → rowGet u k = { r with busy := true, writingBack := true, next := none }
                    ∧ (Instr.rowWritebackDone, ({ stack := homeStack pa, addr := k } : Arg)) ∈ u.agenda)))
      ∧ (∀ c cb r b, egressAddr s (ringBuf s t) t a.ring = .ok (c, cb) → agentRead c (ringBuf s t) t.ctx cb 64 = .ok (r, b) →
          (fld b 12 4 ≤ ringFree (ringOf b) → ∃ u, exec .egressRearm s = .next u
              ∧ becomes u { t with disarmed := t.disarmed.filter (fun r => r ≠ a.ring) } ∧ u = { r with streams := u.streams })
            ∧ (ringFree (ringOf b) < fld b 12 4 → exec .egressRearm s = .next r))

/-! ## Requests from outside (18_link.md) -/

/-- R424 to R435, R440 to R442: inbound reads, writes, atomics, arrivals, messages and shootdowns are answered as the routing table and
the local map let them; answers end what was outstanding; and what a host reaches through BAR 0 and BAR 2. An arrival parked for an
unknown or dead context (log entry 48), the ACC check of the own device (25), and a request over a port that does not serve changing nothing
(54), are the model's readings (DEDUCED). -/
def Obligations.LinkRequests : Prop :=
  ∀ s : State, SMap.wf 0 s.regs = true → Memory.wf s.mem = true →
    let a := s.arg
    let src := a.src.toNat
    let sent (u : State) (kind tag : Nat) (r : Resp) (d : List Byte) : State := match routeOf u src with
      | some port => emit u (.response port src kind tag r d)
      | none => u
    let answered (t : State) (kind tag : Nat) (r : Resp) (d : List Byte) : Prop := t.out = s.out ++ (match routeOf s src with
      | some port => [.response port src kind tag r d]
      | none => [])
    let written (t : State) (at' : Nat) (b : List Byte) : Prop := (∀ i, i < b.length → dramByte t (at' + i) = b.getD i 0)
      ∧ ∀ q, q < at' ∨ at' + b.length ≤ q → dramByte t q = dramByte s q
    let writes (i : Instr) : Prop := ∀ at' b, putRuns a.put = [(at', b)] → regionRun s at' b.length = .dram → badPartial s at' b.length = [] →
      ∃ t, exec i s = .next t ∧ answered t 5 a.tag .accepted [] ∧ written t at' b
    let z := if a.atom.w64 then 8 else 4
    let old (pa : Nat) := dramVal s pa z
    let new (pa : Nat) := atomNew a.atom.op a.atom.w64 a.atom.uns (old pa) (a.atom.data.toNat % 2 ^ (8 * z)) (a.atom.cmp.toNat % 2 ^ (8 * z))
    let kind := if a.atom.ret then 7 else 5
    let comes : Prop := s.mode = .running ∧ src ≠ ownDev s ∧ portServes s a.port = true
    ((src ≠ ownDev s ∧ portServes s a.port = false) ∨ s.mode ≠ .running → ∀ i ∈ [Instr.linkRxReadRequest, .linkRxPostedWrite,
        .linkRxNonpostedWrite, .linkRxAtomic, .linkRxArrival, .linkRxMessage, .linkRxShootdown], exec i s = .next s)
      ∧ (comes → served s src false = false → ∀ x ∈ [(Instr.linkRxReadRequest, 2), (.linkRxPostedWrite, 5), (.linkRxNonpostedWrite, 5),
          (.linkRxAtomic, kind), (.linkRxArrival, 5), (.linkRxMessage, 5)], exec x.1 s = .next (sent s x.2 a.tag .error []))
      ∧ (comes → served s src false = true →
          (regionRun s a.addr a.len = .dram → badLines s a.addr a.len = [] → ∃ t, exec .linkRxReadRequest s = .next t
              ∧ answered t 2 a.tag .accepted (dramBytes s a.addr a.len) ∧ t.mem = s.mem)
            ∧ (∀ p, regionRun s a.addr a.len = .cxl p →
                let bus := (regVal s (regPcie p 0)).toNat + a.addr % 2 ^ 37
                (windowUp s p true = false ∨ Config.readFails s.turn bus = true → exec .linkRxReadRequest s = .next (sent s 2 a.tag .error []))
                  ∧ (windowUp s p true = true → Config.readFails s.turn bus = false → ∃ d t, exec .linkRxReadRequest s
                      = .next (sent t 2 a.tag .accepted d) ∧ d.length = a.len ∧ t.out = s.out ++ [.busRead p bus a.len] ∧ t.mem = s.mem))
            ∧ writes .linkRxPostedWrite ∧ writes .linkRxNonpostedWrite
            ∧ (regionOf s a.atom.addr = .dram → a.atom.addr % z = 0 → badPartial s a.atom.addr z = [] → ∃ t, exec .linkRxAtomic s = .next t
                ∧ answered t kind a.tag .accepted (if a.atom.ret then leBytes 8 (old a.atom.addr) else [])
                ∧ written t a.atom.addr (leBytes z (new a.atom.addr)))
            ∧ (let v := a.val.toNat
                let p := bits v 30 28
                let id := (regVal s (regPart p 0xD8)).toNat % 2 ^ 32
                let reply (u : State) (r : Resp) : Prop := exec .linkRxArrival s = .next (sent u 5 a.tag r [])
                (id = 0 → reply s .error)
                  ∧ (∀ c ba, ctxOf s id = some c → id ≠ 0 → c.inBanks = true → remoteBar s c (bits v 27 0) = some ba →
                      reply (barNoted s ba [] (fun b => arriveB b (a.word.toNat % 65536))) .accepted)
                  ∧ (∀ c, ctxOf s id = some c → id ≠ 0 → c.inBanks = true → remoteBar s c (bits v 27 0) = none → reply s .error)
                  ∧ (id ≠ 0 → (∀ c, ctxOf s id = some c → c.inBanks = false) → s.parts.length = 8 →
                      (256 ≤ (partOf s p).parked.length → reply s .retry)
                        ∧ ((partOf s p).parked.length < 256 → ∃ t, exec .linkRxArrival s = .next t ∧ answered t 5 a.tag .accepted []
                          ∧ (partOf t p).parked = (partOf s p).parked ++ [⟨id, [], bits v 27 0, BitVec.ofNat 16 (a.word.toNat % 65536)⟩])))
            ∧ (∀ e pa lat dev, let p := bits (fld a.data 2 1) 2 0
                let r := (regVal s (regPart p 0xD0)).toNat
                let cb := r % 2 ^ 41 / 64 * 64
                let n := dramVal s (cb + 8) 1
                let w := dramVal s (cb + 16) 4
                let used := (w + 2 ^ 32 - dramVal s (cb + 20) 4) % 2 ^ 32
                bit r 63 = true → regionRun s cb 64 = .dram → badLines s cb 64 = [] → dramVal s (cb + 9) 1 = 2 → 1 ≤ n → n ≤ 20 →
                (2 ^ n ≤ used → exec .linkRxMessage s = .next (sent s 5 a.tag .retry []))
                  ∧ (used < 2 ^ n → storeTo s (partBuf s p) ((regVal s (regPart p 0xD8)).toNat % 2 ^ 32)
                        (dramVal s cb 8 + 64 * (w % 2 ^ n), 64) = .ok (e, .dram pa lat dev) → e.desc.isEmpty = true → (pa + 64 ≤ cb ∨ cb + 64 ≤ pa) →
                      ∃ t, exec .linkRxMessage s = .next t
                        ∧ answered t 5 a.tag .accepted [] ∧ dramVal t (cb + 16) 4 = (w + 1) % 2 ^ 32 ∧ dramVal t pa 2 = src
                        ∧ (∀ i, 4 ≤ i → i < 64 → a.data.length = 64 → dramByte t (pa + i) = a.data.getD i 0))))
      ∧ (∀ c ba, s.mode = .running → src = ownDev s → served s src false = true →
          let v := a.val.toNat
          ctxOf s ((regVal s (regPart (bits v 30 28) 0xD8)).toNat % 2 ^ 32) = some c → c.id ≠ 0 → c.inBanks = true →
          remoteBar s c (bits v 27 0) = some ba → exec .linkRxArrival s = .next (enqueue
            (barNoted s ba (senderVc s src a.tag) (fun b => arriveB b (a.word.toNat % 65536)))
            .linkRxWriteResponse { tag := a.tag, status := .accepted }))
      ∧ (comes → served s src true = true → a.kind.toNat ≤ 1 → ∃ t, exec .linkRxShootdown s = .next t
          ∧ answered t 5 a.tag .accepted [] ∧ ∀ e, e ∈ t.tlb ↔ e ∈ s.tlb ∧ ¬ (e.ctx = a.ctx
              ∧ (a.kind = 0 → a.val.toNat / lvlSize e.lvl * lvlSize e.lvl = e.base)))
      ∧ (∀ x, xactOf s a.tag = some x →
          let u : State := endXact s x
          let back : Prop := x.dst = ownDev s ∨ portServes s x.port = true ∨ (portAt s x.port).st = 4
          (back → x.load = true →
              (a.ok = true → exec .linkRxReadCompletion s = .next (loadReturns u a.tag a.lanes)
                  ∧ exec .linkRxAtomicCompletion s = .next (loadReturns u a.tag [a.val.setWidth 128]))
                ∧ (a.ok = false → let why := if a.kind = 5 then 5 else 6
                  exec .linkRxReadCompletion s = .next (loadFails u a.tag why)
                    ∧ exec .linkRxAtomicCompletion s = .next (loadFails u a.tag why)))
            ∧ (back → x.load = false →
                (a.status = .accepted → x.kind ≠ 3 → exec .linkRxWriteResponse s = .next (storeAccepted u x.tag))
                  ∧ (a.status = .accepted → x.kind = 3 →
                      let earlier := (s.xacts.takeWhile (fun y => y.tag ≠ x.tag)).filter (fun y => y.dst = x.dst && y.kind = 3)
                      exec .linkRxWriteResponse s = .next (storeAccepted (endXact (earlier.foldl endXact s) x) x.tag))
                  ∧ (a.status = .error → exec .linkRxWriteResponse s = .next (xactFault u x))
                  ∧ (a.status = .retry → ∃ t, exec .linkRxWriteResponse s = .next t ∧ (Instr.linkRetryResend, ({ tag := x.tag } : Arg)) ∈ t.agenda
                      ∧ xactOf t x.tag = some { x with retry := true }))
            ∧ (¬ back → ∀ i ∈ [Instr.linkRxReadCompletion, .linkRxAtomicCompletion, .linkRxWriteResponse], exec i s = .next s)
            ∧ exec .linkTimeout s = .next (if expired s x then xactFault u x else s)
            ∧ (∀ port, x.retry = true → x.dst ≠ ownDev s → routeOf s x.dst = some port → ∃ t, exec .linkRetryResend s = .next t
                ∧ xactOf t x.tag = some { x with retry := false, port := port }
                ∧ t.out = s.out ++ [.flit port x.dst x.kind x.tag x.ord (if x.kind = 9 ∨ x.kind = 10 then 0 else x.addr % 2 ^ 41) x.payload])
            ∧ (x.retry = true → x.dst = ownDev s → x.kind = 8 → ∃ t, exec .linkRetryResend s = .next t
                ∧ (Instr.linkRxArrival, ({ src := BitVec.ofNat 14 x.dst, tag := x.tag
                                           val := BitVec.ofNat 64 (fld x.payload 0 8)
                                           word := BitVec.ofNat 32 (fld x.payload 8 2) } : Arg)) ∈ t.agenda))
      ∧ (portServes s a.port = true → (a.kind = 0 ∨ 12 ≤ a.kind.toNat → exec .linkRxUnknownKind s = .next (regPut s (regLink 0x18) (regVal s (regLink 0x18) + 1)))
          ∧ exec .linkRxMisrouted s = .next (regPut s (regLink 0x18) (regVal s (regLink 0x18) + 1)))
      ∧ (s.mode = .running → a.port < 2 → cxlMode s a.port = false →
          (a.kind = 1 → a.addr + a.len ≤ 2 ^ 26 → let pa := 0x1F000000000 + a.addr
            exec .pcieBar0Write s = .next (emit s (.pcieReply a.port true (leBytes a.len
              (if hostReaches s a.port pa = true then regLoad s pa a.len else 0)))))
            ∧ (∀ o, a.kind ≠ 1 → a.addr = 0x3F00000 + 8 * o → o < 4096 → a.len = 8 → exec .pcieBar0Write s = .next (regPut s (0x1F003F00000 + 8 * o) a.val))
            ∧ (let pa := (regVal s (regPcie a.port 0x20)).toNat + a.addr
               a.addr + a.len ≤ 2 ^ 36 → regionRun s pa a.len = .dram →
                (a.data = [] → badLines s pa a.len = [] → ∃ t, exec .pcieBar2Request s = .next t ∧ t.mem = s.mem
                    ∧ t.out = s.out ++ [.pcieReply a.port true (dramBytes s pa a.len)])
                  ∧ (a.data ≠ [] → regionRun s pa a.data.length = .dram → badPartial s pa a.data.length = [] → ∃ t, exec .pcieBar2Request s = .next t ∧ written t pa a.data
                      ∧ t.out = s.out ++ [.pcieReply a.port true []]))
            ∧ (let pa := (regVal s (regPcie a.port 0x20)).toNat + a.atom.addr
               a.atom.addr + z ≤ 2 ^ 36 → regionOf s pa = .dram → regionRun s pa z = .dram →
                (a.atom.op = .add ∨ a.atom.op = .exch ∨ a.atom.op = .cas → pa % z = 0 → badPartial s pa z = [] →
                    ∃ t, exec .pcieAtomicop s = .next t ∧ written t pa (leBytes z (new pa))
                      ∧ t.out = s.out ++ [.pcieReply a.port true (leBytes z (old pa))])
                  ∧ (a.atom.op ≠ .add → a.atom.op ≠ .exch → a.atom.op ≠ .cas →
                      exec .pcieAtomicop s = .next (emit s (.pcieReply a.port false [])))))
      ∧ (s.mode ≠ .running → ∀ i ∈ [Instr.pcieBar2Request, .pcieAtomicop], exec i s = .next (emit s (.pcieReply a.port false [])))
      ∧ (∀ c i, s.mode = .recovery → a.kind ≠ 1 → a.port = 0 → 1 ≤ a.len → a.len ≤ 8 → a.addr = 0x1000 →
          (c, i) ∈ [(1, Instr.rcmdInstallA), (2, .rcmdInstallB), (3, .rcmdAttest)] → a.val.toNat % 2 ^ (8 * a.len) = c →
          exec .pcieBar0Write s = .next (if s.rstat = 1 then s else enqueue s i {}))
      ∧ (s.mode = .recovery → a.kind ≠ 1 → Memory.wf s.staging = true → s.rstat ≠ 1 → a.port = 0 → 1 ≤ a.len → a.len ≤ 8 → 0x100000 ≤ a.addr →
          a.addr + a.len ≤ 0x200000 → ∃ t, exec .pcieBar0Write s = .next t
            ∧ memVal t.staging (a.addr - 0x100000) a.len = a.val.toNat % 2 ^ (8 * a.len) ∧ t = { s with staging := t.staging })

/-! ## Contexts (16_context.md, 18_link.md) -/

/-- R380 to R387, R391, R439: a context whose units have stopped is HALTED or FAULTED, a requested swap exchanges the banks, spills and
fills end, a restarted owner's contexts are FAULTED, and recovery begins the tailors, mailboxes and maps again. -/
def Obligations.ContextEvents : Prop :=
  ∀ s : State,
    let a := s.arg
    let stateOf (t : State) (id : Nat) : Option CtxState := (ctxOf t id).map (fun d => d.st)
    (∀ c, ctxOf s a.ctx = some c → c.line = true →
        (c.st = .active ∨ c.st = .halted → stopBusy s a.ctx = true → exec .contextStopped s = .next (enqueue s .contextStopped { ctx := a.ctx }))
          ∧ (c.st = .active ∨ c.st = .halted → stopBusy s a.ctx = false → ∃ t d, exec .contextStopped s = .next t
              ∧ ctxOf (stopJobs (stopGroups s a.ctx) a.ctx) a.ctx = some d ∧ (∀ r ∈ c.faults, r ∈ d.faults)
              ∧ ((∀ j ∈ s.jobs, j.ctx ≠ a.ctx) → d.faults = c.faults)
              ∧ stateOf t a.ctx = some (if d.faults.any (fun r => fatalReason r.reason) then .faulted else .halted))
          ∧ (c.st = .saved → ∃ t d, exec .contextStopped s = .next t ∧ ctxOf t a.ctx = some d ∧ d.line = false
              ∧ (if c.faults.any (fun r => fatalReason r.reason) then d.st = .faulted else d.st = .saved ∧ d.hf = true))
          ∧ (c.st = .dead → ∃ t, exec .contextStopped s = .next t ∧ stateOf t a.ctx = some .dead ∧ t = { s with ctxs := t.ctxs }))
      ∧ (a.part < 8 → s.parts.length = 8 → (partOf s a.part).swap = true →
          (∀ o, (shadowOf s a.part).isSome = true → swapReady s a.part = true → residentOf s a.part = some o →
              (ctxOf (stopJobs (stopGroups s o.id) o.id) o.id).any (fun d => d.line) = true →
              exec .swapProceed s = .next (stopJobs (stopGroups s o.id) o.id))
            ∧ (∀ c, shadowOf s a.part = some c → swapReady s a.part = true →
              (∀ o, residentOf s a.part = some o → (ctxOf (stopJobs (stopGroups s o.id) o.id) o.id).any (fun d => d.line) = false) →
              ∃ t, exec .swapProceed s = .next t
              ∧ (ctxOf s c.id = some c → stateOf t c.id = some (if c.hf then .halted else .active))
              ∧ (∀ o, residentOf s a.part = some o → ctxOf s o.id = some o → ctxOf s c.id = some c → stateOf t o.id = some .spilling))
            ∧ (swapReady s a.part = false → noHints s a.part = true → ∃ t, exec .swapProceed s = .next t
                ∧ partOf t a.part = { partOf s a.part with swapDue := true } ∧ t = { s with parts := t.parts })
            ∧ (swapReady s a.part = false → noHints s a.part = false → exec .swapProceed s = .next s))
      ∧ (∀ c, ctxOf s a.ctx = some c →
          (c.spilling = true → ∃ t d, exec .spillDone s = .next t ∧ ctxOf t a.ctx = some d ∧ d.spilling = false
              ∧ d.st = (if c.st = .spilling then .saved else c.st) ∧ t.groups = s.groups ∧ t.scr = s.scr)
            ∧ (c.st = .filling → badImage s c = none → ∃ t, exec .fillDone s = .next t ∧ stateOf t a.ctx = some .shadow ∧ t.groups = s.groups)
            ∧ (∀ v, c.st = .filling → badImage s c = some v → ∃ t, exec .fillDone s = .next t ∧ stateOf t a.ctx = some .faulted
                ∧ t.out = s.out ++ [.fatal (2 ^ 32 + c.id)]))
      ∧ (s.mode = .running → ∃ t, exec .hostWarmRestart s = .next t
          ∧ ∀ c ∈ s.ctxs, ctxOf s c.id = some c → c.id ≠ 0 → (ownedBy s a.link a.ctx).contains c.part = true →
              (c.st = .saved ∨ c.st = .filling ∨ c.st = .shadow ∨ c.st = .spilling → stateOf t c.id = some .faulted)
                ∧ (c.st = .active ∨ c.st = .halted → usedCores c ≠ [] → (ctxOf t c.id).map (fun d => d.line) = some true))
      ∧ (s.mode = .running → ∃ t, exec .recovery s = .next t ∧ (∀ g ∈ t.groups, g.kind ≠ .tailor)
          ∧ (∀ m, m ∈ t.mbx ↔ ∃ q ∈ s.mbx, (q.answered = true ∨ ∃ g ∈ s.groups, g.uid = q.uid)
              ∧ m = if q.answered then q else { q with claimed := false })
          ∧ ∀ k, k < 384 → (Instr.tailorStart, ({ core := k } : Arg)) ∈ t.agenda)

/-! ## The whole machine -/

/-- R379 to R387, R70, R75, R158, R160: an instruction that ends leaves its group at `Next`, or ENDING with no lane; a fault leaves the
group at its restart PC and raises its context's halt line with a record, and a tailor's fault stops that group alone. Whether a resume at a
saved PC looks at its ENTRY bit is left open (Config.resumeEntry, log entry 31), but never at a chain's or unit's restart. -/
def Obligations.EndsAndFaults : Prop :=
  ∀ (s : State) (g : Group), groupAt s g.core g.slot ≠ none →
    let closed : Group := { g with wait := .none, pfxW := none, sub := BitVec.allOnes 64, unit := none }
    let others (t : State) : Prop := ∀ c k, (c, k) ≠ (g.core, g.slot) → groupAt t c k = groupAt s c k
    (g.live ≠ 0 → ∃ h, groupAt (finish s g) g.core g.slot = some h
        ∧ h = { closed with pc := nextPc g, st := .ready, stamp := if g.st = .ready then g.stamp else s.clks
                            since := if g.st = .ready then g.since else s.clks }
        ∧ finish s g = { s with groups := (finish s g).groups } ∧ others (finish s g))
      ∧ (∀ pc land, g.live ≠ 0 → ∃ h, groupAt (finishAt s g pc land) g.core g.slot = some h ∧ others (finishAt s g pc land)
          ∧ h = { closed with pc := pc, land := land, st := .ready, fetched := [], iss := default, stamp := h.stamp, since := h.since })
      ∧ (g.live = 0 → ∃ h, groupAt (finish s g) g.core g.slot = some h ∧ h.st = .ending ∧ h.loads = []
          ∧ (Instr.groupRetire, ({ core := g.core, slot := g.slot } : Arg)) ∈ (finish s g).agenda ∧ others (finish s g))
      ∧ (∀ f c, g.kind ≠ .tailor → ctxOf s g.ctx = some c → let t := takeFault s g f
          (∃ h, groupAt t g.core g.slot = some h ∧ h = { closed with pc := restartPc g, st := .ready, fetched := [], iss := default, land := h.land }
              ∧ (h.land = g.land ∨ (Config.resumeEntry = true ∧ h.land = some (restartPc g)))
              ∧ (g.iss.head ≠ none ∨ g.iss.restart ≠ none ∨ g.unit ≠ none → h.land = g.land)) ∧ others t
            ∧ ctxOf t g.ctx = some { c with line := true, faults := c.faults ++
                [⟨none, g.core, g.slot, f.reason, f.detail, g.pc, restartPc g, BitVec.ofNat 64 f.addr, f.lanes, 0, f.aux⟩] }
            ∧ (Instr.contextStopped, ({ ctx := g.ctx } : Arg)) ∈ t.agenda ∧ t.mem = s.mem ∧ t.scr = s.scr ∧ t.regs = s.regs
            ∧ ∀ h, h.ctx = g.ctx → mayIssue t h = false)
      ∧ (∀ f, g.kind = .tailor → ∃ h, groupAt (takeFault s g f) g.core g.slot = some h ∧ h.st = .ending ∧ h.live = 0
          ∧ (takeFault s g f).out = s.out ++ [.fatal (2 * 2 ^ 32 + g.core)] ∧ others (takeFault s g f)
          ∧ ∀ id, (ctxOf (takeFault s g f) id).map (fun c => c.line) = (ctxOf s id).map (fun c => c.line))

/-- R52, R55, R59, R81 to R83, R158, R163: a step runs the instruction its group's slot decodes to, stalls it on the scoreboard, or takes
the first fault that stands before it; a held group looks again; else it is the oldest step of another unit, or a device reset before the
first boot. That the agenda, the READY group that has waited longest, and the held groups one after the other have turns of their own among
each 64 steps is the model's choice (R192, log entry 51). -/
def Obligations.StepRunsDecoded : Prop :=
  ∀ s : State,
    let s0 := due s
    (s.mode = .boot → step s = ticked (exec .deviceReset s))
      ∧ (s.mode = .recovery ∨ s.mode = .tripped → ∀ i a rest, s.agenda = (i, a) :: rest →
          step s = ticked (exec i { s with agenda := rest, arg := a }))
      ∧ (s.mode = .running → picks s0 = [] → s0.agenda = [] → step s = .next (tick s0))
      ∧ (∀ i a rest, s.mode = .running → picks s0 = [] → s0.agenda = (i, a) :: rest →
          step s = ticked (exec i { s0 with agenda := rest, arg := a }))
      ∧ (∀ g, s.mode = .running → picks s0 = [g] → s0.agenda = [] → g.st = .ready →
          let k := g.pc.toNat % 8
          let line := g.pc.toNat / 64 * 64
          let moved (o : Host.Outcome State Fault Refusal) : Host.Outcome State Fault Refusal := match o with
            | .next t => .next (tick (fetchAhead t g (line + 64)))
            | .fault f => .fault f
            | .refused r => .refused r
          (∀ f, deliver' s0 g line = .error f →
              step s = moved (.next (takeFault s0 { g with iss := { (default : Issue) with restart := openChain g } } f)))
            ∧ ∀ s1 b, deliver' s0 g line = .ok (s1, b) → let e := envOf s1 g
              (∀ p, landBad g b k = some p → ∃ h, step s = moved (.next (takeFault s1 { h with pc := p, land := none, iss := default }
                  ⟨8, 5, g.pc.toNat, 0, 0⟩))
                ∧ (g.link = none → h = g)
                ∧ (∀ n v, g.link = some (n, v) → ∃ r : Group, WrittenS g r n 2 v ∧ h = { r with link := none }))
              ∧ (landBad g b k = none →
                (∀ i, decode (b / 2 ^ (32 + 96 * k) % 2 ^ 96) = .ok i → slotFault e b k g.unit.isSome = none → pairBit b k = false →
                    (boardHolds s1 g e i = true → step s = moved (.next (stallOf s1 { g with iss := issueOf e line b k })))
                      ∧ (boardHolds s1 g e i = false → step s = moved (attempted g (exec i (atSlot s1 g e line b k)))
                        ∧ (g.aged = false → step s = moved (exec i (atSlot s1 g e line b k)))
                        ∧ (atSlot s1 g e line b k).cur = (g.core, g.slot)
                        ∧ (groupAt s1 g.core g.slot ≠ none → curGroup (atSlot s1 g e line b k) =
                            some { g with iss := issueOf e line b k, aged := false, since := s1.clks, land := none, link := none })))
                ∧ (∀ i s2, decode (b / 2 ^ (32 + 96 * k) % 2 ^ 96) = .ok i → slotFault e b k g.unit.isSome = none → boardHolds s1 g e i = false →
                    pairBit b k = true → boardHolds s1 g e (slotInstr b (k + 1)) = false → attempted g (exec i (atSlot s1 g e line b k)) = .next s2 →
                    step s = moved (secondSlot exec s2 g line b k)
                      ∧ ∀ h j, groupAt s2 g.core g.slot = some h → h.uid = g.uid → h.st = .ready → h.pc = pcIn line (k + 1) →
                          ctxRuns s2 h.ctx = true → decode (b / 2 ^ (32 + 96 * (k + 1)) % 2 ^ 96) = .ok j →
                          slotFault (envOf s2 h) b (k + 1) h.unit.isSome = none →
                          step s = moved (attempted h (exec j (atSlot s2 h (envOf s2 h) line b (k + 1)))))
                ∧ (slotFault e b k g.unit.isSome = none → pairBit b k = true → boardHolds s1 g e (slotInstr b (k + 1)) = true →
                    step s = moved (.next (stallOf s1 { g with iss := issueOf e line b k })))
                ∧ (∀ j f, slotFault e b k g.unit.isSome = some (j, f) → pairBit b k = false →
                    step s = moved (.next (takeFault s1 (faultSlot g line b k j) f)))
                ∧ (bits b 23 9 = 0 → pairBad e b k g.unit.isSome = none → g.unit = none → unitBad e b k = none →
                    privileged (slotOp b k) = true → (∀ op, slotInstr b k ≠ .unassignedOpcode op) → g.priv = false →
                    slotFault e b k g.unit.isSome = some (k, ⟨8, 7, 0, 0, 0⟩))))
      ∧ (∀ g t, s.mode = .running → picks s0 = [g] → s0.agenda = [] → g.st = .stalled → issueGroup exec s0 g = .next t →
          step s = .next (tick (if stillHeld t g then t
            else setGroup s0 { g with st := .ready, stamp := s0.clks, since := s0.clks, iss := { g.iss with head := g.iss.restart } })))
      ∧ (s.mode = .running → s0.turn % 64 = 0 → s0.agenda ≠ [] → step s = ticked (runAgenda exec s0))
      ∧ (∀ g, s.mode = .running → s0.turn % 64 = 32 → longestWait ((picks s0).filter (fun g => g.st = .ready)) = some g →
          step s = ticked (moveGroup exec s0 g))
      ∧ (∀ g, s.mode = .running → s0.turn % 64 = 16 → heldTurn (picks s0) (s0.turn / 64) = some g → step s = ticked (moveGroup exec s0 g))
      ∧ (s.mode = .running → (∃ g ∈ picks s0, step s = ticked (moveGroup exec s0 g)) ∨ step s = ticked (runAgenda exec s0))

/-- R437, R332, R378, R380, R395, R404, R418, R430, R446, R448: what a device reset leaves, and that the first step is the boot, which
finds no valid image in flash that holds none. The choice of empty flash is the model's (log entry 5). -/
def Obligations.ResetState : Prop :=
  let s := State.reset
  s.mode = .boot ∧ s.groups = [] ∧ s.launches = [] ∧ s.jobs = [] ∧ s.tlb = [] ∧ s.ok = true ∧ s.tidy
    ∧ (∀ k, k < 64 → (slotAt s k).map = false ∧ (slotAt s k).qst = 0 ∧ (slotAt s k).infl = 0)
    ∧ (∀ n, n < 16 → (portAt s n).st = 0) ∧ (∀ p, p < 8 → (partOf s p).deflim = 50 ∧ (partOf s p).fields = [])
    ∧ regRead64 s (regPlat 0x28) = 3000 ∧ regRead64 s (regPlat 0x40) = 1050 ∧ regRead64 s (regPart 0 0x100) = 0x7F
    ∧ (∀ st, st < 16 → regRead64 s (regStack st 0x140) = 0x0300030003000300)
    ∧ ∃ t, step s = .next t ∧ t.mode = .recovery ∧ (regVal t (regPlat 0x48)).toNat % 8 = 6

/-- The stored memories and registers stay in canonical form, and the banks keep their sizes, whatever step is taken. -/
def Obligations.CanonicalStep : Prop :=
  ∀ s t : State, s.ok = true → step s = .next t → t.ok = true

/-- Every group, in its slot or in a context's image, keeps canonical registers and at most 64 lanes, and every launch a width that
exists (R157, R179). -/
def Obligations.TidyStep : Prop :=
  ∀ s t : State, s.tidy → step s = .next t → t.tidy

/-- R60, R61, R80: decoding the word of an instruction gives the instruction back, with every operand at every value, and the word has
96 bits. -/
def Obligations.DecodeEncode : Prop :=
  ∀ (i : Instr) (w : Nat), i.encodable = true → encode i = some w → decode w = .ok i ∧ w < 2 ^ 96

/-- R60, R61, R76, R78, R81: the words the spec writes out decode to the instructions it gives with them. -/
def Obligations.DecodeWords : Prop :=
  decode 0x002FF00801008E01 = .ok (.iadd false ⟨0, 0, .zero, .v 2, .v 1, false, .v 4, false, 7⟩)
    ∧ decode 0x002FFC0E0000AE03 = .ok (.imul false ⟨0, 0, .zero, .imm 3, .latch 0, false, .v 5, false, 7⟩)
    ∧ decode 0xFFFF00000000000001E1 = .ok (.pfxL 0xFFFF)
    ∧ decode 0x3F0000004A6FE0080100EE42 = .ok (.ffma .f32 ⟨0x3F000000, 0x129, .lit, .v 2, .v 1, false, .v 7, false, 7⟩)
    ∧ decode 0x02EFFC040500CEC1 = .ok (.shflLo false ⟨0, 0x00B, .zero, .imm 1, .v 5, false, .v 6, false, 7⟩)
    ∧ decode 0x03AFFBFEFF5FEEED = .ok (.emwr ⟨0, 0x00E, .zero, .zero, .zero, false, .zero, false, 7⟩)
    ∧ decode 0x002FF00AFF006F04 = .ok (.ld .b32 ⟨0, 0, .zero, .v 2, .zero, false, .v 3, false, 7⟩)
    ∧ decode 0x100800308BF9045FEF0A = .ok (.st .b32 ⟨0x1008, 0, .imm 8, .lit, .s 4, false, .zero, false, 7⟩)
    ∧ decode 0x006FFC03205FEF43 = .ok (.waitph ⟨0, 1, .zero, .imm 0, .imm 32, false, .zero, false, 7⟩)
    ∧ decode 0x0001C06008040F68 = .ok (.mmaz .sb4 ⟨0, 0, .v 28, .v 24, .v 8, false, .v 32, false, 7⟩)
    ∧ decode 0x00AFF012FE5FE380 = .ok (.spawn ⟨0, 2, .zero, .v 4, .lit, false, .zero, false, 1⟩)
    ∧ decode 0x002FFC07025FEF85 = .ok (.kick ⟨0, 0, .zero, .imm 1, .imm 2, false, .zero, false, 7⟩)
    ∧ decode 0x006FFC0106210FA1 = .ok (.cpyGo true ⟨0, 1, .zero, .imm 0, .s 6, false, .s 8, false, 7⟩)
    ∧ decode 0x002FFBFD18214FC6 = .ok (.rft ⟨0, 0, .zero, .zero, .s 24, false, .s 10, false, 7⟩)
    ∧ decode 0 = .ok .nop ∧ decode 0x1F0 = .ok (.unassignedOpcode 0x1F0)
end

