-- ==== Sys2Proof/Laws/Encoding.lean ====
section
/-! SUPPORT. Laws of the encoding: each field of a word is read back as it was written. -/

namespace Sys2Proof

theorem opdCode_lt (o : Opd) : opdCode o < 1024 := by
  cases o <;> simp only [opdCode]
  · rename_i n; have := n.isLt; omega
  · rename_i n; have := n.isLt; omega
  · rename_i n; have := n.isLt; omega
  · omega
  · omega
  · rename_i n; have := n.isLt; omega

/-- An operand's code names that operand. -/
theorem opdOf_opdCode (o : Opd) : opdOf (opdCode o) = some o := by
  cases o with
  | v n =>
    have := n.isLt
    show opdOf n.toNat = _
    unfold opdOf
    rw [if_pos (by omega)]
    simp
  | s n =>
    have := n.isLt
    show opdOf (0x100 + n.toNat) = _
    unfold opdOf
    rw [if_neg (by omega), if_pos (by omega)]
    simp
  | latch n =>
    have := n.isLt
    show opdOf (0x200 + n.toNat) = _
    unfold opdOf
    rw [if_neg (by omega), if_neg (by omega), if_neg (by omega), if_pos (by omega)]
    simp
  | lit => rfl
  | zero => rfl
  | imm n =>
    have := n.isLt
    show opdOf (0x300 + n.toNat) = _
    unfold opdOf
    rw [if_neg (by omega), if_neg (by omega), if_neg (by omega), if_neg (by omega), if_neg (by omega), if_neg (by omega),
      if_neg (by omega)]
    simp

/-- The fields of a word built from bounded fields. -/
theorem fields_of_sum {op p n d w a b c m l : Nat} (hop : op < 512) (hp : p < 8) (hn : n < 2) (hd : d < 1024) (hw : w < 2)
    (ha : a < 1024) (hb : b < 1024) (hc : c < 1024) (hm : m < 1024) (hl : l < 2 ^ 32) :
    let W := op + 2 ^ 9 * p + 2 ^ 12 * n + 2 ^ 13 * d + 2 ^ 23 * w + 2 ^ 24 * a + 2 ^ 34 * b + 2 ^ 44 * c + 2 ^ 54 * m + 2 ^ 64 * l
    W % 512 = op ∧ W / 2 ^ 9 % 8 = p ∧ W / 2 ^ 12 % 2 = n ∧ W / 2 ^ 13 % 1024 = d ∧ W / 2 ^ 23 % 2 = w ∧ W / 2 ^ 24 % 1024 = a
      ∧ W / 2 ^ 34 % 1024 = b ∧ W / 2 ^ 44 % 1024 = c ∧ W / 2 ^ 54 % 1024 = m ∧ W / 2 ^ 64 = l ∧ W < 2 ^ 96 := by
  simp only [Nat.reducePow] at *
  refine ⟨?_, ?_, ?_, ?_, ?_, ?_, ?_, ?_, ?_, ?_, ?_⟩ <;> omega

theorem wordOf_fields (op : Nat) (hop : op < 512) (x : InsWord) :
    wordOf op x % 512 = op ∧ wordOf op x / 2 ^ 9 % 8 = x.pidx.toNat ∧ wordOf op x / 2 ^ 12 % 2 = x.pneg.toNat
      ∧ wordOf op x / 2 ^ 13 % 1024 = opdCode x.dst ∧ wordOf op x / 2 ^ 23 % 2 = x.nw.toNat
      ∧ wordOf op x / 2 ^ 24 % 1024 = opdCode x.opa ∧ wordOf op x / 2 ^ 34 % 1024 = opdCode x.opb
      ∧ wordOf op x / 2 ^ 44 % 1024 = opdCode x.opc ∧ wordOf op x / 2 ^ 54 % 1024 = x.mod.toNat
      ∧ wordOf op x / 2 ^ 64 = x.lit.toNat ∧ wordOf op x < 2 ^ 96 :=
  fields_of_sum hop x.pidx.isLt (Bool.toNat_lt _) (opdCode_lt _) (Bool.toNat_lt _) (opdCode_lt _) (opdCode_lt _) (opdCode_lt _)
    x.mod.isLt x.lit.isLt

/-- The fields of a word are read back whole. -/
theorem insWordOf_wordOf (op : Nat) (hop : op < 512) (x : InsWord) : insWordOf (wordOf op x) = x := by
  obtain ⟨h1, h2, h3, h4, h5, h6, h7, h8, h9, h10, h11⟩ := wordOf_fields op hop x
  have bb : ∀ b : Bool, decide (b.toNat = 1) = b := by decide
  unfold insWordOf
  have h2' : wordOf op x / 2 ^ 9 % 8 = x.pidx.toNat := h2
  simp only [h2, h3, h4, h5, h6, h7, h8, h9, h10, opdOf_opdCode, Option.getD_some, BitVec.ofNat_toNat, BitVec.setWidth_eq, bb]

end Sys2Proof
end

