-- ==== Sys2Proof/Laws/SMap.lean ====
section
/-! SUPPORT. Laws of sparse maps and of memory: a read after a write, and that every operation keeps the canonical form. -/

namespace Sys2Proof.Machine
open Sys2Proof

variable {α : Type}

/-- The keys of a map are at least `lo`. -/
def SMap.above {α : Type} (lo : Nat) (m : SMap α) : Prop := ∀ kv ∈ m, lo ≤ kv.1

theorem SMap.get_above {d : α} {m : SMap α} {lo k : Nat} (h : SMap.above lo m) (hk : k < lo) : SMap.get d m k = d := by
  cases m with
  | nil => rfl
  | cons p r =>
    have := h p (by simp)
    simp only [SMap.get]
    rw [if_neg (by omega), if_pos (by omega)]

theorem SMap.above_mono {m : SMap α} {lo hi : Nat} (h : SMap.above hi m) (hl : lo ≤ hi) : SMap.above lo m :=
  fun kv hkv => Nat.le_trans hl (h kv hkv)

variable [DecidableEq α]

theorem SMap.wf_cons {d : α} {k : Nat} {v : α} {m : SMap α} :
    SMap.wf d ((k, v) :: m) = true ↔ v ≠ d ∧ SMap.above (k + 1) m ∧ SMap.wf d m = true := by
  induction m generalizing k v with
  | nil => simp [SMap.wf, SMap.above]
  | cons p r ih =>
    obtain ⟨k', v'⟩ := p
    have h := @ih k' v'
    simp only [SMap.wf, Bool.and_eq_true, decide_eq_true_eq]
    constructor
    · rintro ⟨⟨h1, h2⟩, h3⟩
      refine ⟨h1, ?_, h3⟩
      intro kv hkv
      rcases List.mem_cons.1 hkv with rfl | hr
      · exact h2
      · have := (h.1 h3).2.1 kv hr
        omega
    · rintro ⟨h1, h2, h3⟩
      exact ⟨⟨h1, h2 (k', v') (by simp)⟩, h3⟩

theorem SMap.above_put {d : α} {m : SMap α} {lo k : Nat} {v : α} (h : SMap.above lo m) (hk : lo ≤ k) :
    SMap.above lo (SMap.put d m k v) := by
  induction m with
  | nil =>
    simp only [SMap.put]; split
    · intro kv hkv; simp at hkv
    · intro kv hkv; simp at hkv; subst hkv; exact hk
  | cons p r ih =>
    obtain ⟨k', v'⟩ := p
    have hp := h (k', v') (by simp)
    have hr : SMap.above lo r := fun kv hkv => h kv (by simp [hkv])
    simp only [SMap.put]
    split
    · split
      · exact h
      · intro kv hkv
        rcases List.mem_cons.1 hkv with rfl | h2
        · exact hk
        · exact h kv h2
    · split
      · split
        · exact hr
        · intro kv hkv
          rcases List.mem_cons.1 hkv with rfl | h2
          · exact hk
          · exact hr kv h2
      · intro kv hkv
        rcases List.mem_cons.1 hkv with rfl | h2
        · exact hp
        · exact ih hr kv h2

/-- A write keeps the canonical form. -/
theorem SMap.wf_put {d : α} {m : SMap α} (h : SMap.wf d m = true) (k : Nat) (v : α) : SMap.wf d (SMap.put d m k v) = true := by
  induction m with
  | nil => simp only [SMap.put]; split <;> simp_all [SMap.wf]
  | cons p r ih =>
    obtain ⟨k', v'⟩ := p
    have hc := SMap.wf_cons.1 h
    simp only [SMap.put]
    split
    · split
      · exact h
      · rename_i hlt hv
        refine SMap.wf_cons.2 ⟨hv, ?_, h⟩
        intro kv hkv
        rcases List.mem_cons.1 hkv with rfl | h2
        · exact hlt
        · have := hc.2.1 kv h2; omega
    · split
      · split
        · exact hc.2.2
        · rename_i heq hv
          subst heq
          exact SMap.wf_cons.2 ⟨hv, hc.2.1, hc.2.2⟩
      · exact SMap.wf_cons.2 ⟨hc.1, SMap.above_put hc.2.1 (by omega), ih hc.2.2⟩

/-- A read of the key just written. -/
theorem SMap.get_put_self {d : α} {m : SMap α} (h : SMap.wf d m = true) (k : Nat) (v : α) : SMap.get d (SMap.put d m k v) k = v := by
  induction m with
  | nil => simp only [SMap.put]; split <;> simp_all [SMap.get]
  | cons p r ih =>
    obtain ⟨k', v'⟩ := p
    have hc := SMap.wf_cons.1 h
    simp only [SMap.put]
    split
    · split
      · rename_i hlt hv
        simp only [SMap.get]
        rw [if_neg (by omega), if_pos hlt, hv]
      · simp [SMap.get]
    · split
      · split
        · rename_i heq hv
          subst heq
          rw [SMap.get_above hc.2.1 (by omega), hv]
        · simp [SMap.get]
      · rename_i h1 h2
        simp only [SMap.get]
        rw [if_neg (by omega), if_neg (by omega)]
        exact ih hc.2.2

/-- A read of any other key. -/
theorem SMap.get_put_ne {d : α} {m : SMap α} (h : SMap.wf d m = true) {k j : Nat} (hj : j ≠ k) (v : α) :
    SMap.get d (SMap.put d m k v) j = SMap.get d m j := by
  induction m with
  | nil =>
    simp only [SMap.put]; split
    · rfl
    · simp only [SMap.get]; rw [if_neg hj]; split <;> rfl
  | cons p r ih =>
    obtain ⟨k', v'⟩ := p
    have hc := SMap.wf_cons.1 h
    simp only [SMap.put]
    split
    · split
      · rfl
      · rename_i hlt hv
        rw [SMap.get.eq_def d ((k, v) :: (k', v') :: r)]
        simp only
        rw [if_neg hj]
        split
        · rename_i hjk
          exact (SMap.get_above (lo := k) (m := (k', v') :: r) (by
            intro kv hkv
            rcases List.mem_cons.1 hkv with rfl | h2
            · simp; omega
            · have := hc.2.1 kv h2; omega) hjk).symm
        · rfl
    · split
      · rename_i heq
        subst heq
        split
        · simp only [SMap.get]
          rw [if_neg hj]
          split
          · rename_i hjk
            exact SMap.get_above hc.2.1 (by omega)
          · rfl
        · simp only [SMap.get]; rw [if_neg hj, if_neg hj]
      · simp only [SMap.get]
        split
        · rfl
        · split
          · rfl
          · exact ih hc.2.2

theorem SMap.get_put {d : α} {m : SMap α} (h : SMap.wf d m = true) (k j : Nat) (v : α) :
    SMap.get d (SMap.put d m k v) j = if j = k then v else SMap.get d m j := by
  split
  · subst j; exact SMap.get_put_self h k v
  · exact SMap.get_put_ne h ‹_› v

theorem SMap.wf_putAll {d : α} {m : SMap α} (h : SMap.wf d m = true) (l : List (Nat × α)) : SMap.wf d (SMap.putAll d m l) = true := by
  induction l generalizing m with
  | nil => exact h
  | cons p r ih => exact ih (SMap.wf_put h p.1 p.2)

/-- A read of a key no pair names. -/
theorem SMap.get_putAll_ne {d : α} {m : SMap α} (h : SMap.wf d m = true) {l : List (Nat × α)} {j : Nat}
    (hj : ∀ p ∈ l, p.1 ≠ j) : SMap.get d (SMap.putAll d m l) j = SMap.get d m j := by
  induction l generalizing m with
  | nil => rfl
  | cons p r ih =>
    have h1 := ih (SMap.wf_put h p.1 p.2) (fun q hq => hj q (by simp [hq]))
    exact h1.trans (SMap.get_put_ne h (fun e => hj p (by simp) e.symm) p.2)

/-- A read of a key to which every pair that names it gives the same value. -/
theorem SMap.get_putAll_eq {d : α} {m : SMap α} (h : SMap.wf d m = true) {l : List (Nat × α)} {j : Nat} {v : α}
    (hv : ∀ p ∈ l, p.1 = j → p.2 = v) (hj : ∃ p ∈ l, p.1 = j) : SMap.get d (SMap.putAll d m l) j = v := by
  induction l generalizing m with
  | nil => simp at hj
  | cons p r ih =>
    by_cases hr : ∃ q ∈ r, q.1 = j
    · exact ih (SMap.wf_put h p.1 p.2) (fun q hq => hv q (by simp [hq])) hr
    · obtain ⟨q, hq, hqj⟩ := hj
      have hp : p.1 = j := by
        rcases List.mem_cons.1 hq with rfl | h2
        · exact hqj
        · exact absurd ⟨q, h2, hqj⟩ hr
      have h1 := SMap.get_putAll_ne (SMap.wf_put h p.1 p.2) (l := r) (j := j) (fun q hq e => hr ⟨q, hq, e⟩)
      refine h1.trans ?_
      rw [← hp, SMap.get_put_self h]
      exact hv p (by simp) hp

theorem SMap.wf_filter {d : α} {m : SMap α} (h : SMap.wf d m = true) (f : Nat × α → Bool) : SMap.wf d (m.filter f) = true := by
  induction m with
  | nil => rfl
  | cons p r ih =>
    obtain ⟨k, v⟩ := p
    have hc := SMap.wf_cons.1 h
    rw [List.filter_cons]
    split
    · exact SMap.wf_cons.2 ⟨hc.1, fun kv hkv => hc.2.1 kv (List.mem_filter.1 hkv).1, ih hc.2.2⟩
    · exact ih hc.2.2

theorem SMap.wf_clear {d : α} {m : SMap α} (h : SMap.wf d m = true) (lo hi : Nat) : SMap.wf d (SMap.clear m lo hi) = true :=
  SMap.wf_filter h _

/-! ## Memory -/

theorem Memory.wf_memPut {m : Memory} (h : Memory.wf m = true) (a : Nat) (b : List Byte) : Memory.wf (memPut m a b) = true := by
  induction b generalizing m a with
  | nil => exact h
  | cons x r ih => exact ih (SMap.wf_put h a x) (a + 1)

theorem Memory.wf_memPutVal {m : Memory} (h : Memory.wf m = true) (a n x : Nat) : Memory.wf (memPutVal m a n x) = true :=
  Memory.wf_memPut h a _

theorem Memory.wf_memPutAt {m : Memory} (h : Memory.wf m = true) (l : List (Nat × Byte)) : Memory.wf (memPutAt m l) = true :=
  SMap.wf_putAll h l

/-- A byte after a write of bytes. -/
theorem memGet_memPut {m : Memory} (h : Memory.wf m = true) (a : Nat) (b : List Byte) (j : Nat) :
    memGet (memPut m a b) j = if a ≤ j ∧ j < a + b.length then b.getD (j - a) 0 else memGet m j := by
  induction b generalizing m a with
  | nil => simp [memPut]
  | cons x r ih =>
    rw [memPut, ih (SMap.wf_put h a x) (a + 1)]
    by_cases h1 : a + 1 ≤ j ∧ j < a + 1 + r.length
    · rw [if_pos h1, if_pos (by simp; omega)]
      have : j - a = (j - (a + 1)) + 1 := by omega
      rw [this]; simp
    · rw [if_neg h1]
      unfold memGet
      rw [SMap.get_put h]
      by_cases h2 : j = a
      · subst h2; rw [if_pos rfl, if_pos (by simp)]; simp
      · rw [if_neg h2, if_neg (by simp; omega)]

/-- The bytes just written. -/
theorem memBytes_memPut_self {m : Memory} (h : Memory.wf m = true) (a : Nat) (b : List Byte) : memBytes (memPut m a b) a b.length = b := by
  apply List.ext_getElem
  · simp [memBytes]
  · intro i h1 h2
    simp [memBytes, memGet_memPut h, h2]

end Sys2Proof.Machine
end

