-- ==== Sys2Proof/Laws/State.lean ====
section
/-! SUPPORT. Laws of the state: one lemma for each field that an update of one field leaves as it is, so that no proof unfolds a
record update. -/

namespace Sys2Proof.Machine
open Sys2Proof

/-! ## `setGroup` -/

@[simp] theorem setGroup_mode (s : State) (g : Group) : (setGroup s g).mode = s.mode := rfl
@[simp] theorem setGroup_turn (s : State) (g : Group) : (setGroup s g).turn = s.turn := rfl
@[simp] theorem setGroup_free (s : State) (g : Group) : (setGroup s g).free = s.free := rfl
@[simp] theorem setGroup_clock (s : State) (g : Group) : (setGroup s g).clock = s.clock := rfl
@[simp] theorem setGroup_clks (s : State) (g : Group) : (setGroup s g).clks = s.clks := rfl
@[simp] theorem setGroup_cur (s : State) (g : Group) : (setGroup s g).cur = s.cur := rfl
@[simp] theorem setGroup_arg (s : State) (g : Group) : (setGroup s g).arg = s.arg := rfl
@[simp] theorem setGroup_agenda (s : State) (g : Group) : (setGroup s g).agenda = s.agenda := rfl
@[simp] theorem setGroup_out (s : State) (g : Group) : (setGroup s g).out = s.out := rfl
@[simp] theorem setGroup_nextId (s : State) (g : Group) : (setGroup s g).nextId = s.nextId := rfl
@[simp] theorem setGroup_scr (s : State) (g : Group) : (setGroup s g).scr = s.scr := rfl
@[simp] theorem setGroup_ptab (s : State) (g : Group) : (setGroup s g).ptab = s.ptab := rfl
@[simp] theorem setGroup_ptLock (s : State) (g : Group) : (setGroup s g).ptLock = s.ptLock := rfl
@[simp] theorem setGroup_stamps (s : State) (g : Group) : (setGroup s g).stamps = s.stamps := rfl
@[simp] theorem setGroup_rels (s : State) (g : Group) : (setGroup s g).rels = s.rels := rfl
@[simp] theorem setGroup_phases (s : State) (g : Group) : (setGroup s g).phases = s.phases := rfl
@[simp] theorem setGroup_ibuf (s : State) (g : Group) : (setGroup s g).ibuf = s.ibuf := rfl
@[simp] theorem setGroup_arrays (s : State) (g : Group) : (setGroup s g).arrays = s.arrays := rfl
@[simp] theorem setGroup_mbx (s : State) (g : Group) : (setGroup s g).mbx = s.mbx := rfl
@[simp] theorem setGroup_reqSeq (s : State) (g : Group) : (setGroup s g).reqSeq = s.reqSeq := rfl
@[simp] theorem setGroup_tlb (s : State) (g : Group) : (setGroup s g).tlb = s.tlb := rfl
@[simp] theorem setGroup_mem (s : State) (g : Group) : (setGroup s g).mem = s.mem := rfl
@[simp] theorem setGroup_undef (s : State) (g : Group) : (setGroup s g).undef = s.undef := rfl
@[simp] theorem setGroup_bad (s : State) (g : Group) : (setGroup s g).bad = s.bad := rfl
@[simp] theorem setGroup_lineDom (s : State) (g : Group) : (setGroup s g).lineDom = s.lineDom := rfl
@[simp] theorem setGroup_unitDom (s : State) (g : Group) : (setGroup s g).unitDom = s.unitDom := rfl
@[simp] theorem setGroup_rows (s : State) (g : Group) : (setGroup s g).rows = s.rows := rfl
@[simp] theorem setGroup_stEpoch (s : State) (g : Group) : (setGroup s g).stEpoch = s.stEpoch := rfl
@[simp] theorem setGroup_rowJobs (s : State) (g : Group) : (setGroup s g).rowJobs = s.rowJobs := rfl
@[simp] theorem setGroup_parts (s : State) (g : Group) : (setGroup s g).parts = s.parts := rfl
@[simp] theorem setGroup_ctxs (s : State) (g : Group) : (setGroup s g).ctxs = s.ctxs := rfl
@[simp] theorem setGroup_hwslots (s : State) (g : Group) : (setGroup s g).hwslots = s.hwslots := rfl
@[simp] theorem setGroup_pkts (s : State) (g : Group) : (setGroup s g).pkts = s.pkts := rfl
@[simp] theorem setGroup_qclk (s : State) (g : Group) : (setGroup s g).qclk = s.qclk := rfl
@[simp] theorem setGroup_launches (s : State) (g : Group) : (setGroup s g).launches = s.launches := rfl
@[simp] theorem setGroup_nextHandle (s : State) (g : Group) : (setGroup s g).nextHandle = s.nextHandle := rfl
@[simp] theorem setGroup_teams (s : State) (g : Group) : (setGroup s g).teams = s.teams := rfl
@[simp] theorem setGroup_pawns (s : State) (g : Group) : (setGroup s g).pawns = s.pawns := rfl
@[simp] theorem setGroup_fetchws (s : State) (g : Group) : (setGroup s g).fetchws = s.fetchws := rfl
@[simp] theorem setGroup_jobs (s : State) (g : Group) : (setGroup s g).jobs = s.jobs := rfl
@[simp] theorem setGroup_jobGen (s : State) (g : Group) : (setGroup s g).jobGen = s.jobGen := rfl
@[simp] theorem setGroup_streams (s : State) (g : Group) : (setGroup s g).streams = s.streams := rfl
@[simp] theorem setGroup_pools (s : State) (g : Group) : (setGroup s g).pools = s.pools := rfl
@[simp] theorem setGroup_regs (s : State) (g : Group) : (setGroup s g).regs = s.regs := rfl
@[simp] theorem setGroup_ports (s : State) (g : Group) : (setGroup s g).ports = s.ports := rfl
@[simp] theorem setGroup_cxl (s : State) (g : Group) : (setGroup s g).cxl = s.cxl := rfl
@[simp] theorem setGroup_xacts (s : State) (g : Group) : (setGroup s g).xacts = s.xacts := rfl
@[simp] theorem setGroup_posted (s : State) (g : Group) : (setGroup s g).posted = s.posted := rfl
@[simp] theorem setGroup_irqs (s : State) (g : Group) : (setGroup s g).irqs = s.irqs := rfl
@[simp] theorem setGroup_epoch (s : State) (g : Group) : (setGroup s g).epoch = s.epoch := rfl
@[simp] theorem setGroup_flash (s : State) (g : Group) : (setGroup s g).flash = s.flash := rfl
@[simp] theorem setGroup_rollmin (s : State) (g : Group) : (setGroup s g).rollmin = s.rollmin := rfl
@[simp] theorem setGroup_tripped (s : State) (g : Group) : (setGroup s g).tripped = s.tripped := rfl
@[simp] theorem setGroup_bootB (s : State) (g : Group) : (setGroup s g).bootB = s.bootB := rfl
@[simp] theorem setGroup_staging (s : State) (g : Group) : (setGroup s g).staging = s.staging := rfl
@[simp] theorem setGroup_rstat (s : State) (g : Group) : (setGroup s g).rstat = s.rstat := rfl
@[simp] theorem setGroup_rcmd (s : State) (g : Group) : (setGroup s g).rcmd = s.rcmd := rfl
@[simp] theorem setGroup_rtimer (s : State) (g : Group) : (setGroup s g).rtimer = s.rtimer := rfl
@[simp] theorem setGroup_rnonce (s : State) (g : Group) : (setGroup s g).rnonce = s.rnonce := rfl

/-! ## `enqueue` -/

@[simp] theorem enqueue_mode (s : State) (i : Instr) (a : Arg) : (enqueue s i a).mode = s.mode := rfl
@[simp] theorem enqueue_turn (s : State) (i : Instr) (a : Arg) : (enqueue s i a).turn = s.turn := rfl
@[simp] theorem enqueue_free (s : State) (i : Instr) (a : Arg) : (enqueue s i a).free = s.free := rfl
@[simp] theorem enqueue_clock (s : State) (i : Instr) (a : Arg) : (enqueue s i a).clock = s.clock := rfl
@[simp] theorem enqueue_clks (s : State) (i : Instr) (a : Arg) : (enqueue s i a).clks = s.clks := rfl
@[simp] theorem enqueue_cur (s : State) (i : Instr) (a : Arg) : (enqueue s i a).cur = s.cur := rfl
@[simp] theorem enqueue_arg (s : State) (i : Instr) (a : Arg) : (enqueue s i a).arg = s.arg := rfl
@[simp] theorem enqueue_out (s : State) (i : Instr) (a : Arg) : (enqueue s i a).out = s.out := rfl
@[simp] theorem enqueue_nextId (s : State) (i : Instr) (a : Arg) : (enqueue s i a).nextId = s.nextId := rfl
@[simp] theorem enqueue_groups (s : State) (i : Instr) (a : Arg) : (enqueue s i a).groups = s.groups := rfl
@[simp] theorem enqueue_scr (s : State) (i : Instr) (a : Arg) : (enqueue s i a).scr = s.scr := rfl
@[simp] theorem enqueue_ptab (s : State) (i : Instr) (a : Arg) : (enqueue s i a).ptab = s.ptab := rfl
@[simp] theorem enqueue_ptLock (s : State) (i : Instr) (a : Arg) : (enqueue s i a).ptLock = s.ptLock := rfl
@[simp] theorem enqueue_stamps (s : State) (i : Instr) (a : Arg) : (enqueue s i a).stamps = s.stamps := rfl
@[simp] theorem enqueue_rels (s : State) (i : Instr) (a : Arg) : (enqueue s i a).rels = s.rels := rfl
@[simp] theorem enqueue_phases (s : State) (i : Instr) (a : Arg) : (enqueue s i a).phases = s.phases := rfl
@[simp] theorem enqueue_ibuf (s : State) (i : Instr) (a : Arg) : (enqueue s i a).ibuf = s.ibuf := rfl
@[simp] theorem enqueue_arrays (s : State) (i : Instr) (a : Arg) : (enqueue s i a).arrays = s.arrays := rfl
@[simp] theorem enqueue_mbx (s : State) (i : Instr) (a : Arg) : (enqueue s i a).mbx = s.mbx := rfl
@[simp] theorem enqueue_reqSeq (s : State) (i : Instr) (a : Arg) : (enqueue s i a).reqSeq = s.reqSeq := rfl
@[simp] theorem enqueue_tlb (s : State) (i : Instr) (a : Arg) : (enqueue s i a).tlb = s.tlb := rfl
@[simp] theorem enqueue_mem (s : State) (i : Instr) (a : Arg) : (enqueue s i a).mem = s.mem := rfl
@[simp] theorem enqueue_undef (s : State) (i : Instr) (a : Arg) : (enqueue s i a).undef = s.undef := rfl
@[simp] theorem enqueue_bad (s : State) (i : Instr) (a : Arg) : (enqueue s i a).bad = s.bad := rfl
@[simp] theorem enqueue_lineDom (s : State) (i : Instr) (a : Arg) : (enqueue s i a).lineDom = s.lineDom := rfl
@[simp] theorem enqueue_unitDom (s : State) (i : Instr) (a : Arg) : (enqueue s i a).unitDom = s.unitDom := rfl
@[simp] theorem enqueue_rows (s : State) (i : Instr) (a : Arg) : (enqueue s i a).rows = s.rows := rfl
@[simp] theorem enqueue_stEpoch (s : State) (i : Instr) (a : Arg) : (enqueue s i a).stEpoch = s.stEpoch := rfl
@[simp] theorem enqueue_rowJobs (s : State) (i : Instr) (a : Arg) : (enqueue s i a).rowJobs = s.rowJobs := rfl
@[simp] theorem enqueue_parts (s : State) (i : Instr) (a : Arg) : (enqueue s i a).parts = s.parts := rfl
@[simp] theorem enqueue_ctxs (s : State) (i : Instr) (a : Arg) : (enqueue s i a).ctxs = s.ctxs := rfl
@[simp] theorem enqueue_hwslots (s : State) (i : Instr) (a : Arg) : (enqueue s i a).hwslots = s.hwslots := rfl
@[simp] theorem enqueue_pkts (s : State) (i : Instr) (a : Arg) : (enqueue s i a).pkts = s.pkts := rfl
@[simp] theorem enqueue_qclk (s : State) (i : Instr) (a : Arg) : (enqueue s i a).qclk = s.qclk := rfl
@[simp] theorem enqueue_launches (s : State) (i : Instr) (a : Arg) : (enqueue s i a).launches = s.launches := rfl
@[simp] theorem enqueue_nextHandle (s : State) (i : Instr) (a : Arg) : (enqueue s i a).nextHandle = s.nextHandle := rfl
@[simp] theorem enqueue_teams (s : State) (i : Instr) (a : Arg) : (enqueue s i a).teams = s.teams := rfl
@[simp] theorem enqueue_pawns (s : State) (i : Instr) (a : Arg) : (enqueue s i a).pawns = s.pawns := rfl
@[simp] theorem enqueue_fetchws (s : State) (i : Instr) (a : Arg) : (enqueue s i a).fetchws = s.fetchws := rfl
@[simp] theorem enqueue_jobs (s : State) (i : Instr) (a : Arg) : (enqueue s i a).jobs = s.jobs := rfl
@[simp] theorem enqueue_jobGen (s : State) (i : Instr) (a : Arg) : (enqueue s i a).jobGen = s.jobGen := rfl
@[simp] theorem enqueue_streams (s : State) (i : Instr) (a : Arg) : (enqueue s i a).streams = s.streams := rfl
@[simp] theorem enqueue_pools (s : State) (i : Instr) (a : Arg) : (enqueue s i a).pools = s.pools := rfl
@[simp] theorem enqueue_regs (s : State) (i : Instr) (a : Arg) : (enqueue s i a).regs = s.regs := rfl
@[simp] theorem enqueue_ports (s : State) (i : Instr) (a : Arg) : (enqueue s i a).ports = s.ports := rfl
@[simp] theorem enqueue_cxl (s : State) (i : Instr) (a : Arg) : (enqueue s i a).cxl = s.cxl := rfl
@[simp] theorem enqueue_xacts (s : State) (i : Instr) (a : Arg) : (enqueue s i a).xacts = s.xacts := rfl
@[simp] theorem enqueue_posted (s : State) (i : Instr) (a : Arg) : (enqueue s i a).posted = s.posted := rfl
@[simp] theorem enqueue_irqs (s : State) (i : Instr) (a : Arg) : (enqueue s i a).irqs = s.irqs := rfl
@[simp] theorem enqueue_epoch (s : State) (i : Instr) (a : Arg) : (enqueue s i a).epoch = s.epoch := rfl
@[simp] theorem enqueue_flash (s : State) (i : Instr) (a : Arg) : (enqueue s i a).flash = s.flash := rfl
@[simp] theorem enqueue_rollmin (s : State) (i : Instr) (a : Arg) : (enqueue s i a).rollmin = s.rollmin := rfl
@[simp] theorem enqueue_tripped (s : State) (i : Instr) (a : Arg) : (enqueue s i a).tripped = s.tripped := rfl
@[simp] theorem enqueue_bootB (s : State) (i : Instr) (a : Arg) : (enqueue s i a).bootB = s.bootB := rfl
@[simp] theorem enqueue_staging (s : State) (i : Instr) (a : Arg) : (enqueue s i a).staging = s.staging := rfl
@[simp] theorem enqueue_rstat (s : State) (i : Instr) (a : Arg) : (enqueue s i a).rstat = s.rstat := rfl
@[simp] theorem enqueue_rcmd (s : State) (i : Instr) (a : Arg) : (enqueue s i a).rcmd = s.rcmd := rfl
@[simp] theorem enqueue_rtimer (s : State) (i : Instr) (a : Arg) : (enqueue s i a).rtimer = s.rtimer := rfl
@[simp] theorem enqueue_rnonce (s : State) (i : Instr) (a : Arg) : (enqueue s i a).rnonce = s.rnonce := rfl

/-! ## `emit` -/

@[simp] theorem emit_mode (s : State) (o : Out) : (emit s o).mode = s.mode := rfl
@[simp] theorem emit_turn (s : State) (o : Out) : (emit s o).turn = s.turn := rfl
@[simp] theorem emit_free (s : State) (o : Out) : (emit s o).free = s.free := rfl
@[simp] theorem emit_clock (s : State) (o : Out) : (emit s o).clock = s.clock := rfl
@[simp] theorem emit_clks (s : State) (o : Out) : (emit s o).clks = s.clks := rfl
@[simp] theorem emit_cur (s : State) (o : Out) : (emit s o).cur = s.cur := rfl
@[simp] theorem emit_arg (s : State) (o : Out) : (emit s o).arg = s.arg := rfl
@[simp] theorem emit_agenda (s : State) (o : Out) : (emit s o).agenda = s.agenda := rfl
@[simp] theorem emit_nextId (s : State) (o : Out) : (emit s o).nextId = s.nextId := rfl
@[simp] theorem emit_groups (s : State) (o : Out) : (emit s o).groups = s.groups := rfl
@[simp] theorem emit_scr (s : State) (o : Out) : (emit s o).scr = s.scr := rfl
@[simp] theorem emit_ptab (s : State) (o : Out) : (emit s o).ptab = s.ptab := rfl
@[simp] theorem emit_ptLock (s : State) (o : Out) : (emit s o).ptLock = s.ptLock := rfl
@[simp] theorem emit_stamps (s : State) (o : Out) : (emit s o).stamps = s.stamps := rfl
@[simp] theorem emit_rels (s : State) (o : Out) : (emit s o).rels = s.rels := rfl
@[simp] theorem emit_phases (s : State) (o : Out) : (emit s o).phases = s.phases := rfl
@[simp] theorem emit_ibuf (s : State) (o : Out) : (emit s o).ibuf = s.ibuf := rfl
@[simp] theorem emit_arrays (s : State) (o : Out) : (emit s o).arrays = s.arrays := rfl
@[simp] theorem emit_mbx (s : State) (o : Out) : (emit s o).mbx = s.mbx := rfl
@[simp] theorem emit_reqSeq (s : State) (o : Out) : (emit s o).reqSeq = s.reqSeq := rfl
@[simp] theorem emit_tlb (s : State) (o : Out) : (emit s o).tlb = s.tlb := rfl
@[simp] theorem emit_mem (s : State) (o : Out) : (emit s o).mem = s.mem := rfl
@[simp] theorem emit_undef (s : State) (o : Out) : (emit s o).undef = s.undef := rfl
@[simp] theorem emit_bad (s : State) (o : Out) : (emit s o).bad = s.bad := rfl
@[simp] theorem emit_lineDom (s : State) (o : Out) : (emit s o).lineDom = s.lineDom := rfl
@[simp] theorem emit_unitDom (s : State) (o : Out) : (emit s o).unitDom = s.unitDom := rfl
@[simp] theorem emit_rows (s : State) (o : Out) : (emit s o).rows = s.rows := rfl
@[simp] theorem emit_stEpoch (s : State) (o : Out) : (emit s o).stEpoch = s.stEpoch := rfl
@[simp] theorem emit_rowJobs (s : State) (o : Out) : (emit s o).rowJobs = s.rowJobs := rfl
@[simp] theorem emit_parts (s : State) (o : Out) : (emit s o).parts = s.parts := rfl
@[simp] theorem emit_ctxs (s : State) (o : Out) : (emit s o).ctxs = s.ctxs := rfl
@[simp] theorem emit_hwslots (s : State) (o : Out) : (emit s o).hwslots = s.hwslots := rfl
@[simp] theorem emit_pkts (s : State) (o : Out) : (emit s o).pkts = s.pkts := rfl
@[simp] theorem emit_qclk (s : State) (o : Out) : (emit s o).qclk = s.qclk := rfl
@[simp] theorem emit_launches (s : State) (o : Out) : (emit s o).launches = s.launches := rfl
@[simp] theorem emit_nextHandle (s : State) (o : Out) : (emit s o).nextHandle = s.nextHandle := rfl
@[simp] theorem emit_teams (s : State) (o : Out) : (emit s o).teams = s.teams := rfl
@[simp] theorem emit_pawns (s : State) (o : Out) : (emit s o).pawns = s.pawns := rfl
@[simp] theorem emit_fetchws (s : State) (o : Out) : (emit s o).fetchws = s.fetchws := rfl
@[simp] theorem emit_jobs (s : State) (o : Out) : (emit s o).jobs = s.jobs := rfl
@[simp] theorem emit_jobGen (s : State) (o : Out) : (emit s o).jobGen = s.jobGen := rfl
@[simp] theorem emit_streams (s : State) (o : Out) : (emit s o).streams = s.streams := rfl
@[simp] theorem emit_pools (s : State) (o : Out) : (emit s o).pools = s.pools := rfl
@[simp] theorem emit_regs (s : State) (o : Out) : (emit s o).regs = s.regs := rfl
@[simp] theorem emit_ports (s : State) (o : Out) : (emit s o).ports = s.ports := rfl
@[simp] theorem emit_cxl (s : State) (o : Out) : (emit s o).cxl = s.cxl := rfl
@[simp] theorem emit_xacts (s : State) (o : Out) : (emit s o).xacts = s.xacts := rfl
@[simp] theorem emit_posted (s : State) (o : Out) : (emit s o).posted = s.posted := rfl
@[simp] theorem emit_irqs (s : State) (o : Out) : (emit s o).irqs = s.irqs := rfl
@[simp] theorem emit_epoch (s : State) (o : Out) : (emit s o).epoch = s.epoch := rfl
@[simp] theorem emit_flash (s : State) (o : Out) : (emit s o).flash = s.flash := rfl
@[simp] theorem emit_rollmin (s : State) (o : Out) : (emit s o).rollmin = s.rollmin := rfl
@[simp] theorem emit_tripped (s : State) (o : Out) : (emit s o).tripped = s.tripped := rfl
@[simp] theorem emit_bootB (s : State) (o : Out) : (emit s o).bootB = s.bootB := rfl
@[simp] theorem emit_staging (s : State) (o : Out) : (emit s o).staging = s.staging := rfl
@[simp] theorem emit_rstat (s : State) (o : Out) : (emit s o).rstat = s.rstat := rfl
@[simp] theorem emit_rcmd (s : State) (o : Out) : (emit s o).rcmd = s.rcmd := rfl
@[simp] theorem emit_rtimer (s : State) (o : Out) : (emit s o).rtimer = s.rtimer := rfl
@[simp] theorem emit_rnonce (s : State) (o : Out) : (emit s o).rnonce = s.rnonce := rfl

/-! ## `updCtx` -/

@[simp] theorem updCtx_mode (s : State) (id : Nat) (f : Ctx → Ctx) : (updCtx s id f).mode = s.mode := rfl
@[simp] theorem updCtx_turn (s : State) (id : Nat) (f : Ctx → Ctx) : (updCtx s id f).turn = s.turn := rfl
@[simp] theorem updCtx_free (s : State) (id : Nat) (f : Ctx → Ctx) : (updCtx s id f).free = s.free := rfl
@[simp] theorem updCtx_clock (s : State) (id : Nat) (f : Ctx → Ctx) : (updCtx s id f).clock = s.clock := rfl
@[simp] theorem updCtx_clks (s : State) (id : Nat) (f : Ctx → Ctx) : (updCtx s id f).clks = s.clks := rfl
@[simp] theorem updCtx_cur (s : State) (id : Nat) (f : Ctx → Ctx) : (updCtx s id f).cur = s.cur := rfl
@[simp] theorem updCtx_arg (s : State) (id : Nat) (f : Ctx → Ctx) : (updCtx s id f).arg = s.arg := rfl
@[simp] theorem updCtx_agenda (s : State) (id : Nat) (f : Ctx → Ctx) : (updCtx s id f).agenda = s.agenda := rfl
@[simp] theorem updCtx_out (s : State) (id : Nat) (f : Ctx → Ctx) : (updCtx s id f).out = s.out := rfl
@[simp] theorem updCtx_nextId (s : State) (id : Nat) (f : Ctx → Ctx) : (updCtx s id f).nextId = s.nextId := rfl
@[simp] theorem updCtx_groups (s : State) (id : Nat) (f : Ctx → Ctx) : (updCtx s id f).groups = s.groups := rfl
@[simp] theorem updCtx_scr (s : State) (id : Nat) (f : Ctx → Ctx) : (updCtx s id f).scr = s.scr := rfl
@[simp] theorem updCtx_ptab (s : State) (id : Nat) (f : Ctx → Ctx) : (updCtx s id f).ptab = s.ptab := rfl
@[simp] theorem updCtx_ptLock (s : State) (id : Nat) (f : Ctx → Ctx) : (updCtx s id f).ptLock = s.ptLock := rfl
@[simp] theorem updCtx_stamps (s : State) (id : Nat) (f : Ctx → Ctx) : (updCtx s id f).stamps = s.stamps := rfl
@[simp] theorem updCtx_rels (s : State) (id : Nat) (f : Ctx → Ctx) : (updCtx s id f).rels = s.rels := rfl
@[simp] theorem updCtx_phases (s : State) (id : Nat) (f : Ctx → Ctx) : (updCtx s id f).phases = s.phases := rfl
@[simp] theorem updCtx_ibuf (s : State) (id : Nat) (f : Ctx → Ctx) : (updCtx s id f).ibuf = s.ibuf := rfl
@[simp] theorem updCtx_arrays (s : State) (id : Nat) (f : Ctx → Ctx) : (updCtx s id f).arrays = s.arrays := rfl
@[simp] theorem updCtx_mbx (s : State) (id : Nat) (f : Ctx → Ctx) : (updCtx s id f).mbx = s.mbx := rfl
@[simp] theorem updCtx_reqSeq (s : State) (id : Nat) (f : Ctx → Ctx) : (updCtx s id f).reqSeq = s.reqSeq := rfl
@[simp] theorem updCtx_tlb (s : State) (id : Nat) (f : Ctx → Ctx) : (updCtx s id f).tlb = s.tlb := rfl
@[simp] theorem updCtx_mem (s : State) (id : Nat) (f : Ctx → Ctx) : (updCtx s id f).mem = s.mem := rfl
@[simp] theorem updCtx_undef (s : State) (id : Nat) (f : Ctx → Ctx) : (updCtx s id f).undef = s.undef := rfl
@[simp] theorem updCtx_bad (s : State) (id : Nat) (f : Ctx → Ctx) : (updCtx s id f).bad = s.bad := rfl
@[simp] theorem updCtx_lineDom (s : State) (id : Nat) (f : Ctx → Ctx) : (updCtx s id f).lineDom = s.lineDom := rfl
@[simp] theorem updCtx_unitDom (s : State) (id : Nat) (f : Ctx → Ctx) : (updCtx s id f).unitDom = s.unitDom := rfl
@[simp] theorem updCtx_rows (s : State) (id : Nat) (f : Ctx → Ctx) : (updCtx s id f).rows = s.rows := rfl
@[simp] theorem updCtx_stEpoch (s : State) (id : Nat) (f : Ctx → Ctx) : (updCtx s id f).stEpoch = s.stEpoch := rfl
@[simp] theorem updCtx_rowJobs (s : State) (id : Nat) (f : Ctx → Ctx) : (updCtx s id f).rowJobs = s.rowJobs := rfl
@[simp] theorem updCtx_parts (s : State) (id : Nat) (f : Ctx → Ctx) : (updCtx s id f).parts = s.parts := rfl
@[simp] theorem updCtx_hwslots (s : State) (id : Nat) (f : Ctx → Ctx) : (updCtx s id f).hwslots = s.hwslots := rfl
@[simp] theorem updCtx_pkts (s : State) (id : Nat) (f : Ctx → Ctx) : (updCtx s id f).pkts = s.pkts := rfl
@[simp] theorem updCtx_qclk (s : State) (id : Nat) (f : Ctx → Ctx) : (updCtx s id f).qclk = s.qclk := rfl
@[simp] theorem updCtx_launches (s : State) (id : Nat) (f : Ctx → Ctx) : (updCtx s id f).launches = s.launches := rfl
@[simp] theorem updCtx_nextHandle (s : State) (id : Nat) (f : Ctx → Ctx) : (updCtx s id f).nextHandle = s.nextHandle := rfl
@[simp] theorem updCtx_teams (s : State) (id : Nat) (f : Ctx → Ctx) : (updCtx s id f).teams = s.teams := rfl
@[simp] theorem updCtx_pawns (s : State) (id : Nat) (f : Ctx → Ctx) : (updCtx s id f).pawns = s.pawns := rfl
@[simp] theorem updCtx_fetchws (s : State) (id : Nat) (f : Ctx → Ctx) : (updCtx s id f).fetchws = s.fetchws := rfl
@[simp] theorem updCtx_jobs (s : State) (id : Nat) (f : Ctx → Ctx) : (updCtx s id f).jobs = s.jobs := rfl
@[simp] theorem updCtx_jobGen (s : State) (id : Nat) (f : Ctx → Ctx) : (updCtx s id f).jobGen = s.jobGen := rfl
@[simp] theorem updCtx_streams (s : State) (id : Nat) (f : Ctx → Ctx) : (updCtx s id f).streams = s.streams := rfl
@[simp] theorem updCtx_pools (s : State) (id : Nat) (f : Ctx → Ctx) : (updCtx s id f).pools = s.pools := rfl
@[simp] theorem updCtx_regs (s : State) (id : Nat) (f : Ctx → Ctx) : (updCtx s id f).regs = s.regs := rfl
@[simp] theorem updCtx_ports (s : State) (id : Nat) (f : Ctx → Ctx) : (updCtx s id f).ports = s.ports := rfl
@[simp] theorem updCtx_cxl (s : State) (id : Nat) (f : Ctx → Ctx) : (updCtx s id f).cxl = s.cxl := rfl
@[simp] theorem updCtx_xacts (s : State) (id : Nat) (f : Ctx → Ctx) : (updCtx s id f).xacts = s.xacts := rfl
@[simp] theorem updCtx_posted (s : State) (id : Nat) (f : Ctx → Ctx) : (updCtx s id f).posted = s.posted := rfl
@[simp] theorem updCtx_irqs (s : State) (id : Nat) (f : Ctx → Ctx) : (updCtx s id f).irqs = s.irqs := rfl
@[simp] theorem updCtx_epoch (s : State) (id : Nat) (f : Ctx → Ctx) : (updCtx s id f).epoch = s.epoch := rfl
@[simp] theorem updCtx_flash (s : State) (id : Nat) (f : Ctx → Ctx) : (updCtx s id f).flash = s.flash := rfl
@[simp] theorem updCtx_rollmin (s : State) (id : Nat) (f : Ctx → Ctx) : (updCtx s id f).rollmin = s.rollmin := rfl
@[simp] theorem updCtx_tripped (s : State) (id : Nat) (f : Ctx → Ctx) : (updCtx s id f).tripped = s.tripped := rfl
@[simp] theorem updCtx_bootB (s : State) (id : Nat) (f : Ctx → Ctx) : (updCtx s id f).bootB = s.bootB := rfl
@[simp] theorem updCtx_staging (s : State) (id : Nat) (f : Ctx → Ctx) : (updCtx s id f).staging = s.staging := rfl
@[simp] theorem updCtx_rstat (s : State) (id : Nat) (f : Ctx → Ctx) : (updCtx s id f).rstat = s.rstat := rfl
@[simp] theorem updCtx_rcmd (s : State) (id : Nat) (f : Ctx → Ctx) : (updCtx s id f).rcmd = s.rcmd := rfl
@[simp] theorem updCtx_rtimer (s : State) (id : Nat) (f : Ctx → Ctx) : (updCtx s id f).rtimer = s.rtimer := rfl
@[simp] theorem updCtx_rnonce (s : State) (id : Nat) (f : Ctx → Ctx) : (updCtx s id f).rnonce = s.rnonce := rfl

/-! ## `updPart` -/

@[simp] theorem updPart_mode (s : State) (p : Nat) (f : Part → Part) : (updPart s p f).mode = s.mode := rfl
@[simp] theorem updPart_turn (s : State) (p : Nat) (f : Part → Part) : (updPart s p f).turn = s.turn := rfl
@[simp] theorem updPart_free (s : State) (p : Nat) (f : Part → Part) : (updPart s p f).free = s.free := rfl
@[simp] theorem updPart_clock (s : State) (p : Nat) (f : Part → Part) : (updPart s p f).clock = s.clock := rfl
@[simp] theorem updPart_clks (s : State) (p : Nat) (f : Part → Part) : (updPart s p f).clks = s.clks := rfl
@[simp] theorem updPart_cur (s : State) (p : Nat) (f : Part → Part) : (updPart s p f).cur = s.cur := rfl
@[simp] theorem updPart_arg (s : State) (p : Nat) (f : Part → Part) : (updPart s p f).arg = s.arg := rfl
@[simp] theorem updPart_agenda (s : State) (p : Nat) (f : Part → Part) : (updPart s p f).agenda = s.agenda := rfl
@[simp] theorem updPart_out (s : State) (p : Nat) (f : Part → Part) : (updPart s p f).out = s.out := rfl
@[simp] theorem updPart_nextId (s : State) (p : Nat) (f : Part → Part) : (updPart s p f).nextId = s.nextId := rfl
@[simp] theorem updPart_groups (s : State) (p : Nat) (f : Part → Part) : (updPart s p f).groups = s.groups := rfl
@[simp] theorem updPart_scr (s : State) (p : Nat) (f : Part → Part) : (updPart s p f).scr = s.scr := rfl
@[simp] theorem updPart_ptab (s : State) (p : Nat) (f : Part → Part) : (updPart s p f).ptab = s.ptab := rfl
@[simp] theorem updPart_ptLock (s : State) (p : Nat) (f : Part → Part) : (updPart s p f).ptLock = s.ptLock := rfl
@[simp] theorem updPart_stamps (s : State) (p : Nat) (f : Part → Part) : (updPart s p f).stamps = s.stamps := rfl
@[simp] theorem updPart_rels (s : State) (p : Nat) (f : Part → Part) : (updPart s p f).rels = s.rels := rfl
@[simp] theorem updPart_phases (s : State) (p : Nat) (f : Part → Part) : (updPart s p f).phases = s.phases := rfl
@[simp] theorem updPart_ibuf (s : State) (p : Nat) (f : Part → Part) : (updPart s p f).ibuf = s.ibuf := rfl
@[simp] theorem updPart_arrays (s : State) (p : Nat) (f : Part → Part) : (updPart s p f).arrays = s.arrays := rfl
@[simp] theorem updPart_mbx (s : State) (p : Nat) (f : Part → Part) : (updPart s p f).mbx = s.mbx := rfl
@[simp] theorem updPart_reqSeq (s : State) (p : Nat) (f : Part → Part) : (updPart s p f).reqSeq = s.reqSeq := rfl
@[simp] theorem updPart_tlb (s : State) (p : Nat) (f : Part → Part) : (updPart s p f).tlb = s.tlb := rfl
@[simp] theorem updPart_mem (s : State) (p : Nat) (f : Part → Part) : (updPart s p f).mem = s.mem := rfl
@[simp] theorem updPart_undef (s : State) (p : Nat) (f : Part → Part) : (updPart s p f).undef = s.undef := rfl
@[simp] theorem updPart_bad (s : State) (p : Nat) (f : Part → Part) : (updPart s p f).bad = s.bad := rfl
@[simp] theorem updPart_lineDom (s : State) (p : Nat) (f : Part → Part) : (updPart s p f).lineDom = s.lineDom := rfl
@[simp] theorem updPart_unitDom (s : State) (p : Nat) (f : Part → Part) : (updPart s p f).unitDom = s.unitDom := rfl
@[simp] theorem updPart_rows (s : State) (p : Nat) (f : Part → Part) : (updPart s p f).rows = s.rows := rfl
@[simp] theorem updPart_stEpoch (s : State) (p : Nat) (f : Part → Part) : (updPart s p f).stEpoch = s.stEpoch := rfl
@[simp] theorem updPart_rowJobs (s : State) (p : Nat) (f : Part → Part) : (updPart s p f).rowJobs = s.rowJobs := rfl
@[simp] theorem updPart_ctxs (s : State) (p : Nat) (f : Part → Part) : (updPart s p f).ctxs = s.ctxs := rfl
@[simp] theorem updPart_hwslots (s : State) (p : Nat) (f : Part → Part) : (updPart s p f).hwslots = s.hwslots := rfl
@[simp] theorem updPart_pkts (s : State) (p : Nat) (f : Part → Part) : (updPart s p f).pkts = s.pkts := rfl
@[simp] theorem updPart_qclk (s : State) (p : Nat) (f : Part → Part) : (updPart s p f).qclk = s.qclk := rfl
@[simp] theorem updPart_launches (s : State) (p : Nat) (f : Part → Part) : (updPart s p f).launches = s.launches := rfl
@[simp] theorem updPart_nextHandle (s : State) (p : Nat) (f : Part → Part) : (updPart s p f).nextHandle = s.nextHandle := rfl
@[simp] theorem updPart_teams (s : State) (p : Nat) (f : Part → Part) : (updPart s p f).teams = s.teams := rfl
@[simp] theorem updPart_pawns (s : State) (p : Nat) (f : Part → Part) : (updPart s p f).pawns = s.pawns := rfl
@[simp] theorem updPart_fetchws (s : State) (p : Nat) (f : Part → Part) : (updPart s p f).fetchws = s.fetchws := rfl
@[simp] theorem updPart_jobs (s : State) (p : Nat) (f : Part → Part) : (updPart s p f).jobs = s.jobs := rfl
@[simp] theorem updPart_jobGen (s : State) (p : Nat) (f : Part → Part) : (updPart s p f).jobGen = s.jobGen := rfl
@[simp] theorem updPart_streams (s : State) (p : Nat) (f : Part → Part) : (updPart s p f).streams = s.streams := rfl
@[simp] theorem updPart_pools (s : State) (p : Nat) (f : Part → Part) : (updPart s p f).pools = s.pools := rfl
@[simp] theorem updPart_regs (s : State) (p : Nat) (f : Part → Part) : (updPart s p f).regs = s.regs := rfl
@[simp] theorem updPart_ports (s : State) (p : Nat) (f : Part → Part) : (updPart s p f).ports = s.ports := rfl
@[simp] theorem updPart_cxl (s : State) (p : Nat) (f : Part → Part) : (updPart s p f).cxl = s.cxl := rfl
@[simp] theorem updPart_xacts (s : State) (p : Nat) (f : Part → Part) : (updPart s p f).xacts = s.xacts := rfl
@[simp] theorem updPart_posted (s : State) (p : Nat) (f : Part → Part) : (updPart s p f).posted = s.posted := rfl
@[simp] theorem updPart_irqs (s : State) (p : Nat) (f : Part → Part) : (updPart s p f).irqs = s.irqs := rfl
@[simp] theorem updPart_epoch (s : State) (p : Nat) (f : Part → Part) : (updPart s p f).epoch = s.epoch := rfl
@[simp] theorem updPart_flash (s : State) (p : Nat) (f : Part → Part) : (updPart s p f).flash = s.flash := rfl
@[simp] theorem updPart_rollmin (s : State) (p : Nat) (f : Part → Part) : (updPart s p f).rollmin = s.rollmin := rfl
@[simp] theorem updPart_tripped (s : State) (p : Nat) (f : Part → Part) : (updPart s p f).tripped = s.tripped := rfl
@[simp] theorem updPart_bootB (s : State) (p : Nat) (f : Part → Part) : (updPart s p f).bootB = s.bootB := rfl
@[simp] theorem updPart_staging (s : State) (p : Nat) (f : Part → Part) : (updPart s p f).staging = s.staging := rfl
@[simp] theorem updPart_rstat (s : State) (p : Nat) (f : Part → Part) : (updPart s p f).rstat = s.rstat := rfl
@[simp] theorem updPart_rcmd (s : State) (p : Nat) (f : Part → Part) : (updPart s p f).rcmd = s.rcmd := rfl
@[simp] theorem updPart_rtimer (s : State) (p : Nat) (f : Part → Part) : (updPart s p f).rtimer = s.rtimer := rfl
@[simp] theorem updPart_rnonce (s : State) (p : Nat) (f : Part → Part) : (updPart s p f).rnonce = s.rnonce := rfl

/-! ## `updSlot` -/

@[simp] theorem updSlot_mode (s : State) (k : Nat) (f : HwSlot → HwSlot) : (updSlot s k f).mode = s.mode := rfl
@[simp] theorem updSlot_turn (s : State) (k : Nat) (f : HwSlot → HwSlot) : (updSlot s k f).turn = s.turn := rfl
@[simp] theorem updSlot_free (s : State) (k : Nat) (f : HwSlot → HwSlot) : (updSlot s k f).free = s.free := rfl
@[simp] theorem updSlot_clock (s : State) (k : Nat) (f : HwSlot → HwSlot) : (updSlot s k f).clock = s.clock := rfl
@[simp] theorem updSlot_clks (s : State) (k : Nat) (f : HwSlot → HwSlot) : (updSlot s k f).clks = s.clks := rfl
@[simp] theorem updSlot_cur (s : State) (k : Nat) (f : HwSlot → HwSlot) : (updSlot s k f).cur = s.cur := rfl
@[simp] theorem updSlot_arg (s : State) (k : Nat) (f : HwSlot → HwSlot) : (updSlot s k f).arg = s.arg := rfl
@[simp] theorem updSlot_agenda (s : State) (k : Nat) (f : HwSlot → HwSlot) : (updSlot s k f).agenda = s.agenda := rfl
@[simp] theorem updSlot_out (s : State) (k : Nat) (f : HwSlot → HwSlot) : (updSlot s k f).out = s.out := rfl
@[simp] theorem updSlot_nextId (s : State) (k : Nat) (f : HwSlot → HwSlot) : (updSlot s k f).nextId = s.nextId := rfl
@[simp] theorem updSlot_groups (s : State) (k : Nat) (f : HwSlot → HwSlot) : (updSlot s k f).groups = s.groups := rfl
@[simp] theorem updSlot_scr (s : State) (k : Nat) (f : HwSlot → HwSlot) : (updSlot s k f).scr = s.scr := rfl
@[simp] theorem updSlot_ptab (s : State) (k : Nat) (f : HwSlot → HwSlot) : (updSlot s k f).ptab = s.ptab := rfl
@[simp] theorem updSlot_ptLock (s : State) (k : Nat) (f : HwSlot → HwSlot) : (updSlot s k f).ptLock = s.ptLock := rfl
@[simp] theorem updSlot_stamps (s : State) (k : Nat) (f : HwSlot → HwSlot) : (updSlot s k f).stamps = s.stamps := rfl
@[simp] theorem updSlot_rels (s : State) (k : Nat) (f : HwSlot → HwSlot) : (updSlot s k f).rels = s.rels := rfl
@[simp] theorem updSlot_phases (s : State) (k : Nat) (f : HwSlot → HwSlot) : (updSlot s k f).phases = s.phases := rfl
@[simp] theorem updSlot_ibuf (s : State) (k : Nat) (f : HwSlot → HwSlot) : (updSlot s k f).ibuf = s.ibuf := rfl
@[simp] theorem updSlot_arrays (s : State) (k : Nat) (f : HwSlot → HwSlot) : (updSlot s k f).arrays = s.arrays := rfl
@[simp] theorem updSlot_mbx (s : State) (k : Nat) (f : HwSlot → HwSlot) : (updSlot s k f).mbx = s.mbx := rfl
@[simp] theorem updSlot_reqSeq (s : State) (k : Nat) (f : HwSlot → HwSlot) : (updSlot s k f).reqSeq = s.reqSeq := rfl
@[simp] theorem updSlot_tlb (s : State) (k : Nat) (f : HwSlot → HwSlot) : (updSlot s k f).tlb = s.tlb := rfl
@[simp] theorem updSlot_mem (s : State) (k : Nat) (f : HwSlot → HwSlot) : (updSlot s k f).mem = s.mem := rfl
@[simp] theorem updSlot_undef (s : State) (k : Nat) (f : HwSlot → HwSlot) : (updSlot s k f).undef = s.undef := rfl
@[simp] theorem updSlot_bad (s : State) (k : Nat) (f : HwSlot → HwSlot) : (updSlot s k f).bad = s.bad := rfl
@[simp] theorem updSlot_lineDom (s : State) (k : Nat) (f : HwSlot → HwSlot) : (updSlot s k f).lineDom = s.lineDom := rfl
@[simp] theorem updSlot_unitDom (s : State) (k : Nat) (f : HwSlot → HwSlot) : (updSlot s k f).unitDom = s.unitDom := rfl
@[simp] theorem updSlot_rows (s : State) (k : Nat) (f : HwSlot → HwSlot) : (updSlot s k f).rows = s.rows := rfl
@[simp] theorem updSlot_stEpoch (s : State) (k : Nat) (f : HwSlot → HwSlot) : (updSlot s k f).stEpoch = s.stEpoch := rfl
@[simp] theorem updSlot_rowJobs (s : State) (k : Nat) (f : HwSlot → HwSlot) : (updSlot s k f).rowJobs = s.rowJobs := rfl
@[simp] theorem updSlot_parts (s : State) (k : Nat) (f : HwSlot → HwSlot) : (updSlot s k f).parts = s.parts := rfl
@[simp] theorem updSlot_ctxs (s : State) (k : Nat) (f : HwSlot → HwSlot) : (updSlot s k f).ctxs = s.ctxs := rfl
@[simp] theorem updSlot_pkts (s : State) (k : Nat) (f : HwSlot → HwSlot) : (updSlot s k f).pkts = s.pkts := rfl
@[simp] theorem updSlot_qclk (s : State) (k : Nat) (f : HwSlot → HwSlot) : (updSlot s k f).qclk = s.qclk := rfl
@[simp] theorem updSlot_launches (s : State) (k : Nat) (f : HwSlot → HwSlot) : (updSlot s k f).launches = s.launches := rfl
@[simp] theorem updSlot_nextHandle (s : State) (k : Nat) (f : HwSlot → HwSlot) : (updSlot s k f).nextHandle = s.nextHandle := rfl
@[simp] theorem updSlot_teams (s : State) (k : Nat) (f : HwSlot → HwSlot) : (updSlot s k f).teams = s.teams := rfl
@[simp] theorem updSlot_pawns (s : State) (k : Nat) (f : HwSlot → HwSlot) : (updSlot s k f).pawns = s.pawns := rfl
@[simp] theorem updSlot_fetchws (s : State) (k : Nat) (f : HwSlot → HwSlot) : (updSlot s k f).fetchws = s.fetchws := rfl
@[simp] theorem updSlot_jobs (s : State) (k : Nat) (f : HwSlot → HwSlot) : (updSlot s k f).jobs = s.jobs := rfl
@[simp] theorem updSlot_jobGen (s : State) (k : Nat) (f : HwSlot → HwSlot) : (updSlot s k f).jobGen = s.jobGen := rfl
@[simp] theorem updSlot_streams (s : State) (k : Nat) (f : HwSlot → HwSlot) : (updSlot s k f).streams = s.streams := rfl
@[simp] theorem updSlot_pools (s : State) (k : Nat) (f : HwSlot → HwSlot) : (updSlot s k f).pools = s.pools := rfl
@[simp] theorem updSlot_regs (s : State) (k : Nat) (f : HwSlot → HwSlot) : (updSlot s k f).regs = s.regs := rfl
@[simp] theorem updSlot_ports (s : State) (k : Nat) (f : HwSlot → HwSlot) : (updSlot s k f).ports = s.ports := rfl
@[simp] theorem updSlot_cxl (s : State) (k : Nat) (f : HwSlot → HwSlot) : (updSlot s k f).cxl = s.cxl := rfl
@[simp] theorem updSlot_xacts (s : State) (k : Nat) (f : HwSlot → HwSlot) : (updSlot s k f).xacts = s.xacts := rfl
@[simp] theorem updSlot_posted (s : State) (k : Nat) (f : HwSlot → HwSlot) : (updSlot s k f).posted = s.posted := rfl
@[simp] theorem updSlot_irqs (s : State) (k : Nat) (f : HwSlot → HwSlot) : (updSlot s k f).irqs = s.irqs := rfl
@[simp] theorem updSlot_epoch (s : State) (k : Nat) (f : HwSlot → HwSlot) : (updSlot s k f).epoch = s.epoch := rfl
@[simp] theorem updSlot_flash (s : State) (k : Nat) (f : HwSlot → HwSlot) : (updSlot s k f).flash = s.flash := rfl
@[simp] theorem updSlot_rollmin (s : State) (k : Nat) (f : HwSlot → HwSlot) : (updSlot s k f).rollmin = s.rollmin := rfl
@[simp] theorem updSlot_tripped (s : State) (k : Nat) (f : HwSlot → HwSlot) : (updSlot s k f).tripped = s.tripped := rfl
@[simp] theorem updSlot_bootB (s : State) (k : Nat) (f : HwSlot → HwSlot) : (updSlot s k f).bootB = s.bootB := rfl
@[simp] theorem updSlot_staging (s : State) (k : Nat) (f : HwSlot → HwSlot) : (updSlot s k f).staging = s.staging := rfl
@[simp] theorem updSlot_rstat (s : State) (k : Nat) (f : HwSlot → HwSlot) : (updSlot s k f).rstat = s.rstat := rfl
@[simp] theorem updSlot_rcmd (s : State) (k : Nat) (f : HwSlot → HwSlot) : (updSlot s k f).rcmd = s.rcmd := rfl
@[simp] theorem updSlot_rtimer (s : State) (k : Nat) (f : HwSlot → HwSlot) : (updSlot s k f).rtimer = s.rtimer := rfl
@[simp] theorem updSlot_rnonce (s : State) (k : Nat) (f : HwSlot → HwSlot) : (updSlot s k f).rnonce = s.rnonce := rfl

/-! ## `updPort` -/

@[simp] theorem updPort_mode (s : State) (n : Nat) (f : LPort → LPort) : (updPort s n f).mode = s.mode := rfl
@[simp] theorem updPort_turn (s : State) (n : Nat) (f : LPort → LPort) : (updPort s n f).turn = s.turn := rfl
@[simp] theorem updPort_free (s : State) (n : Nat) (f : LPort → LPort) : (updPort s n f).free = s.free := rfl
@[simp] theorem updPort_clock (s : State) (n : Nat) (f : LPort → LPort) : (updPort s n f).clock = s.clock := rfl
@[simp] theorem updPort_clks (s : State) (n : Nat) (f : LPort → LPort) : (updPort s n f).clks = s.clks := rfl
@[simp] theorem updPort_cur (s : State) (n : Nat) (f : LPort → LPort) : (updPort s n f).cur = s.cur := rfl
@[simp] theorem updPort_arg (s : State) (n : Nat) (f : LPort → LPort) : (updPort s n f).arg = s.arg := rfl
@[simp] theorem updPort_agenda (s : State) (n : Nat) (f : LPort → LPort) : (updPort s n f).agenda = s.agenda := rfl
@[simp] theorem updPort_out (s : State) (n : Nat) (f : LPort → LPort) : (updPort s n f).out = s.out := rfl
@[simp] theorem updPort_nextId (s : State) (n : Nat) (f : LPort → LPort) : (updPort s n f).nextId = s.nextId := rfl
@[simp] theorem updPort_groups (s : State) (n : Nat) (f : LPort → LPort) : (updPort s n f).groups = s.groups := rfl
@[simp] theorem updPort_scr (s : State) (n : Nat) (f : LPort → LPort) : (updPort s n f).scr = s.scr := rfl
@[simp] theorem updPort_ptab (s : State) (n : Nat) (f : LPort → LPort) : (updPort s n f).ptab = s.ptab := rfl
@[simp] theorem updPort_ptLock (s : State) (n : Nat) (f : LPort → LPort) : (updPort s n f).ptLock = s.ptLock := rfl
@[simp] theorem updPort_stamps (s : State) (n : Nat) (f : LPort → LPort) : (updPort s n f).stamps = s.stamps := rfl
@[simp] theorem updPort_rels (s : State) (n : Nat) (f : LPort → LPort) : (updPort s n f).rels = s.rels := rfl
@[simp] theorem updPort_phases (s : State) (n : Nat) (f : LPort → LPort) : (updPort s n f).phases = s.phases := rfl
@[simp] theorem updPort_ibuf (s : State) (n : Nat) (f : LPort → LPort) : (updPort s n f).ibuf = s.ibuf := rfl
@[simp] theorem updPort_arrays (s : State) (n : Nat) (f : LPort → LPort) : (updPort s n f).arrays = s.arrays := rfl
@[simp] theorem updPort_mbx (s : State) (n : Nat) (f : LPort → LPort) : (updPort s n f).mbx = s.mbx := rfl
@[simp] theorem updPort_reqSeq (s : State) (n : Nat) (f : LPort → LPort) : (updPort s n f).reqSeq = s.reqSeq := rfl
@[simp] theorem updPort_tlb (s : State) (n : Nat) (f : LPort → LPort) : (updPort s n f).tlb = s.tlb := rfl
@[simp] theorem updPort_mem (s : State) (n : Nat) (f : LPort → LPort) : (updPort s n f).mem = s.mem := rfl
@[simp] theorem updPort_undef (s : State) (n : Nat) (f : LPort → LPort) : (updPort s n f).undef = s.undef := rfl
@[simp] theorem updPort_bad (s : State) (n : Nat) (f : LPort → LPort) : (updPort s n f).bad = s.bad := rfl
@[simp] theorem updPort_lineDom (s : State) (n : Nat) (f : LPort → LPort) : (updPort s n f).lineDom = s.lineDom := rfl
@[simp] theorem updPort_unitDom (s : State) (n : Nat) (f : LPort → LPort) : (updPort s n f).unitDom = s.unitDom := rfl
@[simp] theorem updPort_rows (s : State) (n : Nat) (f : LPort → LPort) : (updPort s n f).rows = s.rows := rfl
@[simp] theorem updPort_stEpoch (s : State) (n : Nat) (f : LPort → LPort) : (updPort s n f).stEpoch = s.stEpoch := rfl
@[simp] theorem updPort_rowJobs (s : State) (n : Nat) (f : LPort → LPort) : (updPort s n f).rowJobs = s.rowJobs := rfl
@[simp] theorem updPort_parts (s : State) (n : Nat) (f : LPort → LPort) : (updPort s n f).parts = s.parts := rfl
@[simp] theorem updPort_ctxs (s : State) (n : Nat) (f : LPort → LPort) : (updPort s n f).ctxs = s.ctxs := rfl
@[simp] theorem updPort_hwslots (s : State) (n : Nat) (f : LPort → LPort) : (updPort s n f).hwslots = s.hwslots := rfl
@[simp] theorem updPort_pkts (s : State) (n : Nat) (f : LPort → LPort) : (updPort s n f).pkts = s.pkts := rfl
@[simp] theorem updPort_qclk (s : State) (n : Nat) (f : LPort → LPort) : (updPort s n f).qclk = s.qclk := rfl
@[simp] theorem updPort_launches (s : State) (n : Nat) (f : LPort → LPort) : (updPort s n f).launches = s.launches := rfl
@[simp] theorem updPort_nextHandle (s : State) (n : Nat) (f : LPort → LPort) : (updPort s n f).nextHandle = s.nextHandle := rfl
@[simp] theorem updPort_teams (s : State) (n : Nat) (f : LPort → LPort) : (updPort s n f).teams = s.teams := rfl
@[simp] theorem updPort_pawns (s : State) (n : Nat) (f : LPort → LPort) : (updPort s n f).pawns = s.pawns := rfl
@[simp] theorem updPort_fetchws (s : State) (n : Nat) (f : LPort → LPort) : (updPort s n f).fetchws = s.fetchws := rfl
@[simp] theorem updPort_jobs (s : State) (n : Nat) (f : LPort → LPort) : (updPort s n f).jobs = s.jobs := rfl
@[simp] theorem updPort_jobGen (s : State) (n : Nat) (f : LPort → LPort) : (updPort s n f).jobGen = s.jobGen := rfl
@[simp] theorem updPort_streams (s : State) (n : Nat) (f : LPort → LPort) : (updPort s n f).streams = s.streams := rfl
@[simp] theorem updPort_pools (s : State) (n : Nat) (f : LPort → LPort) : (updPort s n f).pools = s.pools := rfl
@[simp] theorem updPort_regs (s : State) (n : Nat) (f : LPort → LPort) : (updPort s n f).regs = s.regs := rfl
@[simp] theorem updPort_cxl (s : State) (n : Nat) (f : LPort → LPort) : (updPort s n f).cxl = s.cxl := rfl
@[simp] theorem updPort_xacts (s : State) (n : Nat) (f : LPort → LPort) : (updPort s n f).xacts = s.xacts := rfl
@[simp] theorem updPort_posted (s : State) (n : Nat) (f : LPort → LPort) : (updPort s n f).posted = s.posted := rfl
@[simp] theorem updPort_irqs (s : State) (n : Nat) (f : LPort → LPort) : (updPort s n f).irqs = s.irqs := rfl
@[simp] theorem updPort_epoch (s : State) (n : Nat) (f : LPort → LPort) : (updPort s n f).epoch = s.epoch := rfl
@[simp] theorem updPort_flash (s : State) (n : Nat) (f : LPort → LPort) : (updPort s n f).flash = s.flash := rfl
@[simp] theorem updPort_rollmin (s : State) (n : Nat) (f : LPort → LPort) : (updPort s n f).rollmin = s.rollmin := rfl
@[simp] theorem updPort_tripped (s : State) (n : Nat) (f : LPort → LPort) : (updPort s n f).tripped = s.tripped := rfl
@[simp] theorem updPort_bootB (s : State) (n : Nat) (f : LPort → LPort) : (updPort s n f).bootB = s.bootB := rfl
@[simp] theorem updPort_staging (s : State) (n : Nat) (f : LPort → LPort) : (updPort s n f).staging = s.staging := rfl
@[simp] theorem updPort_rstat (s : State) (n : Nat) (f : LPort → LPort) : (updPort s n f).rstat = s.rstat := rfl
@[simp] theorem updPort_rcmd (s : State) (n : Nat) (f : LPort → LPort) : (updPort s n f).rcmd = s.rcmd := rfl
@[simp] theorem updPort_rtimer (s : State) (n : Nat) (f : LPort → LPort) : (updPort s n f).rtimer = s.rtimer := rfl
@[simp] theorem updPort_rnonce (s : State) (n : Nat) (f : LPort → LPort) : (updPort s n f).rnonce = s.rnonce := rfl

/-! ## `updTeam` -/

@[simp] theorem updTeam_mode (s : State) (id : Nat) (f : Team → Team) : (updTeam s id f).mode = s.mode := rfl
@[simp] theorem updTeam_turn (s : State) (id : Nat) (f : Team → Team) : (updTeam s id f).turn = s.turn := rfl
@[simp] theorem updTeam_free (s : State) (id : Nat) (f : Team → Team) : (updTeam s id f).free = s.free := rfl
@[simp] theorem updTeam_clock (s : State) (id : Nat) (f : Team → Team) : (updTeam s id f).clock = s.clock := rfl
@[simp] theorem updTeam_clks (s : State) (id : Nat) (f : Team → Team) : (updTeam s id f).clks = s.clks := rfl
@[simp] theorem updTeam_cur (s : State) (id : Nat) (f : Team → Team) : (updTeam s id f).cur = s.cur := rfl
@[simp] theorem updTeam_arg (s : State) (id : Nat) (f : Team → Team) : (updTeam s id f).arg = s.arg := rfl
@[simp] theorem updTeam_agenda (s : State) (id : Nat) (f : Team → Team) : (updTeam s id f).agenda = s.agenda := rfl
@[simp] theorem updTeam_out (s : State) (id : Nat) (f : Team → Team) : (updTeam s id f).out = s.out := rfl
@[simp] theorem updTeam_nextId (s : State) (id : Nat) (f : Team → Team) : (updTeam s id f).nextId = s.nextId := rfl
@[simp] theorem updTeam_groups (s : State) (id : Nat) (f : Team → Team) : (updTeam s id f).groups = s.groups := rfl
@[simp] theorem updTeam_scr (s : State) (id : Nat) (f : Team → Team) : (updTeam s id f).scr = s.scr := rfl
@[simp] theorem updTeam_ptab (s : State) (id : Nat) (f : Team → Team) : (updTeam s id f).ptab = s.ptab := rfl
@[simp] theorem updTeam_ptLock (s : State) (id : Nat) (f : Team → Team) : (updTeam s id f).ptLock = s.ptLock := rfl
@[simp] theorem updTeam_stamps (s : State) (id : Nat) (f : Team → Team) : (updTeam s id f).stamps = s.stamps := rfl
@[simp] theorem updTeam_rels (s : State) (id : Nat) (f : Team → Team) : (updTeam s id f).rels = s.rels := rfl
@[simp] theorem updTeam_phases (s : State) (id : Nat) (f : Team → Team) : (updTeam s id f).phases = s.phases := rfl
@[simp] theorem updTeam_ibuf (s : State) (id : Nat) (f : Team → Team) : (updTeam s id f).ibuf = s.ibuf := rfl
@[simp] theorem updTeam_arrays (s : State) (id : Nat) (f : Team → Team) : (updTeam s id f).arrays = s.arrays := rfl
@[simp] theorem updTeam_mbx (s : State) (id : Nat) (f : Team → Team) : (updTeam s id f).mbx = s.mbx := rfl
@[simp] theorem updTeam_reqSeq (s : State) (id : Nat) (f : Team → Team) : (updTeam s id f).reqSeq = s.reqSeq := rfl
@[simp] theorem updTeam_tlb (s : State) (id : Nat) (f : Team → Team) : (updTeam s id f).tlb = s.tlb := rfl
@[simp] theorem updTeam_mem (s : State) (id : Nat) (f : Team → Team) : (updTeam s id f).mem = s.mem := rfl
@[simp] theorem updTeam_undef (s : State) (id : Nat) (f : Team → Team) : (updTeam s id f).undef = s.undef := rfl
@[simp] theorem updTeam_bad (s : State) (id : Nat) (f : Team → Team) : (updTeam s id f).bad = s.bad := rfl
@[simp] theorem updTeam_lineDom (s : State) (id : Nat) (f : Team → Team) : (updTeam s id f).lineDom = s.lineDom := rfl
@[simp] theorem updTeam_unitDom (s : State) (id : Nat) (f : Team → Team) : (updTeam s id f).unitDom = s.unitDom := rfl
@[simp] theorem updTeam_rows (s : State) (id : Nat) (f : Team → Team) : (updTeam s id f).rows = s.rows := rfl
@[simp] theorem updTeam_stEpoch (s : State) (id : Nat) (f : Team → Team) : (updTeam s id f).stEpoch = s.stEpoch := rfl
@[simp] theorem updTeam_rowJobs (s : State) (id : Nat) (f : Team → Team) : (updTeam s id f).rowJobs = s.rowJobs := rfl
@[simp] theorem updTeam_parts (s : State) (id : Nat) (f : Team → Team) : (updTeam s id f).parts = s.parts := rfl
@[simp] theorem updTeam_ctxs (s : State) (id : Nat) (f : Team → Team) : (updTeam s id f).ctxs = s.ctxs := rfl
@[simp] theorem updTeam_hwslots (s : State) (id : Nat) (f : Team → Team) : (updTeam s id f).hwslots = s.hwslots := rfl
@[simp] theorem updTeam_pkts (s : State) (id : Nat) (f : Team → Team) : (updTeam s id f).pkts = s.pkts := rfl
@[simp] theorem updTeam_qclk (s : State) (id : Nat) (f : Team → Team) : (updTeam s id f).qclk = s.qclk := rfl
@[simp] theorem updTeam_launches (s : State) (id : Nat) (f : Team → Team) : (updTeam s id f).launches = s.launches := rfl
@[simp] theorem updTeam_nextHandle (s : State) (id : Nat) (f : Team → Team) : (updTeam s id f).nextHandle = s.nextHandle := rfl
@[simp] theorem updTeam_pawns (s : State) (id : Nat) (f : Team → Team) : (updTeam s id f).pawns = s.pawns := rfl
@[simp] theorem updTeam_fetchws (s : State) (id : Nat) (f : Team → Team) : (updTeam s id f).fetchws = s.fetchws := rfl
@[simp] theorem updTeam_jobs (s : State) (id : Nat) (f : Team → Team) : (updTeam s id f).jobs = s.jobs := rfl
@[simp] theorem updTeam_jobGen (s : State) (id : Nat) (f : Team → Team) : (updTeam s id f).jobGen = s.jobGen := rfl
@[simp] theorem updTeam_streams (s : State) (id : Nat) (f : Team → Team) : (updTeam s id f).streams = s.streams := rfl
@[simp] theorem updTeam_pools (s : State) (id : Nat) (f : Team → Team) : (updTeam s id f).pools = s.pools := rfl
@[simp] theorem updTeam_regs (s : State) (id : Nat) (f : Team → Team) : (updTeam s id f).regs = s.regs := rfl
@[simp] theorem updTeam_ports (s : State) (id : Nat) (f : Team → Team) : (updTeam s id f).ports = s.ports := rfl
@[simp] theorem updTeam_cxl (s : State) (id : Nat) (f : Team → Team) : (updTeam s id f).cxl = s.cxl := rfl
@[simp] theorem updTeam_xacts (s : State) (id : Nat) (f : Team → Team) : (updTeam s id f).xacts = s.xacts := rfl
@[simp] theorem updTeam_posted (s : State) (id : Nat) (f : Team → Team) : (updTeam s id f).posted = s.posted := rfl
@[simp] theorem updTeam_irqs (s : State) (id : Nat) (f : Team → Team) : (updTeam s id f).irqs = s.irqs := rfl
@[simp] theorem updTeam_epoch (s : State) (id : Nat) (f : Team → Team) : (updTeam s id f).epoch = s.epoch := rfl
@[simp] theorem updTeam_flash (s : State) (id : Nat) (f : Team → Team) : (updTeam s id f).flash = s.flash := rfl
@[simp] theorem updTeam_rollmin (s : State) (id : Nat) (f : Team → Team) : (updTeam s id f).rollmin = s.rollmin := rfl
@[simp] theorem updTeam_tripped (s : State) (id : Nat) (f : Team → Team) : (updTeam s id f).tripped = s.tripped := rfl
@[simp] theorem updTeam_bootB (s : State) (id : Nat) (f : Team → Team) : (updTeam s id f).bootB = s.bootB := rfl
@[simp] theorem updTeam_staging (s : State) (id : Nat) (f : Team → Team) : (updTeam s id f).staging = s.staging := rfl
@[simp] theorem updTeam_rstat (s : State) (id : Nat) (f : Team → Team) : (updTeam s id f).rstat = s.rstat := rfl
@[simp] theorem updTeam_rcmd (s : State) (id : Nat) (f : Team → Team) : (updTeam s id f).rcmd = s.rcmd := rfl
@[simp] theorem updTeam_rtimer (s : State) (id : Nat) (f : Team → Team) : (updTeam s id f).rtimer = s.rtimer := rfl
@[simp] theorem updTeam_rnonce (s : State) (id : Nat) (f : Team → Team) : (updTeam s id f).rnonce = s.rnonce := rfl

/-! ## `updLaunch` -/

@[simp] theorem updLaunch_mode (s : State) (lh : W32) (f : Launch → Launch) : (updLaunch s lh f).mode = s.mode := rfl
@[simp] theorem updLaunch_turn (s : State) (lh : W32) (f : Launch → Launch) : (updLaunch s lh f).turn = s.turn := rfl
@[simp] theorem updLaunch_free (s : State) (lh : W32) (f : Launch → Launch) : (updLaunch s lh f).free = s.free := rfl
@[simp] theorem updLaunch_clock (s : State) (lh : W32) (f : Launch → Launch) : (updLaunch s lh f).clock = s.clock := rfl
@[simp] theorem updLaunch_clks (s : State) (lh : W32) (f : Launch → Launch) : (updLaunch s lh f).clks = s.clks := rfl
@[simp] theorem updLaunch_cur (s : State) (lh : W32) (f : Launch → Launch) : (updLaunch s lh f).cur = s.cur := rfl
@[simp] theorem updLaunch_arg (s : State) (lh : W32) (f : Launch → Launch) : (updLaunch s lh f).arg = s.arg := rfl
@[simp] theorem updLaunch_agenda (s : State) (lh : W32) (f : Launch → Launch) : (updLaunch s lh f).agenda = s.agenda := rfl
@[simp] theorem updLaunch_out (s : State) (lh : W32) (f : Launch → Launch) : (updLaunch s lh f).out = s.out := rfl
@[simp] theorem updLaunch_nextId (s : State) (lh : W32) (f : Launch → Launch) : (updLaunch s lh f).nextId = s.nextId := rfl
@[simp] theorem updLaunch_groups (s : State) (lh : W32) (f : Launch → Launch) : (updLaunch s lh f).groups = s.groups := rfl
@[simp] theorem updLaunch_scr (s : State) (lh : W32) (f : Launch → Launch) : (updLaunch s lh f).scr = s.scr := rfl
@[simp] theorem updLaunch_ptab (s : State) (lh : W32) (f : Launch → Launch) : (updLaunch s lh f).ptab = s.ptab := rfl
@[simp] theorem updLaunch_ptLock (s : State) (lh : W32) (f : Launch → Launch) : (updLaunch s lh f).ptLock = s.ptLock := rfl
@[simp] theorem updLaunch_stamps (s : State) (lh : W32) (f : Launch → Launch) : (updLaunch s lh f).stamps = s.stamps := rfl
@[simp] theorem updLaunch_rels (s : State) (lh : W32) (f : Launch → Launch) : (updLaunch s lh f).rels = s.rels := rfl
@[simp] theorem updLaunch_phases (s : State) (lh : W32) (f : Launch → Launch) : (updLaunch s lh f).phases = s.phases := rfl
@[simp] theorem updLaunch_ibuf (s : State) (lh : W32) (f : Launch → Launch) : (updLaunch s lh f).ibuf = s.ibuf := rfl
@[simp] theorem updLaunch_arrays (s : State) (lh : W32) (f : Launch → Launch) : (updLaunch s lh f).arrays = s.arrays := rfl
@[simp] theorem updLaunch_mbx (s : State) (lh : W32) (f : Launch → Launch) : (updLaunch s lh f).mbx = s.mbx := rfl
@[simp] theorem updLaunch_reqSeq (s : State) (lh : W32) (f : Launch → Launch) : (updLaunch s lh f).reqSeq = s.reqSeq := rfl
@[simp] theorem updLaunch_tlb (s : State) (lh : W32) (f : Launch → Launch) : (updLaunch s lh f).tlb = s.tlb := rfl
@[simp] theorem updLaunch_mem (s : State) (lh : W32) (f : Launch → Launch) : (updLaunch s lh f).mem = s.mem := rfl
@[simp] theorem updLaunch_undef (s : State) (lh : W32) (f : Launch → Launch) : (updLaunch s lh f).undef = s.undef := rfl
@[simp] theorem updLaunch_bad (s : State) (lh : W32) (f : Launch → Launch) : (updLaunch s lh f).bad = s.bad := rfl
@[simp] theorem updLaunch_lineDom (s : State) (lh : W32) (f : Launch → Launch) : (updLaunch s lh f).lineDom = s.lineDom := rfl
@[simp] theorem updLaunch_unitDom (s : State) (lh : W32) (f : Launch → Launch) : (updLaunch s lh f).unitDom = s.unitDom := rfl
@[simp] theorem updLaunch_rows (s : State) (lh : W32) (f : Launch → Launch) : (updLaunch s lh f).rows = s.rows := rfl
@[simp] theorem updLaunch_stEpoch (s : State) (lh : W32) (f : Launch → Launch) : (updLaunch s lh f).stEpoch = s.stEpoch := rfl
@[simp] theorem updLaunch_rowJobs (s : State) (lh : W32) (f : Launch → Launch) : (updLaunch s lh f).rowJobs = s.rowJobs := rfl
@[simp] theorem updLaunch_parts (s : State) (lh : W32) (f : Launch → Launch) : (updLaunch s lh f).parts = s.parts := rfl
@[simp] theorem updLaunch_ctxs (s : State) (lh : W32) (f : Launch → Launch) : (updLaunch s lh f).ctxs = s.ctxs := rfl
@[simp] theorem updLaunch_hwslots (s : State) (lh : W32) (f : Launch → Launch) : (updLaunch s lh f).hwslots = s.hwslots := rfl
@[simp] theorem updLaunch_pkts (s : State) (lh : W32) (f : Launch → Launch) : (updLaunch s lh f).pkts = s.pkts := rfl
@[simp] theorem updLaunch_qclk (s : State) (lh : W32) (f : Launch → Launch) : (updLaunch s lh f).qclk = s.qclk := rfl
@[simp] theorem updLaunch_nextHandle (s : State) (lh : W32) (f : Launch → Launch) : (updLaunch s lh f).nextHandle = s.nextHandle := rfl
@[simp] theorem updLaunch_teams (s : State) (lh : W32) (f : Launch → Launch) : (updLaunch s lh f).teams = s.teams := rfl
@[simp] theorem updLaunch_pawns (s : State) (lh : W32) (f : Launch → Launch) : (updLaunch s lh f).pawns = s.pawns := rfl
@[simp] theorem updLaunch_fetchws (s : State) (lh : W32) (f : Launch → Launch) : (updLaunch s lh f).fetchws = s.fetchws := rfl
@[simp] theorem updLaunch_jobs (s : State) (lh : W32) (f : Launch → Launch) : (updLaunch s lh f).jobs = s.jobs := rfl
@[simp] theorem updLaunch_jobGen (s : State) (lh : W32) (f : Launch → Launch) : (updLaunch s lh f).jobGen = s.jobGen := rfl
@[simp] theorem updLaunch_streams (s : State) (lh : W32) (f : Launch → Launch) : (updLaunch s lh f).streams = s.streams := rfl
@[simp] theorem updLaunch_pools (s : State) (lh : W32) (f : Launch → Launch) : (updLaunch s lh f).pools = s.pools := rfl
@[simp] theorem updLaunch_regs (s : State) (lh : W32) (f : Launch → Launch) : (updLaunch s lh f).regs = s.regs := rfl
@[simp] theorem updLaunch_ports (s : State) (lh : W32) (f : Launch → Launch) : (updLaunch s lh f).ports = s.ports := rfl
@[simp] theorem updLaunch_cxl (s : State) (lh : W32) (f : Launch → Launch) : (updLaunch s lh f).cxl = s.cxl := rfl
@[simp] theorem updLaunch_xacts (s : State) (lh : W32) (f : Launch → Launch) : (updLaunch s lh f).xacts = s.xacts := rfl
@[simp] theorem updLaunch_posted (s : State) (lh : W32) (f : Launch → Launch) : (updLaunch s lh f).posted = s.posted := rfl
@[simp] theorem updLaunch_irqs (s : State) (lh : W32) (f : Launch → Launch) : (updLaunch s lh f).irqs = s.irqs := rfl
@[simp] theorem updLaunch_epoch (s : State) (lh : W32) (f : Launch → Launch) : (updLaunch s lh f).epoch = s.epoch := rfl
@[simp] theorem updLaunch_flash (s : State) (lh : W32) (f : Launch → Launch) : (updLaunch s lh f).flash = s.flash := rfl
@[simp] theorem updLaunch_rollmin (s : State) (lh : W32) (f : Launch → Launch) : (updLaunch s lh f).rollmin = s.rollmin := rfl
@[simp] theorem updLaunch_tripped (s : State) (lh : W32) (f : Launch → Launch) : (updLaunch s lh f).tripped = s.tripped := rfl
@[simp] theorem updLaunch_bootB (s : State) (lh : W32) (f : Launch → Launch) : (updLaunch s lh f).bootB = s.bootB := rfl
@[simp] theorem updLaunch_staging (s : State) (lh : W32) (f : Launch → Launch) : (updLaunch s lh f).staging = s.staging := rfl
@[simp] theorem updLaunch_rstat (s : State) (lh : W32) (f : Launch → Launch) : (updLaunch s lh f).rstat = s.rstat := rfl
@[simp] theorem updLaunch_rcmd (s : State) (lh : W32) (f : Launch → Launch) : (updLaunch s lh f).rcmd = s.rcmd := rfl
@[simp] theorem updLaunch_rtimer (s : State) (lh : W32) (f : Launch → Launch) : (updLaunch s lh f).rtimer = s.rtimer := rfl
@[simp] theorem updLaunch_rnonce (s : State) (lh : W32) (f : Launch → Launch) : (updLaunch s lh f).rnonce = s.rnonce := rfl

/-! ## `updStream` -/

@[simp] theorem updStream_mode (s : State) (lh : W32) (f : Stream → Stream) : (updStream s lh f).mode = s.mode := rfl
@[simp] theorem updStream_turn (s : State) (lh : W32) (f : Stream → Stream) : (updStream s lh f).turn = s.turn := rfl
@[simp] theorem updStream_free (s : State) (lh : W32) (f : Stream → Stream) : (updStream s lh f).free = s.free := rfl
@[simp] theorem updStream_clock (s : State) (lh : W32) (f : Stream → Stream) : (updStream s lh f).clock = s.clock := rfl
@[simp] theorem updStream_clks (s : State) (lh : W32) (f : Stream → Stream) : (updStream s lh f).clks = s.clks := rfl
@[simp] theorem updStream_cur (s : State) (lh : W32) (f : Stream → Stream) : (updStream s lh f).cur = s.cur := rfl
@[simp] theorem updStream_arg (s : State) (lh : W32) (f : Stream → Stream) : (updStream s lh f).arg = s.arg := rfl
@[simp] theorem updStream_agenda (s : State) (lh : W32) (f : Stream → Stream) : (updStream s lh f).agenda = s.agenda := rfl
@[simp] theorem updStream_out (s : State) (lh : W32) (f : Stream → Stream) : (updStream s lh f).out = s.out := rfl
@[simp] theorem updStream_nextId (s : State) (lh : W32) (f : Stream → Stream) : (updStream s lh f).nextId = s.nextId := rfl
@[simp] theorem updStream_groups (s : State) (lh : W32) (f : Stream → Stream) : (updStream s lh f).groups = s.groups := rfl
@[simp] theorem updStream_scr (s : State) (lh : W32) (f : Stream → Stream) : (updStream s lh f).scr = s.scr := rfl
@[simp] theorem updStream_ptab (s : State) (lh : W32) (f : Stream → Stream) : (updStream s lh f).ptab = s.ptab := rfl
@[simp] theorem updStream_ptLock (s : State) (lh : W32) (f : Stream → Stream) : (updStream s lh f).ptLock = s.ptLock := rfl
@[simp] theorem updStream_stamps (s : State) (lh : W32) (f : Stream → Stream) : (updStream s lh f).stamps = s.stamps := rfl
@[simp] theorem updStream_rels (s : State) (lh : W32) (f : Stream → Stream) : (updStream s lh f).rels = s.rels := rfl
@[simp] theorem updStream_phases (s : State) (lh : W32) (f : Stream → Stream) : (updStream s lh f).phases = s.phases := rfl
@[simp] theorem updStream_ibuf (s : State) (lh : W32) (f : Stream → Stream) : (updStream s lh f).ibuf = s.ibuf := rfl
@[simp] theorem updStream_arrays (s : State) (lh : W32) (f : Stream → Stream) : (updStream s lh f).arrays = s.arrays := rfl
@[simp] theorem updStream_mbx (s : State) (lh : W32) (f : Stream → Stream) : (updStream s lh f).mbx = s.mbx := rfl
@[simp] theorem updStream_reqSeq (s : State) (lh : W32) (f : Stream → Stream) : (updStream s lh f).reqSeq = s.reqSeq := rfl
@[simp] theorem updStream_tlb (s : State) (lh : W32) (f : Stream → Stream) : (updStream s lh f).tlb = s.tlb := rfl
@[simp] theorem updStream_mem (s : State) (lh : W32) (f : Stream → Stream) : (updStream s lh f).mem = s.mem := rfl
@[simp] theorem updStream_undef (s : State) (lh : W32) (f : Stream → Stream) : (updStream s lh f).undef = s.undef := rfl
@[simp] theorem updStream_bad (s : State) (lh : W32) (f : Stream → Stream) : (updStream s lh f).bad = s.bad := rfl
@[simp] theorem updStream_lineDom (s : State) (lh : W32) (f : Stream → Stream) : (updStream s lh f).lineDom = s.lineDom := rfl
@[simp] theorem updStream_unitDom (s : State) (lh : W32) (f : Stream → Stream) : (updStream s lh f).unitDom = s.unitDom := rfl
@[simp] theorem updStream_rows (s : State) (lh : W32) (f : Stream → Stream) : (updStream s lh f).rows = s.rows := rfl
@[simp] theorem updStream_stEpoch (s : State) (lh : W32) (f : Stream → Stream) : (updStream s lh f).stEpoch = s.stEpoch := rfl
@[simp] theorem updStream_rowJobs (s : State) (lh : W32) (f : Stream → Stream) : (updStream s lh f).rowJobs = s.rowJobs := rfl
@[simp] theorem updStream_parts (s : State) (lh : W32) (f : Stream → Stream) : (updStream s lh f).parts = s.parts := rfl
@[simp] theorem updStream_ctxs (s : State) (lh : W32) (f : Stream → Stream) : (updStream s lh f).ctxs = s.ctxs := rfl
@[simp] theorem updStream_hwslots (s : State) (lh : W32) (f : Stream → Stream) : (updStream s lh f).hwslots = s.hwslots := rfl
@[simp] theorem updStream_pkts (s : State) (lh : W32) (f : Stream → Stream) : (updStream s lh f).pkts = s.pkts := rfl
@[simp] theorem updStream_qclk (s : State) (lh : W32) (f : Stream → Stream) : (updStream s lh f).qclk = s.qclk := rfl
@[simp] theorem updStream_launches (s : State) (lh : W32) (f : Stream → Stream) : (updStream s lh f).launches = s.launches := rfl
@[simp] theorem updStream_nextHandle (s : State) (lh : W32) (f : Stream → Stream) : (updStream s lh f).nextHandle = s.nextHandle := rfl
@[simp] theorem updStream_teams (s : State) (lh : W32) (f : Stream → Stream) : (updStream s lh f).teams = s.teams := rfl
@[simp] theorem updStream_pawns (s : State) (lh : W32) (f : Stream → Stream) : (updStream s lh f).pawns = s.pawns := rfl
@[simp] theorem updStream_fetchws (s : State) (lh : W32) (f : Stream → Stream) : (updStream s lh f).fetchws = s.fetchws := rfl
@[simp] theorem updStream_jobs (s : State) (lh : W32) (f : Stream → Stream) : (updStream s lh f).jobs = s.jobs := rfl
@[simp] theorem updStream_jobGen (s : State) (lh : W32) (f : Stream → Stream) : (updStream s lh f).jobGen = s.jobGen := rfl
@[simp] theorem updStream_pools (s : State) (lh : W32) (f : Stream → Stream) : (updStream s lh f).pools = s.pools := rfl
@[simp] theorem updStream_regs (s : State) (lh : W32) (f : Stream → Stream) : (updStream s lh f).regs = s.regs := rfl
@[simp] theorem updStream_ports (s : State) (lh : W32) (f : Stream → Stream) : (updStream s lh f).ports = s.ports := rfl
@[simp] theorem updStream_cxl (s : State) (lh : W32) (f : Stream → Stream) : (updStream s lh f).cxl = s.cxl := rfl
@[simp] theorem updStream_xacts (s : State) (lh : W32) (f : Stream → Stream) : (updStream s lh f).xacts = s.xacts := rfl
@[simp] theorem updStream_posted (s : State) (lh : W32) (f : Stream → Stream) : (updStream s lh f).posted = s.posted := rfl
@[simp] theorem updStream_irqs (s : State) (lh : W32) (f : Stream → Stream) : (updStream s lh f).irqs = s.irqs := rfl
@[simp] theorem updStream_epoch (s : State) (lh : W32) (f : Stream → Stream) : (updStream s lh f).epoch = s.epoch := rfl
@[simp] theorem updStream_flash (s : State) (lh : W32) (f : Stream → Stream) : (updStream s lh f).flash = s.flash := rfl
@[simp] theorem updStream_rollmin (s : State) (lh : W32) (f : Stream → Stream) : (updStream s lh f).rollmin = s.rollmin := rfl
@[simp] theorem updStream_tripped (s : State) (lh : W32) (f : Stream → Stream) : (updStream s lh f).tripped = s.tripped := rfl
@[simp] theorem updStream_bootB (s : State) (lh : W32) (f : Stream → Stream) : (updStream s lh f).bootB = s.bootB := rfl
@[simp] theorem updStream_staging (s : State) (lh : W32) (f : Stream → Stream) : (updStream s lh f).staging = s.staging := rfl
@[simp] theorem updStream_rstat (s : State) (lh : W32) (f : Stream → Stream) : (updStream s lh f).rstat = s.rstat := rfl
@[simp] theorem updStream_rcmd (s : State) (lh : W32) (f : Stream → Stream) : (updStream s lh f).rcmd = s.rcmd := rfl
@[simp] theorem updStream_rtimer (s : State) (lh : W32) (f : Stream → Stream) : (updStream s lh f).rtimer = s.rtimer := rfl
@[simp] theorem updStream_rnonce (s : State) (lh : W32) (f : Stream → Stream) : (updStream s lh f).rnonce = s.rnonce := rfl

/-! ## `putJob` -/

@[simp] theorem putJob_mode (s : State) (j : Job) : (putJob s j).mode = s.mode := rfl
@[simp] theorem putJob_turn (s : State) (j : Job) : (putJob s j).turn = s.turn := rfl
@[simp] theorem putJob_free (s : State) (j : Job) : (putJob s j).free = s.free := rfl
@[simp] theorem putJob_clock (s : State) (j : Job) : (putJob s j).clock = s.clock := rfl
@[simp] theorem putJob_clks (s : State) (j : Job) : (putJob s j).clks = s.clks := rfl
@[simp] theorem putJob_cur (s : State) (j : Job) : (putJob s j).cur = s.cur := rfl
@[simp] theorem putJob_arg (s : State) (j : Job) : (putJob s j).arg = s.arg := rfl
@[simp] theorem putJob_agenda (s : State) (j : Job) : (putJob s j).agenda = s.agenda := rfl
@[simp] theorem putJob_out (s : State) (j : Job) : (putJob s j).out = s.out := rfl
@[simp] theorem putJob_nextId (s : State) (j : Job) : (putJob s j).nextId = s.nextId := rfl
@[simp] theorem putJob_groups (s : State) (j : Job) : (putJob s j).groups = s.groups := rfl
@[simp] theorem putJob_scr (s : State) (j : Job) : (putJob s j).scr = s.scr := rfl
@[simp] theorem putJob_ptab (s : State) (j : Job) : (putJob s j).ptab = s.ptab := rfl
@[simp] theorem putJob_ptLock (s : State) (j : Job) : (putJob s j).ptLock = s.ptLock := rfl
@[simp] theorem putJob_stamps (s : State) (j : Job) : (putJob s j).stamps = s.stamps := rfl
@[simp] theorem putJob_rels (s : State) (j : Job) : (putJob s j).rels = s.rels := rfl
@[simp] theorem putJob_phases (s : State) (j : Job) : (putJob s j).phases = s.phases := rfl
@[simp] theorem putJob_ibuf (s : State) (j : Job) : (putJob s j).ibuf = s.ibuf := rfl
@[simp] theorem putJob_arrays (s : State) (j : Job) : (putJob s j).arrays = s.arrays := rfl
@[simp] theorem putJob_mbx (s : State) (j : Job) : (putJob s j).mbx = s.mbx := rfl
@[simp] theorem putJob_reqSeq (s : State) (j : Job) : (putJob s j).reqSeq = s.reqSeq := rfl
@[simp] theorem putJob_tlb (s : State) (j : Job) : (putJob s j).tlb = s.tlb := rfl
@[simp] theorem putJob_mem (s : State) (j : Job) : (putJob s j).mem = s.mem := rfl
@[simp] theorem putJob_undef (s : State) (j : Job) : (putJob s j).undef = s.undef := rfl
@[simp] theorem putJob_bad (s : State) (j : Job) : (putJob s j).bad = s.bad := rfl
@[simp] theorem putJob_lineDom (s : State) (j : Job) : (putJob s j).lineDom = s.lineDom := rfl
@[simp] theorem putJob_unitDom (s : State) (j : Job) : (putJob s j).unitDom = s.unitDom := rfl
@[simp] theorem putJob_rows (s : State) (j : Job) : (putJob s j).rows = s.rows := rfl
@[simp] theorem putJob_stEpoch (s : State) (j : Job) : (putJob s j).stEpoch = s.stEpoch := rfl
@[simp] theorem putJob_rowJobs (s : State) (j : Job) : (putJob s j).rowJobs = s.rowJobs := rfl
@[simp] theorem putJob_parts (s : State) (j : Job) : (putJob s j).parts = s.parts := rfl
@[simp] theorem putJob_ctxs (s : State) (j : Job) : (putJob s j).ctxs = s.ctxs := rfl
@[simp] theorem putJob_hwslots (s : State) (j : Job) : (putJob s j).hwslots = s.hwslots := rfl
@[simp] theorem putJob_pkts (s : State) (j : Job) : (putJob s j).pkts = s.pkts := rfl
@[simp] theorem putJob_qclk (s : State) (j : Job) : (putJob s j).qclk = s.qclk := rfl
@[simp] theorem putJob_launches (s : State) (j : Job) : (putJob s j).launches = s.launches := rfl
@[simp] theorem putJob_nextHandle (s : State) (j : Job) : (putJob s j).nextHandle = s.nextHandle := rfl
@[simp] theorem putJob_teams (s : State) (j : Job) : (putJob s j).teams = s.teams := rfl
@[simp] theorem putJob_pawns (s : State) (j : Job) : (putJob s j).pawns = s.pawns := rfl
@[simp] theorem putJob_fetchws (s : State) (j : Job) : (putJob s j).fetchws = s.fetchws := rfl
@[simp] theorem putJob_jobGen (s : State) (j : Job) : (putJob s j).jobGen = s.jobGen := rfl
@[simp] theorem putJob_streams (s : State) (j : Job) : (putJob s j).streams = s.streams := rfl
@[simp] theorem putJob_pools (s : State) (j : Job) : (putJob s j).pools = s.pools := rfl
@[simp] theorem putJob_regs (s : State) (j : Job) : (putJob s j).regs = s.regs := rfl
@[simp] theorem putJob_ports (s : State) (j : Job) : (putJob s j).ports = s.ports := rfl
@[simp] theorem putJob_cxl (s : State) (j : Job) : (putJob s j).cxl = s.cxl := rfl
@[simp] theorem putJob_xacts (s : State) (j : Job) : (putJob s j).xacts = s.xacts := rfl
@[simp] theorem putJob_posted (s : State) (j : Job) : (putJob s j).posted = s.posted := rfl
@[simp] theorem putJob_irqs (s : State) (j : Job) : (putJob s j).irqs = s.irqs := rfl
@[simp] theorem putJob_epoch (s : State) (j : Job) : (putJob s j).epoch = s.epoch := rfl
@[simp] theorem putJob_flash (s : State) (j : Job) : (putJob s j).flash = s.flash := rfl
@[simp] theorem putJob_rollmin (s : State) (j : Job) : (putJob s j).rollmin = s.rollmin := rfl
@[simp] theorem putJob_tripped (s : State) (j : Job) : (putJob s j).tripped = s.tripped := rfl
@[simp] theorem putJob_bootB (s : State) (j : Job) : (putJob s j).bootB = s.bootB := rfl
@[simp] theorem putJob_staging (s : State) (j : Job) : (putJob s j).staging = s.staging := rfl
@[simp] theorem putJob_rstat (s : State) (j : Job) : (putJob s j).rstat = s.rstat := rfl
@[simp] theorem putJob_rcmd (s : State) (j : Job) : (putJob s j).rcmd = s.rcmd := rfl
@[simp] theorem putJob_rtimer (s : State) (j : Job) : (putJob s j).rtimer = s.rtimer := rfl
@[simp] theorem putJob_rnonce (s : State) (j : Job) : (putJob s j).rnonce = s.rnonce := rfl

/-! ## `regPut` -/

@[simp] theorem regPut_mode (s : State) (a : Nat) (v : W64) : (regPut s a v).mode = s.mode := rfl
@[simp] theorem regPut_turn (s : State) (a : Nat) (v : W64) : (regPut s a v).turn = s.turn := rfl
@[simp] theorem regPut_free (s : State) (a : Nat) (v : W64) : (regPut s a v).free = s.free := rfl
@[simp] theorem regPut_clock (s : State) (a : Nat) (v : W64) : (regPut s a v).clock = s.clock := rfl
@[simp] theorem regPut_clks (s : State) (a : Nat) (v : W64) : (regPut s a v).clks = s.clks := rfl
@[simp] theorem regPut_cur (s : State) (a : Nat) (v : W64) : (regPut s a v).cur = s.cur := rfl
@[simp] theorem regPut_arg (s : State) (a : Nat) (v : W64) : (regPut s a v).arg = s.arg := rfl
@[simp] theorem regPut_agenda (s : State) (a : Nat) (v : W64) : (regPut s a v).agenda = s.agenda := rfl
@[simp] theorem regPut_out (s : State) (a : Nat) (v : W64) : (regPut s a v).out = s.out := rfl
@[simp] theorem regPut_nextId (s : State) (a : Nat) (v : W64) : (regPut s a v).nextId = s.nextId := rfl
@[simp] theorem regPut_groups (s : State) (a : Nat) (v : W64) : (regPut s a v).groups = s.groups := rfl
@[simp] theorem regPut_scr (s : State) (a : Nat) (v : W64) : (regPut s a v).scr = s.scr := rfl
@[simp] theorem regPut_ptab (s : State) (a : Nat) (v : W64) : (regPut s a v).ptab = s.ptab := rfl
@[simp] theorem regPut_ptLock (s : State) (a : Nat) (v : W64) : (regPut s a v).ptLock = s.ptLock := rfl
@[simp] theorem regPut_stamps (s : State) (a : Nat) (v : W64) : (regPut s a v).stamps = s.stamps := rfl
@[simp] theorem regPut_rels (s : State) (a : Nat) (v : W64) : (regPut s a v).rels = s.rels := rfl
@[simp] theorem regPut_phases (s : State) (a : Nat) (v : W64) : (regPut s a v).phases = s.phases := rfl
@[simp] theorem regPut_ibuf (s : State) (a : Nat) (v : W64) : (regPut s a v).ibuf = s.ibuf := rfl
@[simp] theorem regPut_arrays (s : State) (a : Nat) (v : W64) : (regPut s a v).arrays = s.arrays := rfl
@[simp] theorem regPut_mbx (s : State) (a : Nat) (v : W64) : (regPut s a v).mbx = s.mbx := rfl
@[simp] theorem regPut_reqSeq (s : State) (a : Nat) (v : W64) : (regPut s a v).reqSeq = s.reqSeq := rfl
@[simp] theorem regPut_tlb (s : State) (a : Nat) (v : W64) : (regPut s a v).tlb = s.tlb := rfl
@[simp] theorem regPut_mem (s : State) (a : Nat) (v : W64) : (regPut s a v).mem = s.mem := rfl
@[simp] theorem regPut_undef (s : State) (a : Nat) (v : W64) : (regPut s a v).undef = s.undef := rfl
@[simp] theorem regPut_bad (s : State) (a : Nat) (v : W64) : (regPut s a v).bad = s.bad := rfl
@[simp] theorem regPut_lineDom (s : State) (a : Nat) (v : W64) : (regPut s a v).lineDom = s.lineDom := rfl
@[simp] theorem regPut_unitDom (s : State) (a : Nat) (v : W64) : (regPut s a v).unitDom = s.unitDom := rfl
@[simp] theorem regPut_rows (s : State) (a : Nat) (v : W64) : (regPut s a v).rows = s.rows := rfl
@[simp] theorem regPut_stEpoch (s : State) (a : Nat) (v : W64) : (regPut s a v).stEpoch = s.stEpoch := rfl
@[simp] theorem regPut_rowJobs (s : State) (a : Nat) (v : W64) : (regPut s a v).rowJobs = s.rowJobs := rfl
@[simp] theorem regPut_parts (s : State) (a : Nat) (v : W64) : (regPut s a v).parts = s.parts := rfl
@[simp] theorem regPut_ctxs (s : State) (a : Nat) (v : W64) : (regPut s a v).ctxs = s.ctxs := rfl
@[simp] theorem regPut_hwslots (s : State) (a : Nat) (v : W64) : (regPut s a v).hwslots = s.hwslots := rfl
@[simp] theorem regPut_pkts (s : State) (a : Nat) (v : W64) : (regPut s a v).pkts = s.pkts := rfl
@[simp] theorem regPut_qclk (s : State) (a : Nat) (v : W64) : (regPut s a v).qclk = s.qclk := rfl
@[simp] theorem regPut_launches (s : State) (a : Nat) (v : W64) : (regPut s a v).launches = s.launches := rfl
@[simp] theorem regPut_nextHandle (s : State) (a : Nat) (v : W64) : (regPut s a v).nextHandle = s.nextHandle := rfl
@[simp] theorem regPut_teams (s : State) (a : Nat) (v : W64) : (regPut s a v).teams = s.teams := rfl
@[simp] theorem regPut_pawns (s : State) (a : Nat) (v : W64) : (regPut s a v).pawns = s.pawns := rfl
@[simp] theorem regPut_fetchws (s : State) (a : Nat) (v : W64) : (regPut s a v).fetchws = s.fetchws := rfl
@[simp] theorem regPut_jobs (s : State) (a : Nat) (v : W64) : (regPut s a v).jobs = s.jobs := rfl
@[simp] theorem regPut_jobGen (s : State) (a : Nat) (v : W64) : (regPut s a v).jobGen = s.jobGen := rfl
@[simp] theorem regPut_streams (s : State) (a : Nat) (v : W64) : (regPut s a v).streams = s.streams := rfl
@[simp] theorem regPut_pools (s : State) (a : Nat) (v : W64) : (regPut s a v).pools = s.pools := rfl
@[simp] theorem regPut_ports (s : State) (a : Nat) (v : W64) : (regPut s a v).ports = s.ports := rfl
@[simp] theorem regPut_cxl (s : State) (a : Nat) (v : W64) : (regPut s a v).cxl = s.cxl := rfl
@[simp] theorem regPut_xacts (s : State) (a : Nat) (v : W64) : (regPut s a v).xacts = s.xacts := rfl
@[simp] theorem regPut_posted (s : State) (a : Nat) (v : W64) : (regPut s a v).posted = s.posted := rfl
@[simp] theorem regPut_irqs (s : State) (a : Nat) (v : W64) : (regPut s a v).irqs = s.irqs := rfl
@[simp] theorem regPut_epoch (s : State) (a : Nat) (v : W64) : (regPut s a v).epoch = s.epoch := rfl
@[simp] theorem regPut_flash (s : State) (a : Nat) (v : W64) : (regPut s a v).flash = s.flash := rfl
@[simp] theorem regPut_rollmin (s : State) (a : Nat) (v : W64) : (regPut s a v).rollmin = s.rollmin := rfl
@[simp] theorem regPut_tripped (s : State) (a : Nat) (v : W64) : (regPut s a v).tripped = s.tripped := rfl
@[simp] theorem regPut_bootB (s : State) (a : Nat) (v : W64) : (regPut s a v).bootB = s.bootB := rfl
@[simp] theorem regPut_staging (s : State) (a : Nat) (v : W64) : (regPut s a v).staging = s.staging := rfl
@[simp] theorem regPut_rstat (s : State) (a : Nat) (v : W64) : (regPut s a v).rstat = s.rstat := rfl
@[simp] theorem regPut_rcmd (s : State) (a : Nat) (v : W64) : (regPut s a v).rcmd = s.rcmd := rfl
@[simp] theorem regPut_rtimer (s : State) (a : Nat) (v : W64) : (regPut s a v).rtimer = s.rtimer := rfl
@[simp] theorem regPut_rnonce (s : State) (a : Nat) (v : W64) : (regPut s a v).rnonce = s.rnonce := rfl

/-! ## `rowPut` -/

@[simp] theorem rowPut_mode (s : State) (k : Nat) (r : RowSlot) : (rowPut s k r).mode = s.mode := rfl
@[simp] theorem rowPut_turn (s : State) (k : Nat) (r : RowSlot) : (rowPut s k r).turn = s.turn := rfl
@[simp] theorem rowPut_free (s : State) (k : Nat) (r : RowSlot) : (rowPut s k r).free = s.free := rfl
@[simp] theorem rowPut_clock (s : State) (k : Nat) (r : RowSlot) : (rowPut s k r).clock = s.clock := rfl
@[simp] theorem rowPut_clks (s : State) (k : Nat) (r : RowSlot) : (rowPut s k r).clks = s.clks := rfl
@[simp] theorem rowPut_cur (s : State) (k : Nat) (r : RowSlot) : (rowPut s k r).cur = s.cur := rfl
@[simp] theorem rowPut_arg (s : State) (k : Nat) (r : RowSlot) : (rowPut s k r).arg = s.arg := rfl
@[simp] theorem rowPut_agenda (s : State) (k : Nat) (r : RowSlot) : (rowPut s k r).agenda = s.agenda := rfl
@[simp] theorem rowPut_out (s : State) (k : Nat) (r : RowSlot) : (rowPut s k r).out = s.out := rfl
@[simp] theorem rowPut_nextId (s : State) (k : Nat) (r : RowSlot) : (rowPut s k r).nextId = s.nextId := rfl
@[simp] theorem rowPut_groups (s : State) (k : Nat) (r : RowSlot) : (rowPut s k r).groups = s.groups := rfl
@[simp] theorem rowPut_scr (s : State) (k : Nat) (r : RowSlot) : (rowPut s k r).scr = s.scr := rfl
@[simp] theorem rowPut_ptab (s : State) (k : Nat) (r : RowSlot) : (rowPut s k r).ptab = s.ptab := rfl
@[simp] theorem rowPut_ptLock (s : State) (k : Nat) (r : RowSlot) : (rowPut s k r).ptLock = s.ptLock := rfl
@[simp] theorem rowPut_stamps (s : State) (k : Nat) (r : RowSlot) : (rowPut s k r).stamps = s.stamps := rfl
@[simp] theorem rowPut_rels (s : State) (k : Nat) (r : RowSlot) : (rowPut s k r).rels = s.rels := rfl
@[simp] theorem rowPut_phases (s : State) (k : Nat) (r : RowSlot) : (rowPut s k r).phases = s.phases := rfl
@[simp] theorem rowPut_ibuf (s : State) (k : Nat) (r : RowSlot) : (rowPut s k r).ibuf = s.ibuf := rfl
@[simp] theorem rowPut_arrays (s : State) (k : Nat) (r : RowSlot) : (rowPut s k r).arrays = s.arrays := rfl
@[simp] theorem rowPut_mbx (s : State) (k : Nat) (r : RowSlot) : (rowPut s k r).mbx = s.mbx := rfl
@[simp] theorem rowPut_reqSeq (s : State) (k : Nat) (r : RowSlot) : (rowPut s k r).reqSeq = s.reqSeq := rfl
@[simp] theorem rowPut_tlb (s : State) (k : Nat) (r : RowSlot) : (rowPut s k r).tlb = s.tlb := rfl
@[simp] theorem rowPut_mem (s : State) (k : Nat) (r : RowSlot) : (rowPut s k r).mem = s.mem := rfl
@[simp] theorem rowPut_undef (s : State) (k : Nat) (r : RowSlot) : (rowPut s k r).undef = s.undef := rfl
@[simp] theorem rowPut_bad (s : State) (k : Nat) (r : RowSlot) : (rowPut s k r).bad = s.bad := rfl
@[simp] theorem rowPut_lineDom (s : State) (k : Nat) (r : RowSlot) : (rowPut s k r).lineDom = s.lineDom := rfl
@[simp] theorem rowPut_unitDom (s : State) (k : Nat) (r : RowSlot) : (rowPut s k r).unitDom = s.unitDom := rfl
@[simp] theorem rowPut_stEpoch (s : State) (k : Nat) (r : RowSlot) : (rowPut s k r).stEpoch = s.stEpoch := rfl
@[simp] theorem rowPut_rowJobs (s : State) (k : Nat) (r : RowSlot) : (rowPut s k r).rowJobs = s.rowJobs := rfl
@[simp] theorem rowPut_parts (s : State) (k : Nat) (r : RowSlot) : (rowPut s k r).parts = s.parts := rfl
@[simp] theorem rowPut_ctxs (s : State) (k : Nat) (r : RowSlot) : (rowPut s k r).ctxs = s.ctxs := rfl
@[simp] theorem rowPut_hwslots (s : State) (k : Nat) (r : RowSlot) : (rowPut s k r).hwslots = s.hwslots := rfl
@[simp] theorem rowPut_pkts (s : State) (k : Nat) (r : RowSlot) : (rowPut s k r).pkts = s.pkts := rfl
@[simp] theorem rowPut_qclk (s : State) (k : Nat) (r : RowSlot) : (rowPut s k r).qclk = s.qclk := rfl
@[simp] theorem rowPut_launches (s : State) (k : Nat) (r : RowSlot) : (rowPut s k r).launches = s.launches := rfl
@[simp] theorem rowPut_nextHandle (s : State) (k : Nat) (r : RowSlot) : (rowPut s k r).nextHandle = s.nextHandle := rfl
@[simp] theorem rowPut_teams (s : State) (k : Nat) (r : RowSlot) : (rowPut s k r).teams = s.teams := rfl
@[simp] theorem rowPut_pawns (s : State) (k : Nat) (r : RowSlot) : (rowPut s k r).pawns = s.pawns := rfl
@[simp] theorem rowPut_fetchws (s : State) (k : Nat) (r : RowSlot) : (rowPut s k r).fetchws = s.fetchws := rfl
@[simp] theorem rowPut_jobs (s : State) (k : Nat) (r : RowSlot) : (rowPut s k r).jobs = s.jobs := rfl
@[simp] theorem rowPut_jobGen (s : State) (k : Nat) (r : RowSlot) : (rowPut s k r).jobGen = s.jobGen := rfl
@[simp] theorem rowPut_streams (s : State) (k : Nat) (r : RowSlot) : (rowPut s k r).streams = s.streams := rfl
@[simp] theorem rowPut_pools (s : State) (k : Nat) (r : RowSlot) : (rowPut s k r).pools = s.pools := rfl
@[simp] theorem rowPut_regs (s : State) (k : Nat) (r : RowSlot) : (rowPut s k r).regs = s.regs := rfl
@[simp] theorem rowPut_ports (s : State) (k : Nat) (r : RowSlot) : (rowPut s k r).ports = s.ports := rfl
@[simp] theorem rowPut_cxl (s : State) (k : Nat) (r : RowSlot) : (rowPut s k r).cxl = s.cxl := rfl
@[simp] theorem rowPut_xacts (s : State) (k : Nat) (r : RowSlot) : (rowPut s k r).xacts = s.xacts := rfl
@[simp] theorem rowPut_posted (s : State) (k : Nat) (r : RowSlot) : (rowPut s k r).posted = s.posted := rfl
@[simp] theorem rowPut_irqs (s : State) (k : Nat) (r : RowSlot) : (rowPut s k r).irqs = s.irqs := rfl
@[simp] theorem rowPut_epoch (s : State) (k : Nat) (r : RowSlot) : (rowPut s k r).epoch = s.epoch := rfl
@[simp] theorem rowPut_flash (s : State) (k : Nat) (r : RowSlot) : (rowPut s k r).flash = s.flash := rfl
@[simp] theorem rowPut_rollmin (s : State) (k : Nat) (r : RowSlot) : (rowPut s k r).rollmin = s.rollmin := rfl
@[simp] theorem rowPut_tripped (s : State) (k : Nat) (r : RowSlot) : (rowPut s k r).tripped = s.tripped := rfl
@[simp] theorem rowPut_bootB (s : State) (k : Nat) (r : RowSlot) : (rowPut s k r).bootB = s.bootB := rfl
@[simp] theorem rowPut_staging (s : State) (k : Nat) (r : RowSlot) : (rowPut s k r).staging = s.staging := rfl
@[simp] theorem rowPut_rstat (s : State) (k : Nat) (r : RowSlot) : (rowPut s k r).rstat = s.rstat := rfl
@[simp] theorem rowPut_rcmd (s : State) (k : Nat) (r : RowSlot) : (rowPut s k r).rcmd = s.rcmd := rfl
@[simp] theorem rowPut_rtimer (s : State) (k : Nat) (r : RowSlot) : (rowPut s k r).rtimer = s.rtimer := rfl
@[simp] theorem rowPut_rnonce (s : State) (k : Nat) (r : RowSlot) : (rowPut s k r).rnonce = s.rnonce := rfl

/-! ## `scrPut` -/

@[simp] theorem scrPut_mode (s : State) (a n x : Nat) : (scrPut s a n x).mode = s.mode := rfl
@[simp] theorem scrPut_turn (s : State) (a n x : Nat) : (scrPut s a n x).turn = s.turn := rfl
@[simp] theorem scrPut_free (s : State) (a n x : Nat) : (scrPut s a n x).free = s.free := rfl
@[simp] theorem scrPut_clock (s : State) (a n x : Nat) : (scrPut s a n x).clock = s.clock := rfl
@[simp] theorem scrPut_clks (s : State) (a n x : Nat) : (scrPut s a n x).clks = s.clks := rfl
@[simp] theorem scrPut_cur (s : State) (a n x : Nat) : (scrPut s a n x).cur = s.cur := rfl
@[simp] theorem scrPut_arg (s : State) (a n x : Nat) : (scrPut s a n x).arg = s.arg := rfl
@[simp] theorem scrPut_agenda (s : State) (a n x : Nat) : (scrPut s a n x).agenda = s.agenda := rfl
@[simp] theorem scrPut_out (s : State) (a n x : Nat) : (scrPut s a n x).out = s.out := rfl
@[simp] theorem scrPut_nextId (s : State) (a n x : Nat) : (scrPut s a n x).nextId = s.nextId := rfl
@[simp] theorem scrPut_groups (s : State) (a n x : Nat) : (scrPut s a n x).groups = s.groups := rfl
@[simp] theorem scrPut_ptab (s : State) (a n x : Nat) : (scrPut s a n x).ptab = s.ptab := rfl
@[simp] theorem scrPut_ptLock (s : State) (a n x : Nat) : (scrPut s a n x).ptLock = s.ptLock := rfl
@[simp] theorem scrPut_stamps (s : State) (a n x : Nat) : (scrPut s a n x).stamps = s.stamps := rfl
@[simp] theorem scrPut_rels (s : State) (a n x : Nat) : (scrPut s a n x).rels = s.rels := rfl
@[simp] theorem scrPut_phases (s : State) (a n x : Nat) : (scrPut s a n x).phases = s.phases := rfl
@[simp] theorem scrPut_ibuf (s : State) (a n x : Nat) : (scrPut s a n x).ibuf = s.ibuf := rfl
@[simp] theorem scrPut_arrays (s : State) (a n x : Nat) : (scrPut s a n x).arrays = s.arrays := rfl
@[simp] theorem scrPut_mbx (s : State) (a n x : Nat) : (scrPut s a n x).mbx = s.mbx := rfl
@[simp] theorem scrPut_reqSeq (s : State) (a n x : Nat) : (scrPut s a n x).reqSeq = s.reqSeq := rfl
@[simp] theorem scrPut_tlb (s : State) (a n x : Nat) : (scrPut s a n x).tlb = s.tlb := rfl
@[simp] theorem scrPut_mem (s : State) (a n x : Nat) : (scrPut s a n x).mem = s.mem := rfl
@[simp] theorem scrPut_undef (s : State) (a n x : Nat) : (scrPut s a n x).undef = s.undef := rfl
@[simp] theorem scrPut_bad (s : State) (a n x : Nat) : (scrPut s a n x).bad = s.bad := rfl
@[simp] theorem scrPut_lineDom (s : State) (a n x : Nat) : (scrPut s a n x).lineDom = s.lineDom := rfl
@[simp] theorem scrPut_unitDom (s : State) (a n x : Nat) : (scrPut s a n x).unitDom = s.unitDom := rfl
@[simp] theorem scrPut_rows (s : State) (a n x : Nat) : (scrPut s a n x).rows = s.rows := rfl
@[simp] theorem scrPut_stEpoch (s : State) (a n x : Nat) : (scrPut s a n x).stEpoch = s.stEpoch := rfl
@[simp] theorem scrPut_rowJobs (s : State) (a n x : Nat) : (scrPut s a n x).rowJobs = s.rowJobs := rfl
@[simp] theorem scrPut_parts (s : State) (a n x : Nat) : (scrPut s a n x).parts = s.parts := rfl
@[simp] theorem scrPut_ctxs (s : State) (a n x : Nat) : (scrPut s a n x).ctxs = s.ctxs := rfl
@[simp] theorem scrPut_hwslots (s : State) (a n x : Nat) : (scrPut s a n x).hwslots = s.hwslots := rfl
@[simp] theorem scrPut_pkts (s : State) (a n x : Nat) : (scrPut s a n x).pkts = s.pkts := rfl
@[simp] theorem scrPut_qclk (s : State) (a n x : Nat) : (scrPut s a n x).qclk = s.qclk := rfl
@[simp] theorem scrPut_launches (s : State) (a n x : Nat) : (scrPut s a n x).launches = s.launches := rfl
@[simp] theorem scrPut_nextHandle (s : State) (a n x : Nat) : (scrPut s a n x).nextHandle = s.nextHandle := rfl
@[simp] theorem scrPut_teams (s : State) (a n x : Nat) : (scrPut s a n x).teams = s.teams := rfl
@[simp] theorem scrPut_pawns (s : State) (a n x : Nat) : (scrPut s a n x).pawns = s.pawns := rfl
@[simp] theorem scrPut_fetchws (s : State) (a n x : Nat) : (scrPut s a n x).fetchws = s.fetchws := rfl
@[simp] theorem scrPut_jobs (s : State) (a n x : Nat) : (scrPut s a n x).jobs = s.jobs := rfl
@[simp] theorem scrPut_jobGen (s : State) (a n x : Nat) : (scrPut s a n x).jobGen = s.jobGen := rfl
@[simp] theorem scrPut_streams (s : State) (a n x : Nat) : (scrPut s a n x).streams = s.streams := rfl
@[simp] theorem scrPut_pools (s : State) (a n x : Nat) : (scrPut s a n x).pools = s.pools := rfl
@[simp] theorem scrPut_regs (s : State) (a n x : Nat) : (scrPut s a n x).regs = s.regs := rfl
@[simp] theorem scrPut_ports (s : State) (a n x : Nat) : (scrPut s a n x).ports = s.ports := rfl
@[simp] theorem scrPut_cxl (s : State) (a n x : Nat) : (scrPut s a n x).cxl = s.cxl := rfl
@[simp] theorem scrPut_xacts (s : State) (a n x : Nat) : (scrPut s a n x).xacts = s.xacts := rfl
@[simp] theorem scrPut_posted (s : State) (a n x : Nat) : (scrPut s a n x).posted = s.posted := rfl
@[simp] theorem scrPut_irqs (s : State) (a n x : Nat) : (scrPut s a n x).irqs = s.irqs := rfl
@[simp] theorem scrPut_epoch (s : State) (a n x : Nat) : (scrPut s a n x).epoch = s.epoch := rfl
@[simp] theorem scrPut_flash (s : State) (a n x : Nat) : (scrPut s a n x).flash = s.flash := rfl
@[simp] theorem scrPut_rollmin (s : State) (a n x : Nat) : (scrPut s a n x).rollmin = s.rollmin := rfl
@[simp] theorem scrPut_tripped (s : State) (a n x : Nat) : (scrPut s a n x).tripped = s.tripped := rfl
@[simp] theorem scrPut_bootB (s : State) (a n x : Nat) : (scrPut s a n x).bootB = s.bootB := rfl
@[simp] theorem scrPut_staging (s : State) (a n x : Nat) : (scrPut s a n x).staging = s.staging := rfl
@[simp] theorem scrPut_rstat (s : State) (a n x : Nat) : (scrPut s a n x).rstat = s.rstat := rfl
@[simp] theorem scrPut_rcmd (s : State) (a n x : Nat) : (scrPut s a n x).rcmd = s.rcmd := rfl
@[simp] theorem scrPut_rtimer (s : State) (a n x : Nat) : (scrPut s a n x).rtimer = s.rtimer := rfl
@[simp] theorem scrPut_rnonce (s : State) (a n x : Nat) : (scrPut s a n x).rnonce = s.rnonce := rfl

/-! ## `barPut` -/

@[simp] theorem barPut_mode (s : State) (ba : Nat) (b : Barrier) : (barPut s ba b).mode = s.mode := by unfold barPut; rfl
@[simp] theorem barPut_turn (s : State) (ba : Nat) (b : Barrier) : (barPut s ba b).turn = s.turn := by unfold barPut; rfl
@[simp] theorem barPut_free (s : State) (ba : Nat) (b : Barrier) : (barPut s ba b).free = s.free := by unfold barPut; rfl
@[simp] theorem barPut_clock (s : State) (ba : Nat) (b : Barrier) : (barPut s ba b).clock = s.clock := by unfold barPut; rfl
@[simp] theorem barPut_clks (s : State) (ba : Nat) (b : Barrier) : (barPut s ba b).clks = s.clks := by unfold barPut; rfl
@[simp] theorem barPut_cur (s : State) (ba : Nat) (b : Barrier) : (barPut s ba b).cur = s.cur := by unfold barPut; rfl
@[simp] theorem barPut_arg (s : State) (ba : Nat) (b : Barrier) : (barPut s ba b).arg = s.arg := by unfold barPut; rfl
@[simp] theorem barPut_agenda (s : State) (ba : Nat) (b : Barrier) : (barPut s ba b).agenda = s.agenda := by unfold barPut; rfl
@[simp] theorem barPut_out (s : State) (ba : Nat) (b : Barrier) : (barPut s ba b).out = s.out := by unfold barPut; rfl
@[simp] theorem barPut_nextId (s : State) (ba : Nat) (b : Barrier) : (barPut s ba b).nextId = s.nextId := by unfold barPut; rfl
@[simp] theorem barPut_groups (s : State) (ba : Nat) (b : Barrier) : (barPut s ba b).groups = s.groups := by unfold barPut; rfl
@[simp] theorem barPut_ptab (s : State) (ba : Nat) (b : Barrier) : (barPut s ba b).ptab = s.ptab := by unfold barPut; rfl
@[simp] theorem barPut_ptLock (s : State) (ba : Nat) (b : Barrier) : (barPut s ba b).ptLock = s.ptLock := by unfold barPut; rfl
@[simp] theorem barPut_stamps (s : State) (ba : Nat) (b : Barrier) : (barPut s ba b).stamps = s.stamps := by unfold barPut; rfl
@[simp] theorem barPut_rels (s : State) (ba : Nat) (b : Barrier) : (barPut s ba b).rels = s.rels := by unfold barPut; rfl
@[simp] theorem barPut_phases (s : State) (ba : Nat) (b : Barrier) : (barPut s ba b).phases = s.phases := by unfold barPut; rfl
@[simp] theorem barPut_ibuf (s : State) (ba : Nat) (b : Barrier) : (barPut s ba b).ibuf = s.ibuf := by unfold barPut; rfl
@[simp] theorem barPut_arrays (s : State) (ba : Nat) (b : Barrier) : (barPut s ba b).arrays = s.arrays := by unfold barPut; rfl
@[simp] theorem barPut_mbx (s : State) (ba : Nat) (b : Barrier) : (barPut s ba b).mbx = s.mbx := by unfold barPut; rfl
@[simp] theorem barPut_reqSeq (s : State) (ba : Nat) (b : Barrier) : (barPut s ba b).reqSeq = s.reqSeq := by unfold barPut; rfl
@[simp] theorem barPut_tlb (s : State) (ba : Nat) (b : Barrier) : (barPut s ba b).tlb = s.tlb := by unfold barPut; rfl
@[simp] theorem barPut_mem (s : State) (ba : Nat) (b : Barrier) : (barPut s ba b).mem = s.mem := by unfold barPut; rfl
@[simp] theorem barPut_undef (s : State) (ba : Nat) (b : Barrier) : (barPut s ba b).undef = s.undef := by unfold barPut; rfl
@[simp] theorem barPut_bad (s : State) (ba : Nat) (b : Barrier) : (barPut s ba b).bad = s.bad := by unfold barPut; rfl
@[simp] theorem barPut_lineDom (s : State) (ba : Nat) (b : Barrier) : (barPut s ba b).lineDom = s.lineDom := by unfold barPut; rfl
@[simp] theorem barPut_unitDom (s : State) (ba : Nat) (b : Barrier) : (barPut s ba b).unitDom = s.unitDom := by unfold barPut; rfl
@[simp] theorem barPut_rows (s : State) (ba : Nat) (b : Barrier) : (barPut s ba b).rows = s.rows := by unfold barPut; rfl
@[simp] theorem barPut_stEpoch (s : State) (ba : Nat) (b : Barrier) : (barPut s ba b).stEpoch = s.stEpoch := by unfold barPut; rfl
@[simp] theorem barPut_rowJobs (s : State) (ba : Nat) (b : Barrier) : (barPut s ba b).rowJobs = s.rowJobs := by unfold barPut; rfl
@[simp] theorem barPut_parts (s : State) (ba : Nat) (b : Barrier) : (barPut s ba b).parts = s.parts := by unfold barPut; rfl
@[simp] theorem barPut_ctxs (s : State) (ba : Nat) (b : Barrier) : (barPut s ba b).ctxs = s.ctxs := by unfold barPut; rfl
@[simp] theorem barPut_hwslots (s : State) (ba : Nat) (b : Barrier) : (barPut s ba b).hwslots = s.hwslots := by unfold barPut; rfl
@[simp] theorem barPut_pkts (s : State) (ba : Nat) (b : Barrier) : (barPut s ba b).pkts = s.pkts := by unfold barPut; rfl
@[simp] theorem barPut_qclk (s : State) (ba : Nat) (b : Barrier) : (barPut s ba b).qclk = s.qclk := by unfold barPut; rfl
@[simp] theorem barPut_launches (s : State) (ba : Nat) (b : Barrier) : (barPut s ba b).launches = s.launches := by unfold barPut; rfl
@[simp] theorem barPut_nextHandle (s : State) (ba : Nat) (b : Barrier) : (barPut s ba b).nextHandle = s.nextHandle := by unfold barPut; rfl
@[simp] theorem barPut_teams (s : State) (ba : Nat) (b : Barrier) : (barPut s ba b).teams = s.teams := by unfold barPut; rfl
@[simp] theorem barPut_pawns (s : State) (ba : Nat) (b : Barrier) : (barPut s ba b).pawns = s.pawns := by unfold barPut; rfl
@[simp] theorem barPut_fetchws (s : State) (ba : Nat) (b : Barrier) : (barPut s ba b).fetchws = s.fetchws := by unfold barPut; rfl
@[simp] theorem barPut_jobs (s : State) (ba : Nat) (b : Barrier) : (barPut s ba b).jobs = s.jobs := by unfold barPut; rfl
@[simp] theorem barPut_jobGen (s : State) (ba : Nat) (b : Barrier) : (barPut s ba b).jobGen = s.jobGen := by unfold barPut; rfl
@[simp] theorem barPut_streams (s : State) (ba : Nat) (b : Barrier) : (barPut s ba b).streams = s.streams := by unfold barPut; rfl
@[simp] theorem barPut_pools (s : State) (ba : Nat) (b : Barrier) : (barPut s ba b).pools = s.pools := by unfold barPut; rfl
@[simp] theorem barPut_regs (s : State) (ba : Nat) (b : Barrier) : (barPut s ba b).regs = s.regs := by unfold barPut; rfl
@[simp] theorem barPut_ports (s : State) (ba : Nat) (b : Barrier) : (barPut s ba b).ports = s.ports := by unfold barPut; rfl
@[simp] theorem barPut_cxl (s : State) (ba : Nat) (b : Barrier) : (barPut s ba b).cxl = s.cxl := by unfold barPut; rfl
@[simp] theorem barPut_xacts (s : State) (ba : Nat) (b : Barrier) : (barPut s ba b).xacts = s.xacts := by unfold barPut; rfl
@[simp] theorem barPut_posted (s : State) (ba : Nat) (b : Barrier) : (barPut s ba b).posted = s.posted := by unfold barPut; rfl
@[simp] theorem barPut_irqs (s : State) (ba : Nat) (b : Barrier) : (barPut s ba b).irqs = s.irqs := by unfold barPut; rfl
@[simp] theorem barPut_epoch (s : State) (ba : Nat) (b : Barrier) : (barPut s ba b).epoch = s.epoch := by unfold barPut; rfl
@[simp] theorem barPut_flash (s : State) (ba : Nat) (b : Barrier) : (barPut s ba b).flash = s.flash := by unfold barPut; rfl
@[simp] theorem barPut_rollmin (s : State) (ba : Nat) (b : Barrier) : (barPut s ba b).rollmin = s.rollmin := by unfold barPut; rfl
@[simp] theorem barPut_tripped (s : State) (ba : Nat) (b : Barrier) : (barPut s ba b).tripped = s.tripped := by unfold barPut; rfl
@[simp] theorem barPut_bootB (s : State) (ba : Nat) (b : Barrier) : (barPut s ba b).bootB = s.bootB := by unfold barPut; rfl
@[simp] theorem barPut_staging (s : State) (ba : Nat) (b : Barrier) : (barPut s ba b).staging = s.staging := by unfold barPut; rfl
@[simp] theorem barPut_rstat (s : State) (ba : Nat) (b : Barrier) : (barPut s ba b).rstat = s.rstat := by unfold barPut; rfl
@[simp] theorem barPut_rcmd (s : State) (ba : Nat) (b : Barrier) : (barPut s ba b).rcmd = s.rcmd := by unfold barPut; rfl
@[simp] theorem barPut_rtimer (s : State) (ba : Nat) (b : Barrier) : (barPut s ba b).rtimer = s.rtimer := by unfold barPut; rfl
@[simp] theorem barPut_rnonce (s : State) (ba : Nat) (b : Barrier) : (barPut s ba b).rnonce = s.rnonce := by unfold barPut; rfl

/-! ## `notePhase` -/

@[simp] theorem notePhase_mode (s : State) (ba : Nat) (ph : BitVec 16) (vc : SMap Nat) : (notePhase s ba ph vc).mode = s.mode := rfl
@[simp] theorem notePhase_turn (s : State) (ba : Nat) (ph : BitVec 16) (vc : SMap Nat) : (notePhase s ba ph vc).turn = s.turn := rfl
@[simp] theorem notePhase_free (s : State) (ba : Nat) (ph : BitVec 16) (vc : SMap Nat) : (notePhase s ba ph vc).free = s.free := rfl
@[simp] theorem notePhase_clock (s : State) (ba : Nat) (ph : BitVec 16) (vc : SMap Nat) : (notePhase s ba ph vc).clock = s.clock := rfl
@[simp] theorem notePhase_clks (s : State) (ba : Nat) (ph : BitVec 16) (vc : SMap Nat) : (notePhase s ba ph vc).clks = s.clks := rfl
@[simp] theorem notePhase_cur (s : State) (ba : Nat) (ph : BitVec 16) (vc : SMap Nat) : (notePhase s ba ph vc).cur = s.cur := rfl
@[simp] theorem notePhase_arg (s : State) (ba : Nat) (ph : BitVec 16) (vc : SMap Nat) : (notePhase s ba ph vc).arg = s.arg := rfl
@[simp] theorem notePhase_agenda (s : State) (ba : Nat) (ph : BitVec 16) (vc : SMap Nat) : (notePhase s ba ph vc).agenda = s.agenda := rfl
@[simp] theorem notePhase_out (s : State) (ba : Nat) (ph : BitVec 16) (vc : SMap Nat) : (notePhase s ba ph vc).out = s.out := rfl
@[simp] theorem notePhase_nextId (s : State) (ba : Nat) (ph : BitVec 16) (vc : SMap Nat) : (notePhase s ba ph vc).nextId = s.nextId := rfl
@[simp] theorem notePhase_groups (s : State) (ba : Nat) (ph : BitVec 16) (vc : SMap Nat) : (notePhase s ba ph vc).groups = s.groups := rfl
@[simp] theorem notePhase_scr (s : State) (ba : Nat) (ph : BitVec 16) (vc : SMap Nat) : (notePhase s ba ph vc).scr = s.scr := rfl
@[simp] theorem notePhase_ptab (s : State) (ba : Nat) (ph : BitVec 16) (vc : SMap Nat) : (notePhase s ba ph vc).ptab = s.ptab := rfl
@[simp] theorem notePhase_ptLock (s : State) (ba : Nat) (ph : BitVec 16) (vc : SMap Nat) : (notePhase s ba ph vc).ptLock = s.ptLock := rfl
@[simp] theorem notePhase_stamps (s : State) (ba : Nat) (ph : BitVec 16) (vc : SMap Nat) : (notePhase s ba ph vc).stamps = s.stamps := rfl
@[simp] theorem notePhase_rels (s : State) (ba : Nat) (ph : BitVec 16) (vc : SMap Nat) : (notePhase s ba ph vc).rels = s.rels := rfl
@[simp] theorem notePhase_ibuf (s : State) (ba : Nat) (ph : BitVec 16) (vc : SMap Nat) : (notePhase s ba ph vc).ibuf = s.ibuf := rfl
@[simp] theorem notePhase_arrays (s : State) (ba : Nat) (ph : BitVec 16) (vc : SMap Nat) : (notePhase s ba ph vc).arrays = s.arrays := rfl
@[simp] theorem notePhase_mbx (s : State) (ba : Nat) (ph : BitVec 16) (vc : SMap Nat) : (notePhase s ba ph vc).mbx = s.mbx := rfl
@[simp] theorem notePhase_reqSeq (s : State) (ba : Nat) (ph : BitVec 16) (vc : SMap Nat) : (notePhase s ba ph vc).reqSeq = s.reqSeq := rfl
@[simp] theorem notePhase_tlb (s : State) (ba : Nat) (ph : BitVec 16) (vc : SMap Nat) : (notePhase s ba ph vc).tlb = s.tlb := rfl
@[simp] theorem notePhase_mem (s : State) (ba : Nat) (ph : BitVec 16) (vc : SMap Nat) : (notePhase s ba ph vc).mem = s.mem := rfl
@[simp] theorem notePhase_undef (s : State) (ba : Nat) (ph : BitVec 16) (vc : SMap Nat) : (notePhase s ba ph vc).undef = s.undef := rfl
@[simp] theorem notePhase_bad (s : State) (ba : Nat) (ph : BitVec 16) (vc : SMap Nat) : (notePhase s ba ph vc).bad = s.bad := rfl
@[simp] theorem notePhase_lineDom (s : State) (ba : Nat) (ph : BitVec 16) (vc : SMap Nat) : (notePhase s ba ph vc).lineDom = s.lineDom := rfl
@[simp] theorem notePhase_unitDom (s : State) (ba : Nat) (ph : BitVec 16) (vc : SMap Nat) : (notePhase s ba ph vc).unitDom = s.unitDom := rfl
@[simp] theorem notePhase_rows (s : State) (ba : Nat) (ph : BitVec 16) (vc : SMap Nat) : (notePhase s ba ph vc).rows = s.rows := rfl
@[simp] theorem notePhase_stEpoch (s : State) (ba : Nat) (ph : BitVec 16) (vc : SMap Nat) : (notePhase s ba ph vc).stEpoch = s.stEpoch := rfl
@[simp] theorem notePhase_rowJobs (s : State) (ba : Nat) (ph : BitVec 16) (vc : SMap Nat) : (notePhase s ba ph vc).rowJobs = s.rowJobs := rfl
@[simp] theorem notePhase_parts (s : State) (ba : Nat) (ph : BitVec 16) (vc : SMap Nat) : (notePhase s ba ph vc).parts = s.parts := rfl
@[simp] theorem notePhase_ctxs (s : State) (ba : Nat) (ph : BitVec 16) (vc : SMap Nat) : (notePhase s ba ph vc).ctxs = s.ctxs := rfl
@[simp] theorem notePhase_hwslots (s : State) (ba : Nat) (ph : BitVec 16) (vc : SMap Nat) : (notePhase s ba ph vc).hwslots = s.hwslots := rfl
@[simp] theorem notePhase_pkts (s : State) (ba : Nat) (ph : BitVec 16) (vc : SMap Nat) : (notePhase s ba ph vc).pkts = s.pkts := rfl
@[simp] theorem notePhase_qclk (s : State) (ba : Nat) (ph : BitVec 16) (vc : SMap Nat) : (notePhase s ba ph vc).qclk = s.qclk := rfl
@[simp] theorem notePhase_launches (s : State) (ba : Nat) (ph : BitVec 16) (vc : SMap Nat) : (notePhase s ba ph vc).launches = s.launches := rfl
@[simp] theorem notePhase_nextHandle (s : State) (ba : Nat) (ph : BitVec 16) (vc : SMap Nat) : (notePhase s ba ph vc).nextHandle = s.nextHandle := rfl
@[simp] theorem notePhase_teams (s : State) (ba : Nat) (ph : BitVec 16) (vc : SMap Nat) : (notePhase s ba ph vc).teams = s.teams := rfl
@[simp] theorem notePhase_pawns (s : State) (ba : Nat) (ph : BitVec 16) (vc : SMap Nat) : (notePhase s ba ph vc).pawns = s.pawns := rfl
@[simp] theorem notePhase_fetchws (s : State) (ba : Nat) (ph : BitVec 16) (vc : SMap Nat) : (notePhase s ba ph vc).fetchws = s.fetchws := rfl
@[simp] theorem notePhase_jobs (s : State) (ba : Nat) (ph : BitVec 16) (vc : SMap Nat) : (notePhase s ba ph vc).jobs = s.jobs := rfl
@[simp] theorem notePhase_jobGen (s : State) (ba : Nat) (ph : BitVec 16) (vc : SMap Nat) : (notePhase s ba ph vc).jobGen = s.jobGen := rfl
@[simp] theorem notePhase_streams (s : State) (ba : Nat) (ph : BitVec 16) (vc : SMap Nat) : (notePhase s ba ph vc).streams = s.streams := rfl
@[simp] theorem notePhase_pools (s : State) (ba : Nat) (ph : BitVec 16) (vc : SMap Nat) : (notePhase s ba ph vc).pools = s.pools := rfl
@[simp] theorem notePhase_regs (s : State) (ba : Nat) (ph : BitVec 16) (vc : SMap Nat) : (notePhase s ba ph vc).regs = s.regs := rfl
@[simp] theorem notePhase_ports (s : State) (ba : Nat) (ph : BitVec 16) (vc : SMap Nat) : (notePhase s ba ph vc).ports = s.ports := rfl
@[simp] theorem notePhase_cxl (s : State) (ba : Nat) (ph : BitVec 16) (vc : SMap Nat) : (notePhase s ba ph vc).cxl = s.cxl := rfl
@[simp] theorem notePhase_xacts (s : State) (ba : Nat) (ph : BitVec 16) (vc : SMap Nat) : (notePhase s ba ph vc).xacts = s.xacts := rfl
@[simp] theorem notePhase_posted (s : State) (ba : Nat) (ph : BitVec 16) (vc : SMap Nat) : (notePhase s ba ph vc).posted = s.posted := rfl
@[simp] theorem notePhase_irqs (s : State) (ba : Nat) (ph : BitVec 16) (vc : SMap Nat) : (notePhase s ba ph vc).irqs = s.irqs := rfl
@[simp] theorem notePhase_epoch (s : State) (ba : Nat) (ph : BitVec 16) (vc : SMap Nat) : (notePhase s ba ph vc).epoch = s.epoch := rfl
@[simp] theorem notePhase_flash (s : State) (ba : Nat) (ph : BitVec 16) (vc : SMap Nat) : (notePhase s ba ph vc).flash = s.flash := rfl
@[simp] theorem notePhase_rollmin (s : State) (ba : Nat) (ph : BitVec 16) (vc : SMap Nat) : (notePhase s ba ph vc).rollmin = s.rollmin := rfl
@[simp] theorem notePhase_tripped (s : State) (ba : Nat) (ph : BitVec 16) (vc : SMap Nat) : (notePhase s ba ph vc).tripped = s.tripped := rfl
@[simp] theorem notePhase_bootB (s : State) (ba : Nat) (ph : BitVec 16) (vc : SMap Nat) : (notePhase s ba ph vc).bootB = s.bootB := rfl
@[simp] theorem notePhase_staging (s : State) (ba : Nat) (ph : BitVec 16) (vc : SMap Nat) : (notePhase s ba ph vc).staging = s.staging := rfl
@[simp] theorem notePhase_rstat (s : State) (ba : Nat) (ph : BitVec 16) (vc : SMap Nat) : (notePhase s ba ph vc).rstat = s.rstat := rfl
@[simp] theorem notePhase_rcmd (s : State) (ba : Nat) (ph : BitVec 16) (vc : SMap Nat) : (notePhase s ba ph vc).rcmd = s.rcmd := rfl
@[simp] theorem notePhase_rtimer (s : State) (ba : Nat) (ph : BitVec 16) (vc : SMap Nat) : (notePhase s ba ph vc).rtimer = s.rtimer := rfl
@[simp] theorem notePhase_rnonce (s : State) (ba : Nat) (ph : BitVec 16) (vc : SMap Nat) : (notePhase s ba ph vc).rnonce = s.rnonce := rfl

/-! ## `noteWrite` -/

@[simp] theorem noteWrite_mode (s : State) (g : Group) (k n : Nat) (rmw : Bool) (rel : Option Nat) : (noteWrite s g k n rmw rel).mode = s.mode := rfl
@[simp] theorem noteWrite_turn (s : State) (g : Group) (k n : Nat) (rmw : Bool) (rel : Option Nat) : (noteWrite s g k n rmw rel).turn = s.turn := rfl
@[simp] theorem noteWrite_free (s : State) (g : Group) (k n : Nat) (rmw : Bool) (rel : Option Nat) : (noteWrite s g k n rmw rel).free = s.free := rfl
@[simp] theorem noteWrite_clock (s : State) (g : Group) (k n : Nat) (rmw : Bool) (rel : Option Nat) : (noteWrite s g k n rmw rel).clock = s.clock := rfl
@[simp] theorem noteWrite_clks (s : State) (g : Group) (k n : Nat) (rmw : Bool) (rel : Option Nat) : (noteWrite s g k n rmw rel).clks = s.clks := rfl
@[simp] theorem noteWrite_cur (s : State) (g : Group) (k n : Nat) (rmw : Bool) (rel : Option Nat) : (noteWrite s g k n rmw rel).cur = s.cur := rfl
@[simp] theorem noteWrite_arg (s : State) (g : Group) (k n : Nat) (rmw : Bool) (rel : Option Nat) : (noteWrite s g k n rmw rel).arg = s.arg := rfl
@[simp] theorem noteWrite_agenda (s : State) (g : Group) (k n : Nat) (rmw : Bool) (rel : Option Nat) : (noteWrite s g k n rmw rel).agenda = s.agenda := rfl
@[simp] theorem noteWrite_out (s : State) (g : Group) (k n : Nat) (rmw : Bool) (rel : Option Nat) : (noteWrite s g k n rmw rel).out = s.out := rfl
@[simp] theorem noteWrite_nextId (s : State) (g : Group) (k n : Nat) (rmw : Bool) (rel : Option Nat) : (noteWrite s g k n rmw rel).nextId = s.nextId := rfl
@[simp] theorem noteWrite_groups (s : State) (g : Group) (k n : Nat) (rmw : Bool) (rel : Option Nat) : (noteWrite s g k n rmw rel).groups = s.groups := rfl
@[simp] theorem noteWrite_scr (s : State) (g : Group) (k n : Nat) (rmw : Bool) (rel : Option Nat) : (noteWrite s g k n rmw rel).scr = s.scr := rfl
@[simp] theorem noteWrite_ptab (s : State) (g : Group) (k n : Nat) (rmw : Bool) (rel : Option Nat) : (noteWrite s g k n rmw rel).ptab = s.ptab := rfl
@[simp] theorem noteWrite_ptLock (s : State) (g : Group) (k n : Nat) (rmw : Bool) (rel : Option Nat) : (noteWrite s g k n rmw rel).ptLock = s.ptLock := rfl
@[simp] theorem noteWrite_stamps (s : State) (g : Group) (k n : Nat) (rmw : Bool) (rel : Option Nat) : (noteWrite s g k n rmw rel).stamps = s.stamps := rfl
@[simp] theorem noteWrite_phases (s : State) (g : Group) (k n : Nat) (rmw : Bool) (rel : Option Nat) : (noteWrite s g k n rmw rel).phases = s.phases := rfl
@[simp] theorem noteWrite_ibuf (s : State) (g : Group) (k n : Nat) (rmw : Bool) (rel : Option Nat) : (noteWrite s g k n rmw rel).ibuf = s.ibuf := rfl
@[simp] theorem noteWrite_arrays (s : State) (g : Group) (k n : Nat) (rmw : Bool) (rel : Option Nat) : (noteWrite s g k n rmw rel).arrays = s.arrays := rfl
@[simp] theorem noteWrite_mbx (s : State) (g : Group) (k n : Nat) (rmw : Bool) (rel : Option Nat) : (noteWrite s g k n rmw rel).mbx = s.mbx := rfl
@[simp] theorem noteWrite_reqSeq (s : State) (g : Group) (k n : Nat) (rmw : Bool) (rel : Option Nat) : (noteWrite s g k n rmw rel).reqSeq = s.reqSeq := rfl
@[simp] theorem noteWrite_tlb (s : State) (g : Group) (k n : Nat) (rmw : Bool) (rel : Option Nat) : (noteWrite s g k n rmw rel).tlb = s.tlb := rfl
@[simp] theorem noteWrite_mem (s : State) (g : Group) (k n : Nat) (rmw : Bool) (rel : Option Nat) : (noteWrite s g k n rmw rel).mem = s.mem := rfl
@[simp] theorem noteWrite_undef (s : State) (g : Group) (k n : Nat) (rmw : Bool) (rel : Option Nat) : (noteWrite s g k n rmw rel).undef = s.undef := rfl
@[simp] theorem noteWrite_bad (s : State) (g : Group) (k n : Nat) (rmw : Bool) (rel : Option Nat) : (noteWrite s g k n rmw rel).bad = s.bad := rfl
@[simp] theorem noteWrite_lineDom (s : State) (g : Group) (k n : Nat) (rmw : Bool) (rel : Option Nat) : (noteWrite s g k n rmw rel).lineDom = s.lineDom := rfl
@[simp] theorem noteWrite_unitDom (s : State) (g : Group) (k n : Nat) (rmw : Bool) (rel : Option Nat) : (noteWrite s g k n rmw rel).unitDom = s.unitDom := rfl
@[simp] theorem noteWrite_rows (s : State) (g : Group) (k n : Nat) (rmw : Bool) (rel : Option Nat) : (noteWrite s g k n rmw rel).rows = s.rows := rfl
@[simp] theorem noteWrite_stEpoch (s : State) (g : Group) (k n : Nat) (rmw : Bool) (rel : Option Nat) : (noteWrite s g k n rmw rel).stEpoch = s.stEpoch := rfl
@[simp] theorem noteWrite_rowJobs (s : State) (g : Group) (k n : Nat) (rmw : Bool) (rel : Option Nat) : (noteWrite s g k n rmw rel).rowJobs = s.rowJobs := rfl
@[simp] theorem noteWrite_parts (s : State) (g : Group) (k n : Nat) (rmw : Bool) (rel : Option Nat) : (noteWrite s g k n rmw rel).parts = s.parts := rfl
@[simp] theorem noteWrite_ctxs (s : State) (g : Group) (k n : Nat) (rmw : Bool) (rel : Option Nat) : (noteWrite s g k n rmw rel).ctxs = s.ctxs := rfl
@[simp] theorem noteWrite_hwslots (s : State) (g : Group) (k n : Nat) (rmw : Bool) (rel : Option Nat) : (noteWrite s g k n rmw rel).hwslots = s.hwslots := rfl
@[simp] theorem noteWrite_pkts (s : State) (g : Group) (k n : Nat) (rmw : Bool) (rel : Option Nat) : (noteWrite s g k n rmw rel).pkts = s.pkts := rfl
@[simp] theorem noteWrite_qclk (s : State) (g : Group) (k n : Nat) (rmw : Bool) (rel : Option Nat) : (noteWrite s g k n rmw rel).qclk = s.qclk := rfl
@[simp] theorem noteWrite_launches (s : State) (g : Group) (k n : Nat) (rmw : Bool) (rel : Option Nat) : (noteWrite s g k n rmw rel).launches = s.launches := rfl
@[simp] theorem noteWrite_nextHandle (s : State) (g : Group) (k n : Nat) (rmw : Bool) (rel : Option Nat) : (noteWrite s g k n rmw rel).nextHandle = s.nextHandle := rfl
@[simp] theorem noteWrite_teams (s : State) (g : Group) (k n : Nat) (rmw : Bool) (rel : Option Nat) : (noteWrite s g k n rmw rel).teams = s.teams := rfl
@[simp] theorem noteWrite_pawns (s : State) (g : Group) (k n : Nat) (rmw : Bool) (rel : Option Nat) : (noteWrite s g k n rmw rel).pawns = s.pawns := rfl
@[simp] theorem noteWrite_fetchws (s : State) (g : Group) (k n : Nat) (rmw : Bool) (rel : Option Nat) : (noteWrite s g k n rmw rel).fetchws = s.fetchws := rfl
@[simp] theorem noteWrite_jobs (s : State) (g : Group) (k n : Nat) (rmw : Bool) (rel : Option Nat) : (noteWrite s g k n rmw rel).jobs = s.jobs := rfl
@[simp] theorem noteWrite_jobGen (s : State) (g : Group) (k n : Nat) (rmw : Bool) (rel : Option Nat) : (noteWrite s g k n rmw rel).jobGen = s.jobGen := rfl
@[simp] theorem noteWrite_streams (s : State) (g : Group) (k n : Nat) (rmw : Bool) (rel : Option Nat) : (noteWrite s g k n rmw rel).streams = s.streams := rfl
@[simp] theorem noteWrite_pools (s : State) (g : Group) (k n : Nat) (rmw : Bool) (rel : Option Nat) : (noteWrite s g k n rmw rel).pools = s.pools := rfl
@[simp] theorem noteWrite_regs (s : State) (g : Group) (k n : Nat) (rmw : Bool) (rel : Option Nat) : (noteWrite s g k n rmw rel).regs = s.regs := rfl
@[simp] theorem noteWrite_ports (s : State) (g : Group) (k n : Nat) (rmw : Bool) (rel : Option Nat) : (noteWrite s g k n rmw rel).ports = s.ports := rfl
@[simp] theorem noteWrite_cxl (s : State) (g : Group) (k n : Nat) (rmw : Bool) (rel : Option Nat) : (noteWrite s g k n rmw rel).cxl = s.cxl := rfl
@[simp] theorem noteWrite_xacts (s : State) (g : Group) (k n : Nat) (rmw : Bool) (rel : Option Nat) : (noteWrite s g k n rmw rel).xacts = s.xacts := rfl
@[simp] theorem noteWrite_posted (s : State) (g : Group) (k n : Nat) (rmw : Bool) (rel : Option Nat) : (noteWrite s g k n rmw rel).posted = s.posted := rfl
@[simp] theorem noteWrite_irqs (s : State) (g : Group) (k n : Nat) (rmw : Bool) (rel : Option Nat) : (noteWrite s g k n rmw rel).irqs = s.irqs := rfl
@[simp] theorem noteWrite_epoch (s : State) (g : Group) (k n : Nat) (rmw : Bool) (rel : Option Nat) : (noteWrite s g k n rmw rel).epoch = s.epoch := rfl
@[simp] theorem noteWrite_flash (s : State) (g : Group) (k n : Nat) (rmw : Bool) (rel : Option Nat) : (noteWrite s g k n rmw rel).flash = s.flash := rfl
@[simp] theorem noteWrite_rollmin (s : State) (g : Group) (k n : Nat) (rmw : Bool) (rel : Option Nat) : (noteWrite s g k n rmw rel).rollmin = s.rollmin := rfl
@[simp] theorem noteWrite_tripped (s : State) (g : Group) (k n : Nat) (rmw : Bool) (rel : Option Nat) : (noteWrite s g k n rmw rel).tripped = s.tripped := rfl
@[simp] theorem noteWrite_bootB (s : State) (g : Group) (k n : Nat) (rmw : Bool) (rel : Option Nat) : (noteWrite s g k n rmw rel).bootB = s.bootB := rfl
@[simp] theorem noteWrite_staging (s : State) (g : Group) (k n : Nat) (rmw : Bool) (rel : Option Nat) : (noteWrite s g k n rmw rel).staging = s.staging := rfl
@[simp] theorem noteWrite_rstat (s : State) (g : Group) (k n : Nat) (rmw : Bool) (rel : Option Nat) : (noteWrite s g k n rmw rel).rstat = s.rstat := rfl
@[simp] theorem noteWrite_rcmd (s : State) (g : Group) (k n : Nat) (rmw : Bool) (rel : Option Nat) : (noteWrite s g k n rmw rel).rcmd = s.rcmd := rfl
@[simp] theorem noteWrite_rtimer (s : State) (g : Group) (k n : Nat) (rmw : Bool) (rel : Option Nat) : (noteWrite s g k n rmw rel).rtimer = s.rtimer := rfl
@[simp] theorem noteWrite_rnonce (s : State) (g : Group) (k n : Nat) (rmw : Bool) (rel : Option Nat) : (noteWrite s g k n rmw rel).rnonce = s.rnonce := rfl

/-! ## `agentWrote` -/

@[simp] theorem agentWrote_mode (s : State) (k n : Nat) (rmw : Bool) (rs : List Rel) : (agentWrote s k n rmw rs).mode = s.mode := rfl
@[simp] theorem agentWrote_turn (s : State) (k n : Nat) (rmw : Bool) (rs : List Rel) : (agentWrote s k n rmw rs).turn = s.turn := rfl
@[simp] theorem agentWrote_free (s : State) (k n : Nat) (rmw : Bool) (rs : List Rel) : (agentWrote s k n rmw rs).free = s.free := rfl
@[simp] theorem agentWrote_clock (s : State) (k n : Nat) (rmw : Bool) (rs : List Rel) : (agentWrote s k n rmw rs).clock = s.clock := rfl
@[simp] theorem agentWrote_clks (s : State) (k n : Nat) (rmw : Bool) (rs : List Rel) : (agentWrote s k n rmw rs).clks = s.clks := rfl
@[simp] theorem agentWrote_cur (s : State) (k n : Nat) (rmw : Bool) (rs : List Rel) : (agentWrote s k n rmw rs).cur = s.cur := rfl
@[simp] theorem agentWrote_arg (s : State) (k n : Nat) (rmw : Bool) (rs : List Rel) : (agentWrote s k n rmw rs).arg = s.arg := rfl
@[simp] theorem agentWrote_agenda (s : State) (k n : Nat) (rmw : Bool) (rs : List Rel) : (agentWrote s k n rmw rs).agenda = s.agenda := rfl
@[simp] theorem agentWrote_out (s : State) (k n : Nat) (rmw : Bool) (rs : List Rel) : (agentWrote s k n rmw rs).out = s.out := rfl
@[simp] theorem agentWrote_nextId (s : State) (k n : Nat) (rmw : Bool) (rs : List Rel) : (agentWrote s k n rmw rs).nextId = s.nextId := rfl
@[simp] theorem agentWrote_groups (s : State) (k n : Nat) (rmw : Bool) (rs : List Rel) : (agentWrote s k n rmw rs).groups = s.groups := rfl
@[simp] theorem agentWrote_scr (s : State) (k n : Nat) (rmw : Bool) (rs : List Rel) : (agentWrote s k n rmw rs).scr = s.scr := rfl
@[simp] theorem agentWrote_ptab (s : State) (k n : Nat) (rmw : Bool) (rs : List Rel) : (agentWrote s k n rmw rs).ptab = s.ptab := rfl
@[simp] theorem agentWrote_ptLock (s : State) (k n : Nat) (rmw : Bool) (rs : List Rel) : (agentWrote s k n rmw rs).ptLock = s.ptLock := rfl
@[simp] theorem agentWrote_stamps (s : State) (k n : Nat) (rmw : Bool) (rs : List Rel) : (agentWrote s k n rmw rs).stamps = s.stamps := rfl
@[simp] theorem agentWrote_phases (s : State) (k n : Nat) (rmw : Bool) (rs : List Rel) : (agentWrote s k n rmw rs).phases = s.phases := rfl
@[simp] theorem agentWrote_ibuf (s : State) (k n : Nat) (rmw : Bool) (rs : List Rel) : (agentWrote s k n rmw rs).ibuf = s.ibuf := rfl
@[simp] theorem agentWrote_arrays (s : State) (k n : Nat) (rmw : Bool) (rs : List Rel) : (agentWrote s k n rmw rs).arrays = s.arrays := rfl
@[simp] theorem agentWrote_mbx (s : State) (k n : Nat) (rmw : Bool) (rs : List Rel) : (agentWrote s k n rmw rs).mbx = s.mbx := rfl
@[simp] theorem agentWrote_reqSeq (s : State) (k n : Nat) (rmw : Bool) (rs : List Rel) : (agentWrote s k n rmw rs).reqSeq = s.reqSeq := rfl
@[simp] theorem agentWrote_tlb (s : State) (k n : Nat) (rmw : Bool) (rs : List Rel) : (agentWrote s k n rmw rs).tlb = s.tlb := rfl
@[simp] theorem agentWrote_mem (s : State) (k n : Nat) (rmw : Bool) (rs : List Rel) : (agentWrote s k n rmw rs).mem = s.mem := rfl
@[simp] theorem agentWrote_undef (s : State) (k n : Nat) (rmw : Bool) (rs : List Rel) : (agentWrote s k n rmw rs).undef = s.undef := rfl
@[simp] theorem agentWrote_bad (s : State) (k n : Nat) (rmw : Bool) (rs : List Rel) : (agentWrote s k n rmw rs).bad = s.bad := rfl
@[simp] theorem agentWrote_lineDom (s : State) (k n : Nat) (rmw : Bool) (rs : List Rel) : (agentWrote s k n rmw rs).lineDom = s.lineDom := rfl
@[simp] theorem agentWrote_unitDom (s : State) (k n : Nat) (rmw : Bool) (rs : List Rel) : (agentWrote s k n rmw rs).unitDom = s.unitDom := rfl
@[simp] theorem agentWrote_rows (s : State) (k n : Nat) (rmw : Bool) (rs : List Rel) : (agentWrote s k n rmw rs).rows = s.rows := rfl
@[simp] theorem agentWrote_stEpoch (s : State) (k n : Nat) (rmw : Bool) (rs : List Rel) : (agentWrote s k n rmw rs).stEpoch = s.stEpoch := rfl
@[simp] theorem agentWrote_rowJobs (s : State) (k n : Nat) (rmw : Bool) (rs : List Rel) : (agentWrote s k n rmw rs).rowJobs = s.rowJobs := rfl
@[simp] theorem agentWrote_parts (s : State) (k n : Nat) (rmw : Bool) (rs : List Rel) : (agentWrote s k n rmw rs).parts = s.parts := rfl
@[simp] theorem agentWrote_ctxs (s : State) (k n : Nat) (rmw : Bool) (rs : List Rel) : (agentWrote s k n rmw rs).ctxs = s.ctxs := rfl
@[simp] theorem agentWrote_hwslots (s : State) (k n : Nat) (rmw : Bool) (rs : List Rel) : (agentWrote s k n rmw rs).hwslots = s.hwslots := rfl
@[simp] theorem agentWrote_pkts (s : State) (k n : Nat) (rmw : Bool) (rs : List Rel) : (agentWrote s k n rmw rs).pkts = s.pkts := rfl
@[simp] theorem agentWrote_qclk (s : State) (k n : Nat) (rmw : Bool) (rs : List Rel) : (agentWrote s k n rmw rs).qclk = s.qclk := rfl
@[simp] theorem agentWrote_launches (s : State) (k n : Nat) (rmw : Bool) (rs : List Rel) : (agentWrote s k n rmw rs).launches = s.launches := rfl
@[simp] theorem agentWrote_nextHandle (s : State) (k n : Nat) (rmw : Bool) (rs : List Rel) : (agentWrote s k n rmw rs).nextHandle = s.nextHandle := rfl
@[simp] theorem agentWrote_teams (s : State) (k n : Nat) (rmw : Bool) (rs : List Rel) : (agentWrote s k n rmw rs).teams = s.teams := rfl
@[simp] theorem agentWrote_pawns (s : State) (k n : Nat) (rmw : Bool) (rs : List Rel) : (agentWrote s k n rmw rs).pawns = s.pawns := rfl
@[simp] theorem agentWrote_fetchws (s : State) (k n : Nat) (rmw : Bool) (rs : List Rel) : (agentWrote s k n rmw rs).fetchws = s.fetchws := rfl
@[simp] theorem agentWrote_jobs (s : State) (k n : Nat) (rmw : Bool) (rs : List Rel) : (agentWrote s k n rmw rs).jobs = s.jobs := rfl
@[simp] theorem agentWrote_jobGen (s : State) (k n : Nat) (rmw : Bool) (rs : List Rel) : (agentWrote s k n rmw rs).jobGen = s.jobGen := rfl
@[simp] theorem agentWrote_streams (s : State) (k n : Nat) (rmw : Bool) (rs : List Rel) : (agentWrote s k n rmw rs).streams = s.streams := rfl
@[simp] theorem agentWrote_pools (s : State) (k n : Nat) (rmw : Bool) (rs : List Rel) : (agentWrote s k n rmw rs).pools = s.pools := rfl
@[simp] theorem agentWrote_regs (s : State) (k n : Nat) (rmw : Bool) (rs : List Rel) : (agentWrote s k n rmw rs).regs = s.regs := rfl
@[simp] theorem agentWrote_ports (s : State) (k n : Nat) (rmw : Bool) (rs : List Rel) : (agentWrote s k n rmw rs).ports = s.ports := rfl
@[simp] theorem agentWrote_cxl (s : State) (k n : Nat) (rmw : Bool) (rs : List Rel) : (agentWrote s k n rmw rs).cxl = s.cxl := rfl
@[simp] theorem agentWrote_xacts (s : State) (k n : Nat) (rmw : Bool) (rs : List Rel) : (agentWrote s k n rmw rs).xacts = s.xacts := rfl
@[simp] theorem agentWrote_posted (s : State) (k n : Nat) (rmw : Bool) (rs : List Rel) : (agentWrote s k n rmw rs).posted = s.posted := rfl
@[simp] theorem agentWrote_irqs (s : State) (k n : Nat) (rmw : Bool) (rs : List Rel) : (agentWrote s k n rmw rs).irqs = s.irqs := rfl
@[simp] theorem agentWrote_epoch (s : State) (k n : Nat) (rmw : Bool) (rs : List Rel) : (agentWrote s k n rmw rs).epoch = s.epoch := rfl
@[simp] theorem agentWrote_flash (s : State) (k n : Nat) (rmw : Bool) (rs : List Rel) : (agentWrote s k n rmw rs).flash = s.flash := rfl
@[simp] theorem agentWrote_rollmin (s : State) (k n : Nat) (rmw : Bool) (rs : List Rel) : (agentWrote s k n rmw rs).rollmin = s.rollmin := rfl
@[simp] theorem agentWrote_tripped (s : State) (k n : Nat) (rmw : Bool) (rs : List Rel) : (agentWrote s k n rmw rs).tripped = s.tripped := rfl
@[simp] theorem agentWrote_bootB (s : State) (k n : Nat) (rmw : Bool) (rs : List Rel) : (agentWrote s k n rmw rs).bootB = s.bootB := rfl
@[simp] theorem agentWrote_staging (s : State) (k n : Nat) (rmw : Bool) (rs : List Rel) : (agentWrote s k n rmw rs).staging = s.staging := rfl
@[simp] theorem agentWrote_rstat (s : State) (k n : Nat) (rmw : Bool) (rs : List Rel) : (agentWrote s k n rmw rs).rstat = s.rstat := rfl
@[simp] theorem agentWrote_rcmd (s : State) (k n : Nat) (rmw : Bool) (rs : List Rel) : (agentWrote s k n rmw rs).rcmd = s.rcmd := rfl
@[simp] theorem agentWrote_rtimer (s : State) (k n : Nat) (rmw : Bool) (rs : List Rel) : (agentWrote s k n rmw rs).rtimer = s.rtimer := rfl
@[simp] theorem agentWrote_rnonce (s : State) (k n : Nat) (rmw : Bool) (rs : List Rel) : (agentWrote s k n rmw rs).rnonce = s.rnonce := rfl

/-! ## `cacheEnts` -/

@[simp] theorem cacheEnts_mode (s : State) (l : List TlbEnt) : (cacheEnts s l).mode = s.mode := rfl
@[simp] theorem cacheEnts_turn (s : State) (l : List TlbEnt) : (cacheEnts s l).turn = s.turn := rfl
@[simp] theorem cacheEnts_free (s : State) (l : List TlbEnt) : (cacheEnts s l).free = s.free := rfl
@[simp] theorem cacheEnts_clock (s : State) (l : List TlbEnt) : (cacheEnts s l).clock = s.clock := rfl
@[simp] theorem cacheEnts_clks (s : State) (l : List TlbEnt) : (cacheEnts s l).clks = s.clks := rfl
@[simp] theorem cacheEnts_cur (s : State) (l : List TlbEnt) : (cacheEnts s l).cur = s.cur := rfl
@[simp] theorem cacheEnts_arg (s : State) (l : List TlbEnt) : (cacheEnts s l).arg = s.arg := rfl
@[simp] theorem cacheEnts_groups (s : State) (l : List TlbEnt) : (cacheEnts s l).groups = s.groups := rfl
@[simp] theorem cacheEnts_scr (s : State) (l : List TlbEnt) : (cacheEnts s l).scr = s.scr := rfl
@[simp] theorem cacheEnts_ptab (s : State) (l : List TlbEnt) : (cacheEnts s l).ptab = s.ptab := rfl
@[simp] theorem cacheEnts_ptLock (s : State) (l : List TlbEnt) : (cacheEnts s l).ptLock = s.ptLock := rfl
@[simp] theorem cacheEnts_stamps (s : State) (l : List TlbEnt) : (cacheEnts s l).stamps = s.stamps := rfl
@[simp] theorem cacheEnts_rels (s : State) (l : List TlbEnt) : (cacheEnts s l).rels = s.rels := rfl
@[simp] theorem cacheEnts_phases (s : State) (l : List TlbEnt) : (cacheEnts s l).phases = s.phases := rfl
@[simp] theorem cacheEnts_ibuf (s : State) (l : List TlbEnt) : (cacheEnts s l).ibuf = s.ibuf := rfl
@[simp] theorem cacheEnts_arrays (s : State) (l : List TlbEnt) : (cacheEnts s l).arrays = s.arrays := rfl
@[simp] theorem cacheEnts_mbx (s : State) (l : List TlbEnt) : (cacheEnts s l).mbx = s.mbx := rfl
@[simp] theorem cacheEnts_reqSeq (s : State) (l : List TlbEnt) : (cacheEnts s l).reqSeq = s.reqSeq := rfl
@[simp] theorem cacheEnts_mem (s : State) (l : List TlbEnt) : (cacheEnts s l).mem = s.mem := rfl
@[simp] theorem cacheEnts_undef (s : State) (l : List TlbEnt) : (cacheEnts s l).undef = s.undef := rfl
@[simp] theorem cacheEnts_bad (s : State) (l : List TlbEnt) : (cacheEnts s l).bad = s.bad := rfl
@[simp] theorem cacheEnts_lineDom (s : State) (l : List TlbEnt) : (cacheEnts s l).lineDom = s.lineDom := rfl
@[simp] theorem cacheEnts_unitDom (s : State) (l : List TlbEnt) : (cacheEnts s l).unitDom = s.unitDom := rfl
@[simp] theorem cacheEnts_stEpoch (s : State) (l : List TlbEnt) : (cacheEnts s l).stEpoch = s.stEpoch := rfl
@[simp] theorem cacheEnts_rowJobs (s : State) (l : List TlbEnt) : (cacheEnts s l).rowJobs = s.rowJobs := rfl
@[simp] theorem cacheEnts_parts (s : State) (l : List TlbEnt) : (cacheEnts s l).parts = s.parts := rfl
@[simp] theorem cacheEnts_ctxs (s : State) (l : List TlbEnt) : (cacheEnts s l).ctxs = s.ctxs := rfl
@[simp] theorem cacheEnts_hwslots (s : State) (l : List TlbEnt) : (cacheEnts s l).hwslots = s.hwslots := rfl
@[simp] theorem cacheEnts_pkts (s : State) (l : List TlbEnt) : (cacheEnts s l).pkts = s.pkts := rfl
@[simp] theorem cacheEnts_qclk (s : State) (l : List TlbEnt) : (cacheEnts s l).qclk = s.qclk := rfl
@[simp] theorem cacheEnts_launches (s : State) (l : List TlbEnt) : (cacheEnts s l).launches = s.launches := rfl
@[simp] theorem cacheEnts_nextHandle (s : State) (l : List TlbEnt) : (cacheEnts s l).nextHandle = s.nextHandle := rfl
@[simp] theorem cacheEnts_teams (s : State) (l : List TlbEnt) : (cacheEnts s l).teams = s.teams := rfl
@[simp] theorem cacheEnts_pawns (s : State) (l : List TlbEnt) : (cacheEnts s l).pawns = s.pawns := rfl
@[simp] theorem cacheEnts_fetchws (s : State) (l : List TlbEnt) : (cacheEnts s l).fetchws = s.fetchws := rfl
@[simp] theorem cacheEnts_jobs (s : State) (l : List TlbEnt) : (cacheEnts s l).jobs = s.jobs := rfl
@[simp] theorem cacheEnts_jobGen (s : State) (l : List TlbEnt) : (cacheEnts s l).jobGen = s.jobGen := rfl
@[simp] theorem cacheEnts_streams (s : State) (l : List TlbEnt) : (cacheEnts s l).streams = s.streams := rfl
@[simp] theorem cacheEnts_pools (s : State) (l : List TlbEnt) : (cacheEnts s l).pools = s.pools := rfl
@[simp] theorem cacheEnts_regs (s : State) (l : List TlbEnt) : (cacheEnts s l).regs = s.regs := rfl
@[simp] theorem cacheEnts_ports (s : State) (l : List TlbEnt) : (cacheEnts s l).ports = s.ports := rfl
@[simp] theorem cacheEnts_cxl (s : State) (l : List TlbEnt) : (cacheEnts s l).cxl = s.cxl := rfl
@[simp] theorem cacheEnts_xacts (s : State) (l : List TlbEnt) : (cacheEnts s l).xacts = s.xacts := rfl
@[simp] theorem cacheEnts_posted (s : State) (l : List TlbEnt) : (cacheEnts s l).posted = s.posted := rfl
@[simp] theorem cacheEnts_irqs (s : State) (l : List TlbEnt) : (cacheEnts s l).irqs = s.irqs := rfl
@[simp] theorem cacheEnts_epoch (s : State) (l : List TlbEnt) : (cacheEnts s l).epoch = s.epoch := rfl
@[simp] theorem cacheEnts_flash (s : State) (l : List TlbEnt) : (cacheEnts s l).flash = s.flash := rfl
@[simp] theorem cacheEnts_rollmin (s : State) (l : List TlbEnt) : (cacheEnts s l).rollmin = s.rollmin := rfl
@[simp] theorem cacheEnts_tripped (s : State) (l : List TlbEnt) : (cacheEnts s l).tripped = s.tripped := rfl
@[simp] theorem cacheEnts_bootB (s : State) (l : List TlbEnt) : (cacheEnts s l).bootB = s.bootB := rfl
@[simp] theorem cacheEnts_staging (s : State) (l : List TlbEnt) : (cacheEnts s l).staging = s.staging := rfl
@[simp] theorem cacheEnts_rstat (s : State) (l : List TlbEnt) : (cacheEnts s l).rstat = s.rstat := rfl
@[simp] theorem cacheEnts_rcmd (s : State) (l : List TlbEnt) : (cacheEnts s l).rcmd = s.rcmd := rfl
@[simp] theorem cacheEnts_rtimer (s : State) (l : List TlbEnt) : (cacheEnts s l).rtimer = s.rtimer := rfl
@[simp] theorem cacheEnts_rnonce (s : State) (l : List TlbEnt) : (cacheEnts s l).rnonce = s.rnonce := rfl

/-! ## `bumpGen` -/

@[simp] theorem bumpGen_mode (s : State) (st e : Nat) : (bumpGen s st e).mode = s.mode := rfl
@[simp] theorem bumpGen_turn (s : State) (st e : Nat) : (bumpGen s st e).turn = s.turn := rfl
@[simp] theorem bumpGen_free (s : State) (st e : Nat) : (bumpGen s st e).free = s.free := rfl
@[simp] theorem bumpGen_clock (s : State) (st e : Nat) : (bumpGen s st e).clock = s.clock := rfl
@[simp] theorem bumpGen_clks (s : State) (st e : Nat) : (bumpGen s st e).clks = s.clks := rfl
@[simp] theorem bumpGen_cur (s : State) (st e : Nat) : (bumpGen s st e).cur = s.cur := rfl
@[simp] theorem bumpGen_arg (s : State) (st e : Nat) : (bumpGen s st e).arg = s.arg := rfl
@[simp] theorem bumpGen_agenda (s : State) (st e : Nat) : (bumpGen s st e).agenda = s.agenda := rfl
@[simp] theorem bumpGen_out (s : State) (st e : Nat) : (bumpGen s st e).out = s.out := rfl
@[simp] theorem bumpGen_nextId (s : State) (st e : Nat) : (bumpGen s st e).nextId = s.nextId := rfl
@[simp] theorem bumpGen_groups (s : State) (st e : Nat) : (bumpGen s st e).groups = s.groups := rfl
@[simp] theorem bumpGen_scr (s : State) (st e : Nat) : (bumpGen s st e).scr = s.scr := rfl
@[simp] theorem bumpGen_ptab (s : State) (st e : Nat) : (bumpGen s st e).ptab = s.ptab := rfl
@[simp] theorem bumpGen_ptLock (s : State) (st e : Nat) : (bumpGen s st e).ptLock = s.ptLock := rfl
@[simp] theorem bumpGen_stamps (s : State) (st e : Nat) : (bumpGen s st e).stamps = s.stamps := rfl
@[simp] theorem bumpGen_rels (s : State) (st e : Nat) : (bumpGen s st e).rels = s.rels := rfl
@[simp] theorem bumpGen_phases (s : State) (st e : Nat) : (bumpGen s st e).phases = s.phases := rfl
@[simp] theorem bumpGen_ibuf (s : State) (st e : Nat) : (bumpGen s st e).ibuf = s.ibuf := rfl
@[simp] theorem bumpGen_arrays (s : State) (st e : Nat) : (bumpGen s st e).arrays = s.arrays := rfl
@[simp] theorem bumpGen_mbx (s : State) (st e : Nat) : (bumpGen s st e).mbx = s.mbx := rfl
@[simp] theorem bumpGen_reqSeq (s : State) (st e : Nat) : (bumpGen s st e).reqSeq = s.reqSeq := rfl
@[simp] theorem bumpGen_tlb (s : State) (st e : Nat) : (bumpGen s st e).tlb = s.tlb := rfl
@[simp] theorem bumpGen_mem (s : State) (st e : Nat) : (bumpGen s st e).mem = s.mem := rfl
@[simp] theorem bumpGen_undef (s : State) (st e : Nat) : (bumpGen s st e).undef = s.undef := rfl
@[simp] theorem bumpGen_bad (s : State) (st e : Nat) : (bumpGen s st e).bad = s.bad := rfl
@[simp] theorem bumpGen_lineDom (s : State) (st e : Nat) : (bumpGen s st e).lineDom = s.lineDom := rfl
@[simp] theorem bumpGen_unitDom (s : State) (st e : Nat) : (bumpGen s st e).unitDom = s.unitDom := rfl
@[simp] theorem bumpGen_rows (s : State) (st e : Nat) : (bumpGen s st e).rows = s.rows := rfl
@[simp] theorem bumpGen_stEpoch (s : State) (st e : Nat) : (bumpGen s st e).stEpoch = s.stEpoch := rfl
@[simp] theorem bumpGen_rowJobs (s : State) (st e : Nat) : (bumpGen s st e).rowJobs = s.rowJobs := rfl
@[simp] theorem bumpGen_parts (s : State) (st e : Nat) : (bumpGen s st e).parts = s.parts := rfl
@[simp] theorem bumpGen_ctxs (s : State) (st e : Nat) : (bumpGen s st e).ctxs = s.ctxs := rfl
@[simp] theorem bumpGen_hwslots (s : State) (st e : Nat) : (bumpGen s st e).hwslots = s.hwslots := rfl
@[simp] theorem bumpGen_pkts (s : State) (st e : Nat) : (bumpGen s st e).pkts = s.pkts := rfl
@[simp] theorem bumpGen_qclk (s : State) (st e : Nat) : (bumpGen s st e).qclk = s.qclk := rfl
@[simp] theorem bumpGen_launches (s : State) (st e : Nat) : (bumpGen s st e).launches = s.launches := rfl
@[simp] theorem bumpGen_nextHandle (s : State) (st e : Nat) : (bumpGen s st e).nextHandle = s.nextHandle := rfl
@[simp] theorem bumpGen_teams (s : State) (st e : Nat) : (bumpGen s st e).teams = s.teams := rfl
@[simp] theorem bumpGen_pawns (s : State) (st e : Nat) : (bumpGen s st e).pawns = s.pawns := rfl
@[simp] theorem bumpGen_fetchws (s : State) (st e : Nat) : (bumpGen s st e).fetchws = s.fetchws := rfl
@[simp] theorem bumpGen_jobs (s : State) (st e : Nat) : (bumpGen s st e).jobs = s.jobs := rfl
@[simp] theorem bumpGen_streams (s : State) (st e : Nat) : (bumpGen s st e).streams = s.streams := rfl
@[simp] theorem bumpGen_pools (s : State) (st e : Nat) : (bumpGen s st e).pools = s.pools := rfl
@[simp] theorem bumpGen_regs (s : State) (st e : Nat) : (bumpGen s st e).regs = s.regs := rfl
@[simp] theorem bumpGen_ports (s : State) (st e : Nat) : (bumpGen s st e).ports = s.ports := rfl
@[simp] theorem bumpGen_cxl (s : State) (st e : Nat) : (bumpGen s st e).cxl = s.cxl := rfl
@[simp] theorem bumpGen_xacts (s : State) (st e : Nat) : (bumpGen s st e).xacts = s.xacts := rfl
@[simp] theorem bumpGen_posted (s : State) (st e : Nat) : (bumpGen s st e).posted = s.posted := rfl
@[simp] theorem bumpGen_irqs (s : State) (st e : Nat) : (bumpGen s st e).irqs = s.irqs := rfl
@[simp] theorem bumpGen_epoch (s : State) (st e : Nat) : (bumpGen s st e).epoch = s.epoch := rfl
@[simp] theorem bumpGen_flash (s : State) (st e : Nat) : (bumpGen s st e).flash = s.flash := rfl
@[simp] theorem bumpGen_rollmin (s : State) (st e : Nat) : (bumpGen s st e).rollmin = s.rollmin := rfl
@[simp] theorem bumpGen_tripped (s : State) (st e : Nat) : (bumpGen s st e).tripped = s.tripped := rfl
@[simp] theorem bumpGen_bootB (s : State) (st e : Nat) : (bumpGen s st e).bootB = s.bootB := rfl
@[simp] theorem bumpGen_staging (s : State) (st e : Nat) : (bumpGen s st e).staging = s.staging := rfl
@[simp] theorem bumpGen_rstat (s : State) (st e : Nat) : (bumpGen s st e).rstat = s.rstat := rfl
@[simp] theorem bumpGen_rcmd (s : State) (st e : Nat) : (bumpGen s st e).rcmd = s.rcmd := rfl
@[simp] theorem bumpGen_rtimer (s : State) (st e : Nat) : (bumpGen s st e).rtimer = s.rtimer := rfl
@[simp] theorem bumpGen_rnonce (s : State) (st e : Nat) : (bumpGen s st e).rnonce = s.rnonce := rfl

/-! ## `keepLine` -/

@[simp] theorem keepLine_mode (s : State) (core ctx line b : Nat) : (keepLine s core ctx line b).mode = s.mode := rfl
@[simp] theorem keepLine_turn (s : State) (core ctx line b : Nat) : (keepLine s core ctx line b).turn = s.turn := rfl
@[simp] theorem keepLine_free (s : State) (core ctx line b : Nat) : (keepLine s core ctx line b).free = s.free := rfl
@[simp] theorem keepLine_clock (s : State) (core ctx line b : Nat) : (keepLine s core ctx line b).clock = s.clock := rfl
@[simp] theorem keepLine_clks (s : State) (core ctx line b : Nat) : (keepLine s core ctx line b).clks = s.clks := rfl
@[simp] theorem keepLine_cur (s : State) (core ctx line b : Nat) : (keepLine s core ctx line b).cur = s.cur := rfl
@[simp] theorem keepLine_arg (s : State) (core ctx line b : Nat) : (keepLine s core ctx line b).arg = s.arg := rfl
@[simp] theorem keepLine_agenda (s : State) (core ctx line b : Nat) : (keepLine s core ctx line b).agenda = s.agenda := rfl
@[simp] theorem keepLine_out (s : State) (core ctx line b : Nat) : (keepLine s core ctx line b).out = s.out := rfl
@[simp] theorem keepLine_nextId (s : State) (core ctx line b : Nat) : (keepLine s core ctx line b).nextId = s.nextId := rfl
@[simp] theorem keepLine_groups (s : State) (core ctx line b : Nat) : (keepLine s core ctx line b).groups = s.groups := rfl
@[simp] theorem keepLine_scr (s : State) (core ctx line b : Nat) : (keepLine s core ctx line b).scr = s.scr := rfl
@[simp] theorem keepLine_ptab (s : State) (core ctx line b : Nat) : (keepLine s core ctx line b).ptab = s.ptab := rfl
@[simp] theorem keepLine_ptLock (s : State) (core ctx line b : Nat) : (keepLine s core ctx line b).ptLock = s.ptLock := rfl
@[simp] theorem keepLine_stamps (s : State) (core ctx line b : Nat) : (keepLine s core ctx line b).stamps = s.stamps := rfl
@[simp] theorem keepLine_rels (s : State) (core ctx line b : Nat) : (keepLine s core ctx line b).rels = s.rels := rfl
@[simp] theorem keepLine_phases (s : State) (core ctx line b : Nat) : (keepLine s core ctx line b).phases = s.phases := rfl
@[simp] theorem keepLine_arrays (s : State) (core ctx line b : Nat) : (keepLine s core ctx line b).arrays = s.arrays := rfl
@[simp] theorem keepLine_mbx (s : State) (core ctx line b : Nat) : (keepLine s core ctx line b).mbx = s.mbx := rfl
@[simp] theorem keepLine_reqSeq (s : State) (core ctx line b : Nat) : (keepLine s core ctx line b).reqSeq = s.reqSeq := rfl
@[simp] theorem keepLine_tlb (s : State) (core ctx line b : Nat) : (keepLine s core ctx line b).tlb = s.tlb := rfl
@[simp] theorem keepLine_mem (s : State) (core ctx line b : Nat) : (keepLine s core ctx line b).mem = s.mem := rfl
@[simp] theorem keepLine_undef (s : State) (core ctx line b : Nat) : (keepLine s core ctx line b).undef = s.undef := rfl
@[simp] theorem keepLine_bad (s : State) (core ctx line b : Nat) : (keepLine s core ctx line b).bad = s.bad := rfl
@[simp] theorem keepLine_lineDom (s : State) (core ctx line b : Nat) : (keepLine s core ctx line b).lineDom = s.lineDom := rfl
@[simp] theorem keepLine_unitDom (s : State) (core ctx line b : Nat) : (keepLine s core ctx line b).unitDom = s.unitDom := rfl
@[simp] theorem keepLine_rows (s : State) (core ctx line b : Nat) : (keepLine s core ctx line b).rows = s.rows := rfl
@[simp] theorem keepLine_stEpoch (s : State) (core ctx line b : Nat) : (keepLine s core ctx line b).stEpoch = s.stEpoch := rfl
@[simp] theorem keepLine_rowJobs (s : State) (core ctx line b : Nat) : (keepLine s core ctx line b).rowJobs = s.rowJobs := rfl
@[simp] theorem keepLine_parts (s : State) (core ctx line b : Nat) : (keepLine s core ctx line b).parts = s.parts := rfl
@[simp] theorem keepLine_ctxs (s : State) (core ctx line b : Nat) : (keepLine s core ctx line b).ctxs = s.ctxs := rfl
@[simp] theorem keepLine_hwslots (s : State) (core ctx line b : Nat) : (keepLine s core ctx line b).hwslots = s.hwslots := rfl
@[simp] theorem keepLine_pkts (s : State) (core ctx line b : Nat) : (keepLine s core ctx line b).pkts = s.pkts := rfl
@[simp] theorem keepLine_qclk (s : State) (core ctx line b : Nat) : (keepLine s core ctx line b).qclk = s.qclk := rfl
@[simp] theorem keepLine_launches (s : State) (core ctx line b : Nat) : (keepLine s core ctx line b).launches = s.launches := rfl
@[simp] theorem keepLine_nextHandle (s : State) (core ctx line b : Nat) : (keepLine s core ctx line b).nextHandle = s.nextHandle := rfl
@[simp] theorem keepLine_teams (s : State) (core ctx line b : Nat) : (keepLine s core ctx line b).teams = s.teams := rfl
@[simp] theorem keepLine_pawns (s : State) (core ctx line b : Nat) : (keepLine s core ctx line b).pawns = s.pawns := rfl
@[simp] theorem keepLine_fetchws (s : State) (core ctx line b : Nat) : (keepLine s core ctx line b).fetchws = s.fetchws := rfl
@[simp] theorem keepLine_jobs (s : State) (core ctx line b : Nat) : (keepLine s core ctx line b).jobs = s.jobs := rfl
@[simp] theorem keepLine_jobGen (s : State) (core ctx line b : Nat) : (keepLine s core ctx line b).jobGen = s.jobGen := rfl
@[simp] theorem keepLine_streams (s : State) (core ctx line b : Nat) : (keepLine s core ctx line b).streams = s.streams := rfl
@[simp] theorem keepLine_pools (s : State) (core ctx line b : Nat) : (keepLine s core ctx line b).pools = s.pools := rfl
@[simp] theorem keepLine_regs (s : State) (core ctx line b : Nat) : (keepLine s core ctx line b).regs = s.regs := rfl
@[simp] theorem keepLine_ports (s : State) (core ctx line b : Nat) : (keepLine s core ctx line b).ports = s.ports := rfl
@[simp] theorem keepLine_cxl (s : State) (core ctx line b : Nat) : (keepLine s core ctx line b).cxl = s.cxl := rfl
@[simp] theorem keepLine_xacts (s : State) (core ctx line b : Nat) : (keepLine s core ctx line b).xacts = s.xacts := rfl
@[simp] theorem keepLine_posted (s : State) (core ctx line b : Nat) : (keepLine s core ctx line b).posted = s.posted := rfl
@[simp] theorem keepLine_irqs (s : State) (core ctx line b : Nat) : (keepLine s core ctx line b).irqs = s.irqs := rfl
@[simp] theorem keepLine_epoch (s : State) (core ctx line b : Nat) : (keepLine s core ctx line b).epoch = s.epoch := rfl
@[simp] theorem keepLine_flash (s : State) (core ctx line b : Nat) : (keepLine s core ctx line b).flash = s.flash := rfl
@[simp] theorem keepLine_rollmin (s : State) (core ctx line b : Nat) : (keepLine s core ctx line b).rollmin = s.rollmin := rfl
@[simp] theorem keepLine_tripped (s : State) (core ctx line b : Nat) : (keepLine s core ctx line b).tripped = s.tripped := rfl
@[simp] theorem keepLine_bootB (s : State) (core ctx line b : Nat) : (keepLine s core ctx line b).bootB = s.bootB := rfl
@[simp] theorem keepLine_staging (s : State) (core ctx line b : Nat) : (keepLine s core ctx line b).staging = s.staging := rfl
@[simp] theorem keepLine_rstat (s : State) (core ctx line b : Nat) : (keepLine s core ctx line b).rstat = s.rstat := rfl
@[simp] theorem keepLine_rcmd (s : State) (core ctx line b : Nat) : (keepLine s core ctx line b).rcmd = s.rcmd := rfl
@[simp] theorem keepLine_rtimer (s : State) (core ctx line b : Nat) : (keepLine s core ctx line b).rtimer = s.rtimer := rfl
@[simp] theorem keepLine_rnonce (s : State) (core ctx line b : Nat) : (keepLine s core ctx line b).rnonce = s.rnonce := rfl

end Sys2Proof.Machine
end

