-- ==== Sys2Proof/Laws/Ops.lean ====
section
/-! SUPPORT. What the shared operations do: for each, the fields it may change (it leaves every other as it is), what it writes, and
that the canonical form of the stores is kept. Proofs cite these and do not unfold the operations. -/

namespace Sys2Proof.Machine
open Sys2Proof

/-! ## Lists -/

/-- A relation that a fold's every step keeps, and that chains, holds of the fold. -/
theorem foldl_rel {α : Type} (R : State → State → Prop) (refl : ∀ s, R s s) (trans : ∀ a b c, R a b → R b c → R a c)
    (f : State → α → State) (step : ∀ s a, R s (f s a)) (l : List α) (s : State) : R s (l.foldl f s) := by
  induction l generalizing s with
  | nil => exact refl s
  | cons a r ih => exact trans _ _ _ (step s a) (ih (f s a))

/-- A property that every step keeps holds after the fold. -/
theorem foldl_keeps {α β : Type} (P : β → Prop) (f : β → α → β) (step : ∀ s a, P s → P (f s a)) (l : List α) (s : β) (h : P s) :
    P (l.foldl f s) := by
  induction l generalizing s with
  | nil => exact h
  | cons a r ih => exact ih _ (step s a h)

theorem length_updAt {α : Type} (l : List α) (n : Nat) (f : α → α) : (updAt l n f).length = l.length := by
  induction l generalizing n with
  | nil => rfl
  | cons a r ih => cases n with
    | zero => rfl
    | succ n => simp [updAt, ih]

theorem getElem?_updAt {α : Type} (l : List α) (n m : Nat) (f : α → α) :
    (updAt l n f)[m]? = if m = n then (l[m]?).map f else l[m]? := by
  induction l generalizing n m with
  | nil => simp [updAt]
  | cons a r ih =>
    cases n with
    | zero => cases m with
      | zero => simp [updAt]
      | succ m => simp [updAt]
    | succ n => cases m with
      | zero => simp [updAt]
      | succ m => simp [updAt, ih]

theorem mem_updWhere {α : Type} {l : List α} {p : α → Bool} {f : α → α} {x : α} (h : x ∈ updWhere l p f) :
    ∃ a ∈ l, x = if p a then f a else a := by
  obtain ⟨a, ha, rfl⟩ := List.mem_map.1 h
  exact ⟨a, ha, rfl⟩

theorem find?_updWhere {α : Type} (l : List α) (p q : α → Bool) (f : α → α) (h : ∀ a, p a = true → q (f a) = q a) :
    (updWhere l p f).find? q = (l.find? q).map (fun a => if p a then f a else a) := by
  induction l with
  | nil => rfl
  | cons a r ih =>
    have hq : q (if p a then f a else a) = q a := by
      by_cases hp : p a = true
      · rw [if_pos hp]; exact h a hp
      · rw [if_neg hp]
    unfold updWhere at ih ⊢
    rw [List.map_cons, List.find?_cons, List.find?_cons, hq, ih]
    cases q a <;> rfl

/-! ## Groups, contexts, partitions, slots, registers -/

/-- A group put back is in its slot when the slot held one. -/
theorem groupAt_setGroup_self {s : State} {g h : Group} (hs : groupAt s g.core g.slot = some h) :
    groupAt (setGroup s g) g.core g.slot = some g := by
  unfold groupAt setGroup at *
  have hf : ∀ l : List Group, l.find? (fun x => x.core = g.core && x.slot = g.slot) = some h →
      (updWhere l (fun x => x.core = g.core && x.slot = g.slot) (fun _ => g)).find? (fun x => x.core = g.core && x.slot = g.slot) = some g := by
    intro l hl
    rw [find?_updWhere, hl]
    · have := List.find?_some hl
      simp only [Option.map_some, this, if_true]
    · intro a ha; simp only [decide_true, Bool.and_self, ha]
  exact hf _ hs

theorem groupAt_setGroup_other (s : State) (g : Group) {c k : Nat} (h : (c, k) ≠ (g.core, g.slot)) :
    groupAt (setGroup s g) c k = groupAt s c k := by
  have hne : ∀ a : Group, (decide (a.core = g.core) && decide (a.slot = g.slot)) = true →
      (decide (a.core = c) && decide (a.slot = k)) = false := by
    intro a ha
    simp only [Bool.and_eq_true, decide_eq_true_eq] at ha
    rw [Bool.eq_false_iff]
    intro hc
    simp only [Bool.and_eq_true, decide_eq_true_eq] at hc
    exact h (by rw [← hc.1, ← hc.2, ha.1, ha.2])
  have hg : (decide (g.core = c) && decide (g.slot = k)) = false := by
    rw [Bool.eq_false_iff]
    intro hc
    simp only [Bool.and_eq_true, decide_eq_true_eq] at hc
    exact h (by rw [hc.1, hc.2])
  unfold groupAt setGroup
  simp only
  rw [find?_updWhere _ _ _ _ (fun a ha => by rw [hg, hne a ha])]
  cases hf : s.groups.find? (fun x => x.core = c && x.slot = k) with
  | none => rfl
  | some a =>
    have ha := List.find?_some hf
    have : (decide (a.core = g.core) && decide (a.slot = g.slot)) = false := by
      rw [Bool.eq_false_iff]
      intro hc
      rw [hne a hc] at ha
      cases ha
    rw [Option.map_some, this]
    rfl

/-- A context after an update that keeps its id. -/
theorem ctxOf_updCtx (s : State) (id k : Nat) (f : Ctx → Ctx) (hf : ∀ c, (f c).id = c.id) :
    ctxOf (updCtx s id f) k = (ctxOf s k).map (fun c => if c.id = id then f c else c) := by
  unfold ctxOf updCtx
  simp only
  rw [find?_updWhere _ _ _ _ (fun a _ => by rw [hf])]
  simp

theorem slotAt_updSlot (s : State) (k m : Nat) (f : HwSlot → HwSlot) (h : k < s.hwslots.length) :
    slotAt (updSlot s k f) m = if m = k then f (slotAt s m) else slotAt s m := by
  unfold slotAt updSlot
  simp only [List.getD_eq_getElem?_getD, getElem?_updAt]
  split
  · rename_i hm; subst hm; simp [h]
  · rfl

theorem partOf_updPart (s : State) (p q : Nat) (f : Part → Part) (h : p < s.parts.length) :
    partOf (updPart s p f) q = if q = p then f (partOf s q) else partOf s q := by
  unfold partOf updPart
  simp only [List.getD_eq_getElem?_getD, getElem?_updAt]
  split
  · rename_i hm; subst hm; simp [h]
  · rfl

/-- A register reads as it was last written. -/
theorem regVal_regPut {s : State} (h : SMap.wf 0 s.regs = true) (a b : Nat) (v : W64) :
    regVal (regPut s a v) b = if b = a then v else regVal s b := by
  unfold regVal regPut
  simp only
  rw [SMap.get_put h]
  split
  · rename_i hb; subst hb; rw [BitVec.xor_assoc, BitVec.xor_self, BitVec.xor_zero]
  · rfl

theorem rowGet_rowPut {s : State} (h : SMap.wf default s.rows = true) (k j : Nat) (r : RowSlot) :
    rowGet (rowPut s k r) j = if j = k then r else rowGet s j := SMap.get_put h k j r

/-! ## What each operation may change -/

theorem enqueueOnce_frame (s : State) (i : Instr) (a : Arg) : ∃ ag, enqueueOnce s i a = { s with agenda := ag } := by
  unfold enqueueOnce
  split
  · exact ⟨s.agenda, rfl⟩
  · exact ⟨_, rfl⟩

/-- Moving on changes the group's slot and makes its retirement due when it has ended. -/
theorem putMoved_frame (s : State) (g : Group) : ∃ gs ag, putMoved s g = { s with groups := gs, agenda := ag } := by
  unfold putMoved
  split
  · split
    · exact ⟨_, _, rfl⟩
    · exact ⟨_, _, rfl⟩
  · exact ⟨_, s.agenda, rfl⟩

theorem finish_frame (s : State) (g : Group) : ∃ gs ag, finish s g = { s with groups := gs, agenda := ag } := putMoved_frame _ _
theorem finishAt_frame (s : State) (g : Group) (pc : W64) (land : Option W64) :
    ∃ gs ag, finishAt s g pc land = { s with groups := gs, agenda := ag } := putMoved_frame _ _
theorem stallOf_frame (s : State) (g : Group) : ∃ gs, stallOf s g = { s with groups := gs } := ⟨_, rfl⟩

/-- A halt line raised: the context, its partition, and the stop that is due. -/
theorem raiseLine_frame (s : State) (ctx : Nat) (r : FaultRec) :
    ∃ cs ps ag, raiseLine s ctx r = { s with ctxs := cs, parts := ps, agenda := ag } := by
  obtain ⟨ag, h⟩ := enqueueOnce_frame (updPart (updCtx s ctx (fun c => { c with line := true, faults := c.faults ++ [r] }))
    (partOfCtx s ctx) (fun p => { p with halt := true })) .contextStopped { ctx := ctx }
  exact ⟨_, _, ag, h⟩

/-! ## Promotion state (R17, R403 to R408) -/

/-- What a request at a row changes: the slots of the subarrays, in canonical form, and the copies that are due. -/
def RowsOnly (s t : State) : Prop :=
  ∃ rw ag, t = { s with rows := rw, agenda := ag } ∧ (SMap.wf default s.rows = true → SMap.wf default rw = true)

theorem RowsOnly.refl (s : State) : RowsOnly s s := ⟨s.rows, s.agenda, rfl, id⟩
theorem RowsOnly.trans (a b c : State) (h : RowsOnly a b) (k : RowsOnly b c) : RowsOnly a c := by
  obtain ⟨_, _, rfl, h⟩ := h
  obtain ⟨_, _, rfl, k⟩ := k
  exact ⟨_, _, rfl, fun w => k (h w)⟩
theorem RowsOnly.frame {s t : State} (h : RowsOnly s t) : ∃ rw ag, t = { s with rows := rw, agenda := ag } := by
  obtain ⟨rw', ag, e, _⟩ := h; exact ⟨rw', ag, e⟩
theorem rowTouch_frame {s t : State} (h : RowsOnly s t) : t.mem = s.mem ∧ t.regs = s.regs := by
  obtain ⟨_, _, rfl, _⟩ := h; exact ⟨rfl, rfl⟩

theorem rowPut_rows (s : State) (k : Nat) (r : RowSlot) : RowsOnly s (rowPut s k r) := ⟨_, s.agenda, rfl, fun h => SMap.wf_put h _ _⟩
theorem promoteInto_rows (s : State) (st k row : Nat) (pin : Bool) : RowsOnly s (promoteInto s st k row pin) :=
  ⟨_, _, rfl, fun h => SMap.wf_put h _ _⟩
theorem writeBack_rows (s : State) (st k : Nat) (next : Option (Nat × Bool)) : RowsOnly s (writeBack s st k next) :=
  ⟨_, _, rfl, fun h => SMap.wf_put h _ _⟩
theorem promote_rows (s : State) (st o age : Nat) (q : RowReq) : RowsOnly s (promote s st o age q) := by
  unfold promote
  split
  · exact .refl s
  · simp only
    split_ifs
    · exact rowPut_rows ..
    · exact writeBack_rows ..
    · exact promoteInto_rows ..
theorem slotAct_rows (s : State) (st k : Nat) (c : RowCmd) : RowsOnly s (slotAct s st k c) := by
  cases c <;> simp only [slotAct]
  case dem =>
    split_ifs
    · exact .refl s
    · exact writeBack_rows ..
    · exact rowPut_rows ..
  all_goals exact rowPut_rows ..
theorem rowAct_rows (s : State) (st : Nat) (q : RowReq) : RowsOnly s (rowAct s st q) := by
  unfold rowAct
  simp only
  split
  · split
    · exact rowPut_rows ..
    · exact slotAct_rows ..
  · split
    · exact promote_rows ..
    · exact promote_rows ..
    · exact .refl s
    · exact .refl s
    all_goals
      split
      · exact promote_rows ..
      · exact promote_rows ..
      · exact .refl s

/-- An access changes promotion state alone. -/
theorem touchRow_rows (s : State) (pa : Nat) (w : Bool) (lat : Nat) : RowsOnly s (touchRow s pa w lat) := by
  unfold touchRow
  split
  · exact .refl s
  · exact rowAct_rows ..
theorem touchRows_rows (s : State) (pa n : Nat) (w : Bool) (lat : Nat) : RowsOnly s (touchRows s pa n w lat) := by
  unfold touchRows
  split
  · exact .refl s
  · exact foldl_rel RowsOnly .refl .trans _ (fun s i => touchRow_rows s _ w lat) _ s
theorem walkTouch_rows (s : State) (l : List TlbEnt) : RowsOnly s (walkTouch s l) :=
  foldl_rel RowsOnly .refl .trans _ (fun s _ => foldl_rel RowsOnly .refl .trans _ (fun s a => touchRow_rows s a false 2) _ s) _ s

theorem healLine_frame (s : State) (line : Nat) : ∃ bd ld, healLine s line = { s with bad := bd, lineDom := ld } := ⟨_, _, rfl⟩

theorem healLines_frame (s : State) (l : List Nat) : ∃ bd ld, l.foldl healLine s = { s with bad := bd, lineDom := ld } := by
  refine foldl_rel (fun s t => ∃ bd ld, t = { s with bad := bd, lineDom := ld }) (fun s => ⟨s.bad, s.lineDom, rfl⟩) ?_ _ healLine_frame l s
  rintro a b c ⟨_, _, rfl⟩ ⟨_, _, rfl⟩
  exact ⟨_, _, rfl⟩

/-- A write of device memory: its bytes, what it makes defined and verified, and its rows' promotion state. -/
theorem dramPut_frame (s : State) (pa : Nat) (b : List Byte) (lat : Nat) :
    ∃ bd ld rw ag, dramPut s pa b lat = { s with mem := memPut s.mem pa b, undef := cutUndef s.undef pa b.length, bad := bd, lineDom := ld, rows := rw, agenda := ag } := by
  unfold dramPut
  obtain ⟨bd, ld, h⟩ := healLines_frame { s with mem := memPut s.mem pa b, undef := cutUndef s.undef pa b.length } (fullLines pa b.length)
  simp only [h]
  obtain ⟨rw', ag, h2⟩ := (touchRows_rows { s with mem := memPut s.mem pa b, undef := cutUndef s.undef pa b.length, bad := bd, lineDom := ld }
    pa b.length true lat).frame
  exact ⟨_, _, rw', ag, h2⟩

/-- A watched write raises halt lines, and nothing else (R389). -/
theorem watch_frame (s : State) (ctx : Nat) (scratch : Bool) (a : Nat) (b : List Byte) (wr : Writer) :
    ∃ cs ps ag, watch s ctx scratch a b wr = { s with ctxs := cs, parts := ps, agenda := ag } := by
  unfold watch
  split
  · exact ⟨s.ctxs, s.parts, s.agenda, rfl⟩
  · simp only
    refine foldl_rel (fun s t => ∃ cs ps ag, t = { s with ctxs := cs, parts := ps, agenda := ag }) (fun s => ⟨s.ctxs, s.parts, s.agenda, rfl⟩)
      ?_ _ ?_ _ s
    · rintro a b c ⟨_, _, _, rfl⟩ ⟨_, _, _, rfl⟩
      exact ⟨_, _, _, rfl⟩
    · intro s w
      generalize (if scratch = true then _ else _) = va
      split_ifs
      · obtain ⟨cs, ps, ag, h⟩ := raiseLine_frame (updCtx s ctx (fun c => { c with wpHit := c.wpHit ++ [w] })) ctx _
        exact ⟨cs, ps, ag, h⟩
      · exact ⟨s.ctxs, s.parts, s.agenda, rfl⟩

/-- A write noticed makes steps due. -/
theorem notice_frame (s : State) : ∃ ag, notice s = { s with agenda := ag } := by
  have refl : ∀ s : State, ∃ ag, s = { s with agenda := ag } := fun s => ⟨s.agenda, rfl⟩
  have trans : ∀ a b c : State, (∃ ag, b = { a with agenda := ag }) → (∃ ag, c = { b with agenda := ag }) → ∃ ag, c = { a with agenda := ag } := by
    rintro a b c ⟨_, rfl⟩ ⟨_, rfl⟩
    exact ⟨_, rfl⟩
  unfold notice
  refine trans _ _ _ ?_ (foldl_rel (fun s t => ∃ ag, t = { s with agenda := ag }) refl trans _ ?_ _ _)
  · refine foldl_rel (fun s t => ∃ ag, t = { s with agenda := ag }) refl trans _ ?_ _ _
    intro s p
    split
    · exact enqueueOnce_frame _ _ _
    · exact refl s
  · intro s t
    refine trans _ _ _ (enqueueOnce_frame s .ingressPoll { lh := t.lh }) ?_
    exact foldl_rel (fun s t => ∃ ag, t = { s with agenda := ag }) refl trans _ (fun s r => enqueueOnce_frame _ _ _) _ _

/-- A write of device memory for a context: the bytes, and what they make due. -/
theorem dramWrite_frame (s : State) (ctx pa lat : Nat) (b : List Byte) (wr : Writer) :
    ∃ bd ld rw cs ps ag, dramWrite s ctx pa lat b wr = { s with mem := memPut s.mem pa b, undef := cutUndef s.undef pa b.length, bad := bd, lineDom := ld, rows := rw, ctxs := cs, parts := ps, agenda := ag } := by
  unfold dramWrite
  obtain ⟨bd, ld, rw', ag1, h1⟩ := dramPut_frame s pa b lat
  rw [h1]
  obtain ⟨ag2, h2⟩ := notice_frame { s with mem := memPut s.mem pa b, undef := cutUndef s.undef pa b.length, bad := bd, lineDom := ld, rows := rw', agenda := ag1 }
  rw [h2]
  obtain ⟨cs, ps, ag, h3⟩ := watch_frame { s with mem := memPut s.mem pa b, undef := cutUndef s.undef pa b.length, bad := bd, lineDom := ld, rows := rw', agenda := ag2 } ctx false pa b wr
  exact ⟨_, _, _, cs, ps, ag, h3⟩

/-- A write of scratchpad for a context. -/
theorem scrWrite_frame (s : State) (ctx a : Nat) (b : List Byte) (wr : Writer) :
    ∃ cs ps ag, scrWrite s ctx a b wr = { s with scr := memPut s.scr a b, ctxs := cs, parts := ps, agenda := ag } :=
  watch_frame { s with scr := memPut s.scr a b } ctx true a b wr

theorem stampClear_frame (s : State) (a n : Nat) : ∃ st, stampClear s a n = { s with stamps := st } := by
  unfold stampClear
  refine foldl_rel (fun s t => ∃ st, t = { s with stamps := st }) (fun s => ⟨s.stamps, rfl⟩) ?_ _ ?_ _ _
  · rintro a b c ⟨_, rfl⟩ ⟨_, rfl⟩
    exact ⟨_, rfl⟩
  · intro s sec
    split
    · exact ⟨s.stamps, rfl⟩
    · exact ⟨_, rfl⟩

theorem stampWrite_frame (s : State) (g : Group) (a n : Nat) : ∃ st, stampWrite s g a n = { s with stamps := st } := by
  unfold stampWrite
  split
  · exact ⟨s.stamps, rfl⟩
  · split
    · exact ⟨s.stamps, rfl⟩
    · refine foldl_rel (fun s t => ∃ st, t = { s with stamps := st }) (fun s => ⟨s.stamps, rfl⟩) ?_ _ (fun s sec => ⟨_, rfl⟩) _ _
      rintro a b c ⟨_, rfl⟩ ⟨_, rfl⟩
      exact ⟨_, rfl⟩

/-- An engine's writes of scratchpad and of device memory. -/
theorem agentScr_frame (s : State) (ctx a : Nat) (b : List Byte) (wr : Writer) (rs : List Rel) :
    ∃ cs ps ag st rl, agentScr s ctx a b wr rs = { s with scr := memPut s.scr a b, ctxs := cs, parts := ps, agenda := ag, stamps := st, rels := rl } := by
  unfold agentScr
  obtain ⟨cs, ps, ag, h⟩ := scrWrite_frame s ctx a b wr
  rw [h]
  obtain ⟨st, h2⟩ := stampClear_frame { s with scr := memPut s.scr a b, ctxs := cs, parts := ps, agenda := ag } a b.length
  rw [h2]
  exact ⟨cs, ps, ag, st, _, rfl⟩

theorem agentDram_frame (s : State) (ctx pa lat : Nat) (b : List Byte) (wr : Writer) (rs : List Rel) :
    ∃ bd ld rw cs ps ag rl, agentDram s ctx pa lat b wr rs = { s with mem := memPut s.mem pa b, undef := cutUndef s.undef pa b.length, bad := bd, lineDom := ld, rows := rw, ctxs := cs, parts := ps, agenda := ag, rels := rl } := by
  unfold agentDram
  obtain ⟨bd, ld, rw', cs, ps, ag, h⟩ := dramWrite_frame s ctx pa lat b wr
  rw [h]
  exact ⟨bd, ld, rw', cs, ps, ag, _, rfl⟩

/-- What an agent's store may change: device memory in canonical form, what its writes make due, the translations it used, and the
requests it sends to other devices. -/
def StoreChanges (s t : State) : Prop :=
  ∃ m ud bd ld rw cs ps ag rl tl xs o n, t = { s with mem := m, undef := ud, bad := bd, lineDom := ld, rows := rw, ctxs := cs, parts := ps, agenda := ag, rels := rl, tlb := tl, xacts := xs, out := o, nextId := n } ∧ (Memory.wf s.mem = true → Memory.wf m = true)

theorem StoreChanges.refl (s : State) : StoreChanges s s := ⟨_, _, _, _, _, _, _, _, _, _, _, _, _, rfl, id⟩
theorem StoreChanges.trans (a b c : State) (h : StoreChanges a b) (k : StoreChanges b c) : StoreChanges a c := by
  obtain ⟨_, _, _, _, _, _, _, _, _, _, _, _, _, rfl, h⟩ := h
  obtain ⟨_, _, _, _, _, _, _, _, _, _, _, _, _, rfl, k⟩ := k
  exact ⟨_, _, _, _, _, _, _, _, _, _, _, _, _, rfl, fun w => k (h w)⟩

/-- A transaction sent is outstanding, and goes out where its window has room. -/
theorem sendXact_frame (s : State) (x : Xact) : ∃ xs o, sendXact s x = { s with xacts := xs, out := o } := by
  unfold sendXact
  simp only
  split_ifs
  · exact ⟨_, _, rfl⟩
  · exact ⟨_, s.out, rfl⟩
theorem ok_sendXact {s : State} (h : s.ok = true) (x : Xact) : (sendXact s x).ok = true := by
  obtain ⟨_, _, e⟩ := sendXact_frame s x
  rw [e]; exact h

theorem storeRun_frame (s : State) (ctx va : Nat) (loc : Loc) (b : List Byte) (wr : Writer) (rs : List Rel) :
    StoreChanges s (storeRun s ctx va loc b wr rs) := by
  unfold storeRun
  split
  · rename_i pa lat _
    obtain ⟨bd, ld, rw', cs, ps, ag, rl, h⟩ := agentDram_frame s ctx pa lat b wr rs
    exact ⟨_, _, bd, ld, rw', cs, ps, ag, rl, _, _, _, _, h, fun w => Memory.wf_memPut w _ _⟩
  · split
    · obtain ⟨_, _, h⟩ := sendXact_frame (freshTag s).1 _
      exact ⟨s.mem, s.undef, s.bad, s.lineDom, s.rows, s.ctxs, s.parts, s.agenda, s.rels, s.tlb, _, _, _, h, id⟩
    · exact .refl s
  · exact .refl s

/-- An agent's store: bytes of local pages, and requests to the devices whose pages the others are. -/
theorem agentStore_frame {s t : State} {buf ctx va : Nat} {b : List Byte} {wr : Writer} {rs : List Rel}
    (h : agentStore s buf ctx va b wr rs = .ok t) : StoreChanges s t := by
  unfold agentStore at h
  simp only at h
  split at h
  · cases h
  · cases h
    refine .trans _ _ _ ?_ (foldl_rel StoreChanges .refl .trans _ (fun s p => storeRun_frame s ..) _ _)
    exact ⟨_, _, _, _, _, _, _, _, _, _, _, _, _, rfl, id⟩

/-- An entry of a partition's error log (R456): its count, and 128 bytes where the log is on. -/
theorem elog_frame (s : State) (p kind unit ctx addr aux : Nat) (tail : List Byte) :
    ∃ m ud bd ld rw ag v, elog s p kind unit ctx addr aux tail = { s with mem := m, undef := ud, bad := bd, lineDom := ld, rows := rw, agenda := ag, regs := SMap.put 0 s.regs (regPart p 0xB8) v } ∧ (Memory.wf s.mem = true → Memory.wf m = true) := by
  unfold elog
  simp only
  split
  · obtain ⟨bd, ld, rw', ag, h⟩ := dramPut_frame (regPut s (regPart p 0xB8) (BitVec.ofNat 64 ((regVal s (regPart p 0xB8)).toNat + 1)))
      ((regVal s (regPart p 0xF8)).toNat % 2 ^ 41 + 128 * ((regVal s (regPart p 0xB8)).toNat % 512))
      (leBytes 2 kind ++ leBytes 2 unit ++ leBytes 4 ctx ++ leBytes 8 s.clock.toNat
        ++ leBytes 8 addr ++ leBytes 8 aux ++ leBytes 32 0 ++ (tail ++ leBytes 64 0).take 64) 2
    exact ⟨_, _, bd, ld, rw', ag, _, h, fun hw => Memory.wf_memPut hw _ _⟩
  · exact ⟨s.mem, s.undef, s.bad, s.lineDom, s.rows, s.agenda, _, rfl, id⟩

/-- Taking a fault of a group that is no tailor's (R386): the group, its context and its partition's halt line. -/
theorem takeFault_frame (s : State) (g : Group) (f : Flt) (h : g.kind ≠ .tailor) :
    ∃ gs cs ps ag, takeFault s g f = { s with groups := gs, ctxs := cs, parts := ps, agenda := ag } := by
  unfold takeFault
  simp only [if_neg h]
  obtain ⟨cs, ps, ag, h2⟩ := raiseLine_frame
    (setGroup s (savedAt (stopAt g (restartPc g)) (g.iss.head.isSome || g.iss.restart.isSome || g.unit.isSome))) g.ctx (groupRec g f (restartPc g))
  exact ⟨_, cs, ps, ag, h2⟩

/-- A tailor's fault stops its group and is logged (R160). -/
theorem stopTailor_frame (s : State) (g : Group) (r : FaultRec) :
    ∃ gs m ud bd ld rw ag rs o, stopTailor s g r = { s with groups := gs, mem := m, undef := ud, bad := bd, lineDom := ld, rows := rw, agenda := ag, regs := rs, out := o } ∧ (Memory.wf s.mem = true → Memory.wf m = true) ∧ (SMap.wf 0 s.regs = true → SMap.wf 0 rs = true) := by
  unfold stopTailor
  obtain ⟨m, ud, bd, ld, rw', ag, v, h2, hm⟩ := elog_frame
    (setGroup s { stopAt g (restartPc g) with live := 0, em := 0, st := .ending, loads := [] })
    ((partOfField s (coreField g.core)).getD 0) 1 g.core 0 0 r.reason (stopRecord s g.core 0 g.slot r)
  exact ⟨_, m, ud, bd, ld, rw', ag, _, _, by simp only [h2]; rfl, hm, fun hw => SMap.wf_put hw _ _⟩
theorem takeFault_tailor_frame (s : State) (g : Group) (f : Flt) (h : g.kind = .tailor) :
    ∃ gs m ud bd ld rw ag rs o, takeFault s g f = { s with groups := gs, mem := m, undef := ud, bad := bd, lineDom := ld, rows := rw, agenda := ag, regs := rs, out := o } ∧ (Memory.wf s.mem = true → Memory.wf m = true) ∧ (SMap.wf 0 s.regs = true → SMap.wf 0 rs = true) := by
  unfold takeFault
  simp only [if_pos h]
  exact stopTailor_frame ..

theorem takeFault_hwslots (s : State) (g : Group) (f : Flt) : (takeFault s g f).hwslots = s.hwslots := by
  by_cases h : g.kind = .tailor
  · obtain ⟨_, _, _, _, _, _, _, _, _, e, _⟩ := takeFault_tailor_frame s g f h
    rw [e]
  · obtain ⟨_, _, _, _, e⟩ := takeFault_frame s g f h
    rw [e]
theorem placeTeam_hwslots (s : State) (l : Launch) (k : GKind) (t nb : Nat) (sp : Spot) (n : Seg) :
    (placeTeam s l k t nb sp n).hwslots = s.hwslots := by
  unfold placeTeam
  refine foldl_keeps (fun u : State => u.hwslots = s.hwslots) _ (fun u p h => ?_) _ _ ?_
  · unfold checkEntry
    split
    · split
      · exact h
      · rw [takeFault_hwslots]; exact h
      · exact h
    · exact h
  · refine foldl_keeps (fun u : State => u.hwslots = s.hwslots) _ (fun u p h => ?_) _ _ rfl
    unfold clearScr
    exact h

/-! ## The canonical form is kept -/

/-- A state with the same stores and banks of the same sizes. -/
theorem State.ok_of_eq {s t : State} (h : s.ok = true) (hm : t.mem = s.mem) (hs : t.scr = s.scr) (hp : t.ptab = s.ptab) (hr : t.regs = s.regs)
    (hw : t.rows = s.rows) (he : t.stEpoch = s.stEpoch) (hf : t.flash = s.flash) (hg : t.staging = s.staging)
    (h1 : t.parts.length = s.parts.length) (h2 : t.hwslots.length = s.hwslots.length) (h3 : t.ports.length = s.ports.length) : t.ok = true := by
  unfold State.ok at *
  rw [hm, hs, hp, hr, hw, he, hf, hg, h1, h2, h3]
  exact h

theorem ok_setGroup {s : State} (h : s.ok = true) (g : Group) : (setGroup s g).ok = true := h
theorem ok_enqueue {s : State} (h : s.ok = true) (i : Instr) (a : Arg) : (enqueue s i a).ok = true := h
theorem ok_emit {s : State} (h : s.ok = true) (o : Out) : (emit s o).ok = true := h
theorem ok_updCtx {s : State} (h : s.ok = true) (id : Nat) (f : Ctx → Ctx) : (updCtx s id f).ok = true := h
theorem ok_updTeam {s : State} (h : s.ok = true) (id : Nat) (f : Team → Team) : (updTeam s id f).ok = true := h
theorem ok_updLaunch {s : State} (h : s.ok = true) (lh : W32) (f : Launch → Launch) : (updLaunch s lh f).ok = true := h
theorem ok_putJob {s : State} (h : s.ok = true) (j : Job) : (putJob s j).ok = true := h
theorem ok_agentWrote {s : State} (h : s.ok = true) (k n : Nat) (rmw : Bool) (rs : List Rel) : (agentWrote s k n rmw rs).ok = true := h
theorem ok_noteWrite {s : State} (h : s.ok = true) (g : Group) (k n : Nat) (rmw : Bool) (rel : Option Nat) :
    (noteWrite s g k n rmw rel).ok = true := h
theorem ok_notePhase {s : State} (h : s.ok = true) (ba : Nat) (ph : BitVec 16) (vc : SMap Nat) : (notePhase s ba ph vc).ok = true := h

theorem ok_updPart {s : State} (h : s.ok = true) (p : Nat) (f : Part → Part) : (updPart s p f).ok = true :=
  State.ok_of_eq h rfl rfl rfl rfl rfl rfl rfl rfl (length_updAt ..) rfl rfl
theorem ok_updSlot {s : State} (h : s.ok = true) (k : Nat) (f : HwSlot → HwSlot) : (updSlot s k f).ok = true :=
  State.ok_of_eq h rfl rfl rfl rfl rfl rfl rfl rfl rfl (length_updAt ..) rfl
theorem ok_updPort {s : State} (h : s.ok = true) (n : Nat) (f : LPort → LPort) : (updPort s n f).ok = true :=
  State.ok_of_eq h rfl rfl rfl rfl rfl rfl rfl rfl rfl rfl (length_updAt ..)

/-- The parts of `State.ok`. -/
theorem State.ok_iff (s : State) : s.ok = true ↔ Memory.wf s.mem = true ∧ Memory.wf s.scr = true ∧ SMap.wf 0 s.ptab = true
    ∧ SMap.wf 0 s.regs = true ∧ SMap.wf default s.rows = true ∧ SMap.wf 0 s.stEpoch = true ∧ Memory.wf s.flash = true
    ∧ Memory.wf s.staging = true ∧ s.parts.length = 8 ∧ s.hwslots.length = 64 ∧ s.ports.length = 16 := by
  simp [State.ok, and_assoc]

theorem ok_regPut {s : State} (h : s.ok = true) (a : Nat) (v : W64) : (regPut s a v).ok = true := by
  obtain ⟨h1, h2, h3, h4, h5⟩ := (State.ok_iff s).1 h
  exact (State.ok_iff _).2 ⟨h1, h2, h3, SMap.wf_put h4 _ _, h5⟩
theorem ok_rowPut {s : State} (h : s.ok = true) (k : Nat) (r : RowSlot) : (rowPut s k r).ok = true := by
  obtain ⟨h1, h2, h3, h4, h5, h6⟩ := (State.ok_iff s).1 h
  exact (State.ok_iff _).2 ⟨h1, h2, h3, h4, SMap.wf_put h5 _ _, h6⟩
theorem ok_withScr {s : State} (h : s.ok = true) {m : Memory} (hm : Memory.wf m = true) : ({ s with scr := m } : State).ok = true := by
  obtain ⟨h1, _, h3⟩ := (State.ok_iff s).1 h
  exact (State.ok_iff _).2 ⟨h1, hm, h3⟩
theorem ok_withMem {s : State} (h : s.ok = true) {m : Memory} (hm : Memory.wf m = true) : ({ s with mem := m } : State).ok = true := by
  obtain ⟨_, h2⟩ := (State.ok_iff s).1 h
  exact (State.ok_iff _).2 ⟨hm, h2⟩
theorem wf_scr {s : State} (h : s.ok = true) : Memory.wf s.scr = true := ((State.ok_iff s).1 h).2.1
theorem wf_mem {s : State} (h : s.ok = true) : Memory.wf s.mem = true := ((State.ok_iff s).1 h).1
theorem ok_scrPut {s : State} (h : s.ok = true) (a n x : Nat) : (scrPut s a n x).ok = true :=
  ok_withScr h (Memory.wf_memPutVal (wf_scr h) a n x)
theorem ok_barPut {s : State} (h : s.ok = true) (ba : Nat) (b : Barrier) : (barPut s ba b).ok = true :=
  ok_withScr h (Memory.wf_memPut (wf_scr h) ba _)

theorem ok_enqueueOnce {s : State} (h : s.ok = true) (i : Instr) (a : Arg) : (enqueueOnce s i a).ok = true := by
  obtain ⟨_, e⟩ := enqueueOnce_frame s i a
  rw [e]; exact h
theorem ok_putMoved {s : State} (h : s.ok = true) (g : Group) : (putMoved s g).ok = true := by
  obtain ⟨_, _, e⟩ := putMoved_frame s g
  rw [e]; exact h
theorem ok_finish {s : State} (h : s.ok = true) (g : Group) : (finish s g).ok = true := ok_putMoved h _
theorem ok_finishAt {s : State} (h : s.ok = true) (g : Group) (pc : W64) (land : Option W64) : (finishAt s g pc land).ok = true :=
  ok_putMoved h _
theorem ok_stallOf {s : State} (h : s.ok = true) (g : Group) : (stallOf s g).ok = true := h
theorem ok_raiseLine {s : State} (h : s.ok = true) (ctx : Nat) (r : FaultRec) : (raiseLine s ctx r).ok = true := by
  unfold raiseLine
  exact ok_enqueueOnce (ok_updPart (ok_updCtx h ctx _) _ _) _ _

/-- A change of promotion state keeps every store. -/
theorem RowsOnly.ok {s t : State} (h : RowsOnly s t) (hs : s.ok = true) : t.ok = true := by
  obtain ⟨_, _, rfl, hw⟩ := h
  obtain ⟨h1, h2, h3, h4, h5, h6⟩ := (State.ok_iff s).1 hs
  exact (State.ok_iff _).2 ⟨h1, h2, h3, h4, hw h5, h6⟩
theorem ok_promote {s : State} (h : s.ok = true) (st o age : Nat) (q : RowReq) : (promote s st o age q).ok = true :=
  (promote_rows ..).ok h
theorem ok_touchRow {s : State} (h : s.ok = true) (pa : Nat) (w : Bool) (lat : Nat) : (touchRow s pa w lat).ok = true :=
  (touchRow_rows ..).ok h
theorem ok_touchRows {s : State} (h : s.ok = true) (pa n : Nat) (w : Bool) (lat : Nat) : (touchRows s pa n w lat).ok = true :=
  (touchRows_rows ..).ok h
theorem ok_unitTouch {s : State} (h : s.ok = true) (loc : Loc) (n : Nat) : (unitTouch s loc n).ok = true := by
  unfold unitTouch
  split
  · exact ok_touchRows h ..
  · split
    · exact h
    · exact h
  · exact h
theorem ok_cacheEnts {s : State} (h : s.ok = true) (l : List TlbEnt) : (cacheEnts s l).ok = true := by
  obtain ⟨h1, h2, h3, h4, _, h6⟩ := (State.ok_iff s).1 h
  have h5 : (((descReads s l).foldl (fun s d => unitTouch s d.2 64)
      (walkTouch s (l ++ (descReads s l).map (fun d => d.1)))).ok) = true :=
    foldl_keeps (fun s => State.ok s = true) _ (fun s d hs => ok_unitTouch hs ..) _ _ ((walkTouch_rows ..).ok h)
  exact (State.ok_iff _).2 ⟨h1, h2, h3, h4, ((State.ok_iff _).1 h5).2.2.2.2.1, h6⟩
theorem ok_dramPut {s : State} (h : s.ok = true) (pa : Nat) (b : List Byte) (lat : Nat) : (dramPut s pa b lat).ok = true := by
  unfold dramPut
  have h1 : ((fullLines pa b.length).foldl healLine { s with mem := memPut s.mem pa b, undef := cutUndef s.undef pa b.length }).ok = true := by
    obtain ⟨_, _, e⟩ := healLines_frame { s with mem := memPut s.mem pa b, undef := cutUndef s.undef pa b.length } (fullLines pa b.length)
    rw [e]
    exact ok_withMem h (Memory.wf_memPut (wf_mem h) pa b)
  exact (touchRows_rows ..).ok h1
theorem ok_watch {s : State} (h : s.ok = true) (ctx : Nat) (scratch : Bool) (a : Nat) (b : List Byte) (wr : Writer) :
    (watch s ctx scratch a b wr).ok = true := by
  unfold watch
  split
  · exact h
  · simp only
    refine foldl_keeps (fun s => State.ok s = true) _ ?_ _ s h
    intro s w hs
    generalize (if scratch = true then _ else _) = va
    split_ifs
    · exact ok_raiseLine (ok_updCtx hs ctx _) _ _
    · exact hs
theorem ok_notice {s : State} (h : s.ok = true) : (notice s).ok = true := by
  obtain ⟨_, e⟩ := notice_frame s
  rw [e]; exact h
theorem ok_dramWrite {s : State} (h : s.ok = true) (ctx pa lat : Nat) (b : List Byte) (wr : Writer) : (dramWrite s ctx pa lat b wr).ok = true :=
  ok_watch (ok_notice (ok_dramPut h pa b lat)) ctx false pa b wr
theorem ok_scrWrite {s : State} (h : s.ok = true) (ctx a : Nat) (b : List Byte) (wr : Writer) : (scrWrite s ctx a b wr).ok = true :=
  ok_watch (ok_withScr h (Memory.wf_memPut (wf_scr h) a b)) ctx true a b wr
theorem ok_stampClear {s : State} (h : s.ok = true) (a n : Nat) : (stampClear s a n).ok = true := by
  obtain ⟨_, e⟩ := stampClear_frame s a n
  rw [e]; exact h
theorem ok_stampWrite {s : State} (h : s.ok = true) (g : Group) (a n : Nat) : (stampWrite s g a n).ok = true := by
  obtain ⟨_, e⟩ := stampWrite_frame s g a n
  rw [e]; exact h
theorem ok_agentScr {s : State} (h : s.ok = true) (ctx a : Nat) (b : List Byte) (wr : Writer) (rs : List Rel) :
    (agentScr s ctx a b wr rs).ok = true :=
  ok_agentWrote (ok_stampClear (ok_scrWrite h ctx a b wr) a b.length) a b.length false rs
theorem ok_agentDram {s : State} (h : s.ok = true) (ctx pa lat : Nat) (b : List Byte) (wr : Writer) (rs : List Rel) :
    (agentDram s ctx pa lat b wr rs).ok = true :=
  ok_agentWrote (ok_dramWrite h ctx pa lat b wr) (dramKey pa) b.length false rs
theorem ok_storeRun {s : State} (h : s.ok = true) (ctx va : Nat) (loc : Loc) (b : List Byte) (wr : Writer) (rs : List Rel) :
    (storeRun s ctx va loc b wr rs).ok = true := by
  unfold storeRun
  split
  · exact ok_agentDram h ..
  · split
    · exact ok_sendXact (s := (freshTag _).1) h _
    · exact h
  · exact h
theorem ok_agentStore {s t : State} (h : s.ok = true) {buf ctx va : Nat} {b : List Byte} {wr : Writer} {rs : List Rel}
    (he : agentStore s buf ctx va b wr rs = .ok t) : t.ok = true := by
  unfold agentStore at he
  simp only at he
  split at he
  · cases he
  · cases he
    exact foldl_keeps (fun s => State.ok s = true) _ (fun s p hs => ok_storeRun hs ..) _ _ (ok_cacheEnts h _)
theorem ok_elog {s : State} (h : s.ok = true) (p kind unit ctx addr aux : Nat) (tail : List Byte) :
    (elog s p kind unit ctx addr aux tail).ok = true := by
  unfold elog
  simp only
  split
  · exact ok_dramPut (ok_regPut h _ _) _ _ _
  · exact ok_regPut h _ _
theorem ok_putRecord {s : State} (h : s.ok = true) (buf ctx unit va : Nat) (b : List Byte) (wr : Writer) (rs : List Rel) :
    (putRecord s buf ctx unit va b wr rs).ok = true := by
  unfold putRecord
  split
  · rename_i s1 he
    have h1 : s1.ok = true := ok_agentStore h he
    exact h1
  · exact ok_elog h _ _ _ _ _ _ _
theorem ok_stopTailor {s : State} (h : s.ok = true) (g : Group) (r : FaultRec) : (stopTailor s g r).ok = true := by
  unfold stopTailor
  exact ok_emit (ok_elog (ok_setGroup h _) _ _ _ _ _ _ _) _
theorem ok_takeFault {s : State} (h : s.ok = true) (g : Group) (f : Flt) : (takeFault s g f).ok = true := by
  unfold takeFault
  simp only
  split
  · exact ok_stopTailor h _ _
  · exact ok_raiseLine (ok_setGroup h _) _ _
theorem ok_unitFault {s : State} (h : s.ok = true) (ctx unit reason : Nat) (detail : Byte) (pc rpc faddr : Nat) :
    (unitFault s ctx unit reason detail pc rpc faddr).ok = true := ok_raiseLine h _ _
theorem ok_lateFault {s : State} (h : s.ok = true) (ctx core slot reason : Nat) (pc : W64) (addr : Nat) :
    (lateFault s ctx core slot reason pc addr).ok = true := by
  unfold lateFault
  simp only
  split
  · split
    · exact ok_stopTailor h _ _
    · exact ok_raiseLine h _ _
  · exact ok_raiseLine h _ _
theorem ok_goTo {s : State} (h : s.ok = true) (g : Group) (pc : W64) : (goTo s g pc).ok = true := by
  unfold goTo transfer
  split
  · exact ok_putMoved h _
  · exact ok_takeFault h _ _
  · exact ok_putMoved h _

/-- A meaning that changes its own group's registers only keeps every store. -/
theorem ok_onGroup {s t : State} (h : s.ok = true) {f : Group → Group} (he : onGroup s f = .next t) : t.ok = true := by
  unfold onGroup at he
  split at he
  · cases he
  · cases he; exact ok_finish h _
theorem ok_withGroup {s t : State} {f : Group → State} (hf : ∀ g, (f g).ok = true) (he : withGroup s f = .next t) :
    t.ok = true := by
  unfold withGroup at he
  split at he
  · cases he
  · cases he; exact hf _

/-- The stores at reset are in canonical form: nothing is listed. -/
theorem reset_wf : Memory.wf State.reset.mem = true ∧ Memory.wf State.reset.scr = true ∧ Memory.wf State.reset.flash = true := ⟨rfl, rfl, rfl⟩

/-! ## Flits (R422) -/

theorem leBytes_len (n x : Nat) : (leBytes n x).length = n := by
  induction n generalizing x with
  | zero => rfl
  | succ n ih => simp [leBytes, ih]

/-- A flit is 256 bytes, whatever it carries. -/
theorem flitBytes_length (dst src kind tag : Nat) (ord more : Bool) (addr : Nat) (pay : List Byte) :
    (flitBytes dst src kind tag ord more addr pay).length = 256 := by
  simp only [flitBytes, List.length_append, leBytes_len, List.length_take, List.length_replicate]
  omega

/-- One flit for every 240 bytes of payload, and one when there is none. -/
theorem flitsOf_length (dst src kind tag : Nat) (ord : Bool) (addr : Nat) (pay : List Byte) :
    (flitsOf dst src kind tag ord addr pay).length = max 1 ((pay.length + 239) / 240) := by simp [flitsOf]

end Sys2Proof.Machine
end

