-- ==== Sys2Proof/Laws/PerInstr.lean ====
section
/-! SUPPORT. Per-instruction families (LAWS.json). `Opcode`: an instruction's opcode lies in the nine bits of R60. -/

namespace Sys2Proof.Laws.Opcode
open Sys2Proof

/-- The opcode of the instruction fits the OPCODE field. -/
def Statement (i : Instr) : Prop := opcodeOf i < 512

theorem nop : Statement (.nop) := Nat.le_of_ble_eq_true rfl
theorem iadd (w64 : Bool) (x : InsWord) : Statement (.iadd w64 x) := by cases w64 <;> exact Nat.le_of_ble_eq_true rfl
theorem isub (w64 : Bool) (x : InsWord) : Statement (.isub w64 x) := by cases w64 <;> exact Nat.le_of_ble_eq_true rfl
theorem imul (w64 : Bool) (x : InsWord) : Statement (.imul w64 x) := by cases w64 <;> exact Nat.le_of_ble_eq_true rfl
theorem imulh (w64 : Bool) (x : InsWord) : Statement (.imulh w64 x) := by cases w64 <;> exact Nat.le_of_ble_eq_true rfl
theorem imad (w64 : Bool) (x : InsWord) : Statement (.imad w64 x) := by cases w64 <;> exact Nat.le_of_ble_eq_true rfl
theorem idiv (w64 : Bool) (x : InsWord) : Statement (.idiv w64 x) := by cases w64 <;> exact Nat.le_of_ble_eq_true rfl
theorem irem (w64 : Bool) (x : InsWord) : Statement (.irem w64 x) := by cases w64 <;> exact Nat.le_of_ble_eq_true rfl
theorem imin (w64 : Bool) (x : InsWord) : Statement (.imin w64 x) := by cases w64 <;> exact Nat.le_of_ble_eq_true rfl
theorem imax (w64 : Bool) (x : InsWord) : Statement (.imax w64 x) := by cases w64 <;> exact Nat.le_of_ble_eq_true rfl
theorem iabs (w64 : Bool) (x : InsWord) : Statement (.iabs w64 x) := by cases w64 <;> exact Nat.le_of_ble_eq_true rfl
theorem and (w64 : Bool) (x : InsWord) : Statement (.and w64 x) := by cases w64 <;> exact Nat.le_of_ble_eq_true rfl
theorem or (w64 : Bool) (x : InsWord) : Statement (.or w64 x) := by cases w64 <;> exact Nat.le_of_ble_eq_true rfl
theorem xor (w64 : Bool) (x : InsWord) : Statement (.xor w64 x) := by cases w64 <;> exact Nat.le_of_ble_eq_true rfl
theorem bfn3 (w64 : Bool) (x : InsWord) : Statement (.bfn3 w64 x) := by cases w64 <;> exact Nat.le_of_ble_eq_true rfl
theorem shl (w64 : Bool) (x : InsWord) : Statement (.shl w64 x) := by cases w64 <;> exact Nat.le_of_ble_eq_true rfl
theorem shr (w64 : Bool) (x : InsWord) : Statement (.shr w64 x) := by cases w64 <;> exact Nat.le_of_ble_eq_true rfl
theorem sar (w64 : Bool) (x : InsWord) : Statement (.sar w64 x) := by cases w64 <;> exact Nat.le_of_ble_eq_true rfl
theorem rot (w64 : Bool) (x : InsWord) : Statement (.rot w64 x) := by cases w64 <;> exact Nat.le_of_ble_eq_true rfl
theorem fsh (w64 : Bool) (x : InsWord) : Statement (.fsh w64 x) := by cases w64 <;> exact Nat.le_of_ble_eq_true rfl
theorem clz (w64 : Bool) (x : InsWord) : Statement (.clz w64 x) := by cases w64 <;> exact Nat.le_of_ble_eq_true rfl
theorem popc (w64 : Bool) (x : InsWord) : Statement (.popc w64 x) := by cases w64 <;> exact Nat.le_of_ble_eq_true rfl
theorem brev (w64 : Bool) (x : InsWord) : Statement (.brev w64 x) := by cases w64 <;> exact Nat.le_of_ble_eq_true rfl
theorem bfe (w64 : Bool) (x : InsWord) : Statement (.bfe w64 x) := by cases w64 <;> exact Nat.le_of_ble_eq_true rfl
theorem bfi (w64 : Bool) (x : InsWord) : Statement (.bfi w64 x) := by cases w64 <;> exact Nat.le_of_ble_eq_true rfl
theorem sel (w64 : Bool) (x : InsWord) : Statement (.sel w64 x) := by cases w64 <;> exact Nat.le_of_ble_eq_true rfl
theorem icmp (w64 : Bool) (x : InsWord) : Statement (.icmp w64 x) := by cases w64 <;> exact Nat.le_of_ble_eq_true rfl
theorem iset (w64 : Bool) (x : InsWord) : Statement (.iset w64 x) := by cases w64 <;> exact Nat.le_of_ble_eq_true rfl
theorem lea (w64 : Bool) (x : InsWord) : Statement (.lea w64 x) := by cases w64 <;> exact Nat.le_of_ble_eq_true rfl
theorem mov (w64 : Bool) (x : InsWord) : Statement (.mov w64 x) := by cases w64 <;> exact Nat.le_of_ble_eq_true rfl
theorem movl (w64 : Bool) (x : InsWord) : Statement (.movl w64 x) := by cases w64 <;> exact Nat.le_of_ble_eq_true rfl
theorem fadd (f : FFmt) (x : InsWord) : Statement (.fadd f x) := by cases f <;> exact Nat.le_of_ble_eq_true rfl
theorem fmul (f : FFmt) (x : InsWord) : Statement (.fmul f x) := by cases f <;> exact Nat.le_of_ble_eq_true rfl
theorem ffma (f : FFmt) (x : InsWord) : Statement (.ffma f x) := by cases f <;> exact Nat.le_of_ble_eq_true rfl
theorem fmin (f : FFmt) (x : InsWord) : Statement (.fmin f x) := by cases f <;> exact Nat.le_of_ble_eq_true rfl
theorem fmax (f : FFmt) (x : InsWord) : Statement (.fmax f x) := by cases f <;> exact Nat.le_of_ble_eq_true rfl
theorem fcmp (f : FFmt) (x : InsWord) : Statement (.fcmp f x) := by cases f <;> exact Nat.le_of_ble_eq_true rfl
theorem fset (f : FFmt) (x : InsWord) : Statement (.fset f x) := by cases f <;> exact Nat.le_of_ble_eq_true rfl
theorem frnd (f : FFmt) (x : InsWord) : Statement (.frnd f x) := by cases f <;> exact Nat.le_of_ble_eq_true rfl
theorem cvt (d : NFmt) (x : InsWord) : Statement (.cvt d x) := by cases d <;> exact Nat.le_of_ble_eq_true rfl
theorem exp2 (acc : Bool) (x : InsWord) : Statement (.exp2 acc x) := by cases acc <;> exact Nat.le_of_ble_eq_true rfl
theorem log2 (acc : Bool) (x : InsWord) : Statement (.log2 acc x) := by cases acc <;> exact Nat.le_of_ble_eq_true rfl
theorem rcp (acc : Bool) (x : InsWord) : Statement (.rcp acc x) := by cases acc <;> exact Nat.le_of_ble_eq_true rfl
theorem rsq (acc : Bool) (x : InsWord) : Statement (.rsq acc x) := by cases acc <;> exact Nat.le_of_ble_eq_true rfl
theorem sqrt (acc : Bool) (x : InsWord) : Statement (.sqrt acc x) := by cases acc <;> exact Nat.le_of_ble_eq_true rfl
theorem sin (acc : Bool) (x : InsWord) : Statement (.sin acc x) := by cases acc <;> exact Nat.le_of_ble_eq_true rfl
theorem cos (acc : Bool) (x : InsWord) : Statement (.cos acc x) := by cases acc <;> exact Nat.le_of_ble_eq_true rfl
theorem tanh (acc : Bool) (x : InsWord) : Statement (.tanh acc x) := by cases acc <;> exact Nat.le_of_ble_eq_true rfl
theorem sigm (acc : Bool) (x : InsWord) : Statement (.sigm acc x) := by cases acc <;> exact Nat.le_of_ble_eq_true rfl
theorem gelu (acc : Bool) (x : InsWord) : Statement (.gelu acc x) := by cases acc <;> exact Nat.le_of_ble_eq_true rfl
theorem silu (acc : Bool) (x : InsWord) : Statement (.silu acc x) := by cases acc <;> exact Nat.le_of_ble_eq_true rfl
theorem erf (acc : Bool) (x : InsWord) : Statement (.erf acc x) := by cases acc <;> exact Nat.le_of_ble_eq_true rfl
theorem exp2Bf2 (x : InsWord) : Statement (.exp2Bf2 x) := Nat.le_of_ble_eq_true rfl
theorem rcpBf2 (x : InsWord) : Statement (.rcpBf2 x) := Nat.le_of_ble_eq_true rfl
theorem rsqBf2 (x : InsWord) : Statement (.rsqBf2 x) := Nat.le_of_ble_eq_true rfl
theorem tanhBf2 (x : InsWord) : Statement (.tanhBf2 x) := Nat.le_of_ble_eq_true rfl
theorem sigmBf2 (x : InsWord) : Statement (.sigmBf2 x) := Nat.le_of_ble_eq_true rfl
theorem geluBf2 (x : InsWord) : Statement (.geluBf2 x) := Nat.le_of_ble_eq_true rfl
theorem siluBf2 (x : InsWord) : Statement (.siluBf2 x) := Nat.le_of_ble_eq_true rfl
theorem erfBf2 (x : InsWord) : Statement (.erfBf2 x) := Nat.le_of_ble_eq_true rfl
theorem add2h (half : Bool) (x : InsWord) : Statement (.add2h half x) := by cases half <;> exact Nat.le_of_ble_eq_true rfl
theorem mul2h (half : Bool) (x : InsWord) : Statement (.mul2h half x) := by cases half <;> exact Nat.le_of_ble_eq_true rfl
theorem fma2h (half : Bool) (x : InsWord) : Statement (.fma2h half x) := by cases half <;> exact Nat.le_of_ble_eq_true rfl
theorem min2h (half : Bool) (x : InsWord) : Statement (.min2h half x) := by cases half <;> exact Nat.le_of_ble_eq_true rfl
theorem max2h (half : Bool) (x : InsWord) : Statement (.max2h half x) := by cases half <;> exact Nat.le_of_ble_eq_true rfl
theorem cmp2h (half : Bool) (x : InsWord) : Statement (.cmp2h half x) := by cases half <;> exact Nat.le_of_ble_eq_true rfl
theorem dot4 (uns : Bool) (x : InsWord) : Statement (.dot4 uns x) := by cases uns <;> exact Nat.le_of_ble_eq_true rfl
theorem dot8 (uns : Bool) (x : InsWord) : Statement (.dot8 uns x) := by cases uns <;> exact Nat.le_of_ble_eq_true rfl
theorem dot2 (half : Bool) (x : InsWord) : Statement (.dot2 half x) := by cases half <;> exact Nat.le_of_ble_eq_true rfl
theorem cvtPk2 (half : Bool) (x : InsWord) : Statement (.cvtPk2 half x) := by cases half <;> exact Nat.le_of_ble_eq_true rfl
theorem cvtPk4 (e5 : Bool) (x : InsWord) : Statement (.cvtPk4 e5 x) := by cases e5 <;> exact Nat.le_of_ble_eq_true rfl
theorem cvtUnpk (x : InsWord) : Statement (.cvtUnpk x) := Nat.le_of_ble_eq_true rfl
theorem shflAt (w64 : Bool) (x : InsWord) : Statement (.shflAt w64 x) := by cases w64 <;> exact Nat.le_of_ble_eq_true rfl
theorem shflLo (w64 : Bool) (x : InsWord) : Statement (.shflLo w64 x) := by cases w64 <;> exact Nat.le_of_ble_eq_true rfl
theorem shflHi (w64 : Bool) (x : InsWord) : Statement (.shflHi w64 x) := by cases w64 <;> exact Nat.le_of_ble_eq_true rfl
theorem shflFlip (w64 : Bool) (x : InsWord) : Statement (.shflFlip w64 x) := by cases w64 <;> exact Nat.le_of_ble_eq_true rfl
theorem voteEvery (x : InsWord) : Statement (.voteEvery x) := Nat.le_of_ble_eq_true rfl
theorem voteSome (x : InsWord) : Statement (.voteSome x) := Nat.le_of_ble_eq_true rfl
theorem voteSame (x : InsWord) : Statement (.voteSame x) := Nat.le_of_ble_eq_true rfl
theorem voteMask (x : InsWord) : Statement (.voteMask x) := Nat.le_of_ble_eq_true rfl
theorem matchPeers (w64 : Bool) (x : InsWord) : Statement (.matchPeers w64 x) := by cases w64 <;> exact Nat.le_of_ble_eq_true rfl
theorem matchUnan (w64 : Bool) (x : InsWord) : Statement (.matchUnan w64 x) := by cases w64 <;> exact Nat.le_of_ble_eq_true rfl
theorem reduxAdd (x : InsWord) : Statement (.reduxAdd x) := Nat.le_of_ble_eq_true rfl
theorem reduxMin (x : InsWord) : Statement (.reduxMin x) := Nat.le_of_ble_eq_true rfl
theorem reduxMax (x : InsWord) : Statement (.reduxMax x) := Nat.le_of_ble_eq_true rfl
theorem reduxAnd (x : InsWord) : Statement (.reduxAnd x) := Nat.le_of_ble_eq_true rfl
theorem reduxOr (x : InsWord) : Statement (.reduxOr x) := Nat.le_of_ble_eq_true rfl
theorem reduxXor (x : InsWord) : Statement (.reduxXor x) := Nat.le_of_ble_eq_true rfl
theorem reduxFadd (x : InsWord) : Statement (.reduxFadd x) := Nat.le_of_ble_eq_true rfl
theorem reduxFmin (x : InsWord) : Statement (.reduxFmin x) := Nat.le_of_ble_eq_true rfl
theorem reduxFmax (x : InsWord) : Statement (.reduxFmax x) := Nat.le_of_ble_eq_true rfl
theorem scanInc (x : InsWord) : Statement (.scanInc x) := Nat.le_of_ble_eq_true rfl
theorem scanExc (x : InsWord) : Statement (.scanExc x) := Nat.le_of_ble_eq_true rfl
theorem cmpr (x : InsWord) : Statement (.cmpr x) := Nat.le_of_ble_eq_true rfl
theorem expd (x : InsWord) : Statement (.expd x) := Nat.le_of_ble_eq_true rfl
theorem xbar (x : InsWord) : Statement (.xbar x) := Nat.le_of_ble_eq_true rfl
theorem xpld (x : InsWord) : Statement (.xpld x) := Nat.le_of_ble_eq_true rfl
theorem laneid (x : InsWord) : Statement (.laneid x) := Nat.le_of_ble_eq_true rfl
theorem bra (x : InsWord) : Statement (.bra x) := Nat.le_of_ble_eq_true rfl
theorem braNone (x : InsWord) : Statement (.braNone x) := Nat.le_of_ble_eq_true rfl
theorem braAny (x : InsWord) : Statement (.braAny x) := Nat.le_of_ble_eq_true rfl
theorem braAll (x : InsWord) : Statement (.braAll x) := Nat.le_of_ble_eq_true rfl
theorem brx (x : InsWord) : Statement (.brx x) := Nat.le_of_ble_eq_true rfl
theorem call (x : InsWord) : Statement (.call x) := Nat.le_of_ble_eq_true rfl
theorem callx (x : InsWord) : Statement (.callx x) := Nat.le_of_ble_eq_true rfl
theorem ret (x : InsWord) : Statement (.ret x) := Nat.le_of_ble_eq_true rfl
theorem exit (x : InsWord) : Statement (.exit x) := Nat.le_of_ble_eq_true rfl
theorem emrd (x : InsWord) : Statement (.emrd x) := Nat.le_of_ble_eq_true rfl
theorem emwr (x : InsWord) : Statement (.emwr x) := Nat.le_of_ble_eq_true rfl
theorem pset (x : InsWord) : Statement (.pset x) := Nat.le_of_ble_eq_true rfl
theorem plop (x : InsWord) : Statement (.plop x) := Nat.le_of_ble_eq_true rfl
theorem acqh (x : InsWord) : Statement (.acqh x) := Nat.le_of_ble_eq_true rfl
theorem relh (x : InsWord) : Statement (.relh x) := Nat.le_of_ble_eq_true rfl
theorem yield (x : InsWord) : Statement (.yield x) := Nat.le_of_ble_eq_true rfl
theorem trap (x : InsWord) : Statement (.trap x) := Nat.le_of_ble_eq_true rfl
theorem req (x : InsWord) : Statement (.req x) := Nat.le_of_ble_eq_true rfl
theorem bpt (x : InsWord) : Statement (.bpt x) := Nat.le_of_ble_eq_true rfl
theorem ld (k : LdKind) (x : InsWord) : Statement (.ld k x) := by cases k <;> exact Nat.le_of_ble_eq_true rfl
theorem st (k : StKind) (x : InsWord) : Statement (.st k x) := by cases k <;> exact Nat.le_of_ble_eq_true rfl
theorem fence (x : InsWord) : Statement (.fence x) := Nat.le_of_ble_eq_true rfl
theorem fenceX (x : InsWord) : Statement (.fenceX x) := Nat.le_of_ble_eq_true rfl
theorem ldAcq (k : AqKind) (x : InsWord) : Statement (.ldAcq k x) := by cases k <;> exact Nat.le_of_ble_eq_true rfl
theorem stRel (k : AqKind) (x : InsWord) : Statement (.stRel k x) := by cases k <;> exact Nat.le_of_ble_eq_true rfl
theorem lds (x : InsWord) : Statement (.lds x) := Nat.le_of_ble_eq_true rfl
theorem stq (x : InsWord) : Statement (.stq x) := Nat.le_of_ble_eq_true rfl
theorem ldmt (b8 : Bool) (x : InsWord) : Statement (.ldmt b8 x) := by cases b8 <;> exact Nat.le_of_ble_eq_true rfl
theorem ldc (k : UcKind) (x : InsWord) : Statement (.ldc k x) := by cases k <;> exact Nat.le_of_ble_eq_true rfl
theorem atomAdd (w64 : Bool) (x : InsWord) : Statement (.atomAdd w64 x) := by cases w64 <;> exact Nat.le_of_ble_eq_true rfl
theorem atomMin (w64 : Bool) (x : InsWord) : Statement (.atomMin w64 x) := by cases w64 <;> exact Nat.le_of_ble_eq_true rfl
theorem atomMax (w64 : Bool) (x : InsWord) : Statement (.atomMax w64 x) := by cases w64 <;> exact Nat.le_of_ble_eq_true rfl
theorem atomAnd (w64 : Bool) (x : InsWord) : Statement (.atomAnd w64 x) := by cases w64 <;> exact Nat.le_of_ble_eq_true rfl
theorem atomOr (w64 : Bool) (x : InsWord) : Statement (.atomOr w64 x) := by cases w64 <;> exact Nat.le_of_ble_eq_true rfl
theorem atomXor (w64 : Bool) (x : InsWord) : Statement (.atomXor w64 x) := by cases w64 <;> exact Nat.le_of_ble_eq_true rfl
theorem atomExch (w64 : Bool) (x : InsWord) : Statement (.atomExch w64 x) := by cases w64 <;> exact Nat.le_of_ble_eq_true rfl
theorem atomCas (w64 : Bool) (x : InsWord) : Statement (.atomCas w64 x) := by cases w64 <;> exact Nat.le_of_ble_eq_true rfl
theorem atomFadd (x : InsWord) : Statement (.atomFadd x) := Nat.le_of_ble_eq_true rfl
theorem redAdd (w64 : Bool) (x : InsWord) : Statement (.redAdd w64 x) := by cases w64 <;> exact Nat.le_of_ble_eq_true rfl
theorem redMin (w64 : Bool) (x : InsWord) : Statement (.redMin w64 x) := by cases w64 <;> exact Nat.le_of_ble_eq_true rfl
theorem redMax (w64 : Bool) (x : InsWord) : Statement (.redMax w64 x) := by cases w64 <;> exact Nat.le_of_ble_eq_true rfl
theorem redAnd (w64 : Bool) (x : InsWord) : Statement (.redAnd w64 x) := by cases w64 <;> exact Nat.le_of_ble_eq_true rfl
theorem redOr (w64 : Bool) (x : InsWord) : Statement (.redOr w64 x) := by cases w64 <;> exact Nat.le_of_ble_eq_true rfl
theorem redXor (w64 : Bool) (x : InsWord) : Statement (.redXor w64 x) := by cases w64 <;> exact Nat.le_of_ble_eq_true rfl
theorem redFadd (x : InsWord) : Statement (.redFadd x) := Nat.le_of_ble_eq_true rfl
theorem binit (x : InsWord) : Statement (.binit x) := Nat.le_of_ble_eq_true rfl
theorem arrive (x : InsWord) : Statement (.arrive x) := Nat.le_of_ble_eq_true rfl
theorem expect (x : InsWord) : Statement (.expect x) := Nat.le_of_ble_eq_true rfl
theorem waitph (x : InsWord) : Statement (.waitph x) := Nat.le_of_ble_eq_true rfl
theorem btest (x : InsWord) : Statement (.btest x) := Nat.le_of_ble_eq_true rfl
theorem binv (x : InsWord) : Statement (.binv x) := Nat.le_of_ble_eq_true rfl
theorem rkacq (x : InsWord) : Statement (.rkacq x) := Nat.le_of_ble_eq_true rfl
theorem rkrel (x : InsWord) : Statement (.rkrel x) := Nat.le_of_ble_eq_true rfl
theorem mma (f : MForm) (x : InsWord) : Statement (.mma f x) := by cases f <;> exact Nat.le_of_ble_eq_true rfl
theorem mmaz (f : MForm) (x : InsWord) : Statement (.mmaz f x) := by cases f <;> exact Nat.le_of_ble_eq_true rfl
theorem accmvRd (x : InsWord) : Statement (.accmvRd x) := Nat.le_of_ble_eq_true rfl
theorem accmvWr (x : InsWord) : Statement (.accmvWr x) := Nat.le_of_ble_eq_true rfl
theorem mmaw (x : InsWord) : Statement (.mmaw x) := Nat.le_of_ble_eq_true rfl
theorem spawn (x : InsWord) : Statement (.spawn x) := Nat.le_of_ble_eq_true rfl
theorem spawnFld (x : InsWord) : Statement (.spawnFld x) := Nat.le_of_ble_eq_true rfl
theorem fetchw (x : InsWord) : Statement (.fetchw x) := Nat.le_of_ble_eq_true rfl
theorem emitr (x : InsWord) : Statement (.emitr x) := Nat.le_of_ble_eq_true rfl
theorem winf (x : InsWord) : Statement (.winf x) := Nat.le_of_ble_eq_true rfl
theorem kick (x : InsWord) : Statement (.kick x) := Nat.le_of_ble_eq_true rfl
theorem qstat (x : InsWord) : Statement (.qstat x) := Nat.le_of_ble_eq_true rfl
theorem park (x : InsWord) : Statement (.park x) := Nat.le_of_ble_eq_true rfl
theorem die (x : InsWord) : Statement (.die x) := Nat.le_of_ble_eq_true rfl
theorem repack (x : InsWord) : Statement (.repack x) := Nat.le_of_ble_eq_true rfl
theorem cpyGo (reply : Bool) (x : InsWord) : Statement (.cpyGo reply x) := by cases reply <;> exact Nat.le_of_ble_eq_true rfl
theorem cpySt (reply : Bool) (x : InsWord) : Statement (.cpySt reply x) := by cases reply <;> exact Nat.le_of_ble_eq_true rfl
theorem cpyAbt (reply : Bool) (x : InsWord) : Statement (.cpyAbt reply x) := by cases reply <;> exact Nat.le_of_ble_eq_true rfl
theorem gthGo (reply : Bool) (x : InsWord) : Statement (.gthGo reply x) := by cases reply <;> exact Nat.le_of_ble_eq_true rfl
theorem gthSt (reply : Bool) (x : InsWord) : Statement (.gthSt reply x) := by cases reply <;> exact Nat.le_of_ble_eq_true rfl
theorem gthAbt (reply : Bool) (x : InsWord) : Statement (.gthAbt reply x) := by cases reply <;> exact Nat.le_of_ble_eq_true rfl
theorem rowProm (reply : Bool) (x : InsWord) : Statement (.rowProm reply x) := by cases reply <;> exact Nat.le_of_ble_eq_true rfl
theorem rowDem (reply : Bool) (x : InsWord) : Statement (.rowDem reply x) := by cases reply <;> exact Nat.le_of_ble_eq_true rfl
theorem rowPin (reply : Bool) (x : InsWord) : Statement (.rowPin reply x) := by cases reply <;> exact Nat.le_of_ble_eq_true rfl
theorem rowUnpin (reply : Bool) (x : InsWord) : Statement (.rowUnpin reply x) := by cases reply <;> exact Nat.le_of_ble_eq_true rfl
theorem rowCopy (reply : Bool) (x : InsWord) : Statement (.rowCopy reply x) := by cases reply <;> exact Nat.le_of_ble_eq_true rfl
theorem rowInit (reply : Bool) (x : InsWord) : Statement (.rowInit reply x) := by cases reply <;> exact Nat.le_of_ble_eq_true rfl
theorem winWmark (reply : Bool) (x : InsWord) : Statement (.winWmark reply x) := by cases reply <;> exact Nat.le_of_ble_eq_true rfl
theorem winFlush (reply : Bool) (x : InsWord) : Statement (.winFlush reply x) := by cases reply <;> exact Nat.le_of_ble_eq_true rfl
theorem lnkArr (reply : Bool) (x : InsWord) : Statement (.lnkArr reply x) := by cases reply <;> exact Nat.le_of_ble_eq_true rfl
theorem lnkMsg (reply : Bool) (x : InsWord) : Statement (.lnkMsg reply x) := by cases reply <;> exact Nat.le_of_ble_eq_true rfl
theorem segld (x : InsWord) : Statement (.segld x) := Nat.le_of_ble_eq_true rfl
theorem mfsr (x : InsWord) : Statement (.mfsr x) := Nat.le_of_ble_eq_true rfl
theorem mtsr (x : InsWord) : Statement (.mtsr x) := Nat.le_of_ble_eq_true rfl
theorem tlbinvPg (x : InsWord) : Statement (.tlbinvPg x) := Nat.le_of_ble_eq_true rfl
theorem tlbinvCtx (x : InsWord) : Statement (.tlbinvCtx x) := Nat.le_of_ble_eq_true rfl
theorem tlbinvAll (x : InsWord) : Statement (.tlbinvAll x) := Nat.le_of_ble_eq_true rfl
theorem rft (x : InsWord) : Statement (.rft x) := Nat.le_of_ble_eq_true rfl
theorem halt (x : InsWord) : Statement (.halt x) := Nat.le_of_ble_eq_true rfl
theorem ctxsvFill (x : InsWord) : Statement (.ctxsvFill x) := Nat.le_of_ble_eq_true rfl
theorem ctxsvSwap (x : InsWord) : Statement (.ctxsvSwap x) := Nat.le_of_ble_eq_true rfl
theorem ctxsvEvict (x : InsWord) : Statement (.ctxsvEvict x) := Nat.le_of_ble_eq_true rfl
theorem wake (x : InsWord) : Statement (.wake x) := Nat.le_of_ble_eq_true rfl
theorem ptldLk (x : InsWord) : Statement (.ptldLk x) := Nat.le_of_ble_eq_true rfl
theorem ptldUn (x : InsWord) : Statement (.ptldUn x) := Nat.le_of_ble_eq_true rfl
theorem qcbld (x : InsWord) : Statement (.qcbld x) := Nat.le_of_ble_eq_true rfl
theorem qcbst (x : InsWord) : Statement (.qcbst x) := Nat.le_of_ble_eq_true rfl
theorem mbxrd (x : InsWord) : Statement (.mbxrd x) := Nat.le_of_ble_eq_true rfl
theorem dump (x : InsWord) : Statement (.dump x) := Nat.le_of_ble_eq_true rfl
theorem pfxW (lit : W32) : Statement (.pfxW lit) := Nat.le_of_ble_eq_true rfl
theorem pfxL (lit : W32) : Statement (.pfxL lit) := Nat.le_of_ble_eq_true rfl
theorem pfxLHi (lit : W32) : Statement (.pfxLHi lit) := Nat.le_of_ble_eq_true rfl
theorem unassignedOpcode (op : BitVec 9) : Statement (.unassignedOpcode op) := op.isLt
theorem deviceReset : Statement (.deviceReset) := Nat.le_of_ble_eq_true rfl
theorem rcmdInstallA : Statement (.rcmdInstallA) := Nat.le_of_ble_eq_true rfl
theorem rcmdInstallB : Statement (.rcmdInstallB) := Nat.le_of_ble_eq_true rfl
theorem rcmdAttest : Statement (.rcmdAttest) := Nat.le_of_ble_eq_true rfl
theorem recoveryInstallDone : Statement (.recoveryInstallDone) := Nat.le_of_ble_eq_true rfl
theorem recoveryResetTimer : Statement (.recoveryResetTimer) := Nat.le_of_ble_eq_true rfl
theorem clockStepDown : Statement (.clockStepDown) := Nat.le_of_ble_eq_true rfl
theorem clockStepUp : Statement (.clockStepUp) := Nat.le_of_ble_eq_true rfl
theorem thermalTrip : Statement (.thermalTrip) := Nat.le_of_ble_eq_true rfl
theorem devidWrite : Statement (.devidWrite) := Nat.le_of_ble_eq_true rfl
theorem rollminWrite : Statement (.rollminWrite) := Nat.le_of_ble_eq_true rfl
theorem drvfeatWrite : Statement (.drvfeatWrite) := Nat.le_of_ble_eq_true rfl
theorem atctlGo : Statement (.atctlGo) := Nat.le_of_ble_eq_true rfl
theorem attestReportDone : Statement (.attestReportDone) := Nat.le_of_ble_eq_true rfl
theorem sbarWrite : Statement (.sbarWrite) := Nat.le_of_ble_eq_true rfl
theorem hbarWrite : Statement (.hbarWrite) := Nat.le_of_ble_eq_true rfl
theorem tickWrite : Statement (.tickWrite) := Nat.le_of_ble_eq_true rfl
theorem scfgWrite : Statement (.scfgWrite) := Nat.le_of_ble_eq_true rfl
theorem linkEnable : Statement (.linkEnable) := Nat.le_of_ble_eq_true rfl
theorem linkDisable : Statement (.linkDisable) := Nat.le_of_ble_eq_true rfl
theorem linkQuiesce : Statement (.linkQuiesce) := Nat.le_of_ble_eq_true rfl
theorem linkRetrain : Statement (.linkRetrain) := Nat.le_of_ble_eq_true rfl
theorem registerWrite : Statement (.registerWrite) := Nat.le_of_ble_eq_true rfl
theorem doorbellWrite : Statement (.doorbellWrite) := Nat.le_of_ble_eq_true rfl
theorem schedTick : Statement (.schedTick) := Nat.le_of_ble_eq_true rfl
theorem slotDeadline : Statement (.slotDeadline) := Nat.le_of_ble_eq_true rfl
theorem slotBudgetExhausted : Statement (.slotBudgetExhausted) := Nat.le_of_ble_eq_true rfl
theorem packetNop : Statement (.packetNop) := Nat.le_of_ble_eq_true rfl
theorem packetLaunch : Statement (.packetLaunch) := Nat.le_of_ble_eq_true rfl
theorem packetCopy : Statement (.packetCopy) := Nat.le_of_ble_eq_true rfl
theorem packetWaitmem : Statement (.packetWaitmem) := Nat.le_of_ble_eq_true rfl
theorem packetSignal : Statement (.packetSignal) := Nat.le_of_ble_eq_true rfl
theorem packetFence : Statement (.packetFence) := Nat.le_of_ble_eq_true rfl
theorem waitmemRecheck : Statement (.waitmemRecheck) := Nat.le_of_ble_eq_true rfl
theorem waitmemTimeout : Statement (.waitmemTimeout) := Nat.le_of_ble_eq_true rfl
theorem signalDone : Statement (.signalDone) := Nat.le_of_ble_eq_true rfl
theorem teamAdmit : Statement (.teamAdmit) := Nat.le_of_ble_eq_true rfl
theorem groupRetire : Statement (.groupRetire) := Nat.le_of_ble_eq_true rfl
theorem tailorStart : Statement (.tailorStart) := Nat.le_of_ble_eq_true rfl
theorem groupAged : Statement (.groupAged) := Nat.le_of_ble_eq_true rfl
theorem hintDeferralTimeout : Statement (.hintDeferralTimeout) := Nat.le_of_ble_eq_true rfl
theorem lineFetch : Statement (.lineFetch) := Nat.le_of_ble_eq_true rfl
theorem pageWalkDone : Statement (.pageWalkDone) := Nat.le_of_ble_eq_true rfl
theorem loadDataReturn : Statement (.loadDataReturn) := Nat.le_of_ble_eq_true rfl
theorem hostLoadTimeout : Statement (.hostLoadTimeout) := Nat.le_of_ble_eq_true rfl
theorem hostStoreFailure : Statement (.hostStoreFailure) := Nat.le_of_ble_eq_true rfl
theorem remoteAccessTimeout : Statement (.remoteAccessTimeout) := Nat.le_of_ble_eq_true rfl
theorem fetchwReply : Statement (.fetchwReply) := Nat.le_of_ble_eq_true rfl
theorem pawnArrival : Statement (.pawnArrival) := Nat.le_of_ble_eq_true rfl
theorem pawnGroupDispatch : Statement (.pawnGroupDispatch) := Nat.le_of_ble_eq_true rfl
theorem gatherTimeout : Statement (.gatherTimeout) := Nat.le_of_ble_eq_true rfl
theorem quadRendezvous : Statement (.quadRendezvous) := Nat.le_of_ble_eq_true rfl
theorem mmaBegin : Statement (.mmaBegin) := Nat.le_of_ble_eq_true rfl
theorem mmaComplete : Statement (.mmaComplete) := Nat.le_of_ble_eq_true rfl
theorem jobTake : Statement (.jobTake) := Nat.le_of_ble_eq_true rfl
theorem subchunkBoundary : Statement (.subchunkBoundary) := Nat.le_of_ble_eq_true rfl
theorem chunkBoundary : Statement (.chunkBoundary) := Nat.le_of_ble_eq_true rfl
theorem engineRackClaim : Statement (.engineRackClaim) := Nat.le_of_ble_eq_true rfl
theorem engineRackWaitEnd : Statement (.engineRackWaitEnd) := Nat.le_of_ble_eq_true rfl
theorem ingressPoll : Statement (.ingressPoll) := Nat.le_of_ble_eq_true rfl
theorem ingressDataRecord : Statement (.ingressDataRecord) := Nat.le_of_ble_eq_true rfl
theorem controlWatermark : Statement (.controlWatermark) := Nat.le_of_ble_eq_true rfl
theorem controlFlush : Statement (.controlFlush) := Nat.le_of_ble_eq_true rfl
theorem controlMalformed : Statement (.controlMalformed) := Nat.le_of_ble_eq_true rfl
theorem windowPawnSend : Statement (.windowPawnSend) := Nat.le_of_ble_eq_true rfl
theorem ingressResume : Statement (.ingressResume) := Nat.le_of_ble_eq_true rfl
theorem dormancyDemote : Statement (.dormancyDemote) := Nat.le_of_ble_eq_true rfl
theorem egressRearm : Statement (.egressRearm) := Nat.le_of_ble_eq_true rfl
theorem rowPromoteDone : Statement (.rowPromoteDone) := Nat.le_of_ble_eq_true rfl
theorem rowWritebackDone : Statement (.rowWritebackDone) := Nat.le_of_ble_eq_true rfl
theorem epochTick : Statement (.epochTick) := Nat.le_of_ble_eq_true rfl
theorem rowJobDone : Statement (.rowJobDone) := Nat.le_of_ble_eq_true rfl
theorem linkTrained : Statement (.linkTrained) := Nat.le_of_ble_eq_true rfl
theorem linkTrainingFail : Statement (.linkTrainingFail) := Nat.le_of_ble_eq_true rfl
theorem laneLoss : Statement (.laneLoss) := Nat.le_of_ble_eq_true rfl
theorem portFailed : Statement (.portFailed) := Nat.le_of_ble_eq_true rfl
theorem quiesceDrained : Statement (.quiesceDrained) := Nat.le_of_ble_eq_true rfl
theorem flitRetransmit : Statement (.flitRetransmit) := Nat.le_of_ble_eq_true rfl
theorem linkRxReadRequest : Statement (.linkRxReadRequest) := Nat.le_of_ble_eq_true rfl
theorem linkRxReadCompletion : Statement (.linkRxReadCompletion) := Nat.le_of_ble_eq_true rfl
theorem linkRxPostedWrite : Statement (.linkRxPostedWrite) := Nat.le_of_ble_eq_true rfl
theorem linkRxNonpostedWrite : Statement (.linkRxNonpostedWrite) := Nat.le_of_ble_eq_true rfl
theorem linkRxWriteResponse : Statement (.linkRxWriteResponse) := Nat.le_of_ble_eq_true rfl
theorem linkRxAtomic : Statement (.linkRxAtomic) := Nat.le_of_ble_eq_true rfl
theorem linkRxAtomicCompletion : Statement (.linkRxAtomicCompletion) := Nat.le_of_ble_eq_true rfl
theorem linkRxArrival : Statement (.linkRxArrival) := Nat.le_of_ble_eq_true rfl
theorem linkRxMessage : Statement (.linkRxMessage) := Nat.le_of_ble_eq_true rfl
theorem linkRxShootdown : Statement (.linkRxShootdown) := Nat.le_of_ble_eq_true rfl
theorem linkRxEpochReport : Statement (.linkRxEpochReport) := Nat.le_of_ble_eq_true rfl
theorem linkRxUnknownKind : Statement (.linkRxUnknownKind) := Nat.le_of_ble_eq_true rfl
theorem linkRxMisrouted : Statement (.linkRxMisrouted) := Nat.le_of_ble_eq_true rfl
theorem linkRetryResend : Statement (.linkRetryResend) := Nat.le_of_ble_eq_true rfl
theorem linkTimeout : Statement (.linkTimeout) := Nat.le_of_ble_eq_true rfl
theorem pcieBar0Write : Statement (.pcieBar0Write) := Nat.le_of_ble_eq_true rfl
theorem pcieBar2Request : Statement (.pcieBar2Request) := Nat.le_of_ble_eq_true rfl
theorem pcieAtomicop : Statement (.pcieAtomicop) := Nat.le_of_ble_eq_true rfl
theorem hostWarmRestart : Statement (.hostWarmRestart) := Nat.le_of_ble_eq_true rfl
theorem contextStopped : Statement (.contextStopped) := Nat.le_of_ble_eq_true rfl
theorem swapProceed : Statement (.swapProceed) := Nat.le_of_ble_eq_true rfl
theorem spillDone : Statement (.spillDone) := Nat.le_of_ble_eq_true rfl
theorem fillDone : Statement (.fillDone) := Nat.le_of_ble_eq_true rfl
theorem recovery : Statement (.recovery) := Nat.le_of_ble_eq_true rfl
theorem updatePerformed : Statement (.updatePerformed) := Nat.le_of_ble_eq_true rfl
theorem portLinkDown : Statement (.portLinkDown) := Nat.le_of_ble_eq_true rfl
theorem portLinkUp : Statement (.portLinkUp) := Nat.le_of_ble_eq_true rfl

end Sys2Proof.Laws.Opcode
end

