-- ==== Sys2Proof/Laws/Registers.lean ====
section
/-! SUPPORT. Laws of a group's registers: what the operations that write results and predicates do. -/

namespace Sys2Proof.Machine
open Sys2Proof

theorem Group.ok_iff (g : Group) : g.ok = true ↔
    SMap.wf 0 g.v = true ∧ SMap.wf 0 g.s = true ∧ SMap.wf 0 g.p = true ∧ SMap.wf 0 g.lat = true ∧ g.width ≤ 64 := by
  simp [Group.ok, and_assoc]

/-! ## Words of a value -/

theorem words_length (k x : Nat) : (words k x).length = k := by
  induction k generalizing x with
  | zero => rfl
  | succ k ih => simp [words, ih]

theorem words_getElem (k x i : Nat) (h : i < (words k x).length) : (words k x)[i] = wordOfVal x i := by
  induction k generalizing x i with
  | zero => simp [words] at h
  | succ k ih =>
    cases i with
    | zero => simp [words, wordOfVal]
    | succ i =>
      simp only [words, List.getElem_cons_succ, ih, wordOfVal]
      rw [Nat.div_div_eq_div_mul, ← Nat.pow_add]
      congr 3
      omega

theorem wordOfVal_lt (x i : Nat) : wordOfVal x i < 2 ^ 32 := Nat.mod_lt _ (by decide)

theorem mem_words_zipIdx {k x : Nat} {p : Nat × Nat} : p ∈ (words k x).zipIdx ↔ p.2 < k ∧ p.1 = wordOfVal x p.2 := by
  obtain ⟨a, i⟩ := p
  rw [List.mem_zipIdx_iff_getElem?, List.getElem?_eq_some_iff]
  constructor
  · rintro ⟨h, h2⟩
    exact ⟨by simpa [words_length] using h, by rw [← words_getElem k x i h]; exact h2.symm⟩
  · rintro ⟨h, h2⟩
    have h' : i < (words k x).length := by simpa [words_length] using h
    exact ⟨h', by rw [words_getElem k x i h']; exact h2.symm⟩

/-! ## One register -/

theorem rdV_wrV {g : Group} (h : SMap.wf 0 g.v = true) (n l x m j : Nat) :
    rdV (wrV g n l x) m j = if 64 * m + j = 64 * n + l then x % 2 ^ 32 else rdV g m j := by
  unfold rdV wrV
  simp only [SMap.get_put h]
  split <;> simp

theorem rdS_wrS {g : Group} (h : SMap.wf 0 g.s = true) (n x m : Nat) :
    rdS (wrS g n x) m = if m = n then x % 2 ^ 32 else rdS g m := by
  unfold rdS wrS
  simp only [SMap.get_put h]
  split <;> simp

theorem wrSs_s {g : Group} (n : Nat) (xs : List Nat) :
    wrSs g n xs = { g with s := SMap.putAll 0 g.s (xs.zipIdx.map (fun xi => (n + xi.2, BitVec.ofNat 32 xi.1))) } := by
  unfold wrSs SMap.putAll
  rw [List.foldl_map]
  generalize xs.zipIdx = l
  induction l generalizing g with
  | nil => rfl
  | cons p r ih => simp only [List.foldl_cons]; rw [ih]; rfl

/-! ## Latches (R66) -/

theorem SMap.get_append {α : Type} {d : α} {a b : SMap α} {c : Nat} (ha : ∀ p ∈ a, p.1 < c) (hb : SMap.above c b) (j : Nat) :
    SMap.get d (a ++ b) j = if j < c then SMap.get d a j else SMap.get d b j := by
  induction a with
  | nil =>
    split
    · exact SMap.get_above hb ‹_›
    · rfl
  | cons p r ih =>
    obtain ⟨k, v⟩ := p
    have hk : k < c := ha (k, v) (by simp)
    have ih := ih (fun q hq => ha q (by simp [hq]))
    simp only [List.cons_append, SMap.get]
    by_cases h1 : j = k
    · subst h1; simp [hk]
    · by_cases h2 : j < k
      · simp [h1, h2]; intro h3; omega
      · simp only [h1, h2, if_false]; exact ih

theorem SMap.get_map_add {α : Type} {d : α} (m : SMap α) (c j : Nat) :
    SMap.get d (m.map (fun kv => (kv.1 + c, kv.2))) (j + c) = SMap.get d m j := by
  induction m with
  | nil => rfl
  | cons p r ih =>
    simp only [List.map_cons, SMap.get, ih, Nat.add_right_cancel_iff, Nat.add_lt_add_iff_right]

theorem SMap.get_filter_lt {α : Type} [DecidableEq α] {d : α} {m : SMap α} (h : SMap.wf d m = true) {c j : Nat} (hj : j < c) :
    SMap.get d (m.filter (fun kv => kv.1 < c)) j = SMap.get d m j := by
  induction m with
  | nil => rfl
  | cons p r ih =>
    obtain ⟨k, v⟩ := p
    have hc := SMap.wf_cons.1 h
    rw [List.filter_cons]
    split
    · simp only [SMap.get]; rw [ih hc.2.2]
    · rename_i hk
      simp at hk
      rw [ih hc.2.2, SMap.get_above hc.2.1 (by omega)]
      simp only [SMap.get]
      rw [if_neg (by omega), if_pos (by omega)]

theorem SMap.get_filterMap_range {α : Type} {d : α} (F : Nat → Option α) (w o j : Nat) (hj : o ≤ j) :
    SMap.get d ((List.range' o w).filterMap (fun l => (F l).map (fun v => (l, v)))) j
      = if j < o + w then (F j).getD d else d := by
  induction w generalizing o with
  | zero => simp [SMap.get]; omega
  | succ w ih =>
    rw [List.range'_succ, List.filterMap_cons]
    by_cases hoj : o = j
    · subst hoj
      rw [if_pos (by omega)]
      cases hF : F o with
      | none =>
        have : ∀ p ∈ (List.range' (o + 1) w).filterMap (fun l => (F l).map (fun v => (l, v))), o + 1 ≤ p.1 := by
          intro p hp
          simp only [List.mem_filterMap, List.mem_range', Option.map_eq_some_iff] at hp
          obtain ⟨l, ⟨i, hi, rfl⟩, v, _, rfl⟩ := hp
          show o + 1 ≤ o + 1 + 1 * i; omega
        simp only [Option.map_none]
        exact SMap.get_above this (by omega)
      | some v => simp [SMap.get]
    · have h1 := ih (o + 1) (by omega)
      cases hF : F o with
      | none =>
        simp only [Option.map_none]
        rw [h1]; congr 1; rw [show o + 1 + w = o + (w + 1) by omega]
      | some v =>
        simp only [Option.map_some, SMap.get]
        rw [if_neg (by omega), if_neg (by omega), h1]; congr 1
        rw [show o + 1 + w = o + (w + 1) by omega]

theorem rdLat_pushLat_zero {g : Group} (hw : g.width ≤ 64) (F : Nat → Nat) {l : Nat} (hl : l < g.width) :
    rdLat (pushLat g F) 0 l = F l % 2 ^ 64 := by
  unfold rdLat pushLat allLanes
  simp only
  rw [SMap.get_append (c := 64)]
  · rw [if_pos (by omega)]
    have h := SMap.get_filterMap_range (d := (0 : W64))
      (fun l => if F l % 2 ^ 64 = 0 then none else some (BitVec.ofNat 64 (F l))) g.width 0 l (by omega)
    rw [List.range_eq_range']
    have he : (fun l => if F l % 2 ^ 64 = 0 then none else some (l, BitVec.ofNat 64 (F l)))
        = (fun l => Option.map (fun v => (l, v)) (if F l % 2 ^ 64 = 0 then none else some (BitVec.ofNat 64 (F l)))) := by
      funext l; split <;> rfl
    rw [he]
    simp only [Nat.mul_zero, Nat.zero_add] at h ⊢
    rw [h, if_pos hl]
    split
    · rename_i hz; exact hz.symm
    · simp
  · intro p hp
    simp only [List.mem_filterMap, List.mem_range] at hp
    obtain ⟨a, ha, hb⟩ := hp
    split at hb
    · cases hb
    · cases hb; show a < 64; omega
  · intro p hp
    simp only [List.mem_map] at hp
    obtain ⟨q, _, rfl⟩ := hp
    show 64 ≤ q.1 + 64; omega

theorem rdLat_pushLat_succ {g : Group} (hlat : SMap.wf 0 g.lat = true) (hw : g.width ≤ 64) (F : Nat → Nat) {j l : Nat}
    (hj : j < 3) (hl : l < 64) : rdLat (pushLat g F) (j + 1) l = rdLat g j l := by
  unfold rdLat pushLat allLanes
  simp only
  rw [SMap.get_append (c := 64)]
  · rw [if_neg (by omega), show 64 * (j + 1) + l = (64 * j + l) + 64 by omega, SMap.get_map_add, SMap.get_filter_lt hlat (by omega)]
  · intro p hp
    simp only [List.mem_filterMap, List.mem_range] at hp
    obtain ⟨a, ha, hb⟩ := hp
    split at hb
    · cases hb
    · cases hb; show a < 64; omega
  · intro p hp
    simp only [List.mem_map] at hp
    obtain ⟨q, _, rfl⟩ := hp
    show 64 ≤ q.1 + 64; omega

/-! ## Results (R66, R67, R99) -/

/-- The lanes and registers a result writes, with their words. -/
def resultV (n k : Nat) (lanes : List Nat) (f : Nat → Nat) : List (Nat × W32) :=
  lanes.flatMap (fun l => ((words k (f l)).zipIdx).map (fun xi => (64 * (n + xi.2) + l, BitVec.ofNat 32 xi.1)))
def resultS (n k x : Nat) : List (Nat × W32) := (words k x).zipIdx.map (fun xi => (n + xi.2, BitVec.ofNat 32 xi.1))

theorem mem_resultV {n k : Nat} {lanes : List Nat} {f : Nat → Nat} {p : Nat × W32} :
    p ∈ resultV n k lanes f ↔ ∃ l ∈ lanes, ∃ i, i < k ∧ p = (64 * (n + i) + l, BitVec.ofNat 32 (wordOfVal (f l) i)) := by
  simp only [resultV, List.mem_flatMap, List.mem_map]
  constructor
  · rintro ⟨l, hl, q, hq, rfl⟩
    have h := mem_words_zipIdx.1 hq
    exact ⟨l, hl, q.2, h.1, by rw [h.2]⟩
  · rintro ⟨l, hl, i, hi, rfl⟩
    exact ⟨l, hl, (wordOfVal (f l) i, i), mem_words_zipIdx.2 ⟨hi, rfl⟩, rfl⟩

theorem mem_resultS {n k x : Nat} {p : Nat × W32} :
    p ∈ resultS n k x ↔ ∃ i, i < k ∧ p = (n + i, BitVec.ofNat 32 (wordOfVal x i)) := by
  simp only [resultS, List.mem_map]
  constructor
  · rintro ⟨q, hq, rfl⟩
    have h := mem_words_zipIdx.1 hq
    exact ⟨q.2, h.1, by rw [h.2]⟩
  · rintro ⟨i, hi, rfl⟩
    exact ⟨(wordOfVal x i, i), mem_words_zipIdx.2 ⟨hi, rfl⟩, rfl⟩

theorem toNat_word (x i : Nat) : (BitVec.ofNat 32 (wordOfVal x i)).toNat = wordOfVal x i := by
  rw [BitVec.toNat_ofNat]; exact Nat.mod_eq_of_lt (wordOfVal_lt x i)

/-- A group with other `v` registers, or other `s` registers. -/
def Group.withV (g : Group) (m : SMap W32) : Group := { g with v := m }
def Group.withS (g : Group) (m : SMap W32) : Group := { g with s := m }

theorem wrRes_nw {g : Group} {x : InsWord} (h : x.nw = true) (k : Nat) (lanes : List Nat) (f : Nat → Nat) :
    wrRes g x k lanes f = pushLat g (fun l => if l ∈ lanes then f l else 0) := by simp [wrRes, h]

theorem wrRes_v {g : Group} {x : InsWord} {n : BitVec 8} (h : x.nw = false) (hd : x.dst = .v n) (k : Nat) (lanes : List Nat)
    (f : Nat → Nat) : wrRes g x k lanes f = (fun h => pushLat h (fun l => rdVs h n.toNat l k))
      (g.withV (SMap.putAll 0 g.v (resultV n.toNat k lanes f))) := by
  simp only [wrRes, h, hd]; rfl

theorem wrRes_s {g : Group} {x : InsWord} {n : BitVec 6} (h : x.nw = false) (hd : x.dst = .s n) (k : Nat) (lanes : List Nat)
    (f : Nat → Nat) : wrRes g x k lanes f = (fun h => pushLat h (fun _ => rdSs h n.toNat k))
      (g.withS (match lanes with | [] => g.s | l :: _ => SMap.putAll 0 g.s (resultS n.toNat k (f l)))) := by
  simp only [wrRes, h, hd]
  cases lanes with
  | nil => rfl
  | cons l r => simp only [wrSs_s]; rfl

/-- `wrRes` does what `ResultWritten` says and no more. -/
theorem wrRes_spec {g : Group} (hg : g.ok = true) (x : InsWord) (k : Nat) {lanes : List Nat} (hl : ∀ l ∈ lanes, l < 64)
    (f : Nat → Nat) : ResultWritten g (wrRes g x k lanes f) x k lanes f := by
  obtain ⟨hv, hs, hp, hlat, hw⟩ := (Group.ok_iff g).1 hg
  unfold ResultWritten
  cases hnw : x.nw with
  | true =>
    simp only [wrRes_nw hnw]
    refine ⟨rfl, fun l hlw => ?_, fun j l hj h64 => rdLat_pushLat_succ hlat hw _ hj h64⟩
    rw [rdLat_pushLat_zero hw _ hlw]
    split <;> simp
  | false =>
    cases hd : x.dst with
    | v n =>
      simp only [wrRes_v hnw hd]
      refine ⟨rfl, ?_, ?_, fun l hlw => rdLat_pushLat_zero (g := g.withV _) hw _ hlw,
        fun j l hj h64 => (rdLat_pushLat_succ (g := g.withV _) hlat hw _ hj h64).trans rfl⟩
      · intro l i hl1 hi
        show (SMap.get 0 (SMap.putAll 0 g.v _) (64 * (n.toNat + i) + l)).toNat = _
        rw [SMap.get_putAll_eq hv (v := BitVec.ofNat 32 (wordOfVal (f l) i)), toNat_word]
        · intro p hp1 hpe
          obtain ⟨l', hl', i', hi', rfl⟩ := mem_resultV.1 hp1
          have h1 := hl l' hl'
          have h2 := hl l hl1
          simp only at hpe
          have hll : l' = l := by omega
          have hii : i' = i := by omega
          rw [hll, hii]
        · exact ⟨_, mem_resultV.2 ⟨l, hl1, i, hi, rfl⟩, rfl⟩
      · intro m l h64 hnot
        show (SMap.get 0 (SMap.putAll 0 g.v _) (64 * m + l)).toNat = _
        rw [SMap.get_putAll_ne hv]
        · rfl
        · intro p hp1 hpe
          obtain ⟨l', hl', i', hi', rfl⟩ := mem_resultV.1 hp1
          have h1 := hl l' hl'
          simp only at hpe
          have hll : l' = l := by omega
          subst hll
          exact hnot ⟨hl', by omega, by omega⟩
    | s n =>
      simp only [wrRes_s hnw hd]
      refine ⟨rfl, ?_, ?_, fun l hlw => rdLat_pushLat_zero (g := g.withS _) hw _ hlw,
        fun j l hj h64 => (rdLat_pushLat_succ (g := g.withS _) hlat hw _ hj h64).trans rfl⟩
      · intro l i hl1 hi
        cases lanes with
        | nil => simp at hl1
        | cons l0 r =>
          simp only [List.head?_cons, Option.some.injEq] at hl1
          subst hl1
          show (SMap.get 0 (SMap.putAll 0 g.s _) (n.toNat + i)).toNat = _
          rw [SMap.get_putAll_eq hs (v := BitVec.ofNat 32 (wordOfVal (f l0) i)), toNat_word]
          · intro p hp1 hpe
            obtain ⟨i', hi', rfl⟩ := mem_resultS.1 hp1
            simp only at hpe
            have hii : i' = i := by omega
            rw [hii]
          · exact ⟨_, mem_resultS.2 ⟨i, hi, rfl⟩, rfl⟩
      · intro m hnot
        cases lanes with
        | nil => rfl
        | cons l0 r =>
          show (SMap.get 0 (SMap.putAll 0 g.s _) m).toNat = _
          rw [SMap.get_putAll_ne hs]
          · rfl
          · intro p hp1 hpe
            obtain ⟨i', hi', rfl⟩ := mem_resultS.1 hp1
            simp only at hpe
            exact hnot ⟨by simp, by omega, by omega⟩
    | latch n => simp [wrRes, hnw, hd]
    | lit => simp [wrRes, hnw, hd]
    | zero => simp [wrRes, hnw, hd]
    | imm n => simp [wrRes, hnw, hd]

theorem mem_lanesOf {m : W64} {w l : Nat} : l ∈ lanesOf m w ↔ l < w ∧ m.getLsbD l = true := by simp [lanesOf]

theorem active_lt {g : Group} (hg : g.ok = true) (x : InsWord) : ∀ l ∈ active g x, l < 64 := by
  intro l hl
  have h := (mem_lanesOf.1 hl).1
  have := ((Group.ok_iff g).1 hg).2.2.2.2
  omega

/-- An instruction that changes its own group's registers only. -/
theorem onGroup_next {s : State} {g : Group} (h : curGroup s = some g) (f : Group → Group) : onGroup s f = .next (finish s (f g)) := by
  simp [onGroup, h]

theorem withGroup_next {s : State} {g : Group} (h : curGroup s = some g) (f : Group → State) : withGroup s f = .next (f g) := by
  simp [withGroup, h]

/-- The shared shape of the arithmetic instructions: one result in the lanes of `Active()`. -/
theorem computes_alu {s : State} {g : Group} {i : Instr} {x : InsWord} {k : Nat} {f : Nat → Nat} (h : curGroup s = some g)
    (hg : g.ok = true) {F : Group → Group} (he : exec i s = onGroup s F) (hF : F g = alu g x k f) : Computes i s g x k f := by
  refine ⟨alu g x k f, ?_, wrRes_spec hg x k (active_lt hg x) f⟩
  rw [he, onGroup_next h, hF]

end Sys2Proof.Machine
end

