-- ==== Sys2Proof/Machine/AsmText.lean ====
section
/-! DEFINITION. The source text of the `ilas` assembler: its diagnostics (R85, R97), its words, constants and expressions
(R86), its statements and operands (R87) and its macro bodies (R93). The assembler holds no state of the machine: it is a
function from source lines to an object. -/

namespace Sys2Proof.Machine
open Sys2Proof

/-- Text, one character at a time. -/
abbrev Text := List Char

/-! ## Diagnostics (R85, R97) -/

/-- The diagnostics ILA-nnnn and their meanings, in the table's order. -/
def diagTable : List (Nat × String) :=
  [(1, "A source or include file cannot be opened"),
   (2, "Include nesting beyond 16, or a file includes itself"),
   (3, "The object or listing cannot be written"),
   (101, "Unknown mnemonic or directive"),
   (102, "Unknown, repeated or conflicting modifier"),
   (103, "Wrong number of operands"),
   (104, "Operand kind not allowed in this field"),
   (105, "Register index out of range"),
   (106, "Misaligned register pair or group of four"),
   (107, "v register at or above .vregs"),
   (108, "Two different literal values in one instruction"),
   (109, "Constant outside the operand's range"),
   (110, ".NW on an instruction without a latch result"),
   (111, "Privileged mnemonic outside a priv kernel"),
   (112, "Rounding code not allowed here"),
   (113, "Undefined symbol"),
   (114, "Symbol defined twice, or spelling a reserved name"),
   (115, "Expression not constant where a constant is required"),
   (116, "Store or atomic to segment Q or C, or a bad segment letter"),
   (117, "Scaled index on an atomic or reduction, which has no index scale"),
   (118, "Shift count outside 0 to 63, or division or remainder by zero, in an expression")]
  ++ [(201, "Latch read without enough results in its chain"),
   (202, "Instruction forbidden inside a chain"),
   (203, "Chain overwrites a register it read earlier"),
   (204, "Chain run longer than one line"),
   (205, "Illegal pair"),
   (206, "|| with no statement before it in the same kernel"),
   (207, "Prefix misuse"),
   (208, "Target does not accept the prefix"),
   (209, "Label or return point on a prefix target"),
   (210, "Branch to an expression that is not a label; no ENTRY bit is guaranteed"),
   (211, "Label or return point on the second slot of a pair")]
  ++ [(301, "Directive not allowed in this section, or outside a kernel or stream"),
   (302, "Invalid .width"),
   (303, "Invalid .vregs"),
   (304, "Invalid .team"),
   (305, ".quads with a team that is not a multiple of 4"),
   (306, "Invalid window specification, or window directive outside a stream"),
   (307, "panes delivery not possible for this window"),
   (308, "Entry kind missing, repeated or not allowed"),
   (309, "More than 16 spawnable entries"),
   (310, "Unknown, missing or inapplicable .launch keyword"),
   (311, "Invalid .ring"),
   (312, "Matrix instruction without .quads, or at width 16"),
   (313, ".scratch layout larger than 1,015,808 bytes after rounding")]
  ++ [(401, "Unknown macro parameter or % expansion, a parameter named n, or too many arguments"),
   (402, "Macro depth beyond 16, or recursive macro"),
   (403, ".endm, .endl, .else or .endif without its opening"),
   (404, "Block still open at the end of the file"),
   (405, "Macro name spells a mnemonic or directive"),
   (501, "Matrix instruction under a guard other than p7; quad members may disagree"),
   (502, "NOP padding inserted to keep a chain or prefix unit in one line"),
   (503, "Floating-point constant not exact in its format")]

/-- The four diagnostics that are warnings (R97). -/
def diagWarns (n : Nat) : Bool := n = 210 || n = 501 || n = 502 || n = 503

/-- A diagnostic: where it is, a line number above 2^24 times the number of the file among those included, and its number; an
ILA-0205 adds 1,000 times the condition of R59 that fails. -/
structure Diag where
  line : Nat
  num : Nat
  deriving DecidableEq, Repr, Inhabited

/-- Whether a diagnostic counts as an error, `--werror` given or not (R84). -/
def Diag.isError (werror : Bool) (d : Diag) : Bool := werror || !diagWarns d.num

/-- ILA-0205 for a condition of R59. -/
def illegalPair (cond : Nat) : Nat := 205 + 1000 * cond

/-- A number in four decimal digits. -/
def fourDigits (n : Nat) : String :=
  let s := toString n
  String.ofList (List.replicate (4 - s.length) '0') ++ s

/-- The form of a diagnostic on standard error (R85): `files` are the source and the files it includes. -/
def Diag.show (werror : Bool) (files : List Text) (d : Diag) : String :=
  String.ofList (files.getD (d.line / 2 ^ 24) []) ++ ":" ++ toString (d.line % 2 ^ 24) ++ ": ILA-" ++ fourDigits (d.num % 1000)
    ++ (if d.isError werror then " error: " else " warning: ")
    ++ ((diagTable.find? (fun r => r.1 = d.num % 1000)).map (·.2)).getD ""
    ++ (if 1000 ≤ d.num then ": condition " ++ toString (d.num / 1000) ++ " of R59" else "")

/-! ## Characters and words (R86) -/

def isBlank (c : Char) : Bool := c = ' ' || c = '\t' || c = '\r'
def skipBlank (t : Text) : Text := t.dropWhile isBlank
def trim (t : Text) : Text := (skipBlank (skipBlank t).reverse).reverse
def lowerText (t : Text) : Text := t.map Char.toLower
def isLetter (c : Char) : Bool := (65 ≤ c.toNat && c.toNat ≤ 90) || (97 ≤ c.toNat && c.toNat ≤ 122)
def isDigit (c : Char) : Bool := 48 ≤ c.toNat && c.toNat ≤ 57

/-- The characters of a symbol; a digit may not begin one. -/
def isSymChar (c : Char) : Bool := isLetter c || isDigit c || c = '_' || c = '$'
def isSymStart (c : Char) : Bool := isSymChar c && !isDigit c

/-- A text whose characters are all a symbol's, not begun by a digit. -/
def isSymbol (t : Text) : Bool := (match t with | [] => false | c :: _ => isSymStart c) && t.all isSymChar

/-- A decimal number without underscores. -/
def plainNat (t : Text) : Option Nat :=
  if t = [] || !t.all isDigit then none else some (t.foldl (fun n c => 10 * n + (c.toNat - 48)) 0)

/-- The value of a digit in a base. -/
def digitIn (base : Nat) (c : Char) : Option Nat :=
  let v := if isDigit c then c.toNat - 48 else if isLetter c then c.toLower.toNat - 87 else 99
  if v < base then some v else none

/-- The digits of a constant: underscores may stand between digits only. -/
def digitsIn (base : Nat) (t : Text) : Option Nat :=
  if t.head? = some '_' || t.getLast? = some '_' || t = [] then none
  else (t.filter (fun c => c ≠ '_')).foldl (fun n c => n.bind (fun n => (digitIn base c).map (fun d => n * base + d))) (some 0)

/-- Names spelled as registers, latches, segment letters or `_` (R86). -/
def reservedName (t : Text) : Bool :=
  let indexed (k : Char) (n : Nat) : Bool := match lowerText t with
    | c :: d => c = k && ((plainNat d).map (fun i => decide (i < n))).getD false
    | [] => false
  t = ['_'] || t = ['G'] || t = ['S'] || t = ['N'] || t = ['P'] || t = ['Q'] || t = ['C'] || indexed 'v' 256 || indexed 's' 64
    || indexed 'p' 8 || indexed 'l' 4

/-! ## Expressions (R86) -/

inductive BinOp where | mul | div | rem | add | sub | shl | shr | and | xor | or
  deriving DecidableEq, Repr, Inhabited

/-- An expression. `flt m e` is the floating-point constant m·10^e, which stands alone or under a unary minus. -/
inductive AsmExpr where
  | int (v : W64)
  | flt (m : Nat) (e : Int)
  | sym (n : Text)
  | neg (a : AsmExpr)
  | inv (a : AsmExpr)
  | bin (o : BinOp) (a b : AsmExpr)
  deriving DecidableEq, Repr, Inhabited

/-- The operator at the head of a text at a level of binding, 0 the loosest. -/
def opAt (level : Nat) (t : Text) : Option (BinOp × Text) :=
  match level, t with
  | 0, '|' :: r => if r.head? = some '|' then none else some (.or, r)
  | 1, '^' :: r => some (.xor, r)
  | 2, '&' :: r => some (.and, r)
  | 3, '<' :: '<' :: r => some (.shl, r)
  | 3, '>' :: '>' :: r => some (.shr, r)
  | 4, '+' :: r => some (.add, r)
  | 4, '-' :: r => some (.sub, r)
  | 5, '*' :: r => some (.mul, r)
  | 5, '/' :: r => some (.div, r)
  | 5, '%' :: r => some (.rem, r)
  | _, _ => none

/-- The characters of a decimal number at the head of a text: a sign may follow an exponent's letter. -/
def decimalRun : Text → Text × Text
  | [] => ([], [])
  | c :: t =>
    if isSymChar c || c = '.' then
      let r := decimalRun t
      match (c = 'e' || c = 'E'), t with
      | true, s :: u =>
        if (s = '+' || s = '-') && (u.head?.map isDigit).getD false then
          let q := decimalRun u
          (c :: s :: q.1, q.2)
        else (c :: r.1, r.2)
      | _, _ => (c :: r.1, r.2)
    else ([], c :: t)

/-- The characters of a number at the head of a text; in a `0x` or `0b` constant no letter begins an exponent. -/
def numberRun (t : Text) : Text × Text :=
  match t with
  | '0' :: 'x' :: _ | '0' :: 'X' :: _ | '0' :: 'b' :: _ | '0' :: 'B' :: _ => (t.takeWhile isSymChar, t.dropWhile isSymChar)
  | _ => decimalRun t

/-- A constant's number: decimal, `0x`, `0b`, or a decimal with a point or an exponent. An integer of more than 64 bits is
none. -/
def numberOf (t : Text) : Option AsmExpr :=
  let int (o : Option Nat) : Option AsmExpr := o.bind (fun v => if v < 2 ^ 64 then some (.int (BitVec.ofNat 64 v)) else none)
  match t with
  | '0' :: 'x' :: d | '0' :: 'X' :: d => int (digitsIn 16 d)
  | '0' :: 'b' :: d | '0' :: 'B' :: d => int (digitsIn 2 d)
  | _ =>
    let m := t.takeWhile (fun c => c ≠ 'e' && c ≠ 'E')
    let x := t.drop (m.length + 1)
    let ip := m.takeWhile (fun c => c ≠ '.')
    let fp := m.drop (ip.length + 1)
    if m.length = t.length && !m.contains '.' then int (digitsIn 10 t)
    else
      let exp : Option Int :=
        if m.length = t.length then some 0
        else match x with
          | '-' :: d => (digitsIn 10 d).map (fun n => - (n : Int))
          | '+' :: d => (digitsIn 10 d).map (fun n => (n : Int))
          | d => (digitsIn 10 d).map (fun n => (n : Int))
      match exp, digitsIn 10 ip, (if fp = [] then some 0 else digitsIn 10 fp) with
      | some e, some i, some f =>
        let k := (fp.filter (fun c => c ≠ '_')).length
        some (.flt (i * 10 ^ k + f) (e - (k : Int)))
      | _, _, _ => none

/-- One expression and the text after it. Level 6 is a unary operator or a primary; `acc` holds what stands before an
operator of the level. `fuel` bounds the depth. -/
def pExpr : Nat → Nat → Option AsmExpr → Text → Option (AsmExpr × Text)
  | 0, _, _, _ => none
  | fuel + 1, level, none, t =>
    if level < 6 then
      (pExpr fuel (level + 1) none t).bind (fun r => pExpr fuel level (some r.1) r.2)
    else
      match skipBlank t with
      | '-' :: r => (pExpr fuel 6 none r).map (fun q => (.neg q.1, q.2))
      | '~' :: r => (pExpr fuel 6 none r).map (fun q => (.inv q.1, q.2))
      | '(' :: r => (pExpr fuel 0 none r).bind (fun q => match skipBlank q.2 with
          | ')' :: u => some (q.1, u)
          | _ => none)
      | c :: r =>
        if isDigit c then
          let q := numberRun (c :: r)
          (numberOf q.1).map (fun e => (e, q.2))
        else if isSymStart c then some (.sym ((c :: r).takeWhile isSymChar), (c :: r).dropWhile isSymChar)
        else none
      | [] => none
  | fuel + 1, level, some a, t =>
    match opAt level (skipBlank t) with
    | none => some (a, t)
    | some (o, r) =>
      (pExpr fuel (level + 1) none r).bind (fun q => pExpr fuel level (some (.bin o a q.1)) q.2)

/-- A text that is one expression. -/
def exprOf (t : Text) : Option AsmExpr :=
  match pExpr (8 * t.length + 16) 0 none t with
  | some (e, r) => if skipBlank r = [] then some e else none
  | none => none

/-! ## Values of expressions -/

/-- The sections (R89), and the place of a symbol declared by `.extern`. -/
inductive ASec where | text | data | rodata | scratch | pocket | extern | abs
  deriving DecidableEq, Repr, Inhabited

/-- A value: absolute, or relative to the place of a symbol, with the symbol's own offset and the value in its section. -/
structure AVal where
  rel : Option (ASec × Text)
  v : W64
  deriving DecidableEq, Repr, Inhabited

def absVal (v : W64) : AVal := ⟨none, v⟩

/-- One operation on constants (R86). -/
def binVal (o : BinOp) (a b : W64) : Except Nat W64 :=
  match o with
  | .mul => .ok (a * b)
  | .div => if b = 0 then .error 118 else .ok (a.sdiv b)
  | .rem => if b = 0 then .error 118 else .ok (a.srem b)
  | .add => .ok (a + b)
  | .sub => .ok (a - b)
  | .shl => if 64 ≤ b.toNat then .error 118 else .ok (a <<< b.toNat)
  | .shr => if 64 ≤ b.toNat then .error 118 else .ok (a.sshiftRight b.toNat)
  | .and => .ok (a &&& b)
  | .xor => .ok (a ^^^ b)
  | .or => .ok (a ||| b)

/-- The value of an expression. A sum with a constant, and a difference of two places of one section, are the only
operations on a relocatable value; a floating-point constant has no integer value. -/
def evalExpr (env : Text → Option AVal) : AsmExpr → Except Nat AVal
  | .int v => .ok (absVal v)
  | .flt _ _ => .error 115
  | .sym n => (match env n with | some v => .ok v | none => .error 113)
  | .neg a => (evalExpr env a).bind (fun x => if x.rel = none then .ok (absVal (-x.v)) else .error 115)
  | .inv a => (evalExpr env a).bind (fun x => if x.rel = none then .ok (absVal (~~~x.v)) else .error 115)
  | .bin o a b =>
    (evalExpr env a).bind (fun x => (evalExpr env b).bind (fun y =>
      match x.rel, y.rel, o with
      | none, none, _ => (binVal o x.v y.v).map absVal
      | some r, none, .add => .ok ⟨some r, x.v + y.v⟩
      | some r, none, .sub => .ok ⟨some r, x.v - y.v⟩
      | none, some r, .add => .ok ⟨some r, x.v + y.v⟩
      | some r, some q, .sub => if r.1 = q.1 && (r.1 ≠ .extern || r.2 = q.2) then .ok (absVal (x.v - y.v)) else .error 115
      | _, _, _ => .error 115))

/-- The value of an expression that must be constant. -/
def constExpr (env : Text → Option AVal) (e : AsmExpr) : Except Nat W64 :=
  (evalExpr env e).bind (fun x => if x.rel = none then .ok x.v else .error 115)

/-! ## Operands (R87) -/

/-- A term of a memory operand: a register, pair or latch with its written scale. -/
structure AReg where
  s : Bool
  latch : Bool
  n : Nat
  pair : Bool
  deriving DecidableEq, Repr, Inhabited

inductive AKind where
  | reg (r : AReg)
  | pred (n : Nat) (neg : Bool)
  | under
  | expr (e : AsmExpr)
  | mem (seg : Text) (terms : List (AReg × Nat)) (const : Option AsmExpr)
  deriving DecidableEq, Repr, Inhabited

/-- An operand with the source modifiers written on it (R114). -/
structure AOpd where
  k : AKind
  neg : Bool
  abs : Bool
  deriving DecidableEq, Repr, Inhabited

/-- Split a text at a character that stands outside brackets, parentheses, bars and quotes. -/
def splitAtTop (sep : Char) : Nat → Bool → Text → Text → List Text
  | _, _, acc, [] => [acc.reverse]
  | depth, quote, acc, c :: t =>
    if c = '"' then splitAtTop sep depth (!quote) (c :: acc) t
    else if quote then splitAtTop sep depth quote (c :: acc) t
    else if c = sep && depth = 0 then acc.reverse :: splitAtTop sep 0 false [] t
    else if c = '[' || c = '(' then splitAtTop sep (depth + 1) false (c :: acc) t
    else if c = ']' || c = ')' then splitAtTop sep (depth - 1) false (c :: acc) t
    else splitAtTop sep depth false (c :: acc) t

/-- The comma-separated parts of a text, none for a blank text. -/
def commaParts (t : Text) : List Text := if trim t = [] then [] else (splitAtTop ',' 0 false [] t).map trim

/-- One register name: its kind and index. A number beyond the kind's range is ILA-0105. -/
def regName (t : Text) : Option (Except Nat (Bool × Bool × Nat)) :=
  match lowerText t with
  | c :: d =>
    match plainNat d with
    | none => none
    | some n =>
      if c = 'v' then some (if n < 256 then .ok (false, false, n) else .error 105)
      else if c = 's' then some (if n < 64 then .ok (true, false, n) else .error 105)
      else if c = 'l' && n < 4 then some (.ok (false, true, n))
      else none
  | [] => none

/-- A register, a pair `vN:vN+1` or a latch. -/
def regOf (t : Text) : Option (Except Nat AReg) :=
  match splitAtTop ':' 0 false [] t with
  | [a] => (regName (trim a)).map (fun r => r.map (fun q => ⟨q.1, q.2.1, q.2.2, false⟩))
  | [a, b] =>
    match regName (trim a), regName (trim b) with
    | some (.ok (s, false, n)), some (.ok (s', false, m)) =>
      some (if s = s' && m = n + 1 then .ok ⟨s, false, n, true⟩ else .error 106)
    | some (.error e), some _ | some _, some (.error e) => some (.error e)
    | _, _ => none
  | _ => none

/-- Cut an address before each sign outside parentheses; each part keeps its sign. -/
def signedParts : Nat → Text → Text → List Text
  | _, acc, [] => [acc.reverse]
  | depth, acc, c :: t =>
    if (c = '+' || c = '-') && depth = 0 then acc.reverse :: signedParts 0 [c] t
    else if c = '(' then signedParts (depth + 1) (c :: acc) t
    else if c = ')' then signedParts (depth - 1) (c :: acc) t
    else signedParts depth (c :: acc) t

/-- A part of an address that is a register term: its sign and its scale. -/
def regTerm (t : Text) : Option (Except Nat (AReg × Nat)) :=
  let body := match trim t with | '+' :: r => trim r | '-' :: r => trim r | r => r
  let minus := (trim t).head? = some '-'
  let scaled : Option (Text × Text) := match splitAtTop '*' 0 false [] body with
    | [a] => some (a, ['1'])
    | [a, b] => some (a, trim b)
    | _ => none
  match scaled with
  | none => none
  | some (a, b) =>
    match regOf (trim a) with
    | none => none
    | some (.error e) => some (.error e)
    | some (.ok r) =>
      if minus then some (.error 104)
      else match plainNat b with
        | some k => if k = 1 || k = 2 || k = 4 || k = 8 then some (.ok (r, k)) else some (.error 104)
        | none => some (.error 104)

/-- The bracketed address of a memory operand: register terms, and the rest as one constant expression. -/
def addressOf (seg : Text) (t : Text) : Except Nat AKind :=
  let parts := signedParts 0 [] t
  let regs := parts.filterMap regTerm
  let rest := trim (parts.filter (fun p => (regTerm p).isNone)).flatten
  let rest := match rest with | '+' :: r => trim r | r => r
  match regs.mapM (fun r => r) with
  | .error e => .error e
  | .ok terms =>
    if rest = [] then .ok (.mem seg terms none)
    else match exprOf rest with
      | some e => .ok (.mem seg terms (some e))
      | none => .error 104

/-- One operand. -/
def operandOf (t : Text) : Except Nat AOpd :=
  let t := trim t
  let plain (k : AKind) : Except Nat AOpd := .ok ⟨k, false, false⟩
  if t = ['_'] then plain .under
  else
    let (pn, pt) := match t with | '!' :: r => (true, trim r) | r => (false, r)
    match pt with
    | c :: d =>
      if (c = 'p' || c = 'P') && (plainNat d).isSome then
        (if (plainNat d).getD 8 < 8 then plain (.pred ((plainNat d).getD 0) pn) else .error 105)
      else if pn then .error 104
      else if t.getLast? = some ']' && t.contains '[' then
        (addressOf (trim (t.takeWhile (fun c => c ≠ '['))) (((t.dropWhile (fun c => c ≠ '[')).drop 1).dropLast)).bind plain
      else
        let (ng, u) := match t with
          | '-' :: r => if (regOf (trim r)).isSome || (trim r).head? = some '|' then (true, trim r) else (false, t)
          | _ => (false, t)
        let (ab, w) := match u with
          | '|' :: r => if r.getLast? = some '|' then (true, trim r.dropLast) else (false, u)
          | _ => (false, u)
        match regOf w with
        | some (.ok r) => .ok ⟨.reg r, ng, ab⟩
        | some (.error e) => .error e
        | none => match exprOf w with
          | some e => .ok ⟨.expr e, ng, ab⟩
          | none => .error 104
    | [] => .error 103

/-! ## Statements (R87) -/

/-- An instruction statement: guard, the mnemonic with its modifiers in lower case, operands; `pair` for a leading `||`. -/
structure AIns where
  pidx : Nat
  pneg : Bool
  words : List Text
  ops : List AOpd
  deriving DecidableEq, Repr, Inhabited

/-- The guard `pN?` or `!pN?` at the head of a statement; p7 without one. -/
def guardOf (t : Text) : Nat × Bool × Text :=
  let (n, u) := match t with | '!' :: r => (true, skipBlank r) | r => (false, r)
  match u with
  | c :: d :: '?' :: r =>
    if (c = 'p' || c = 'P') && isDigit d && d.toNat < 56 then (d.toNat - 48, n, skipBlank r) else (7, false, t)
  | _ => (7, false, t)

/-- An instruction statement. -/
def insOf (t : Text) : Except Nat AIns :=
  let (pi, pn, r) := guardOf (trim t)
  let head := r.takeWhile (fun c => !isBlank c)
  let rest := r.drop head.length
  if head = [] then .error 101
  else ((commaParts rest).mapM operandOf).map (fun ops => ⟨pi, pn, splitAtTop '.' 0 false [] (lowerText head), ops⟩)

/-- A source line without its comment. -/
def stripComment : Bool → Text → Text
  | _, [] => []
  | q, c :: t =>
    if c = '"' then c :: stripComment (!q) t
    else if q then c :: stripComment q t
    else if c = ';' || (c = '/' && t.head? = some '/') then []
    else c :: stripComment q t

/-- The labels that stand before a line's statement, and the statement. `fuel` bounds their number. -/
def labelsOf : Nat → Text → List Text × Text
  | 0, t => ([], t)
  | fuel + 1, t =>
    let u := skipBlank t
    let n := u.takeWhile isSymChar
    match skipBlank (u.drop n.length) with
    | ':' :: r => if isSymbol n then (let q := labelsOf fuel r; (n :: q.1, q.2)) else ([], u)
    | _ => ([], u)

/-! ## Macro bodies (R93) -/

/-- Expand a body: `%` takes the longest run of symbol characters, `%(p)` a delimited one, `%%` is one `%`. `num` is the
expansion's number. -/
def expandPct (num : Nat) (args : List (Text × Text)) : Nat → Text → Except Nat Text
  | 0, _ => .error 401
  | _, [] => .ok []
  | fuel + 1, '%' :: '%' :: t => (expandPct num args fuel t).map (fun r => '%' :: r)
  | fuel + 1, '%' :: t =>
    let (name, rest) := match t with
      | '(' :: u => (u.takeWhile (fun c => c ≠ ')'), (u.dropWhile (fun c => c ≠ ')')).drop 1)
      | u => (u.takeWhile isSymChar, u.dropWhile isSymChar)
    let text : Option Text := if name = ['n'] then some (toString num).toList else args.lookup name
    match text with
    | none => .error 401
    | some x => (expandPct num args fuel rest).map (fun r => x ++ r)
  | fuel + 1, c :: t => (expandPct num args fuel t).map (fun r => c :: r)

/-- The arguments of a use bound to the parameters: the empty text for those left out. -/
def bindArgs (params args : List Text) : Except Nat (List (Text × Text)) :=
  if params.length < args.length then .error 401
  else .ok (params.zip (args ++ List.replicate (params.length - args.length) []))

end Sys2Proof.Machine
end

