-- ==== Sys2Proof/Machine/AsmCode.lean ====
section
/-! DEFINITION. From a statement of `ilas` to instruction words: the assembly form of every mnemonic, with its modifiers
and where its operands go (R26, R87, and the tables of each class's chapter), constants (R63, R88, R455) and the checks on
one instruction (R97). -/

namespace Sys2Proof.Machine
open Sys2Proof

/-! ## Assembly forms -/

/-- Where an operand of a statement goes: an operand field, a memory address (R193) or one-term address, a predicate in
MOD, a number in MOD, the displacement, the literal, the count register of `CMPR`, a special register, or a class of
`FENCE.X`. -/
inductive SlotKind where | d | a | b | c | mem | memA | memB | pd | ps | pr | num | disp | lit | cnt | sr | cls
  deriving DecidableEq, Repr, Inhabited

/-- One operand of a form: its place, the MOD bit it starts at and its width, whether it may be left out, what then stands
for it (an operand code or a MOD value), and what naming it adds to the opcode. -/
structure ASlot where
  k : SlotKind
  lo : Nat := 0
  w : Nat := 0
  opt : Bool := false
  dflt : Option Nat := none
  adds : Nat := 0
  deriving DecidableEq, Repr, Inhabited

/-- A choice of modifiers: each adds its value to the code; the value with none written, or none when one must be. -/
structure AMods where
  alts : List (String × Nat)
  none : Option Nat
  deriving DecidableEq, Repr, Inhabited

/-- A form: a mnemonic, its code (1024 · opcode + MOD), its operands, its modifiers, and the segments its address allows. -/
structure AForm where
  name : String
  code : Nat
  ops : List ASlot
  mods : List AMods := []
  segs : List Nat := [0, 1, 2, 3, 4, 5]
  deriving DecidableEq, Repr, Inhabited

def opCode (op : Nat) : Nat := 1024 * op

def oD : ASlot := { k := .d }
def oA : ASlot := { k := .a }
def oB : ASlot := { k := .b }
def oC : ASlot := { k := .c }
def oDopt : ASlot := { k := .d, opt := true }
def oMem : ASlot := { k := .mem }
def oMemA : ASlot := { k := .memA }
def oPd (lo : Nat) : ASlot := { k := .pd, lo := lo }
def oPdOpt (lo : Nat) : ASlot := { k := .pd, lo := lo, opt := true, dflt := some 7 }
def oPs (lo : Nat) : ASlot := { k := .ps, lo := lo }
def oPsOpt (lo : Nat) : ASlot := { k := .ps, lo := lo, opt := true, dflt := some 7 }
def oPr (lo : Nat) : ASlot := { k := .pr, lo := lo }
def oNum (lo w : Nat) : ASlot := { k := .num, lo := lo, w := w }
def oDisp : ASlot := { k := .disp }
def oLit : ASlot := { k := .lit }
def oLink : ASlot := { k := .d, opt := true, dflt := some (0x100 + 62) }

def modOpt (alts : List (String × Nat)) : AMods := ⟨alts, some 0⟩
def modReq (alts : List (String × Nat)) : AMods := ⟨alts, none⟩

/-- The integer type suffixes (R100); `step` is the distance to the 64-bit form. -/
def mType (step : Nat) : AMods :=
  modOpt [("i32", 0), ("b32", 0), ("n32", 1), ("i64", opCode step), ("b64", opCode step), ("n64", opCode step + 1)]
def mSat (bit : Nat) : AMods := modOpt [("sat", 2 ^ bit)]
def mFtz : AMods := modOpt [("ftz", 8)]
/-- Conditions (R110, R118) from a MOD bit. -/
def mCond (lo : Nat) (fp : Bool) : AMods :=
  modReq ([("eq", 0), ("ne", 2 ^ lo), ("lt", 2 * 2 ^ lo), ("le", 3 * 2 ^ lo), ("gt", 4 * 2 ^ lo), ("ge", 5 * 2 ^ lo)]
    ++ if fp then [("num", 6 * 2 ^ lo), ("nan", 7 * 2 ^ lo)] else [])
def mComb (lo : Nat) : AMods := modOpt [("and", 2 ^ lo), ("or", 2 * 2 ^ lo), ("xor", 3 * 2 ^ lo)]
/-- Rounding codes (R26); RNA only where a conversion allows it. -/
def mRnd (rna : Bool) : AMods :=
  modOpt ([("rn", 0), ("rz", 1), ("ru", 2), ("rd", 3)] ++ if rna then [("rna", 4)] else [])
def mFloat : AMods := modOpt [("f32", 0), ("f16", opCode 8), ("bf16", opCode 16)]
def mPacked : AMods := modOpt [("bf16", 0), ("f16", opCode 8)]
def mScope (lo : Nat) : AMods := ⟨[("grp", 0), ("team", 2 ^ lo), ("dev", 2 * 2 ^ lo), ("sys", 3 * 2 ^ lo)], some (2 * 2 ^ lo)⟩
def mSx : AMods := modOpt [("sx", 8)]

/-- The element formats, by R32 code. -/
def fmtNames : List (String × Nat) :=
  [("f32", 0), ("f16", 1), ("bf16", 2), ("e4m3", 3), ("e5m2", 4), ("i8", 8), ("n8", 9), ("i16", 10), ("n16", 11),
   ("i32", 12), ("n32", 13), ("i64", 14), ("n64", 15)]

/-- The integer forms (R103). -/
def intForms : List AForm :=
  let f (n : String) (op : Nat) (ops : List ASlot) (m : List AMods) : AForm := ⟨n, opCode op, ops, mType 0x20 :: m, []⟩
  [f "iadd" 0x001 [oD, oA, oB] [mSat 1], f "isub" 0x002 [oD, oA, oB] [mSat 1], f "imul" 0x003 [oD, oA, oB] [mSat 1],
   f "imulh" 0x004 [oD, oA, oB] [], f "imad" 0x005 [oD, oA, oB, oC] [mSat 1], f "idiv" 0x006 [oD, oA, oB] [mSat 1],
   f "irem" 0x007 [oD, oA, oB] [], f "imin" 0x008 [oD, oA, oB] [], f "imax" 0x009 [oD, oA, oB] [],
   f "iabs" 0x00A [oD, oA] [mSat 1], f "and" 0x00B [oD, oA, oB] [], f "or" 0x00C [oD, oA, oB] [],
   f "xor" 0x00D [oD, oA, oB] [], f "bfn3" 0x00E [oD, oA, oB, oC, oNum 2 8] [], f "shl" 0x00F [oD, oA, oB] [],
   f "shr" 0x010 [oD, oA, oB] [], f "sar" 0x011 [oD, oA, oB] [], f "rot" 0x012 [oD, oA, oB] [],
   f "fsh" 0x013 [oD, oA, oB, oC] [modOpt [("l", 4), ("r", 0)]], f "clz" 0x014 [oD, oA] [], f "popc" 0x015 [oD, oA] [],
   f "brev" 0x016 [oD, oA] [], f "bfe" 0x017 [oD, oA, oB] [], f "bfi" 0x018 [oD, oA, oB, oC] [],
   f "sel" 0x019 [oD, oA, oB, oPs 2] [], f "icmp" 0x01A [oPd 5, oA, oB] [mCond 2 false, mComb 8],
   f "iset" 0x01B [oD, oA, oB] [mCond 2 false, modOpt [("m", 0x20)]],
   f "lea" 0x01C [oD, oA, oB, { k := .c, opt := true }]
     [modOpt [("sh0", 0), ("sh1", 4), ("sh2", 8), ("sh3", 12), ("sh4", 16), ("sh5", 20), ("sh6", 24), ("sh7", 28)]],
   f "mov" 0x01D [oD, oA] [], f "movl" 0x01E [oD, oA] [modReq [("from8", 0), ("from16", 4), ("from32", 8)]]]

/-- The float, conversion, special-function and packed forms (R114 to R131). -/
def floatForms : List AForm :=
  let f (n : String) (op : Nat) (ops : List ASlot) (m : List AMods) : AForm := ⟨n, opCode op, ops, m, []⟩
  let r3 : List AMods := [mRnd false, mFtz, mSat 4]
  [f "fadd" 0x040 [oD, oA, oB] (mFloat :: r3), f "fmul" 0x041 [oD, oA, oB] (mFloat :: r3),
   f "ffma" 0x042 [oD, oA, oB, oC] (mFloat :: r3), f "fmin" 0x043 [oD, oA, oB] [mFloat, mFtz],
   f "fmax" 0x044 [oD, oA, oB] [mFloat, mFtz],
   f "fcmp" 0x045 [oPd 4, oA, oB] [mFloat, mCond 0 true, mFtz, mComb 7, modOpt [("abs", 0x200)]],
   f "fset" 0x046 [oD, oA, oB] [mFloat, mCond 0 true, mFtz, modOpt [("m", 16)]],
   f "frnd" 0x047 [oD, oA] [mFloat, mRnd true, mFtz],
   f "cvt" 0x060 [oD, oA] [modReq (fmtNames.map (fun p => (p.1, opCode p.2))), modReq (fmtNames.map (fun p => (p.1, 32 * p.2))),
     mRnd true, mFtz, mSat 4]]
  ++ (["exp2", "log2", "rcp", "rsq", "sqrt", "sin", "cos", "tanh", "sigm", "gelu", "silu", "erf"].zipIdx).map (fun p =>
    f p.1 (0x080 + p.2) [oD, oA] [modOpt [("acc", opCode 16)]])
  ++ [("exp2.bf2", 0x08C), ("rcp.bf2", 0x08D), ("rsq.bf2", 0x08E), ("tanh.bf2", 0x08F), ("sigm.bf2", 0x09C),
      ("gelu.bf2", 0x09D), ("silu.bf2", 0x09E), ("erf.bf2", 0x09F)].map (fun p => f p.1 p.2 [oD, oA] [])
  ++ [f "add2h" 0x0A0 [oD, oA, oB] (mPacked :: r3), f "mul2h" 0x0A1 [oD, oA, oB] (mPacked :: r3),
   f "fma2h" 0x0A2 [oD, oA, oB, oC] (mPacked :: r3), f "min2h" 0x0A3 [oD, oA, oB] [mPacked, mFtz],
   f "max2h" 0x0A4 [oD, oA, oB] [mPacked, mFtz], f "cmp2h" 0x0A5 [oD, oA, oB] [mPacked, mCond 0 true, mFtz],
   f "dot4" 0x0B0 [oD, oA, oB, oC] [modReq [("i8", 0), ("n8", opCode 1)], mSat 4],
   f "dot8" 0x0B2 [oD, oA, oB, oC] [modReq [("i4", 0), ("n4", opCode 1)], mSat 4],
   f "dot2" 0x0B4 [oD, oA, oB, oC] (modReq [("bf16", 0), ("f16", opCode 1)] :: r3),
   f "cvt.pk2" 0x0B8 [oD, oA, oB] [modReq [("bf16", 0), ("f16", opCode 1)], mRnd true, mFtz, mSat 4],
   f "cvt.pk4" 0x0BA [oD, oA, oB, oC]
     [modReq [("e4m3", 0), ("e5m2", opCode 1)], mRnd true, mFtz, mSat 4, modOpt [("lo", 0), ("hi", 0x20)]],
   f "cvt.unpk" 0x0BC [oD, oA, oB] [modReq [("f16", 0x20), ("bf16", 0x40), ("e4m3", 0x60), ("e5m2", 0x80)], mFtz]]

/-- The cross-lane forms (R139 to R156). -/
def laneForms : List AForm :=
  let f (n : String) (op : Nat) (ops : List ASlot) (m : List AMods) : AForm := ⟨n, opCode op, ops, m, [1, 2]⟩
  let seg : AMods := modOpt [("w2", 1), ("w4", 2), ("w8", 3), ("w16", 4), ("w32", 5), ("w64", 6)]
  let b64 (n : Nat) : AMods := modOpt [("b32", 0), ("b64", opCode n)]
  let va : ASlot := { k := .a, opt := true }
  [f "shfl.at" 0x0C0 [oD, oA, oB, oPdOpt 3] [b64 4, seg], f "shfl.lo" 0x0C1 [oD, oA, oB, oPdOpt 3] [b64 4, seg],
   f "shfl.hi" 0x0C2 [oD, oA, oB, oPdOpt 3] [b64 4, seg], f "shfl.flip" 0x0C3 [oD, oA, oB, oPdOpt 3] [b64 4, seg],
   f "vote.every" 0x0C8 [oPd 4, va, oPsOpt 0] [], f "vote.some" 0x0C9 [oPd 4, va, oPsOpt 0] [],
   f "vote.same" 0x0CA [oPd 4, va, oPsOpt 0] [], f "vote.mask" 0x0CB [oD, va, oPsOpt 0] [],
   f "match.peers" 0x0CC [oD, oA, oPdOpt 0] [b64 2], f "match.unan" 0x0CD [oD, oA, oPdOpt 0] [b64 2],
   f "redux.add" 0x0D0 [oD, oA, oPsOpt 4] [modOpt [("i32", 0), ("n32", 1)], mSat 1],
   f "redux.min" 0x0D1 [oD, oA, oPsOpt 4] [modOpt [("i32", 0), ("n32", 1)]],
   f "redux.max" 0x0D2 [oD, oA, oPsOpt 4] [modOpt [("i32", 0), ("n32", 1)]]]
  ++ [("redux.and", 0x0D3), ("redux.or", 0x0D4), ("redux.xor", 0x0D5)].map (fun p =>
    f p.1 p.2 [oD, oA, oPsOpt 4] [modOpt [("b32", 0)]])
  ++ [("redux.fadd", 0x0D6), ("redux.fmin", 0x0D7), ("redux.fmax", 0x0D8)].map (fun p =>
    f p.1 p.2 [oD, oA, oPsOpt 4] [modOpt [("f32", 0)]])
  ++ [f "scan.inc" 0x0D9 [oD, oA, oPsOpt 4] [modOpt [("i32", 0), ("n32", 0)]],
   f "scan.exc" 0x0DA [oD, oA, oPsOpt 4] [modOpt [("i32", 0), ("n32", 0)]],
   f "cmpr" 0x0DB [oD, oA, { k := .cnt }, oPsOpt 6] [], f "expd" 0x0DC [oD, oA, oPsOpt 6] [],
   f "xbar" 0x0DD [oD, oA, oB, oNum 0 4] [], f "xpld" 0x0DE [oNum 3 4, oMemA] [],
   f "laneid" 0x0DF [oD] [modOpt [("idx", 0), ("below", 1), ("upto", 2), ("above", 3)]]]

/-- The control forms (R165). -/
def ctlForms : List AForm :=
  let f (n : String) (op : Nat) (ops : List ASlot) : AForm := ⟨n, opCode op, ops, [], []⟩
  [⟨"nop", 0, [], [], []⟩, f "bra" 0x0E0 [oDisp], f "bra.none" 0x0E1 [oDisp], f "bra.any" 0x0E2 [oPs 0, oDisp],
   f "bra.all" 0x0E3 [oPs 0, oDisp], f "brx" 0x0E4 [oA], f "call" 0x0E5 [oLink, oDisp], f "callx" 0x0E6 [oLink, oA],
   f "ret" 0x0E7 [{ k := .a, opt := true, dflt := some (0x100 + 62) }], f "exit" 0x0E8 [], f "emrd" 0x0EC [oD],
   ⟨"emwr", opCode 0x0ED, [oA], [modOpt [("and", 1)]], []⟩, ⟨"emwr.p", opCode 0x0ED + 2, [oPs 2], [], []⟩,
   ⟨"pset", opCode 0x0EE, [oPd 0, oA], [modOpt [("v", 8)]], []⟩, f "plop" 0x0EF [oPd 0, oPr 3, oPr 6, oA],
   f "acqh" 0x0F0 [], f "relh" 0x0F1 [], f "yield" 0x0F2 [], f "trap" 0x0F8 [oLit], f "req" 0x0F9 [oD, oA, oB],
   f "bpt" 0x0FA [], f "pfx.w" 0x1E0 [oLit], f "pfx.l" 0x1E1 [oLit], f "pfx.l.hi" 0x1E2 [oLit]]

/-- The memory, barrier and matrix forms (R211 to R224, R236, R316, R321, R322). -/
def memForms : List AForm :=
  let st : List Nat := [0, 1, 2, 3]
  let wide (n : Nat) : AMods := modOpt [("i32", 0), ("b32", 0), ("n32", 0), ("i64", opCode n), ("b64", opCode n), ("n64", opCode n)]
  let order : AMods := modOpt [("acq", 0x20), ("rel", 0x40), ("acqrel", 0x60)]
  let orderR : AMods := modOpt [("rel", 0x40)]
  let minmax (n : Nat) : AMods := modOpt [("i32", 0), ("b32", 0), ("n32", 16), ("i64", opCode n), ("b64", opCode n), ("n64", opCode n + 16)]
  let atom (n : String) (op : Nat) (ty : AMods) : AForm := ⟨n, opCode op, [oD, oMem, oC], [ty, order, mScope 7, mSx], st⟩
  let red (n : String) (op : Nat) (ty : AMods) : AForm := ⟨n, opCode op, [oMem, oC], [ty, orderR, mScope 7, mSx], st⟩
  let bar (n : String) (op : Nat) (ops : List ASlot) (m : List AMods) : AForm := ⟨n, opCode op, ops, m, [1, 2]⟩
  let cls : ASlot := { k := .cls }
  let clsOpt : ASlot := { k := .cls, opt := true }
  [⟨"ld", opCode 0x100, [oD, oMem], [modReq [("i8", 0), ("n8", opCode 1), ("i16", opCode 2), ("n16", opCode 3), ("32", opCode 4), ("64", opCode 5), ("128", opCode 6)], mSx], [0, 1, 2, 3, 4, 5]⟩,
   ⟨"st", opCode 0x108, [oMem, oC], [modReq [("8", 0), ("16", opCode 1), ("32", opCode 2), ("64", opCode 3), ("128", opCode 4)], mSx], st⟩,
   ⟨"fence", opCode 0x10E, [], [modReq [("grp", 0), ("team", 8), ("dev", 16), ("sys", 24)]], []⟩,
   ⟨"fence.x", opCode 0x10F, [cls, cls, clsOpt, clsOpt, clsOpt, clsOpt, clsOpt], [], []⟩,
   ⟨"ld.acq", opCode 0x110, [oD, oMem], [modReq [("n8", 0), ("n16", opCode 1), ("32", opCode 2), ("64", opCode 3)], mScope 6, mSx], [0, 1, 2, 3, 4, 5]⟩,
   ⟨"st.rel", opCode 0x114, [oMem, oC], [modReq [("8", 0), ("16", opCode 1), ("32", opCode 2), ("64", opCode 3)], mScope 6, mSx], st⟩,
   ⟨"lds", opCode 0x118, [oD, oMem], [modReq [("blk", 0), ("f32", 64), ("bf16", 128)], mSx], [0]⟩,
   ⟨"stq", opCode 0x119, [oMem, oC, oD], [mSat 3, modOpt ((List.range 16).map (fun k =>
      (String.ofList ('m' :: [3, 2, 1, 0].map (fun i => if bit k i then '1' else '0')), 64 * k)))], [0]⟩,
   ⟨"ldmt", opCode 0x11A, [oD, oMem], [modReq [("b16", 0), ("b8", opCode 1)], mSx], [1, 2]⟩,
   ⟨"ldc", opCode 0x11C, [oD, oMem], [modReq [("32", 0), ("64", opCode 1), ("128", opCode 2)], mSx], [0, 5]⟩]
  ++ [atom "atom.add" 0x120 (wide 16), atom "atom.min" 0x121 (minmax 16), atom "atom.max" 0x122 (minmax 16),
   atom "atom.and" 0x123 (wide 16), atom "atom.or" 0x124 (wide 16), atom "atom.xor" 0x125 (wide 16),
   atom "atom.exch" 0x126 (wide 16), atom "atom.cas" 0x127 (wide 16), atom "atom.fadd" 0x128 (modOpt [("f32", 0)]),
   red "red.add" 0x129 (wide 15), red "red.min" 0x12A (minmax 15), red "red.max" 0x12B (minmax 15),
   red "red.and" 0x12C (wide 15), red "red.or" 0x12D (wide 15), red "red.xor" 0x12E (wide 15),
   red "red.fadd" 0x12F (modOpt [("f32", 0)])]
  ++ [bar "binit" 0x140 [oMemA, oB, oC] [modOpt [("rmt", 8)]],
   bar "arrive" 0x141 [oDopt, oMemA, { k := .b, opt := true, dflt := some 0x301 }] [modOpt [("drop", 8)]],
   bar "expect" 0x142 [oMemA, oB] [modOpt [("set", 8)]], bar "waitph" 0x143 [oMemA, oB] [],
   bar "btest" 0x144 [oD, oMemA] [modOpt [("ph", 0), ("arr", 8), ("pb", 16), ("eb", 24)]], bar "binv" 0x145 [oMemA] [],
   bar "rkacq" 0x146 [oD, oMemA] [modReq [("f", 0), ("e", 8)]], bar "rkrel" 0x147 [oMemA, oB] [modReq [("f", 0), ("e", 8)]],
   bar "mma.e4m3.e5m2" 0x166 [oD, oA, oB] [], bar "mma.e5m2.e4m3" 0x167 [oD, oA, oB] [],
   bar "mma.sb4" 0x160 [oD, oA, oB, oC] [], bar "mma.e4m3" 0x161 [oD, oA, oB] [], bar "mma.e5m2" 0x162 [oD, oA, oB] [],
   bar "mma.bf16" 0x163 [oD, oA, oB] [], bar "mma.f16" 0x164 [oD, oA, oB] [], bar "mma.i8" 0x165 [oD, oA, oB] [mSat 0],
   bar "mmaz.e4m3.e5m2" 0x16E [oD, oA, oB] [], bar "mmaz.e5m2.e4m3" 0x16F [oD, oA, oB] [],
   bar "mmaz.sb4" 0x168 [oD, oA, oB, oC] [], bar "mmaz.e4m3" 0x169 [oD, oA, oB] [], bar "mmaz.e5m2" 0x16A [oD, oA, oB] [],
   bar "mmaz.bf16" 0x16B [oD, oA, oB] [], bar "mmaz.f16" 0x16C [oD, oA, oB] [], bar "mmaz.i8" 0x16D [oD, oA, oB] [mSat 0],
   bar "accmv.rd" 0x170 [oD, oMemA, oB] [], bar "accmv.wr" 0x171 [oMemA, oC, oB] [], bar "mmaw" 0x172 [oDopt, oA] []]

/-- The window, launch, engine and system forms (R78, R186, R188, R338, R339, R365, R392). -/
def sysForms : List AForm :=
  let f (n : String) (op : Nat) (ops : List ASlot) : AForm := ⟨n, opCode op, ops, [], [1, 2]⟩
  let bOpt : ASlot := { k := .b, opt := true }
  let sr : ASlot := { k := .sr }
  let tn : AMods := modReq ((List.range 16).map (fun k => (String.ofList ('t' :: (toString k).toList), k)))
  [f "spawn" 0x180 [oA, bOpt, oNum 0 4], f "spawn.fld" 0x181 [oA, bOpt, oC, oNum 0 4], f "fetchw" 0x182 [oA, { k := .memB }],
   f "emitr" 0x183 [oNum 0 2, oA],
   ⟨"winf", opCode 0x184, [oD], [modReq [("wm", 0), ("pend", 1), ("close", 2), ("late", 3)]], []⟩,
   f "kick" 0x185 [oDopt, oA, oB], f "qstat" 0x186 [oD, oA], f "park" 0x188 [], f "die" 0x189 [],
   f "repack" 0x18A [{ k := .a, opt := true }, oNum 0 4, oDisp]]
  ++ [("cpy.go", 0x01), ("cpy.abt", 0x03), ("gth.go", 0x08), ("gth.abt", 0x0A), ("row.prom", 0x10), ("row.dem", 0x11),
      ("row.pin", 0x12), ("row.unpin", 0x13), ("row.copy", 0x14), ("row.init", 0x15), ("win.wmark", 0x20),
      ("win.flush", 0x21), ("lnk.arr", 0x30), ("lnk.msg", 0x31)].map (fun p =>
    ⟨p.1, opCode 0x1A0 + p.2, [{ k := .d, opt := true, adds := opCode 1 }, oA, oB], [], []⟩)
  ++ [⟨"cpy.st", opCode 0x1A1 + 0x02, [oD, oA, oB], [], []⟩, ⟨"gth.st", opCode 0x1A1 + 0x09, [oD, oA, oB], [], []⟩]
  ++ [⟨"segld", opCode 0x1C0, [oA, oB], [modReq [("s", 1), ("n", 2), ("p", 3), ("q", 4), ("c", 5)]], []⟩,
   f "mfsr" 0x1C1 [oD, sr], f "mtsr" 0x1C2 [sr, oA], f "tlbinv.pg" 0x1C3 [oD, oA, oB], f "tlbinv.ctx" 0x1C4 [oD, oA],
   f "tlbinv.all" 0x1C5 [oD], f "rft" 0x1C6 [oD, oA], f "halt" 0x1C7 [oD, oA, oB],
   ⟨"ctxsv", opCode 0x1C8, [oD, oA, oB], [modReq [("fill", 0), ("swap", 1), ("evict", 2)]], []⟩,
   f "wake" 0x1C9 [oDopt, oA], ⟨"ptld.lk", opCode 0x1CA, [oD, oA, oB], [tn], []⟩,
   ⟨"ptld.un", opCode 0x1CA + 16, [oD, oA], [tn], []⟩, f "qcbld" 0x1CB [oD, oA, oB], f "qcbst" 0x1CC [oD, oA],
   f "mbxrd" 0x1CD [oD, oA], f "dump" 0x1CE [oD, oA, oB]]

/-- Every form. -/
def asmForms : List AForm := intForms ++ floatForms ++ laneForms ++ ctlForms ++ memForms ++ sysForms

/-- The special registers' names (R395). -/
def srNames : List (String × Nat) :=
  [("LANE", 0x00), ("WIDTH", 0x01), ("GROUP", 0x02), ("TEAM", 0x03), ("TEAMN", 0x04), ("NBH", 0x05), ("VCORE", 0x06),
   ("VFIELD", 0x07), ("CLOCK", 0x08), ("WINID", 0x09), ("WSTART", 0x0A), ("WEND", 0x0B), ("WCOUNT", 0x0C), ("PAWNK", 0x0D),
   ("LFAULT", 0x0E), ("MSEQ", 0x0F), ("CTXID", 0x40), ("PARTID", 0x41), ("DEFLIM", 0x42), ("DBG", 0x43)]

/-- The classes of `FENCE.X`, in MOD order (R224). -/
def clsNames : List (String × Nat) :=
  [("LSU", 8), ("CPY", 16), ("GTH", 32), ("WIN", 64), ("LNK", 128), ("ROW", 256), ("FETCH", 512)]

/-- Segment letters (R65, R87). -/
def segCode (t : Text) : Option Nat :=
  match t with
  | ['G'] => some 0 | ['S'] => some 1 | ['N'] => some 2 | ['P'] => some 3 | ['Q'] => some 4 | ['C'] => some 5
  | _ => none

/-! ## Mnemonics and modifiers (R87) -/

/-- The longest run of a statement's dotted words that is a mnemonic, and the modifiers after it. -/
def formOf (words : List Text) : Option (AForm × List Text) :=
  let name (k : Nat) : Text := (List.intersperse ['.'] (words.take k)).flatten
  let at' (k : Nat) : Option (AForm × List Text) :=
    if words.length < k then none
    else (asmForms.find? (fun f => f.name.toList = name k)).map (fun f => (f, words.drop k))
  (at' 3).orElse (fun _ => (at' 2).orElse (fun _ => at' 1))

/-- Take each choice's modifier, the leftmost that names one; the code they add, and what is left over. -/
def takeMods : List AMods → List Text → Except Nat (Nat × List Text)
  | [], rest => .ok (0, rest)
  | m :: ms, rest =>
    let hit : Option (Text × Nat) := rest.findSome? (fun t => (m.alts.find? (fun p => p.1.toList = t)).map (fun p => (t, p.2)))
    match hit, m.none with
    | some (t, v), _ => (takeMods ms (rest.erase t)).map (fun r => (v + r.1, r.2))
    | none, some v => (takeMods ms rest).map (fun r => (v + r.1, r.2))
    | none, none => .error 102

/-- A modifier left over is unknown, repeated or in conflict; a rounding code that the form does not allow has a diagnostic of its
own (R97). -/
def leftOver (ms : List AMods) (rest : List Text) : Except Nat Unit :=
  match rest with
  | [] => .ok ()
  | t :: _ =>
    let known : Bool := ms.any (fun m => m.alts.any (fun p => p.1.toList = t))
    .error (if !known && ["rn", "rz", "ru", "rd", "rna"].any (fun n => n.toList = t) then 112 else 102)

/-! ## Operands to their places -/

/-- Whether an operand of a kind may stand at a place; the field checks come later. -/
def fitsSlot (k : SlotKind) (o : AOpd) : Bool :=
  match k, o.k with
  | .d, .reg r => !r.latch
  | .d, .under => true
  | .a, .reg _ | .b, .reg _ | .c, .reg _ | .a, .expr _ | .b, .expr _ | .c, .expr _ => true
  | .mem, .mem _ _ _ | .memA, .mem _ _ _ | .memB, .mem _ _ _ => true
  | .pd, .pred _ n | .pr, .pred _ n => !n
  | .ps, .pred _ _ => true
  | .num, .expr _ | .disp, .expr _ | .lit, .expr _ | .sr, .expr _ | .cls, .expr _ => true
  | .cnt, .reg r => r.s
  | _, _ => false

/-- Match a form's operands with a statement's, an optional one taken where it fits. -/
def matchOps : List ASlot → List AOpd → Option (List (ASlot × Option AOpd))
  | [], [] => some []
  | [], _ :: _ => none
  | s :: ss, [] => if s.opt then (matchOps ss []).map (fun r => (s, none) :: r) else none
  | s :: ss, o :: os =>
    let took := if fitsSlot s.k o then (matchOps ss os).map (fun r => (s, some o) :: r) else none
    match took with
    | some r => some r
    | none => if s.opt then (matchOps ss (o :: os)).map (fun r => (s, none) :: r) else none

/-- What a field will hold: an operand code already known, or an operand still to encode. -/
inductive AFill where
  | code (c : Nat)
  | opd (o : AOpd)
  deriving DecidableEq, Repr, Inhabited

/-- A statement's operands at their places: the four fields, the code, the numbers of MOD, the literal or displacement. -/
structure APut where
  d : Option AFill := none
  a : Option AFill := none
  b : Option AFill := none
  c : Option AFill := none
  code : Nat := 0
  lit : Option AsmExpr := none
  disp : Option AsmExpr := none
  deriving DecidableEq, Repr, Inhabited

def regOpd (r : AReg) : AOpd := ⟨.reg r, false, false⟩
def exprOpd (e : AsmExpr) : AOpd := ⟨.expr e, false, false⟩

/-- The index scale K (R193). -/
def scaleCode (k : Nat) : Nat := if k = 2 then 1 else if k = 4 then 2 else if k = 8 then 3 else 0

/-- The placement of a memory operand's terms (R193): a pair, or the first of two 32-bit terms, in OPA, the other register
term in OPB; a lone register term in OPB; a constant in the field that remains, a negative one always in OPA. `noK` is the
layout of an atomic (R220). -/
def placeMem (env : Text → Option AVal) (noK : Bool) (p : APut) (terms : List (AReg × Nat)) (const : Option AsmExpr) :
    Except Nat APut :=
  let regA (r : AReg × Nat) (p : APut) : Except Nat APut :=
    if r.2 = 1 then .ok { p with a := some (.opd (regOpd r.1)) } else .error (if noK then 117 else 104)
  let regB (r : AReg × Nat) (p : APut) : Except Nat APut :=
    if noK && r.2 ≠ 1 then .error 117
    else if r.1.pair then .error 104
    else if r.2 = 1 then .ok { p with b := some (.opd (regOpd r.1)) }
    else .ok { p with b := some (.opd (regOpd r.1)), code := p.code + 16 * scaleCode r.2 }
  let regs : Except Nat APut := match terms with
    | [] => .ok p
    | [r] => if r.1.pair then regA r p else regB r p
    | [r, q] => if q.1.pair && !r.1.pair then (regB r p).bind (regA q) else (regA r p).bind (regB q)
    | _ => .error 103
  regs.bind (fun p =>
    match const with
    | none => .ok p
    | some e =>
      let negative : Bool := match constExpr env e with | .ok v => v.msb | .error _ => false
      match p.a, p.b with
      | none, _ => .ok { p with a := some (.opd (exprOpd e)) }
      | some _, none => if negative then .error 104 else .ok { p with b := some (.opd (exprOpd e)) }
      | some _, some _ => .error 103)

/-- A number that must fit a MOD field. -/
def numberIn (env : Text → Option AVal) (w : Nat) (e : AsmExpr) : Except Nat Nat :=
  (constExpr env e).bind (fun v => if v.toNat < 2 ^ w then .ok v.toNat else .error 109)

/-- A name looked up in a table of names, or an expression's number below a bound. -/
def namedIn (env : Text → Option AVal) (tbl : List (String × Nat)) (w : Nat) (e : AsmExpr) : Except Nat Nat :=
  match e with
  | .sym n =>
    match tbl.find? (fun p => lowerText p.1.toList = lowerText n) with
    | some p => .ok p.2
    | none => numberIn env w e
  | e => numberIn env w e

/-- One operand put in its place. -/
def putOne (env : Text → Option AVal) (segs : List Nat) (noK : Bool) (p : APut) (so : ASlot × Option AOpd) : Except Nat APut :=
  let s := so.1
  let field (f : AFill) : Except Nat APut := match s.k with
    | .d => .ok { p with d := some f, code := p.code + s.adds }
    | .a => .ok { p with a := some f }
    | .b => .ok { p with b := some f }
    | .c => .ok { p with c := some f }
    | _ => .error 104
  let inMod (v : Nat) : Except Nat APut := .ok { p with code := p.code + v * 2 ^ s.lo }
  match so.2 with
  | none => (match s.dflt, s.k with
      | some v, .pd | some v, .ps => inMod v
      | some c, _ => field (.code c)
      | none, _ => .ok p)
  | some o =>
    match s.k, o.k with
    | .mem, .mem seg terms const => (match segCode seg with
        | some g => if segs.contains g then placeMem env noK { p with code := p.code + g } terms const else .error 116
        | none => .error 116)
    | .memA, .mem seg terms const | .memB, .mem seg terms const => (match segCode seg with
        | some g =>
          if !segs.contains g then .error 116
          else
            let one : Except Nat (Option AFill) := match terms, const with
              | [], some e => .ok (some (.opd (exprOpd e)))
              | [(r, k)], none => if k = 1 && !r.pair then .ok (some (.opd (regOpd r))) else .error 104
              | [], none => .ok none
              | _, _ => .error 103
            one.map (fun f => if s.k = .memA then { p with a := f, code := p.code + g } else { p with b := f, code := p.code + g })
        | none => .error 116)
    | .pd, .pred n _ => if n = 7 && !s.opt then .error 104 else inMod n
    | .pr, .pred n _ => inMod n
    | .ps, .pred n g => inMod (n + 8 * g.toNat)
    | .num, .expr e => (numberIn env s.w e).bind inMod
    | .cnt, .reg r => if r.pair then .error 104 else inMod r.n
    | .sr, .expr e => (namedIn env srNames 7 e).bind inMod
    | .cls, .expr (.sym n) => (match clsNames.find? (fun q => lowerText q.1.toList = lowerText n) with
        | some q => if bit p.code q.2.log2 then .ok p else .ok { p with code := p.code + q.2 }
        | none => .error 104)
    | .disp, .expr e => .ok { p with disp := some e }
    | .lit, .expr e => .ok { p with lit := some e }
    | _, _ => field (.opd o)

def putAll (env : Text → Option AVal) (segs : List Nat) (noK : Bool) : APut → List (ASlot × Option AOpd) → Except Nat APut
  | p, [] => .ok p
  | p, so :: rest => (putOne env segs noK p so).bind (fun q => putAll env segs noK q rest)

/-! ## Constants (R63, R88, R455) -/

/-- What a constant operand supplies: a 32-bit or packed pattern, a 64-bit value whose lone literal is sign- or
zero-extended, or a float of a format. -/
inductive CKind where | w32 | s64 | u64 | f32 | f16 | bf16
  deriving DecidableEq, Repr, Inhabited

/-- The opcodes that list U in R103, by position. -/
def listsU (k : Nat) : Bool := [0x01, 0x02, 0x03, 0x04, 0x05, 0x06, 0x07, 0x08, 0x09, 0x17, 0x1A, 0x1B, 0x1C, 0x1E].contains k

/-- The kind of a constant in field `fld` (0 OPA, 1 OPB, 2 OPC) of an opcode with its MOD, where the operand has n registers. -/
def constKind (op mod fld n : Nat) : CKind :=
  if n = 2 then
    (if 0x21 ≤ op && op ≤ 0x3E then
      (if (listsU (op - 0x20) && !bit mod 0) || ((op = 0x2A || op = 0x31) && fld = 0) then .s64 else .u64)
    else if 0x100 ≤ op && op < 0x140 && fld = 0 && mod % 8 = 0 then .s64
    else if 0x60 ≤ op && op < 0x70 && mod / 32 % 16 = 14 then .s64
    else .u64)
  else if op < 0x40 then .w32
  else if op < 0x48 then .f32
  else if op < 0x50 then .f16
  else if op < 0x58 then .bf16
  else if op < 0x70 then (match mod / 32 % 16 with | 0 => .f32 | 1 => .f16 | 2 => .bf16 | _ => .w32)
  else if 0x80 ≤ op && op < 0xA0 then (if op % 16 < 12 then .f32 else .w32)
  else if op = 0xB4 || op = 0xB5 then (if fld = 2 then .f32 else .w32)
  else if 0xB8 ≤ op && op ≤ 0xBB then (if fld < 2 then .f32 else .w32)
  else if 0xD6 ≤ op && op ≤ 0xD8 then .f32
  else if op = 0x128 || op = 0x12F then (if fld = 2 then .f32 else .w32)
  else .w32

/-- A decimal constant m·10^e as a binary value: exact, or with a last bit, or as a number past every format, that keeps every rounding
and its inexactness right. -/
def decimalVal (neg : Bool) (m : Nat) (e : Int) : FVal :=
  if m = 0 then .fin neg 0 0
  else match e with
    | .ofNat k => if 400 < k then .fin neg 1 2000 else .fin neg (m * 10 ^ k) 0
    | .negSucc j =>
      let k := j + 1
      if m.log2 + 200 < 3 * k then .fin neg 1 (-400)
      else
        let s := 4 * k + 200
        let q := m * 2 ^ s / 10 ^ k
        let r := m * 2 ^ s % 10 ^ k
        .fin neg (2 * q + (if r = 0 then 0 else 1)) (-((s : Int) + 1))

/-- The number an expression stands for: a floating-point constant, under a minus or not, or an integer, which is a number too and no
bit pattern (log entry 41). -/
def numberVal (env : Text → Option AVal) : AsmExpr → Except Nat FVal
  | .flt m e => .ok (decimalVal false m e)
  | .neg (.flt m e) => .ok (decimalVal true m e)
  | e => (constExpr env e).map (fun v => .fin v.msb v.toInt.natAbs 0)

def isFloatConst : AsmExpr → Bool
  | .flt _ _ | .neg (.flt _ _) => true
  | _ => false

/-- The imm8 code of an integer, if it has one (R61). -/
def immCode (v : Int) : Option Nat := if -128 ≤ v && v ≤ 127 then some (0x300 + (v % 256).toNat) else none

/-- A constant as an operand code, with its literal: the value the literal must have, whether as 64 bits, whether they need
a `PFX.W`, the symbol it depends on, and whether rounding changed it. -/
structure ALit where
  code : Nat
  lit : Option W64 := none
  wide : Bool := false
  hi : Bool := false
  rel : Option (ASec × Text) := none
  inexact : Bool := false
  deriving DecidableEq, Repr, Inhabited

/-- The f32 pattern of a number, and whether the value read back in its format differs (R88). -/
def f32Of (k : CKind) (v : FVal) : Nat × Bool :=
  let c := rnF32 v
  let back := match k with
    | .f16 => FVal.decode fmtF16 (roundF fmtF16 0 false (f32v c))
    | .bf16 => FVal.decode fmtBf16 (roundF fmtBf16 0 false (f32v c))
    | _ => f32v c
  (c, back.cmp v ≠ some .eq)

/-- One constant operand (R88), `short` when its field takes an imm8 code. A decimal constant takes one when the written value is the
integer, not when its rounding to f32 is (log entry 41). -/
def encodeConst (env : Text → Option AVal) (short : Bool) (k : CKind) (e : AsmExpr) : Except Nat ALit :=
  let immCode (v : Int) : Option Nat := if short then immCode v else none
  match k with
  | .f32 | .f16 | .bf16 =>
    (numberVal env e).map (fun v =>
      let r := f32Of k v
      let i : Option Nat := match v with
        | .fin neg m x =>
          if !short then none
          else if m = 0 then (if neg then none else some 0x300)
          else (List.range 256).findSome? (fun b =>
            let n : Int := (BitVec.ofNat 8 b).toInt
            if (FVal.fin (decide (n < 0)) n.natAbs 0).cmp (.fin neg m x) = some .eq then some (0x300 + b) else none)
        | _ => none
      match i with
      | some c => { code := c, inexact := r.2 }
      | none => { code := 0x2FE, lit := some (BitVec.ofNat 64 r.1), inexact := r.2 })
  | .w32 =>
    if isFloatConst e then
      (numberVal env e).map (fun v =>
        let r := f32Of .f32 v
        match immCode (BitVec.ofNat 32 r.1).toInt with
        | some c => { code := c, inexact := r.2 }
        | none => { code := 0x2FE, lit := some (BitVec.ofNat 64 r.1), inexact := r.2 })
    else (evalExpr env e).bind (fun v =>
      if v.rel ≠ none then .ok { code := 0x2FE, lit := some (v.v.setWidth 32 |>.setWidth 64), rel := v.rel }
      else if v.v.toInt < -(2 ^ 31) || 2 ^ 32 ≤ v.v.toInt then .error 109
      else match immCode (v.v.setWidth 32).toInt with
        | some c => .ok { code := c }
        | none => .ok { code := 0x2FE, lit := some ((v.v.setWidth 32).setWidth 64) })
  | .s64 | .u64 =>
    if isFloatConst e then .error 104
    else (evalExpr env e).map (fun v =>
      if v.rel ≠ none then { code := 0x2FE, lit := some v.v, wide := true, hi := true, rel := v.rel }
      else match immCode v.v.toInt with
        | some c => { code := c }
        | none =>
          let ext : W64 := if k = .s64 then (v.v.setWidth 32).signExtend 64 else (v.v.setWidth 32).setWidth 64
          { code := 0x2FE, lit := some v.v, wide := true, hi := decide (ext ≠ v.v) })

/-! ## One instruction -/

/-- What the checks know of a kernel: R97's width, `.vregs`, privilege and quads. The kinds of group that a launch fixes
later are taken as present. -/
def asmEnv (width vregs : Nat) (priv quads : Bool) : Env :=
  { width := width, vregs := vregs, priv := priv, quads := quads, window := true, tailor := false, stream := true,
    rings := [16, 16, 16, 16] }

/-- A field's operand as a code, with its literal (R61, R62, R88). -/
def encodeField (env : Text → Option AVal) (e : Env) (op mod : Nat) (nw : Bool) (dst : Bool) (fld : Nat) (r : Role) :
    Option AFill → Except Nat ALit
  | none => .ok { code := 0x2FF }
  | some (.code c) => .ok { code := c }
  | some (.opd o) =>
    match o.k with
    | .under => if dst && nw then .ok { code := 0x2FF } else .error 104
    | .reg g =>
      if g.latch then (if r.latch then .ok { code := 0x200 + g.n } else .error 104)
      else if (if g.s then !r.s else !r.v) then .error 104
      else if g.pair && r.n ≠ 2 then .error 104
      else if g.n % r.al ≠ 0 then .error 106
      else if !g.s && e.vregs < g.n + r.n then .error 107
      else if g.s && 64 < g.n + r.n then .error 105
      else .ok { code := if g.s then 0x100 + g.n else g.n }
    | .expr x =>
      if dst then .error 104
      else if r.lit || r.imm then
        (encodeConst env r.imm (constKind op mod fld r.n) x).bind (fun l => if l.code = 0x2FE && !r.lit then .error 109 else .ok l)
      else if r.zero && constExpr env x = .ok 0 then .ok { code := 0x2FF }
      else .error 104
    | _ => .error 104

/-- Whether an opcode takes source modifiers on its operands (R114, R121, R122, R124, R127, R131). -/
def srcMods (op : Nat) : Bool :=
  (0x40 ≤ op && op < 0x58 && op % 8 ≠ 5) || (0x80 ≤ op && op < 0xB0) || op = 0xB4 || op = 0xB5

/-- The MOD bits of the source modifiers written on a field's operand. -/
def srcModBits (op fld : Nat) : Option AFill → Except Nat Nat
  | some (.opd o) =>
    if !o.neg && !o.abs then .ok 0
    else if !srcMods op || (o.abs && fld = 2) then .error 104
    else .ok ((if o.neg then 2 ^ (5 + fld) else 0) + (if o.abs then 2 ^ (8 + fld) else 0))
  | _ => .ok 0

/-- The code of an operand as `Opd`. -/
def opdCodeOf (c : Nat) : Opd := (opdOf c).getD .zero

/-- The words of a statement: the instruction, with an inserted `PFX.W` before it (R88); the relocations of its literal and
displacement by word; and the warnings on it. A displacement to a place of the section is left to the layout. -/
structure AEnc where
  words : List Nat
  hi : Option Nat
  rels : List (Nat × AVal)
  disp : Option AVal
  warns : List Nat
  deriving DecidableEq, Repr, Inhabited

/-- The single literal that all literal-coded operands agree on (R88), also once their symbols are placed: ILA-0108 otherwise. -/
def oneLit (l : List ALit) : Except Nat (Option ALit) :=
  match l.filter (fun x => x.lit.isSome) with
  | [] => .ok none
  | x :: xs =>
    let place (r : ASec × Text) : ASec × Text := (r.1, if r.1 = .extern then r.2 else [])
    let same (a b : ALit) : Bool := (a.rel.map place == b.rel.map place) && ((a.lit.getD 0).setWidth 32 == (b.lit.getD 0).setWidth 32)
      && (!(a.wide && b.wide && (a.hi || b.hi)) || a.lit == b.lit)
    let ys := x :: xs
    if ys.all (fun a => ys.all (fun b => same a b)) then
      .ok (some (((ys.find? (fun a => a.hi)).orElse (fun _ => ys.find? (fun a => a.rel.isSome))).getD x))
    else .error 108

/-- The displacement's warning: a target that is not a label (R97). -/
def branchWarn (disp : Option AsmExpr) (v : Option AVal) : List Nat :=
  match disp with
  | none => []
  | some (.sym _) => if (v.bind (fun d => d.rel)).isSome then [] else [210]
  | some _ => [210]

/-- The literal of a `TRAP` or prefix operand, as a value whatever its code. -/
def litOperand (env : Text → Option AVal) (x : AsmExpr) : Except Nat ALit :=
  encodeConst env false .w32 x

/-- The relocation of a literal (R91): kind 2 over a `PFX.W` and its target, else kind 1. -/
def litRels (l : Option ALit) : List (Nat × AVal) :=
  match l with
  | some l => (match l.rel with
      | some r => [(if l.wide then 2 else 1, ⟨some r, l.lit.getD 0⟩)]
      | none => [])
  | none => []

/-- An operand's code before its constant is known. -/
def guessCode (o : Option AFill) : Nat :=
  match o with
  | none => 0x2FF
  | some (.code c) => c
  | some (.opd o) => match o.k with
    | .reg g => if g.latch then 0x200 + g.n else if g.s then 0x100 + g.n else g.n
    | .under => 0x2FF
    | _ => 0x2FE

/-- The words of an instruction with operand fields, its operands placed. -/
def encodeWord (env : Text → Option AVal) (e : Env) (i : AIns) (nw : Bool) (p : APut) : Except Nat AEnc := do
  let op := p.code / 1024
  let ma ← srcModBits op 0 p.a
  let mb ← srcModBits op 1 p.b
  let mc ← srcModBits op 2 p.c
  let mod := p.code % 1024 + ma + mb + mc
  let x0 : InsWord :=
    { lit := 0, mod := BitVec.ofNat 10 mod, opc := opdCodeOf (guessCode p.c), opb := opdCodeOf (guessCode p.b),
      opa := opdCodeOf (guessCode p.a), nw := nw, dst := opdCodeOf (guessCode p.d), pneg := i.pneg,
      pidx := BitVec.ofNat 3 i.pidx }
  let sh := shape e (ofOpcode op x0)
  if nw && !sh.lres then .error 110
  else
    let ld ← encodeField env e op mod nw true 3 (if nw then roleNone else sh.dst) p.d
    let la ← encodeField env e op mod nw false 0 sh.a p.a
    let lb ← encodeField env e op mod nw false 1 sh.b p.b
    let lc ← encodeField env e op mod nw false 2 sh.c p.c
    let one ← oneLit [la, lb, lc]
    let disp : Option AVal ← match p.disp with
      | none => .ok none
      | some x => (evalExpr env x).map some
    let lit : Option ALit ← match p.lit with
      | none => .ok one
      | some x => (litOperand env x).map some
    let v : W64 := (lit.bind (fun l => l.lit)).getD 0
    let x : InsWord :=
      { x0 with lit := v.setWidth 32, opa := opdCodeOf la.code, opb := opdCodeOf lb.code, opc := opdCodeOf lc.code,
                dst := opdCodeOf ld.code }
    if !operandsOk e (ofOpcode op x) then .error 104
    else
      let hi : Option Nat := lit.bind (fun l => if l.hi then some (v.toNat / 2 ^ 32) else none)
      let warns := (if classOf op = .mtx && (i.pidx ≠ 7 || i.pneg) then [501] else [])
        ++ (if la.inexact || lb.inexact || lc.inexact then [503] else []) ++ branchWarn p.disp disp
      .ok ⟨[wordOf op x], hi, litRels lit, disp, warns⟩

/-- Encode a statement in a kernel (R87, R88, and the checks of R97 on one instruction). -/
def encodeIns (env : Text → Option AVal) (e : Env) (i : AIns) : Except Nat AEnc := do
  match formOf i.words with
  | none => .error 101
  | some (f, mods) =>
    let nw := mods.contains "nw".toList
    let tm ← takeMods f.mods (mods.erase "nw".toList)
    leftOver f.mods tm.2
    match matchOps f.ops i.ops with
    | none =>
      let need := (f.ops.filter (fun s => !s.opt)).length
      .error (if need ≤ i.ops.length && i.ops.length ≤ f.ops.length then 104 else 103)
    | some pairs =>
      let op0 := f.code / 1024
      let p ← putAll env f.segs (0x120 ≤ op0 && op0 < 0x140) { code := f.code + tm.1 } pairs
      let op := p.code / 1024
      if nw && (op = 0 || 0x1E0 ≤ op) then .error 110
      else if op = 0 then .ok ⟨[0], none, [], none, []⟩
      else if 0x1E0 ≤ op then
        if i.pidx ≠ 7 || i.pneg then .error 104
        else match p.lit with
          | none => .error 103
          | some x =>
            let l ← litOperand env x
            .ok ⟨[op + 2 ^ 64 * ((l.lit.getD 0).toNat % 2 ^ 32)], none, litRels (some l), none, []⟩
      else if privileged op && !e.priv then .error 111
      else if classOf op = .mtx && (!e.quads || e.width = 16) then .error 312
      else encodeWord env e i nw p

end Sys2Proof.Machine
end

