-- ==== Sys2Proof/Machine/AsmLayout.lean ====
section
/-! DEFINITION. `ilas` packs statements into fetch lines: units, pairs and prefixes (R59, R73, R74, R88), the layout of R94,
the ENTRY, PAIR and PAR bits of R95 and R53, and the chain checks of R96. -/

namespace Sys2Proof.Machine
open Sys2Proof

/-- A statement of `.text` with its words: its source line, labels, whether it begins a kernel or stream, whether a new line
is begun before it and to what multiple of lines, and whether `||` joins it to the one before. A `.line`, an `.align` and labels that
no instruction follows are statements without words. -/
structure AStmt where
  line : Nat
  labels : List Text
  starts : Bool
  brk : Bool
  align : Nat
  par : Bool
  enc : AEnc
  env : Env
  deriving DecidableEq, Repr, Inhabited

/-- A unit of R94. `labels`, `rels` and `disps` name a slot of the unit, `src` the source line of each slot; `errs` are the
diagnostics found on it. -/
structure AUnit where
  labels : List (Nat × Text)
  starts : Bool
  brk : Bool
  align : Nat
  words : List Nat
  src : List Nat
  pair : Bool
  rels : List (Nat × Nat × AVal)
  disps : List (Nat × AVal)
  env : Env
  errs : List Diag
  deriving DecidableEq, Repr, Inhabited

def wordOp (w : Nat) : Nat := w % 512
def wordPrefix (w : Nat) : Nat := prefixKind (wordOp w)
def AUnit.isPrefix (u : AUnit) : Bool := u.words.any (fun w => wordPrefix w ≠ 0)
/-- A unit whose last slot is a prefix still waits for its target. -/
def AUnit.isOpen (u : AUnit) : Bool := (u.words.getLast?.map (fun w => decide (wordPrefix w ≠ 0))).getD false
def AUnit.line (u : AUnit) : Nat := u.src.getLast?.getD 0

/-! ## Units (R74, R88, R96) -/

/-- The word of a `PFX.W`. -/
def pfxWWord (hi : Nat) : Nat := 0x1E0 + 2 ^ 64 * (hi % 2 ^ 32)

/-- What is wrong with a prefix unit once its target is known: ILA-0207 or ILA-0208 (R73, R74). -/
def prefixErrs (u : AUnit) : List Nat :=
  let ks := u.words.dropLast.map wordPrefix
  match u.words.getLast? with
  | none => []
  | some t =>
    if ks.all (fun k => k = 0) then []
    else if !(ks = [1] || ks = [2] || ks = [1, 2]) || wordPrefix t ≠ 0 then [207]
    else if ks.any (fun k => if k = 1 then !takesPfxW u.env (decodeLax t) else !takesPfxL (wordOp t)) then [208]
    else []

/-- A line that holds two words as a pair, for the conditions of R59. -/
def pairLine (a c : Nat) : Nat := 2 ^ 5 + 2 ^ 32 * a + 2 ^ 128 * c

/-- A statement's slots added to an open or new unit: an inserted `PFX.W` takes the first place, and with it the labels there (R88).
The ABS64 relocation of a literal stands at the `PFX.W`, also where a `PFX.L` follows it (log entry 41). -/
def addSlots (u : AUnit) (s : AStmt) : AUnit :=
  let front : List Nat := match s.enc.hi with | some h => [pfxWWord h] | none => []
  let shift := front.length
  let at0 := shift + u.words.length
  let rels := s.enc.rels.map (fun r => (if r.1 = 2 then 0 else at0, r.1, r.2))
  { u with words := front ++ u.words ++ s.enc.words, src := front.map (fun _ => s.line) ++ u.src ++ s.enc.words.map (fun _ => s.line)
           labels := u.labels.map (fun l => (if l.1 = 0 then 0 else l.1 + shift, l.2)) ++ s.labels.map (fun n => (if u.words = [] then 0 else at0, n))
           rels := u.rels.map (fun r => (r.1 + shift, r.2)) ++ rels
           disps := u.disps ++ (match s.enc.disp with | some v => [(at0, v)] | none => [])
           errs := u.errs ++ s.enc.warns.map (fun n => ⟨s.line, n⟩) }

def newUnit (s : AStmt) : AUnit := addSlots ⟨[], s.starts, s.brk, s.align, [], [], false, [], [], s.env, []⟩ s

def AUnit.fail (u : AUnit) (line num : Nat) : AUnit := { u with errs := u.errs ++ [⟨line, num⟩] }

/-- A unit that takes no more slots. -/
def sealUnit (u : AUnit) : AUnit := { u with errs := u.errs ++ (if u.isOpen then [207] else prefixErrs u).map (fun n => ⟨u.line, n⟩) }

/-- One statement joined to the units before it, newest first. -/
def joinStmt (us : List AUnit) (s : AStmt) : List AUnit :=
  match us with
  | u :: rest =>
    if u.isOpen && !s.starts && s.enc.words ≠ [] then
      let v := addSlots u s
      let v := if s.labels ≠ [] && wordPrefix (s.enc.words.headD 0) = 0 then v.fail s.line 209 else v
      (if s.par then v.fail s.line (illegalPair 3) else v) :: rest
    else if s.par then
      if s.starts || u.words = [] then newUnit s |>.fail s.line 206 |> (· :: us)
      else
        let v := { addSlots u { s with enc := { s.enc with hi := none } } with pair := true }
        let bad := if u.pair then some 1
          else if u.isPrefix || s.enc.hi.isSome then some 3
          else pairFault s.env (pairLine (u.words.headD 0) (s.enc.words.headD 0)) 0
        let v := match bad with | some c => v.fail s.line (illegalPair c) | none => v
        (if s.labels ≠ [] then v.fail s.line 211 else v) :: rest
    else newUnit s :: us
  | [] => [if s.par then (newUnit s).fail s.line 206 else newUnit s]

/-- The units of a text section, in order. -/
def buildUnits (ss : List AStmt) : List AUnit := ((ss.foldl joinStmt []).map sealUnit).reverse

/-- The labels a branch of the section names. -/
def branchTargets (us : List AUnit) : List Text :=
  us.flatMap (fun u => u.disps.filterMap (fun d => d.2.rel.bind (fun r => if r.1 = .text then some r.2 else none)))

/-- `--autopair`: adjacent one-slot statements made a pair (R94). -/
def autoPair (targets : List Text) : List AUnit → List AUnit
  | u :: v :: rest =>
    let one (w : AUnit) : Bool := w.words.length = 1 && !w.isPrefix && !w.pair
    let free (w : AUnit) : Bool := !w.labels.any (fun l => targets.contains l.2)
    if one u && one v && v.labels = [] && !v.starts && !v.brk && free u
        && pairLegal u.env (pairLine (u.words.headD 0) (v.words.headD 0)) 0 then
      { u with words := u.words ++ v.words, src := u.src ++ v.src, pair := true
               rels := u.rels ++ v.rels.map (fun r => (r.1 + 1, r.2)), disps := u.disps ++ v.disps.map (fun r => (r.1 + 1, r.2))
               errs := u.errs ++ v.errs } :: autoPair targets rest
    else u :: autoPair targets (v :: rest)
  | us => us

/-! ## Layout (R94, R95) -/

/-- Slots are numbered through the section, five to a line. `done` holds the placed units, newest first, with their slots;
`next` the slot after the last; `run` how many of the newest units form the run of R94. -/
structure ALay where
  done : List (AUnit × Nat)
  next : Nat
  run : Nat
  diags : List Diag
  deriving DecidableEq, Repr, Inhabited

/-- The first slot of the next line, unless a line begins here. -/
def padSlot (n : Nat) : Nat := (n + 4) / 5 * 5

/-- ENTRY marks of a placed unit (R95): its label or kernel start, and the return point of a call in it. -/
def entryMarks (p : AUnit × Nat) : List Nat :=
  (if p.1.starts then [p.2] else []) ++ p.1.labels.map (fun l => p.2 + l.1)
    ++ (if p.1.words.any (fun w => wordOp w = 0x0E5 || wordOp w = 0x0E6) then [p.2 + p.1.words.length] else [])

/-- The chain head of a slot (R68). -/
def headSlot (done : List (AUnit × Nat)) (k : Nat) : Nat :=
  let base := k / 5 * 5
  ((done.flatMap entryMarks).filter (fun m => base ≤ m && m ≤ k)).foldl max base

/-- Latch results made by placed units in a range of slots. -/
def resultsIn (done : List (AUnit × Nat)) (lo hi : Nat) : Nat :=
  (done.map (fun p => ((p.1.words.zipIdx).filter (fun w => lo ≤ p.2 + w.2 && p.2 + w.2 < hi && makesLatch p.1.env (decodeLax w.1))).length)).sum

/-- Whether a latch read of the newest unit lacks results in its line (R68); and whether its run of n units has them. -/
def latchShort (done : List (AUnit × Nat)) : Bool :=
  match done with
  | [] => false
  | (u, p) :: _ => (u.words.zipIdx).any (fun w => (latchReads (decodeLax w.1)).any (fun j =>
      resultsIn done (headSlot done (p + w.2)) (p + w.2) < j + 1))

def runHas (done : List (AUnit × Nat)) (n : Nat) : Bool :=
  match done with
  | [] => false
  | (u, p) :: _ => (u.words.zipIdx).any (fun w => (latchReads (decodeLax w.1)).any (fun j =>
      j + 1 ≤ resultsIn (done.take n) 0 (p + w.2)))

/-- Place a unit at the next slot, or in a new line when it does not fit. -/
def placeUnit (done : List (AUnit × Nat)) (next : Nat) (u : AUnit) : List (AUnit × Nat) × Nat :=
  let at' := if next % 5 + u.words.length ≤ 5 then next else padSlot next
  ((u, at') :: done, at' + u.words.length)

/-- Lay one unit (R94). -/
def layUnit (l : ALay) (u : AUnit) : ALay :=
  let begun := if u.align = 0 then (if u.brk then padSlot l.next else l.next)
    else (padSlot l.next + 5 * u.align - 1) / (5 * u.align) * (5 * u.align)
  let fresh := u.starts || u.labels ≠ []
  let run := if fresh then 1 else l.run + 1
  let (done, next) := placeUnit l.done begun u
  let padded := (done.head?.map (fun p => decide (p.2 ≠ begun))).getD false
  let d1 := l.diags ++ u.errs ++ (if padded && u.isPrefix then [⟨u.src.headD 0, 502⟩] else [])
  let barred := u.words.any (fun w => barredInChain (wordOp w))
  let keep (done : List (AUnit × Nat)) (next : Nat) (ds : List Diag) : ALay :=
    { done := done, next := next, run := if barred || (u.words = [] && u.labels = []) then 0 else run, diags := ds }
  let runUnits := (done.take run).reverse
  let early := (runUnits.head?.map (fun p => decide (p.2 / 5 < (done.head?.map (·.2)).getD 0 / 5))).getD false
  if latchShort done && runHas done run && early then
    if 5 < (runUnits.map (fun p => p.1.words.length)).sum then keep done next (d1 ++ [⟨u.line, 204⟩])
    else
      let start := (runUnits.head?.map (·.2)).getD 0
      let again := runUnits.foldl (fun a p => placeUnit a.1 a.2 p.1) (done.drop run, padSlot start)
      keep again.1 again.2 (d1 ++ [⟨u.line, 502⟩])
  else keep done next d1

def layOut (us : List AUnit) : ALay := us.foldl layUnit ⟨[], 0, 0, []⟩

/-! ## Lines -/

/-- The PC of a slot within the section. -/
def slotPc (k : Nat) : Nat := k / 5 * 64 + k % 5
/-- The byte offset of a slot. -/
def slotByte (k : Nat) : Nat := k / 5 * 64 + 4 + 12 * (k % 5)

/-- A unit's word in slot i, its displacement filled in: relative to its line for a place of the section (R166). -/
def finalWord (u : AUnit) (at' i : Nat) (w : Nat) : Nat :=
  match u.disps.find? (fun d => d.1 = i) with
  | none => w
  | some (_, v) =>
    let inSection : Bool := match v.rel with | none => true | some r => r.1 = .text
    if inSection then w + 2 ^ 64 * ((v.v - BitVec.ofNat 64 ((at' + i) / 5 * 64)).toNat % 2 ^ 32) else w

/-- The line whose first slot is `5 * n`, with its line word (R52, R53, R95), and the source line of each slot. -/
def lineOfUnits (done : List (AUnit × Nat)) (n : Nat) : Nat × List Nat :=
  let here := done.filter (fun p => p.2 / 5 = n)
  let slot (k : Nat) : Nat × Nat := (here.findSome? (fun p =>
    (p.1.words[5 * n + k - p.2]?).bind (fun w => if p.2 ≤ 5 * n + k then
      some (finalWord p.1 p.2 (5 * n + k - p.2) w, (p.1.src[5 * n + k - p.2]?).getD 0) else none))).getD (0, 0)
  let slots := (List.range 5).map slot
  let body := (slots.zipIdx).foldl (fun b s => b + 2 ^ (32 + 96 * s.2) * s.1.1) 0
  let near := done.filter (fun p => p.2 / 5 = n || p.2 / 5 + 1 = n)
  let ent := (near.flatMap entryMarks).filter (fun m => m / 5 = n)
  let entry := (List.range 5).foldl (fun e k => if ent.contains (5 * n + k) then e + 2 ^ k else e) 0
  let prs := (here.filter (fun p => p.1.pair)).foldl (fun e p => e + 2 ^ (5 + p.2 % 5)) 0
  let b := body + entry + prs
  (b + 2 ^ 24 * lineParity b, slots.map (·.2))

/-- How many lines a layout fills; a label after the last statement stands in a line too. -/
def lineCount (l : ALay) : Nat :=
  (l.done.foldl (fun a p => max a (p.2 + max (if p.1.labels = [] then 0 else 1) p.1.words.length)) 0 + 4) / 5

/-! ## Chain checks (R96) -/

/-- The `v` and `s` registers of a list of resources; R96 counts registers, and predicates are none here (log entry 41). -/
def registersOf (l : List Nat) : List Nat := l.filter (fun r => r < 320)

/-- Whether slot k, in the range from its chain's head to its last latch reader, writes a register that it or an earlier slot
of the range reads (R70). -/
def rewrites (e : Env) (b k : Nat) : Bool :=
  let h := chainHead b k
  readerFrom b k && (registersOf (writesOf e (slotInstr b k))).any (fun r =>
    (List.range (k + 1)).any (fun m => h ≤ m && (registersOf (readsOf e (slotInstr b m))).contains r))

/-- The chain diagnostics of a line: its slots' source lines are given. -/
def chainDiags (e : Env) (b : Nat) (src : List Nat) : List Diag :=
  (List.range 5).flatMap (fun k =>
    let at' := (src[k]?).getD 0
    (if (latchReads (slotInstr b k)).any (fun j => latchesBefore e b k < j + 1) then [⟨at', 201⟩] else [])
      ++ (if readerAfter b k && barredInChain (slotOp b k) then [⟨at', 202⟩] else [])
      ++ (if rewrites e b k then [⟨at', 203⟩] else []))

/-- A text section laid out: its lines with their source lines, the slots of its labels, its relocations by byte offset and
kind (R91), and its diagnostics. -/
structure AText where
  lines : List (Nat × List Nat)
  labels : List (Text × Nat)
  rels : List (Nat × Nat × AVal)
  diags : List Diag
  deriving DecidableEq, Repr, Inhabited

/-- Lay out a text section. -/
def layText (auto : Bool) (ss : List AStmt) : AText :=
  let us := buildUnits ss
  let us := if auto then autoPair (branchTargets us) us else us
  let l := layOut us
  let done := l.done.reverse
  let lines := (List.range (lineCount l)).map (lineOfUnits done)
  let envAt (n : Nat) : Env := ((done.find? (fun p => p.2 / 5 = n && p.1.words ≠ [])).map (fun p => p.1.env)).getD default
  let far : List (Nat × Nat × AVal) := done.flatMap (fun p => p.1.disps.filterMap (fun d => match d.2.rel with
    | some r => if r.1 = .text then none else some (slotByte (p.2 + d.1), 5, d.2)
    | none => none))
  { lines := lines
    labels := done.flatMap (fun p => p.1.labels.map (fun t => (t.2, slotPc (p.2 + t.1))))
    rels := done.flatMap (fun p => p.1.rels.map (fun r => (slotByte (p.2 + r.1), r.2.1, r.2.2))) ++ far
    diags := l.diags ++ (lines.zipIdx).flatMap (fun b => chainDiags (envAt b.2) b.1.1 b.1.2) }

end Sys2Proof.Machine
end

