-- ==== Sys2Proof/Machine/Assembler.lean ====
section
/-! DEFINITION. The `ilas` assembler (R84 to R97, R377): its options and exit status, source lines with includes, macros and
conditions, sections and symbols, directives, launch descriptors, and the object file with its header and relocations. -/

namespace Sys2Proof.Machine
open Sys2Proof

/-! ## What a source holds -/

/-- A kernel or stream program (R92). A window is its kind (0 count, 1 time, 2 gap) and two lengths; entries are by kind, 0
open, 1 record, 2 pane, 3 close, 4 merge. -/
structure AKern where
  name : Text
  line : Nat
  stream : Bool
  priv : Bool := false
  width : Nat := 32
  vregs : Nat := 256
  team : Nat := 1
  quads : Bool := false
  win : Option (Nat × Nat × Nat) := none
  panes : Bool := false
  entries : List (Nat × Text) := []
  spawns : List Text := []
  deriving DecidableEq, Repr, Inhabited

/-- A statement of `.text` before it is encoded; `kern` is its kernel's place in the list, oldest first. One without an instruction
begins a line or pads to one. -/
structure ARaw where
  line : Nat
  labels : List Text
  starts : Bool
  brk : Bool
  align : Nat
  par : Bool
  ins : Option AIns
  kern : Option Nat
  deriving DecidableEq, Repr, Inhabited

/-- One datum: an integer of so many bytes, a rounded float, or zero bytes. -/
inductive AItem where
  | int (bytes : Nat) (e : AsmExpr)
  | f32 (e : AsmExpr)
  | bf16 (e : AsmExpr)
  | zero (n : Nat)
  deriving DecidableEq, Repr, Inhabited

structure ADatum where
  line : Nat
  sec : ASec
  off : Nat
  item : AItem
  deriving DecidableEq, Repr, Inhabited

/-- A `.launch` block: its keywords with their texts, in order. -/
structure ALaunch where
  name : Text
  line : Nat
  kws : List (Text × Text)
  deriving DecidableEq, Repr, Inhabited

structure AMacro where
  name : Text
  params : List Text
  body : List Text
  deriving DecidableEq, Repr, Inhabited

/-- What the assembler has read so far; lists newest first, but for kernels and files. `conds` holds, for each open `.if`, whether it is
taken and whether its `.else` has been seen; `files` the files included; `prior` the symbols' values of the reading before, for uses
that come before their definition (R90). -/
structure ASt where
  sec : ASec := .text
  sizes : List Nat := [0, 0, 0, 0, 32]
  syms : List (Text × (ASec × Nat)) := []
  equs : List (Text × Nat × AsmExpr) := []
  externs : List Text := []
  globals : List Text := []
  pend : List Text := []
  stmts : List ARaw := []
  data : List ADatum := []
  kerns : List AKern := []
  cur : Option Nat := none
  starts : Bool := false
  launches : List ALaunch := []
  rings : List (Text × Nat × Nat) := []
  block : Option ALaunch := none
  macros : List AMacro := []
  defining : Option AMacro := none
  conds : List (Bool × Bool) := []
  expansions : Nat := 0
  ended : Bool := false
  files : List Text := []
  prior : List (Text × AVal) := []
  diags : List Diag := []
  deriving DecidableEq, Repr, Inhabited

/-- The section's index in the section table. -/
def secIndex : ASec → Nat
  | .text => 0 | .data => 1 | .rodata => 2 | .scratch => 3 | .pocket => 4 | .extern => 5 | .abs => 7

/-- The size of a section so far; `.pocket` begins at 32 (R89). -/
def ASt.size (st : ASt) (s : ASec) : Nat := st.sizes.getD (secIndex s) 0

def ASt.fail (st : ASt) (line num : Nat) : ASt := { st with diags := ⟨line, num⟩ :: st.diags }

/-! ## Symbols (R86, R89, R90) -/

/-- The value of a symbol: a label of a data section is a place, one of `.scratch` or `.pocket` a constant, one of `.text` a PC
by the table given, an external one a place of its own; an `.equ` is its expression's value. `fuel` bounds their depth. -/
def symVal (st : ASt) (pcs : List (Text × Nat)) : Nat → Text → Option AVal
  | 0, _ => none
  | fuel + 1, n =>
    match st.syms.lookup n with
    | some (sec, off) =>
      let v : W64 := BitVec.ofNat 64 off
      if sec = .scratch || sec = .pocket then some (absVal v) else some ⟨some (sec, n), v⟩
    | none =>
      match pcs.lookup n with
      | some pc => some ⟨some (.text, n), BitVec.ofNat 64 pc⟩
      | none =>
        match st.equs.lookup n with
        | some e => (evalExpr (symVal st pcs fuel) e.2).toOption
        | none => if st.externs.contains n then some ⟨some (.extern, n), 0⟩ else none

/-- The value of every symbol: no chain of `.equ` is longer than their number. -/
def symEnv (st : ASt) (pcs : List (Text × Nat)) : Text → Option AVal := symVal st pcs (st.equs.length + 1)

/-- Whether a name is defined already, by a label (placed or waiting for its statement) or by `.equ`. -/
def isDefined (st : ASt) (n : Text) : Bool :=
  (st.syms.lookup n).isSome || (st.equs.lookup n).isSome || st.pend.contains n || st.stmts.any (fun s => s.labels.contains n)

/-- Check a name to be defined: ILA-0114 for a second definition or a reserved spelling. -/
def checkName (st : ASt) (line : Nat) (n : Text) : ASt :=
  if !isSymbol n || reservedName n || isDefined st n then st.fail line 114 else st

/-- A label at the present place. -/
def addLabel (line : Nat) (st : ASt) (n : Text) : ASt :=
  let st := checkName st line n
  if st.sec = .text then { st with pend := st.pend ++ [n] } else { st with syms := (n, (st.sec, st.size st.sec)) :: st.syms }

/-! ## Directives (R92) -/

/-- A constant expression's value: by what is defined so far, else by the reading before. -/
def constNow (st : ASt) (t : Text) : Except Nat W64 :=
  match exprOf t with
  | none => .error 115
  | some e => constExpr (fun n => match symEnv st [] n with | some v => some v | none => st.prior.lookup n) e

/-- A constant that counts something: a negative one is none. -/
def countNow (st : ASt) (t : Text) (bad : Nat) : Except Nat Nat :=
  (constNow st t).bind (fun v => if v.toNat < 2 ^ 63 then .ok v.toNat else .error bad)

/-- Words separated by blanks. -/
def blankWords : Nat → Text → List Text
  | 0, _ => []
  | fuel + 1, t =>
    let u := skipBlank t
    if u = [] then [] else u.takeWhile (fun c => !isBlank c) :: blankWords fuel (u.dropWhile (fun c => !isBlank c))

def wordsOf (t : Text) : List Text := blankWords (t.length + 1) t

/-- The first word of a text, and the rest. -/
def headWord (t : Text) : Text × Text :=
  let u := skipBlank t
  let w := u.takeWhile (fun c => !isBlank c)
  (w, trim (u.drop w.length))

/-- Grow the present section. -/
def grow (st : ASt) (n : Nat) : ASt :=
  { st with sizes := st.sizes.set (secIndex st.sec) (st.size st.sec + n) }

/-- Put one datum at the end of the present section. -/
def putDatum (st : ASt) (line : Nat) (i : AItem) : ASt :=
  let n := match i with | .int k _ => k | .f32 _ => 4 | .bf16 _ => 2 | .zero k => k
  grow { st with data := ⟨line, st.sec, st.size st.sec, i⟩ :: st.data } n

/-- Pad the present section to a multiple of n bytes. -/
def padTo (st : ASt) (line n : Nat) : ASt :=
  let r := (n - st.size st.sec % n) % n
  if r = 0 then st else putDatum st line (.zero r)

def isData (s : ASec) : Bool := s = .data || s = .rodata
def isLayout (s : ASec) : Bool := s = .scratch || s = .pocket
def isPow2 (n : Nat) : Bool := n ≠ 0 && 2 ^ n.log2 = n

/-- A list of data of one kind. -/
def putData (st : ASt) (line : Nat) (k : AsmExpr → AItem) (args : Text) : ASt :=
  if !isData st.sec then st.fail line 301
  else (commaParts args).foldl (fun st t => match exprOf t with
    | some e => putDatum st line (k e)
    | none => st.fail line 104) st

/-- Change the present kernel. -/
def onKern (st : ASt) (line : Nat) (f : AKern → Except Nat AKern) : ASt :=
  match st.cur.bind (fun i => st.kerns[i]?.map (fun k => (i, k))) with
  | none => st.fail line 301
  | some (i, k) => match f k with
    | .error n => st.fail line n
    | .ok k => { st with kerns := st.kerns.set i k }

/-- `.kernel` and `.stream`. -/
def startKernel (st : ASt) (line : Nat) (stream : Bool) (args : Text) : ASt :=
  let a := commaParts args
  let name := a.headD []
  let priv := (a.drop 1).map lowerText = ["priv".toList]
  if st.sec ≠ .text then st.fail line 301
  else
    let st := if !isSymbol name || reservedName name || st.kerns.any (fun k => k.name = name) then st.fail line 114 else st
    let st := if 1 < a.length && !(priv && !stream) then st.fail line 103 else st
    { st with kerns := st.kerns ++ [{ name := name, line := line, stream := stream, priv := priv }]
              cur := some st.kerns.length, starts := true }

/-- `.window`: N and S, L and D, or g, each at least 1, the second at most the first. -/
def windowOf (st : ASt) (args : List Text) : Except Nat (Nat × Nat × Nat) :=
  let num (t : Text) : Except Nat Nat := countNow st t 306
  match args with
  | [k, a, b] =>
    (num a).bind (fun n => (num b).bind (fun s =>
      let kind := if lowerText k = "count".toList then some 0 else if lowerText k = "time".toList then some 1 else none
      match kind with
      | some j => if 1 ≤ s && s ≤ n then .ok (j, n, s) else .error 306
      | none => .error 306))
  | [k, a] => (num a).bind (fun g => if lowerText k = "gap".toList && 1 ≤ g then .ok (2, g, 0) else .error 306)
  | _ => .error 306

/-- The entry kinds. -/
def entryKinds : List (String × Nat) := [("open", 0), ("record", 1), ("pane", 2), ("close", 3), ("merge", 4)]

/-- The directives of a kernel or stream; a window directive needs a stream. -/
def kernDirective (st : ASt) (line : Nat) (dir : String) (args : Text) : ASt :=
  let num (t : Text) : Except Nat Nat := (constNow st t).map (fun v => v.toNat)
  match dir with
  | ".width" => onKern st line (fun k => (num args).bind (fun n =>
      if n = 16 || n = 32 || n = 64 then .ok { k with width := n } else .error 302))
  | ".vregs" => onKern st line (fun k => (num args).bind (fun n =>
      if n % 8 = 0 && 8 ≤ n && n ≤ 256 then .ok { k with vregs := n } else .error 303))
  | ".team" => onKern st line (fun k => (num args).bind (fun n =>
      if 1 ≤ n && n ≤ 128 then .ok { k with team := n } else .error 304))
  | ".quads" => onKern st line (fun k => .ok { k with quads := true })
  | ".window" => onKern st line (fun k =>
      if !k.stream || k.win.isSome then .error 306 else (windowOf st (wordsOf args)).map (fun w => { k with win := some w }))
  | ".deliver" => onKern st line (fun k =>
      if !k.stream then .error 306
      else if lowerText args = "multicast".toList then .ok { k with panes := false }
      else if lowerText args = "panes".toList then .ok { k with panes := true }
      else .error 306)
  | ".entry" => onKern st line (fun k =>
      if !k.stream then .error 306
      else match wordsOf args with
        | [kind, lab] => match entryKinds.find? (fun p => p.1.toList = lowerText kind) with
          | some (_, j) => if k.entries.any (fun e => e.1 = j) then .error 308 else .ok { k with entries := k.entries ++ [(j, lab)] }
          | none => .error 308
        | _ => .error 308)
  | _ => onKern st line (fun k => if k.spawns.length = 16 then .error 309 else .ok { k with spawns := k.spawns ++ [args] })

/-- `.ring`: a control block at a 64-byte boundary, its records directly after it. BASE alone is not zero (R377). -/
def ringDirective (st : ASt) (line : Nat) (args : Text) : ASt :=
  if st.sec ≠ .data then st.fail line 301
  else match commaParts args with
    | [name, size, count] =>
      match constNow st size, constNow st count with
      | .ok sz, .ok ct =>
        let s := sz.toNat
        let c := ct.toNat
        if !(s = 16 || s = 32 || s = 64 || s = 128 || s = 256) || !isPow2 c || c < 2 || 2 ^ 20 < c then st.fail line 311
        else
          let st := addLabel line (padTo { st with rings := (name, s, c) :: st.rings } line 64) name
          let st := putDatum st line (.int 8 (.bin .add (.sym name) (.int 64)))
          putDatum (putDatum st line (.zero 56)) line (.zero (s * c))
      | .error n, _ | _, .error n => st.fail line n
    | _ => st.fail line 311

/-- Names that no macro may take: mnemonics and directives (R93). -/
def directives : List String :=
  [".text", ".data", ".rodata", ".scratch", ".pocket", ".kernel", ".stream", ".width", ".vregs", ".team", ".quads", ".window",
   ".deliver", ".entry", ".spawnable", ".launch", ".endl", ".ring", ".macro", ".endm", ".equ", ".extern", ".global", ".align",
   ".space", ".byte", ".half", ".word", ".dword", ".f32", ".bf16", ".line", ".include", ".if", ".else", ".endif", ".end"]

/-- Whether a name spells a mnemonic, the first word of one, or a directive. -/
def spellsMnemonic (n : Text) : Bool :=
  let l := lowerText n
  asmForms.any (fun f => f.name.toList = l || f.name.toList.takeWhile (fun c => c ≠ '.') = l) || directives.any (fun d => d.toList = l)

/-- The start of a macro definition. -/
def startMacro (st : ASt) (line : Nat) (args : Text) : ASt :=
  let (name, rest) := headWord args
  let params := commaParts rest
  let st := if spellsMnemonic name then st.fail line 405 else if !isSymbol name || st.macros.any (fun m => m.name = name) then st.fail line 114 else st
  let st := if params.contains ['n'] then st.fail line 401 else st
  { st with defining := some ⟨name, params, []⟩ }

/-- A mark in `.text` between instructions: a new line begins, a multiple of so many lines. Labels that stand before it name the
slot before the padding (log entry 41). -/
def markLine (st : ASt) (line : Nat) (align : Nat) : ASt :=
  let at0 : List ARaw := if st.pend = [] then [] else [⟨line, st.pend, st.starts, st.starts, 0, false, none, st.cur⟩]
  { st with stmts := ⟨line, [], false, true, align, false, none, st.cur⟩ :: (at0 ++ st.stmts), pend := []
            starts := st.starts && st.pend = [] }

/-- `.align`: bytes in a data section, lines in `.text`. -/
def alignDirective (st : ASt) (line : Nat) (args : Text) : ASt :=
  match countNow st args 109 with
  | .error n => st.fail line n
  | .ok n =>
    if st.sec = .text then (if n = 0 then st.fail line 109 else markLine st line n)
    else if isPow2 n then padTo st line n else st.fail line 109

/-- A text in quotes. -/
def quoted (t : Text) : Option Text :=
  match trim t with
  | '"' :: r => if r.getLast? = some '"' then some r.dropLast else none
  | _ => none

/-- A directive that neither opens a block nor brings in lines. -/
def plainDirective (st : ASt) (line : Nat) (dir : String) (args : Text) : ASt :=
  let data (n : Nat) : ASt := putData st line (.int n) args
  match dir with
  | ".text" => { st with sec := .text }
  | ".data" => { st with sec := .data }
  | ".rodata" => { st with sec := .rodata }
  | ".scratch" => { st with sec := .scratch }
  | ".pocket" => { st with sec := .pocket }
  | ".kernel" => startKernel st line false args
  | ".stream" => startKernel st line true args
  | ".width" | ".vregs" | ".team" | ".quads" | ".window" | ".deliver" | ".entry" | ".spawnable" => kernDirective st line dir args
  | ".ring" => ringDirective st line args
  | ".equ" => (match commaParts args with
      | [n, e] => (match exprOf e with
          | some x => let st := checkName st line n; { st with equs := (n, line, x) :: st.equs }
          | none => st.fail line 115)
      | _ => st.fail line 103)
  | ".extern" => (commaParts args).foldl (fun st n =>
      { (if !isSymbol n || reservedName n then st.fail line 114 else st) with externs := st.externs ++ [n] }) st
  | ".global" => { st with globals := st.globals ++ commaParts args }
  | ".align" => alignDirective st line args
  | ".space" => (match countNow st args 109 with
      | .ok v => if st.sec = .text then st.fail line 301 else putDatum st line (.zero v)
      | .error n => st.fail line n)
  | ".byte" => data 1
  | ".half" => data 2
  | ".word" => data 4
  | ".dword" => data 8
  | ".f32" => putData st line .f32 args
  | ".bf16" => putData st line .bf16 args
  | ".line" => if st.sec = .text then markLine st line 0 else st.fail line 301
  | ".endm" | ".endl" => st.fail line 403
  | _ => st.fail line 101

/-! ## Source lines (R86, R92, R93) -/

/-- A line to be read: its number in the source, the macros and files it came through. -/
structure ALine where
  no : Nat
  macs : List Text
  files : List Text
  text : Text
  deriving DecidableEq, Repr, Inhabited

/-- An instruction statement of the present kernel. -/
def instrStmt (st : ASt) (line : Nat) (par : Bool) (t : Text) : ASt :=
  if st.sec ≠ .text then st.fail line 301
  else match insOf t with
    | .error n => st.fail line n
    | .ok i => { st with stmts := ⟨line, st.pend, st.starts, st.starts, 0, par, some i, st.cur⟩ :: st.stmts
                         pend := [], starts := false }

/-- The expansion of a macro use as lines (R93): the body is text, its comments with it (log entry 41). -/
def expandMacro (st : ASt) (l : ALine) (m : AMacro) (args : Text) : ASt × List ALine :=
  if 16 ≤ l.macs.length || l.macs.contains m.name then (st.fail l.no 402, [])
  else match bindArgs m.params (commaParts args) with
    | .error n => (st.fail l.no n, [])
    | .ok b =>
      let st := { st with expansions := st.expansions + 1 }
      match m.body.mapM (fun t => expandPct st.expansions b (t.length + 1) t) with
      | .error n => (st.fail l.no n, [])
      | .ok ls => (st, ls.map (fun t => { l with macs := m.name :: l.macs, text := t }))

/-- Whether every open condition is taken. -/
def ASt.live (st : ASt) : Bool := st.conds.all (·.1)

/-- The conditional directives (R92); none for any other line. -/
def condLine (st : ASt) (no : Nat) (dir : String) (args : Text) : Option ASt :=
  match dir with
  | ".if" =>
    if !st.live then some { st with conds := (false, true) :: st.conds }
    else match constNow st args with
      | .ok v => some { st with conds := (decide (v ≠ 0), false) :: st.conds }
      | .error n => some ({ st with conds := (false, false) :: st.conds }.fail no n)
  | ".else" => (match st.conds with
      | (t, false) :: r => some { st with conds := (!t, true) :: r }
      | (_, true) :: r => if r.all (·.1) then some (st.fail no 403) else some st
      | [] => some (st.fail no 403))
  | ".endif" => (match st.conds with
      | _ :: r => some { st with conds := r }
      | [] => some (st.fail no 403))
  | _ => none

/-- The directory part of a file's name, with its slash. -/
def dirOf (f : Text) : Text := ((f.reverse).dropWhile (fun c => c ≠ '/')).reverse

/-- The file an `.include` opens: in the directory of the including file, then in the search path's order (R84). -/
def findFile (dirs : List Text) (lib : List (Text × List Text)) (from' f : Text) : Option (Text × List Text) :=
  ((dirOf from' ++ f) :: dirs.map (fun d => d ++ ['/'] ++ f)).findSome? (fun p => (lib.lookup p).map (fun ls => (p, ls)))

/-- One source line: the new state, and the lines that stand in its place. `lib` are the files that `.include` can open. In a `.launch`
block every line is a keyword (log entry 41). -/
def sourceLine (dirs : List Text) (lib : List (Text × List Text)) (st : ASt) (l : ALine) : ASt × List ALine :=
  let t := stripComment false l.text
  let (w0, a0) := headWord t
  let d0 := String.ofList (lowerText w0)
  match st.defining with
  | some m =>
    if d0 = ".endm" then ({ st with macros := m :: st.macros, defining := none }, [])
    else ({ st with defining := some { m with body := m.body ++ [l.text] } }, [])
  | none =>
    let (labels, body) := if st.block.isSome then ([], t) else labelsOf (t.length + 1) t
    let st := if st.live then labels.foldl (addLabel l.no) st else st
    let (w, args) := headWord body
    let dir := String.ofList (lowerText w)
    match condLine st l.no dir args with
    | some st => (st, [])
    | none =>
      if !st.live then (st, [])
      else match st.block with
        | some b =>
          if d0 = ".endl" then ({ st with launches := b :: st.launches, block := none }, [])
          else if w0 = [] then (st, [])
          else ({ st with block := some { b with kws := b.kws ++ [(lowerText w0, a0)] } }, [])
        | none =>
          if w = [] then (st, [])
          else if w.take 2 = ['|', '|'] then (instrStmt st l.no true ((skipBlank body).drop 2), [])
          else match st.macros.find? (fun m => m.name = w) with
            | some m => expandMacro st l m args
            | none =>
              if w.head? ≠ some '.' then (instrStmt st l.no false body, [])
              else match dir with
                | ".macro" => (startMacro st l.no args, [])
                | ".launch" => ({ st with block := some ⟨args, l.no, []⟩ }, [])
                | ".end" => ({ st with ended := true }, [])
                | ".include" => (match quoted args with
                    | none => (st.fail l.no 103, [])
                    | some f =>
                      match findFile dirs lib (l.files.headD []) f with
                        | none => (st.fail l.no 1, [])
                        | some (p, ls) =>
                          if 16 < l.files.length || l.files.contains p then (st.fail l.no 2, [])
                          else
                            let fs := st.files ++ [p]
                            ({ st with files := fs }, (ls.zipIdx).map (fun t =>
                              ⟨2 ^ 24 * fs.length + t.2 + 1, l.macs, p :: l.files, t.1⟩)))
                | _ => (plainDirective st l.no dir args, [])

/-- Read lines until none is left or `.end` (R92), which ends the source wherever it stands, in an included file too (log entry 41);
`fuel` bounds their number. -/
def readLines (dirs : List Text) (lib : List (Text × List Text)) : Nat → List ALine → ASt → ASt
  | 0, _, st => st.fail 0 402
  | _, [], st => st
  | fuel + 1, l :: rest, st =>
    if st.ended then st
    else let r := sourceLine dirs lib st l; readLines dirs lib fuel (r.2 ++ rest) r.1

/-- What must be closed at the end of the file, and the rules on each program that its later directives decide. -/
def programDiags (k : AKern) : List Diag :=
  let has (j : Nat) : Bool := k.entries.any (fun e => e.1 = j)
  let quads := if k.quads && k.team % 4 ≠ 0 then [305] else []
  let paneCount (w : Nat × Nat × Nat) : Nat := w.2.1 / Nat.gcd w.2.1 w.2.2
  let stream : List Nat := match k.win with
    | none => [306]
    | some w =>
      (if k.panes && (w.1 = 2 || 16 < paneCount w) then [307] else [])
        ++ (if !has 1 || (has 2 && !k.panes) || (k.panes && !has 2) || (has 4 && w.1 ≠ 2) || (w.1 = 2 && !has 4) then [308] else [])
  (quads ++ (if k.stream then stream else [])).map (fun n => ⟨k.line, n⟩)

/-! ## Launch descriptors (R92, R178, R343) -/

/-- A field of a descriptor: its offset, its size, its value. -/
abbrev AField := Nat × Nat × AVal

/-- The bytes of fields, each at its place, as they stand before relocation. -/
def fieldBytes (n : Nat) (fs : List AField) : List Byte :=
  leBytes n (fs.foldl (fun b f => b + 2 ^ (8 * f.1) * (f.2.2.v.toNat % 2 ^ (8 * f.2.1))) 0)

/-- The keywords that only a stream takes. -/
def streamKws : List String :=
  ["ring", "egress", "pocket", "tick", "lateness", "endpolicy", "dormancy", "tablelog", "gran", "stats", "hashmap"]

def anyKws : List String :=
  ["kind", "program", "teams", "shape", "hint", "fieldmask", "gathertimeout", "repack", "constants", "exit", "completion", "race",
   "withdrawable", "interrupt"]

/-- The kinds of launch. -/
def launchKinds : List (String × Nat) := [("grid", 0), ("neighbourhood", 1), ("gang", 2), ("stream", 3)]

/-- SCRATCH: the layout's size rounded up to 256, or to 512 above 507,904 (R92, R177). -/
def scratchSize (n : Nat) : Except Nat Nat :=
  let a := (n + 255) / 256 * 256
  let b := if 507904 < a then (n + 511) / 512 * 512 else a
  if 1015808 < b then .error 313 else .ok b

/-- A launch built: the descriptor, and for a stream its extension. -/
structure ADesc where
  name : Text
  fields : List AField
  deriving DecidableEq, Repr, Inhabited

/-- What a launch adds to `.data`: an area or table at an alignment, under a label made of the launch's name. -/
structure AArea where
  label : Text
  align : Nat
  items : List AItem
  deriving DecidableEq, Repr, Inhabited

def areaName (l : ALaunch) (s : String) : Text := l.name ++ s.toList

/-- The launch's keyword, once. -/
def ALaunch.kw (l : ALaunch) (n : String) : Option Text := l.kws.lookup n.toList
def ALaunch.has (l : ALaunch) (n : String) : Bool := (l.kw n).isSome

/-- Whether a launch's keywords are known, fit its kind and stand once, `egress` up to four times. -/
def kwsOk (l : ALaunch) (kind : Nat) : Bool :=
  l.kws.all (fun p => anyKws.any (fun n => n.toList = p.1) || (kind = 3 && streamKws.any (fun n => n.toList = p.1)))
    && l.kws.all (fun p => (l.kws.filter (fun q => q.1 = p.1)).length ≤ (if p.1 = "egress".toList then 4 else 1))
    && !(l.has "shape" && kind ≠ 1) && !(l.has "teams" && kind = 3) && !(kind = 1 && !l.has "shape")
    && !(kind = 3 && !(l.has "ring" && l.has "egress"))

/-- A keyword's number, within bounds, or its default. -/
def kwNat (st : ASt) (l : ALaunch) (n : String) (dflt lo hi bad : Nat) : Except Nat Nat :=
  match l.kw n with
  | none => .ok dflt
  | some t => (constNow st t).bind (fun v => if lo ≤ v.toNat && v.toNat ≤ hi then .ok v.toNat else .error bad)

/-- One of two words. -/
def kwWord (l : ALaunch) (n a b : String) : Except Nat Bool :=
  match l.kw n with
  | none => .ok false
  | some t => if lowerText t = a.toList then .ok false else if lowerText t = b.toList then .ok true else .error 310

/-- A keyword's place, or the label that stands for it. -/
def kwExpr (l : ALaunch) (n : String) (dflt : AsmExpr) : Except Nat AsmExpr :=
  match l.kw n with
  | none => .ok dflt
  | some t => match exprOf t with
    | some e => .ok e
    | none => .error 115

/-- The two numbers of `shape`. -/
def shapeOf (st : ASt) (l : ALaunch) : Except Nat (Nat × Nat) :=
  match l.kw "shape" with
  | none => .ok (0, 0)
  | some t => match wordsOf (t.map (fun c => if c = ',' then ' ' else c)) with
    | [w, h] => (constNow st w).bind (fun a => (constNow st h).bind (fun b =>
        if a.toNat < 256 && b.toNat < 256 then .ok (a.toNat, b.toNat) else .error 310))
    | _ => .error 310

/-- The hidden label at a kernel's first slot. -/
def kernLabel (name : Text) : Text := ' ' :: name

/-- A launch's fields, as expressions, its extension's, and the areas it adds. -/
structure ABuilt where
  desc : List (Nat × Nat × AsmExpr)
  ext : List (Nat × Nat × AsmExpr)
  areas : List AArea
  deriving DecidableEq, Repr, Inhabited

def numE (n : Nat) : AsmExpr := .int (BitVec.ofNat 64 n)

/-- The stream extension (R343) with the defaults of R92. -/
def streamFields (st : ASt) (l : ALaunch) (k : AKern) : Except Nat (List (Nat × Nat × AsmExpr)) := do
  let w := k.win.getD (0, 1, 1)
  let count := w.1 = 0
  let layout := (st.size .pocket + 31) / 32 * 32
  let pocket ← kwNat st l "pocket" layout 32 4096 310
  if 4096 < pocket || pocket % 32 ≠ 0 then .error 310
  else
    let tick ← kwNat st l "tick" 1 1 1000000 109
    let late ← kwNat st l "lateness" 0 0 (2 ^ 48 - 1) 109
    let dorm ← kwNat st l "dormancy" 0 0 (2 ^ 32 - 1) 109
    let gran ← kwNat st l "gran" (if count then 0 else 1) 0 (2 ^ 32 - 1) 109
    let tlog ← kwNat st l "tablelog" 16 10 24 109
    let pol ← kwWord l "endpolicy" "emit" "discard"
    let ring ← kwExpr l "ring" (numE 0)
    let stats ← kwExpr l "stats" (.sym (areaName l "$stats"))
    let hmap ← kwExpr l "hashmap" (numE 0)
    let entry (j : Nat) : AsmExpr := match k.entries.find? (fun e => e.1 = j) with | some e => .sym e.2 | none => numE 0
    let negr := (l.kws.filter (fun p => p.1 = "egress".toList)).length
    .ok [(0, 8, ring), (8, 1, numE w.1), (9, 1, numE k.panes.toNat), (10, 1, numE pol.toNat), (11, 1, numE negr), (12, 4, numE pocket),
      (16, 8, numE w.2.1), (24, 8, numE w.2.2), (32, 8, numE late), (40, 4, numE tick), (44, 4, numE dorm), (48, 4, numE gran),
      (52, 4, numE tlog), (56, 8, entry 0), (64, 8, entry 1), (72, 8, entry 2), (80, 8, entry 3), (88, 8, entry 4),
      (96, 8, .sym (areaName l "$egress")), (104, 8, hmap), (112, 8, stats)]

/-- Build a launch (R92). -/
def buildLaunch (st : ASt) (l : ALaunch) : Except Nat ABuilt := do
  let kind ← match (l.kw "kind").bind (fun t => launchKinds.find? (fun p => p.1.toList = lowerText t)) with
    | some p => .ok p.2
    | none => .error 310
  let k ← match (l.kw "program").bind (fun t => st.kerns.find? (fun k => k.name = trim t)) with
    | some k => .ok k
    | none => .error 310
  if !kwsOk l kind || decide (kind = 3) ≠ k.stream then .error 310
  else
    let (sw, sh) ← shapeOf st l
    let size := sw * sh
    let teams ← if kind = 1 then kwNat st l "teams" size size size 310 else kwNat st l "teams" (if kind = 3 then 0 else 1) 1 (2 ^ 24) 109
    let race ← kwWord l "race" "on" "off"
    let gto ← kwNat st l "gathertimeout" 0 0 6553 109
    let repack ← kwNat st l "repack" 0 0 255 109
    let fmask ← kwNat st l "fieldmask" 0 0 65535 109
    let hint ← kwExpr l "hint" (numE 0)
    let (cbase, clen) ← match l.kw "constants" with
      | none => .ok (numE 0, numE 0)
      | some t => match (commaParts t).mapM exprOf with
        | some [a, b] => .ok (a, b)
        | _ => .error 310
    let exita ← kwExpr l "exit" (.sym (areaName l "$exit"))
    let compa ← kwExpr l "completion" (.sym (areaName l "$comp"))
    let scratch ← scratchSize (st.size .scratch)
    let ext ← if kind = 3 then streamFields st l k else .ok []
    let flags := k.quads.toNat + 2 * (!race).toNat + 4 * k.priv.toNat + 8 * (l.has "hint").toNat + 16 * (l.has "fieldmask").toNat
      + 32 * (l.has "withdrawable").toNat + 64 * (l.has "interrupt").toNat
    let area (use : Bool) (s : String) (al n : Nat) : List AArea := if use then [⟨areaName l s, al, [.zero n]⟩] else []
    let table (use : Bool) (s : String) (es : List AsmExpr) : List AArea :=
      if use then [⟨areaName l s, 8, es.map (.int 8)⟩] else []
    let eg ← (l.kws.filter (fun p => p.1 = "egress".toList)).mapM (fun p => match exprOf p.2 with | some e => .ok e | none => .error 115)
    .ok
      { desc := [(0, 1, numE kind), (1, 1, numE (k.width / 32)), (2, 2, numE flags), (4, 2, numE k.team), (6, 2, numE k.vregs),
          (8, 4, numE teams), (12, 1, numE sw), (13, 1, numE sh), (14, 2, numE (10 * gto)), (16, 8, .sym (kernLabel k.name)),
          (24, 4, numE scratch), (28, 4, clen), (32, 8, cbase), (40, 8, hint), (48, 2, numE fmask), (50, 1, numE repack),
          (51, 1, numE k.spawns.length), (56, 8, if k.spawns = [] then numE 0 else .sym (areaName l "$spawn")), (64, 8, exita),
          (72, 8, compa), (80, 8, if kind = 3 then .sym (areaName l "$stream") else numE 0)]
        ext := ext
        areas := area (!l.has "exit") "$exit" 64 (64 * (1 + (k.team + 7) / 8) * teams) ++ area (!l.has "completion") "$comp" 64 64
          ++ area (kind = 3 && !l.has "stats") "$stats" 64 64 ++ table (k.spawns ≠ []) "$spawn" (k.spawns.map .sym)
          ++ table (kind = 3) "$egress" eg }

/-- The items of a structure's fields: zero bytes between them. -/
def fieldItems (n : Nat) (fs : List (Nat × Nat × AsmExpr)) : List AItem :=
  let r := fs.foldl (fun (a : Nat × List AItem) f => (f.1 + f.2.1, a.2 ++ (if a.1 < f.1 then [.zero (f.1 - a.1)] else []) ++ [.int f.2.1 f.2.2])) (0, [])
  r.2 ++ (if r.1 < n then [.zero (n - r.1)] else [])

/-- Put an area at the end of `.data`. -/
def putArea (line : Nat) (st : ASt) (a : AArea) : ASt :=
  let st := addLabel line (padTo { st with sec := .data } line a.align) a.label
  a.items.foldl (fun st i => putDatum st line i) st

/-- Every launch built in order, its areas and extension placed. -/
def placeLaunches (st : ASt) : ASt × List (ALaunch × ABuilt) :=
  st.launches.reverse.foldl (fun r l =>
    match buildLaunch r.1 l with
    | .error n => (r.1.fail l.line n, r.2)
    | .ok b =>
      let areas := b.areas ++ (if b.ext = [] then [] else [⟨areaName l "$stream", 128, fieldItems 128 b.ext⟩])
      (areas.foldl (putArea l.line) r.1, r.2 ++ [(l, b)])) (st, [])

/-! ## The object (R89 to R91) -/

/-- A relocation entry. -/
structure AReloc where
  off : Nat
  sym : Nat
  kind : Nat
  sec : Nat
  addend : W64
  deriving DecidableEq, Repr, Inhabited

/-- The 24 bytes of a relocation entry (R91). -/
def AReloc.bytes (r : AReloc) : List Byte :=
  leBytes 8 r.off ++ leBytes 4 r.sym ++ leBytes 1 r.kind ++ leBytes 1 r.sec ++ leBytes 2 0 ++ leBytes 8 r.addend.toNat

/-- A descriptor (R90): of a kernel or stream, of a launch as its bytes with their relocations, of a ring. -/
inductive ADescr where
  | program (k : AKern)
  | launch (name : Text) (bytes : List Byte) (relocs : List AReloc)
  | ring (name : Text) (size count : Nat)
  deriving DecidableEq, Repr, Inhabited

/-- An object: text lines with the source line of each slot, data bytes, the sizes of the layouts, the symbol table with each
symbol's section and value, the exported names, the relocations, the descriptors, the files included, and the diagnostics. A kernel's
first slot has a symbol of its own, its name after a blank. -/
structure AObj where
  lines : List (Nat × List Nat)
  data : List Byte
  rodata : List Byte
  scratch : Nat
  pocket : Nat
  syms : List (Text × ASec × W64)
  globals : List Text
  relocs : List AReloc
  descs : List ADescr
  files : List Text
  diags : List Diag
  deriving DecidableEq, Repr, Inhabited

/-- The header of an object (R91): the four counts and the file offsets of the four tables. -/
def iloHeader (nsec nsym nrel ndesc : Nat) (offs : List Nat) : List Byte :=
  leBytes 4 0x314F4C49 ++ leBytes 2 1 ++ leBytes 2 1 ++ leBytes 4 nsec ++ leBytes 4 nsym ++ leBytes 4 nrel ++ leBytes 4 ndesc
    ++ (List.range 4).flatMap (fun i => leBytes 8 ((offs[i]?).getD 0)) ++ leBytes 8 0

/-- Every relocation of an object, those of its launch descriptors last. -/
def AObj.allRelocs (o : AObj) : List AReloc :=
  o.relocs ++ o.descs.flatMap (fun d => match d with | .launch _ _ rs => rs | _ => [])

/-- The header of an object: five sections; the tables stand after it in the order of R91, and the spec does not give the sizes of
section and symbol entries (log entry 41). -/
def AObj.header (o : AObj) : List Byte :=
  let nrel := o.allRelocs.length
  let symOff := 64 + 5 * Config.iloEntry 0
  let relOff := symOff + o.syms.length * Config.iloEntry 1
  iloHeader 5 o.syms.length nrel o.descs.length [64, symOff, relOff, relOff + 24 * nrel]

/-- The relocation table of an object. -/
def AObj.relocTable (o : AObj) : List Byte := o.allRelocs.flatMap AReloc.bytes

/-- What a relocation patches (R91), given the bytes it stands in and the value: a byte offset, a count and the bytes. The
line offset of a BRANCH gives its displacement by R166. -/
def patchesOf (r : AReloc) (v : W64) (lineBase : W64) : List (Nat × List Byte) :=
  match r.kind with
  | 1 => [(r.off + 8, leBytes 4 (v.toNat % 2 ^ 32))]
  | 2 => [(r.off + 8, leBytes 4 (v.toNat / 2 ^ 32)), (r.off + 20, leBytes 4 (v.toNat % 2 ^ 32))]
  | 3 => [(r.off, leBytes 4 (v.toNat % 2 ^ 32))]
  | 4 => [(r.off, leBytes 8 v.toNat)]
  | _ => [(r.off + 8, leBytes 4 ((v - lineBase).toNat % 2 ^ 32))]

/-- The environment of a statement's kernel. -/
def kernEnv (st : ASt) (k : Option Nat) : Env :=
  match k.bind (fun i => st.kerns[i]?) with
  | some k => asmEnv k.width k.vregs k.priv k.quads
  | none => asmEnv 32 256 false false

/-- Encode the statements with a table of PCs; a statement in error stands as `NOP`. -/
def encodeAll (st : ASt) (pcs : List (Text × Nat)) : List AStmt × List Diag :=
  let env := symEnv st pcs
  let enc (s : ARaw) : AStmt × List Diag :=
    let e := kernEnv st s.kern
    let name := match s.kern.bind (fun i => st.kerns[i]?) with | some k => k.name | none => []
    let labels := (if s.starts then [kernLabel name] else []) ++ s.labels
    let raw (x : AEnc) : AStmt := ⟨s.line, labels, s.starts, s.brk, s.align, s.par, x, e⟩
    match s.ins.map (encodeIns env e) with
    | none => (raw ⟨[], none, [], none, []⟩, [])
    | some (.ok x) => (raw x, [])
    | some (.error n) => (raw ⟨[0], none, [], none, []⟩, [⟨s.line, n⟩])
  let r := st.stmts.reverse.map enc
  let tail : List AStmt := if st.pend = [] then [] else
    [⟨0, st.pend, false, false, 0, false, ⟨[], none, [], none, []⟩, kernEnv st st.cur⟩]
  (r.map (·.1) ++ tail, r.flatMap (·.2))

/-- Encode and lay out until the PCs no longer move: from a table with every label at 0, a few times. -/
def settleText (st : ASt) (auto : Bool) : Nat → List (Text × Nat) → AText × List Diag × List (Text × Nat)
  | 0, pcs => (⟨[], [], [], []⟩, [], pcs)
  | fuel + 1, pcs =>
    let r := encodeAll st pcs
    let t := layText auto r.1
    if t.labels = pcs then (t, r.2, pcs)
    else if fuel = 0 then (t, r.2, t.labels) else settleText st auto fuel t.labels

/-- A datum's bytes, its relocation kind if it has one, and a diagnostic (R91, R92). -/
def datumBytes (env : Text → Option AVal) (d : ADatum) : List Byte × Option (Nat × AVal) × List Diag :=
  let bad (n k : Nat) : List Byte × Option (Nat × AVal) × List Diag := (leBytes k 0, none, [⟨d.line, n⟩])
  match d.item with
  | .zero n => (List.replicate n 0, none, [])
  | .int n e =>
    (match evalExpr env e with
    | .error m => bad m n
    | .ok v => match v.rel with
      | some _ => if n = 8 then (leBytes 8 v.v.toNat, some (4, v), []) else if n = 4 then (leBytes 4 v.v.toNat, some (3, v), []) else bad 115 n
      | none =>
        let lo : Int := -(2 ^ (8 * n - 1))
        if n < 8 && (v.v.toInt < lo || 2 ^ (8 * n) ≤ v.v.toInt) then bad 109 n else (leBytes n v.v.toNat, none, []))
  | .f32 e => (match numberVal env e with
    | .error m => bad m 4
    | .ok v => (leBytes 4 (rnF32 v), none, if (f32v (rnF32 v)).cmp v = some .eq then [] else [⟨d.line, 503⟩]))
  | .bf16 e => (match numberVal env e with
    | .error m => bad m 2
    | .ok v =>
      let c := roundF fmtBf16 0 false v
      (leBytes 2 c, none, if (bf16v c).cmp v = some .eq then [] else [⟨d.line, 503⟩]))

/-- A value's relocation entry: its symbol, the addend beyond the symbol's own place. -/
def relocOf (syms : List (Text × ASec × W64)) (sec off kind : Nat) (v : AVal) : List AReloc :=
  match v.rel with
  | none => []
  | some (_, n) =>
    let i := (syms.findIdx? (fun s => s.1 = n)).getD 0
    let base := ((syms[i]?).map (fun s => s.2.2)).getD 0
    [⟨off, i, kind, sec, v.v - base⟩]

/-- The text of what was read, laid out. -/
def textOf (st : ASt) (auto : Bool) : AText × List Diag × List (Text × Nat) :=
  settleText st auto 6 ((st.stmts.reverse.flatMap (fun s => s.labels)).map (fun n => (n, 0))
    ++ st.kerns.map (fun k => (kernLabel k.name, 0)) ++ st.pend.map (fun n => (n, 0)))

/-- Assemble what was read (R89 to R97). A relocation in a launch descriptor names section 6, one past `.extern`; an undefined `.global`
name and a `.scratch` layout too large are reported at line 0 (log entry 41). -/
def buildObject (st : ASt) (auto : Bool) (last : Nat) : AObj :=
  let openErrs := (if st.defining.isSome || st.block.isSome || st.conds ≠ [] then [(⟨last, 404⟩ : Diag)] else [])
  let (st, built) := placeLaunches st
  let st := if isLayout st.sec then { st with sec := .text } else st
  let (text, encDiags, pcs) := textOf st auto
  let env := symEnv st pcs
  let syms : List (Text × ASec × W64) :=
    st.syms.reverse.map (fun s => (s.1, s.2.1, BitVec.ofNat 64 s.2.2)) ++ pcs.map (fun p => (p.1, .text, BitVec.ofNat 64 p.2))
      ++ st.externs.map (fun n => (n, .extern, 0)) ++ st.equs.reverse.filterMap (fun q =>
        (env q.1).map (fun v => (q.1, (v.rel.map (·.1)).getD .abs, v.v)))
  let dat (sec : ASec) := (st.data.reverse.filter (fun d => d.sec = sec)).map (fun d => (d, datumBytes env d))
  let both := dat .data ++ dat .rodata
  let bytes (sec : ASec) : List Byte := (dat sec).flatMap (fun d => d.2.1)
  let dataRel := both.flatMap (fun d => match d.2.2.1 with
    | some (k, v) => relocOf syms (secIndex d.1.sec) d.1.off k v
    | none => [])
  let textRel := text.rels.flatMap (fun r => relocOf syms 0 r.1 r.2.1 r.2.2)
  let descs := built.map (fun b =>
    let fs : List AField := b.2.desc.filterMap (fun f => ((evalExpr env f.2.2).toOption).map (fun v => (f.1, f.2.1, v)))
    ADescr.launch b.1.name (fieldBytes 128 fs) (fs.flatMap (fun f => relocOf syms 6 f.1 4 f.2.2)))
  let descErrs := built.flatMap (fun b => b.2.desc.filterMap (fun f => match evalExpr env f.2.2 with
    | .error n => some (⟨b.1.line, n⟩ : Diag)
    | .ok _ => none))
  let equErrs := st.equs.filterMap (fun q => match evalExpr env q.2.2 with
    | .error n => some (⟨q.2.1, n⟩ : Diag)
    | .ok _ => none)
  let labelErrs := st.kerns.flatMap (fun k => (k.entries.map (·.2) ++ k.spawns).filterMap (fun n =>
    if (env n).isNone then some (⟨k.line, 113⟩ : Diag) else none))
  let scratchErr := match scratchSize (st.size .scratch) with | .ok _ => [] | .error n => [(⟨0, n⟩ : Diag)]
  let missing := st.globals.filterMap (fun n => if (env n).isNone then some (⟨0, 113⟩ : Diag) else none)
  { lines := text.lines, data := bytes .data, rodata := bytes .rodata, scratch := st.size .scratch, pocket := st.size .pocket
    syms := syms, globals := st.globals, relocs := textRel ++ dataRel
    descs := st.kerns.map ADescr.program ++ descs ++ st.rings.reverse.map (fun r => ADescr.ring r.1 r.2.1 r.2.2), files := st.files
    diags := st.diags.reverse ++ openErrs ++ st.kerns.flatMap programDiags ++ encDiags ++ text.diags ++ both.flatMap (fun d => d.2.2.2)
      ++ descErrs ++ equErrs ++ labelErrs ++ scratchErr ++ missing }

/-! ## Options and exit status (R84, R85) -/

structure AOpts where
  out : Option Text := none
  dirs : List Text := []
  defs : List (Text × Text) := []
  list : Option Text := none
  auto : Bool := false
  warn : Bool := true
  werror : Bool := false
  files : List Text := []
  deriving DecidableEq, Repr, Inhabited

/-- Read the command line; none when the options are invalid. -/
def readOpts : Nat → List String → AOpts → Option AOpts
  | 0, _, _ => none
  | _, [], o => if o.files = [] || (o.out.isSome && o.files.length ≠ 1) then none else some o
  | fuel + 1, a :: rest, o =>
    match a, rest with
    | "-o", f :: r => readOpts fuel r { o with out := some f.toList }
    | "-I", d :: r => readOpts fuel r { o with dirs := o.dirs ++ [d.toList] }
    | "-D", d :: r =>
      let n := d.toList.takeWhile (fun c => c ≠ '=')
      if d.toList.contains '=' then readOpts fuel r { o with defs := o.defs ++ [(n, d.toList.drop (n.length + 1))] } else none
    | "--list", f :: r => readOpts fuel r { o with list := some f.toList }
    | "--target", t :: r => if t = "ws9-a1" then readOpts fuel r o else none
    | "--autopair", r => readOpts fuel r { o with auto := true }
    | "-W0", r => readOpts fuel r { o with warn := false }
    | "-W1", r => readOpts fuel r { o with warn := true }
    | "--werror", r => readOpts fuel r { o with werror := true }
    | f, r => if f.toList.head? = some '-' then none else readOpts fuel r { o with files := o.files ++ [f.toList] }

/-- The object file's name: `.ilo` in place of `.ils` unless `-o` names it. -/
def objName (o : AOpts) (file : Text) : Text :=
  match o.out with
  | some f => f
  | none => (if file.drop (file.length - 4) = ".ils".toList then file.take (file.length - 4) else file) ++ ".ilo".toList

/-- One reading of a source, with the symbols' values of the reading before. -/
def readSource (fuel : Nat) (o : AOpts) (lib : List (Text × List Text)) (file : Text) (src : List Text) (prior : List (Text × AVal)) :
    ASt :=
  let st0 : ASt := o.defs.foldl (fun st d => plainDirective st 0 ".equ" (d.1 ++ [','] ++ d.2)) { prior := prior }
  readLines o.dirs lib fuel ((src.zipIdx).map (fun l => (⟨l.2 + 1, [], [file], l.1⟩ : ALine))) st0

/-- The values of the symbols of what was read. -/
def symTable (st : ASt) (auto : Bool) : List (Text × AVal) :=
  let st := (placeLaunches st).1
  let pcs := (textOf st auto).2.2
  (st.syms.map (·.1) ++ st.equs.map (·.1) ++ pcs.map (·.1)).filterMap (fun n => (symEnv st pcs n).map (fun v => (n, v)))

/-- Read a source until its symbols' values no longer change, so that directives too may use a symbol before its definition (R90). -/
def readAll (again : List (Text × AVal) → ASt) (auto : Bool) : Nat → ASt → ASt
  | 0, st => st
  | n + 1, st =>
    if st.prior = [] && !st.diags.any (fun d => d.num = 113) then st
    else
      let t := symTable st auto
      if t = st.prior then st else readAll again auto n (again t)

/-- Assemble one source; `fuel` bounds the lines read. -/
def assemble (fuel : Nat) (o : AOpts) (lib : List (Text × List Text)) (file : Text) (src : List Text) : AObj :=
  let again := readSource fuel o lib file src
  buildObject (readAll again o.auto 8 (again [])) o.auto src.length

/-- The diagnostics shown: warnings only where they are reported. A warning that `--werror` makes an error is reported, and counts, under
`-W0` too (log entry 41). -/
def shown (o : AOpts) (d : List Diag) : List Diag := d.filter (fun x => o.warn || x.isError o.werror)
def hasError (o : AOpts) (d : List Diag) : Bool := d.any (fun x => x.isError o.werror)

/-- A row of the listing (R84): the line's address in the section, its line word, its five slots and the source lines placed in
them. -/
structure ListRow where
  addr : Nat
  word : Nat
  slots : List Nat
  src : List Nat
  deriving DecidableEq, Repr, Inhabited

def listing (o : AObj) : List ListRow :=
  (o.lines.zipIdx).map (fun l => ⟨64 * l.2, l.1.1 % 2 ^ 32, (List.range 5).map (fun k => slotWord l.1.1 k), l.1.2⟩)

/-- What `ilas` makes of one source: its diagnostics, and what it writes: the object and its listing. -/
structure ASource where
  file : Text
  files : List Text
  diags : List Diag
  obj : Option AObj
  deriving DecidableEq, Repr, Inhabited

/-- One source; `locked` are the names of files that cannot be written. No object or listing is written for a source in error; one whose
listing alone cannot be written has its object (log entry 41). -/
def ilasSource (fuel : Nat) (o : AOpts) (files : List (Text × List Text)) (locked : List Text) (f : Text) : ASource :=
  match files.lookup f with
  | none => ⟨f, [], [⟨0, 1⟩], none⟩
  | some src =>
    let x := assemble fuel o files f src
    if hasError o x.diags then ⟨f, x.files, x.diags, none⟩
    else
      let bad := (objName o f :: o.list.toList).filter (fun n => locked.contains n)
      ⟨f, x.files, x.diags ++ bad.map (fun _ => ⟨0, 3⟩), some x⟩

/-- A run of `ilas`: its exit status, its lines on standard error, and the objects and listing it writes (R84, R85). -/
structure ARun where
  status : Nat
  err : List String
  objects : List (Text × AObj)
  list : Option (Text × List ListRow)
  deriving DecidableEq, Repr, Inhabited

/-- A run on a file system: the files that can be read, the names that cannot be written. A file that cannot be read or written gives
status 2 also where a source has an error (log entry 41). -/
def ilas (fuel : Nat) (args : List String) (files : List (Text × List Text)) (locked : List Text) : ARun :=
  match readOpts (args.length + 1) args {} with
  | none => ⟨2, [], [], none⟩
  | some o =>
    let rs := o.files.map (ilasSource fuel o files locked)
    let ds := rs.flatMap (fun r => r.diags)
    let good := rs.filterMap (fun r => r.obj.map (fun x => (objName o r.file, x)))
    { status := if ds.any (fun d => d.num = 1 || d.num = 3) then 2 else if hasError o ds then 1 else 0
      err := rs.flatMap (fun r => (shown o r.diags).map (Diag.show o.werror (r.file :: r.files)))
      objects := good.filter (fun x => !locked.contains x.1)
      list := (o.list.filter (fun n => !locked.contains n)).map (fun n => (n, good.flatMap (fun x => listing x.2))) }

end Sys2Proof.Machine
end

