-- ==== Sys2Proof/Tests/Slice0.lean ====
section
/-! SUPPORT. Tests of this model: well-formedness, words the spec writes out, and, for the statements, states that meet their
hypotheses. Expected values are the spec's worked examples or computed by hand from its rules, as each comment says. -/

open Sys2Proof Sys2Proof.Machine

namespace Sys2Proof.Tests
set_option Elab.async false

/-! ## Well-formed instructions: each check refuses a term -/

/-- A group of width 32 with 64 `v` registers. -/
def env32 : Env := ⟨32, 64, false, false, false, false, false, []⟩

/-- `IADD` and its kin on v4, v1, v2, with nothing else in the word. -/
def xAdd : InsWord := ⟨0, 0, .zero, .v 2, .v 1, false, .v 4, false, 7⟩

theorem test_wf_legal : (Instr.iadd false xAdd).legal env32 = true := by decide
/-- An operand of a kind the field may not name (R61): a literal as destination. -/
theorem test_wf_kind : (Instr.iadd false { xAdd with dst := .lit }).legal env32 = false := by decide
/-- A field the instruction does not use holds something (R61). -/
theorem test_wf_unused : (Instr.iadd false { xAdd with opc := .v 0 }).legal env32 = false := by decide
/-- A 64-bit operand in an odd register (R62). -/
theorem test_wf_align : (Instr.iadd true { xAdd with dst := .v 5 }).legal env32 = false := by decide
/-- A register at `.vregs` (R157). -/
theorem test_wf_vregs : (Instr.iadd false { xAdd with opa := .v 64 }).legal env32 = false := by decide
/-- A MOD bit the instruction does not define (R65). -/
theorem test_wf_mod : (Instr.iadd false { xAdd with mod := 0x200 }).legal env32 = false := by decide
/-- A reserved MOD value (R110: condition 6). -/
theorem test_wf_value : (Instr.iset false { xAdd with mod := 0x18 }).legal env32 = false := by decide
/-- NW with a destination, and NW on an instruction without a latch result (R67). -/
theorem test_wf_nw : (Instr.iadd false { xAdd with nw := true }).legal env32 = false := by decide
theorem test_wf_nw_latch :
    (Instr.ld .b32 { xAdd with opb := .zero, nw := true, dst := .zero }).legal env32 = false := by decide
/-- A privileged instruction in an unprivileged group (R82). -/
theorem test_wf_priv : (Instr.rft ⟨0, 0, .zero, .zero, .s 2, false, .s 4, false, 7⟩).legal env32 = false := by decide
/-- An engine function with another code in its word (R78). -/
theorem test_wf_function : (Instr.cpyGo true ⟨0, 2, .zero, .zero, .s 6, false, .s 8, false, 7⟩).encodable = false := by decide
/-- An engine function whose reply is required, without one (R78). -/
theorem test_wf_reply : (Instr.cpySt false ⟨0, 2, .zero, .zero, .s 6, false, .zero, false, 7⟩).legal env32 = false := by decide
/-- A context command with another mode in its word (R398). -/
theorem test_wf_mode : (Instr.ctxsvSwap ⟨0, 0, .zero, .zero, .s 6, false, .s 8, false, 7⟩).encodable = false := by decide
/-- An assigned opcode as an unassigned one (R81). -/
theorem test_wf_assigned : (Instr.unassignedOpcode 1).encodable = false := by decide
/-- A step of another unit has no word. -/
theorem test_wf_event : Instr.schedTick.encodable = false := by decide

/-! ## Decoding -/

/-- Whether a word decodes to an instruction. -/
def decodesTo (w : Nat) (i : Instr) : Bool := match decode w with | .ok j => decide (j = i) | .error _ => false

/-- A word by R60's fields but for its opcode: LIT `0x12345678`, OPC s5, OPB v2, OPA v1, DST v4, the guard `!p5`. -/
def wordW : Nat := 0x12345678 * 2 ^ 64 + 0x105 * 2 ^ 44 + 0x002 * 2 ^ 34 + 0x001 * 2 ^ 24 + 0x004 * 2 ^ 13 + 1 * 2 ^ 12 + 5 * 2 ^ 9
def xW : InsWord := ⟨0x12345678, 0, .s 5, .v 2, .v 1, false, .v 4, true, 5⟩

/-- Consecutive opcodes from a base decode to the instructions in order, as the rows of R80's table give them. -/
def inOrder (base : Nat) (l : List (InsWord → Instr)) : Bool :=
  l.zipIdx.all (fun c => decodesTo (wordW + base + c.2) (c.1 xW))

theorem test_decode_integer :
    ([false, true].all (fun w => inOrder (if w then 0x021 else 0x001)
      [.iadd w, .isub w, .imul w, .imulh w, .imad w, .idiv w, .irem w, .imin w, .imax w, .iabs w, .and w, .or w, .xor w, .bfn3 w,
       .shl w, .shr w, .sar w, .rot w, .fsh w, .clz w, .popc w, .brev w, .bfe w, .bfi w, .sel w, .icmp w, .iset w, .lea w, .mov w,
       .movl w])) = true := by decide +kernel
theorem test_decode_float :
    ([(0x040, FFmt.f32), (0x048, .f16), (0x050, .bf16)].all (fun f => inOrder f.1
      [.fadd f.2, .fmul f.2, .ffma f.2, .fmin f.2, .fmax f.2, .fcmp f.2, .fset f.2, .frnd f.2])
      && inOrder 0x060 [.cvt .f32, .cvt .f16, .cvt .bf16, .cvt .e4m3, .cvt .e5m2]
      && inOrder 0x068 [.cvt .i8, .cvt .n8, .cvt .i16, .cvt .n16, .cvt .i32, .cvt .n32, .cvt .i64, .cvt .n64]) = true := by decide +kernel
theorem test_decode_special :
    ([false, true].all (fun a => inOrder (if a then 0x090 else 0x080)
      [.exp2 a, .log2 a, .rcp a, .rsq a, .sqrt a, .sin a, .cos a, .tanh a, .sigm a, .gelu a, .silu a, .erf a])
      && inOrder 0x08C [.exp2Bf2, .rcpBf2, .rsqBf2, .tanhBf2] && inOrder 0x09C [.sigmBf2, .geluBf2, .siluBf2, .erfBf2]) = true := by
  decide +kernel
theorem test_decode_packed :
    ([false, true].all (fun h => inOrder (if h then 0x0A8 else 0x0A0)
      [.add2h h, .mul2h h, .fma2h h, .min2h h, .max2h h, .cmp2h h])
      && inOrder 0x0B0 [.dot4 false, .dot4 true, .dot8 false, .dot8 true, .dot2 false, .dot2 true]
      && inOrder 0x0B8 [.cvtPk2 false, .cvtPk2 true, .cvtPk4 false, .cvtPk4 true, .cvtUnpk]) = true := by decide +kernel
theorem test_decode_lanes :
    inOrder 0x0C0 [.shflAt false, .shflLo false, .shflHi false, .shflFlip false, .shflAt true, .shflLo true, .shflHi true,
      .shflFlip true, .voteEvery, .voteSome, .voteSame, .voteMask, .matchPeers false, .matchUnan false, .matchPeers true,
      .matchUnan true, .reduxAdd, .reduxMin, .reduxMax, .reduxAnd, .reduxOr, .reduxXor, .reduxFadd, .reduxFmin, .reduxFmax,
      .scanInc, .scanExc, .cmpr, .expd, .xbar, .xpld, .laneid] = true := by decide +kernel
theorem test_decode_control :
    (inOrder 0x0E0 [.bra, .braNone, .braAny, .braAll, .brx, .call, .callx, .ret, .exit] && inOrder 0x0EC [.emrd, .emwr, .pset, .plop]
      && inOrder 0x0F0 [.acqh, .relh, .yield] && inOrder 0x0F8 [.trap, .req, .bpt]) = true := by decide +kernel
theorem test_decode_memory :
    (inOrder 0x100 [.ld .i8, .ld .n8, .ld .i16, .ld .n16, .ld .b32, .ld .b64, .ld .b128]
      && inOrder 0x108 [.st .b8, .st .b16, .st .b32, .st .b64, .st .b128] && inOrder 0x10E [.fence, .fenceX]
      && inOrder 0x110 [.ldAcq .b8, .ldAcq .b16, .ldAcq .b32, .ldAcq .b64, .stRel .b8, .stRel .b16, .stRel .b32, .stRel .b64, .lds,
        .stq, .ldmt false, .ldmt true, .ldc .b32, .ldc .b64, .ldc .b128]
      && inOrder 0x120 [.atomAdd false, .atomMin false, .atomMax false, .atomAnd false, .atomOr false, .atomXor false,
        .atomExch false, .atomCas false, .atomFadd, .redAdd false, .redMin false, .redMax false, .redAnd false, .redOr false,
        .redXor false, .redFadd, .atomAdd true, .atomMin true, .atomMax true, .atomAnd true, .atomOr true, .atomXor true,
        .atomExch true, .atomCas true, .redAdd true, .redMin true, .redMax true, .redAnd true, .redOr true, .redXor true]) = true := by
  decide +kernel
theorem test_decode_barrier_matrix :
    (inOrder 0x140 [.binit, .arrive, .expect, .waitph, .btest, .binv, .rkacq, .rkrel]
      && inOrder 0x160 [.mma .sb4, .mma .e4m3, .mma .e5m2, .mma .bf16, .mma .f16, .mma .i8, .mma .e4e5, .mma .e5e4, .mmaz .sb4,
        .mmaz .e4m3, .mmaz .e5m2, .mmaz .bf16, .mmaz .f16, .mmaz .i8, .mmaz .e4e5, .mmaz .e5e4, .accmvRd, .accmvWr, .mmaw]) = true := by
  decide +kernel
theorem test_decode_window_system :
    (inOrder 0x180 [.spawn, .spawnFld, .fetchw, .emitr, .winf, .kick, .qstat] && inOrder 0x188 [.park, .die, .repack]
      && inOrder 0x1C0 [.segld, .mfsr, .mtsr, .tlbinvPg, .tlbinvCtx, .tlbinvAll, .rft, .halt, .ctxsvFill, .wake]
      && inOrder 0x1CB [.qcbld, .qcbst, .mbxrd, .dump]) = true := by decide +kernel
/-- The engine functions by R78's codes in MOD, as `ENG` and `ENG.R` (R77); `CTXSV` and `PTLD` by their modes (R398, R400). -/
theorem test_decode_functions :
    ([false, true].all (fun r =>
      [((0x01 : Nat), Instr.cpyGo r), (0x02, .cpySt r), (0x03, .cpyAbt r), (0x08, .gthGo r), (0x09, .gthSt r), (0x0A, .gthAbt r),
       (0x10, .rowProm r), (0x11, .rowDem r), (0x12, .rowPin r), (0x13, .rowUnpin r), (0x14, .rowCopy r), (0x15, .rowInit r),
       (0x20, .winWmark r), (0x21, .winFlush r), (0x30, .lnkArr r), (0x31, .lnkMsg r)].all (fun c =>
        decodesTo (wordW + 0x1A0 + r.toNat + c.1 * 2 ^ 54) (c.2 { xW with mod := BitVec.ofNat 10 c.1 })))
      && decodesTo (wordW + 0x1C8 + 1 * 2 ^ 54) (.ctxsvSwap { xW with mod := 1 })
      && decodesTo (wordW + 0x1C8 + 2 * 2 ^ 54) (.ctxsvEvict { xW with mod := 2 })
      && decodesTo (wordW + 0x1CA) (.ptldLk xW) && decodesTo (wordW + 0x1CA + 16 * 2 ^ 54) (.ptldUn { xW with mod := 16 })) = true := by decide +kernel
/-- The prefixes (R71); a reserved operand, an engine function of no row and unassigned opcodes (R61, R78, R81). -/
theorem test_decode_prefix :
    (decodesTo (0xABCD * 2 ^ 64 + 0x1E0) (.pfxW 0xABCD) && decodesTo (0xABCD * 2 ^ 64 + 0x1E1) (.pfxL 0xABCD)
      && decodesTo (0xABCD * 2 ^ 64 + 0x1E2) (.pfxLHi 0xABCD)
      && [0x01F, 0x020, 0x03F, 0x058, 0x05F, 0x065, 0x067, 0x070, 0x07F, 0x0A6, 0x0AF, 0x0B7, 0x0BF, 0x0E9, 0x0F3, 0x0FF, 0x107, 0x10D,
          0x11F, 0x13E, 0x148, 0x15F, 0x173, 0x187, 0x18B, 0x19F, 0x1A2, 0x1BF, 0x1CF, 0x1DF, 0x1E3, 0x1F0, 0x1FF].all (fun op =>
        decodesTo (wordW + op) (.unassignedOpcode (BitVec.ofNat 9 op)))) = true := by decide +kernel
theorem test_decode_refusals :
    (match decode (wordW + 1 + 0x180 * 2 ^ 13) with | .error .reservedOperand => true | _ => false) = true
      ∧ (match decode (wordW + 0x1A1) with | .error .engineFunction => true | _ => false) = true
      ∧ (match decode (2 ^ 13 + 0x1E1) with | .error .prefixBits => true | _ => false) = true := by decide +kernel

/-! ## States for the statements -/

/-- A group of width 16 on core 0, slot 0, in firmware's address space: lane l holds 10·l in v2 and, through v3, l; s4 holds 9;
p3 is true in lanes 2, 3, 7 and 11; its S window is 4 KiB at scratch address 0. -/
def tg : Group :=
  { (default : Group) with
    uid := 1, lh := 5, priv := true, quads := true, width := 16, vregs := 64, st := .ready, pc := 0x10000, entry := 0x10000
    em := 0xFFFF, live := 0xFFFF, sub := BitVec.allOnes 64, vc := [(1, 1)], p := [(3, 0x88C)], s := [(4, 9)]
    v := (((List.range 15).map (fun l => (64 * 2 + l + 1, BitVec.ofNat 32 (10 * (l + 1)))))
      ++ (List.range 15).map (fun l => (64 * 3 + l + 1, BitVec.ofNat 32 (l + 1))))
    segS := ⟨[0], 0x10000, 0, 0x1000⟩, winS := ⟨[0], 0x10000, 0, 0x1000⟩, segN := ⟨[0], 0x10000, 0, 0x1000⟩
    winN := ⟨[0], 0x10000, 0, 0x1000⟩ }

/-- A running device with a list of groups, the first about to execute. -/
def withGroups (gs : List Group) : State :=
  { State.reset with mode := .running, groups := gs, cur := ((gs.headD default).core, (gs.headD default).slot), nextId := 9 }

def ts : State := withGroups [tg]

/-- The operand word with a destination and three sources, every lane active. -/
def w3 (mod : BitVec 10) (d a b c : Opd) : InsWord := ⟨0, mod, c, b, a, false, d, false, 7⟩

/-- Whether an outcome is a next state with a property. -/
def runs (o : Host.Outcome State Fault Refusal) (p : State → Bool) : Bool := match o with | .next t => p t | _ => false

/-- The group of slot 0 of core 0 after a step. -/
def g0 (t : State) : Group := (groupAt t 0 0).getD default

/-- IntegerArithmetic, LogicAndShifts, CountsAndFields, SelectAddressMove, IntegerCompare, ScalarFloat, Conversions, PackedAndDot,
SpecialFunctions, ShuffleAndMatch, Votes, ReduceAndScan, CompactExpandCross, MasksAndPredicates, HintsAndYield, Transfers,
ExitAndBreakpoint, Requests, EngineCommands: their common hypotheses. -/
theorem test_hyp_group : curGroup ts = some tg ∧ tg.ok = true ∧ groupAt ts tg.core tg.slot = some tg ∧ ts.ok = true
    ∧ active tg xAdd ≠ [] ∧ tg.core = ts.cur.1 ∧ tg.slot = ts.cur.2 ∧ modF (w3 0x14 .zero .zero .zero .zero) 4 2 = 5
    ∧ nfmtOfCode (modF (w3 0 .zero .zero .zero .zero) 8 5) = some .f32 := by decide +kernel
theorem test_hyp_tidy : ts.tidy := by
  refine ⟨fun g h => ?_, fun c h m e => ?_, fun l h => ?_⟩
  · obtain rfl := List.mem_singleton.mp h; decide +kernel
  · obtain rfl := List.mem_singleton.mp h; cases e
  · cases h

/-! ## Results the spec gives -/

/-- One lane's result of an instruction on two or three literal-free values: v1, v5 and v6 of lane 0 hold them. -/
def on3 (i : InsWord → Instr) (mod : BitVec 10) (a b c : Nat) : Nat :=
  match exec (i (w3 mod (.v 8) (.v 1) (.v 5) (.v 6))) (withGroups [wrV (wrV (wrV tg 1 0 a) 5 0 b) 6 0 c]) with
  | .next t => rdV (g0 t) 8 0
  | _ => 0

/-- The table of integer edges after R113 and the examples of R105 and R123. -/
theorem test_integer_edges :
    on3 (.iadd false) 0 0x7FFFFFFF 1 0 = 0x80000000 ∧ on3 (.iadd false) 2 0x7FFFFFFF 1 0 = 0x7FFFFFFF
      ∧ on3 (.iadd false) 3 0xFFFFFFF0 0x20 0 = 0xFFFFFFFF ∧ on3 (.imulh false) 0 0xFFFFFFFE 3 0 = 0xFFFFFFFF
      ∧ on3 (.imulh false) 1 0xFFFFFFFE 3 0 = 2 ∧ on3 (.idiv false) 0 7 0 0 = 0xFFFFFFFF ∧ on3 (.irem false) 0 7 0 0 = 7
      ∧ on3 (.idiv false) 0 0xFFFFFFF9 2 0 = 0xFFFFFFFD ∧ on3 (.irem false) 0 0xFFFFFFF9 2 0 = 0xFFFFFFFF
      ∧ on3 (.sar false) 0 0x80000000 40 0 = 0xFFFFFFFF ∧ on3 (.fsh false) 0 0x12345678 0xABCDEF01 8 = 0x01123456
      ∧ on3 (.bfe false) 0 0x00000F00 0x0408 0 = 0xFFFFFFFF ∧ on3 (.bfe false) 1 0x00000F00 0x0408 0 = 0x0000000F
      ∧ on3 (.bfn3 false) (0xE8 * 4) 0x0000FFFF 0x00FF00FF 0x0F0F0F0F = 0x000F0FFF ∧ on3 (.clz false) 0 0 0 0 = 32
      ∧ on3 (.dot4 false) 0 0xFC03FE01 0x08070605 100 = 82 := by decide +kernel

/-- Grades compared (after R131): both grades of `EXP2` 0.5 and `RCP` 3, `TANH` 10, `RCP` and `SQRT` of 2^−140. -/
theorem test_special_grades :
    on3 (.exp2 false) 0 0x3F000000 0 0 = 0x3FB504F2 ∧ on3 (.exp2 true) 0 0x3F000000 0 0 = 0x3FB504F3
      ∧ on3 (.rcp false) 0 0x40400000 0 0 = 0x3EAAAAAA ∧ on3 (.rcp true) 0 0x40400000 0 0 = 0x3EAAAAAB
      ∧ on3 (.log2 true) 0 0x41000000 0 0 = 0x40400000 ∧ on3 (.sqrt false) 0 0x200 0 0 = 0 ∧ on3 (.rcp true) 0 0x200 0 0 = 0x7F800000 := by
  decide +kernel

/-- Floats by hand from R116, R118 and R27: 1.5·2 + 0.25, an overflow under SAT, opposite infinities, an unordered comparison. -/
theorem test_float :
    on3 (.ffma .f32) 0 0x3FC00000 0x40000000 0x3E800000 = 0x40500000 ∧ on3 (.fmul .f32) 0x10 0x7F7FFFFF 0x40000000 0 = 0x7F7FFFFF
      ∧ on3 (.fadd .f32) 0 0x7F800000 0xFF800000 0 = 0x7FC00000 ∧ on3 (.fset .f32) 1 0x7FC00000 0x3F800000 0 = 0x3F800000
      ∧ on3 (.cvt .i32) 0 0x40600000 0 0 = 4 := by decide +kernel

/-- A segmented shift (after R140), narrowed to width 16: lanes 0 and 8 keep their own value and clear p1. -/
theorem test_shuffle : runs (exec (.shflLo false (w3 0x00B (.v 6) (.v 2) (.imm 1) .zero)) ts) (fun t =>
    rdV (g0 t) 6 0 = 0 && rdV (g0 t) 6 8 = 80 && rdV (g0 t) 6 9 = 80 && rdV (g0 t) 6 15 = 140 && !rdP (g0 t) 1 8 && rdP (g0 t) 1 9) = true := by
  decide +kernel
/-- A compress and its expand (after R149). -/
theorem test_compress : runs (exec (.cmpr (w3 (3 * 64 + 9) (.v 4) (.v 2) .zero .zero)) ts) (fun t =>
    rdV (g0 t) 4 0 = 20 && rdV (g0 t) 4 3 = 110 && rdV (g0 t) 4 4 = 0 && rdS (g0 t) 9 = 4
      && runs (exec (.expd (w3 (3 * 64) (.v 5) (.v 4) .zero .zero)) t) (fun u =>
        rdV (g0 u) 5 11 = 110 && rdV (g0 u) 5 4 = 0)) = true := by decide +kernel
/-- The width-16 `fadd` of 2^24, 1 and 1 (after R50). -/
theorem test_fadd_tree : runs (exec (.reduxFadd (w3 0x70 (.s 9) (.v 9) .zero .zero))
    (withGroups [{ wrV (wrV (wrV tg 9 0 0x4B800000) 9 1 0x3F800000) 9 2 0x3F800000 with em := 7 }])) (fun t => rdS (g0 t) 9 = 0x4B800000) = true := by
  decide +kernel
/-- Votes of R142 and masks of R150 and R169 by hand: p3 holds in lanes 2, 3, 7, 11. -/
theorem test_masks : runs (exec (.voteMask (w3 3 (.s 9) .zero .zero .zero)) ts) (fun t => rdS (g0 t) 9 = 0x88C) = true
    ∧ runs (exec (.emwr (w3 (2 + 4 * 3) .zero .zero .zero .zero)) ts) (fun t => (g0 t).em = 0x88C) = true
    ∧ runs (exec (.laneid (w3 3 (.v 9) .zero .zero .zero)) ts) (fun t => rdV (g0 t) 9 14 = 0x8000) = true := by decide +kernel

/-! ## Control and memory -/

/-- One lane of the group, the scratch offset in v1 and data in v5. -/
def tl : Group := { wrV (wrV tg 1 0 0x20) 5 0 0x89ABCDEF with em := 1 }
/-- The device with that group, eight bytes at scratch address 0x20 and a page of virtual addresses 0x10000 to 0x1FFFF. -/
def tm : State :=
  { withGroups [tl] with
    scr := memPut [] 0x20 (leBytes 8 0xFEDCBA9876543281), mem := memPut [] 0x10040 (leBytes 8 0x1122334455667788)
    tlb := [⟨0, 0, 0x10000, 0, 0x10063, []⟩] }
/-- A scratch access at v1, and a device memory access at s8:s9. -/
def xS (d c : Opd) : InsWord := w3 1 d (.v 1) .zero c
def xG (d c : Opd) : InsWord := { w3 0 d (.s 8) .zero c with opb := .imm 0x40 }
def tv : Group := { wrS tl 8 0x10000 with em := 1 }

/-- Loads, Stores and Atomics: one lane at a scratch location of every size up to 16 bytes, and one in device memory. -/
theorem test_hyp_access : curGroup tm = some tl ∧ tl.ok = true ∧ tm.ok = true ∧ (∀ p ∈ tl.loads, p.blocking = false)
    ∧ active tl (xS (.v 6) .zero) = [0] ∧ outstanding tm tl false = false ∧ awayScr tm tl 0x20 = none := by decide +kernel
theorem test_hyp_lane_scr : ∀ z ∈ [1, 2, 4, 8, 16], LaneReady tm tl (xS (.v 6) .zero) (offOf tl (xS (.v 6) .zero)) z (.ld z) false 0 (.scr 0x20)
    ∧ (Loc.scr 0x20).aligned z = true ∧ raceAt tm tl 0x20 z = none := by
  have h : ∀ z ∈ [1, 2, 4, 8, 16], headerCheck (xS (.v 6) .zero) false (offOf tl (xS (.v 6) .zero) 0)
      (placeIn tl (modF (xS (.v 6) .zero) 2 0) (offOf tl (xS (.v 6) .zero) 0) z 0) = .scr 0x20 ∧ 0x20 % z = 0
      ∧ isLocal (.scr 0x20) = true ∧ integrityBad tm false z (.scr 0x20) = false
      ∧ (Loc.scr 0x20).aligned z = true ∧ raceAt tm tl 0x20 z = none := by decide +kernel
  intro z hz
  obtain ⟨a, b, c, d, e, f⟩ := h z hz
  exact ⟨⟨by rw [a]; exact ⟨b, rfl⟩, c, d⟩, e, f⟩
theorem test_hyp_lane_dram : LaneReady { tm with groups := [tv] } tv (xG (.v 6) (.v 5)) (offOf tv (xG (.v 6) (.v 5))) 4 (.st 4) true 0
    (.dram 0x10040 0 false) := by
  have h : headerCheck (xG (.v 6) (.v 5)) true (offOf tv (xG (.v 6) (.v 5)) 0)
      (placeIn tv (modF (xG (.v 6) (.v 5)) 2 0) (offOf tv (xG (.v 6) (.v 5)) 0) 4 0) = .va 0x10040 ∧ 0x10040 % 4 = 0
      ∧ (match resolve { tm with groups := [tv] } (gBuf tv) tv.ctx 0x10040 (.st 4) with
         | .ok r => decide (r = ((⟨0, 0, 0x10000, 0, 0x10063, []⟩ : TlbEnt), Loc.dram 0x10040 0 false)) | .error _ => false) = true
      ∧ tv.iss.reader = false ∧ isLocal (.dram 0x10040 0 false) = true
      ∧ integrityBad { tm with groups := [tv] } true 4 (.dram 0x10040 0 false) = false := by decide +kernel
  obtain ⟨a, b, c, d, e, f⟩ := h
  split at c
  · rename_i r hr
    rw [of_decide_eq_true c] at hr
    exact ⟨by rw [a]; exact ⟨b, _, hr, fun q => absurd (d.symm.trans q) (by decide)⟩, e, f⟩
  · cases c
theorem test_load : runs (exec (.ld .i8 (xS (.v 6) .zero)) tm) (fun t => rdV (g0 t) 6 0 = 0xFFFFFF81 && (g0 t).pc = 0x10001) = true
    ∧ runs (exec (.ld .b64 (xG (.v 6) .zero)) { tm with groups := [tv] }) (fun t =>
        rdV (g0 t) 6 0 = 0x55667788 && rdV (g0 t) 7 0 = 0x11223344) = true
    ∧ runs (exec (.ldAcq .b16 (xS (.v 6) .zero)) tm) (fun t => rdV (g0 t) 6 0 = 0x3281) = true
    ∧ runs (exec (.ldc .b32 (xG (.s 6) .zero)) { tm with groups := [tv] }) (fun t => rdS (g0 t) 6 = 0x55667788) = true := by decide +kernel
theorem test_store : runs (exec (.st .b16 (xS .zero (.v 5))) tm) (fun t => memVal t.scr 0x20 8 = 0xFEDCBA987654CDEF) = true
    ∧ runs (exec (.stRel .b32 (xG .zero (.v 5))) { tm with groups := [tv] }) (fun t =>
        dramVal t 0x10040 8 = 0x1122334489ABCDEF && (g0 t).vc = [(1, 2)]) = true := by decide +kernel
/-- Two lanes at one location (R221): 5, then 6, each on what the other left; `CAS` of the value found. -/
theorem test_atomics : runs (exec (.atomAdd false (w3 1 (.v 6) (.imm 0x20) .zero (.v 3)))
      { tm with groups := [{ tg with em := 0x60 }], scr := memPut [] 0x20 (leBytes 4 100) }) (fun t =>
        rdV (g0 t) 6 5 = 100 && rdV (g0 t) 6 6 = 105 && memVal t.scr 0x20 4 = 111) = true
    ∧ runs (exec (.atomCas false (w3 1 (.v 6) (.v 1) .zero (.v 10)))
      { tm with groups := [wrV (wrV tl 10 0 0x76543281) 11 0 7] }) (fun t =>
        rdV (g0 t) 6 0 = 0x76543281 && memVal t.scr 0x20 4 = 7) = true := by decide +kernel
/-- The largest offset a scratch access may have, and one past it, which switches the lane off (R195). -/
theorem test_scratch_limit :
    runs (exec (.ld .b32 (xS (.v 6) .zero)) { tm with groups := [wrV tl 1 0 0xFFC] }) (fun t => (g0 t).live = 0xFFFF) = true
    ∧ runs (exec (.ld .b32 (xS (.v 6) .zero)) { tm with groups := [wrV tl 1 0 0xFFD] }) (fun t =>
        (g0 t).live = 0xFFFE && (g0 t).lfault = 1) = true := by decide +kernel
/-- Fences: with nothing outstanding, and with a posted store of the group in flight. -/
def tpost : Posted := ⟨3, 0, 0, 1, 0, 0, false, false, 0x100, [1], 0x10000, 0x100, false, 0⟩
theorem test_hyp_fence : outstanding tm tl (decide (modF (w3 0x18 .zero .zero .zero .zero) 4 3 = 3)) = false ∧ SMap.wf 0 tl.vc = true
    ∧ outstanding { tm with posted := [tpost] } tl true = true
    ∧ runs (exec (.fence (w3 0x10 .zero .zero .zero .zero)) tm) (fun t => (g0 t).fences.map (fun f => f.1) = [2]) = true
    ∧ runs (exec (.fence (w3 0x18 .zero .zero .zero .zero)) { tm with posted := [tpost] }) (fun t => (g0 t).st = .stalled) = true
    ∧ runs (exec (.fenceX (w3 (8 * 0x41) .zero .zero .zero .zero)) { tm with ibuf := [⟨0, 0, 0x10000, 0⟩, ⟨1, 0, 0x10000, 0⟩] }) (fun t =>
        t.ibuf = [⟨1, 0, 0x10000, 0⟩]) = true := by decide +kernel

/-! ## Shaped pages, tables, barriers, racks and matrices -/

/-- Page tables from address 0 that map the page at 0x10000 to itself. -/
def tables : Memory :=
  memPut (memPut (memPut (memPut [] 0 (leBytes 8 0x2001)) 0x2000 (leBytes 8 0x4001)) 0x4000 (leBytes 8 0x6001)) 0x6008 (leBytes 8 0x10063)
/-- A shaped page at 0x20000 with cuffs from 0x10000 and bands from 0x18000, rows of 64; one block of codes
`0x6CF01237` with the cuff 0x0680, its band 2.0; the worked inputs of R41's selection in v16 to v23 of lane 0. -/
def tq : Group :=
  (([0x40E00000, 0x40600000, 0x40000000, 0x3F800000, 0, 0xBF800000, 0xC0800000, 0x40C00000] : List Nat).zipIdx).foldl
    (fun g p => wrV g (16 + p.2) 0 p.1) (wrS { tg with em := 1, vc := [(1, 1)] } 8 0x20000)
def tshape : State :=
  { withGroups [tq] with
    mem := memPut (memPut (memPut tables 0x10000 (leBytes 2 0x0680)) 0x18000 (leBytes 2 0x4000)) 0x20000 (leBytes 4 0x6CF01237)
    tlb := [⟨0, 0, 0x20000, 0, BitVec.ofNat 64 (0x73 + 2 * 2 ^ 13), leBytes 8 0x10000 ++ leBytes 8 0x18000 ++ leBytes 2 0x0605 ++ List.replicate 46 0⟩,
      ⟨0, 0, 0x10000, 0, 0x10063, []⟩] }
def xLds (m : BitVec 10) : InsWord := w3 m (.v 8) (.s 8) .zero .zero
def xStq : InsWord := ⟨0x3F800000, 15 * 64, .v 16, .zero, .s 8, false, .s 6, false, 7⟩
/-- ShapedLoads and ShapedStores: the checks go on with lane 0, whose cuff and band are there. -/
def shapedReady (p : Prep) (stq : Bool) (x : InsWord) : Bool := match p with
  | .ended _ => false
  | .go u g ls => ls.map (fun y => y.l) = [0] && g.ok && u.ok && ls.all (fun y => match shapedAcc u (gBuf g) g.ctx y with
    | .error _ => false
    | .ok q => q.l = y.l && y.l < 64 && (match q.cuff, q.band with
      | .ok c, .ok b => c.2 = .dram 0x10000 0 false && b.2 = .dram 0x18000 0 false
          && (unitBytes u c.2 q.cuffVa 2).isOk && (unitBytes u b.2 q.bandVa 2).isOk && (!stq || (stqBlock g x y.l).isSome)
      | _, _ => false))
theorem test_hyp_shaped : curGroup tshape = some tq ∧ tq.ok = true
    ∧ shapedReady (prepare tshape tq (xLds 0x40) (active tq (xLds 0x40)) (offOf tq (xLds 0x40)) 2 2 (.lds true) false) false (xLds 0x40) = true
    ∧ shapedReady (prepare tshape tq (xLds 0) (active tq (xLds 0)) (offOf tq (xLds 0)) 4 4 (.lds false) false) false (xLds 0) = true
    ∧ (let g := wrS tq 6 0x3F800000
       shapedReady (prepare { tshape with groups := [g] } g xStq (active g xStq) (memOff g xStq (modF xStq 5 4) false) 4 4 .stq true) true xStq)
        = true := by decide +kernel
/-- Codes and cuff as stored; elements 0 and 1 are 7·1·2 = 14 and 3·1·2 = 6 (R40). The block of the worked selection (R41). -/
theorem test_shaped : runs (exec (.lds (xLds 0)) tshape) (fun t => rdV (g0 t) 8 0 = 0x6CF01237 && rdV (g0 t) 9 0 = 0x0680) = true
    ∧ runs (exec (.lds (xLds 0x80)) tshape) (fun t => rdV (g0 t) 8 0 = 0x40C04160) = true
    ∧ runs (exec (.stq xStq) { tshape with groups := [wrS tq 6 0x3F800000], mem := tables }) (fun t =>
        dramVal t 0x20000 4 = 0x6CF01237 && dramVal t 0x10000 2 = 0x0680) = true := by decide +kernel

/-- A group of width 32 whose lane l names the scratch row 32·l, and scratch bytes by position. -/
def tw : Group :=
  { tg with width := 32, em := 0xFFFFFFFF, live := 0xFFFFFFFF
            v := (List.range 31).map (fun l => (64 + l + 1, BitVec.ofNat 32 (32 * (l + 1)))) }
def ttile : State := { withGroups [tw] with scr := memPut (memPut (memPut (memPut [] 9 [7]) 132 [1, 2, 3, 4]) 258 [5, 6]) 290 [8, 9] }
theorem test_hyp_tile : curGroup ttile = some tw ∧ tw.ok = true ∧ ttile.ok = true
    ∧ (∀ l ∈ tileLanes 32 16, placeIn tw 1 (offOf tw (w3 1 (.v 8) (.v 1) .zero .zero) l) 32 l = .scr (32 * l)
        ∧ 32 * l % 32 = 0 ∧ raceAt ttile tw (32 * l) 32 = none)
    ∧ (384 : Nat) + 384 ≤ tw.segS.limit ∧ ttile.ptLock.contains (tw.core * 16 + 2) = false
    ∧ (∀ i ∈ List.range 96, raceAt ttile tw (segAddr tw.segS (4 + 4 * i)) 4 = none) := by decide +kernel
/-- Lane 3 of `LDMT.b16` gets rows 8 and 9 at column 1 (R218); a table copies its 384 bytes (R153). -/
theorem test_tile : runs (exec (.ldmt false (w3 1 (.v 8) (.v 1) .zero .zero)) ttile) (fun t =>
      rdV (g0 t) 8 3 = 0x09080605) = true
    ∧ runs (exec (.xpld (w3 (1 + 8 * 2) .zero (.imm 4) .zero .zero)) ttile) (fun t =>
      SMap.get 0 t.ptab (2 * 384 + 5) = 7 && SMap.get 0 t.ptab (2 * 384 + 384) = 0) = true := by decide +kernel

/-- A valid barrier at scratch address 0x40 in phase 3 that expects 2 arrivals, and a rack at 0x80 of four slots of 64 bytes. -/
def tbar : Barrier := ⟨0, 0, false, false, true, 2, 2, 3⟩
def track : Rack := ⟨0x400, 0x40, 2, 0x200, 0x240, 5, 6⟩
def tbScr : Memory :=
  memPut (memPut (memPut (memPut [] 0x40 (barBytes tbar))
    0x80 ([0x400, 0x40, 0x0102, 0x200, 0x240, 5, 6].flatMap (fun x => leBytes 4 x)))
    0x210 (barBytes { tbar with phase := 2 })) 0x260 (barBytes { tbar with phase := 1 })
def tb : State := { ts with scr := tbScr }
/-- A barrier instruction on an offset of S, with b, c and MOD bits. -/
def xB (m : BitVec 10) (d : Opd) (a : BitVec 8) (b c : Opd) : InsWord := w3 (1 + m) d (.imm a) b c
theorem test_hyp_barrier : curGroup tb = some tg ∧ active tg (xB 0 (.s 9) 0x40 (.imm 1) .zero) ≠ [] ∧ tb.ok = true
    ∧ barAt tb (segAddr tg.segS 0x40) = tbar ∧ 0x40 % 16 = 0 ∧ 0x40 + 16 ≤ tg.segS.limit ∧ outstanding tb tg false = false
    ∧ rackAt tb (segAddr tg.segS 0x20) tg.segS.limit = none := by decide +kernel
theorem test_hyp_rack : rackAt tb 0x80 tg.segS.limit = some track ∧ 0x80 % 32 = 0 ∧ (barAt tb 0x210).valid = true := by decide +kernel
/-- Arrivals at the boundaries of R239: none, all that are pending, one more; the drop of all but one; a byte count (R240). -/
theorem test_barrier :
    runs (exec (.arrive (xB 0 (.s 9) 0x40 (.imm 0) .zero)) tb) (fun t => barAt t 0x40 = tbar && rdS (g0 t) 9 = 3) = true
    ∧ runs (exec (.arrive (xB 0 .zero 0x40 (.imm 2) .zero)) tb) (fun t => barAt t 0x40 = { tbar with phase := 4 }) = true
    ∧ runs (exec (.arrive (xB 0 .zero 0x40 (.imm 3) .zero)) tb) (fun t => barAt t 0x40 = { tbar with phase := 4, ovf := true }) = true
    ∧ runs (exec (.arrive (xB 8 .zero 0x40 (.imm 1) .zero)) tb) (fun t => barAt t 0x40 = { tbar with penda := 1, expa := 1 }) = true
    ∧ runs (exec (.expect (xB 0 .zero 0x40 (.imm 100) .zero)) tb) (fun t => barAt t 0x40 = { tbar with pendb := 100 }) = true
    ∧ runs (exec (.expect (xB 8 .zero 0x40 (.imm 100) .zero)) tb) (fun t => barAt t 0x40 = { tbar with expb := 100 }) = true
    ∧ runs (exec (.waitph (xB 0 .zero 0x40 (.imm 2) .zero)) tb) (fun t => (g0 t).st = .ready) = true
    ∧ runs (exec (.waitph (xB 0 .zero 0x40 (.imm 3) .zero)) tb) (fun t => (g0 t).wait = .phase 0x40 3) = true
    ∧ runs (exec (.btest (xB 8 (.s 9) 0x40 .zero .zero)) tb) (fun t => rdS (g0 t) 9 = 0x20002) = true
    ∧ runs (exec (.binv (xB 0 .zero 0x40 .zero .zero)) tb) (fun t => barAt t 0x40 = { tbar with phase := 4, penda := 0, valid := false }) = true
    ∧ runs (exec (.binit (xB 8 .zero 0x40 (.imm 1) (.imm 7))) tb) (fun t =>
        barAt t 0x40 = ⟨7, 7, true, false, true, 1, 1, 4⟩) = true := by decide +kernel
/-- What the checks refuse, at the edges: the last offset in range and one past it, misaligned, INVALID, a drop of all. -/
theorem test_barrier_checks :
    runs (exec (.binv (xB 0 .zero 0x40 .zero .zero)) { tb with groups := [{ tg with segS := ⟨[0], 0x10000, 0, 0x50⟩ }] }) (fun t =>
      (g0 t).live = 0xFFFF) = true
    ∧ runs (exec (.binv (xB 0 .zero 0x40 .zero .zero)) { tb with groups := [{ tg with segS := ⟨[0], 0x10000, 0, 0x4F⟩ }] }) (fun t =>
      (g0 t).live = 0 && (g0 t).lfault = 0xFFFF && t.scr = tb.scr) = true
    ∧ runs (exec (.binv (xB 0 .zero 0x41 .zero .zero)) tb) (fun t => (ctxOf t 0).any (fun c => c.faults.map (fun f => f.reason) = [7])) = true
    ∧ runs (exec (.arrive (xB 0 .zero 0x20 .zero .zero)) tb) (fun t => (ctxOf t 0).any (fun c => c.faults.map (fun f => f.reason) = [2])) = true
    ∧ runs (exec (.arrive (xB 8 .zero 0x40 (.imm 2) .zero)) tb) (fun t => (ctxOf t 0).any (fun c => c.line)) = true
    ∧ runs (exec (.binit (xB 0 .zero 0x40 .zero .zero)) tb) (fun t => (ctxOf t 0).any (fun c => c.line)) = true := by decide +kernel
/-- HEAD 5 is slot 1 in round 1 and waits for phase 2 of its full barrier; TAIL 6 is slot 2 in round 1 and waits for phase 1. -/
theorem test_rack :
    runs (exec (.rkacq (w3 1 (.s 9) (.lit) .zero .zero |> fun x => { x with lit := 0x80 })) tb) (fun t =>
      rdS (g0 t) 9 = 0x440 && memVal t.scr (0x80 + 20) 4 = 6) = true
    ∧ runs (exec (.rkacq (w3 9 (.s 9) (.lit) .zero .zero |> fun x => { x with lit := 0x80 })) tb) (fun t =>
      rdS (g0 t) 9 = 0x480 && memVal t.scr (0x80 + 24) 4 = 7) = true
    ∧ runs (exec (.rkrel (w3 1 .zero .lit (.s 10) .zero |> fun x => { x with lit := 0x80 })) { tb with groups := [wrS tg 10 0x440] }) (fun t =>
      (barAt t 0x210).penda = 1) = true := by decide +kernel
/-- A group that waits on the barrier goes on when its phase completes, and not before (R241). -/
def twait : Group := { tg with st := .waiting, wait := .phase 0x40 3 }
theorem test_hyp_waiters : ctxRuns { tb with groups := [twait] } twait.ctx = true ∧ (∀ j ∈ tb.jobs, j.wait = none) ∧ twait.live ≠ 0
    ∧ (g0 (barEvent { tb with groups := [twait] } 0x40 (fun _ => { tbar with penda := 0 }))).st = .ready
    ∧ (g0 (barEvent { tb with groups := [twait] } 0x40 (fun _ => { tbar with penda := 1 }))) = twait := by decide +kernel

/-! ## Matrices, launches, queues and units -/

/-- Member q of a quad, waiting with an instruction: 3 in A's element (0, 0), 5 in B's column 0 of member 0. -/
def tquad (i : Instr) (q : Nat) : Group :=
  { wrV (wrV tw 16 0 3) 24 0 5 with
    uid := q + 1, slot := q, teamId := 7, index := BitVec.ofNat 32 q, st := .waiting, wait := .quad i }
def xMma : InsWord := w3 0 (.v 32) (.v 16) (.v 24) .zero
/-- Four members with one instruction, and with member 2's own. -/
def tquads (i : Nat → Instr) : State :=
  { withGroups ((List.range 4).map (fun q => tquad (i q) q)) with arg := { team := 7, quad := 0 } }
def sameMma (_ : Nat) : Instr := .mma .i8 xMma
def oddMma (q : Nat) : Instr := if q = 2 then .mmaz .i8 xMma else .mma .i8 xMma
theorem test_hyp_quad : (List.range 4).all (fun q =>
      quadMember (tquads sameMma) 7 0 q = some (tquad (sameMma q) q) && groupAt (tquads sameMma) 0 q = some (tquad (sameMma q) q)
      && (tquad (sameMma q) q).live ≠ 0 && badCuff (tquad (sameMma q) q) (sameMma q) = none
      && (matQueued (tquads sameMma) 0 (q / 17)).length < 4 && quadMember (tquads oddMma) 7 0 q = some (tquad (oddMma q) q)) = true
    ∧ ctxRuns (tquads sameMma) 0 = true ∧ matKey (oddMma 2) ≠ matKey (oddMma 3) := by decide +kernel
theorem test_quad :
    runs (exec (.mma .i8 xMma) (withGroups [tw])) (fun t => (g0 t).wait = .quad (.mma .i8 xMma)) = true
    ∧ runs (exec .quadRendezvous (tquads sameMma)) (fun t => t.arrays.length = 4 && (g0 t).pc = 0x10001 && (g0 t).mseq = 1) = true
    ∧ runs (exec .quadRendezvous (tquads oddMma)) (fun t => t.arrays = [] && (ctxOf t 0).any (fun c =>
        c.faults.map (fun f => (f.reason, f.slot)) = [(9, 2)])) = true := by decide +kernel
/-- One operation queued, then begun: D(0, 0) := 100 + 3·5 (R317). -/
def top (b : Bool) : MatOp :=
  ⟨0, 0, 1, .mma .i8 xMma, 0xFFFFFFFF, b, fragOf (tquad (sameMma 0) 0) 16 8, (List.range 4).map (fun q => fragOf (tquad (sameMma q) q) 24 2), []⟩
def tarr (b : Bool) : State := { withGroups [wrV tw 32 0 100] with arrays := [top b] }
theorem test_hyp_array : matQueued (tarr false) 0 0 = [top false] ∧ (matBegun (tarr false) 0 0).length < 6 ∧ matBegun (tarr true) 0 0 = [top true]
    ∧ groupAt (tarr true) 0 0 = some (wrV tw 32 0 100) ∧ (wrV tw 32 0 100).ok = true ∧ (matParts (top true).x).isSome = true := by
  decide +kernel
theorem test_array : runs (exec .mmaBegin (tarr false)) (fun t => t.arrays = [top true]) = true
    ∧ runs (exec .mmaComplete (tarr true)) (fun t => rdV (g0 t) 32 0 = 115 && rdV (g0 t) 33 0 = 0 && t.arrays = []) = true := by decide +kernel
/-- `MMAW` at and below the count of operations; a row of `ACCMV` for one lane (R321, R322). -/
theorem test_matrix_moves :
    runs (exec (.mmaw (w3 0 (.s 9) (.imm 1) .zero .zero)) (tarr false)) (fun t => (g0 t).pc = 0x10001) = true
    ∧ runs (exec (.mmaw (w3 0 (.s 9) .zero .zero .zero)) (tarr false)) (fun t => (g0 t).st = .stalled) = true
    ∧ runs (exec (.accmvRd (w3 1 (.v 32) .zero (.lit) .zero |> fun x => { x with lit := 128 })) { ttile with groups := [{ tw with em := 2 }] })
        (fun t => rdV (g0 t) 33 1 = 0x04030201 && rdV (g0 t) 33 0 = 0) = true
    ∧ runs (exec (.accmvWr (w3 1 .zero .zero (.lit) (.v 0) |> fun x => { x with lit := 128 })) { withGroups [{ tw with em := 2 }] with scr := [] })
        (fun t => memVal t.scr 132 4 = 32) = true := by decide +kernel
theorem test_hyp_accmv : (0 : Nat) % 16 = 0 ∧ 128 % 16 = 0 ∧ (∀ l ∈ [0, 31], l % 32 * 128 + 4 * (l / 32 * 32) + 4 * 32 ≤ tw.segS.limit)
    ∧ 4096 / tw.width = 4 * (1024 / tw.width) ∧ raceAt ttile tw 132 4 = none := by decide +kernel

/-- Partition 0 has field 0, four queues at 0x18000: queue 0 mapped by slot 3, queue 1 saved in its QCB; both of 16 packets. -/
def tqu : State :=
  let s := { withGroups [{ wrS (wrS tg 8 0x18100) 9 0 with em := 1 }] with
             mem := memPut (memPut (memPut tables 0x18000 (leBytes 8 0x10000)) 0x18008 (leBytes 4 0x0304))
               0x18100 (leBytes 8 0x10000 ++ leBytes 8 0x000100FF00000104)
             hwslots := updAt (State.reset.hwslots.map (fun h => { h with owned := true })) 3 (fun h => { h with map := true, qst := 3, qcba := 0x18000, qcbp := 0x18000 })
             parts := updAt State.reset.parts 0 (fun p => { p with fields := [0] }) }
  regPut (regPut s (regPart 0 0xA8) 0x18000) (regPart 0 0xB0) 4
def tgq : Group := { wrS (wrS tg 8 0x18100) 9 0 with em := 1 }
theorem test_hyp_queue_page : (match lookup tqu (gBuf tgq) 0 0x18100 with
    | .ok t => pteKind t.leaf.toNat = 0 && locOf tqu t 0x18100 = .dram 0x18100 0 false && badLines tqu 0x18100 80 = []
        && qcbBroken (touchRows (cacheEnts tqu [t]) 0x18100 80 false 0) 0 0x18100 = none
    | .error _ => false) = true := by decide +kernel
theorem test_hyp_queue : curGroup tqu = some tgq ∧ tqu.ok = true ∧ outstanding tqu tgq false = false ∧ qcount tqu 0 = 4
    ∧ slotOfQueue tqu 0 0 = some 3 ∧ slotOfQueue tqu 0 1 = none ∧ qState tqu 0 0 = 3 ∧ qState tqu 0 1 = 1 ∧ 2 ^ qcbF tqu 0 0 8 1 = 16
    ∧ (regVal tqu (regPart 0 0x88)).getLsbD 63 = false ∧ (slotAt tqu 5).map = false ∧ slotOwned (slotAt tqu 63) 0 = true
    ∧ slotOwned (slotAt tqu 5) 0 = true ∧ 0x18100 = qcbAddr tqu 0 1 := by decide +kernel
/-- The status of kicks of queue 4 (none), of a mapped queue by 1, 16 and 17 packets, and of an unmapped one; `QSTAT`. -/
def kick (q w : BitVec 8) (v : Nat) (p : State → Bool) : Bool :=
  runs (exec (.kick (w3 0 (.s 10) (.imm q) (.imm w) .zero)) tqu) (fun t => rdS (g0 t) 10 = v && p t)
theorem test_kick : kick 4 1 4 (fun t => t.hwslots = tqu.hwslots) = true ∧ kick 0 1 0 (fun t => (slotAt t 3).widx = 1 && (slotAt t 3).qst = 4) = true
    ∧ kick 0 16 0 (fun t => (slotAt t 3).widx = 16) = true ∧ kick 0 17 5 (fun t => (slotAt t 3).qst = 5) = true
    ∧ kick 1 1 2 (fun t => qWidx t 0 1 = 1 && qcbF t 0 1 9 1 = 2 && pendBit t 0 1) = true
    ∧ runs (exec (.qstat (w3 0 (.s 10) (.imm 0) .zero .zero)) tqu) (fun t => rdS (g0 t) 10 = 0x303) = true := by decide +kernel
theorem test_mapping :
    runs (exec (.qcbld (w3 0 (.s 10) (.s 8) (.imm 64) .zero)) tqu) (fun t => rdS (g0 t) 10 = 1) = true
    ∧ runs (exec (.qcbld (w3 0 (.s 10) (.s 8) (.imm 63) .zero)) tqu) (fun t => rdS (g0 t) 10 = 0 && (slotAt t 63).map && (slotAt t 63).qnum = 1
        && qcbF t 0 1 12 1 = 63) = true
    ∧ runs (exec (.qcbst (w3 0 (.s 10) (.imm 3) .zero .zero)) tqu) (fun t => rdS (g0 t) 10 = 0 && !(slotAt t 3).map && qcbF t 0 0 12 1 = 0xFF
        && qcbF t 0 0 9 1 = 1) = true
    ∧ runs (exec (.qcbst (w3 0 (.s 10) (.imm 64) .zero .zero)) tqu) (fun t => rdS (g0 t) 10 = 3) = true
    ∧ runs (exec (.qcbst (w3 0 (.s 10) (.imm 4) .zero .zero)) tqu) (fun t => rdS (g0 t) 10 = 2) = true := by decide +kernel

/-- Pawns of two lanes to the own field and to a named one; a fetch request at the edge of its segment. -/
theorem test_hyp_spawn : (ctxOf tqu 0).isSome = true ∧ outstanding tqu tgq false = false ∧ coreField tgq.core = 0
    ∧ storeFill tqu (physField Ctx.firmware 0) + 1 ≤ 65536 ∧ 0 ∈ ctxFields tqu Ctx.firmware ∧ 1 ∉ ctxFields tqu Ctx.firmware := by decide +kernel
theorem test_spawn :
    runs (exec (.spawn (w3 2 .zero .lit (.v 2) .zero)) { tqu with groups := [{ tg with em := 6 }] }) (fun t =>
      t.agenda.map (fun e => e.2.pawn.arg.take 3) = [[10, 1, 0], [20, 2, 0]]) = true
    ∧ runs (exec (.spawnFld (w3 1 .zero .lit (.v 2) (.imm 1))) tqu) (fun t => t.agenda.length = 1) = true
    ∧ runs (exec (.fetchw (w3 1 .zero (.s 8) (.lit) .zero |> fun x => { x with lit := 0xFC0 })) tqu) (fun t =>
        t.fetchws = [⟨0, 0x18100, 0xFC0⟩]) = true
    ∧ runs (exec (.fetchw (w3 1 .zero (.s 8) (.imm 1) .zero)) tqu) (fun t => (ctxOf t 0).any (fun c => c.line)) = true := by decide +kernel

/-- Engine jobs: an accepted one, then its status by its id, and its end before it has run. -/
def eng (i : InsWord → Instr) (mod : BitVec 10) (a b : Opd) (t : State) (p : State → Bool) : Bool :=
  runs (exec (i (w3 mod (.s 12) a b .zero)) t) p
theorem test_hyp_engine : freeEntry tqu 0 0 false = some 0 ∧ freeEntry tqu 0 0 true = some 0 ∧ findJob tqu 0 false 0 = none := by decide +kernel
theorem test_engine : eng (.cpyGo true) 1 (.s 8) .zero tqu (fun t => rdS (g0 t) 12 = 0 && t.jobs.length = 1
      && eng (.cpySt true) 2 .zero .zero t (fun u => rdS (g0 u) 12 = 1)
      && eng (.cpyAbt true) 3 .zero .zero t (fun u => rdS (g0 u) 12 = 1 && u.jobs.map (fun j => j.st) = [.aborted])) = true
    ∧ eng (.gthGo true) 8 (.s 8) .zero tqu (fun t => t.jobs.map (fun j => j.gather) = [true]
      && eng (.gthSt true) 9 .zero (.imm 1) t (fun u => rdS (g0 u) 12 = 256)
      && eng (.gthAbt true) 10 .zero .zero t (fun u => u.jobs.map (fun j => j.st) = [.aborted])) = true := by decide +kernel
/-- Row functions on the row at 0x10000 (R405): the counts 0, 1, 2 and 65 and a misaligned address. -/
def row (a : Nat) (i : InsWord → Instr) (b : BitVec 8) (p : State → Bool) : Bool :=
  runs (exec (i (w3 0 (.s 12) (.s 8) (.imm b) .zero)) { tqu with groups := [wrS { tg with em := 1 } 8 a] }) p
theorem test_hyp_rows : (match rowPlace tqu (gBuf tgq) 0 0x10000 false with | .ok (_, p) => decide (p = some 0x10000) | .error _ => false) = true
    ∧ rowEntry tqu (homeStack 0x10000) = some 0 ∧ rowSlotOf tqu 0 (stackOff 0x10000) = none
    ∧ (victimSlot tqu 0 (stackOff 0x10000) 0).isSome = true ∧ SMap.wf default tqu.rows = true := by decide +kernel
theorem test_rows : row 0x10000 (.rowProm true) 0 (fun t => rdS (g0 t) 12 = 0x80000001) = true
    ∧ row 0x10000 (.rowProm true) 1 (fun t => t.rows.length = 1 && rdS (g0 t) 12 = 0x100) = true
    ∧ row 0x10000 (.rowPin true) 2 (fun t => rdS (g0 t) 12 = 0x100) = true
    ∧ row 0x10000 (.rowPin true) 65 (fun t => rdS (g0 t) 12 = 0x80000001) = true
    ∧ row 0x10001 (.rowDem true) 1 (fun t => rdS (g0 t) 12 = 0x80000001) = true
    ∧ row 0x10000 (.rowUnpin true) 1 (fun t => t.rows = []) = true := by decide +kernel
/-- A row job: 1 KiB from 0x10000 to 0x14000, its descriptor at 0x18200. -/
def tjob (src dst n : Nat) : State :=
  { tqu with groups := [wrS { tg with em := 1 } 8 0x18200]
             mem := memPut tqu.mem 0x18200 (leBytes 8 src ++ leBytes 8 dst ++ leBytes 4 n ++ leBytes 4 0 ++ leBytes 8 0x18300) }
theorem test_row_jobs :
    runs (exec (.rowCopy true (w3 0x14 (.s 12) (.s 8) .zero .zero)) (tjob 0x10000 0x14000 1024)) (fun t =>
      t.rowJobs.map (fun j => (j.src, j.dst, j.len)) = [(0x10000, 0x14000, 1024)] && rdS (g0 t) 12 = 0x100) = true
    ∧ runs (exec (.rowInit true (w3 0x15 (.s 12) (.s 8) (.imm 15) .zero)) (tjob 0 0x14000 64)) (fun t =>
      t.rowJobs.map (fun j => (j.init, j.pat)) = [(true, 15)]) = true := by decide +kernel

/-! ## Links, streams, windows and the system class -/

/-- Port 1 is up and is the route to device 5. -/
def tlnk (a b : Nat) : State :=
  let s := { withGroups [wrS (wrS (wrS { tg with em := 1 } 8 a) 9 (a / 2 ^ 32)) 10 b] with
             mem := memPut tables 0x18000 (leBytes 4 0x00010002), tlb := [⟨0, 0, 0x10000, 0, 0x10063, []⟩]
             ports := updAt State.reset.ports 1 (fun p => { p with st := 2 }) }
  regPut s (routeReg 5) 0x101
def lnk (i : InsWord → Instr) (a b : Nat) (p : State → Bool) : Bool := runs (exec (i (w3 0 (.s 12) (.s 8) (.s 10) .zero)) (tlnk a b)) p
theorem test_hyp_link : routeOf (tlnk 0 0) 5 = some 1 ∧ routeOf (tlnk 0 0) 6 = none ∧ linkRoom (tlnk 0 0) 5 64 = true ∧ ownDev (tlnk 0 0) = 0
    ∧ outstanding (tlnk 0 0) (g0 (tlnk 0 0)) true = false
    ∧ (match agentRead (tlnk 0 0) 0 0 0x18000 64 with | .ok (_, m) => decide (bits (fld m 2 1) 6 3 = 0) && !bit (fld m 2 1) 7 | .error _ => false) = true := by
  decide +kernel
/-- Arrivals with reply 0, 1 (no route) and 2 (a count above 65535, a bit between the device and the offset); messages likewise. -/
theorem test_link : lnk (.lnkArr true) (5 * 2 ^ 41 + 0x40) 65535 (fun t => rdS (g0 t) 12 = 0 && t.xacts.map (fun x => (x.dst, x.kind)) = [(5, 8)]) = true
    ∧ lnk (.lnkArr true) (6 * 2 ^ 41 + 0x40) 1 (fun t => rdS (g0 t) 12 = 1) = true
    ∧ lnk (.lnkArr true) (5 * 2 ^ 41 + 0x40) 65536 (fun t => rdS (g0 t) 12 = 2) = true
    ∧ lnk (.lnkArr true) (5 * 2 ^ 41 + 2 ^ 31) 1 (fun t => rdS (g0 t) 12 = 2) = true
    ∧ lnk (.lnkMsg true) 0x18000 5 (fun t => rdS (g0 t) 12 = 0 && t.xacts.map (fun x => x.kind) = [9]) = true
    ∧ lnk (.lnkMsg true) 0x18000 6 (fun t => rdS (g0 t) 12 = 1) = true
    ∧ lnk (.lnkMsg true) 0x18020 5 (fun t => rdS (g0 t) 12 = 2) = true := by decide +kernel

/-- Stream 5, of time windows, its watermark at 100: its ring at 0x10000 holds a record of time 9, a watermark of 150, a flush
and a record of an unknown kind; its egress ring at 0x10200 has two entries of 16 bytes. -/
def tstr : Stream :=
  { (default : Stream) with lh := 5, wm := 100, ext := leBytes 8 0x10000 ++ leBytes 2 0x0001 ++ List.replicate 86 0 ++ leBytes 8 0x10100 ++ List.replicate 24 0 }
def tsm : State :=
  { withGroups [{ tg with em := 1, s := [(8, 5)] }] with
    streams := [tstr], tlb := [⟨0, 0, 0x10000, 0, 0x10063, []⟩]
    mem := memPut (memPut (memPut (memPut (memPut (memPut (memPut tables 0x10000 (leBytes 8 0x11000 ++ leBytes 8 0x0103 ++ leBytes 4 4)) 0x10100 (leBytes 8 0x10200))
      0x10200 (leBytes 8 0x12000 ++ leBytes 8 0x0001)) 0x11000 (leBytes 16 (5 + 9 * 2 ^ 64))) 0x11020 (leBytes 16 (2 ^ 64 - 1 + 150 * 2 ^ 64)))
      0x11040 (leBytes 8 (2 ^ 64 - 1) ++ leBytes 8 0 ++ [1])) 0x11060 (leBytes 8 (2 ^ 64 - 1) ++ leBytes 8 0 ++ [2]) }
/-- A stream command with the next record to read at an index. -/
def strm (n : Nat) (i : InsWord → Instr) (lo : Nat) (b : BitVec 8) (p : State → Bool) : Bool :=
  runs (exec (i (w3 0 (.s 12) (.s 8) (.imm b) .zero)) { tsm with
    streams := [{ tstr with next := BitVec.ofNat 32 n }], groups := [wrS (wrS { tg with em := 1 } 8 lo) 9 (lo / 2 ^ 32)] }) p
theorem test_hyp_stream : streamOf tsm 5 = some tstr ∧ ctxRuns tsm tstr.ctx = true ∧ outstanding tsm (g0 tsm) true = false
    ∧ (match egressAddr tsm 0 tstr 0 with | .ok (_, cb) => decide (cb = 0x10200) | .error _ => false) = true
    ∧ (match winLoad tsm 0 0 0x10200 64 with | .ok b => decide (ringFree (ringOf b) = 2 ∧ (ringOf b).lowwm = 0) | .error _ => false) = true
    ∧ (List.range 4).all (fun k => match nextRecord tsm { tstr with next := BitVec.ofNat 32 k } with
        | .ok (r, d) => decide (recordStep r d = [Instr.ingressDataRecord, .controlWatermark, .controlFlush, .controlMalformed].getD k .nop)
        | .error _ => false) = true := by decide +kernel
/-- `WIN.WMARK` at the watermark and above it, of another handle and of one past 32 bits; `WIN.FLUSH` of the policies 2 and 3; and
both with records still to be processed, which they wait behind. -/
theorem test_stream_commands : strm 4 (.winWmark true) 5 100 (fun t => rdS (g0 t) 12 = 3) = true
    ∧ strm 4 (.winWmark true) 5 101 (fun t => rdS (g0 t) 12 = 0 && t.streams.map (fun q => q.wm) = [101]) = true
    ∧ strm 4 (.winWmark true) 6 101 (fun t => rdS (g0 t) 12 = 1) = true ∧ strm 4 (.winWmark true) (2 ^ 32) 101 (fun t => rdS (g0 t) 12 = 4) = true
    ∧ strm 4 (.winFlush true) 5 2 (fun t => rdS (g0 t) 12 = 0) = true ∧ strm 4 (.winFlush true) 5 3 (fun t => rdS (g0 t) 12 = 4) = true
    ∧ strm 3 (.winWmark true) 5 101 (fun t => (g0 t).st = .stalled && t.streams.map (fun q => q.cmds) = [[(4, 0, 101, (g0 t).uid)]]) = true
    ∧ strm 3 (.winFlush true) 5 2 (fun t => (g0 t).wait = .stream 5 (some 12) && t.streams.map (fun q => q.flushed) = [false]) = true := by
  decide +kernel
/-- Lane 0 serves a window whose CLOSE pawn is in flight (R367, R368). -/
def twin (kind : Nat) : Win := { (default : Win) with id := 1, close := 500, inflight := some { (default : WPawn) with kind := kind } }
def tpk (kind : Nat) : State :=
  { tsm with streams := [{ tstr with wins := [twin kind] }], groups := [{ tg with em := 1, pk := [(0, 1)] }], launches := [{ (default : Launch) with lh := 5 }] }
theorem test_hyp_window : laneWin (tpk 5) { tg with em := 1, pk := [(0, 1)] } 0 = some (twin 5) ∧ (twin 5).inflight.map (fun p => p.kind) = some 5
    ∧ pcForm 0x10002 = true ∧ active { tg with em := 1, pk := [(0, 1)] } xAdd = [0] := by decide +kernel
theorem test_window_threads :
    runs (exec (.park (w3 0 .zero .zero .zero .zero)) (tpk 3)) (fun t => (g0 t).live = 0xFFFE) = true
    ∧ runs (exec (.die (w3 0 .zero .zero .zero .zero)) (tpk 5)) (fun t => (g0 t).live = 0xFFFE && t.streams.map (fun q => q.wins.length) = [0]) = true
    ∧ runs (exec (.die (w3 0 .zero .zero .zero .zero)) (tpk 4)) (fun t => (ctxOf t 0).any (fun c => c.line)) = true
    ∧ runs (exec (.repack (w3 2 .zero (.v 2) .zero .zero |> fun x => { x with lit := 2 })) { tpk 3 with groups := [{ tg with em := 0x1E }] }) (fun t =>
        t.agenda.map (fun e => e.2.pawn.arg.take 2) = [[10, 1], [20, 2], [30, 3], [40, 4]]) = true
    ∧ runs (exec (.repack (w3 0 .zero (.v 2) .zero .zero)) { tpk 3 with groups := [{ tg with em := 0x3E }] }) (fun t => t.agenda = []) = true
    ∧ runs (exec (.winf (w3 2 (.v 8) .zero .zero .zero)) (tpk 3)) (fun t => rdV (g0 t) 8 0 = 500) = true
    ∧ runs (exec (.emitr (w3 0 .zero (.v 2) .zero .zero)) { tsm with groups := [{ tg with em := 4 }] }) (fun t =>
        dramVal t 0x12000 8 = 20 + 2 * 2 ^ 32 && dramVal t 0x10210 4 = 1) = true := by decide +kernel

/-- Segments, special registers and prefixes (R394, R395, R71). -/
theorem test_segments :
    runs (exec (.segld (w3 1 .zero (.s 8) (.lit) .zero |> fun x => { x with lit := 0x800 })) { ts with groups := [wrS tg 8 0x800] }) (fun t =>
      segAddr (g0 t).segS 4 = 0x804 && (g0 t).segS.limit = 0x800) = true
    ∧ runs (exec (.segld (w3 1 .zero (.s 8) (.lit) .zero |> fun x => { x with lit := 0x801 })) { ts with groups := [wrS tg 8 0x800] }) (fun t =>
      (ctxOf t 0).any (fun c => c.line)) = true
    ∧ runs (exec (.mfsr (w3 1 (.s 9) .zero .zero .zero)) ts) (fun t => rdS (g0 t) 9 = 16) = true
    ∧ runs (exec (.mfsr (w3 0 (.v 9) .zero .zero .zero)) ts) (fun t => rdV (g0 t) 9 15 = 15) = true
    ∧ runs (exec (.mtsr (w3 0x42 .zero (.imm 1) .zero .zero)) ts) (fun t => (partOf t 0).deflim = 1) = true
    ∧ runs (exec (.mtsr (w3 0x42 .zero .zero .zero .zero)) ts) (fun t => (ctxOf t 0).any (fun c => c.line)) = true
    ∧ runs (exec (.pfxL 0x5) ts) (fun t => (g0 t).sub = 0xFFFFFFFF00000005 && (g0 t).pc = 0x10001) = true
    ∧ runs (exec (.pfxLHi 0x5) ts) (fun t => (ctxOf t 0).any (fun c => c.faults.map (fun f => (f.reason, f.detail)) = [(8, 8)])) = true
    ∧ runs (exec (.unassignedOpcode 0x1FF) ts) (fun t => (ctxOf t 0).any (fun c => c.faults.map (fun f => (f.reason, f.detail)) = [(8, 1)])) = true := by
  decide +kernel
/-- A context 3 of partition 0 in a state, beside firmware's. -/
def tc3 (st : CtxState) : Ctx := { Ctx.firmware with id := 3, st := st, inBanks := [CtxState.active, .halted, .faulted].contains st }
def tctx (st : CtxState) : State :=
  { tsm with ctxs := [Ctx.firmware, tc3 st], groups := [wrS tg 8 0x10000], ptLock := [3], tlb := [⟨0, 0, 0x10000, 0, 0x10063, []⟩, ⟨0, 3, 0x10000, 0, 0x10063, []⟩] }
def sys (st : CtxState) (i : InsWord → Instr) (m : BitVec 10) (a b : Opd) (p : State → Bool) : Bool := runs (exec (i (w3 m (.s 12) a b .zero)) (tctx st)) p
theorem test_hyp_context : ctxOf (tctx .active) 3 = some (tc3 .active) ∧ (tc3 .active).id ≠ 0 ∧ (tc3 .active).part = tg.part
    ∧ curGroup (tctx .active) = some (wrS tg 8 0x10000) ∧ ctxOf (tctx .active) 4 = none ∧ (tc3 .active).line = false
    ∧ (tctx .active).ok = true ∧ residentOf (tctx .active) 0 = some (tc3 .active) ∧ (partOf (tctx .active) 0).swap = false
    ∧ groupAt (tctx .active) 0 0 = some (wrS tg 8 0x10000) ∧ outstanding (tctx .active) (wrS tg 8 0x10000) false = false
    ∧ (barAt { tb with scr := memPut [] (mailboxBar 383) (barBytes tbar) } (mailboxBar 383)).valid = true := by decide +kernel
theorem test_contexts :
    sys .halted .rft 0 (.imm 3) .zero (fun t => rdS (g0 t) 12 = 0 && (ctxOf t 3).any (fun c => c.st = .active)) = true
    ∧ sys .active .rft 0 (.imm 3) .zero (fun t => rdS (g0 t) 12 = 1) = true ∧ sys .active .rft 0 (.imm 4) .zero (fun t => rdS (g0 t) 12 = 2) = true
    ∧ sys .active .halt 0 (.imm 3) (.imm 9) (fun t => (ctxOf t 3).any (fun c => c.line && c.lineHalt = some 9) && (g0 t).wait = .halted 3 12) = true
    ∧ sys .shadow .ctxsvSwap 1 (.imm 3) (.imm 0) (fun t => rdS (g0 t) 12 = 0 && (partOf t 0).swap) = true
    ∧ sys .shadow .ctxsvEvict 2 (.imm 3) (.imm 0) (fun t => (ctxOf t 3).any (fun c => c.st = .saved)) = true
    ∧ sys .shadow .ctxsvEvict 2 (.imm 3) (.imm 7) (fun t => rdS (g0 t) 12 = 3) = true
    ∧ sys .active .dump 0 (.imm 3) (.s 8) (fun t => rdS (g0 t) 12 = 1) = true
    ∧ runs (exec (.rft (w3 0 (.s 12) (.imm 3) .zero .zero)) { tctx .saved with ctxs := [Ctx.firmware, { tc3 .saved with hf := true }] }) (fun t =>
        rdS (g0 t) 12 = 0 && (ctxOf t 3).any (fun c => c.st = .saved && !c.hf)) = true := by decide +kernel
theorem test_services :
    sys .active .tlbinvCtx 0 (.imm 3) .zero (fun t => rdS (g0 t) 12 = 0 && t.tlb.map (fun e => e.ctx) = [0]) = true
    ∧ sys .active .tlbinvPg 0 (.imm 3) (.s 8) (fun t => t.tlb.map (fun e => e.ctx) = [0]) = true
    ∧ sys .active .tlbinvPg 0 (.imm 4) (.s 8) (fun t => rdS (g0 t) 12 = 2) = true
    ∧ sys .active .tlbinvAll 0 .zero .zero (fun t => t.tlb = []) = true
    ∧ sys .active .wake 0 (.lit) .zero (fun t => (g0 t).pc = 0x10001) = true
    ∧ runs (exec (.wake (w3 0 (.s 12) .lit .zero .zero |> fun x => { x with lit := 384 })) ts) (fun t => rdS (g0 t) 12 = 3) = true
    ∧ runs (exec (.wake (w3 0 (.s 12) .lit .zero .zero |> fun x => { x with lit := 383 })) { ts with scr := memPut [] (mailboxBar 383) (barBytes tbar) }) (fun t =>
        rdS (g0 t) 12 = 0 && (barAt t (mailboxBar 383)).penda = 1) = true
    ∧ sys .active .mbxrd 0 (.s 16) .zero (fun t => rdS (g0 t) 12 = 1) = true
    ∧ sys .active .ptldLk 5 (.imm 3) (.s 8) (fun t => rdS (g0 t) 12 = 0 && t.ptLock.contains 5 && SMap.get 0 t.ptab (5 * 384 + 1) = 0x10) = true
    ∧ sys .active .ptldUn 19 (.imm 3) .zero (fun t => rdS (g0 t) 12 = 0 && t.ptLock = []) = true
    ∧ sys .shadow .ptldUn 19 (.imm 3) .zero (fun t => rdS (g0 t) 12 = 1) = true := by decide +kernel
/-- A request counts on the mailbox and its group waits; the tailor reads it (R172, R399). -/
def treq : State := { ts with scr := memPut [] (mailboxBar 0) (barBytes { tbar with penda := 1 }) }
theorem test_request : runs (exec (.req (w3 0 (.s 12) (.s 16) (.imm 7) .zero)) { treq with groups := [wrS tg 17 99] }) (fun t =>
      (g0 t).st = .waiting && memVal t.scr (reqAddr 0 0) 8 = 1 + 7 * 2 ^ 32 && memVal t.scr (reqAddr 0 0 + 36) 4 = 99 && (barAt t (mailboxBar 0)).phase = 4) = true
    ∧ runs (exec (.trap ⟨0xBEEF, 0, .zero, .zero, .zero, false, .zero, false, 7⟩) treq) (fun t => memVal t.scr (reqAddr 0 0) 8 = 2 + 0xBEEF * 2 ^ 32) = true := by
  decide +kernel

/-- Branches (R166, R167): one line back with a slot set, not taken, and to a slot in the middle of a line that is no entry. -/
def tbr : State := { ts with ibuf := [⟨0, 0, 0x10000, BitVec.ofNat 512 (1 + 2 ^ 24 * (lineParity 1))⟩] }
theorem test_transfers :
    entryAt tbr 0 0 0 0x10000 = some true ∧ entryAt tbr 0 0 0 0x10001 = some false ∧ entryAt tbr 0 0 0 0x40000 = none
    ∧ runs (exec (.bra (w3 0 .zero .zero .zero .zero)) tbr) (fun t => (g0 t).pc = 0x10000) = true
    ∧ runs (exec (.bra ⟨1, 0, .zero, .zero, .zero, false, .zero, false, 7⟩) tbr) (fun t => (ctxOf t 0).any (fun c => c.faults.map (fun f => f.detail) = [5])) = true
    ∧ runs (exec (.braAll (w3 3 .zero .zero .zero .zero)) tbr) (fun t => (g0 t).pc = 0x10001) = true
    ∧ runs (exec (.braAny (w3 3 .zero .zero .zero .zero)) tbr) (fun t => (g0 t).pc = 0x10000) = true
    ∧ runs (exec (.call (w3 0 (.s 62) .zero .zero .zero)) tbr) (fun t => (g0 t).pc = 0x10000 && rdS (g0 t) 62 = 0x10001) = true
    ∧ runs (exec (.exit (w3 0 .zero .zero .zero .zero)) { tbr with groups := [{ tg with em := 0xFF }] }) (fun t => (g0 t).live = 0xFF00 && (g0 t).em = 0) = true
    ∧ runs (exec (.bpt (w3 0 .zero .zero .zero .zero)) { tbr with ctxs := [{ Ctx.firmware with dbg := true }] }) (fun t =>
        (ctxOf t 0).any (fun c => c.faults.map (fun f => (f.reason, f.rpc)) = [(13, 0x10001)])) = true := by decide +kernel
/-- Hints at their bounds and `YIELD` (R164, R171). -/
theorem test_hints :
    runs (exec (.acqh (w3 0 .zero .zero .zero .zero)) { ts with groups := [{ tg with hint := 15 }] }) (fun t => (g0 t).hint = 15) = true
    ∧ runs (exec (.relh (w3 0 .zero .zero .zero .zero)) ts) (fun t => (g0 t).hint = 0) = true
    ∧ runs (exec (.yield (w3 0 .zero .zero .zero .zero)) { ts with groups := [{ tg with aged := true }] }) (fun t => !(g0 t).aged && (g0 t).stamp = 1) = true := by
  decide +kernel

/-! ## Steps of the other units, and the step -/

/-- A write of the management core, of a host and of a group to registers of partition 0. -/
def treg (a : Arg) : State := { ts with arg := a }
theorem test_hyp_registers : (treg {}).mode = .running ∧ SMap.wf 0 (treg {}).regs = true ∧ (treg {}).parts.length = 8
    ∧ hostOwns (treg { who := .host 1 }) 1 0 = false ∧ groupAt (treg {}) 0 0 ≠ none ∧ groupAt (treg {}) 0 1 = none
    ∧ (treg {}).ports.all (fun q => q.st = 0) = true := by decide +kernel
theorem test_registers :
    runs (exec .devidWrite (treg { val := 0xFFFF })) (fun t => regVal t (regPlat 0) = 0x3FFF) = true
    ∧ runs (exec .devidWrite (treg { who := .host 0, val := 3 })) (fun t => t.regs = []) = true
    ∧ runs (exec .rollminWrite (treg { who := .host 0, val := 1 })) (fun t => t.rollmin = none) = true
    ∧ runs (exec .drvfeatWrite (treg { val := 0xFF })) (fun t => regVal t (regPart 0 0x108) = 0x7F) = true
    ∧ runs (exec .tickWrite (treg { val := 0 })) (fun t => regVal t (regPart 0 0x90) = 1) = true
    ∧ runs (exec .sbarWrite (treg { who := .group 0 0, val := 0x8000000000010040 })) (fun t =>
        regVal t (regPart 0 0x88) = 0x8000000000000040 && (partOf t 0).sbarWin = some tg.segS) = true
    ∧ runs (exec .hbarWrite (treg { who := .host 0, val := 1 })) (fun t => t.regs = []) = true
    ∧ runs (exec .registerWrite (treg { addr := regPart 0 0x200 + 7, len := 1, val := 0xAB })) (fun t =>
        regVal t (regPart 0 0x200) = 0xAB00000000000000) = true
    ∧ runs (exec .scfgWrite (treg { stack := 15, val := 0x4011 })) (fun t => regVal t (regStack 15 0) = 0x4011) = true
    ∧ runs (exec .atctlGo (treg { val := 1 })) (fun t => (regVal t (regPart 0 0x220)).getLsbD 1 && t.agenda.length = 1) = true
    ∧ runs (exec .doorbellWrite (treg { who := .host 0 })) (fun t => t.groups = ts.groups) = true := by decide +kernel
/-- Reset, recovery, clock and trip: the flash is empty, so no image is valid; the limits of R448 at both sides. -/
theorem test_platform :
    runs (exec .deviceReset ts) (fun t => t.mode = .recovery && t.epoch = 2 && t.groups = []) = true
    ∧ runs (exec .rcmdInstallA { ts with mode := .recovery }) (fun t => t.rstat = 1 && t.rcmd = 1 && t.agenda.length = 1) = true
    ∧ runs (exec .rcmdInstallB { ts with mode := .recovery, rstat := 1 }) (fun t => t.rcmd = 0) = true
    ∧ runs (exec .rcmdAttest ts) (fun t => t.rstat = 0) = true
    ∧ runs (exec .recoveryInstallDone { ts with mode := .recovery, rstat := 1, rcmd := 1 }) (fun t => t.rstat = 3) = true
    ∧ runs (exec .recoveryResetTimer { ts with mode := .recovery, rtimer := true }) (fun t => t.mode = .recovery && t.epoch = 2) = true
    ∧ runs (exec .clockStepDown (treg { val := 3001, temp := 0 })) (fun t => regVal t (regPlat 0x40) = 1000) = true
    ∧ runs (exec .clockStepDown (treg { val := 3000, temp := 1679 })) (fun t => regVal t (regPlat 0x40) = 1050) = true
    ∧ runs (exec .clockStepUp (regPut (treg { val := 2849, temp := 1599 }) (regPlat 0x40) 1000)) (fun t => regVal t (regPlat 0x40) = 1050) = true
    ∧ runs (exec .clockStepUp (regPut (treg { val := 2850, temp := 0 }) (regPlat 0x40) 1000)) (fun t => regVal t (regPlat 0x40) = 1000) = true
    ∧ runs (exec .thermalTrip (treg { temp := 1920 })) (fun t => t.mode = .tripped) = true := by decide +kernel
/-- Port 1 in a state, 256 lanes each way. -/
def tport (st : Nat) (a : Arg) : State :=
  { ts with arg := { a with port := 1 }, ports := updAt State.reset.ports 1 (fun p => { p with st := st, tx := 256, rx := 256, epoch := 7 }) }
def prt (i : Instr) (st : Nat) (a : Arg) (p : LPort → Bool) : Bool := runs (exec i (tport st a)) (fun t => p (portAt t 1))
theorem test_hyp_port : (tport 2 {}).arg.port < (tport 2 {}).ports.length ∧ (tport 2 {}).xacts = [] ∧ (tport 2 {}).pkts = []
    ∧ SMap.wf 0 (tport 2 {}).regs = true ∧ (tport 2 {}).posted = [] := by decide +kernel
theorem test_ports :
    prt .linkEnable 0 {} (fun q => q.st = 1 && q.enable) = true ∧ prt .linkDisable 2 {} (fun q => q.st = 0) = true
    ∧ prt .linkQuiesce 3 {} (fun q => q.st = 4) = true ∧ prt .linkRetrain 5 {} (fun q => q.st = 1) = true
    ∧ prt .linkTrained 1 { tx := 256, rx := 256 } (fun q => q.st = 2) = true ∧ prt .linkTrained 1 { tx := 64, rx := 256 } (fun q => q.st = 3) = true
    ∧ prt .linkTrainingFail 1 {} (fun q => q.st = 5) = true ∧ prt .laneLoss 2 { tx := 64, rx := 256 } (fun q => q.st = 3 && q.tx = 64) = true
    ∧ prt .laneLoss 2 { tx := 63, rx := 256 } (fun q => q.st = 5) = true ∧ prt .portFailed 4 {} (fun q => q.st = 5) = true
    ∧ prt .quiesceDrained 4 {} (fun q => q.st = 0) = true ∧ prt .flitRetransmit 2 { count := 3 } (fun q => q.retries = 3) = true
    ∧ runs (exec .linkRxEpochReport (tport 2 { epoch := 8 })) (fun t => t.agenda.map (fun e => e.1) = [.hostWarmRestart]) = true
    ∧ runs (exec .portLinkDown (tport 2 {})) (fun t => (regVal t (regPcie 1 0x10)).getLsbD 10) = true
    ∧ prt .linkRxEpochReport 2 { epoch := 0 } (fun q => q.epoch = 0 && q.known) = true
    ∧ runs (exec .portLinkUp (regPut (tport 2 {}) (regPcie 1 0x10) 1)) (fun t => t.cxl = 2 && regVal t (regPcie 1 8) = regVal ts (regPcie 1 8) ||| 0x200000000) = true
    ∧ runs (exec .portLinkUp (tport 2 { width := 16, speed := 5 })) (fun t => regVal t (regPcie 1 0x10) = 0x30A && t.cxl = 0) = true := by decide +kernel

/-- Slot 3's queue holds a packet of 64 bytes at 0x10000, its context firmware's. -/
def tpkt (b : List Byte) (per : W32) : State :=
  { tqu with mem := memPut (memPut tqu.mem 0x10000 b) 0x18200 (leBytes 8 77), arg := { slot := 3 }
             hwslots := updAt tqu.hwslots 3 (fun h => { h with qst := 4, widx := 1, period := per, budget := 1, used := 1000 }) }
def waitPkt : List Byte := leBytes 8 3 ++ leBytes 8 0x18200 ++ leBytes 8 77 ++ leBytes 40 0
def sigPkt : List Byte := leBytes 8 4 ++ leBytes 8 0x18200 ++ leBytes 8 5 ++ leBytes 8 1 ++ leBytes 32 0
def cpyPkt : List Byte := leBytes 8 2 ++ leBytes 8 0x18200 ++ leBytes 48 0
def packetReady (b : List Byte) : Bool :=
  let s := tpkt b 0
  startable s 0 = [3] && headPkt s (slotAt s 3) = some b && packetBad s (slotAt s 3) b = none && workQuiet s 0
    && (match headBytes s (slotAt s 3) with | .ok c => decide (c = b) | .error _ => false)
theorem test_hyp_packet : packetReady (leBytes 64 0) = true ∧ packetReady waitPkt = true ∧ packetReady sigPkt = true ∧ packetReady cpyPkt = true
    ∧ SMap.wf 0 (tpkt waitPkt 0).regs = true ∧ Memory.wf (tpkt waitPkt 0).mem = true ∧ (tpkt waitPkt 0).hwslots.length = 64
    ∧ freeEntry (tpkt cpyPkt 0) 0 0 false = some 0 ∧ pktOf (tpkt waitPkt 0) 3 0 = none := by decide +kernel
theorem test_packets :
    runs (exec .packetNop (tpkt (leBytes 64 0) 0)) (fun t => (slotAt t 3).ridx = 1 && (slotAt t 3).qst = 3) = true
    ∧ runs (exec .packetNop (tpkt (leBytes 64 6) 0)) (fun t => (slotAt t 3).qst = 5) = true
    ∧ runs (exec .packetSignal (tpkt sigPkt 0)) (fun t => dramVal t 0x18200 8 = 82 && (slotAt t 3).ridx = 1) = true
    ∧ runs (exec .packetCopy (tpkt cpyPkt 0)) (fun t => t.jobs.length = 1 && (slotAt t 3).infl = 1) = true
    ∧ runs (exec .schedTick (tpkt cpyPkt 0)) (fun t => regVal t (regPart 0 0x80) = 2) = true
    ∧ runs (exec .slotDeadline (tpkt cpyPkt 10)) (fun t => (slotAt t 3).deadl = 10500 && (slotAt t 3).used = 0) = true
    ∧ runs (exec .slotBudgetExhausted (tpkt cpyPkt 10)) (fun t => (slotAt t 3).thr) = true := by decide +kernel

/-- A started grid of two teams of one group in firmware's space, on field 0, whose host may withdraw teams; a pawn launch. -/
def tlaunch (kind : Nat) : Launch :=
  let d := leBytes 2 kind ++ leBytes 2 0x20 ++ leBytes 4 0x100001 ++ leBytes 8 2 ++ leBytes 8 0x10000 ++ leBytes 104 0
  { (default : Launch) with lh := 5, hwslot := 3, started := true, desc := d }
def tla (kind : Nat) (a : Arg) : State := { tqu with launches := [tlaunch kind], arg := a, groups := [] }
theorem choose_some (s : State) (l : List Spot) (h : l.isEmpty = false) : ∃ sp, chooseSpot s l = some sp := by
  have h0 : 0 < l.length := by cases l with | nil => cases h | cons _ _ => exact Nat.succ_pos _
  exact ⟨_, by rw [chooseSpot, h, if_neg (by decide), List.getElem?_eq_getElem (Nat.mod_lt _ h0)]⟩
theorem test_hyp_launch : launchOf (tla 0 {}) 5 = some (tlaunch 0) ∧ heldBack (tla 0 {}) (tlaunch 0) = false ∧ nextTeam (tlaunch 0) = some 0
    ∧ ((openFields { tla 0 {} with parts := State.reset.parts } (tlaunch 0)).findSome? (fun f =>
        chooseSpot (tla 0 {}) (spotsIn (tla 0 {}) (tlaunch 0) f))) = none ∧ Memory.wf (tla 0 {}).scr = true ∧ lWidth (tlaunch 0) = 16
    ∧ ahead (tla 0 {}) (pawnsDue (tla 0 {})) (tlaunch 0) = [] ∧ ctxRuns (tla 0 {}) 0 = true ∧ lKind (tlaunch 0) = 0 ∧ lFlag (tlaunch 0) 5 = true := by decide +kernel
theorem test_hyp_spot : ∃ sp, (openFields (tla 0 {}) (tlaunch 0)).findSome? (fun f => chooseSpot (tla 0 {}) (spotsIn (tla 0 {}) (tlaunch 0) f)) = some sp := by
  have hf : openFields (tla 0 {}) (tlaunch 0) = [0] := by decide +kernel
  obtain ⟨sp, h⟩ := choose_some (tla 0 {}) (spotsIn (tla 0 {}) (tlaunch 0) 0) (by decide +kernel)
  exact ⟨sp, by rw [hf, List.findSome?_cons, h]⟩
/-- A withdrawn team is granted, an ending tailor starts again, a group is aged past 1,024 clks, a pawn of no launch is dropped. -/
theorem test_launch :
    runs (exec .fetchwReply { tla 0 {} with fetchws := [⟨0, 0, 0xFC0⟩] }) (fun t => memVal t.scr 0xFC0 4 = 0 && memVal t.scr 0xFC8 4 = 2
      && memVal t.scr 0xFD8 8 = 0x10000 && t.fetchws = []) = true
    ∧ runs (exec .groupRetire { ts with groups := [{ tg with kind := .tailor, st := .ending }], arg := {} }) (fun t =>
        t.groups = [] && t.agenda.map (fun e => e.1) = [.tailorStart]) = true
    ∧ runs (exec .groupAged { ts with clks := 1025, arg := {} }) (fun t => (g0 t).aged) = true
    ∧ runs (exec .groupAged { ts with clks := 1024, arg := {} }) (fun t => !(g0 t).aged) = true
    ∧ runs (exec .pawnArrival (tla 0 { pawn := { (default : Pawn) with lh := 6 } })) (fun t => t.pawns = []) = true
    ∧ runs (exec .tailorStart (tla 0 { core := 2 })) (fun t => t.out.length = 1) = true := by decide +kernel
/-- A pawn of a window's kind 1 waits at field 0 in its queue; its launch's gather time has passed. -/
def tpawn : Pawn := { (default : Pawn) with pc := 0x10000, lh := 5, kind := 1, arg := [7, 8] ++ List.replicate 6 0 ++ [0x10000, 0, 0, 0] }
def tgath : State := { tla 1 { lh := 5, pc := 0x10000, pawn := tpawn } with pawns := List.replicate 16 ⟨0, tpawn, 0, false⟩, clock := 2100 }
theorem test_hyp_gather : pawnOk tgath (tlaunch 1) 0 tpawn = true ∧ pawnOk tgath (tlaunch 1) 0 { tpawn with kind := 0 } = false
    ∧ gatherDue tgath (tlaunch 1) 0 0x10000 = true ∧ gatherDue { tgath with clock := 2099 } (tlaunch 1) 0 0x10000 = false
    ∧ lWidth (tlaunch 1) ≤ (queueOf tgath 0 5 0x10000).length ∧ headerFault tgath (tlaunch 1) 0 tpawn = none
    ∧ ahead tgath (pawnsDue tgath) (tlaunch 1) = [] ∧ ctxRuns tgath 0 = true ∧ heldBack tgath (tlaunch 1) = false := by decide +kernel
theorem test_hyp_pawn_spot : ∃ sp, chooseSpot tgath (pawnSpots tgath (tlaunch 1) 0) = some sp :=
  choose_some _ _ (by decide +kernel)
/-- A launch of a later deadline comes after one that can take the resources now (R334). -/
def tahead : State :=
  { tla 0 { lh := 5 } with
    hwslots := updAt (updAt tqu.hwslots 3 (fun h => { h with period := 1, deadl := 20 })) 4 (fun h => { h with map := true, period := 1, deadl := 10 })
    launches := [tlaunch 0, { tlaunch 1 with lh := 6, hwslot := 4 }], pawns := List.replicate 16 ⟨0, { tpawn with lh := 6 }, 0, false⟩ }
theorem test_ahead : (ahead tahead (pawnsDue tahead) (tlaunch 0)).map (fun l => l.lh) = [6]
    ∧ runs (exec .teamAdmit tahead) (fun t => t.groups = [] && t.agenda.map (fun e => (e.1, e.2.lh)) = [(.pawnGroupDispatch, 6), (.teamAdmit, 5)]) = true := by
  decide +kernel
/-- A sound start block of core 2, its entry a line with slot 0 set. -/
def ttail : State :=
  { tla 0 { core := 2 } with
    ibuf := [⟨2, 0, 0x10000, BitVec.ofNat 512 (1 + 2 ^ 24 * (lineParity 1))⟩]
    mem := memPut tables 0x400 (leBytes 8 0x10000 ++ leBytes 8 0x800 ++ leBytes 496 0) }
theorem test_tailor : runs (exec .tailorStart ttail) (fun t => t.groups.map (fun g => (g.core, g.slot, g.width, g.vregs, g.pc)) = [(2, 16, 16, 8, 0x10000)]) = true := by
  decide +kernel

/-! ## Returned data, engines, windows, requests, contexts and the whole machine -/

/-- A load of two lanes in flight, a posted store and a load of device 5 in flight. -/
def tload : PendLoad := ⟨7, .v 8, 2, 8, false, [0, 2], [0x40, 0x48], true, some 0, none, 0x10000, 0x10000, false, [0x40, 0x48], 1, none, 0⟩
def txact (ld : Bool) : Xact := ⟨9, 5, 1, 4, 8, 1, 0, 0, 0, 0x10000, 0x40, false, ld, false, [], 0x40, [], 0, false, none⟩
def tret : State := { ts with groups := [{ tg with loads := [tload], pc := 0x10000 }], clock := 1, arg := { tag := 7, lanes := [0x1122334455667788, 3] }, posted := [tpost] }
def tlines : State := { ts with mem := memPut tables 0x10000 (leBytes 64 (oneLine 0)), arg := { addr := 0x10000 } }
/-- A group held for a tag that is no load's, as MemoryReturns looks for it. -/
def holdsTag (tag : Nat) (g : Group) : Bool :=
  (match g.wait with | .ext tags => tags.contains tag | _ => false) && g.loads.all (fun p => p.tag ≠ tag)
theorem test_hyp_returns : (loadGroup tret 7).map (fun q => q.2) = some tload ∧ tret.groups.find? (holdsTag 3) = none
    ∧ tret.posted.find? (fun p => p.tag = 3) = some tpost ∧ heldLine tlines tg 0x10000 = none ∧ tpost.guid ≠ 0
    ∧ (match lineInMem tlines 0 0 (lineOf 0x10000) with | .ok (b, _) => lineSound b | .error _ => false) = true
    ∧ (match lookup tlines 0 0 0x10000 with | .ok _ => true | .error _ => false) = true
    ∧ (({ ts with groups := [{ tg with wait := .ext [3, 4] }] } : State).groups.find? (holdsTag 3)).isSome = true
    ∧ xactOf { tret with xacts := [txact false] } 9 = some (txact false) ∧ (portAt tret 1).st ≠ 4 ∧ tret.pkts = [] := by decide +kernel
theorem test_returns : runs (exec .loadDataReturn tret) (fun t => rdV (g0 t) 8 0 = 0x55667788 && rdV (g0 t) 9 0 = 0x11223344 && rdV (g0 t) 8 2 = 3) = true
    ∧ runs (exec .loadDataReturn { tret with groups := [{ tg with loads := [{ tload with dst := .s 8, lanes := [0], words := 1, bytes := 1, signed := true }] }] }) (fun t =>
        rdS (g0 t) 8 = 0xFFFFFF88) = true
    ∧ runs (exec .hostLoadTimeout tret) (fun t => (ctxOf t 0).any (fun c => c.faults.map (fun f => (f.reason, f.faddr)) = [(6, 0x40)])) = true
    ∧ (match deliver' tlines tg 0x10000 with | .ok (t, _) => t.ibuf.length = 1 && t.tlb.length = 2 | .error _ => false) = true
    ∧ runs (exec .updatePerformed { tret with arg := { tag := 3 } }) (fun t => t.posted = []) = true
    ∧ runs (exec .updatePerformed { ts with arg := { tag := 3 }, groups := [{ tg with st := .stalled, wait := .ext [3, 4] }] }) (fun t =>
        (g0 t).wait = .ext [4] && (g0 t).pc = 0x10000) = true
    ∧ runs (exec .updatePerformed { ts with arg := { tag := 4 }, groups := [{ tg with st := .stalled, wait := .ext [4] }] }) (fun t =>
        (g0 t).wait = .none && (g0 t).pc = 0x10001) = true := by decide +kernel

/-- A job of engine 0 of field 0: 8 bytes from 0x10000 to 0x10800 in chunks of 4 KiB, a rack job, and a row job in flight. -/
def tdesc (flags : Nat) : List Byte := leBytes 8 0x10000 ++ leBytes 8 0x10800 ++ leBytes 8 8 ++ leBytes 4 4096 ++ leBytes 2 0 ++ leBytes 2 flags
  ++ leBytes 8 0 ++ leBytes 4 (2 ^ 32 - 1) ++ leBytes 20 0
def tj (run : Bool) (flags sub : Nat) : Job :=
  { (default : Job) with st := if run then .running else .queued, eng := if run then some 0 else none, descA := 0x10400, desc := tdesc flags, sub := sub, segS := tg.segS }
def tengs (j : Job) : State :=
  { tqu with jobs := [j], mem := memPut tqu.mem 0x10400 (tdesc 0), arg := {}, scr := memPut [] 0 (leBytes 4 0x0204 ++ leBytes 60 0) }
theorem test_hyp_job : engJob (tengs (tj false 0 0)) false 0 0 = none
    ∧ pickJob (ctxRuns (tengs (tj false 0 0))) [] [] ((tengs (tj false 0 0)).jobs.filter (fun j => j.gather = false && jobField (tengs (tj false 0 0)) j = 0)) = some (tj false 0 0)
    ∧ (match readRange (putJob (tengs (tj false 0 0)) { tj false 0 0 with st := .running, eng := some 0 }) (tj false 0 0) false normKind 0x10400 64 with
       | .ok (s2, d) => decide (d = tdesc 0) && dNext (tj true 0 0) = 0 && copyOk (putJob s2 (tj true 0 0)) (tj true 0 0)
       | .error _ => false) = true
    ∧ engJob (tengs (tj true 0 0)) false 0 0 = some (tj true 0 0) ∧ chunkFull (tengs (tj true 0 0)) (tj true 0 0) = false
    ∧ chunkFull (tengs (tj true 0 8)) (tj true 0 8) = true ∧ jobXacts (tengs (tj true 0 8)) (tj true 0 8) = []
    ∧ (match copyWork (tengs (tj true 0 0)) (tj true 0 0) 0 0 8 with | .ok (s1, b) => decide (s1.jobs = [tj true 0 0] ∧ b.length = 8) | .error _ => false) = true
    ∧ (boundary (tengs (tj true 0 8)) (tj true 0 8)).2.isSome = true := by decide +kernel
def trowj (init : Bool) : RowJob := ⟨0, 3, 0, init, 0, 0x10000, 0x10100, 64, 15, 0x10200, []⟩
def trows (init : Bool) : State := { ts with rowJobs := [trowj init], mem := tables, rows := [(0, ⟨65, true, false, true, false, 0, none, []⟩)] }
theorem test_hyp_rowjob : Memory.wf (trows true).mem = true ∧ SMap.wf default (trows true).rows = true ∧ (rowGet (trows true) 0).busy = true
    ∧ (trows true).rowJobs.find? (fun j => j.stack = 0) = some (trowj true) ∧ SMap.wf 0 (trows true).stEpoch = true := by decide +kernel
theorem test_engine_events :
    runs (exec .jobTake (tengs (tj false 0 0))) (fun t => t.jobs.map (fun j => (j.st == .running, j.eng)) = [(true, some 0)]
      && (t.agenda.map (fun e => e.1)).contains .subchunkBoundary) = true
    ∧ runs (exec .subchunkBoundary (tengs (tj true 0 0))) (fun t => t.jobs.map (fun j => (j.sub, j.next)) = [(8, 0)]) = true
    ∧ runs (exec .rowPromoteDone (trows true)) (fun t => !(rowGet t 0).busy) = true
    ∧ runs (exec .epochTick (trows true)) (fun t => SMap.get 0 t.stEpoch 0 = 1) = true
    ∧ runs (exec .rowJobDone (trows false)) (fun t => dramVal t 0x10200 8 = 4 + 3 * 2 ^ 32 && t.rowJobs = []) = true := by decide +kernel

/-- Stream 5's reader at its records (R346 to R364). -/
def twr (n : Nat) : State := { tsm with streams := [{ tstr with next := BitVec.ofNat 32 n, seen := 4, retired := BitVec.ofNat 32 n }], arg := { lh := 5 } }
def recp (i : Instr) (n : Nat) (p : Stream → Bool) : Bool := runs (exec i (twr n)) (fun t => (streamOf t 5).any p)
theorem test_hyp_reader : streamOf (twr 1) 5 = some { tstr with next := 1, seen := 4, retired := 1 } ∧ ctxRuns (twr 1) 0 = true
    ∧ fld tstr.ext 112 8 = 0 ∧ tstr.flushed = false ∧ tstr.paused = false ∧ tstr.cmds = [] ∧ fld tstr.ext 8 1 = 1
    ∧ (9 : Nat) + fld tstr.ext 32 8 < tstr.wm.toNat
    ∧ (match agentRead (twr 0) (ringBuf (twr 0) tstr) 0 0x10000 64 with | .ok (_, b) => decide (fld b 16 4 = 4) | .error _ => false) = true := by
  decide +kernel
theorem test_reader : recp .ingressDataRecord 0 (fun q => q.next = 1 && q.read = 1 && q.late = 1) = true
    ∧ recp .controlWatermark 1 (fun q => q.wm = 150) = true ∧ recp .controlFlush 2 (fun q => q.flushed) = true
    ∧ recp .controlMalformed 3 (fun q => q.malformed = 1) = true := by decide +kernel
def twq : Win := { (default : Win) with id := 1, queue := [{ (default : WPawn) with kind := 5 }] }
theorem test_hyp_sendable : winOf { tstr with wins := [twq] } 1 = some twq ∧ sendable { tstr with wins := [twq] } twq = true
    ∧ storeFill (twr 0) 0 < 65536 := by decide +kernel

/-- A peer, device 7, is served; partition 0's resident is context 3. -/
def tin (a : Arg) : State :=
  regPut { ts with arg := { a with src := 7 }, nextId := 20, ports := updAt State.reset.ports 0 (fun p => { p with st := 3 }) } (routeReg 7) 0xD00
theorem test_hyp_request : (7 : Nat) ≠ ownDev (tin {}) ∧ served (tin {}) 7 false = true ∧ served (tin {}) 7 true = true
    ∧ portServes (tin {}) 0 = true ∧ portServes (tin {}) 1 = false
    ∧ served ts 7 false = false ∧ SMap.wf 0 (tin {}).regs = true ∧ Memory.wf (tin {}).mem = true ∧ regionOf (tin {}) 0x100 = .dram
    ∧ putRuns [(0x100, 1), (0x101, 2)] = [(0x100, [1, 2])] ∧ badPartial (tin {}) 0x100 2 = [] ∧ badLines (tin {}) 0x100 8 = []
    ∧ xactOf { ts with xacts := [txact true] } 9 = some (txact true) ∧ (portAt ts 1).st ≠ 4 ∧ cxlMode ts 0 = false := by decide +kernel
theorem test_requests :
    runs (exec .linkRxReadRequest (tin { addr := 0x100, len := 4, tag := 9 })) (fun t => t.out = [.response 0 7 2 9 .accepted [0, 0, 0, 0]]) = true
    ∧ runs (exec .linkRxPostedWrite (tin { put := [(0x100, 1), (0x101, 2)] })) (fun t => dramVal t 0x100 4 = 0x0201) = true
    ∧ runs (exec .linkRxAtomic (tin { atom := ⟨0x100, .add, true, false, 5, 0, true⟩, tag := 2 })) (fun t => dramVal t 0x100 8 = 5) = true
    ∧ runs (exec .linkRxReadRequest (regPut (tin { addr := 0x100, len := 4, tag := 9 }) (routeReg 7) 0x900)) (fun t => t.out = [.response 0 7 2 9 .error []]) = true
    ∧ served (regPut (tin {}) (routeReg 7) 0x900) 7 false = false ∧ routeOf (tin {}) 7 = some 0
    ∧ runs (exec .linkRxPostedWrite (tin { put := [(0x100, 1)], port := 1 })) (fun t => t.out = [] && t.mem = (tin {}).mem) = true
    ∧ runs (exec .linkTimeout { ts with xacts := [txact false], clock := 0xFFFFFFFF, arg := { tag := 9 } }) (fun t => t.xacts = [])
    ∧ runs (exec .linkTimeout { regPut ts (regLink 0) 2 with xacts := [{ txact false with sent := 1 }], clock := 2100, arg := { tag := 9 } }) (fun t => t.xacts.length = 1) = true
    ∧ runs (exec .linkTimeout { regPut ts (regLink 0) 2 with xacts := [{ txact false with sent := 1 }], clock := 2101, arg := { tag := 9 } }) (fun t => t.xacts = []) = true
    ∧ runs (exec .linkRxUnknownKind (tin { kind := 12 })) (fun t => regVal t (regLink 0x18) = 1) = true
    ∧ runs (exec .pcieBar2Request { ts with arg := { addr := 0x100, data := [7] } }) (fun t => dramByte t 0x100 = 7) = true
    ∧ runs (exec .pcieBar0Write { ts with mode := .recovery, arg := { addr := 0x100010, len := 2, val := 0xAABB } }) (fun t => memVal t.staging 0x10 2 = 0xAABB) = true := by
  decide +kernel
/-- Context 3 stopping, swapping, spilling and filling (R380 to R387). -/
def tstop (st : CtxState) (f : List FaultRec) : State := { ts with ctxs := [Ctx.firmware, { tc3 st with line := true, faults := f }], arg := { ctx := 3 } }
def tswp : State := { ts with ctxs := [Ctx.firmware, tc3 .shadow], arg := {}, parts := updAt State.reset.parts 0 (fun p => { p with swap := true }) }
def tdef : State := { tswp with ctxs := [Ctx.firmware, tc3 .active], groups := [{ tg with ctx := 3, hint := 1 }] }
theorem test_hyp_stop : stopBusy (tstop .active []) 3 = false ∧ stopBusy { tstop .active [] with groups := [{ tg with ctx := 3, loads := [tload] }] } 3 = true
    ∧ swapReady tswp 0 = true ∧ shadowOf tswp 0 = some (tc3 .shadow) ∧ ctxOf tswp 3 = some (tc3 .shadow) ∧ swapReady tdef 0 = false
    ∧ noHints tdef 0 = false ∧ noHints tswp 0 = true ∧ (partOf tdef 0).swapDue = false ∧ (partOf tdef 0).swapAt ≤ tdef.clock.toNat
    ∧ badImage (tstop .filling []) (tc3 .filling) = none := by decide +kernel
theorem test_context_events :
    runs (exec .contextStopped (tstop .active [])) (fun t => (ctxOf t 3).any (fun c => c.st = .halted)) = true
    ∧ runs (exec .contextStopped (tstop .active [⟨none, 0, 0, 3, 0, 0, 0, 0, 0, 0, 0⟩])) (fun t => (ctxOf t 3).any (fun c => c.st = .faulted)) = true
    ∧ runs (exec .swapProceed tswp) (fun t => (ctxOf t 3).any (fun c => c.st = .active)) = true
    ∧ runs (exec .swapProceed tdef) (fun t => (ctxOf t 3).any (fun c => c.st = .active)) = true
    ∧ runs (exec .hintDeferralTimeout tdef) (fun t => (partOf t 0).swapDue && t.agenda.map (fun e => e.1) = [.swapProceed]) = true
    ∧ runs (exec .spillDone { tstop .spilling [] with ctxs := [{ tc3 .spilling with spilling := true }] }) (fun t =>
        (ctxOf t 3).any (fun c => c.st = .saved && !c.spilling)) = true
    ∧ runs (exec .spillDone { tstop .faulted [] with ctxs := [{ tc3 .faulted with spilling := true }] }) (fun t =>
        (ctxOf t 3).any (fun c => c.st = .faulted && !c.spilling)) = true
    ∧ runs (exec .contextStopped (tstop .saved [])) (fun t => (ctxOf t 3).any (fun c => c.st = .saved && c.hf && !c.line)) = true
    ∧ runs (exec .contextStopped (tstop .dead [])) (fun t => (ctxOf t 3).any (fun c => c.st = .dead)) = true
    ∧ runs (exec .fillDone { tstop .filling [] with ctxs := [tc3 .filling] }) (fun t => (ctxOf t 3).any (fun c => c.st = .shadow)) = true
    ∧ runs (exec .hostWarmRestart { tstop .saved [] with arg := {} }) (fun t => t.mode = .running && (regVal t (regPcie 0 0x10)).getLsbD 10) = true := by decide +kernel

/-- A device that runs the words of a line from 0x10000. -/
def tline (b : Nat) : State :=
  let s := State.reset.withFetchWord 96 0
  { s with mem := memPut [] 0x10000 (leBytes 64 (b + 2 ^ 24 * lineParity b)) }
/-- The hypotheses of StepRunsDecoded: one word, a pair, a faulting slot, and a privileged slot of a user group. -/
def stepReady (s : State) : Bool :=
  decide ((due s).agenda = []) && decide (picks (due s) = s.groups) && (match deliver' (due s) (g0 s) 0x10000 with | .ok _ => true | .error _ => false)
def tslot (s : State) (k : Nat) : Option (Nat × Flt) :=
  match deliver' (due s) (g0 s) 0x10000 with | .ok (s1, b) => slotFault (envOf s1 (g0 s1)) b k false | .error f => some (9, f)
def thold (s : State) (k : Nat) : Bool :=
  match deliver' (due s) (g0 s) 0x10000 with | .ok (s1, b) => boardHolds s1 (g0 s1) (envOf s1 (g0 s1)) (slotInstr b k) | .error _ => true
def tword : Nat := 0x002FF00801008E01
def tpair : Nat := 1 + 2 ^ 5 + 2 ^ 32 * tword
theorem test_hyp_step : stepReady (State.reset.withFetchWord 96 tword) = true ∧ tslot (State.reset.withFetchWord 96 tword) 0 = none
    ∧ thold (State.reset.withFetchWord 96 tword) 0 = false := by decide +kernel
theorem test_hyp_step_pair : stepReady (tline tpair) = true ∧ tslot (tline tpair) 0 = none ∧ thold (tline tpair) 0 = false
    ∧ thold (tline tpair) 1 = false ∧ pairBit tpair 0 = true := by decide +kernel
theorem test_hyp_step_fault : stepReady (State.reset.withFetchWord 96 0x1F0) = true
    ∧ (tslot { State.reset.withFetchWord 96 0x002FFBFD18214FC6 with groups := [{ probeGroup State.reset with priv := false }] } 0) = some (0, ⟨8, 7, 0, 0, 0⟩)
    ∧ slotFault (envOf ts tg) (1 + 2 ^ 23) 0 false = some (0, illegal 9) := by decide +kernel
theorem test_step : runs (step (State.reset.withFetchWord 96 tword)) (fun t => (g0 t).pc = 0x10001) = true
    ∧ runs (step (tline tpair)) (fun t => (g0 t).pc = 0x10002) = true := by decide +kernel
theorem test_step_boot : State.reset.mode = .boot ∧ State.reset.ok = true := by decide +kernel
theorem test_step_agenda : picks (due { ts with groups := [], agenda := [(.recovery, {})] }) = []
    ∧ (due { ts with groups := [], agenda := [(.recovery, {})] }).agenda = [(.recovery, {})] ∧ picks (due { ts with groups := [] }) = [] := by decide +kernel
/-- CanonicalStep and TidyStep: a step from a canonical, tidy state; DecodeEncode: an encodable instruction with its word. -/
theorem test_hyp_invariant : ts.ok = true ∧ runs (step { ts with groups := [] }) (fun _ => true) = true
    ∧ runs (step { ts with groups := [tg], ibuf := [⟨0, 0, 0x10000, BitVec.ofNat 512 (oneLine 0)⟩] }) (fun _ => true) = true := by decide +kernel
theorem test_hyp_encode : (Instr.iadd false ⟨0, 0, .zero, .v 2, .v 1, false, .v 4, false, 7⟩).encodable = true
    ∧ encode (.iadd false ⟨0, 0, .zero, .v 2, .v 1, false, .v 4, false, 7⟩) = some 0x002FF00801008E01 := by decide +kernel
/-- EndsAndFaults: a group in its slot, with lanes and without, and a tailor. -/
theorem test_ends : groupAt (finish ts tg) 0 0 = some { tg with pc := 0x10001, wait := .none, pfxW := none, unit := none }
    ∧ (groupAt (finish ts { tg with live := 0 }) 0 0).map (fun g => g.st) = some .ending
    ∧ (takeFault ts { tg with kind := .tailor } (illegal 1)).out = [.fatal (2 * 2 ^ 32)] := by decide +kernel

/-! ## The dump of a context that holds no core and no queue (R392 to R397): its lines are all written -/

/-- One large page maps all addresses to themselves, its leaf in the first-level and the second-level buffer. -/
def tleaf (buf : Nat) : TlbEnt := ⟨buf, 0, 0, 3, 0x63, []⟩
/-- Every line verifies, and that page is cached. -/
def Plain (s : State) : Prop :=
  s.tlb = [tleaf 0, tleaf 1536] ∧ ownDev s = 0 ∧ (∀ l, lineOk s l = true) ∧ SMap.wf 0 s.lineDom = true
theorem healLine_plain (s : State) (line : Nat) (h : (∀ l, lineOk s l = true) ∧ SMap.wf 0 s.lineDom = true) :
    (∀ l, lineOk (healLine s line) l = true) ∧ SMap.wf 0 (healLine s line).lineDom = true := by
  refine ⟨fun l => ?_, SMap.wf_put h.2 _ _⟩
  have h1 := h.1 l
  unfold lineOk healLine at *
  simp only [Bool.and_eq_true, decide_eq_true_eq, Bool.not_eq_true', List.contains_eq_mem, decide_eq_false_iff_not] at h1 ⊢
  refine ⟨fun hm => h1.1 (List.mem_filter.1 hm).1, ?_⟩
  rw [SMap.get_put h.2]
  split
  · rename_i e; rw [e]
  · exact h1.2
theorem agentDram_plain {s : State} (h : Plain s) (pa lat : Nat) (b : List Byte) (wr : Writer) (rs : List Rel) :
    Plain (agentDram s 0 pa lat b wr rs) := by
  obtain ⟨h1, h2, h3, h4⟩ := h
  unfold agentDram dramWrite dramPut
  have hk := foldl_keeps (fun t : State => (∀ l, lineOk t l = true) ∧ SMap.wf 0 t.lineDom = true) healLine
    healLine_plain (fullLines pa b.length) { s with mem := memPut s.mem pa b, undef := cutUndef s.undef pa b.length } ⟨h3, h4⟩
  obtain ⟨bd, ld, e⟩ := healLines_frame { s with mem := memPut s.mem pa b, undef := cutUndef s.undef pa b.length } (fullLines pa b.length)
  simp only [e] at hk ⊢
  obtain ⟨rw', ag1, e1⟩ := (touchRows_rows { s with mem := memPut s.mem pa b, undef := cutUndef s.undef pa b.length, bad := bd, lineDom := ld }
    pa b.length true lat).frame
  obtain ⟨ag2, e2⟩ := notice_frame { s with mem := memPut s.mem pa b, undef := cutUndef s.undef pa b.length, bad := bd, lineDom := ld, rows := rw', agenda := ag1 }
  obtain ⟨cs, ps, ag3, e3⟩ := watch_frame { s with mem := memPut s.mem pa b, undef := cutUndef s.undef pa b.length, bad := bd, lineDom := ld, rows := rw', agenda := ag2 } 0 false pa b wr
  rw [e1, e2, e3]
  exact ⟨h1, h2, hk.1, hk.2⟩
theorem plain_lookup {s : State} (h : Plain s) (a : Nat) (ha : a < 2 ^ 35) : lookup s 0 0 a = .ok (tleaf 0) := by
  have hz : a / lvlSize 3 * lvlSize 3 = 0 := by
    rw [show lvlSize 3 = 2 ^ 46 from by decide]; omega
  have hp : plainEnt s 0 0 a = .ok (tleaf 0) := by simp [plainEnt, cached, h.1, tleaf, hz]
  unfold lookup
  rw [hp]
  rfl
theorem plain_cache {s : State} (h : Plain s) : cacheEnts s [tleaf 0] = s := by
  have hc : (cached s 0 0 0).isNone = false := by simp [cached, h.1, tleaf]
  have hw : walkTouch s [tleaf 0] = s := by simp [walkTouch, tleaf, hc]
  have hd : descReads s [tleaf 0] = [] := by simp [descReads, tleaf]
  have hk : ∀ n e, e ∈ [tleaf 0, tleaf 1536] → keepEnt n [tleaf 0, tleaf 1536] e = [tleaf 0, tleaf 1536] := by
    intro n e he
    rw [keepEnt, if_pos (List.contains_iff_mem.2 he)]
  have hl : ({ tleaf 0 with buf := level2 (tleaf 0).buf } : TlbEnt) = tleaf 1536 := by decide
  unfold cacheEnts
  simp only [hd, List.map_nil, List.append_nil, List.foldl_cons, List.foldl_nil, hw, hl, h.1]
  rw [hk _ _ (by simp), hk _ _ (by simp), ← h.1]
theorem plain_store {s : State} (h : Plain s) (a n : Nat) (ha : a < 2 ^ 35) : storeTo s 0 0 (a, n) = .ok (tleaf 0, .dram a 0 false) := by
  have hr : regionOf s a = .dram := by unfold regionOf; rw [if_pos (by omega)]
  have hm : a % lvlSize 3 = a := Nat.mod_eq_of_lt (by rw [show lvlSize 3 = 2 ^ 46 from by decide]; omega)
  have hloc : locOf s (tleaf 0) a = .dram a 0 false := by
    have hk : pteKind (0x63 : W64).toNat = 0 := by decide
    have hf : pteFrame (0x63 : W64).toNat = 0 := by decide
    have hd : pteDev (0x63 : W64).toNat = 0 := by decide
    have ht : pteLat (0x63 : W64).toNat = 0 := by decide
    unfold locOf
    simp only [tleaf, hk, hf, hd, ht, hm, h.2.1, Nat.zero_add, hr]
    rfl
  have hn : normalAt s 0 0 a = .ok (tleaf 0, .dram a 0 false) := by
    unfold normalAt
    rw [plain_lookup h a ha]
    show normalLoc s (tleaf 0) a = _
    unfold normalLoc
    rw [if_neg (by decide), hloc]
    simp only [hr, if_true]
  have hb : badPartial s a n = [] := by simp [badPartial, badLines, h.2.2.1]
  unfold storeTo
  rw [hn]
  simp only [Except.bind, hb, ne_eq, not_true_eq_false, if_false]
  exact if_neg (by decide)
theorem agentStore_plain {s : State} (h : Plain s) (a : Nat) (b : List Byte) (wr : Writer) (ha : a < 2 ^ 35) (hal : a % 64 = 0)
    (hb : 0 < b.length) (hb2 : b.length ≤ 64) : ∃ t, agentStore s 0 0 a b wr [] = .ok t ∧ Plain t := by
  have hr : Machine.runs 65536 a b.length = [(a, b.length)] := by
    unfold Machine.runs
    rw [if_neg (by omega), show (a + b.length - 1) / 65536 - a / 65536 + 1 = 1 from by omega]
    simp only [List.range_one, List.map_cons, List.map_nil]
    rw [show max a ((a / 65536 + 0) * 65536) = a from by omega, show min (a + b.length) ((a / 65536 + 0 + 1) * 65536) - a = b.length from by omega]
  refine ⟨agentDram s 0 a 0 b wr [], ?_, agentDram_plain h a 0 b wr []⟩
  unfold agentStore
  simp only [hr, List.map_cons, List.map_nil, plain_store h a _ ha, allOk, List.zip_cons_cons, List.zip_nil_left, List.foldl_cons,
    List.foldl_nil, plain_cache h, storeRun, Nat.sub_self, List.drop_zero, List.take_length]
theorem putLines_plain (wr : Writer) (n a : Nat) (b : List Byte) {s : State} (h : Plain s) (ha : a + 64 * n < 2 ^ 35) (hal : a % 64 = 0) :
    ∃ t, putLines 0 0 wr n a b s = .ok t := by
  induction n generalizing a b s with
  | zero => exact ⟨s, rfl⟩
  | succ n ih =>
    unfold putLines
    split
    · exact ⟨s, rfl⟩
    · rename_i hne
      have hl : 0 < b.length := List.length_pos_iff.2 (by simpa using hne)
      obtain ⟨t, e, ht⟩ := agentStore_plain h a (b.take 64) wr (by omega) hal (by rw [List.length_take]; omega) (by rw [List.length_take]; omega)
      rw [e]
      exact ih (a + 64) (b.drop 64) ht (by omega) (by omega)
/-- A faulted context 3 that holds no core, beside firmware's. -/
def tdumpC : Ctx := { tc3 .faulted with ncore := 0 }
def tdump : State := { ts with ctxs := [Ctx.firmware, tdumpC], tlb := [tleaf 0, tleaf 1536], groups := [wrS { tg with em := 1 } 8 0x40000] }
theorem rows_plain {s t : State} (h : Plain s) (r : RowsOnly s t) : Plain t := by
  obtain ⟨rw', ag, e⟩ := r.frame
  rw [e]
  exact ⟨h.1, h.2.1, h.2.2.1, h.2.2.2⟩
theorem touchArea_rows (s : State) (pa n : Nat) (w : Bool) : RowsOnly s (touchArea s pa n w) := by
  have h (s : State) (b : Bool) (st : Nat) (q : RowReq) : RowsOnly s (if b = true then rowAct s st q else s) := by
    cases b
    · exact .refl s
    · exact rowAct_rows ..
  exact foldl_rel RowsOnly .refl .trans _ (fun s _ => h s _ _ _) _ s
theorem dumpBytes_plain {s : State} (hs : Plain s) (c : Ctx) (h : c.ncore = 0) (hq : queuesOf s c.part c.id = []) :
    Plain (dumpBytes s c).1 ∧ (dumpBytes s c).2.length = 98624 := by
  have hl : ∀ n x, (leBytes n x).length = n := by
    intro n; induction n with
    | zero => intro x; rfl
    | succ n ih => intro x; simp [leBytes, ih]
  unfold dumpBytes
  rw [h]
  refine ⟨?_, ?_⟩
  · simp only [hq, List.foldl_nil, List.range_zero]
    exact rows_plain (rows_plain (rows_plain (s := { s with free := s.free + 52 }) ⟨hs.1, hs.2.1, hs.2.2.1, hs.2.2.2⟩ (touchRows_rows ..))
      (touchArea_rows ..)) (touchArea_rows ..)
  · simp only [hq, freeBytes, List.range_zero, List.foldl_nil, List.flatMap_nil, List.length_append, dramBytes, List.length_map, List.length_range, hl,
      List.length_nil]
theorem test_hyp_dump : curGroup tdump = some (wrS { tg with em := 1 } 8 0x40000) ∧ ctxOf tdump 3 = some tdumpC ∧ tdumpC.part = tg.part
    ∧ ∃ t, putLines 0 0 (groupWriter tdump (wrS { tg with em := 1 } 8 0x40000)) ((dumpBytes tdump tdumpC).2.length / 64 + 1) 0x40000
      (dumpBytes tdump tdumpC).2 (dumpBytes tdump tdumpC).1 = .ok t := by
  have hd := dumpBytes_plain (s := tdump) ⟨rfl, by decide +kernel, fun _ => rfl, rfl⟩ tdumpC rfl (by decide +kernel)
  refine ⟨by decide +kernel, by decide +kernel, by decide +kernel, ?_⟩
  rw [hd.2]
  exact putLines_plain _ _ _ _ hd.1 (by norm_num) (by norm_num)

/-- A dead context 3 whose CCB at 0x1000 names core 0 of field 0 as its only core; its CHK is the CRC-32 of its first 252 bytes. -/
def tccb : List Byte :=
  leBytes 8 0x8000 ++ leBytes 12 0 ++ leBytes 4 3 ++ leBytes 4 0 ++ leBytes 4 1 ++ leBytes 8 0x1000000 ++ leBytes 8 0x40000 ++ leBytes 8 0x3000
    ++ leBytes 196 0 ++ leBytes 4 0x4B92A014
def tfill : State :=
  { tqu with ctxs := [Ctx.firmware, { tc3 .dead with ccb := 0x1000 }], mem := memPut (memPut [] 0x1000 tccb) 0x3001 (List.replicate 15 0xFF)
             groups := [{ tg with em := 1 }] }
/-- The register of `crc32` after bytes. -/
def crcReg (c : W32) (b : List Byte) : W32 :=
  b.foldl (fun c x => (List.range 8).foldl (fun c _ => if c.getLsbD 0 then (c >>> 1) ^^^ 0xEDB88320#32 else c >>> 1) (c ^^^ x.setWidth 32)) c
theorem crcReg_append (c : W32) (a b : List Byte) : crcReg c (a ++ b) = crcReg (crcReg c a) b := List.foldl_append
def tpart (n : Nat) : List Byte := (tccb.drop (36 * n)).take 36
theorem crc_part0 : crcReg 0xFFFFFFFF (tpart 0) = 0x156DE14B := by decide +kernel
theorem crc_part1 : crcReg 0x156DE14B (tpart 1) = 0xD3AFF626 := by decide +kernel
theorem crc_part2 : crcReg 0xD3AFF626 (tpart 2) = 0xAC8DCE09 := by decide +kernel
theorem crc_part3 : crcReg 0xAC8DCE09 (tpart 3) = 0xD971198 := by decide +kernel
theorem crc_part4 : crcReg 0xD971198 (tpart 4) = 0xDB6FBC8B := by decide +kernel
theorem crc_part5 : crcReg 0xDB6FBC8B (tpart 5) = 0x695D898D := by decide +kernel
theorem crc_part6 : crcReg 0x695D898D (tpart 6) = 0xB46D5FEB := by decide +kernel
theorem crc_tccb : crc32 (tccb.take 252) = 0x4B92A014 := by
  have h : tccb.take 252 = tpart 0 ++ (tpart 1 ++ (tpart 2 ++ (tpart 3 ++ (tpart 4 ++ (tpart 5 ++ tpart 6))))) := by decide +kernel
  have hc : crc32 (tccb.take 252) = ~~~ crcReg 0xFFFFFFFF (tccb.take 252) := rfl
  rw [hc, h]
  simp only [crcReg_append, crc_part0, crc_part1, crc_part2, crc_part3, crc_part4, crc_part5, crc_part6]
  decide
theorem test_hyp_ccb : ccbOk tfill 0x1000 = true := by
  have h : dramBytes tfill 0x1000 256 = tccb := by decide +kernel
  unfold ccbOk
  simp only [h, crc_tccb]
  decide +kernel
theorem test_hyp_fill : dramVal tfill 0x1014 4 = 3 ∧ dramVal tfill 0x1019 1 = tg.part ∧ dramVal tfill 0x1018 1 = 0
    ∧ shadowBusy tfill 0 = false ∧ remapOk tfill 0 (dramVal tfill 0x1030 8) (dramVal tfill 0x101C 4) = true
    ∧ (ctxOf tfill 3).map (fun c => (c.ccb, c.st)) = some (0x1000, .dead) := by decide +kernel

/-- A LAUNCH packet of a grid of two teams whose descriptor lies at 0x18400. -/
def tlpkt : State :=
  let s := tpkt (leBytes 8 1 ++ leBytes 8 0x18400 ++ leBytes 48 0) 0
  { s with mem := memPut s.mem 0x18400 (tlaunch 0).desc, groups := [] }
def tnew : Launch := newLaunch tlpkt 3 0x18400 (tlaunch 0).desc false
def tadm : State := { tlpkt with launches := tlpkt.launches ++ [tnew], nextHandle := tlpkt.nextHandle + 1 }
theorem test_hyp_packet_launch : headPkt tlpkt (slotAt tlpkt 3) = some (leBytes 8 1 ++ leBytes 8 0x18400 ++ leBytes 48 0)
    ∧ (match pktRead tlpkt (slotAt tlpkt 3) 0x18400 128 8 with | .ok d => decide (d = (tlaunch 0).desc) | .error _ => false) = true
    ∧ launchBad tlpkt tnew = none ∧ launchBad tlpkt { tnew with desc := leBytes 128 4 } = some 0 := by decide +kernel
theorem test_hyp_packet_admit : ∃ s2, admitLaunch tadm tnew [] = some s2 ∧ s2.hwslots = tlpkt.hwslots := by
  have hk : lKind tnew = 0 := by decide +kernel
  have hn : nextTeam tnew = some 0 := by decide +kernel
  have hf : openFields tadm tnew = [0] := by decide +kernel
  obtain ⟨sp, h⟩ := choose_some tadm (spotsIn tadm tnew 0) (by decide +kernel)
  refine ⟨placeTeam tadm tnew .grid 0 0 sp ⟨[], 0, 0, 0⟩, ?_, placeTeam_hwslots ..⟩
  unfold admitLaunch admitOne
  rw [hk, hn, hf, List.findSome?_cons, h]
  rfl
/-- A record that is not late opens a window of length 10, or finds the pool of one pocket full. -/
def ttw (ws : List Win) : Stream :=
  { tstr with wm := 0, wins := ws, ext := leBytes 8 0x10000 ++ leBytes 8 1 ++ leBytes 8 10 ++ leBytes 8 10 ++ List.replicate 64 0 ++ leBytes 8 0x10100 ++ List.replicate 24 0 }
theorem test_hyp_data : (dataRecord (twr 0) (ttw []) 5 9 0).any (fun t => t.wins.length = 1) = true
    ∧ dataRecord (twr 0) (ttw [{ (default : Win) with key := 99, id := 1 }]) 5 9 0 = none := by decide +kernel

/-! ## The assembler (chapter 04's worked layout, and the worked words of chapters 05, 08 and 09) -/

def asmOne (t : String) : Except Nat AEnc := (insOf t.toList).bind (encodeIns (fun _ => none) (asmEnv 32 64 false false))
theorem test_asm_ffma : (asmOne "FFMA.rz.ftz v7, -|v1|, v2, 0.5").map (·.words) = .ok [0x3F0000004A6FE0080100EE42] := by
  decide +kernel
theorem test_asm_load : (asmOne "LD.32 v3, G[v2]").map (·.words) = .ok [0x002FF00AFF006F04] := by decide +kernel
theorem test_asm_shaped : (asmOne "LDS.f32 v8, G[s4:s5+v2]").map (·.words) = .ok [0x102FF00904010F18] := by decide +kernel
theorem test_asm_errors : asmOne "FMIN.rz v1, v2, v3" = .error 112 ∧ asmOne "IADD v64, v1, v2" = .error 107
    ∧ asmOne "IADD.i64 v1, v2, v4" = .error 106 ∧ asmOne "RFT s1, s2" = .error 111 ∧ asmOne "ST.32 Q[v1], v2" = .error 116
    ∧ asmOne "IADD v1, 0x1FF, 0x200" = .error 108 := by decide +kernel

/-- An expression's integer value. -/
def asmVal (t : String) : Except Nat W64 := match exprOf t.toList with
  | some e => constExpr (fun _ => none) e
  | none => .error 0
theorem test_asm_expr : asmVal "-7/2" = .ok (-3) ∧ asmVal "-7%3" = .ok (-1) ∧ asmVal "1|2^3&1<<1+1*2" = .ok 3
    ∧ asmVal "-1>>4" = .ok (-1) ∧ asmVal "0x1_F" = .ok 31 ∧ asmVal "1<<64" = .error 118 ∧ asmVal "1/0" = .error 118 := by
  decide +kernel
theorem test_asm_macro : expandPct 7 [("m".toList, "0xFF".toList), ("mh".toList, "v1".toList)] 40 "%mh %(m)h %% %n".toList
    = .ok "v1 0xFFh % 7".toList ∧ expandPct 7 [] 9 "%x".toList = .error 401 := by decide +kernel

/-- The worked layout's source, with the eighth line and what stands before it given. -/
def scale5 (l8 : List String) : List Text :=
  ([" .text", " .kernel scale5", " .width 32", " .vregs 16", " .team 4", "start: LD.32 v3, G[v2]", " IMUL.i32.NW _, v3, 5"]
    ++ l8 ++ [" PFX.L 0x0000_00FF // 9", " ST.32 G[v2], v4", " CALL fn", " IADD.i32 v2, v2, 4", " EXIT", "fn: MOV v5, 0",
      "  || RET", " .end"]).map (·.toList)
def asmSrc (src : List Text) : AObj := assemble 60 {} [] [] src
theorem test_asm_layout : (asmSrc (scale5 [" IADD.i32 v4, L0, 1"])).diags = []
    ∧ (asmSrc (scale5 [" IADD.i32 v4, L0, 1"])).lines.map (fun l => l.1 % 2 ^ 9) = [0x001, 0x10A] := by decide +kernel
theorem test_asm_chain : (asmSrc (scale5 [" IADD.i32 v4, L1, 1"])).diags.map (·.num) = [201] := by decide +kernel

/-- The fan-out kernel of chapter 08. -/
def fan : List Text :=
  [" .text", " .kernel fan", " .width 16", " .vregs 16", " .spawnable child", " LANEID v4", " IADD.i32 v5, v4, 100",
   " ICMP.lt.n32 p1, v4, 10", " p1? SPAWN child, v4, 2", " EXIT", "child: IADD.i32 v6, v0, v1", " EXIT", " .launch fanout",
   " kind grid", " program fan", " teams 3", " gathertimeout 2", " .endl", " .end"].map (·.toList)
theorem test_asm_fan : (asmSrc fan).diags = [] ∧ ((asmSrc fan).lines.map (fun l => (slotWord l.1 3 % 2 ^ 64, slotWord l.1 4))).head?
    = some (0x1E0, 0x41 * 2 ^ 64 + 0x00AFF012FE5FE380) ∧ (asmSrc fan).relocs.map (fun r => (r.off, r.kind)) = [(40, 2), (448, 4)] := by
  decide +kernel
theorem test_asm_desc : ((asmSrc fan).descs.filterMap (fun d => match d with | .launch _ b _ => some (b.take 16) | _ => none))
    = [leBytes 8 0x0010000100020000 ++ leBytes 8 0x0014000000000003] := by
  decide +kernel
/-- A run of `ilas` on one source `a.ils`. -/
def asmRun (args : List String) (src : List String) (locked : List Text) : ARun :=
  ilas 60 args [("a.ils".toList, src.map (·.toList))] locked
theorem test_ilas_status : (asmRun ["a.ils"] [] []).status = 0 ∧ (asmRun ["--bogus", "a.ils"] [] []).status = 2
    ∧ (asmRun ["a.ils"] [] ["a.ilo".toList]).status = 2 ∧ (asmRun ["b.ils"] [] []).status = 2
    ∧ (asmRun ["a.ils"] [" .if 1"] []).status = 1 ∧ (asmRun ["a.ils"] [" .if 1"] []).objects = []
    ∧ (asmRun ["a.ils"] [" .if 1"] []).err.length = 1 := by decide +kernel
/-- A directive takes a constant defined after it, a sum may follow a hex digit E, and an unused `.equ` is checked all the same. -/
theorem test_asm_const : asmVal "0x1E+5" = .ok 35 ∧ asmVal "0xFFFE-1" = .ok 0xFFFD
    ∧ (asmRun ["a.ils"] [" .text", " .kernel k", " .width 32", " .vregs cnt", " EXIT", " .equ cnt, 32", " .end"] []).status = 0
    ∧ (asmRun ["a.ils"] [" .equ cnt, nowhere", " .end"] []).status = 1 := by decide +kernel

/-! ## More cases of the statements: each at a state that meets its clause -/

/-- A tailor beside slot 0's claimed request, whose context 3 is saved: its group is in the image with the reply barrier of its slot. -/
def taway : State :=
  { withGroups [{ tl with kind := .tailor, segS := ⟨[0], 0x80000, reservedBase 0 + 0x1100, 0x440⟩ }] with
    mbx := [⟨42, 0, 0, 7, 3, true, false⟩]
    ctxs := [Ctx.firmware, { tc3 .saved with
      image := some { (default : Image) with groups := [{ tg with uid := 42, ctx := 3 }], scr := memPut [] (replyBar 0 0) (barBytes tbar) } }] }
theorem test_hyp_away : awayScr taway (g0 taway) (replyBar 0 0) = some (some 3, replyBar 0 0) ∧ Memory.wf (imageScr taway 3) = true
    ∧ barIn (imageScr taway 3) (replyBar 0 0) = tbar ∧ taway.ok = true ∧ outstanding taway (g0 taway) false = false
    ∧ segAddr (g0 taway).segS 0 = replyBar 0 0 ∧ segAddr (g0 taway).segS 0x20 = replyBar 0 2 ∧ awayScr taway (g0 taway) (replyBar 0 2) = none
    ∧ raceAt taway (g0 taway) (replyBar 0 0) 4 = none := by decide +kernel
/-- The tailor's reply: its arrival completes the phase in the image, its store lands in the image's bytes (R174). -/
theorem test_away :
    runs (exec (.arrive (xB 0 .zero 0 (.imm 2) .zero)) taway) (fun t =>
      barIn (imageScr t 3) (replyBar 0 0) = { tbar with phase := 4 } && t.scr = taway.scr) = true
    ∧ runs (exec (.st .b32 (w3 1 .zero .zero .zero (.v 5))) taway) (fun t => memVal (imageScr t 3) (replyBar 0 0) 4 = 0x89ABCDEF && t.scr = taway.scr) = true := by
  decide +kernel

/-- The keys of the slots a row of 0x10000 may take. -/
def rk (i : Nat) : Nat := rowKey 0 (subarray (stackOff 0x10000)) i
/-- The row of 0x10000 is promoted in slot 20: clean or dirty, pinned, or with work in progress. -/
def trow (dirty pin busy : Bool) : State :=
  { tqu with groups := [wrS { tg with em := 1 } 8 0x10000], rows := [(rk 20, ⟨65, dirty, pin, busy, false, 9, none, []⟩)] }
/-- Another row is asked for where all slots hold rows, and the oldest is dirty. -/
def tfull : State :=
  { tqu with groups := [wrS { tg with em := 1 } 8 0x10000]
             rows := (List.range 32).map (fun i => (rk i, ⟨200 + i, i = 20, false, false, false, if i = 20 then 0xFFFF else 0, none, []⟩)) }
def onRow (i : InsWord → Instr) (s : State) (p : RowSlot → Bool) : Bool :=
  runs (exec (i (w3 0 (.s 12) (.s 8) (.imm 1) .zero)) s) (fun t => p (rowGet t (rk 20)))
theorem test_hyp_row_slots : rowSlotOf (trow true false false) 0 (stackOff 0x10000) = some (rk 20) ∧ rowSlotOf tfull 0 (stackOff 0x10000) = none
    ∧ victimSlot tfull 0 (stackOff 0x10000) 0 = some (rk 20)
    ∧ (rowGet tfull (rk 20)).dirty = true ∧ SMap.wf default tfull.rows = true := by decide +kernel
theorem test_row_slots :
    onRow (.rowPin true) (trow false false true) (fun r => r.held.map (fun q => q.cmd) = [.pin] && !r.pin) = true
    ∧ onRow (.rowDem true) (trow true false true) (fun r => r.held.map (fun q => q.cmd) = [.dem] && !r.writingBack) = true
    ∧ onRow (.rowProm true) (trow false false false) (fun r => r.epoch = 0 && r.row = 65) = true
    ∧ onRow (.rowPin true) (trow false false false) (fun r => r.epoch = 9 && r.pin) = true
    ∧ onRow (.rowUnpin true) (trow false true false) (fun r => !r.pin) = true
    ∧ onRow (.rowDem true) (trow true true false) (fun r => r.dirty && r.row = 65) = true
    ∧ onRow (.rowDem true) (trow false false false) (fun r => r = default) = true
    ∧ onRow (.rowDem true) (trow true false false) (fun r => r.writingBack && r.next = none) = true
    ∧ onRow (.rowPin true) tfull (fun r => r.writingBack && r.next = some (65, true)) = true
    ∧ runs (exec .rowWritebackDone { trow true false true with
        rows := [(rk 20, ⟨65, true, false, true, true, 9, some (70, true), []⟩)], arg := { stack := 0, addr := rk 20 } }) (fun t =>
          let r := rowGet t (rk 20); r.row = 70 && r.pin && r.busy && !r.writingBack) = true := by decide +kernel

/-- An arrival and a message to the own device, and an access sent again over its route and to the own device (R415). -/
theorem test_link_own : lnk (.lnkArr true) 0x40 3 (fun t => t.xacts.map (fun x => (x.dst, x.kind, x.vc)) = [(0, 8, tg.vc)]
      && t.agenda.map (fun e => (e.1, e.2.tag)) = t.xacts.map (fun x => (.linkRxArrival, x.tag))) = true
    ∧ lnk (.lnkMsg true) 0x18000 0 (fun t => t.xacts.map (fun x => (x.dst, x.kind)) = [(0, 9)] && (t.agenda.map (fun e => e.1)).contains .linkRxMessage) = true
    ∧ runs (exec .linkRetryResend { tlnk 0 0 with xacts := [{ txact false with retry := true }], arg := { tag := 9 } }) (fun t =>
        t.xacts = [txact false] && t.out.length = 1) = true
    ∧ runs (exec .linkRetryResend { tlnk 0 0 with xacts := [{ txact false with retry := true, dst := 0, kind := 8, payload := leBytes 8 0x40 ++ leBytes 2 3 }], arg := { tag := 9 } }) (fun t => t.agenda.map (fun e => (e.1, e.2.val, e.2.word)) = [(.linkRxArrival, 0x40, 3)]) = true
    ∧ runs (exec .linkRxWriteResponse { tlnk 0 0 with xacts := [txact false], arg := { tag := 9, status := .retry } }) (fun t =>
        t.xacts.map (fun x => x.retry) = [true]) = true := by decide +kernel
/-- Partition 0's link context is 3: out of the banks, its arrivals are parked for it, 256 of them at most (R247); in them, they count. -/
def tpark (st : CtxState) (n : Nat) : State :=
  let s := regPut { tin { val := 0x40, word := 1 } with
    ctxs := [Ctx.firmware, tc3 st], parts := updAt State.reset.parts 0 (fun p => { p with parked := List.replicate n ⟨3, [], 0x40, 1⟩ })
    scr := memPut [] 0x40 (barBytes { tbar with remote := true }) } (regPart 0 0xD8) 3
  updCtx s 3 (fun c => { c with ncore := 1 })
theorem test_parked :
    runs (exec .linkRxArrival (tpark .saved 0)) (fun t => (partOf t 0).parked = [⟨3, [], 0x40, 1⟩] && t.out = [.response 0 7 5 0 .accepted []]) = true
    ∧ runs (exec .linkRxArrival (tpark .saved 256)) (fun t => (partOf t 0).parked.length = 256 && t.out = [.response 0 7 5 0 .retry []]) = true
    ∧ runs (exec .linkRxArrival (tpark .dead 255)) (fun t => (partOf t 0).parked.length = 256) = true
    ∧ runs (exec .linkRxArrival (regPut (tpark .saved 0) (regPart 0 0xD8) 0)) (fun t => t.out = [.response 0 7 5 0 .error []]) = true
    ∧ runs (exec .linkRxArrival (tpark .active 0)) (fun t => (barAt t 0x40).penda = 1 && t.out = [.response 0 7 5 0 .accepted []]) = true := by
  decide +kernel
/-- A host's read of a register it may not reach answers zero (R335). -/
theorem test_bar0_read :
    runs (exec .pcieBar0Write { ts with arg := { kind := 1, addr := regPlat 0x28 - 0x1F000000000, len := 4 } }) (fun t =>
      t.out = [.pcieReply 0 true (if hostReaches ts 0 (regPlat 0x28) then leBytes 4 (regLoad ts (regPlat 0x28) 4) else leBytes 4 0)]) = true := by decide +kernel

/-- Cuffs of 0 are corrupt (R36): member 0's, in lane 0's first odd register of A, is named: the register in FADDR, the lane in LANES
(log entry 45). -/
theorem test_quad_cuff : (quadMember (tquads (fun _ => .mma .sb4 xMma)) 7 0 0).bind (fun g => badCuff g (.mma .sb4 xMma)) = some (0, 17)
    ∧ runs (exec .quadRendezvous (tquads (fun _ => .mma .sb4 xMma))) (fun t => t.arrays = [] && (ctxOf t 0).any (fun c =>
        c.faults.map (fun f => (f.slot, f.faddr, f.lanes)) = [(0, 17, 1)])) = true := by decide +kernel
/-- `ACCMV` at an offset that is no multiple of 16 faults, also where no lane is active (R322). -/
theorem test_accmv_check :
    runs (exec (.accmvRd (w3 1 (.v 32) .zero (.lit) .zero |> fun x => { x with lit := 8 })) { ttile with groups := [{ tw with em := 0 }] }) (fun t =>
      (ctxOf t 0).any (fun c => c.faults.map (fun f => f.reason) = [7])) = true := by decide +kernel

/-- The step's other cases: a held group looks again; every 64th step is another unit's turn, and every 64th the longest waiting group's. -/
def tturn (n : Nat) : State := { State.reset.withFetchWord 96 tword with turn := n, agenda := [(.epochTick, { stack := 3 })] }
theorem test_turns : (due (tturn 0)).agenda ≠ [] ∧ longestWait ((picks (due (tturn 32))).filter (fun g => g.st = .ready)) = some (g0 (tturn 32))
    ∧ runs (step (tturn 0)) (fun t => SMap.get 0 t.stEpoch 3 = 1 && (g0 t).pc = 0x10000) = true
    ∧ runs (step (tturn 32)) (fun t => SMap.get 0 t.stEpoch 3 = 0 && (g0 t).pc = 0x10001) = true := by decide +kernel
/-- A STALLED group whose instruction can issue again is READY, and issues at its next pick (R158). -/
def tstall : State :=
  let s := State.reset.withFetchWord 96 tword
  { s with groups := s.groups.map (fun g => { g with st := .stalled }) }
theorem test_stalled : picks (due tstall) = [g0 tstall] ∧ (due tstall).agenda = [] ∧ (g0 tstall).st = .stalled
    ∧ runs (issueGroup exec (due tstall) (g0 tstall)) (fun t => !stillHeld t (g0 tstall)) = true
    ∧ runs (step tstall) (fun t => (g0 t).st = .ready && (g0 t).pc = 0x10000) = true := by decide +kernel
/-- A transfer landed on an unreadable line; once it reads, slot 1 of a line with no ENTRY bit there is no entry (R55). -/
def tland : State :=
  let s := tline (1 + 2 ^ 32 * tword)
  { s with groups := s.groups.map (fun g => { g with pc := 0x10001, land := some 0x10010 }) }
theorem test_landed : landBad (g0 tland) (1 + 2 ^ 32 * tword) 1 = some 0x10010
    ∧ runs (step tland) (fun t => (ctxOf t (g0 tland).ctx).any (fun c => c.faults.map (fun f => (f.reason, f.detail, f.pc)) = [(8, 5, 0x10010)])) = true := by
  decide +kernel
/-- A boot block that cannot be read starts no tailor. -/
theorem test_tailor_none : runs (exec .tailorStart { ttail with mem := [], arg := { core := 2 } }) (fun t => t.groups = []) = true := by decide +kernel

/-! ## The checks of memory accesses, and what an access outside the part starts -/

/-- The records of context 0: reason, FADDR and LANES. -/
def faultsOf (t : State) : List (Nat × Nat × Nat) :=
  (ctxOf t 0).toList.flatMap (fun c => c.faults.map (fun f => (f.reason, f.faddr.toNat, f.lanes.toNat)))
def faultIs (i : Instr) (s : State) (r : Nat × Nat × Nat) : Bool := runs (exec i s) (fun t => faultsOf t = [r])
/-- Lanes 0 and 1 with an offset each in v1, P and Q segments of lane 0 and 1 that differ, C at 0x10000. -/
def gtwo (a b : Nat) : Group :=
  { wrS (wrV (wrV tg 1 0 a) 1 1 b) 8 a with
    em := 3, pB := SMap.put 0 [] 0 0x10000, pL := SMap.put 0 [] 0 0x100, qB := SMap.put 0 (SMap.put 0 [] 0 (2 ^ 56 - 4)) 1 0x10000
    qL := SMap.put 0 (SMap.put 0 [] 0 0x100) 1 0x100, cbase := 0x10000, clim := 8 }
def two (leaf : W64) (a b : Nat) : State := { withGroups [gtwo a b] with mem := tm.mem, tlb := [⟨0, 0, 0x10000, 0, leaf, []⟩] }
def atSeg (n : BitVec 10) : InsWord := w3 n (.v 6) (.v 1) .zero (.v 5)
/-- `LaneChecks`: misaligned lanes; G, C and Q out of range and past 2^56; the header of a pocket; a read-only page, an atomic on a host
page, 16 bytes of one; and the order of the checks. -/
theorem test_lane_checks :
    faultIs (.ld .b32 (atSeg 1)) (two 0x10063 0x20 0x22) (7, 0x22, 2) = true
    ∧ faultIs (.ldAcq .b32 (atSeg 1)) (two 0x10063 0x20 0x22) (7, 0x22, 2) = true
    ∧ faultIs (.st .b16 (w3 1 .zero (.v 1) .zero (.v 5))) (two 0x10063 0x21 0x22) (7, 0x21, 1) = true
    ∧ faultIs (.ldc .b32 (w3 5 (.s 6) (.s 8) .zero .zero)) (two 0x10063 8 0) (2, 8, 1) = true
    ∧ faultIs (.ld .b64 (w3 0 (.v 6) (.s 8) (.imm 0xFF) .zero)) { two 0x10063 0 0 with groups := [wrS (gtwo 0 0) 9 0x1000000] } (2, 2 ^ 56 + 2 ^ 32 - 1, 1) = true
    ∧ faultIs (.ld .b32 (atSeg 4)) (two 0x10063 4 0x40) (2, 2 ^ 56, 1) = true
    ∧ faultIs (.st .b32 (w3 3 .zero (.v 1) .zero (.v 5))) { two 0x10063 28 0x40 with groups := [{ gtwo 28 0x40 with em := 1 }] } (2, 0x1001C, 1) = true
    ∧ faultIs (.st .b32 (w3 4 .zero (.v 1) .zero (.v 5))) { two 0x10043 0 0x40 with groups := [{ gtwo 0 0x40 with em := 2 }] } (2, 0x10040, 2) = true
    ∧ faultIs (.atomAdd false (w3 0 (.v 6) (.s 8) .zero (.v 5))) { two 0x1006B 0x10040 0 with groups := [{ gtwo 0x10040 0 with em := 1 }] } (2, 0x10040, 1) = true
    ∧ faultIs (.ld .b128 (w3 0 (.v 8) (.s 8) .zero .zero)) (two 0x1006B 0x10040 0) (2, 0x10040, 1) = true
    ∧ faultIs (.ld .b32 (w3 0 (.v 6) (.s 8) .zero .zero)) { two 0x1006B 0x10041 0 with groups := [{ gtwo 0x10041 0 with iss := { (default : Issue) with reader := true } }] }
        (8, 0x10041, 1) = true
    ∧ faultIs (.ld .b32 (atSeg 4)) (two 0x1006B 0x80 0x42) (2, 2 ^ 56 + 0x7C, 1) = true := by decide +kernel
/-- Lanes out of range of S, N and P are switched off, and the others' misalignment is no fault of theirs; the premises of the clauses. -/
theorem test_lanes_off :
    runs (exec (.ld .b32 (atSeg 1)) (two 0x10063 0xFFD 0x2000)) (fun t => (g0 t).live = 0xFFFC && (g0 t).em = 0 && (g0 t).lfault = 3 && faultsOf t = []) = true
    ∧ runs (exec (.st .b32 (w3 3 .zero (.v 1) .zero (.v 5))) (two 0x10063 0x100 0)) (fun t => (g0 t).lfault = 3 && t.mem = tm.mem) = true
    ∧ (match plainEnt (two 0x10043 0 0x40) (gBuf (gtwo 0 0x40)) 0 0x10040 with | .ok e => decide (e = ⟨0, 0, 0x10000, 0, 0x10043, []⟩) | .error _ => false) = true
    ∧ active (gtwo 0 0x40) (atSeg 4) = [0, 1] ∧ (gtwo 0 0x40).iss.reader = false := by decide +kernel

/-- A page of a leaf at 0x10000; port 0 is up for hosts and port 1 for CXL; device 5 by port 1, device 6 by none. -/
def txt (leaf : W64) : State :=
  let s := { tlnk 0x10000 0 with tlb := [⟨0, 0, 0x10000, 0, leaf, []⟩] }
  let t := regPut (regPut (regPut s (regPcie 0 0x10) 0x200) (regPcie 1 8) 0x300000000) (regPcie 1 0) 0x7000000
  { t with groups := t.groups.map (fun g => wrV g 5 0 0xABCD), cxl := 2 }
def xT (c : Opd) : InsWord := w3 0 (.v 6) (.s 8) .zero c
def lHost : W64 := 0x1006B
def lPeer : W64 := 0x18000000063
def lCxl : W64 := 0x16000000063
def lDev (k d : Nat) : W64 := BitVec.ofNat 64 (0x10063 + 4 * k + d * 2 ^ 41)
/-- The premises of LaneOut at a leaf, for an access. -/
def outAt (leaf : W64) (write : Bool) (acc : Acc) (e : Ext) : Bool :=
  let s := txt leaf
  let g := g0 s
  decide (headerCheck (xT .zero) write (offOf g (xT .zero) 0) (placeIn g 0 (offOf g (xT .zero) 0) 4 0) = .va 0x10000) && decide (active g (xT .zero) = [0])
    && (match resolve s (gBuf g) 0 0x10000 acc with | .ok (_, loc) => decide (extOf loc = some e) && mayStart s g 4 e | .error _ => false)
theorem test_hyp_lane_out :
    outAt lHost false (.ld 4) ⟨some 0, none, false, false, 0x10000, true⟩ = true ∧ outAt lHost true (.st 4) ⟨some 0, none, false, false, 0x10000, true⟩ = true
    ∧ outAt lPeer true (.st 4) ⟨some 0, none, false, true, 0, true⟩ = true ∧ outAt lCxl false (.ld 4) ⟨some 1, none, true, false, 0x7000000, true⟩ = true
    ∧ outAt (lDev 0 5) false (.ld 4) ⟨none, some 5, false, false, 0x10000, false⟩ = true
    ∧ outAt (lDev 1 5) true (.st 4) ⟨none, some 5, false, false, 0x10000, true⟩ = true
    ∧ outAt (lDev 0 6) false .atom ⟨none, some 6, false, false, 0x10000, false⟩ = true
    ∧ extUp (txt lHost) ⟨some 0, none, false, false, 0x10000, true⟩ = true ∧ extUp (txt lCxl) ⟨some 1, none, true, false, 0, true⟩ = true
    ∧ extUp (regPut (txt lHost) (regPcie 0 0x10) 0) ⟨some 0, none, false, false, 0x10000, true⟩ = false
    ∧ routeOf (txt lHost) 5 = some 1 ∧ routeOf (txt lHost) 6 = none := by decide +kernel
def starts (leaf : W64) (i : Instr) (p : State → Bool) : Bool := runs (exec i (txt leaf)) p
/-- Loads: a host's holds the group, a CXL window's too, a device's does not, an acquire of it does; without a route, with a port
down, and with a load of the line in flight. -/
theorem test_load_starts :
    starts lHost (.ld .b32 (xT .zero)) (fun t => (g0 t).loads.map (fun p => (p.blocking, p.port, p.addrs, p.vas)) = [(true, some 0, [0x10000], [0x10000])]
        && t.out = [.hostRead 0 0x10000 4] && (g0 t).wait = .ext [9] && (g0 t).pc = 0x10000) = true
    ∧ starts lCxl (.ldc .b64 (w3 0 (.s 6) (.s 8) .zero .zero)) (fun t => t.out = [.busRead 1 0x7000000 8] && (g0 t).wait = .ext [9]) = true
    ∧ starts (lDev 0 5) (.ld .i16 (xT .zero)) (fun t => (g0 t).pc = 0x10001 && t.out = [.flit 1 5 1 9 false 0x10000 [2, 0]]
        && t.xacts.map (fun x => (x.dst, x.port, x.kind, x.load)) = [(5, 1, 1, true)]) = true
    ∧ starts (lDev 0 5) (.ldAcq .b32 (xT .zero)) (fun t => (g0 t).wait = .ext [9] && (g0 t).loads.map (fun p => p.acq) = [some 0]) = true
    ∧ starts (lDev 0 6) (.ld .b32 (xT .zero)) (fun t => faultsOf t = [(6, 0x10000, 0)] && (g0 t).pc = 0x10001) = true
    ∧ faultIs (.ld .b32 (xT .zero)) (regPut (txt lHost) (regPcie 0 0x10) 0) (6, 0x10000, 1) = true
    ∧ runs (exec (.ld .b32 (xT .zero)) { txt lHost with groups := (txt lHost).groups.map (fun g => { g with loads := [{ tload with addrs := [0x10020] }] }) })
        (fun t => (g0 t).st = .stalled && (g0 t).loads.length = 1 && t.out = []) = true := by decide +kernel
/-- Stores: to a host the group goes on, to a peer it is held; over the link kind 3, and kind 4 where the page blocks or the scope is `.sys`. -/
theorem test_store_starts :
    starts lHost (.st .b32 (xT (.v 5) |> fun x => { x with dst := .zero })) (fun t => t.posted.map (fun q => (q.tag, q.addr, q.data, q.peer)) = [(9, 0x10000, leBytes 4 0xABCD, false)]
        && t.out = [.hostWrite 0 0x10000 (leBytes 4 0xABCD)] && (g0 t).pc = 0x10001) = true
    ∧ starts lPeer (.st .b16 (xT (.v 5) |> fun x => { x with dst := .zero })) (fun t => (g0 t).wait = .ext [9] && t.out = [.busWrite 0 0 (leBytes 2 0xABCD)]) = true
    ∧ starts (lDev 0 5) (.st .b32 (xT (.v 5) |> fun x => { x with dst := .zero })) (fun t => t.out = [.flit 1 5 3 9 false 0x10000 (leBytes 4 0xABCD)] && (g0 t).pc = 0x10001) = true
    ∧ starts (lDev 1 5) (.st .b32 (xT (.v 5) |> fun x => { x with dst := .zero })) (fun t => t.xacts.map (fun x => (x.kind, x.ord)) = [(4, false)] && (g0 t).wait = .ext [9]) = true
    ∧ starts (lDev 0 5) (.stRel .b32 (xT (.v 5) |> fun x => { x with dst := .zero, mod := 0xC0 })) (fun t => t.xacts.map (fun x => (x.kind, x.ord)) = [(4, true)]) = true
    ∧ starts (lDev 0 6) (.st .b32 (xT (.v 5) |> fun x => { x with dst := .zero })) (fun t => faultsOf t = [(6, 0x10000, 0)] && t.xacts = []) = true
    ∧ outstanding (txt lHost) (g0 (txt lHost)) true = false := by decide +kernel
/-- Atomics: a request of kind 6 whose answer the load waits for; a reduction waits for none. -/
theorem test_atomic_starts :
    starts (lDev 0 5) (.atomAdd false (xT (.v 5))) (fun t => t.xacts.map (fun x => (x.kind, x.load)) = [(6, true)]
        && t.out = [.flit 1 5 6 9 false 0x10000 ([0, 4, 0, 0] ++ leBytes 8 0xABCD ++ leBytes 8 0)] && (g0 t).pc = 0x10001) = true
    ∧ starts (lDev 0 5) (.atomCas true (xT (.v 4) |> fun x => { x with mod := 0x20 })) (fun t => (g0 t).wait = .ext [9]) = true
    ∧ starts (lDev 0 5) (.redXor false (xT (.v 5) |> fun x => { x with dst := .zero })) (fun t => (g0 t).loads = [] && t.xacts.map (fun x => x.kind) = [6]) = true
    ∧ starts (lDev 0 6) (.redXor false (xT (.v 5) |> fun x => { x with dst := .zero })) (fun t => faultsOf t = [(6, 0x10000, 0)]) = true := by decide +kernel

/-! ## More premises: barriers with waiters, mapping, rows, link and launches -/

/-- A second group waits on a barrier beside the one that executes: `BINV` and `BINIT` release it, or not (R238, R243). -/
def twait2 (a : Nat) (ph : BitVec 16) : State := { tb with groups := [tg, { tg with uid := 2, slot := 1, st := .waiting, wait := .phase a ph, pc := 0x20000 }] }
def g1 (t : State) : Group := (groupAt t 0 1).getD default
theorem test_hyp_two_groups : curGroup (twait2 0x40 3) = some tg ∧ ctxRuns (twait2 0x40 3) 0 = true ∧ tg.st = .ready
    ∧ (twait2 0x40 3).ok = true ∧ (twait2 0x40 3).jobs = [] ∧ (barAt (twait2 0x20 0) 0x20).valid = false := by decide +kernel
theorem test_releases :
    runs (exec (.binv (xB 0 .zero 0x40 .zero .zero)) (twait2 0x40 3)) (fun t => (g1 t).st = .ready && (g1 t).pc = 0x20001) = true
    ∧ runs (exec (.binv (xB 0 .zero 0x20 .zero .zero)) (twait2 0x20 0)) (fun t => g1 t = g1 (twait2 0x20 0)) = true
    ∧ runs (exec (.binit (xB 0 .zero 0x40 (.imm 1) .zero)) (twait2 0x40 3)) (fun t => (g1 t).st = .ready && (g1 t).wait = .none) = true
    ∧ runs (exec (.binit (xB 0 .zero 0x40 (.imm 1) .zero)) (twait2 0x40 4)) (fun t => g1 t = g1 (twait2 0x40 4)) = true
    ∧ runs (exec (.binit (xB 0 .zero 0x20 (.imm 1) .zero)) (twait2 0x20 0)) (fun t => g1 t = g1 (twait2 0x20 0)) = true
    ∧ runs (exec (.expect (xB 8 .zero 0x40 (.imm 3) .zero)) { twait2 0x40 3 with scr := memPut [] 0x40 (barBytes { tbar with penda := 0 }) }) (fun t =>
        barAt t 0x40 = { tbar with phase := 4, penda := 2, pendb := 3, expb := 3 } && (g1 t).st = .ready) = true := by decide +kernel

/-- `QCBLD` of a QCB at an address, with what its period, budget, use and deadline are, at a time. -/
def tld (per bud used dl now : Nat) : State :=
  { tqu with clock := BitVec.ofNat 64 now
             mem := memPut (memPut (memPut tqu.mem 0x18120 (leBytes 4 per ++ leBytes 4 bud)) 0x18128 (leBytes 8 used ++ leBytes 8 7)) 0x18138 (leBytes 8 dl) }
def qld (s : State) (p : HwSlot → Bool) : Bool := runs (exec (.qcbld (w3 0 (.s 10) (.s 8) (.imm 63) .zero)) s) (fun t => rdS (g0 t) 10 = 0 && p (slotAt t 63))
/-- A period that has not ended keeps RELT, DEADL and USED, and throttles a used-up budget; one that has ended brings them up (R340). -/
theorem test_qcbld_period :
    qld (tld 10 2 2000 50 49) (fun k => k.thr && k.deadl = 50 && k.relt = 7 && k.used = 2000) = true
    ∧ qld (tld 10 2 1999 50 49) (fun k => !k.thr) = true
    ∧ qld (tld 10 2 2000 50 50) (fun k => !k.thr && k.relt = 50 && k.deadl = 10550 && k.used = 0) = true
    ∧ qld (tld 10 2 2000 50 10550) (fun k => k.relt = 10550 && k.deadl = 21050) = true
    ∧ qld (tld 10 2 2000 0 99) (fun k => k.relt = 99 && k.deadl = 10599) = true
    ∧ qld (tld 0 2 2000 50 99) (fun k => !k.thr && k.deadl = BitVec.allOnes 64 && k.relt = 7 && k.used = 2000) = true := by decide +kernel
/-- Its faults: an address past 2^56, an unmapped one, rows no longer backed, a line that fails, and a page of another kind (R228, R340). -/
theorem test_qcbld_faults :
    faultIs (.qcbld (w3 0 (.s 10) (.s 8) (.imm 63) .zero)) { tqu with groups := [wrS tgq 9 0x1000000] } (2, 2 ^ 56 + 0x18100, 0) = true
    ∧ runs (exec (.qcbld (w3 0 (.s 10) (.s 8) (.imm 63) .zero)) { tqu with mem := memPut tqu.mem 0x6008 (leBytes 8 0) }) (fun t => (faultsOf t).length = 1 && !(slotAt t 63).map) = true
    ∧ faultIs (.qcbld (w3 0 (.s 10) (.s 8) (.imm 63) .zero)) { tqu with tlb := [⟨0, 0, 0x10000, 0, 0xF000000063, []⟩] } (3, 0x18100, 0) = true
    ∧ faultIs (.qcbld (w3 0 (.s 10) (.s 8) (.imm 63) .zero)) { tqu with bad := [0x604] } (5, 0x18100, 0) = true
    ∧ runs (exec (.qcbld (w3 0 (.s 10) (.s 8) (.imm 63) .zero)) { tqu with tlb := [⟨0, 0, 0x10000, 0, lHost, []⟩] }) (fun t => rdS (g0 t) 10 = 3) = true
    ∧ runs (exec (.qcbld (w3 0 (.s 10) (.s 8) (.imm 63) .zero)) { tqu with mem := memPut tqu.mem 0x1810C [5] }) (fun t => rdS (g0 t) 10 = 2) = true := by decide +kernel

/-- Two rows at 0x10000 and 0x10400 pinned at once; 64 rows; rows over the end of a 64 KiB block; and one outside the slow class. -/
theorem test_many_rows :
    row 0x10000 (.rowPin true) 2 (fun t => (t.rows.map (fun r => (r.2.row, r.2.pin, r.2.busy))).contains (65, true, true)
      && (t.rows.map (fun r => r.2.row)).contains 66 && t.rows.length = 2) = true
    ∧ row 0x10000 (.rowProm true) 64 (fun t => rdS (g0 t) 12 = 0x100 && t.rows.length = 64) = true
    ∧ row 0x1FC00 (.rowProm true) 2 (fun t => rdS (g0 t) 12 = 0x80000001) = true
    ∧ oneBlock 0x10000 (1024 * 64) = true ∧ oneBlock 0x1FC00 (1024 * 2) = false := by decide +kernel

/-- Device 5's window of 16 bytes holds a transaction of 8: no room for an arrival's 10 or a message's 64 (R431). -/
def tfullLnk (a b : Nat) : State := regPut { tlnk a b with xacts := [{ txact false with dst := 5, guid := 0 }] } (regLink 8) 16
theorem test_link_hold : linkRoom (tfullLnk 0 0) 5 10 = false ∧ linkRoom (tfullLnk 0 0) 5 8 = true
    ∧ runs (exec (.lnkArr true (w3 0 (.s 12) (.s 8) (.s 10) .zero)) (tfullLnk (5 * 2 ^ 41 + 0x40) 1)) (fun t => (g0 t).st = .stalled && t.xacts.length = 1) = true
    ∧ runs (exec (.lnkMsg true (w3 0 (.s 12) (.s 8) (.s 10) .zero)) (tfullLnk 0x18000 5)) (fun t => (g0 t).st = .stalled) = true
    ∧ faultIs (.lnkMsg true (w3 0 (.s 12) (.s 8) (.s 10) .zero)) (tlnk (2 ^ 56 + 0x18000) 5) (2, 2 ^ 56 + 0x18000, 0) = true
    ∧ runs (exec (.lnkMsg true (w3 0 (.s 12) (.s 8) (.s 10) .zero)) (tlnk 0x28000 5)) (fun t => (faultsOf t).length = 1) = true
    ∧ (match agentRead (tlnk 0 0) 0 0 0x28000 64 with | .ok _ => false | .error _ => true) = true := by decide +kernel

/-- A LAUNCH packet whose descriptor lies at 0x18400: its kind, teams, rectangle and extension; a stream's extension at 0x18500, of time
windows of 10, its rings' control blocks at 0x11000 and 0x11040. Slot 3's queue may launch gangs. -/
def ldesc (kind teams w h ext : Nat) : List Byte :=
  leBytes 2 kind ++ leBytes 2 0 ++ leBytes 4 0x100001 ++ leBytes 4 teams ++ leBytes 1 w ++ leBytes 1 h ++ leBytes 2 0 ++ leBytes 8 0x10000 ++ leBytes 56 0
    ++ leBytes 8 ext ++ leBytes 40 0
def sext : List Byte :=
  leBytes 8 0x11000 ++ [0, 0, 0, 1] ++ leBytes 4 32 ++ leBytes 8 10 ++ leBytes 8 10 ++ leBytes 8 0 ++ leBytes 4 1 ++ leBytes 8 0 ++ leBytes 4 10
    ++ leBytes 8 0 ++ leBytes 8 0x10000 ++ leBytes 24 0 ++ leBytes 8 0x10100 ++ leBytes 24 0
def tlk (kind teams w h ext : Nat) : State :=
  let s := tpkt (leBytes 8 1 ++ leBytes 8 0x18400 ++ leBytes 48 0) 0
  { s with groups := []
           mem := memPut (memPut (memPut (memPut (memPut (memPut s.mem 0x18400 (ldesc kind teams w h ext)) 0x1800D [1]) 0x18500 sext)
             0x11000 (leBytes 8 0x12000 ++ leBytes 8 0x0103 ++ leBytes 4 7 ++ leBytes 4 5)) 0x10100 (leBytes 8 0x11040))
             0x11040 (leBytes 8 0x13000 ++ leBytes 8 3) }
def lsk (s : State) : State := noteQueue s (kickKey (slotAt s 3).part (slotAt s 3).qnum) (pktSees s (slotAt s 3) (headAddr s (slotAt s 3)) 64)
def lnew (s : State) (d : List Byte) : Launch := newLaunch (lsk s) 3 0x18400 d false
def ltaken (s : State) (l : Launch) : State :=
  { pktTouch (lsk s) (slotAt s 3) 0x18400 128 with launches := s.launches ++ [l], nextHandle := s.nextHandle + 1 }
def lready (s : State) (d : List Byte) : Bool :=
  startable s 0 = [3] && headPkt s (slotAt s 3) = some (leBytes 8 1 ++ leBytes 8 0x18400 ++ leBytes 48 0)
    && packetBad s (slotAt s 3) (leBytes 8 1 ++ leBytes 8 0x18400 ++ leBytes 48 0) = none
    && (match headBytes s (slotAt s 3), pktRead s (slotAt s 3) 0x18400 128 8 with | .ok b, .ok e => decide (fld b 0 1 = 1 ∧ e = d) | _, _ => false)
    && launchBad (lsk s) (lnew s d) = none && s.launches.length = 0 && (slotAt s 3).part = 0
theorem test_hyp_launches : lready (tlk 2 1 0 0 0) (ldesc 2 1 0 0 0) = true ∧ lready (tlk 1 2 1 2 0) (ldesc 1 2 1 2 0) = true
    ∧ lready (tlk 3 0 0 0 0x18500) (ldesc 3 0 0 0 0x18500) = true ∧ lready (tlk 3 0 0 0 0x18580) (ldesc 3 0 0 0 0x18580) = true
    ∧ lKind (lnew (tlk 2 1 0 0 0) (ldesc 2 1 0 0 0)) = 2 ∧ lKind (lnew (tlk 1 2 1 2 0) (ldesc 1 2 1 2 0)) = 1
    ∧ launchBad (lsk (tlk 1 3 1 2 0)) (lnew (tlk 1 3 1 2 0) (ldesc 1 3 1 2 0)) = some 8 := by decide +kernel
theorem test_hyp_gang_admit : ∃ v, admitLaunch (ltaken (tlk 2 1 0 0 0) (lnew (tlk 2 1 0 0 0) (ldesc 2 1 0 0 0))) (lnew (tlk 2 1 0 0 0) (ldesc 2 1 0 0 0)) [] = some v
    ∧ v.hwslots = (tlk 2 1 0 0 0).hwslots := by
  generalize hs : ltaken (tlk 2 1 0 0 0) (lnew (tlk 2 1 0 0 0) (ldesc 2 1 0 0 0)) = u
  generalize hl : lnew (tlk 2 1 0 0 0) (ldesc 2 1 0 0 0) = l
  have hk : lKind l = 2 := by rw [← hl]; decide +kernel
  have ht : lTeams l = 1 := by rw [← hl]; decide +kernel
  have hn : nextTeam l = some 0 := by rw [← hl]; decide +kernel
  have hf : openFields u l = [0] := by rw [← hs, ← hl]; decide +kernel
  have hw : u.hwslots = (tlk 2 1 0 0 0).hwslots := by rw [← hs]; decide +kernel
  have ho : launchOf u l.lh = some l := by rw [← hs, ← hl]; simp [ltaken, launchOf, tlk, tpkt, tqu, withGroups, State.reset]
  obtain ⟨sp, h⟩ := choose_some u (spotsIn u l 0) (by rw [← hs, ← hl]; decide +kernel)
  refine ⟨placeTeam u l .gang 0 0 sp ⟨[], 0, 0, 0⟩, ?_, (placeTeam_hwslots ..).trans hw⟩
  unfold admitLaunch
  rw [hk]
  show admitGang (lTeams l) u l.lh = _
  rw [ht]
  unfold admitGang
  rw [ho, Option.bind_some]
  unfold admitOne
  rw [hn, hf, List.findSome?_cons, h]
  rfl
theorem test_hyp_nbh_admit : ∃ v, admitLaunch (ltaken (tlk 1 2 1 2 0) (lnew (tlk 1 2 1 2 0) (ldesc 1 2 1 2 0))) (lnew (tlk 1 2 1 2 0) (ldesc 1 2 1 2 0)) [] = some v
    ∧ v.hwslots = (tlk 1 2 1 2 0).hwslots := by
  generalize hs : ltaken (tlk 1 2 1 2 0) (lnew (tlk 1 2 1 2 0) (ldesc 1 2 1 2 0)) = u
  generalize hl : lnew (tlk 1 2 1 2 0) (ldesc 1 2 1 2 0) = l
  have hk : lKind l = 1 := by rw [← hl]; decide +kernel
  have hw : u.hwslots = (tlk 1 2 1 2 0).hwslots := by rw [← hs]; decide +kernel
  have hu : usableHint u l = none := by rw [← hs, ← hl]; decide +kernel
  have hf : ((List.range 384).findSome? (rectSpots u l (openFields u l))).isSome = true := by rw [← hs, ← hl]; decide +kernel
  obtain ⟨sps, h⟩ := Option.isSome_iff_exists.1 hf
  unfold admitLaunch admitNbh
  rw [hk]
  simp only [hu, h]
  refine ⟨_, rfl, ?_⟩
  refine (foldl_keeps (fun t : State => t.hwslots = u.hwslots) _ (fun t p ht => ?_) _ _ rfl).trans hw
  split
  · exact (placeTeam_hwslots ..).trans ht
  · exact ht
/-- The two streams: their extensions read; one is sound, and its ring's RIDX is 5. -/
theorem test_stream_taken :
    (match streamBad (lsk (tlk 3 0 0 0 0x18500)) (lnew (tlk 3 0 0 0 0x18500) (ldesc 3 0 0 0 0x18500)) with | .ok e => decide (e = sext) | .error _ => false) = true
    ∧ (match streamBad (lsk (tlk 3 0 0 0 0x18580)) (lnew (tlk 3 0 0 0 0x18580) (ldesc 3 0 0 0 0x18580)) with | .ok _ => false | .error e => decide (e = (3, 80))) = true
    ∧ runs (exec .packetLaunch (tlk 3 0 0 0 0x18500)) (fun t => t.streams.map (fun q => (q.next, q.seen, q.ext)) = [(5, 5, sext)] && (slotAt t 3).ridx = 1) = true
    ∧ runs (exec .packetLaunch (tlk 3 0 0 0 0x18580)) (fun t => t.streams = [] && (slotAt t 3).qst = 5) = true := by decide +kernel
/-- A pawn group faults at the pocket of a pawn that lies nowhere, and at the ring block of a stream that cannot be read (R362). -/
theorem test_pawn_faults :
    headerFault tgath (tlaunch 1) 0 { tpawn with arg := [7, 8] ++ List.replicate 6 0 ++ [0x30000, 0, 0, 0] } ≠ none
    ∧ (match ringSize { tgath with streams := [{ tstr with ext := leBytes 8 0x30000 ++ leBytes 120 0 }] } (tlaunch 1) [{ tpawn with arg := List.replicate 10 0 ++ [1, 0] }] with
        | .ok _ => false | .error e => decide (480 ≤ e.1)) = true
    ∧ (match ringSize tgath (tlaunch 1) [tpawn] with | .ok r => decide (r.2 = 0) | .error _ => false) = true := by decide +kernel

/-! ## More premises: answers, engines, windows, requests, contexts and steps -/

/-- A load that a read error ends, one whose host time is over or not, one that observed a location, and lanes still to be performed. -/
def tld2 (p : PendLoad) (a : Arg) (now : Nat) : State :=
  { ts with groups := [{ tg with loads := [p], pc := 0x10000, st := .stalled, wait := .ext [7] }], clock := BitVec.ofNat 64 now, arg := { a with tag := 7 } }
theorem test_load_ends :
    runs (exec .loadDataReturn (tld2 tload { status := .error } 1)) (fun t => faultsOf t = [(6, 0x40, 5)] && (g0 t).loads = []) = true
    ∧ runs (exec .loadDataReturn (tld2 { tload with blocking := false } { status := .error } 1)) (fun t => faultsOf t = [(6, 0x40, 0)]) = true
    ∧ runs (exec .hostLoadTimeout (tld2 { tload with due := 5 } {} 5)) (fun t => faultsOf t = [(6, 0x40, 5)]) = true
    ∧ runs (exec .hostLoadTimeout (tld2 { tload with due := 6 } {} 5)) (fun t => t = tld2 { tload with due := 6 } {} 5) = true
    ∧ runs (exec .hostLoadTimeout (tld2 { tload with due := 0 } {} 5)) (fun t => t = tld2 { tload with due := 0 } {} 5) = true
    ∧ (loadGroup (tld2 { tload with key := 3, acq := some 2 } {} 1) 7).map (fun q => q.2.key) = some 3
    ∧ runs (exec .loadDataReturn (tld2 { tload with key := 3, acq := some 2 } { lanes := [1, 2] } 1)) (fun t => rdV (g0 t) 8 2 = 2 && (g0 t).loads = []) = true := by
  decide +kernel
/-- Transactions whose time is over: a group's store, a record, an agent's write with a unit number and one without, an engine's, a write of no
context; one not yet sent, and one not yet due. -/
def tend (x : Xact) : State :=
  { tqu with xacts := [x], arg := { tag := 9 }, clock := 0xFFFFFFFF, jobs := [{ tj true 0 0 with ctx := 3 }], ctxs := [Ctx.firmware, tc3 .active] }
def endsBy (x : Xact) (f : State → State) : Bool :=
  [Instr.remoteAccessTimeout, .linkTimeout].all (fun i => runs (exec i (tend x)) (fun t => t = f (endXact (tend x) x)))
theorem test_xact_ends :
    endsBy (txact false) (fun u => lateFault u 0 0 0 6 0x10000 0x40) = true
    ∧ endsBy { txact false with record := some 4, payload := [1] } (fun u => elog u (partOfCtx u 0) 4 4 0 0x40 0 [1]) = true
    ∧ endsBy { txact false with guid := 0, ctx := 0 } id = true
    ∧ endsBy { txact false with guid := 0, ctx := 3, slot := 0xFFFF } (fun u => lateFault u 3 0xFFFF 0xFFFF 6 0x10000 0x40) = true
    ∧ writerJob (tend (txact false)) 3 384 = some { tj true 0 0 with ctx := 3 }
    ∧ endsBy { txact false with guid := 0, ctx := 3, slot := 384 } (fun u => jobFault u { tj true 0 0 with ctx := 3 } (mkFlt 6 0x40)) = true
    ∧ writerJob (tend (txact false)) 3 480 = none
    ∧ endsBy { txact false with guid := 0, ctx := 3, slot := 480 } (fun u => unitFault u 3 480 6 0 0 0 0x40) = true
    ∧ runs (exec .linkTimeout (tend { txact false with unsent := true })) (fun t => t = tend { txact false with unsent := true }) = true
    ∧ runs (exec .linkTimeout { tend { txact false with sent := 0xFFFFFFFF } with regs := [(regLink 0, 1)] }) (fun t => t.xacts.length = 1) = true
    ∧ endXact (tend (txact false)) (txact false) = { tend (txact false) with xacts := [] }
    ∧ (portAt (tend (txact false)) 1).st ≠ 4 ∧ (tend (txact false)).irqs = [] := by decide +kernel
/-- A lost posted store of no group: an engine's, and an agent's. -/
def tpost2 (unit : Nat) : State :=
  { tend (txact false) with posted := [{ tpost with guid := 0, ctx := 3, slot := unit }], arg := { tag := 3 } }
theorem test_posted_ends :
    runs (exec .hostStoreFailure (tpost2 384)) (fun t => t = jobFault { tpost2 384 with posted := [] } { tj true 0 0 with ctx := 3 } (mkFlt 6 0x100)) = true
    ∧ runs (exec .hostStoreFailure (tpost2 480)) (fun t => t = unitFault { tpost2 480 with posted := [] } 3 480 6 0 0 0 0x100) = true
    ∧ runs (exec .updatePerformed { tend (txact false) with arg := { tag := 9 } }) (fun t => t.xacts = []) = true := by decide +kernel

/-- A job whose last write waits for room; a gather job of two rows of 4 bytes, whose indices 1 and 0 lie at 0x10800. -/
def gdesc (flags bound : Nat) : List Byte :=
  leBytes 8 0x10800 ++ leBytes 8 0x10000 ++ leBytes 8 4 ++ leBytes 4 2 ++ leBytes 2 4 ++ [BitVec.ofNat 8 flags, 0] ++ leBytes 4 0 ++ leBytes 4 (2 ^ 32 - 1)
    ++ leBytes 8 0 ++ leBytes 4 bound ++ leBytes 4 0 ++ leBytes 8 0
def tgj (flags bound : Nat) : Job :=
  { (default : Job) with gather := true, st := .running, eng := some 0, descA := 0x10400, desc := gdesc flags bound, segS := tg.segS }
def tgeng (j : Job) : State :=
  { tqu with jobs := [j], arg := { gather := true }
             mem := memPut (memPut tqu.mem 0x10800 (leBytes 4 1 ++ leBytes 4 0)) 0x10000 (leBytes 4 0xA ++ leBytes 4 0xB) }
theorem test_hyp_gather_job : gatherOk (tgj 0 0) = true ∧ engJob (tgeng (tgj 0 0)) true 0 0 = some (tgj 0 0) ∧ dRack (tgj 0 0) = false
    ∧ chunkFull (tgeng (tgj 0 0)) (tgj 0 0) = false ∧ jobXacts (tgeng (tgj 0 0)) (tgj 0 0) = [] ∧ dDev (tgj 0 0) = false
    ∧ (match gatherWork (tgeng (tgj 0 0)) (tgj 0 0) with | .ok (s, z) => decide (s.jobs = [tgj 0 0] ∧ z = 0) | .error _ => false) = true
    ∧ (match gatherWork (tgeng { tgj 0 0 with desc := (gdesc 0 0).set 1 0 |>.set 2 3 }) { tgj 0 0 with desc := (gdesc 0 0).set 1 0 |>.set 2 3 } with
        | .ok _ => false | .error _ => true) = true := by decide +kernel
theorem test_gather_job :
    runs (exec .subchunkBoundary (tgeng (tgj 0 0))) (fun t => memVal t.scr 0 8 = 0xA0000000B && t.jobs.map (fun j => (j.sub, j.next)) = [(1, 0)]) = true
    ∧ runs (exec .subchunkBoundary (tgeng (tgj 8 1))) (fun t => memVal t.scr 0 8 = 0xA00000000 && t.jobs.map (fun j => j.cur.nanc) = [1]) = true
    ∧ runs (exec .subchunkBoundary { tengs (tj true 0 0) with xacts := [{ txact false with guid := 0, slot := 384, unsent := true }] }) (fun t =>
        t.jobs.map (fun j => j.sub) = [0] && t.agenda.map (fun e => e.1) = [.subchunkBoundary]) = true := by decide +kernel

/-- New pockets of 64 bytes at 0x16000, in a normal page, or at 0x30000, in none; and what a window's record address reads. -/
def tzero (base : Nat) : State × Stream :=
  let t : Stream := { tstr with wm := 0, ext := leBytes 8 0x10000 ++ leBytes 8 (1 + 64 * 2 ^ 32) ++ leBytes 8 10 ++ leBytes 8 10 ++ List.replicate 64 0 ++ leBytes 8 0x10100 ++ List.replicate 24 0 }
  ({ twr 0 with streams := [{ t with seen := 4 }], pools := SMap.put 0 [] 80 (BitVec.ofNat 64 base), parts := tqu.parts, mem := memPut (twr 0).mem 0x16000 (List.replicate 64 0xEE) }, { t with seen := 4 })
theorem test_hyp_zero : streamOf (tzero 0x16000).1 5 = some (tzero 0x16000).2
    ∧ (match dataRecord (tzero 0x16000).1 (tzero 0x16000).2 5 9 0 with
       | some t1 => t1.wins.map (fun w => w.pocket) = [0x16000] && (zeroPockets (tzero 0x16000).1 t1 t1.wins).toOption.isSome
       | none => false) = true
    ∧ (match dataRecord (tzero 0x30000).1 (tzero 0x30000).2 5 9 0 with
       | some t1 => (zeroPockets (tzero 0x30000).1 t1 t1.wins).toOption.isNone
       | none => false) = true := by decide +kernel
theorem test_zero :
    runs (exec .ingressDataRecord (tzero 0x16000).1) (fun t => dramVal t 0x16000 1 = 0xEE && dramVal t 0x16020 8 = 0 && t.streams.map (fun q => (q.next, q.read)) = [(1, 1)]) = true
    ∧ runs (exec .ingressDataRecord (tzero 0x30000).1) (fun t => t.streams.map (fun q => (q.next, q.read, q.wins.length)) = [(0, 0, 0)]
        && (ctxOf t 0).any (fun c => c.line)) = true := by decide +kernel
def tring (a : Nat) : Stream := { tstr with ext := leBytes 8 a ++ leBytes 120 0 }
theorem test_record_addr :
    (match recordAddr (twr 0) (tring 0x10000) { (default : WPawn) with ring := some 3 } with | .ok r => decide (r.2 = 0x11060) | .error _ => false) = true
    ∧ (match recordAddr (twr 0) (tring 0x30000) { (default : WPawn) with ring := some 3 } with | .ok _ => false | .error _ => true) = true
    ∧ storeFill (twr 0) 0 < 65536 := by decide +kernel
/-- A row at 0x10000 that holds a window's pocket, or one back in its pool, idle for DORM = 1 µs or not (R364). -/
def tdorm (ws : List Win) (rs : List (Nat × Nat × Nat)) (now : Nat) : State :=
  { trow false false false with
    streams := [{ tstr with wins := ws, resting := rs, ext := leBytes 8 0 ++ leBytes 8 (1 + 64 * 2 ^ 32) ++ leBytes 16 0 ++ leBytes 8 0 ++ leBytes 4 1 ++ leBytes 4 1 ++ leBytes 80 0 }]
    arg := { lh := 5, addr := 0x10000 }, clock := BitVec.ofNat 64 now }
def dorm (ws : List Win) (rs : List (Nat × Nat × Nat)) (now : Nat) : Bool := runs (exec .dormancyDemote (tdorm ws rs now)) (fun t => rowGet t (rk 20) = default)
theorem test_dormancy :
    dorm [{ (default : Win) with pocket := 0x10000 }] [] 1050 = true ∧ dorm [{ (default : Win) with pocket := 0x10000 }] [] 1049 = false
    ∧ dorm [] [(0, 0x10000, 0)] 1050 = true ∧ dorm [] [(0, 0x10000, 1)] 1050 = false ∧ dorm [] [] 5000 = false
    ∧ dorm [{ (default : Win) with pocket := 0x10000, queue := [default] }] [] 5000 = false
    ∧ (tdorm [] [(3, 0x10000, 0)] 0).streams.map (fun q => rowField q 0x10000) = [some 3]
    ∧ runs (exec .egressRearm { tsm with arg := { lh := 5 } }) (fun t => t.streams.map (fun q => q.disarmed) = [[]]) = true := by decide +kernel

/-- Two posted link writes to device 5: the answer to the second acknowledges the first too (R424); requests that are refused. -/
def tcum : State := { tlnk 0 0 with xacts := [{ txact false with tag := 8, kind := 3 }, { txact false with kind := 3 }, { txact false with tag := 10, kind := 4 }], arg := { tag := 9 } }
theorem test_more_requests :
    runs (exec .linkRxWriteResponse tcum) (fun t => t.xacts.map (fun x => x.tag) = [10]) = true
    ∧ runs (exec .linkRxAtomic (tin { atom := ⟨0x100, .add, true, false, 5, 0, false⟩, tag := 2 })) (fun t => t.out = [.response 0 7 5 2 .accepted []]) = true
    ∧ runs (exec .linkRxAtomic (tin { atom := ⟨0x100, .add, true, false, 5, 0, true⟩, tag := 2 })) (fun t => t.out = [.response 0 7 7 2 .accepted (leBytes 8 0)]) = true
    ∧ regionRun (tin {}) 0x14000000000 8 = .cxl 0 ∧ windowUp (tin {}) 0 true = false
    ∧ windowUp (regPut (tin {}) (regPcie 0 8) 0x300000000) 0 true = true
    ∧ runs (exec .linkRxReadRequest (tin { addr := 0x14000000000, len := 8, tag := 9 })) (fun t => t.out = [.response 0 7 2 9 .error []]) = true
    ∧ regionRun (tin {}) 0xEFFFFFFFFFC 8 ≠ .dram
    ∧ runs (exec .linkRxReadRequest { tin { addr := 0x100, len := 4, tag := 9 } with mode := .tripped }) (fun t => t.out = []) = true
    ∧ runs (exec .pcieBar2Request { ts with mode := .recovery, arg := { addr := 0x100, data := [7] } }) (fun t => t.out = [.pcieReply 0 false []] && t.mem = []) = true
    ∧ runs (exec .pcieAtomicop { ts with mode := .tripped, arg := { atom := ⟨0x100, .add, true, false, 5, 0, true⟩ } }) (fun t => t.out = [.pcieReply 0 false []]) = true
    ∧ runs (exec .pcieBar0Write { ts with mode := .recovery, arg := { addr := 0x1000, len := 8, val := 2 } }) (fun t => t.agenda.map (fun e => e.1) = [.rcmdInstallB]) = true
    ∧ runs (exec .pcieBar0Write { ts with mode := .recovery, rstat := 1, arg := { addr := 0x1000, len := 8, val := 2 } }) (fun t => t.agenda = []) = true := by
  decide +kernel

/-- A port that has trained reports its epoch, then its state; none trains with the power cut or in recovery. The attested nonce is the
latched one; a trip in recovery. -/
theorem test_more_platform :
    runs (exec .linkTrained (tport 1 { tx := 256, rx := 256, peer := 5 })) (fun t => t.out = [.flit 1 5 11 0 false 0 (leBytes 4 (tport 1 {}).epoch.toNat), .portEvent 1 2]) = true
    ∧ runs (exec .linkTrained { tport 1 { tx := 256, rx := 256 } with mode := .tripped }) (fun t => (portAt t 1).st = 1 && t.out = []) = true
    ∧ runs (exec .linkEnable { tport 0 {} with mode := .recovery }) (fun t => (portAt t 1).st = 0) = true
    ∧ runs (exec .rcmdAttest (regPut { ts with mode := .recovery } recNonce 77)) (fun t => t.rnonce = leBytes 8 77 ++ leBytes 24 0 && t.rstat = 1) = true
    ∧ runs (exec .attestReportDone { ts with mode := .recovery, rstat := 1, rcmd := 3, rnonce := leBytes 8 77 ++ leBytes 24 0 }) (fun t => t.rstat = 0) = true
    ∧ runs (exec .thermalTrip { treg { temp := 1920 } with mode := .recovery }) (fun t => t.mode = .tripped && t.tripped) = true
    ∧ runs (exec .thermalTrip { treg { temp := 1919 } with mode := .recovery }) (fun t => t.mode = .recovery) = true
    ∧ runs (exec .rollminWrite { treg { val := 2 ^ 32 } with rollmin := some 7 }) (fun t => t.rollmin = some 0x100000000) = true
    ∧ runs (exec .tickWrite (treg { val := 2 ^ 32 })) (fun t => regVal t (regPart 0 0x90) = 1) = true := by decide +kernel

/-- A FENCE packet hands on what the packets before it have done (R329). -/
def tfence : State := let s := tpkt (leBytes 8 5 ++ leBytes 56 0) 0
  { s with qclk := SMap.put [] (SMap.put [] [] (kickKey 0 0) [(1, 4)]) (doneKey 0 0) [(2, 6)], hwslots := updAt s.hwslots 3 (fun h => { h with widx := 2 }) }
theorem test_fence_packet : runs (exec .packetFence tfence) (fun t => (slotAt t 3).ridx = 1
      && vcJoin (qclkOf t (kickKey 0 0)) [] = vcJoin (vcJoin (qclkOf (noteQueue tfence (kickKey 0 0) (pktSees tfence (slotAt tfence 3) (headAddr tfence (slotAt tfence 3)) 64)) (kickKey 0 0))
        (qclkOf tfence (doneKey 0 0))) [] && SMap.get 0 (qclkOf t (kickKey 0 0)) 2 = 6) = true := by decide +kernel

/-- A swap whose resident has a fault to raise at its stop, its job's NEXT lying nowhere, is called off (R270, R381). -/
def tcall : State :=
  { tengs { tj true 0 8 with ctx := 4, descA := 0x30400 } with
    groups := [], ctxs := [Ctx.firmware, { tc3 .active with id := 4 }, tc3 .shadow], arg := {}, parts := updAt tqu.parts 0 (fun p => { p with swap := true }) }
theorem test_more_contexts :
    swapReady tcall 0 = true ∧ (residentOf tcall 0).map (fun c => c.id) = some 4
    ∧ (ctxOf (stopJobs (stopGroups tcall 4) 4) 4).any (fun d => d.line && d.faults.length = 1) = true
    ∧ runs (exec .swapProceed tcall) (fun t => (ctxOf t 4).any (fun c => c.st = .active && c.line) && (ctxOf t 3).any (fun c => c.st = .shadow)) = true := by decide +kernel

/-- A call landed on a line that turns out to have no entry there: the link is put back, and the fault is the call's (R166). -/
def tlink : State := { tland with groups := tland.groups.map (fun g => wrS { g with link := some (62, 0x1234) } 62 0x55) }
theorem test_link_undone : (g0 tlink).link = some (62, 0x1234) ∧ landBad (g0 tlink) (1 + 2 ^ 32 * tword) 1 = some 0x10010
    ∧ runs (step tlink) (fun t => rdS (g0 t) 62 = 0x1234 && (g0 t).pc = 0x10010) = true := by decide +kernel
/-- The second of a pair that cannot issue holds both; a turn of the held groups. -/
def tpairHeld : State := { tline tpair with groups := (tline tpair).groups.map (fun g => { g with loads := [{ tload with dst := .v 4, port := none }] }) }
def theld : State := { tturn 16 with groups := (tturn 16).groups.map (fun g => { g with st := .stalled }) }
theorem test_pair_held : thold (tline tpair) 1 = false ∧ (heldTurn (picks (due theld)) 0).map (fun g => g.uid) = some (g0 theld).uid
    ∧ (due theld).agenda ≠ [] ∧ (due theld).turn = 16 ∧ runs (step theld) (fun t => (g0 t).st = .ready && SMap.get 0 t.stEpoch 3 = 0) = true
    ∧ thold tpairHeld 0 = true := by decide +kernel

end Sys2Proof.Tests
end

section
/-! Writes of device registers: what a write of bytes makes of a register (R5), whom it is admitted from (R442), what the write of each
register with an effect of its own does (R336, R404, R446, R447, R450, R452), and the statement about them. -/

namespace Sys2Proof.Machine
open Sys2Proof

/-! ## The bytes of a write (R5) -/

/-- The bits of a register that a write of `n` bytes at `addr` covers. -/
def coveredBits (addr n : Nat) : W64 := BitVec.ofNat 64 ((2 ^ (8 * n) - 1) * 2 ^ (8 * (addr % 8)))

/-- The written value at the bits it covers, zero elsewhere. -/
def writtenBits (addr n val : Nat) : W64 := BitVec.ofNat 64 (val % 2 ^ (8 * n) * 2 ^ (8 * (addr % 8)))

/-- The value of an RW register after a write of `n` bytes at `addr`. -/
def mergedBits (old : W64) (addr n val : Nat) : W64 := (old &&& ~~~ coveredBits addr n) ||| writtenBits addr n val

theorem getLsbD_coveredBits {addr n i : Nat} (hi : i < 64) :
    (coveredBits addr n).getLsbD i = decide (8 * (addr % 8) ≤ i ∧ i < 8 * (addr % 8) + 8 * n) := by
  rw [coveredBits, BitVec.getLsbD_ofNat, Nat.testBit_mul_two_pow, Nat.testBit_two_pow_sub_one, Bool.eq_iff_iff]
  simp only [hi, decide_true, Bool.true_and, Bool.and_eq_true, decide_eq_true_eq]
  omega

theorem getLsbD_writtenBits {addr n val i : Nat} (hi : i < 64) : (writtenBits addr n val).getLsbD i
    = (decide (8 * (addr % 8) ≤ i ∧ i < 8 * (addr % 8) + 8 * n) && val.testBit (i - 8 * (addr % 8))) := by
  rw [writtenBits, BitVec.getLsbD_ofNat, Nat.testBit_mul_two_pow, Nat.testBit_mod_two_pow, ← Bool.and_assoc, ← Bool.and_assoc]
  congr 1
  rw [Bool.eq_iff_iff]
  simp only [hi, decide_true, Bool.true_and, Bool.and_eq_true, decide_eq_true_eq]
  omega

theorem getLsbD_mergedBits_covered {old : W64} {addr n val i : Nat} (hi : i < 64)
    (h : 8 * (addr % 8) ≤ i ∧ i < 8 * (addr % 8) + 8 * n) :
    (mergedBits old addr n val).getLsbD i = val.testBit (i - 8 * (addr % 8)) := by
  simp [mergedBits, getLsbD_coveredBits hi, getLsbD_writtenBits hi, h]

theorem getLsbD_mergedBits_kept {old : W64} {addr n val i : Nat} (hi : i < 64)
    (h : ¬ (8 * (addr % 8) ≤ i ∧ i < 8 * (addr % 8) + 8 * n)) :
    (mergedBits old addr n val).getLsbD i = old.getLsbD i := by
  rw [mergedBits, BitVec.getLsbD_or, BitVec.getLsbD_and, BitVec.getLsbD_not, getLsbD_coveredBits hi, getLsbD_writtenBits hi,
    decide_eq_false h]
  simp [hi]

/-- A write of all eight bytes writes every bit. -/
theorem mergedBits_word (old v : W64) {a : Nat} (ha : a % 8 = 0) : mergedBits old a 8 v.toNat = v := by
  apply BitVec.eq_of_getLsbD_eq
  intro i hi
  rw [getLsbD_mergedBits_covered hi (by omega), ha]
  rfl

theorem writtenBits_word (v : W64) {a : Nat} (ha : a % 8 = 0) : writtenBits a 8 v.toNat = v := by
  apply BitVec.eq_of_getLsbD_eq
  intro i hi
  rw [getLsbD_writtenBits hi, ha, decide_eq_true (by omega)]
  rfl

/-- A write of four bytes writes the low word. -/
theorem mergedBits_low_word (old : W64) (v : W32) {a : Nat} (ha : a % 8 = 0) :
    (mergedBits old a 4 v.toNat).setWidth 32 = v := by
  apply BitVec.eq_of_getLsbD_eq
  intro i hi
  rw [BitVec.getLsbD_setWidth, getLsbD_mergedBits_covered (by omega) (by omega), ha, decide_eq_true hi, Bool.true_and]
  rfl

/-- The bytes written read back. -/
theorem mergedBits_bytes_covered (old : W64) {addr n : Nat} (val : Nat) (h : addr % 8 + n ≤ 8) :
    (mergedBits old addr n val).toNat / 2 ^ (8 * (addr % 8)) % 2 ^ (8 * n) = val % 2 ^ (8 * n) := by
  apply Nat.eq_of_testBit_eq
  intro i
  rw [Nat.testBit_mod_two_pow, Nat.testBit_div_two_pow, Nat.testBit_mod_two_pow]
  by_cases hi : i < 8 * n
  · rw [← BitVec.getLsbD, getLsbD_mergedBits_covered (by omega) (by omega), Nat.add_sub_cancel]
  · simp [hi]

/-- A byte not written keeps its value. -/
theorem mergedBits_byte_kept (old : W64) {addr n j : Nat} (val : Nat) (hj : j < 8) (h : j < addr % 8 ∨ addr % 8 + n ≤ j) :
    (mergedBits old addr n val).toNat / 2 ^ (8 * j) % 2 ^ (8 * 1) = old.toNat / 2 ^ (8 * j) % 2 ^ (8 * 1) := by
  apply Nat.eq_of_testBit_eq
  intro i
  simp only [Nat.testBit_mod_two_pow, Nat.testBit_div_two_pow]
  by_cases hi : i < 8 * 1
  · rw [← BitVec.getLsbD, getLsbD_mergedBits_kept (by omega) (by omega)]
    rfl
  · simp [hi]

/-! ## Whom a write is admitted from (R442) -/

/-- Whether an agent's write reaches the register at `a`, no doorbell: a host's as R442 says, a group's while the group is there, and
always those of the management core and of the link (log entry 25). -/
def writeReaches (s : State) (who : Agent) (a : Nat) : Bool :=
  match who with
  | .mgmt => true
  | .host port => hostReaches s port a
  | .group c k => decide (c = 0xFFFF) || (groupAt s c k).isSome

/-- Who may write a register of partition `p` that is open to its owner. -/
def OwnerWrites (s : State) (who : Agent) (p : Nat) : Prop :=
  match who with
  | .mgmt => True
  | .host port => hostOwns s port p = true
  | .group c k => c = 0xFFFF ∨ groupAt s c k ≠ none

/-- The doorbells of the queues. -/
def isDoorbell (a : Nat) : Bool := 0x1F000040000 ≤ a && a < 0x1F000050000

theorem regStore_host (s : State) (port addr n val : Nat) : regStore s (.host port) addr n val
    = if hostReaches s port (addr / 8 * 8) then regWrite64 s (.host port) (addr / 8 * 8)
      (mergedBits (regRead64 s (addr / 8 * 8)) addr n val) (writtenBits addr n val) else s := rfl

/-- A write that is admitted merges its bytes into the register; any other changes nothing. -/
theorem regStore_eq (s : State) (who : Agent) {addr : Nat} (n val : Nat) (hd : isDoorbell (addr / 8 * 8) = false) :
    regStore s who addr n val = if writeReaches s who (addr / 8 * 8) then regWrite64 s who (addr / 8 * 8)
      (mergedBits (regRead64 s (addr / 8 * 8)) addr n val) (writtenBits addr n val) else s := by
  unfold isDoorbell at hd
  cases who with
  | mgmt => rfl
  | host port => exact regStore_host s port addr n val
  | group c k =>
    cases hg : groupAt s c k with
    | none => simp [regStore, writeReaches, hg, hd, mergedBits, coveredBits, writtenBits]
    | some g => simp [regStore, writeReaches, hg, hd, mergedBits, coveredBits, writtenBits]

/-- A write of a whole register. -/
theorem regStore_word (s : State) (who : Agent) {a : Nat} (v : W64) (ha : a % 8 = 0) (hd : isDoorbell a = false) :
    regStore s who a 8 v.toNat = if writeReaches s who a then regWrite64 s who a v v else s := by
  have h8 : a / 8 * 8 = a := by omega
  rw [regStore_eq s who 8 v.toNat (by rw [h8]; exact hd), h8, mergedBits_word _ v ha, writtenBits_word v ha]

/-! ## Registers of a partition (R335, R336) -/

section PartBlock
variable {p off : Nat}

/-- Where the register at `off` of partition p's block lies: in no other block, and at `off` of its own. -/
theorem regPart_block (hp : p < 8) (ho : off < 4096) :
    (0x1F000010000 ≤ regPart p off ∧ regPart p off < 0x1F000018000)
      ∧ (regPart p off - 0x1F000010000) / 4096 = p ∧ regPart p off % 4096 = off := by
  unfold regPart
  omega

theorem regPart_inj {q o : Nat} (ho : off < 4096) (ho' : o < 4096) : regPart p off = regPart q o ↔ p = q ∧ off = o := by
  unfold regPart
  omega

theorem isDoorbell_regPart (hp : p < 8) (ho : off < 4096) : isDoorbell (regPart p off) = false := by
  obtain ⟨⟨-, hlt⟩, -, -⟩ := regPart_block hp ho
  simp only [isDoorbell, Bool.and_eq_false_iff, decide_eq_false_iff_not]
  omega

theorem writeReaches_regPart (s : State) (who : Agent) (hp : p < 8) (ho : off < 4096) :
    writeReaches s who (regPart p off) = true ↔ OwnerWrites s who p := by
  obtain ⟨⟨hle, hlt⟩, hdiv, -⟩ := regPart_block hp ho
  have hm : regMsix (regPart p off) = false := by
    simp only [regMsix, Bool.or_eq_false_iff, Bool.and_eq_false_iff, decide_eq_false_iff_not]
    omega
  cases who with
  | mgmt => simp [writeReaches, OwnerWrites]
  | host port => simp [writeReaches, OwnerWrites, hostReaches, hm, regOwnerPart, hle, hlt, hdiv]
  | group c k => simp [writeReaches, OwnerWrites, Option.isSome_iff_ne_none]

/-- A write of a whole register by an agent that may make it. -/
theorem regStore_regPart {s : State} {who : Agent} {v : W64} (hp : p < 8) (ho : off < 4096) (ha : off % 8 = 0)
    (h : OwnerWrites s who p) : regStore s who (regPart p off) 8 v.toNat = regWrite64 s who (regPart p off) v v := by
  have h8 : regPart p off % 8 = 0 := by unfold regPart; omega
  rw [regStore_word s who v h8 (isDoorbell_regPart hp ho), if_pos ((writeReaches_regPart s who hp ho).2 h)]

/-- A write of a whole register by any other agent. -/
theorem regStore_regPart_refused {s : State} {who : Agent} {v : W64} (hp : p < 8) (ho : off < 4096) (ha : off % 8 = 0)
    (h : ¬ OwnerWrites s who p) : regStore s who (regPart p off) 8 v.toNat = s := by
  have h8 : regPart p off % 8 = 0 := by unfold regPart; omega
  rw [regStore_word s who v h8 (isDoorbell_regPart hp ho), if_neg (mt (writeReaches_regPart s who hp ho).1 h)]

/-- The step of such a register, by an agent that may write it. -/
theorem regStep_regPart {s t : State} (hm : s.mode = .running) (hpart : s.arg.part = p) (hp : p < 8)
    (h : OwnerWrites s s.arg.who p) (ho : off < 4096) (ha : off % 8 = 0)
    (hw : regWrite64 s s.arg.who (regPart p off) s.arg.val s.arg.val = t) :
    regStep s (s.arg.part < 8) (regPart s.arg.part off) = .next t := by
  rw [hpart, regStep, regStore_regPart hp ho ha h, hw]
  simp [hm, hp]

/-- The step of such a register, by any other agent. -/
theorem regStep_regPart_refused {s : State} (hpart : s.arg.part = p) (hp : p < 8) (h : ¬ OwnerWrites s s.arg.who p)
    (ho : off < 4096) (ha : off % 8 = 0) : regStep s (s.arg.part < 8) (regPart s.arg.part off) = .next s := by
  rw [hpart, regStep, regStore_regPart_refused hp ho ha h, ite_self]

end PartBlock

/-! ## Where a write goes -/

section Targets
variable (s : State) (who : Agent) (v w : W64) {p : Nat}

theorem regWrite64_devid : regWrite64 s who (regPlat 0) v w = if who = .mgmt then devidStore s v else s := by
  simp [regWrite64]

theorem regWrite64_rollmin : regWrite64 s who (regPlat 0x20) v w = if who = .mgmt then rollminStore s v else s := by
  simp [regWrite64, regPlat]

theorem regWrite64_scfg {st : Nat} (hst : st < 16) :
    regWrite64 s who (regStack st 0) v w = if who = .mgmt then scfgStore s st v else s := by
  have h (a : Nat) (ha : a < 0x1F000060000 := by decide) : regStack st 0 ≠ a := by unfold regStack; omega
  have hlo (a : Nat) (ha : a ≤ 0x1F000060000 := by decide) : ¬ regStack st 0 < a := by unfold regStack; omega
  have hin : 0x1F000060000 ≤ regStack st 0 ∧ regStack st 0 < 0x1F000070000 := by unfold regStack; omega
  have hoff : regStack st 0 % 4096 = 0 ∧ (regStack st 0 - 0x1F000060000) / 4096 = st := by unfold regStack; omega
  simp [regWrite64, regPlat, h, hlo, hin, hoff]

/-- SCFG is a whole register and no doorbell. -/
theorem regStack_block {st : Nat} (hst : st < 16) : regStack st 0 % 8 = 0 ∧ isDoorbell (regStack st 0) = false := by
  simp only [isDoorbell, Bool.and_eq_false_iff, decide_eq_false_iff_not]
  unfold regStack
  omega

/-- A partition's register is none of the platform's. -/
theorem regPart_ne_regPlat {off o : Nat} (ho : o < 0x10000) : regPart p off ≠ regPlat o := by
  unfold regPart regPlat
  omega

theorem regWrite64_drvfeat (hp : p < 8) : regWrite64 s who (regPart p 0x108) v w = drvfeatStore s p v := by
  obtain ⟨hin, hdiv, hoff⟩ := regPart_block (off := 0x108) hp (by decide)
  simp [regWrite64, regPart_ne_regPlat, hin, hdiv, hoff]

theorem regWrite64_sbar (hp : p < 8) : regWrite64 s who (regPart p 0x88) v w = sbarStore s who p v := by
  obtain ⟨hin, hdiv, hoff⟩ := regPart_block (off := 0x88) hp (by decide)
  simp [regWrite64, regPart_ne_regPlat, hin, hdiv, hoff]

theorem regWrite64_hbar (hp : p < 8) : regWrite64 s who (regPart p 0xC8) v w = hbarStore s who p v := by
  obtain ⟨hin, hdiv, hoff⟩ := regPart_block (off := 0xC8) hp (by decide)
  simp [regWrite64, regPart_ne_regPlat, hin, hdiv, hoff]

theorem regWrite64_tick (hp : p < 8) : regWrite64 s who (regPart p 0x90) v w = tickStore s p v := by
  obtain ⟨hin, hdiv, hoff⟩ := regPart_block (off := 0x90) hp (by decide)
  simp [regWrite64, regPart_ne_regPlat, hin, hdiv, hoff]

theorem regWrite64_atctl (hp : p < 8) : regWrite64 s who (regPart p 0x220) v w = atctlStore s p w := by
  obtain ⟨hin, hdiv, hoff⟩ := regPart_block (off := 0x220) hp (by decide)
  simp [regWrite64, regPart_ne_regPlat, hin, hdiv, hoff]

theorem regWrite64_schev (hp : p < 8) : regWrite64 s who (regPart p 0x80) v w
    = regPut s (regPart p 0x80) (regVal s (regPart p 0x80) &&& ~~~ (w &&& 0xF)) := by
  obtain ⟨hin, hdiv, hoff⟩ := regPart_block (off := 0x80) hp (by decide)
  simp [regWrite64, regPart_ne_regPlat, hin, hoff]

/-- The four words of ATNONCE are plain. -/
theorem regWrite64_atnonce (hp : p < 8) {k : Nat} (hk : k < 4) :
    regWrite64 s who (regPart p (0x200 + 8 * k)) v w = regPut s (regPart p (0x200 + 8 * k)) v := by
  obtain ⟨hin, hdiv, hoff⟩ := regPart_block (off := 0x200 + 8 * k) hp (by omega)
  have hall : v &&& 0xFFFFFFFFFFFFFFFF#64 = v := BitVec.and_allOnes
  interval_cases k <;> simp_all [regWrite64, regPart_ne_regPlat]

theorem regRead64_atnonce (hp : p < 8) {k : Nat} (hk : k < 4) :
    regRead64 s (regPart p (0x200 + 8 * k)) = regVal s (regPart p (0x200 + 8 * k)) := by
  obtain ⟨hin, hdiv, hoff⟩ := regPart_block (off := 0x200 + 8 * k) hp (by omega)
  interval_cases k <;> simp_all [regRead64, regPart_ne_regPlat]

/-- The doorbell of queue `q` of partition `p`. -/
def doorbellReg (p q : Nat) : Nat := 0x1F000040000 + 8192 * p + 8 * q

/-- Where a doorbell lies: in no other block, and at its partition and queue in its own. -/
theorem doorbellReg_block {q : Nat} (hp : p < 8) (hq : q < 1024) :
    (0x1F000040000 ≤ doorbellReg p q ∧ doorbellReg p q < 0x1F000050000)
      ∧ (doorbellReg p q - 0x1F000040000) / 8192 = p ∧ doorbellReg p q % 8192 / 8 = q ∧ doorbellReg p q / 8 * 8 = doorbellReg p q := by
  unfold doorbellReg
  omega

theorem regWrite64_doorbell {q : Nat} (hp : p < 8) (hq : q < 1024) :
    regWrite64 s who (doorbellReg p q) v w = (kickQueue s p q (v.setWidth 32) 0 true []).1 := by
  obtain ⟨hin, hpart, hqueue, -⟩ := doorbellReg_block hp hq
  have hne (a : Nat) (ha : a < 0x1F000040000 := by decide) : doorbellReg p q ≠ a := by unfold doorbellReg; omega
  have hlo (a : Nat) (ha : a ≤ 0x1F000040000 := by decide) : ¬ doorbellReg p q < a := by unfold doorbellReg; omega
  simp [regWrite64, regPlat, hne, hlo, hin, hpart, hqueue]

theorem hostReaches_doorbell (port : Nat) {q : Nat} (hp : p < 8) (hq : q < 1024) :
    hostReaches s port (doorbellReg p q) = hostOwns s port p := by
  obtain ⟨hin, hpart, -, -⟩ := doorbellReg_block hp hq
  have hlo (a : Nat) (ha : a ≤ 0x1F000040000 := by decide) : ¬ doorbellReg p q < a := by unfold doorbellReg; omega
  have hm : regMsix (doorbellReg p q) = false := by
    simp only [regMsix, Bool.or_eq_false_iff, Bool.and_eq_false_iff, decide_eq_false_iff_not]
    omega
  simp [hostReaches, hm, regOwnerPart, hlo, hin, hpart]

end Targets

/-! ## What the registers do -/

theorem wf_regPut {s : State} (h : SMap.wf 0 s.regs = true) (a : Nat) (v : W64) : SMap.wf 0 (regPut s a v).regs = true :=
  SMap.wf_put h a _

theorem regVal_regPut_self {s : State} (h : SMap.wf 0 s.regs = true) (a : Nat) (v : W64) : regVal (regPut s a v) a = v :=
  (regVal_regPut h a a v).trans (if_pos rfl)

theorem partOf_updPart_self {s : State} {p : Nat} (h : p < s.parts.length) (f : Part → Part) :
    partOf (updPart s p f) p = f (partOf s p) :=
  (partOf_updPart s p p f h).trans (if_pos rfl)

/-- TICK (R336). -/
theorem tickStore_spec {s : State} {p : Nat} (hwf : SMap.wf 0 s.regs = true) (hp : p < s.parts.length) (v : W64) :
    (regVal (tickStore s p v) (regPart p 0x90)).toNat = max 1 (v.toNat % 2 ^ 32) ∧ (partOf (tickStore s p v) p).tickAt = s.clock.toNat
      ∧ tickStore s p v = { s with regs := (tickStore s p v).regs, parts := (tickStore s p v).parts } := by
  refine ⟨?_, ?_, rfl⟩
  · have hval : regVal (tickStore s p v) (regPart p 0x90) = BitVec.ofNat 64 (if v.toNat % 2 ^ 32 = 0 then 1 else v.toNat % 2 ^ 32) :=
      regVal_regPut_self hwf _ _
    rw [hval, BitVec.toNat_ofNat]
    split <;> omega
  · simp only [tickStore]
    rw [partOf_updPart_self]
    exact hp

/-- The window of SBAR or HBAR after a write: a privileged group leaves its window S there (R336). -/
def windowAfter (s : State) (who : Agent) (old : Option Seg) : Option Seg :=
  match who with
  | .group c k => (match groupAt s c k with | some g => if g.priv then some g.segS else old | none => old)
  | _ => old

theorem windowAfter_eq (s : State) (who : Agent) (old : Option Seg) : windowAfter s who old = (writerWin s who).or old := by
  cases who with
  | mgmt => rfl
  | host port => rfl
  | group c k =>
    cases hg : groupAt s c k with
    | none => simp [windowAfter, writerWin, hg]
    | some g => cases hpr : g.priv <;> simp [windowAfter, writerWin, hg, hpr]

/-- What a write of SBAR or HBAR, at `off`, makes of a state (R336). -/
def BarrierStored (s : State) (who : Agent) (p off : Nat) (v : W64) (win : Part → Option Seg) (t : State) : Prop :=
  regVal t (regPart p off) = v &&& 0x800000000000FFFF ∧ win (partOf t p) = windowAfter s who (win (partOf s p))
    ∧ t = { s with regs := t.regs, parts := t.parts }

section Barrier
variable {s : State} {who : Agent} {p off : Nat} {v : W64} {win : Part → Option Seg} (hwf : SMap.wf 0 s.regs = true)
include hwf

theorem barrierStored_of_no_window (hw : writerWin s who = none) :
    BarrierStored s who p off v win (regPut s (regPart p off) (v &&& 0x800000000000FFFF)) := by
  refine ⟨?_, ?_, rfl⟩
  · exact regVal_regPut_self hwf _ _
  · rw [windowAfter_eq, hw, Option.none_or]
    rfl

theorem barrierStored_of_window {w : Seg} {f : Part → Part} (hp : p < s.parts.length) (hw : writerWin s who = some w)
    (hf : ∀ q, win (f q) = some w) :
    BarrierStored s who p off v win (updPart (regPut s (regPart p off) (v &&& 0x800000000000FFFF)) p f) := by
  refine ⟨?_, ?_, rfl⟩
  · exact regVal_regPut_self hwf _ _
  · rw [partOf_updPart_self, hf, windowAfter_eq, hw, Option.some_or]
    exact hp

theorem sbarStore_stored (hp : p < s.parts.length) : BarrierStored s who p 0x88 v Part.sbarWin (sbarStore s who p v) := by
  unfold sbarStore
  cases hw : writerWin s who with
  | none => exact barrierStored_of_no_window hwf hw
  | some w => exact barrierStored_of_window hwf hp hw (fun _ => rfl)

theorem hbarStore_stored (hp : p < s.parts.length) : BarrierStored s who p 0xC8 v Part.hbarWin (hbarStore s who p v) := by
  unfold hbarStore
  cases hw : writerWin s who with
  | none => exact barrierStored_of_no_window hwf hw
  | some w => exact barrierStored_of_window hwf hp hw (fun _ => rfl)

end Barrier

/-- The nonce in ATNONCE (R450). -/
def atNonceBytes (s : State) (p : Nat) : List Byte :=
  (List.range 4).flatMap (fun i => leBytes 8 (regVal s (regPart p (0x200 + 8 * i))).toNat)

/-- GO while not BUSY sets BUSY, latches the nonce and begins the report (R452). -/
theorem atctlStore_go {s : State} {p : Nat} {v : W64} (hwf : SMap.wf 0 s.regs = true) (hp : p < s.parts.length)
    (hgo : v.getLsbD 0 = true) (hdone : v.getLsbD 2 = false) (hbusy : (regVal s (regPart p 0x220)).getLsbD 1 = false) :
    (regVal (atctlStore s p v) (regPart p 0x220)).getLsbD 1 = true ∧ (partOf (atctlStore s p v) p).atNonce = atNonceBytes s p
      ∧ (atctlStore s p v).agenda = s.agenda ++ [(.attestReportDone, { part := p })] := by
  have hst : atctlStore s p v = enqueue (updPart (regPut s (regPart p 0x220) (regVal s (regPart p 0x220) ||| 2#64)) p
      (fun q => { q with atNonce := atNonceBytes s p })) .attestReportDone { part := p } := by
    simp only [atctlStore, hgo, hdone, hbusy, Bool.false_eq_true, if_false, Bool.not_false, Bool.and_self, if_true]
    rfl
  rw [hst]
  refine ⟨?_, ?_, rfl⟩
  · refine (congrArg (BitVec.getLsbD · 1) (regVal_regPut_self hwf (regPart p 0x220) _)).trans ?_
    simp
  · refine congrArg Part.atNonce (partOf_updPart_self ?_ _)
    exact hp

/-- A write of ATCTL that neither clears DONE nor starts a report changes nothing. -/
theorem atctlStore_none {s : State} {p : Nat} {v : W64} (hdone : v.getLsbD 2 = false)
    (h : v.getLsbD 0 = false ∨ (regVal s (regPart p 0x220)).getLsbD 1 = true) : atctlStore s p v = s := by
  simp only [atctlStore, hdone, Bool.false_eq_true, if_false]
  rcases h with h | h <;> rw [h] <;> simp

/-- A write of bytes of ATNONCE writes those and no others (R5, R450). -/
theorem regStore_atnonce {s : State} {who : Agent} {p o n val : Nat} (hwf : SMap.wf 0 s.regs = true) (hp : p < 8)
    (hwho : OwnerWrites s who p) (ho : o < 32) (hn : o % 8 + n ≤ 8) :
    let addr := regPart p (0x200 + o)
    let t := regStore s who addr n val
    regLoad t addr n = val % 2 ^ (8 * n) ∧ t = { s with regs := t.regs }
      ∧ ∀ j, j < 8 → (j < o % 8 ∨ o % 8 + n ≤ j) → regLoad t (addr / 8 * 8 + j) 1 = regLoad s (addr / 8 * 8 + j) 1 := by
  intro addr t
  have hk : o / 8 < 4 := by omega
  have hword : addr / 8 * 8 = regPart p (0x200 + 8 * (o / 8)) := by simp only [addr, regPart]; omega
  have hbyte : addr % 8 = o % 8 := by simp only [addr, regPart]; omega
  have ht : t = regPut s (regPart p (0x200 + 8 * (o / 8)))
      (mergedBits (regVal s (regPart p (0x200 + 8 * (o / 8)))) addr n val) := by
    have hreach := (writeReaches_regPart s who (off := 0x200 + 8 * (o / 8)) hp (by omega)).2 hwho
    simp only [t]
    rw [regStore_eq s who n val (by rw [hword]; exact isDoorbell_regPart hp (by omega)), hword, if_pos hreach,
      regWrite64_atnonce _ _ _ _ hp hk, regRead64_atnonce _ hp hk]
  have hread : regRead64 t (regPart p (0x200 + 8 * (o / 8)))
      = mergedBits (regVal s (regPart p (0x200 + 8 * (o / 8)))) addr n val := by
    rw [regRead64_atnonce _ hp hk, ht, regVal_regPut_self hwf]
  refine ⟨?_, ?_, ?_⟩
  · rw [regLoad, hword, hread, mergedBits_bytes_covered _ _ (by omega)]
  · rw [ht]; rfl
  · intro j hj hout
    have hj8 : (addr / 8 * 8 + j) / 8 * 8 = addr / 8 * 8 := by omega
    have hjm : (addr / 8 * 8 + j) % 8 = j := by omega
    rw [regLoad, regLoad, hj8, hjm, hword, hread, regRead64_atnonce _ hp hk,
      mergedBits_byte_kept _ _ hj (by rw [hbyte]; exact hout)]

/-! ## The attestation report (R452) -/

/-- Words put in order from `a` on: a register reads as its word, any other as before. -/
theorem regPut_range {s : State} (hwf : SMap.wf 0 s.regs = true) (a : Nat) (f : Nat → W64) (n : Nat) :
    let t := (List.range n).foldl (fun s i => regPut s (a + 8 * i) (f i)) s
    SMap.wf 0 t.regs = true ∧ t = { s with regs := t.regs } ∧ (∀ i, i < n → regVal t (a + 8 * i) = f i)
      ∧ ∀ r, (∀ i, i < n → r ≠ a + 8 * i) → regVal t r = regVal s r := by
  induction n with
  | zero => exact ⟨hwf, rfl, fun i hi => absurd hi (Nat.not_lt_zero i), fun r _ => rfl⟩
  | succ n ih =>
    simp only [List.range_succ, List.foldl_append, List.foldl_cons, List.foldl_nil]
    generalize (List.range n).foldl (fun s i => regPut s (a + 8 * i) (f i)) s = u at ih ⊢
    obtain ⟨huwf, hframe, hin, hout⟩ := ih
    refine ⟨wf_regPut huwf _ _, ?_, ?_, ?_⟩
    · rw [hframe]; rfl
    · intro i hi
      rw [regVal_regPut huwf]
      split
      · rw [show i = n by omega]
      · exact hin i (by omega)
    · intro r hr
      rw [regVal_regPut huwf, if_neg (hr n (by omega))]
      exact hout r (fun i hi => hr i (by omega))

theorem length_leBytes (n x : Nat) : (leBytes n x).length = n := by
  induction n generalizing x with
  | zero => rfl
  | succ n ih => simp [leBytes, ih]

theorem leVal_lt (b : List Byte) : leVal b < 2 ^ (8 * b.length) := by
  induction b with
  | nil => simp [leVal]
  | cons x r ih =>
    have hx := x.isLt
    have h8 : 2 ^ (8 * (r.length + 1)) = 256 * 2 ^ (8 * r.length) := by rw [Nat.mul_add, Nat.pow_add, Nat.mul_comm]
    rw [leVal, List.length_cons, h8]
    omega

theorem fld_lt (b : List Byte) (off n : Nat) : fld b off n < 2 ^ (8 * n) :=
  (leVal_lt _).trans_le (Nat.pow_le_pow_right (by decide) (by simp))

/-- A report has 2,548 bytes. -/
theorem length_report (s : State) (ver : Nat) (nonce bdig : List Byte) : (report s ver nonce bdig).length = 2548 := by
  simp [report, length_leBytes]

/-- A report stored fills the 319 registers from `a` on. -/
theorem putReport_spec {s : State} (hwf : SMap.wf 0 s.regs = true) (a : Nat) {b : List Byte} (hb : b.length = 2548) :
    SMap.wf 0 (putReport s a b).regs = true ∧ putReport s a b = { s with regs := (putReport s a b).regs }
      ∧ (∀ i, i < 319 → regVal (putReport s a b) (a + 8 * i) = BitVec.ofNat 64 (fld b (8 * i) 8))
      ∧ ∀ r, (∀ i, i < 319 → r ≠ a + 8 * i) → regVal (putReport s a b) r = regVal s r := by
  simpa only [putReport, hb] using regPut_range hwf a (fun i => BitVec.ofNat 64 (fld b (8 * i) 8)) 319

/-- The report of partition `p`: over the nonce latched and the digest in the header of the running image. -/
def atReport (s : State) (p : Nat) : List Byte :=
  report s ((regVal s (regPlat 0x18)).toNat % 2 ^ 32) (partOf s p).atNonce
    (memBytes s.flash ((if s.bootB then imageSize else 0) + 16) 32)

/-- ATCTL with BUSY clear and DONE set. -/
def atctlDone (r : W64) : W64 := (r &&& ~~~ 2#64) ||| 4

theorem attestDone_busy {s : State} {p : Nat} (hm : s.mode = .running) (hp : p < 8)
    (hbusy : (regVal s (regPart p 0x220)).getLsbD 1 = true) :
    let s1 := putReport s (regPart p 0x400) (atReport s p)
    attestDone s p = barReg (regPut s1 (regPart p 0x220) (atctlDone (regVal s1 (regPart p 0x220)))) p 0xC8 (partOf s p).hbarWin := by
  have hgo : (decide (s.mode ≠ .running) || decide (8 ≤ p) || !(regVal s (regPart p 0x220)).getLsbD 1) = false := by
    simp only [hm, hbusy, ne_eq, not_true, decide_false, Bool.false_or, Bool.not_true, Bool.or_false, decide_eq_false_iff_not]
    omega
  rw [attestDone, if_neg (by rw [hm]; decide), hgo]
  rfl

/-- A complete report is in ATREP, BUSY is clear and DONE set, and HBAR gets its arrival (R452). -/
theorem attestDone_running {s : State} {p : Nat} (hm : s.mode = .running) (hwf : SMap.wf 0 s.regs = true) (hp : p < 8)
    (hbusy : (regVal s (regPart p 0x220)).getLsbD 1 = true) :
    ∃ u, attestDone s p = barReg u p 0xC8 (partOf s p).hbarWin
      ∧ (regVal u (regPart p 0x220)).getLsbD 1 = false ∧ (regVal u (regPart p 0x220)).getLsbD 2 = true ∧ u = { s with regs := u.regs }
      ∧ ∀ i, i < 319 → (regVal u (regPart p (0x400 + 8 * i))).toNat = fld (atReport s p) (8 * i) 8 := by
  obtain ⟨hwf1, hframe, hword, -⟩ := putReport_spec hwf (regPart p 0x400) (b := atReport s p) (length_report ..)
  refine ⟨_, attestDone_busy hm hp hbusy, ?_, ?_, ?_, ?_⟩
  · rw [regVal_regPut_self hwf1]; simp [atctlDone]
  · rw [regVal_regPut_self hwf1]; simp [atctlDone]
  · exact congrArg (fun t : State => regPut t (regPart p 0x220) _) hframe
  · intro i hi
    have hne : regPart p (0x400 + 8 * i) ≠ regPart p 0x220 := by unfold regPart; omega
    have haddr : regPart p (0x400 + 8 * i) = regPart p 0x400 + 8 * i := by unfold regPart; omega
    rw [regVal_regPut hwf1, if_neg hne, haddr, hword i hi, BitVec.toNat_ofNat, Nat.mod_eq_of_lt (fld_lt _ (8 * i) 8)]

/-! ## SCFG (R404) -/

theorem demoteStack_rows (s : State) (st : Nat) : RowsOnly s (demoteStack s st) :=
  foldl_rel RowsOnly .refl .trans _ (fun s _ => rowAct_rows s st _) _ s

/-- A write of SCFG stores the age as written and DIRECT up to 32; device memory keeps its bytes, and where DIRECT stays nothing else
changes. -/
theorem scfgStore_spec {s : State} (hwf : SMap.wf 0 s.regs = true) (st : Nat) (v : W64) :
    let d := min (v.toNat % 64) 32
    let t := scfgStore s st v
    (regVal t (regStack st 0)).toNat = v.toNat / 256 % 256 * 256 + d ∧ t.mem = s.mem
      ∧ (d = directRows s st → t = { s with regs := t.regs }) := by
  intro d t
  obtain ⟨hmem, hregs⟩ := rowTouch_frame (demoteStack_rows (regPut s (regStack st 0) (BitVec.ofNat 64 (v.toNat / 256 % 256 * 256 + d))) st)
  have hstored (u : State) (hu : u.regs = (regPut s (regStack st 0) (BitVec.ofNat 64 (v.toNat / 256 % 256 * 256 + d))).regs) :
      (regVal u (regStack st 0)).toNat = v.toNat / 256 % 256 * 256 + d := by
    have hval : regVal u (regStack st 0) = BitVec.ofNat 64 (v.toNat / 256 % 256 * 256 + d) := by
      rw [regVal, hu]
      exact regVal_regPut_self hwf _ _
    rw [hval, BitVec.toNat_ofNat]
    omega
  simp only [t, scfgStore]
  split
  · exact ⟨hstored _ rfl, rfl, fun _ => rfl⟩
  · rename_i hd
    split
    · exact ⟨hstored _ hregs, hmem, fun h => absurd h hd⟩
    · exact ⟨hstored _ hregs, hmem, fun h => absurd h hd⟩

/-! ## The steps -/

/-- The step of a register that the management core writes. -/
theorem regStep_mgmt {s t : State} {a : Nat} {ok : Bool} (hm : s.mode = .running) (hwho : s.arg.who = .mgmt) (hok : ok = true)
    (ha : a % 8 = 0) (hd : isDoorbell a = false) (hw : regWrite64 s .mgmt a s.arg.val s.arg.val = t) : regStep s ok a = .next t := by
  rw [regStep, regStore_word s _ _ ha hd, hwho, hw]
  simp [hm, hok, writeReaches]

/-- The step of a register whose write does nothing. -/
theorem regStep_idle {s : State} {a : Nat} {ok : Bool} (ha : a % 8 = 0) (hd : isDoorbell a = false)
    (hw : regWrite64 s s.arg.who a s.arg.val s.arg.val = s) : regStep s ok a = .next s := by
  rw [regStep, regStore_word s _ _ ha hd, hw, ite_self, ite_self]

theorem execRegisterWrite_eq {s : State} (hm : s.mode = .running) :
    execRegisterWrite s = .next (regStore s s.arg.who s.arg.addr s.arg.len s.arg.val.toNat) := by
  rw [execRegisterWrite, if_pos hm]

/-- A host's write of a doorbell kicks its queue where the host owns the partition (R337, R442). -/
theorem execDoorbellWrite_eq {s : State} (hm : s.mode = .running) (hp : s.arg.part < 8) (hq : s.arg.q < 1024) :
    execDoorbellWrite s = .next (if hostOwns s s.arg.port s.arg.part
      then (kickQueue s s.arg.part s.arg.q s.arg.word 0 true []).1 else s) := by
  obtain ⟨-, -, -, h8⟩ := doorbellReg_block hp hq
  have h0 : doorbellReg s.arg.part s.arg.q % 8 = 0 := by omega
  have hstep : execDoorbellWrite s
      = .next (regStore s (.host s.arg.port) (doorbellReg s.arg.part s.arg.q) 4 s.arg.word.toNat) := by
    simp [execDoorbellWrite, hm, hp, hq, doorbellReg]
  rw [hstep, regStore_host, h8, hostReaches_doorbell s _ hp hq, regWrite64_doorbell _ _ _ _ hp hq, mergedBits_low_word _ _ h0]

/-! ## The statement -/

/-- Settles O45: each step goes to the write of its register, for the agents R442 admits, and the register's lemma says what that
makes. -/
theorem registerWrites : Obligations.RegisterWrites := by
  intro s p hm hwf hlen hpart hp a v admitted win barrier
  have hps : p < s.parts.length := by omega
  refine ⟨fun hmgmt => ?mgmt, fun hother => ?other, fun had => ?admitted, fun hno => ?refused, fun hbusy => ?report,
    fun hmgmt hst => ?scfg, fun hq => ?doorbell⟩
  case mgmt =>
    have hdevid : exec .devidWrite s = .next (devidStore s v) :=
      regStep_mgmt hm hmgmt rfl (by decide) (by decide) ((regWrite64_devid ..).trans (if_pos rfl))
    have hrollmin : exec .rollminWrite s = .next (rollminStore s v) :=
      regStep_mgmt hm hmgmt rfl (by decide) (by decide) ((regWrite64_rollmin ..).trans (if_pos rfl))
    rw [hdevid, hrollmin]
    exact ⟨fun h => congrArg _ (if_pos h), fun h => congrArg _ (if_neg (Bool.eq_false_iff.1 h)),
      fun h => congrArg _ (if_pos h), fun h => congrArg _ (if_neg (Nat.not_lt.2 h))⟩
  case other =>
    exact ⟨regStep_idle (by decide) (by decide) ((regWrite64_devid ..).trans (if_neg hother)),
      regStep_idle (by decide) (by decide) ((regWrite64_rollmin ..).trans (if_neg hother)),
      fun hst => regStep_idle (regStack_block hst).1 (regStack_block hst).2 ((regWrite64_scfg _ _ _ _ hst).trans (if_neg hother))⟩
  case admitted =>
    have hstep {off : Nat} {t : State} := regStep_regPart (off := off) (t := t) hm hpart hp had
    refine ⟨?drvfeat, ?sbar, ?hbar, ?tick, fun hgo hdone hidle => ?go, fun hdone h => ?noGo, fun haddr hlen => ?schev,
      fun o ho hn hfit haddr => ?atnonce⟩
    case drvfeat => exact hstep (by decide) rfl (regWrite64_drvfeat _ _ _ _ hp)
    case sbar => exact ⟨_, hstep (by decide) rfl (regWrite64_sbar _ _ _ _ hp), sbarStore_stored hwf hps⟩
    case hbar => exact ⟨_, hstep (by decide) rfl (regWrite64_hbar _ _ _ _ hp), hbarStore_stored hwf hps⟩
    case tick => exact ⟨_, hstep (by decide) rfl (regWrite64_tick _ _ _ _ hp), tickStore_spec hwf hps v⟩
    case go => exact ⟨_, hstep (by decide) rfl (regWrite64_atctl _ _ _ _ hp), atctlStore_go hwf hps hgo hdone hidle⟩
    case noGo => exact hstep (by decide) rfl ((regWrite64_atctl _ _ _ _ hp).trans (atctlStore_none hdone h))
    case schev =>
      refine (execRegisterWrite_eq hm).trans (congrArg _ ?_)
      rw [haddr, hlen, regStore_regPart hp (by decide) rfl had, regWrite64_schev _ _ _ _ hp]
    case atnonce =>
      obtain ⟨hval, hframe, hkept⟩ := regStore_atnonce (n := a.len) (val := v.toNat) hwf hp had ho hfit
      rw [← haddr] at hval hframe hkept
      exact ⟨_, execRegisterWrite_eq hm, hval, hframe, hkept⟩
  case refused =>
    have hstep {off : Nat} := regStep_regPart_refused (off := off) hpart hp hno
    exact ⟨hstep (by decide) rfl, hstep (by decide) rfl, hstep (by decide) rfl, hstep (by decide) rfl, hstep (by decide) rfl⟩
  case report =>
    obtain ⟨u, hu, h⟩ := attestDone_running hm hwf hp hbusy
    exact ⟨u, by rw [← hu, ← hpart]; rfl, h⟩
  case scfg =>
    obtain ⟨hword, hdoor⟩ := regStack_block hst
    exact ⟨scfgStore s a.stack v, regStep_mgmt hm hmgmt (decide_eq_true hst) hword hdoor
      ((regWrite64_scfg _ _ _ _ hst).trans (if_pos rfl)), scfgStore_spec hwf a.stack v⟩
  case doorbell =>
    have hkick := execDoorbellWrite_eq hm (hpart ▸ hp) hq
    rw [hpart] at hkick
    exact ⟨fun h => hkick.trans (congrArg _ (if_pos h)), fun h => hkick.trans (congrArg _ (if_neg (Bool.eq_false_iff.1 h)))⟩

end Sys2Proof.Machine
end

section
/-! The statement about steps (R52, R55, R59, R81 to R83, R158, R163): a landing without an entry puts back what its call overwrote
(R166), and a group whose registers are not in canonical form does not read it back. -/

namespace Sys2Proof.Machine
open Sys2Proof

/-! ## Delivery, and what a fault leaves in the registers -/

/-- A sound line that fetch or the core's buffer holds is delivered as it is (R11, R305). -/
theorem deliver'_held {s : State} {g : Group} {line b : Nat} (h : heldLine s g line = some b) (hb : lineSound b = true) :
    deliver' s g line = .ok (s, b) := by
  simp only [deliver', h, hb, if_true]

theorem raiseLine_groups (s : State) (ctx : Nat) (r : FaultRec) : (raiseLine s ctx r).groups = s.groups := by
  obtain ⟨_, _, _, e⟩ := raiseLine_frame s ctx r
  exact (congrArg State.groups e).trans rfl

/-- What `s[n]` of the group in a slot reads, none when the slot is EMPTY. -/
def slotS (s : State) (core slot n : Nat) : Option Nat := (groupAt s core slot).map (fun g => rdS g n)

/-- The same after an outcome. -/
def slotSAfter (o : Host.Outcome State Fault Refusal) (core slot n : Nat) : Option Nat :=
  match o with
  | .next t => slotS t core slot n
  | _ => none

/-- A group as its own fault leaves it (R386). -/
def faulted (g : Group) : Group :=
  savedAt (stopAt g (restartPc g)) (g.iss.head.isSome || g.iss.restart.isSome || g.unit.isSome)

theorem faulted_core (g : Group) : (faulted g).core = g.core := rfl
theorem faulted_slot (g : Group) : (faulted g).slot = g.slot := rfl
theorem rdS_faulted (g : Group) (n : Nat) : rdS (faulted g) n = rdS g n := rfl

theorem takeFault_groups {s : State} {g : Group} (f : Flt) (hk : g.kind ≠ .tailor) :
    (takeFault s g f).groups = (setGroup s (faulted g)).groups := by
  rw [takeFault, if_neg hk]
  exact raiseLine_groups ..

/-- A fault leaves its group in its slot with the registers it had. -/
theorem slotS_takeFault {s : State} {g : Group} {core slot : Nat} (f : Flt) (n : Nat) (hk : g.kind ≠ .tailor) (hc : g.core = core)
    (hs : g.slot = slot) (hat : groupAt s core slot ≠ none) : slotS (takeFault s g f) core slot n = some (rdS g n) := by
  rw [← hc, ← hs, ← faulted_core, ← faulted_slot] at hat ⊢
  obtain ⟨_, hat⟩ := Option.ne_none_iff_exists'.1 hat
  have hput := groupAt_setGroup_self hat
  rw [groupAt, ← takeFault_groups f hk] at hput
  rw [slotS, groupAt, hput, Option.map_some, rdS_faulted]

/-- Time and the read of the next line change no group. -/
theorem slotSAfter_moved (t : State) (g : Group) (line core slot n : Nat) :
    slotSAfter (.next (tick (fetchAhead t g line))) core slot n = slotS t core slot n := rfl

/-! ## The statement -/

/-- A group sent by a call to a slot that is no entry; the call wrote `s3` and `s4`, zero before it. The registers are not in canonical
form: `s3` is listed twice. -/
def straying : Group :=
  { probeGroup State.reset with land := some 0x10010, link := some (3, 0), s := [(3, 1), (3, 2)] }

/-- The device with that group alone and an empty line at its PC. -/
def strayed : State := { State.reset with mode := .running, groups := [straying], ibuf := [⟨0, 0, 0x10000, 0⟩] }

theorem strayed_picks : picks (due strayed) = [straying] ∧ (due strayed).agenda = [] := by decide +kernel

theorem strayed_held : groupAt (due strayed) 0 0 ≠ none := by decide +kernel

theorem strayed_lands : landBad straying 0 (straying.pc.toNat % 8) = some 0x10010 := by decide +kernel

theorem strayed_delivers : deliver' (due strayed) straying (lineOf straying.pc) = .ok (due strayed, 0) :=
  deliver'_held (by decide +kernel) (by decide +kernel)

/-- Writing zero removes the first entry of `s3` and uncovers the second. -/
theorem strayed_step : slotSAfter (step strayed) 0 0 3 = some 2 := by decide +kernel

/-- Refutes O55: its clause on a landing without an entry says that the registers of the call read what they held before, and asks no
canonical form of them; `strayed` holds a group for which a write of zero does not read back. -/
theorem not_stepRunsDecoded : ¬ Obligations.StepRunsDecoded := by
  intro h
  obtain ⟨-, -, -, -, hready, -⟩ := h strayed
  obtain ⟨hpick, hagenda⟩ := strayed_picks
  obtain ⟨hland, -⟩ := (hready straying rfl hpick hagenda rfl).2 _ _ strayed_delivers
  obtain ⟨u, hstep, -, hlink⟩ := hland 0x10010 strayed_lands
  obtain ⟨r, ⟨hr, hword, -⟩, hu⟩ := hlink 3 0 rfl
  have hkind : u.kind = .grid := (congrArg Group.kind hu).trans (congrArg Group.kind hr)
  have hcore : u.core = 0 := (congrArg Group.core hu).trans (congrArg Group.core hr)
  have hslot : u.slot = 0 := (congrArg Group.slot hu).trans (congrArg Group.slot hr)
  have hzero : rdS u 3 = 0 := (congrArg (rdS · 3) hu).trans (hword 0 (by decide))
  have hread : slotSAfter (step strayed) 0 0 3 = some (rdS u 3) := by
    rw [hstep]
    exact (slotSAfter_moved ..).trans (slotS_takeFault (g := { u with pc := 0x10010, land := none, iss := default }) _ 3
      (hkind ▸ by decide) hcore hslot strayed_held)
  rw [strayed_step, hzero] at hread
  exact absurd hread (by decide)

end Sys2Proof.Machine
end

section
/-! What the statement about returned memory asks of the translation buffers: that the leaf a walk found is cached when the step ends. The
walk of a shape page caches the leaf of its descriptor's page too, and a full buffer gives up the entry that `Config.evict` picks, which
R207 leaves open: a proof of the statement would fix that choice. -/

namespace Sys2Proof.Machine
open Sys2Proof

/-- A walk that ends keeps its leaf, and what the leaf's descriptor took (R203, R205, R207). -/
theorem exec_pageWalkDone {s : State} {c : Ctx} {t : TlbEnt} (hc : ctxOf s s.arg.ctx = some c)
    (ht : lookup s (4 * s.arg.core + s.arg.slot / 17) s.arg.ctx s.arg.addr = .ok t) :
    exec .pageWalkDone s = .next (cacheEnts s [t]) := by
  change execPageWalkDone s = _
  simp only [execPageWalkDone, hc, ht]

/-- A full buffer loses the entry that `Config.evict` picks (R207). -/
theorem keepEnt_full {turn n : Nat} {l : List TlbEnt} {e v : TlbEnt} (hnew : e ∉ l) (hn : (l.filter (fun t => t.buf = e.buf)).length = n)
    (hfull : (if e.buf < 1536 then 64 else 8192) ≤ n)
    (hv : (l.filter (fun t => t.buf = e.buf)).getD (Config.evict turn e.buf e.base % n) default = v) :
    keepEnt turn l e = l.erase v ++ [e] := by
  subst hn hv
  simp [keepEnt, hnew, hfull]

theorem keepEnt_held {turn : Nat} {l : List TlbEnt} {e : TlbEnt} (h : e ∈ l) : keepEnt turn l e = l := by
  rw [keepEnt, if_pos (List.contains_iff_mem.2 h)]

/-- The leaf of the page that holds the shape descriptors, in a buffer. -/
def descPage (buf : Nat) : TlbEnt := ⟨buf, 0, 0x10000, 0, 0x10003, []⟩

/-- A leaf of a shape page, with descriptor 0 or before it is read. -/
def shapeLeaf (desc : List Byte) : TlbEnt := ⟨0, 0, 0, 0, 0x13, desc⟩

/-- Descriptor 0, in the form of R205. -/
def shapeZero : List Byte := leBytes 16 0 ++ [5, 6, 1] ++ leBytes 45 0

/-- A first-level buffer of 63 entries, one of them a shape page's leaf whose descriptor is yet to be read. -/
def crowded : State :=
  { State.reset with
    ctxs := [{ Ctx.firmware with sdtb := 0x10000, sdtn := 1 }]
    mem := memPut [] 0x10010 [5, 6, 1]
    tlb := shapeLeaf [] :: descPage 1536 :: (List.range 62).map (fun i => ⟨0, 1, 2 ^ 16 * i, 0, 0x3, []⟩) }

/-- Its translations once the shape page's leaf is kept, at both levels. -/
def crowdedTlb : List TlbEnt := crowded.tlb ++ [shapeLeaf shapeZero, { shapeLeaf shapeZero with buf := 1536 }]

theorem crowded_lookup : lookup crowded 0 0 0 = .ok (shapeLeaf shapeZero) := by
  have h : (lookup crowded 0 0 0).toOption = some (shapeLeaf shapeZero) := by decide +kernel
  cases hl : lookup crowded 0 0 0 with
  | error f => rw [hl] at h; cases h
  | ok t => rw [hl] at h; exact congrArg _ (Option.some.inj h)

theorem crowded_descReads : (descReads crowded [shapeLeaf shapeZero]).map (fun d => d.1) = [descPage 0] := by decide +kernel

theorem crowded_keeps : keepEnt 0 (keepEnt 0 crowded.tlb (shapeLeaf shapeZero)) { shapeLeaf shapeZero with buf := 1536 } = crowdedTlb := by
  decide +kernel

theorem crowded_caches : (cacheEnts crowded [shapeLeaf shapeZero]).tlb = keepEnt 0 (keepEnt 0 crowdedTlb (descPage 0)) (descPage 1536) := by
  rw [← crowded_keeps]
  simp only [cacheEnts, crowded_descReads]
  rfl

/-- The shape page's leaf is the last of its buffer's 64, and is cached once. -/
theorem crowdedTlb_full : (crowdedTlb.filter (fun t => t.buf = 0)).length = 64
    ∧ (crowdedTlb.filter (fun t => t.buf = 0)).getD 63 default = shapeLeaf shapeZero
    ∧ shapeLeaf shapeZero ∉ crowdedTlb.erase (shapeLeaf shapeZero) ++ [descPage 0]
    ∧ descPage 0 ∉ crowdedTlb ∧ descPage 1536 ∈ crowdedTlb.erase (shapeLeaf shapeZero) := by decide +kernel

/-- MemoryReturns holds only if the open choice of `Config.evict` spares the leaf just kept. -/
theorem evict_of_memoryReturns (h : Obligations.MemoryReturns) : Config.evict 0 0 0x10000 % 64 ≠ 63 := by
  intro hevict
  obtain ⟨hlen, hlast, hgone, hnew, hheld⟩ := crowdedTlb_full
  obtain ⟨-, hwalk, -⟩ := h crowded
  obtain ⟨u, hu, hkept, -⟩ := hwalk _ _ rfl crowded_lookup
  rw [exec_pageWalkDone rfl crowded_lookup] at hu
  cases hu
  have hfull : keepEnt 0 crowdedTlb (descPage 0) = crowdedTlb.erase (shapeLeaf shapeZero) ++ [descPage 0] :=
    keepEnt_full hnew hlen (by decide) ((congrArg (List.getD _ · default) hevict).trans hlast)
  rw [crowded_caches, hfull, keepEnt_held (List.mem_append_left _ hheld)] at hkept
  exact hgone hkept

end Sys2Proof.Machine
end

section
namespace Sys2Proof.Machine
open Sys2Proof

/-! # What the statement about returned memory asks of the buffers

All that `Obligations.MemoryReturns` says holds of the model once a leaf just found stays in its buffer (`LeafKept`), which the open choice
of `Config.evict` decides: it does where the first entry of a full buffer is given up (`leafKept_of_evict_first`), and not where the last
is (`evict_of_memoryReturns`). -/

/-! ## What ends with a transaction (R424, R431, R443) -/

/-- What the end of a transaction changes: the link's transactions and interrupts, what is due and what is sent. -/
def LinkOnly (s t : State) : Prop := ∃ xs iq ag o n, t = { s with xacts := xs, irqs := iq, agenda := ag, out := o, nextId := n }

theorem LinkOnly.refl (s : State) : LinkOnly s s := ⟨s.xacts, s.irqs, s.agenda, s.out, s.nextId, rfl⟩
theorem LinkOnly.trans (a b c : State) (h : LinkOnly a b) (k : LinkOnly b c) : LinkOnly a c := by
  obtain ⟨_, _, _, _, _, rfl⟩ := h
  obtain ⟨_, _, _, _, _, rfl⟩ := k
  exact ⟨_, _, _, _, _, rfl⟩
theorem LinkOnly.groups {s t : State} (h : LinkOnly s t) : t.groups = s.groups := by
  obtain ⟨_, _, _, _, _, e⟩ := h; exact (congrArg State.groups e).trans rfl
theorem LinkOnly.mem {s t : State} (h : LinkOnly s t) : t.mem = s.mem := by
  obtain ⟨_, _, _, _, _, e⟩ := h; exact (congrArg State.mem e).trans rfl
theorem LinkOnly.posted {s t : State} (h : LinkOnly s t) : t.posted = s.posted := by
  obtain ⟨_, _, _, _, _, e⟩ := h; exact (congrArg State.posted e).trans rfl

theorem enqueueOnce_link (s : State) (i : Instr) (a : Arg) : LinkOnly s (enqueueOnce s i a) := by
  obtain ⟨ag, e⟩ := enqueueOnce_frame s i a
  exact ⟨s.xacts, s.irqs, ag, s.out, s.nextId, e⟩
theorem emitXact_link (s : State) (x : Xact) : LinkOnly s (emitXact s x) := ⟨s.xacts, s.irqs, s.agenda, _, s.nextId, rfl⟩
theorem sendXact_link (s : State) (x : Xact) : LinkOnly s (sendXact s x) := by
  obtain ⟨xs, o, e⟩ := sendXact_frame s x
  exact ⟨xs, s.irqs, s.agenda, o, s.nextId, e⟩
theorem sendMessage_link (s : State) (w : Sender) (p : Nat) (b : List Byte) (dev : Nat) (vc : SMap Nat) :
    LinkOnly s (sendMessage s w p b dev vc) := by
  simp only [sendMessage]
  split
  · split
    · exact ⟨_, s.irqs, _, s.out, _, rfl⟩
    · exact ⟨_, s.irqs, _, s.out, _, rfl⟩
  · split
    · exact .trans _ (freshTag s).1 _ ⟨s.xacts, s.irqs, s.agenda, s.out, _, rfl⟩ (sendXact_link ..)
    · exact .refl s
theorem sendIrq_link (s : State) (q : Irq) : LinkOnly s (sendIrq s q) := by
  unfold sendIrq
  split
  · exact ⟨s.xacts, s.irqs, s.agenda, _, s.nextId, rfl⟩
  · exact sendMessage_link ..
theorem sendIrqs_link (s : State) : LinkOnly s (sendIrqs s) :=
  .trans _ { s with irqs := s.irqs.filter (fun q => q.tags ≠ []) } _ ⟨s.xacts, _, s.agenda, s.out, s.nextId, rfl⟩
    (foldl_rel LinkOnly .refl .trans _ sendIrq_link _ _)
theorem sendHeld_link (s : State) : LinkOnly s (sendHeld s) := by
  refine foldl_rel LinkOnly .refl .trans _ (fun s x => ?_) _ _
  simp only
  split_ifs
  · exact .refl s
  · exact .trans _ _ _ ⟨_, s.irqs, s.agenda, s.out, s.nextId, rfl⟩ (emitXact_link ..)
  · exact .trans _ _ _ ⟨_, s.irqs, s.agenda, s.out, s.nextId, rfl⟩ (enqueueOnce_link ..)
theorem dropXact_link (s : State) (tag : Nat) : LinkOnly s (dropXact s tag) := by
  refine .trans _ _ _ (.trans _ _ _ (.trans _ _ _ ?_ (foldl_rel LinkOnly .refl .trans _ (fun s k => enqueueOnce_link ..) _ _))
    (sendHeld_link _)) (sendIrqs_link _)
  exact ⟨_, _, s.agenda, s.out, s.nextId, rfl⟩
theorem drainLook_link (s : State) (port : Nat) : LinkOnly s (drainLook s port) := by
  unfold drainLook
  split
  · exact enqueueOnce_link ..
  · exact .refl s
theorem endXact_link (s : State) (x : Xact) : LinkOnly s (endXact s x) := .trans _ _ _ (dropXact_link s x.tag) (drainLook_link ..)

theorem drainLook_idle {s : State} {port : Nat} (h : (portAt s port).st ≠ 4) : drainLook s port = s := if_neg h

/-- The end of a transaction that nothing waits for. -/
theorem endXact_quiet {s : State} {x : Xact} (hport : (portAt s x.port).st ≠ 4) (hpkts : s.pkts = []) (hirqs : s.irqs = [])
    (hsent : ∀ y ∈ s.xacts, y.unsent = false) : endXact s x = { s with xacts := s.xacts.filter (fun y => y.tag ≠ x.tag) } := by
  have hheld : (s.xacts.filter (fun y => y.tag ≠ x.tag)).filter (fun y => y.unsent) = [] :=
    List.filter_eq_nil_iff.2 (fun y hy => by rw [hsent y (List.mem_filter.1 hy).1]; decide)
  have hdrop : dropXact s x.tag = { s with xacts := s.xacts.filter (fun y => y.tag ≠ x.tag) } := by
    simp only [dropXact, hpkts, hirqs, List.filter_nil, List.foldl_nil, List.map_nil, sendHeld, hheld, sendIrqs]
  rw [endXact, hdrop]
  exact drainLook_idle hport

theorem xactOf_tag {s : State} {tag : Nat} {x : Xact} (h : xactOf s tag = some x) : x.tag = tag := by
  simpa using List.find?_some h

/-! ## A group held until a store is accepted (R210, R443) -/

/-- Whether a group is held for a tag that is no load's of its own. -/
def awaitsStore (tag : Nat) (g : Group) : Bool :=
  (match g.wait with | .ext tags => tags.contains tag | _ => false) && g.loads.all (fun p => p.tag ≠ tag)

theorem storeAccepted_none {s : State} {tag : Nat} (h : s.groups.find? (awaitsStore tag) = none) : storeAccepted s tag = s := by
  change (match s.groups.find? (awaitsStore tag) with | some g => holdEnds s g tag | none => s) = s
  rw [h]

theorem storeAccepted_some {s : State} {tag : Nat} {g : Group} {tags : List Nat} (h : s.groups.find? (awaitsStore tag) = some g)
    (hw : g.wait = .ext tags) : storeAccepted s tag = if tags.erase tag = []
      then (if g.todo = [] then finish s g else goLanes s { g with todo := [] } g.todo)
      else setGroup s { g with wait := .ext (tags.erase tag) } := by
  have hin : tags.contains tag = true := by
    have := List.find?_some h
    rw [awaitsStore, hw, Bool.and_eq_true] at this
    exact this.1
  change (match s.groups.find? (awaitsStore tag) with | some g => holdEnds s g tag | none => s) = _
  rw [h]
  simp only [holdEnds, hw, hin, Bool.not_true, Bool.false_eq_true, if_false]

/-! ## The data of a load (R210 to R214, R225) -/

theorem wrVs_v {g : Group} (n l : Nat) (xs : List Nat) :
    wrVs g n l xs = { g with v := SMap.putAll 0 g.v (xs.zipIdx.map (fun xi => (64 * (n + xi.2) + l, BitVec.ofNat 32 xi.1))) } := by
  unfold wrVs SMap.putAll
  rw [List.foldl_map]
  generalize xs.zipIdx = l'
  induction l' generalizing g with
  | nil => rfl
  | cons p r ih => simp only [List.foldl_cons]; rw [ih]; rfl

/-- The registers that `k` words a lane write, for each listed lane with its value. -/
def laneWrites (n k : Nat) (ls : List (Nat × Nat)) : List (Nat × W32) :=
  ls.flatMap (fun lx => (words k lx.2).zipIdx.map (fun xi => (64 * (n + xi.2) + lx.1, BitVec.ofNat 32 xi.1)))

theorem mem_laneWrites {n k : Nat} {ls : List (Nat × Nat)} {p : Nat × W32} : p ∈ laneWrites n k ls
    ↔ ∃ l x i, (l, x) ∈ ls ∧ i < k ∧ p = (64 * (n + i) + l, BitVec.ofNat 32 (wordOfVal x i)) := by
  simp only [laneWrites, List.mem_flatMap, List.mem_map, Prod.exists, mem_words_zipIdx]
  constructor
  · rintro ⟨l, x, hl, w, i, ⟨hi, rfl⟩, rfl⟩
    exact ⟨l, x, i, hl, hi, rfl⟩
  · rintro ⟨l, x, i, hl, hi, rfl⟩
    exact ⟨l, x, hl, _, i, ⟨hi, rfl⟩, rfl⟩

/-- The lanes written one after the other. -/
theorem foldl_putLane_v (n : BitVec 8) (k : Nat) (ls : List (Nat × Nat)) (g : Group) :
    ls.foldl (fun g lx => putLane g (.v n) k lx.1 lx.2) g = { g with v := SMap.putAll 0 g.v (laneWrites n.toNat k ls) } := by
  induction ls generalizing g with
  | nil => rfl
  | cons a r ih =>
    rw [List.foldl_cons, ih]
    simp only [putLane, wrVs_v, laneWrites, List.flatMap_cons, SMap.putAll, List.foldl_append]

/-- `k` words of a value of its own in each listed lane, and nothing else, when no lane is listed twice. -/
theorem foldl_putLane_spec {g : Group} (hg : SMap.wf 0 g.v = true) (n : BitVec 8) (k : Nat) {ls : List (Nat × Nat)}
    (hdup : (ls.map Prod.fst).Nodup) (hlt : ∀ p ∈ ls, p.1 < 64) :
    ∃ h, ls.foldl (fun g lx => putLane g (.v n) k lx.1 lx.2) g = h ∧ h = { g with v := h.v }
      ∧ (∀ l x i, (l, x) ∈ ls → i < k → rdV h (n.toNat + i) l = wordOfVal x i)
      ∧ (∀ m l, l < 64 → ¬ (l ∈ ls.map Prod.fst ∧ n.toNat ≤ m ∧ m < n.toNat + k) → rdV h m l = rdV g m l) := by
  refine ⟨_, foldl_putLane_v n k ls g, rfl, fun l x i hl hi => ?_, fun m l hl hout => ?_⟩
  · have hget : SMap.get 0 (SMap.putAll 0 g.v (laneWrites n.toNat k ls)) (64 * (n.toNat + i) + l) = BitVec.ofNat 32 (wordOfVal x i) := by
      refine SMap.get_putAll_eq hg (fun p hp hk => ?_) ⟨_, mem_laneWrites.2 ⟨l, x, i, hl, hi, rfl⟩, rfl⟩
      obtain ⟨l', x', i', hl', hi', rfl⟩ := mem_laneWrites.1 hp
      have := hlt _ hl
      have := hlt _ hl'
      simp only at *
      obtain rfl : l' = l := by omega
      obtain rfl : i' = i := by omega
      rw [List.inj_on_of_nodup_map hdup hl' hl rfl |> Prod.mk.inj |>.2]
    exact (congrArg BitVec.toNat hget).trans (toNat_word x i)
  · refine congrArg BitVec.toNat (SMap.get_putAll_ne hg (fun p hp hk => hout ?_))
    obtain ⟨l', x', i', hl', hi', rfl⟩ := mem_laneWrites.1 hp
    have := hlt _ hl'
    simp only at *
    obtain rfl : l' = l := by omega
    exact ⟨List.mem_map.2 ⟨_, hl', rfl⟩, by omega, by omega⟩

/-- The lanes of a load in flight, each with the value that its data gives it. -/
def laneValues (p : PendLoad) (vals : List (BitVec 128)) : List (Nat × Nat) :=
  p.lanes.zipIdx.map (fun li => (li.1, extendLd p.signed p.bytes ((vals.getD li.2 0).toNat % 2 ^ (8 * p.bytes))))

theorem laneValues_fst (p : PendLoad) (vals : List (BitVec 128)) : (laneValues p vals).map Prod.fst = p.lanes := by
  simp [laneValues, Function.comp_def]

theorem mem_laneValues {p : PendLoad} {vals : List (BitVec 128)} {k l : Nat} (h : p.lanes[k]? = some l) :
    (l, extendLd p.signed p.bytes ((vals.getD k 0).toNat % 2 ^ (8 * p.bytes))) ∈ laneValues p vals :=
  List.mem_map.2 ⟨(l, k), List.mem_zipIdx_iff_getElem?.2 h, rfl⟩

/-- A load's data returns to its group. -/
theorem loadReturns_eq {s : State} {tag : Nat} {g : Group} {p : PendLoad} (h : loadGroup s tag = some (g, p)) (vals : List (BitVec 128)) :
    loadReturns s tag vals =
      let g1 := (laneValues p vals).foldl (fun g lx => putLane g p.dst p.words lx.1 lx.2) g
      loadEnds s (if p.key = 0 then g1 else noteRead s g1 p.key p.bytes p.acq) tag := by
  simp only [loadReturns, h, laneValues, List.foldl_map]

/-- `k` words of a value in `s[n]` on. -/
theorem wrSs_written {g : Group} (hg : SMap.wf 0 g.s = true) (n k x : Nat) : WrittenS g (wrSs g n (words k x)) n k x := by
  rw [wrSs_s]
  refine ⟨rfl, fun i hi => ?_, fun m hm => ?_⟩
  · have hget : SMap.get 0 (SMap.putAll 0 g.s (resultS n k x)) (n + i) = BitVec.ofNat 32 (wordOfVal x i) := by
      refine SMap.get_putAll_eq hg (fun p hp hk => ?_) ⟨_, mem_resultS.2 ⟨i, hi, rfl⟩, rfl⟩
      obtain ⟨j, -, rfl⟩ := mem_resultS.1 hp
      rw [Nat.add_left_cancel hk]
    exact (congrArg BitVec.toNat hget).trans (toNat_word x i)
  · refine congrArg BitVec.toNat (SMap.get_putAll_ne (l := resultS n k x) hg (fun p hp hk => hm ?_))
    obtain ⟨j, hj, rfl⟩ := mem_resultS.1 hp
    simp only at hk
    omega

/-- A load that fails: precise at a blocking load of a port, else imprecise (R225, R227). -/
theorem loadFails_eq {s : State} {tag : Nat} {g : Group} {p : PendLoad} (h : loadGroup s tag = some (g, p)) (reason : Nat) :
    loadFails s tag reason = if p.blocking && p.port.isSome
      then takeFault s { g with loads := g.loads.filter (fun q => !(q.blocking && q.pc = p.pc)), todo := [] }
        ⟨reason, 0, p.vas.headD 0, maskOf p.lanes, 0⟩
      else lateFault (loadEnds s g tag) g.ctx g.core g.slot reason p.pc (p.vas.headD 0) := by
  simp only [loadFails, h, mkFlt]

/-! ## Translations kept (R203, R205, R207) -/

/-- What a unit's reads leave, by the fields they may change. -/
def ReadsFrame (s t : State) : Prop :=
  (∃ tl rw ag o n, t = { s with tlb := tl, rows := rw, agenda := ag, out := o, nextId := n }) ∧ SendsReads s t

theorem ReadsFrame.refl (s : State) : ReadsFrame s s := ⟨⟨s.tlb, s.rows, s.agenda, s.out, s.nextId, rfl⟩, [], by simp⟩
theorem ReadsFrame.trans (a b c : State) (h : ReadsFrame a b) (k : ReadsFrame b c) : ReadsFrame a c := by
  obtain ⟨⟨_, _, _, _, _, hb⟩, o, ho, hreads⟩ := h
  obtain ⟨⟨_, _, _, _, _, hc⟩, o', ho', hreads'⟩ := k
  refine ⟨⟨_, _, _, _, _, hc.trans (by rw [hb])⟩, o ++ o', by rw [ho', ho, List.append_assoc], fun y hy => ?_⟩
  exact (List.mem_append.1 hy).elim (hreads y) (hreads' y)
theorem ReadsFrame.readsOnly {s t : State} (h : ReadsFrame s t) : ReadsOnly s t := by
  obtain ⟨⟨_, _, _, _, _, rfl⟩, hreads⟩ := h
  exact ⟨rfl, hreads⟩
theorem RowsOnly.reads {s t : State} (h : RowsOnly s t) : ReadsFrame s t := by
  obtain ⟨rw', ag, e⟩ := h.frame
  exact ⟨⟨s.tlb, rw', ag, s.out, s.nextId, e⟩, [], by rw [e]; simp⟩

theorem unitTouch_reads (s : State) (loc : Loc) (n : Nat) : ReadsFrame s (unitTouch s loc n) := by
  unfold unitTouch
  split
  · exact (touchRows_rows ..).reads
  · split
    · exact ⟨⟨s.tlb, s.rows, s.agenda, _, _, rfl⟩, [_], rfl, fun y hy => ⟨_, _, _, _, _, List.mem_singleton.1 hy⟩⟩
    · exact .refl s
  · exact .refl s

theorem cacheEnts_reads (s : State) (l : List TlbEnt) : ReadsFrame s (cacheEnts s l) := by
  have hu : ReadsFrame s ((descReads s l).foldl (fun s d => unitTouch s d.2 64) (walkTouch s (l ++ (descReads s l).map (fun d => d.1)))) :=
    .trans _ _ _ (walkTouch_rows ..).reads (foldl_rel ReadsFrame .refl .trans _ (fun s (d : TlbEnt × Loc) => unitTouch_reads s d.2 64) _ _)
  exact ⟨⟨_, _, _, _, _, rfl⟩, hu.2⟩

theorem unitTouch_tlb (s : State) (loc : Loc) (n : Nat) : (unitTouch s loc n).tlb = s.tlb := by
  unfold unitTouch
  split
  · obtain ⟨_, _, e⟩ := (touchRows_rows s _ n false _).frame
    exact (congrArg State.tlb e).trans rfl
  · split
    · rfl
    · rfl
  · rfl

/-- An entry kept: it is there already, or is added last, in a full buffer in the place of the entry of it that `Config.evict` picks. -/
theorem keepEnt_cases (turn : Nat) (l : List TlbEnt) (e : TlbEnt) :
    (e ∈ l ∧ keepEnt turn l e = l) ∨ (e ∉ l ∧ keepEnt turn l e = l ++ [e]) ∨ (e ∉ l ∧ ∃ own v, l.filter (fun t => t.buf = e.buf) = own
      ∧ (if e.buf < 1536 then 64 else 8192) ≤ own.length ∧ own[Config.evict turn e.buf e.base % own.length]? = some v
      ∧ keepEnt turn l e = l.erase v ++ [e]) := by
  by_cases hin : e ∈ l
  · exact .inl ⟨hin, keepEnt_held hin⟩
  · by_cases hfull : (if e.buf < 1536 then 64 else 8192) ≤ (l.filter (fun t => t.buf = e.buf)).length
    · have hlt : Config.evict turn e.buf e.base % (l.filter (fun t => t.buf = e.buf)).length < (l.filter (fun t => t.buf = e.buf)).length :=
        Nat.mod_lt _ (by split at hfull <;> omega)
      exact .inr (.inr ⟨hin, _, _, rfl, hfull, List.getElem?_eq_getElem hlt,
        keepEnt_full hin rfl hfull (List.getD_eq_getElem _ _ hlt)⟩)
    · exact .inr (.inl ⟨hin, by simp [keepEnt, hin, hfull]⟩)

theorem mem_keepEnt_self (turn : Nat) (l : List TlbEnt) (e : TlbEnt) : e ∈ keepEnt turn l e := by
  obtain ⟨hin, h⟩ | ⟨-, h⟩ | ⟨-, _, _, -, -, -, h⟩ := keepEnt_cases turn l e
  · rwa [h]
  all_goals rw [h]; exact List.mem_append_right _ (List.mem_singleton.2 rfl)

theorem filter_erase_of_neg {α : Type} [DecidableEq α] {p : α → Bool} {v : α} (h : p v = false) (l : List α) :
    (l.erase v).filter p = l.filter p := by
  induction l with
  | nil => rfl
  | cons a r ih =>
    rw [List.erase_cons]
    split
    · rename_i he
      rw [eq_of_beq he, List.filter_cons, h]
      rfl
    · rw [List.filter_cons, List.filter_cons, ih]

/-- An entry of one buffer takes no room of another's. -/
theorem filter_keepEnt_other (turn : Nat) (l : List TlbEnt) {e : TlbEnt} {b : Nat} (h : e.buf ≠ b) :
    (keepEnt turn l e).filter (fun t => t.buf = b) = l.filter (fun t => t.buf = b) := by
  obtain ⟨-, hk⟩ | ⟨-, hk⟩ | ⟨-, own, v, rfl, -, hv, hk⟩ := keepEnt_cases turn l e
  · rw [hk]
  · rw [hk, List.filter_append]; simp [h]
  · have hbuf : v.buf = e.buf := of_decide_eq_true (List.mem_filter.1 (List.mem_of_getElem? hv)).2
    rw [hk, List.filter_append, filter_erase_of_neg (by simpa [hbuf] using h)]
    simp [h]

theorem mem_keepEnt_other (turn : Nat) {l : List TlbEnt} {t e : TlbEnt} (ht : t ∈ l) (h : e.buf ≠ t.buf) : t ∈ keepEnt turn l e := by
  have : t ∈ (keepEnt turn l e).filter (fun u => u.buf = t.buf) := by
    rw [filter_keepEnt_other turn l h]
    exact List.mem_filter.2 ⟨ht, decide_eq_true rfl⟩
  exact (List.mem_filter.1 this).1

/-- An entry of its buffer stays when its field's buffer takes it too. -/
theorem mem_keepEnt_level2 (turn : Nat) {l : List TlbEnt} {t e : TlbEnt} (ht : t ∈ l) (he : e ∈ l) (hb : e.buf = t.buf) :
    t ∈ keepEnt turn l { e with buf := level2 e.buf } := by
  by_cases h : level2 e.buf = e.buf
  · rw [h]
    exact (keepEnt_held (e := e) he).symm ▸ ht
  · exact mem_keepEnt_other turn ht (fun h' => h (h'.trans hb.symm))

/-- A translation kept at both levels. -/
def keepBoth (turn : Nat) (l : List TlbEnt) (e : TlbEnt) : List TlbEnt := keepEnt turn (keepEnt turn l e) { e with buf := level2 e.buf }

theorem cacheEnts_tlb (s : State) (l : List TlbEnt) :
    (cacheEnts s l).tlb = (l ++ (descReads s l).map (fun d => d.1)).foldl (keepBoth s.turn) s.tlb := rfl

theorem mem_keepBoth_self (turn : Nat) (l : List TlbEnt) (e : TlbEnt) : e ∈ keepBoth turn l e :=
  mem_keepEnt_level2 turn (mem_keepEnt_self ..) (mem_keepEnt_self ..) rfl

/-- What translations are of: the buffer and context asked for, and a page that starts where its level says. -/
theorem cached_spec {s : State} {buf ctx va : Nat} {t : TlbEnt} (h : cached s buf ctx va = some t) :
    t.buf = buf ∧ t.ctx = ctx ∧ va / lvlSize t.lvl * lvlSize t.lvl = t.base := by
  unfold cached at h
  simp only at h
  split at h
  · rename_i u hu
    obtain rfl := Option.some.inj h
    simpa [and_assoc] using List.find?_some hu
  · obtain ⟨u, hu, rfl⟩ := Option.map_eq_some_iff.1 h
    have := List.find?_some hu
    simp only [Bool.and_eq_true, decide_eq_true_eq] at this
    exact ⟨rfl, this.1.2, this.2⟩

theorem plainEnt_spec {s : State} {buf ctx va : Nat} {t : TlbEnt} (h : plainEnt s buf ctx va = .ok t) :
    t.buf = buf ∧ t.ctx = ctx ∧ va / lvlSize t.lvl * lvlSize t.lvl = t.base := by
  unfold plainEnt at h
  split at h
  · obtain rfl := Except.ok.inj h
    exact cached_spec ‹_›
  · split at h
    · cases h
    · obtain rfl := Except.ok.inj h
      exact ⟨rfl, rfl, rfl⟩

theorem lookup_spec {s : State} {buf ctx va : Nat} {t : TlbEnt} (h : lookup s buf ctx va = .ok t) :
    t.buf = buf ∧ t.ctx = ctx ∧ va / lvlSize t.lvl * lvlSize t.lvl = t.base := by
  unfold lookup at h
  split at h
  · cases h
  · have hp := plainEnt_spec ‹_›
    split at h
    · split at h
      · cases h
      · obtain rfl := Except.ok.inj h
        exact hp
    · obtain rfl := Except.ok.inj h
      exact hp

theorem descAt_buf {s : State} {buf ctx i : Nat} {d : TlbEnt × Loc} (h : descAt s buf ctx i = .ok d) : d.1.buf = buf := by
  unfold descAt at h
  split at h
  · cases h
  · simp only [Except.bind] at h
    split at h
    · cases h
    · have hp := (plainEnt_spec ‹_›).1
      unfold normalLoc at h
      split at h
      · cases h
      · split at h
        · split at h
          · cases Except.ok.inj h; exact hp
          · cases h
        · cases Except.ok.inj h; exact hp
        · cases h

/-- The one read of a descriptor that a translation may take: only where no buffer holds its page's leaf with it (R205). -/
theorem descReads_single (s : State) (t : TlbEnt) : descReads s [t] = [] ∨ ∃ d, descReads s [t] = [d] ∧ d.1.buf = t.buf
    ∧ t.desc ≠ [] ∧ ∀ u, cached s t.buf t.ctx t.base = some u → u.desc = [] := by
  unfold descReads
  rw [List.filter_cons, List.filter_nil]
  split
  · rename_i hc
    simp only [Bool.and_eq_true, Bool.not_eq_true', List.isEmpty_eq_false_iff] at hc
    cases hd : descAt s t.buf t.ctx (bits t.leaf.toNat 53 38) with
    | error f => exact .inl (by simp [hd, Except.toOption])
    | ok d =>
      refine .inr ⟨d, by simp [hd, Except.toOption], descAt_buf hd, hc.1, fun u hu => ?_⟩
      have := hc.2
      rw [hu] at this
      simpa using this
  · exact .inl rfl

/-! ## The leaf that a walk found -/

/-- Whether the leaf of a translation is cached once it has been kept: what the statement asks of the buffers. -/
def LeafKept : Prop :=
  ∀ (s : State) (buf ctx va : Nat) (t : TlbEnt), lookup s buf ctx va = .ok t → t ∈ (cacheEnts s [t]).tlb

/-- The first entry of a buffer. -/
def firstOf (l : List TlbEnt) (b : Nat) : Option TlbEnt := (l.filter (fun t => t.buf = b)).head?

/-- The first entry of a buffer is what a look at its page finds. -/
theorem cached_firstOf {s : State} {t : TlbEnt} (h : firstOf s.tlb t.buf = some t)
    (ha : t.base / lvlSize t.lvl * lvlSize t.lvl = t.base) : cached s t.buf t.ctx t.base = some t := by
  have hfind : s.tlb.find? (fun u => u.buf = t.buf && u.ctx = t.ctx && t.base / lvlSize u.lvl * lvlSize u.lvl = u.base) = some t := by
    unfold firstOf at h
    rw [List.head?_filter] at h
    obtain ⟨_, as, bs, hl, has⟩ := List.find?_eq_some_iff_append.1 h
    refine List.find?_eq_some_iff_append.2 ⟨by simp [ha], as, bs, hl, fun u hu => ?_⟩
    have := has u hu
    simp only [Bool.not_eq_true', decide_eq_false_iff_not] at this
    simp [this]
  simp only [cached, hfind]

/-- After a leaf is kept at both levels, it is the first of a full buffer only where it was the first before. -/
theorem firstOf_keepBoth {turn : Nat} {l : List TlbEnt} {t : TlbEnt} (h : firstOf (keepBoth turn l t) t.buf = some t)
    (hfull : 2 ≤ ((keepBoth turn l t).filter (fun u => u.buf = t.buf)).length) : firstOf l t.buf = some t := by
  have hsame : (keepBoth turn l t).filter (fun u => u.buf = t.buf) = (keepEnt turn l t).filter (fun u => u.buf = t.buf) := by
    by_cases hb : level2 t.buf = t.buf
    · unfold keepBoth
      rw [hb]
      exact congrArg _ (keepEnt_held (e := t) (mem_keepEnt_self ..))
    · exact filter_keepEnt_other turn _ hb
  have hnew {r : List TlbEnt} (hr : t ∉ r) (hk : keepEnt turn l t = r ++ [t]) : False := by
    rw [firstOf, hsame, hk, List.filter_append] at h
    rw [hsame, hk, List.filter_append] at hfull
    cases hf : r.filter (fun u => u.buf = t.buf) with
    | nil => rw [hf] at hfull; simp at hfull
    | cons a as =>
      rw [hf] at h
      obtain rfl : a = t := by simpa using h
      exact hr (List.mem_filter.1 (hf ▸ List.mem_cons_self)).1
  obtain ⟨-, hk⟩ | ⟨hin, hk⟩ | ⟨hin, _, v, -, -, -, hk⟩ := keepEnt_cases turn l t
  · rwa [firstOf, hsame, hk] at h
  · exact (hnew hin hk).elim
  · exact (hnew (fun hm => hin (List.mem_of_mem_erase hm)) hk).elim

/-- Where a full buffer gives up its first entry, a leaf just kept stays. -/
theorem leafKept_of_evict_first (hevict : ∀ turn buf base, Config.evict turn buf base = 0) : LeafKept := by
  intro s buf ctx va t hlook
  obtain ⟨-, -, hbase⟩ := lookup_spec hlook
  have hkept := mem_keepBoth_self s.turn s.tlb t
  rw [cacheEnts_tlb]
  obtain hnone | ⟨d, hd, hbuf, hdesc, hcached⟩ := descReads_single s t
  · rw [hnone]
    exact hkept
  · rw [hd]
    change t ∈ keepBoth s.turn (keepBoth s.turn s.tlb t) d.1
    refine mem_keepEnt_level2 _ ?_ (mem_keepEnt_self ..) hbuf
    obtain ⟨-, hk⟩ | ⟨-, hk⟩ | ⟨-, own, v, rfl, hfull, hv, hk⟩ := keepEnt_cases s.turn (keepBoth s.turn s.tlb t) d.1
    · rwa [hk]
    · rw [hk]
      exact List.mem_append_left _ hkept
    · rw [hk]
      refine List.mem_append_left _ ((List.mem_erase_of_ne (fun htv => ?_)).2 hkept)
      subst htv
      rw [hevict, Nat.zero_mod, ← List.head?_eq_getElem?, hbuf] at hv
      have hfirst := firstOf_keepBoth hv (by rw [← hbuf]; split at hfull <;> omega)
      exact hdesc (hcached t (cached_firstOf hfirst (by rw [← hbase, Nat.mul_div_cancel _ (show 0 < lvlSize t.lvl from Nat.two_pow_pos _)])))

/-! ## Fetch lines (R56, R57) -/

theorem length_unitBytes {s : State} {loc : Loc} {va n : Nat} {b : List Byte} (h : unitBytes s loc va n = .ok b) : b.length = n := by
  unfold unitBytes at h
  split at h
  · split at h
    · cases h
    · obtain rfl := Except.ok.inj h
      simp [dramBytes]
  · split at h
    · cases h
    · obtain rfl := Except.ok.inj h
      simp
  · cases h

theorem toNat_line {b : List Byte} (h : b.length = 64) : (BitVec.ofNat 512 (leVal b)).toNat = leVal b := by
  have h512 : 512 = 8 * b.length := by rw [h]
  rw [BitVec.toNat_ofNat, h512]
  exact Nat.mod_eq_of_lt (leVal_lt b)

/-- A line read from memory has 512 bits, through the translation of its page. -/
theorem lineInMem_spec {s : State} {buf ctx line b : Nat} {t : TlbEnt} {loc : Loc} (h : lineInMem s buf ctx line = .ok (b, t, loc)) :
    lookup s buf ctx line = .ok t ∧ (BitVec.ofNat 512 b).toNat = b := by
  unfold lineInMem resolve at h
  cases hl : lookup s buf ctx line with
  | error f => simp [hl, Except.bind] at h
  | ok u =>
    cases hp : permitted s u line .fetch with
    | error f => simp [hl, hp, Except.bind, Except.map] at h
    | ok loc' =>
      cases hb : unitBytes s loc' line 64 with
      | error f => simp [hl, hp, hb, Except.bind, Except.map] at h
      | ok bs =>
        simp only [hl, hp, hb, Except.bind, Except.map, Except.ok.injEq, Prod.mk.injEq] at h
        obtain ⟨rfl, rfl, -⟩ := h
        exact ⟨rfl, toNat_line (length_unitBytes hb)⟩

/-- A line kept is in its core's buffer. -/
theorem lineInBuf_keepLine (s : State) (core ctx line : Nat) {b : Nat} (hb : (BitVec.ofNat 512 b).toNat = b) :
    lineInBuf (keepLine s core ctx line b) core ctx line = some b := by
  have hfind {kept : List IbufLine} (hk : ∀ l ∈ kept, l ∈ s.ibuf.filter (fun l => !(l.core = core && l.ctx = ctx && l.va = line))) :
      ((kept ++ [(⟨core, ctx, line, BitVec.ofNat 512 b⟩ : IbufLine)]).find? (fun l => l.core = core && l.ctx = ctx && l.va = line)).map
        (fun l => l.line.toNat) = some b := by
    have hno : kept.find? (fun l => l.core = core && l.ctx = ctx && l.va = line) = none :=
      List.find?_eq_none.2 (fun l hl => by rw [Bool.not_eq_true, ← Bool.not_eq_true']; exact (List.mem_filter.1 (hk l hl)).2)
    rw [List.find?_append, hno, Option.none_or, List.find?_cons_of_pos (by simp)]
    exact congrArg some hb
  unfold lineInBuf keepLine
  simp only
  split
  · exact hfind (fun _ hl => hl)
  · exact hfind (fun _ hl => List.mem_of_mem_erase hl)

/-- A line that nothing holds is read, checked and kept (R56). -/
theorem deliver'_read {s : State} {g : Group} {line b : Nat} {t : TlbEnt} {loc : Loc} (h : heldLine s g line = none)
    (hm : lineInMem s (gBuf g) g.ctx line = .ok (b, t, loc)) (hb : lineSound b = true) :
    deliver' s g line = .ok (keepLine (unitTouch (cacheEnts s [t]) loc 64) g.core g.ctx line b, b) := by
  simp only [deliver', h, readLine, hm, Except.map, hb, if_true]

/-! ## Updates, timeouts and failures (R222 to R227, R443) -/

/-- What an update performed leaves of its transaction. -/
def updated (s : State) (tag : Nat) : State := match xactOf s tag with | some x => if x.load then s else endXact s x | none => s

theorem updated_link (s : State) (tag : Nat) : LinkOnly s (updated s tag) := by
  unfold updated
  split
  · split
    · exact .refl s
    · exact endXact_link ..
  · exact .refl s

theorem exec_updatePerformed (s : State) : exec .updatePerformed s = .next (storeAccepted
    { updated s s.arg.tag with posted := (updated s s.arg.tag).posted.filter (fun p => p.tag ≠ s.arg.tag) } s.arg.tag) := rfl

theorem exec_timeout {s : State} {x : Xact} {i : Instr} (hi : i ∈ [Instr.remoteAccessTimeout, .linkTimeout])
    (hx : xactOf s s.arg.tag = some x) : exec i s = .next (if expired s x then xactFault (endXact s x) x else s) := by
  have h : exec i s = .next (xactTimeout s s.arg.tag) := by
    simp only [List.mem_cons, List.not_mem_nil, or_false] at hi
    obtain rfl | rfl := hi <;> rfl
  rw [h, xactTimeout, hx]

/-- The loss of a write of an engine's or window engine's unit: its running job faults, else the unit (R270, R387). -/
def unitLost (s : State) (ctx unit va : Nat) : State :=
  match writerJob s ctx unit with | some j => jobFault s j (mkFlt 6 va) | none => unitFault s ctx unit 6 0 0 0 va

theorem unitLost_job {s : State} {ctx unit : Nat} {j : Job} (h : writerJob s ctx unit = some j) (va : Nat) :
    unitLost s ctx unit va = jobFault s j (mkFlt 6 va) := by rw [unitLost, h]
theorem unitLost_idle {s : State} {ctx unit : Nat} (h : writerJob s ctx unit = none) (va : Nat) :
    unitLost s ctx unit va = unitFault s ctx unit 6 0 0 0 va := by rw [unitLost, h]

/-- A posted store that fails, where no group is held for it (R226, R270). -/
theorem exec_hostStoreFailure {s u : State} {p : Posted} (hp : s.posted.find? (fun p => p.tag = s.arg.tag) = some p)
    (hu : { s with posted := s.posted.filter (fun p => p.tag ≠ s.arg.tag) } = u) (hacc : storeAccepted u s.arg.tag = u) :
    exec .hostStoreFailure s
      = .next (if p.guid ≠ 0 then lateFault u p.ctx p.core p.slot 6 p.pc p.va else unitLost u p.ctx p.slot p.va) := by
  change Host.Outcome.next (postedFails s s.arg.tag) = _
  simp only [postedFails, hp, hu, hacc]
  rfl

/-- The loss of a transaction: of a load, of a record, and of any other write, where no group is held for it (R227, R433, R457). -/
theorem xactFault_load {s : State} {x : Xact} (h : x.load = true) : xactFault s x = loadFails s x.tag 6 := by
  rw [xactFault, if_pos h]
theorem xactFault_record {s : State} {x : Xact} {r : Nat} (h : x.load = false) (hr : x.record = some r) (hacc : storeAccepted s x.tag = s) :
    xactFault s x = elog s (partOfCtx s x.ctx) 4 r x.ctx x.va 0 x.payload := by
  simp only [xactFault, h, hacc, hr, Bool.false_eq_true, if_false]
theorem xactFault_write {s : State} {x : Xact} (h : x.load = false) (hr : x.record = none) (hacc : storeAccepted s x.tag = s) :
    xactFault s x = if x.guid ≠ 0 then lateFault s x.ctx x.core x.slot 6 x.pc x.va
      else if x.ctx = 0 then s
      else if x.slot = 0xFFFF then lateFault s x.ctx 0xFFFF 0xFFFF 6 x.pc x.va
      else unitLost s x.ctx x.slot x.va := by
  simp only [xactFault, h, hacc, hr, Bool.false_eq_true, if_false]
  rfl

/-- The loss of a write, by the agent it came from. -/
theorem xactFault_write_cases {s₀ s : State} {x : Xact} {i : Instr} (h : exec i s₀ = .next (if x.guid ≠ 0 then lateFault s x.ctx x.core x.slot 6 x.pc x.va
      else if x.ctx = 0 then s
      else if x.slot = 0xFFFF then lateFault s x.ctx 0xFFFF 0xFFFF 6 x.pc x.va
      else unitLost s x.ctx x.slot x.va)) :
    (x.guid ≠ 0 → exec i s₀ = .next (lateFault s x.ctx x.core x.slot 6 x.pc x.va))
      ∧ (x.guid = 0 → x.ctx = 0 → exec i s₀ = .next s)
      ∧ (x.guid = 0 → x.ctx ≠ 0 → x.slot = 0xFFFF → exec i s₀ = .next (lateFault s x.ctx 0xFFFF 0xFFFF 6 x.pc x.va))
      ∧ (∀ j, x.guid = 0 → x.ctx ≠ 0 → x.slot ≠ 0xFFFF → writerJob s x.ctx x.slot = some j →
          exec i s₀ = .next (jobFault s j (mkFlt 6 x.va)))
      ∧ (x.guid = 0 → x.ctx ≠ 0 → x.slot ≠ 0xFFFF → writerJob s x.ctx x.slot = none →
          exec i s₀ = .next (unitFault s x.ctx x.slot 6 0 0 0 x.va)) := by
  rw [h]
  refine ⟨fun hg => ?_, fun hg hc => ?_, fun hg hc hk => ?_, fun j hg hc hk hj => ?_, fun hg hc hk hj => ?_⟩
  · rw [if_pos hg]
  · rw [if_neg (not_not.2 hg), if_pos hc]
  · rw [if_neg (not_not.2 hg), if_neg hc, if_pos hk]
  · rw [if_neg (not_not.2 hg), if_neg hc, if_neg hk, unitLost_job hj]
  · rw [if_neg (not_not.2 hg), if_neg hc, if_neg hk, unitLost_idle hj]

/-- Whether the time of a transaction is up (R432). -/
theorem expired_of_sent {s : State} {x : Xact} (h : x.unsent = false)
    (hlate : x.sent + 1050 * (regVal s (regLink 0)).toNat ≤ s.clock.toNat) : expired s x = true := by
  simp only [expired, h, decide_eq_true hlate, Bool.not_false, Bool.true_and, Bool.true_or]
theorem not_expired {s : State} {x : Xact}
    (h : x.unsent = true ∨ (¬ x.sent + 1050 * (regVal s (regLink 0)).toNat ≤ s.clock.toNat ∧ x.port ≠ 16)) : expired s x = false := by
  obtain h | ⟨hlate, hport⟩ := h
  · simp only [expired, h, Bool.not_true, Bool.false_and]
  · simp only [expired, decide_eq_false hlate, decide_eq_false hport, Bool.false_and, Bool.false_or, Bool.and_false]

theorem exec_timeout_lost {s : State} {x : Xact} {i : Instr} (hi : i ∈ [Instr.remoteAccessTimeout, .linkTimeout])
    (hx : xactOf s s.arg.tag = some x) (h : x.unsent = false)
    (hlate : x.sent + 1050 * (regVal s (regLink 0)).toNat ≤ s.clock.toNat) : exec i s = .next (xactFault (endXact s x) x) :=
  (exec_timeout hi hx).trans (congrArg _ (if_pos (expired_of_sent h hlate)))
theorem exec_timeout_early {s : State} {x : Xact} {i : Instr} (hi : i ∈ [Instr.remoteAccessTimeout, .linkTimeout])
    (hx : xactOf s s.arg.tag = some x)
    (h : x.unsent = true ∨ (¬ x.sent + 1050 * (regVal s (regLink 0)).toNat ≤ s.clock.toNat ∧ x.port ≠ 16)) : exec i s = .next s :=
  (exec_timeout hi hx).trans (congrArg _ (if_neg (Bool.eq_false_iff.1 (not_expired h))))

/-- An update performed for which no group is held. -/
theorem exec_updatePerformed_unheld {s : State} (h : s.groups.find? (awaitsStore s.arg.tag) = none) : exec .updatePerformed s = .next
    { updated s s.arg.tag with posted := (updated s s.arg.tag).posted.filter (fun p => p.tag ≠ s.arg.tag) } := by
  have hu : List.find? (awaitsStore s.arg.tag) { updated s s.arg.tag with
      posted := (updated s s.arg.tag).posted.filter (fun p => p.tag ≠ s.arg.tag) }.groups = none :=
    (congrArg (List.find? (awaitsStore s.arg.tag)) (updated_link s s.arg.tag).groups).trans h
  exact (exec_updatePerformed s).trans (congrArg Host.Outcome.next (storeAccepted_none hu))

theorem updated_some {s : State} {tag : Nat} {x : Xact} (h : xactOf s tag = some x) :
    updated s tag = if x.load then s else endXact s x := by rw [updated, h]
theorem updated_none {s : State} {tag : Nat} (h : xactOf s tag = none) : updated s tag = s := by rw [updated, h]

theorem exec_hostLoadTimeout {s : State} {g : Group} {p : PendLoad} (h : loadGroup s s.arg.tag = some (g, p)) :
    exec .hostLoadTimeout s = .next (if p.due ≠ 0 && p.due ≤ s.clock.toNat then loadFails s s.arg.tag 6 else s) := by
  change execHostLoadTimeout s = _
  simp only [execHostLoadTimeout, h]

/-! ## The statement -/

/-- The statement, where a leaf just found stays in its buffer. -/
theorem memoryReturns_of_leafKept (hleaf : LeafKept) : Obligations.MemoryReturns := by
  intro s a holds
  refine ⟨fun g b t loc hg hheld hline hsound => ?fetch, fun c t hc ht => ?walk, fun g p hload => ?load, fun hnone => ?unheld,
    fun x hx hport hpkts hirqs hsent => ?quiet, fun g tags hfind hwait => ?held⟩
  case fetch =>
    obtain ⟨hlook, hbits⟩ := lineInMem_spec hline
    refine ⟨keepLine (unitTouch (cacheEnts s [t]) loc 64) g.core g.ctx (lineOf g.pc) b, ?_, lineInBuf_keepLine _ _ _ _ hbits, ?_, rfl⟩
    · change execLineFetch s = _
      simp only [execLineFetch, a, hg, deliver'_read hheld hline hsound]
    · rw [keepLine_tlb, unitTouch_tlb]
      exact hleaf _ _ _ _ _ hlook
  case walk =>
    exact ⟨_, exec_pageWalkDone hc ht, hleaf _ _ _ _ _ ht, (cacheEnts_reads ..).readsOnly⟩
  case load =>
    intro seen lost fails
    have hdata (hok : a.status ≠ .error) : exec .loadDataReturn s = .next (loadReturns s a.tag a.lanes) := by
      change execLoadDataReturn s = _
      rw [execLoadDataReturn, if_neg hok]
    have hfails {i : Instr} (hi : exec i s = .next (loadFails s a.tag 6)) : fails i := by
      rw [loadFails_eq hload] at hi
      refine ⟨fun hb hp => ?_, fun hp => ?_⟩
      · rw [hi, if_pos (by simp [hb, Option.isSome_iff_ne_none, hp])]
      · rw [hi, if_neg (by obtain hb | hp := hp <;> simp [*])]
    refine ⟨fun n hok hdst hg hdup hlt => ?_, fun n l hok hdst hg hl => ?_, fun herr => hfails ?_, fun hdue hle => hfails ?_, fun hdue => ?_⟩
    · obtain ⟨h, hfold, hframe, hword, hkeep⟩ := foldl_putLane_spec ((Group.ok_iff g).1 hg).1 n p.words (ls := laneValues p a.lanes)
        (by rw [laneValues_fst]; exact hdup) (fun q hq => hlt _ (laneValues_fst p a.lanes ▸ List.mem_map_of_mem hq))
      rw [laneValues_fst] at hkeep
      refine ⟨h, ?_, hframe, fun k l i hk hi => hword l _ i (mem_laneValues hk) hi, hkeep⟩
      rw [hdata hok, loadReturns_eq hload, hdst, hfold]
    · refine ⟨_, ?_, wrSs_written ((Group.ok_iff g).1 hg).2.1 _ _ _⟩
      rw [hdata hok, loadReturns_eq hload, hdst, laneValues, hl]
      rfl
    · change execLoadDataReturn s = _
      rw [execLoadDataReturn, if_pos herr]
    · rw [exec_hostLoadTimeout hload, if_pos (by simp [hdue, hle])]
    · rw [exec_hostLoadTimeout hload, if_neg (by simp; omega)]
  case unheld =>
    have hacc {u : State} (hu : u.groups = s.groups) : storeAccepted u a.tag = u := storeAccepted_none (hu ▸ hnone)
    refine ⟨fun p hp => ?_, fun x i hx hi => ?_, ?_⟩
    · intro u
      have hjob : writerJob s p.ctx p.slot = writerJob u p.ctx p.slot := rfl
      have hfail := exec_hostStoreFailure hp (show _ = u from rfl) (hacc rfl)
      rw [hjob]
      clear_value u
      exact ⟨fun hg => hfail.trans (congrArg _ (if_pos hg)),
        fun j hg hj => hfail.trans (congrArg _ ((if_neg (not_not.2 hg)).trans (unitLost_job hj _))),
        fun hg hj => hfail.trans (congrArg _ ((if_neg (not_not.2 hg)).trans (unitLost_idle hj _)))⟩
    · intro u sent
      refine ⟨exec_timeout_early hi hx, fun hout hlate => ?_⟩
      have hlost : exec i s = .next (xactFault u x) := exec_timeout_lost hi hx hout hlate
      have htag : x.tag = a.tag := xactOf_tag hx
      have hu : storeAccepted u x.tag = u := htag ▸ hacc (endXact_link s x).groups
      clear_value u
      rw [← htag]
      exact ⟨fun hl => hlost.trans (congrArg _ (xactFault_load hl)), fun r hl hr => hlost.trans (congrArg _ (xactFault_record hl hr hu)),
        fun hl hr => xactFault_write_cases (hlost.trans (congrArg _ (xactFault_write hl hr hu)))⟩
    · intro done
      have hdone : exec .updatePerformed s = .next (done (updated s a.tag)) := exec_updatePerformed_unheld hnone
      clear_value done
      exact ⟨fun x hx => by rw [hdone, updated_some hx],
        fun hx => by rw [hdone, updated_none hx]⟩
  case quiet =>
    rw [endXact_quiet hport hpkts hirqs hsent, xactOf_tag hx]
  case held =>
    have hu := updated_link s a.tag
    refine ⟨{ updated s a.tag with posted := (updated s a.tag).posted.filter (fun p => p.tag ≠ a.tag) }, hu.groups, hu.mem,
      congrArg _ hu.posted, ?_⟩
    rw [exec_updatePerformed, storeAccepted_some (hu.groups.symm ▸ hfind) hwait]

/-- The choice that spares every leaf just kept. -/
theorem memoryReturns_of_evict_first (hevict : ∀ turn buf base, Config.evict turn buf base = 0) : Obligations.MemoryReturns :=
  memoryReturns_of_leafKept (leafKept_of_evict_first hevict)

end Sys2Proof.Machine
end

section
/-! The values of the integer instructions as chapter 5 gives them: R22's wrap and clamp as integers, the signed reading, and values built
bit by bit. -/

namespace Sys2Proof.Machine
open Sys2Proof

/-! ## Wrap and clamp (R22) -/

theorem wrapN_natCast {z n : Nat} (h : z < 2 ^ n) : wrapN (z : Int) n = z := by
  rw [wrapN, ← Int.natCast_mod, Int.toNat_natCast, Nat.mod_eq_of_lt h]

theorem wrapN_neg_one {n : Nat} : wrapN (-1) n = 2 ^ n - 1 := by
  have hpos : 0 < 2 ^ n := Nat.two_pow_pos n
  have hmod : (-1 : Int) % ((2 ^ n : Nat) : Int) = ((2 ^ n - 1 : Nat) : Int) := by
    rw [← Int.add_emod_right, Int.emod_eq_of_lt (by omega) (by omega)]
    omega
  rw [wrapN, hmod, Int.toNat_natCast]

theorem clamp_eq_max_min {lo hi : Int} (h : lo ≤ hi) (y : Int) :
    (if y < lo then lo else if hi < y then hi else y) = max lo (min hi y) := by
  split_ifs <;> omega

/-- The bounds of `Sat_i` and `Sat_n` are in order. -/
theorem satN_bounds (u : Bool) (n : Nat) : (if u then 0 else -((2 ^ (n - 1) : Nat) : Int))
    ≤ if u then ((2 ^ n : Nat) : Int) - 1 else ((2 ^ (n - 1) : Nat) : Int) - 1 := by
  have hn : 0 < 2 ^ n := Nat.two_pow_pos n
  have hn' : 0 < 2 ^ (n - 1) := Nat.two_pow_pos (n - 1)
  cases u
  · simp only [Bool.false_eq_true, if_false]
    omega
  · simp only [if_true]
    omega

theorem fit_eq_clamp (u sat : Bool) (y : Int) (n : Nat) : fit u sat y n = if sat
    then wrapN (max (if u then 0 else -((2 ^ (n - 1) : Nat) : Int))
      (min (if u then ((2 ^ n : Nat) : Int) - 1 else ((2 ^ (n - 1) : Nat) : Int) - 1) y)) n
    else wrapN y n := by
  rw [fit, satN, clamp_eq_max_min (satN_bounds u n)]

/-! ## Quotient, remainder and absolute value (R104) -/

theorem divResult_eq (u sat : Bool) (a b : Int) (n : Nat) :
    divResult u sat a b n = if b = 0 then 2 ^ n - 1 else fit u sat (a.tdiv b) n := by
  rw [divResult, wrapN_neg_one]

theorem remResult_eq (a b : Int) (n : Nat) :
    remResult a b n = if b = 0 then wrapN a n else wrapN (a - b * a.tdiv b) n := by
  rw [remResult, Int.tmod_def, apply_ite (wrapN · n)]

/-- The signed reading of `n` bits lies between the least and the greatest signed value. -/
theorem sext_bounds {n : Nat} (hn : 0 < n) (x : Nat) :
    -((2 ^ (n - 1) : Nat) : Int) ≤ sext x n ∧ sext x n < ((2 ^ (n - 1) : Nat) : Int) := by
  obtain ⟨m, rfl⟩ := Nat.exists_eq_add_one.2 hn
  have hx : x % 2 ^ (m + 1) < 2 ^ (m + 1) := Nat.mod_lt _ (Nat.two_pow_pos _)
  have hpow : 2 ^ (m + 1) = 2 ^ m * 2 := Nat.pow_succ ..
  simp only [sext, Nat.add_sub_cancel]
  split_ifs <;> omega

/-- The least signed value has no absolute value in `n` bits: it gives itself, or the greatest with SAT. -/
theorem fit_natAbs {n : Nat} (hn : 0 < n) (sat : Bool) {y : Int} (hlo : -((2 ^ (n - 1) : Nat) : Int) ≤ y)
    (hhi : y < ((2 ^ (n - 1) : Nat) : Int)) : fit false sat (y.natAbs : Int) n
      = if y = -((2 ^ (n - 1) : Nat) : Int) then (if sat then 2 ^ (n - 1) - 1 else 2 ^ (n - 1)) else y.natAbs := by
  obtain ⟨m, rfl⟩ := Nat.exists_eq_add_one.2 hn
  have hpow : 2 ^ (m + 1) = 2 ^ m * 2 := Nat.pow_succ ..
  simp only [Nat.add_sub_cancel] at hlo hhi ⊢
  have hclamp : max (-((2 ^ m : Nat) : Int)) (min (((2 ^ m : Nat) : Int) - 1) y.natAbs)
      = ((if y = -((2 ^ m : Nat) : Int) then 2 ^ m - 1 else y.natAbs : Nat) : Int) := by
    split_ifs <;> omega
  rw [fit_eq_clamp]
  cases sat
  · rw [if_neg Bool.false_ne_true, if_neg Bool.false_ne_true, wrapN_natCast (by omega)]
    split_ifs <;> omega
  · simp only [if_true, Bool.false_eq_true, if_false, Nat.add_sub_cancel]
    rw [hclamp, wrapN_natCast (by split_ifs <;> omega)]

/-! ## Values built bit by bit -/

theorem bit_eq_testBit (x i : Nat) : bit x i = x.testBit i := Nat.testBit_eq_decide_div_mod_eq.symm

/-- Adding a power of two where its bit is clear sets the bit. -/
theorem add_two_pow_eq_or {a k : Nat} (h : a.testBit k = false) : a + 2 ^ k = a ||| 2 ^ k := by
  have heven : a / 2 ^ k % 2 = 0 := by
    rw [Nat.testBit_eq_decide_div_mod_eq, decide_eq_false_iff_not] at h
    omega
  obtain ⟨q, hq⟩ := Nat.dvd_of_mod_eq_zero heven
  have hlow : a % 2 ^ k < 2 ^ k := Nat.mod_lt _ (Nat.two_pow_pos k)
  have ha : a = 2 ^ k * (2 * q) + a % 2 ^ k := by rw [← hq, Nat.div_add_mod]
  have hsum : a + 2 ^ k = 2 ^ k * (2 * q + 1) + a % 2 ^ k := by
    rw [Nat.mul_add_one]
    omega
  have hodd : 2 * q + 1 = 2 * q ||| 1 := Nat.two_pow_add_eq_or_of_lt (i := 1) (by decide) q
  apply Nat.eq_of_testBit_eq
  intro j
  conv_rhs => rw [ha]
  rw [hsum, hodd, Nat.testBit_or, Nat.testBit_two_pow_mul_add _ hlow, Nat.testBit_two_pow_mul_add _ hlow, Nat.testBit_or,
    Nat.testBit_two_pow, ← Nat.pow_zero 2,
    Nat.testBit_two_pow]
  split_ifs with hj
  · rw [decide_eq_false (show ¬ k = j by omega), Bool.or_false]
  · congr 2
    rw [eq_iff_iff]
    omega

/-- Setting the bits at the positions `e i` of the listed `i` with `p i`, all of them clear and none met twice. -/
theorem testBit_foldl_add_two_pow (p : Nat → Bool) (e : Nat → Nat) (l : List Nat) (a j : Nat) (hnew : ∀ i ∈ l, a.testBit (e i) = false)
    (hdup : (l.map e).Nodup) : (l.foldl (fun r i => if p i then r + 2 ^ e i else r) a).testBit j
      = (a.testBit j || l.any (fun i => p i && e i = j)) := by
  induction l generalizing a with
  | nil => simp
  | cons i l ih =>
    obtain ⟨hi, hl⟩ := List.forall_mem_cons.1 hnew
    obtain ⟨hfresh, hrest⟩ := List.nodup_cons.1 hdup
    rw [List.foldl_cons, List.any_cons]
    cases hp : p i
    · simpa using ih a hl hrest
    · have hset (k : Nat) : (a + 2 ^ e i).testBit k = (a.testBit k || decide (e i = k)) := by
        rw [add_two_pow_eq_or hi, Nat.testBit_or, Nat.testBit_two_pow]
      have hkept : ∀ k ∈ l, (a + 2 ^ e i).testBit (e k) = false := by
        intro k hk
        rw [hset, hl k hk, Bool.false_or, decide_eq_false_iff_not]
        exact fun he => hfresh (List.mem_map.2 ⟨k, hk, he.symm⟩)
      rw [if_pos rfl, ih _ hkept hrest, hset, Bool.or_assoc, Bool.true_and]

/-- A value built from clear bits stays below `2 ^ n` when every position set does. -/
theorem foldl_add_two_pow_lt (p : Nat → Bool) {e : Nat → Nat} {l : List Nat} {n : Nat} (hdup : (l.map e).Nodup) (hlt : ∀ i ∈ l, e i < n) :
    l.foldl (fun r i => if p i then r + 2 ^ e i else r) 0 < 2 ^ n := by
  apply Nat.lt_pow_two_of_testBit
  intro j hj
  rw [testBit_foldl_add_two_pow p e l 0 j (fun i _ => Nat.zero_testBit _) hdup, Nat.zero_testBit, Bool.false_or, List.any_eq_false]
  intro i hi
  have := hlt i hi
  simp only [Bool.and_eq_true, decide_eq_true_eq, not_and]
  omega

/-- Bit `e i` of a value built from clear bits. -/
theorem testBit_foldl_add_two_pow_mem (p : Nat → Bool) {e : Nat → Nat} {l : List Nat} {i : Nat} (hi : i ∈ l) (hdup : (l.map e).Nodup) :
    (l.foldl (fun r i => if p i then r + 2 ^ e i else r) 0).testBit (e i) = p i := by
  rw [testBit_foldl_add_two_pow p e l 0 _ (fun i _ => Nat.zero_testBit _) hdup, Nat.zero_testBit, Bool.false_or, Bool.eq_iff_iff,
    List.any_eq_true]
  simp only [Bool.and_eq_true, decide_eq_true_eq]
  exact ⟨fun ⟨k, hk, hp, he⟩ => List.inj_on_of_nodup_map hdup hk hi he ▸ hp, fun hp => ⟨i, hi, hp, rfl⟩⟩

/-! ## Three-input functions, counts and reversal (R105, R107) -/

theorem bitwise3_lt (n : Nat) (f : Bool → Bool → Bool → Bool) (a b c : Nat) : bitwise3 n f a b c < 2 ^ n :=
  foldl_add_two_pow_lt _ (e := id) (by simpa using List.nodup_range) (fun _ => List.mem_range.1)

theorem bit_bitwise3 {n i : Nat} (f : Bool → Bool → Bool → Bool) (a b c : Nat) (hi : i < n) :
    bit (bitwise3 n f a b c) i = f (bit a i) (bit b i) (bit c i) := by
  rw [bit_eq_testBit]
  exact testBit_foldl_add_two_pow_mem (fun i => f (bit a i) (bit b i) (bit c i)) (e := id) (List.mem_range.2 hi)
    (by simpa using List.nodup_range)

/-- No two bits go to one place. -/
theorem nodup_mirror (n : Nat) : ((List.range n).map (n - 1 - ·)).Nodup := by
  apply List.nodup_range.map_on
  intro i hi k hk h
  rw [List.mem_range] at hi hk
  omega

theorem bitReverse_lt (x n : Nat) : bitReverse x n < 2 ^ n :=
  foldl_add_two_pow_lt (bit x) (nodup_mirror n) (fun i hi => by have := List.mem_range.1 hi; omega)

theorem bit_bitReverse (x : Nat) {n i : Nat} (hi : i < n) : bit (bitReverse x n) (n - 1 - i) = bit x i := by
  rw [bit_eq_testBit]
  exact testBit_foldl_add_two_pow_mem (bit x) (List.mem_range.2 hi) (nodup_mirror n)

theorem leadZeros_le (x n : Nat) : leadZeros x n ≤ n := by
  rw [leadZeros]
  split_ifs <;> omega

/-- The leading one of a value that is not zero in its low `n` bits. -/
theorem leadZeros_of_ne {x n : Nat} (h : x % 2 ^ n ≠ 0) : (x % 2 ^ n).log2 < n ∧ leadZeros x n = n - 1 - (x % 2 ^ n).log2 :=
  ⟨(Nat.log2_lt h).2 (Nat.mod_lt _ (Nat.two_pow_pos n)), if_neg h⟩

theorem bit_mod_two_pow (x : Nat) {n i : Nat} (hi : i < n) : bit x i = (x % 2 ^ n).testBit i := by
  rw [bit_eq_testBit, Nat.testBit_mod_two_pow, decide_eq_true hi, Bool.true_and]

/-- The bit below the leading zeros is one. -/
theorem bit_leadZeros {x n : Nat} (h : leadZeros x n < n) : bit x (n - 1 - leadZeros x n) = true := by
  have hne : x % 2 ^ n ≠ 0 := fun hz => absurd h (by rw [leadZeros, if_pos hz]; exact Nat.lt_irrefl n)
  obtain ⟨hlog, hlead⟩ := leadZeros_of_ne hne
  have hpos : n - 1 - leadZeros x n = (x % 2 ^ n).log2 := by omega
  rw [hpos, bit_mod_two_pow x hlog, Nat.testBit_log2 hne]

/-- The leading zeros are zero. -/
theorem bit_of_leadZeros {x n i : Nat} (hi : n - leadZeros x n ≤ i) (hn : i < n) : bit x i = false := by
  rw [bit_mod_two_pow x hn]
  apply Nat.testBit_lt_two_pow
  by_cases hz : x % 2 ^ n = 0
  · rw [hz]
    exact Nat.two_pow_pos i
  · obtain ⟨hlog, hlead⟩ := leadZeros_of_ne hz
    exact (Nat.log2_lt hz).1 (by omega)

theorem popCount_eq_length (x n : Nat) : popCount x n = ((List.range n).filter (fun i => bit x i)).length :=
  List.countP_eq_length_filter

/-! ## Rotation (R106) -/

/-- The two halves of a rotation meet in no bit. -/
theorem rotVal_eq_or {n a : Nat} (hn : 0 < n) (ha : a < 2 ^ n) (sh : Nat) :
    rotVal n a sh = (a * 2 ^ (sh % n) % 2 ^ n) ||| (a / 2 ^ (n - sh % n)) := by
  have hk : sh % n < n := Nat.mod_lt _ hn
  have hpow : 2 ^ n = 2 ^ (n - sh % n) * 2 ^ (sh % n) := by rw [← Nat.pow_add, Nat.sub_add_cancel hk.le]
  have hhigh : a * 2 ^ (sh % n) % 2 ^ n = 2 ^ (sh % n) * (a % 2 ^ (n - sh % n)) := by
    rw [hpow, Nat.mul_mod_mul_right, Nat.mul_comm]
  have hlow : a / 2 ^ (n - sh % n) < 2 ^ (sh % n) := Nat.div_lt_of_lt_mul (hpow ▸ ha)
  rw [rotVal, hhigh, Nat.two_pow_add_eq_or_of_lt hlow]

end Sys2Proof.Machine
end

section
/-! The operands of the integer instructions fit their width (R61 to R63, R113). -/

namespace Sys2Proof.Machine
open Sys2Proof

theorem intW_pos (w : Bool) : 0 < intW w := by cases w <;> decide

theorem rdV_lt (g : Group) (n l : Nat) : rdV g n l < 2 ^ 32 := BitVec.isLt _
theorem rdS_lt (g : Group) (n : Nat) : rdS g n < 2 ^ 32 := BitVec.isLt _
theorem rdLat_lt (g : Group) (j l : Nat) : rdLat g j l < 2 ^ 64 := BitVec.isLt _

/-- A pair of registers holds 64 bits (R62). -/
theorem rdVs_two_lt (g : Group) (n l : Nat) : rdVs g n l 2 < 2 ^ 64 := by
  have h0 := rdV_lt g n l
  have h1 := rdV_lt g (n + 1) l
  change rdV g n l + 2 ^ 32 * (rdV g (n + 1) l + 2 ^ 32 * 0) < 2 ^ 64
  omega

theorem rdSs_two_lt (g : Group) (n : Nat) : rdSs g n 2 < 2 ^ 64 := by
  have h0 := rdS_lt g n
  have h1 := rdS_lt g (n + 1)
  change rdS g n + 2 ^ 32 * (rdS g (n + 1) + 2 ^ 32 * 0) < 2 ^ 64
  omega

theorem src32_lt (g : Group) (x : InsWord) (o : Opd) (l : Nat) : src32 g x o l < 2 ^ 32 := by
  cases o with
  | v n => exact rdV_lt ..
  | s n => exact rdS_lt ..
  | latch j => exact Nat.mod_lt _ (by decide)
  | lit => exact x.lit.isLt
  | zero => exact Nat.two_pow_pos 32
  | imm n => exact BitVec.isLt _

theorem src64_lt (g : Group) (x : InsWord) (sgn : Bool) (o : Opd) (l : Nat) : src64 g x sgn o l < 2 ^ 64 := by
  cases o with
  | v n => exact rdVs_two_lt ..
  | s n => exact rdSs_two_lt ..
  | latch j => exact rdLat_lt ..
  | lit =>
    have hlit : x.lit.toNat < 2 ^ 32 := x.lit.isLt
    cases hw : g.pfxW with
    | some w =>
      have hhigh : w.toNat < 2 ^ 32 := w.isLt
      simp only [src64, hw]
      omega
    | none =>
      simp only [src64, hw]
      split
      · exact BitVec.isLt _
      · omega
  | zero => exact Nat.two_pow_pos 64
  | imm n => exact BitVec.isLt _

theorem src_lt (g : Group) (x : InsWord) (w sgn : Bool) (o : Opd) (l : Nat) : src g x w sgn o l < 2 ^ intW w := by
  cases w
  · exact src32_lt ..
  · exact src64_lt ..

end Sys2Proof.Machine
end

section
/-! The statements of chapter 5 about integer arithmetic, logic, counts, fields, selection, addresses and moves (R104 to R109, R111, R112). -/

namespace Sys2Proof.Machine
open Sys2Proof

/-- The shape of `computes_alu` for a result that is stated in other words than the model's. -/
theorem computes_of_value {s : State} {g : Group} {i : Instr} {x : InsWord} {k : Nat} {f f' : Nat → Nat} (hcur : curGroup s = some g)
    (hok : g.ok = true) {F : Group → Group} (he : exec i s = onGroup s F) (hF : F g = alu g x k f') (hf : ∀ l, f' l = f l) :
    Computes i s g x k f :=
  computes_alu hcur hok he (hF.trans (congrArg _ (funext hf)))

/-- Settles O1: each operation is the model's on the extended operands, with `Fit` as a clamp and a wrap of integers. -/
theorem integerArithmetic : Obligations.IntegerArithmetic := by
  constructor
  · intro s g w x hcur hok n u a b c lo hi pat fitTo k
    have hfit (y : Int) : fit (modU x) (modSat x) y (intW w) = fitTo y := fit_eq_clamp ..
    refine ⟨?add, ?sub, ?mul, ?high, ?mad, ?div, ?rem, ?least, ?greatest⟩
    case add | sub | mul | mad => exact computes_of_value hcur hok rfl rfl (fun l => hfit _)
    case div => exact computes_of_value hcur hok rfl rfl (fun l => (divResult_eq ..).trans (if_congr Iff.rfl rfl (hfit _)))
    case rem => exact computes_of_value hcur hok rfl rfl (fun l => remResult_eq ..)
    case high | least | greatest => exact computes_alu hcur hok rfl rfl
  · intro s g w x hcur hok n a
    have hbounds (l : Nat) := sext_bounds (intW_pos w) (src g x w true x.opa l)
    exact computes_of_value hcur hok rfl rfl (fun l => fit_natAbs (intW_pos w) _ (hbounds l).1 (hbounds l).2)

/-- Settles O2: the model's values are the rules', the halves of a rotation joined by addition. -/
theorem logicAndShifts : Obligations.LogicAndShifts := by
  intro s g w x hcur hok n k a b c sh fk tt
  refine ⟨?and, ?or, ?xor, ?table, ?shl, ?shr, ?sar, ?rot, ?fsh⟩
  case and | or | xor | shl | shr | sar => exact computes_alu hcur hok rfl rfl
  case table =>
    exact ⟨_, computes_alu hcur hok rfl rfl, fun l i => ⟨bitwise3_lt .., fun hi => bit_bitwise3 _ _ _ _ hi⟩⟩
  case rot => exact computes_of_value hcur hok rfl rfl (fun l => rotVal_eq_or (intW_pos w) (src_lt ..) _)
  case fsh => exact computes_of_value hcur hok rfl rfl (fun l => apply_ite (· % 2 ^ n) ..)

/-- Settles O3: counts by the leading one and by the set bits, reversal bit by bit, fields as the rules cut them. -/
theorem countsAndFields : Obligations.CountsAndFields := by
  intro s g w x hcur hok n k u a b c
  refine ⟨?zeros, ?ones, ?reverse, ?extract, ?insert⟩
  case zeros =>
    exact ⟨_, computes_alu hcur hok rfl rfl, fun l => ⟨leadZeros_le .., bit_leadZeros, fun i => bit_of_leadZeros⟩⟩
  case ones => exact computes_of_value hcur hok rfl rfl (fun l => popCount_eq_length ..)
  case reverse => exact ⟨_, computes_alu hcur hok rfl rfl, fun l i => ⟨bitReverse_lt .., bit_bitReverse _⟩⟩
  case extract | insert => exact computes_alu hcur hok rfl rfl

/-- Settles O4: the model reads the operand that the predicate selects; addresses and moves are its own. -/
theorem selectAddressMove : Obligations.SelectAddressMove := by
  intro s g w x hcur hok n k u
  refine ⟨?select, ?address, ?move, ?extend⟩
  case select => exact computes_of_value hcur hok rfl rfl (fun l => apply_ite (src g x w false · l) ..)
  case address | move | extend => exact computes_alu hcur hok rfl rfl

end Sys2Proof.Machine
end

section
/-! Predicates and lane masks (R64, R135): a predicate is written in the given lanes and keeps its other lanes, and a result leaves every
predicate as it was. -/

namespace Sys2Proof.Machine
open Sys2Proof

theorem getLsbD_foldl_lanes (lanes : List Nat) (m : W64) {i : Nat} (hi : i < 64) :
    (lanes.foldl (fun m i => m ||| (1#64 <<< i)) m).getLsbD i = (m.getLsbD i || decide (i ∈ lanes)) := by
  induction lanes generalizing m with
  | nil => simp
  | cons l lanes ih =>
    have hone : (1#64 <<< l).getLsbD i = decide (i = l) := by
      rw [BitVec.getLsbD_shiftLeft, BitVec.getLsbD_one, decide_eq_true hi, Bool.eq_iff_iff]
      simp only [Bool.true_and, Bool.and_eq_true, Bool.not_eq_true', decide_eq_false_iff_not, decide_eq_true_eq]
      omega
    rw [List.foldl_cons, ih, BitVec.getLsbD_or, hone, Bool.or_assoc, ← Bool.decide_or]
    simp only [List.mem_cons]

/-- A lane mask holds the listed lanes. -/
theorem getLsbD_maskOf (lanes : List Nat) {i : Nat} (hi : i < 64) : (maskOf lanes).getLsbD i = decide (i ∈ lanes) := by
  rw [maskOf, getLsbD_foldl_lanes lanes 0 hi, BitVec.ofNat_eq_ofNat, BitVec.getLsbD_zero, Bool.false_or]

theorem rdP_wrP {g : Group} (hp : SMap.wf 0 g.p = true) (k : Nat) (lanes : List Nat) (f : Nat → Bool) (j : Nat) {l : Nat} (hl : l < 64) :
    rdP (wrP g k lanes f) j l = if j = k ∧ k ≠ 7 ∧ l ∈ lanes then f l else rdP g j l := by
  by_cases hk : k = 7
  · rw [wrP, if_pos hk, if_neg (fun h => h.2.1 hk)]
  · by_cases hj : j = k
    · subst hj
      rw [wrP, if_neg hk]
      simp only [rdP, if_neg hk, SMap.get_put_self hp, BitVec.getLsbD_or, BitVec.getLsbD_and, BitVec.getLsbD_not, getLsbD_maskOf _ hl, hl,
        List.mem_filter]
      by_cases hm : l ∈ lanes <;> simp [hm, hk]
    · rw [wrP, if_neg hk, if_neg (fun h => hj h.1)]
      simp only [rdP, SMap.get_put_ne hp hj]

/-- `wrP` does what `PredWritten` says and no more. -/
theorem wrP_spec {g : Group} (hp : SMap.wf 0 g.p = true) (k : Nat) (lanes : List Nat) (f : Nat → Bool) :
    PredWritten g (wrP g k lanes f) k lanes f := by
  refine ⟨?_, fun j l hl => rdP_wrP hp k lanes f j hl⟩
  rw [wrP]
  split <;> rfl

theorem wrRes_p (g : Group) (x : InsWord) (k : Nat) (lanes : List Nat) (f : Nat → Nat) : (wrRes g x k lanes f).p = g.p := by
  cases hnw : x.nw with
  | true => rw [wrRes_nw hnw]; rfl
  | false =>
    cases hd : x.dst with
    | v n => rw [wrRes_v hnw hd]; rfl
    | s n => rw [wrRes_s hnw hd]; rfl
    | latch | lit | zero | imm => simp [wrRes, hnw, hd]

/-- The shape of the instructions that write a predicate in the lanes of `Active()` and nothing else. -/
theorem next_wrP {s : State} {g : Group} {i : Instr} {k : Nat} {lanes : List Nat} {f : Nat → Bool} (hcur : curGroup s = some g)
    (hok : g.ok = true) {F : Group → Group} (he : exec i s = onGroup s F) (hF : F g = wrP g k lanes f) :
    ∃ h, exec i s = .next (finish s h) ∧ PredWritten g h k lanes f := by
  obtain ⟨-, -, hp, -, -⟩ := (Group.ok_iff g).1 hok
  exact ⟨_, by rw [he, onGroup_next hcur, hF], wrP_spec hp k lanes f⟩

/-- The shape of the instructions that write a result and then a predicate. -/
theorem next_alu_wrP {s : State} {g : Group} {i : Instr} {x : InsWord} {k pd : Nat} {f : Nat → Nat} {p : Nat → Bool}
    (hcur : curGroup s = some g) (hok : g.ok = true) {F : Group → Group} (he : exec i s = onGroup s F)
    (hF : F g = wrP (alu g x k f) pd (active g x) p) : ∃ h1 h, exec i s = .next (finish s h)
      ∧ ResultWritten g h1 x k (active g x) f ∧ PredWritten h1 h pd (active g x) p := by
  obtain ⟨-, -, hp, -, -⟩ := (Group.ok_iff g).1 hok
  have hp1 : SMap.wf 0 (alu g x k f).p = true := by rw [alu, wrRes_p, hp]
  exact ⟨_, _, by rw [he, onGroup_next hcur, hF], wrRes_spec hok x k (active_lt hok x) f, wrP_spec hp1 pd (active g x) p⟩

end Sys2Proof.Machine
end

section
/-! The values of the lane exchanges as chapter 6 gives them: votes and matches over the active lanes, sums, least and greatest values,
bitwise combinations and the fixed tree of R49 over the selected lanes. -/

namespace Sys2Proof.Machine
open Sys2Proof

/-! ## Shuffles, votes and matches (R140, R142, R144) -/

/-- The in-range flag of a choice between a lane in range and the lane itself. -/
theorem flag_of_choice (c : Prop) [Decidable c] (j i : Nat) : (if c then (j, true) else (i, false)).2 = decide c := by
  split <;> rename_i h
  · exact (decide_eq_true h).symm
  · exact (decide_eq_false h).symm

/-- The counting lanes C are the active lanes that pass both tests. -/
theorem voteSet_eq (g : Group) (x : InsWord) : voteSet g x = (active g x).filter (fun l =>
    (rdP g (modF x 2 0) l != x.mod.getLsbD 3) && (x.opa = .zero || src32 g x x.opa l ≠ 0)) := by
  rw [voteSet, selected, List.filter_filter]
  exact congrArg (List.filter · _) (funext fun l => Bool.and_comm ..)

/-- A part of a list is the whole exactly when it lacks no element. -/
theorem filter_eq_self_iff_mem (p : Nat → Bool) (l : List Nat) : l.filter p = l ↔ ∀ a ∈ l, a ∈ l.filter p := by
  rw [List.filter_eq_self]
  exact forall₂_congr fun a ha => by rw [List.mem_filter, and_iff_right ha]

theorem filter_eq_nil_iff_notMem (p : Nat → Bool) (l : List Nat) : l.filter p = [] ↔ ∀ a ∈ l, a ∉ l.filter p := by
  rw [List.filter_eq_nil_iff]
  exact forall₂_congr fun a ha => by rw [List.mem_filter, and_iff_right ha]

theorem voteSome_eq (p : Nat → Bool) (l : List Nat) : (!(l.filter p).isEmpty) = decide (∃ a ∈ l, a ∈ l.filter p) := by
  rw [Bool.eq_iff_iff, Bool.not_eq_true', ← Bool.not_eq_true, List.isEmpty_iff, filter_eq_nil_iff_notMem, decide_eq_true_iff]
  push Not
  rfl

theorem voteSame_eq (p : Nat → Bool) (l : List Nat) : ((l.filter p).isEmpty || decide (l.filter p = l))
    = decide ((∀ a ∈ l, a ∈ l.filter p) ∨ ∀ a ∈ l, a ∉ l.filter p) := by
  rw [Bool.eq_iff_iff, Bool.or_eq_true, List.isEmpty_iff, decide_eq_true_iff, decide_eq_true_iff, filter_eq_self_iff_mem,
    filter_eq_nil_iff_notMem, or_comm]

/-- All active values are equal when every active lane has every active lane as its peer. -/
theorem unanimous_eq (w : Bool) (g : Group) (x : InsWord) : unanimous w g x = (active g x).all (fun l =>
    (active g x).all (fun m => src g x w false x.opa m = src g x w false x.opa l)) := by
  have hpeers (l : Nat) : decide (peersOf w g x l = active g x)
      = (active g x).all (fun m => src g x w false x.opa m = src g x w false x.opa l) := by
    rw [Bool.eq_iff_iff, decide_eq_true_iff, peersOf, List.filter_eq_self, List.all_eq_true]
  simp only [unanimous, hpeers]

/-! ## Sums (R146, R147) -/

theorem reduxSum_map (u sat : Bool) (v : Nat → Nat) (b : List Nat) :
    reduxSum u sat (b.map v) = fit u sat (b.map (fun l => ext u (v l) 32)).sum 32 := by
  rw [reduxSum, List.sum_eq_foldl, List.foldl_map, List.foldl_map]

/-- A sum wrapped at every step is the sum wrapped once. -/
theorem foldl_add_mod (v : Nat → Nat) (b : List Nat) (M : Nat) : b.foldl (fun t m => (t + v m) % M) 0 = (b.map v).sum % M := by
  have hwrap : ∀ t m, (t % M + v m) % M = (t + v m) % M := fun t m => Nat.mod_add_mod ..
  rw [List.sum_eq_foldl, List.foldl_map, ← List.foldl_hom (· % M) (g₂ := fun t m => (t + v m) % M) hwrap, Nat.zero_mod]

/-- The lanes below a lane, with the lane itself in an inclusive sum. -/
theorem scanBound_inc (l m : Nat) : (decide (m < l) || (true && decide (m = l))) = decide (m ≤ l) := by
  rw [Bool.true_and, ← Bool.decide_or, decide_eq_decide, Nat.le_iff_lt_or_eq]

theorem scanBound_exc (l m : Nat) : (decide (m < l) || (false && decide (m = l))) = decide (m < l) := by
  rw [Bool.false_and, Bool.or_false]

/-! ## Least and greatest values (R146) -/

/-- A pattern of `n` bits is the wrap of its own reading, signed or not. -/
theorem wrapN_ext (u : Bool) {c n : Nat} (h : c < 2 ^ n) : wrapN (ext u c n) n = c := by
  have hc : wrapN ((c % 2 ^ n : Nat) : Int) n = c := by rw [Nat.mod_eq_of_lt h, wrapN_natCast h]
  cases u
  · rw [ext, if_neg Bool.false_ne_true, sext]
    split
    · rw [wrapN, Int.sub_emod_right]
      exact hc
    · exact hc
  · exact hc

theorem exists_eq_wrapN {u : Bool} {v : List Nat} (hlt : ∀ a ∈ v, a < 2 ^ 32) {y : Int} (hy : y ∈ v.map (ext u · 32)) :
    ∃ a ∈ v, wrapN y 32 = a ∧ ext u a 32 = y := by
  obtain ⟨a, ha, rfl⟩ := List.mem_map.1 hy
  exact ⟨a, ha, wrapN_ext u (hlt a ha), rfl⟩

/-- The least, or the greatest, of some values is one of them and bounds them all. -/
theorem reduxMinMax_mem (isMax u : Bool) {v : List Nat} (hne : v ≠ []) (hlt : ∀ a ∈ v, a < 2 ^ 32) :
    ∃ a ∈ v, reduxMinMax isMax u v = a
      ∧ ∀ c ∈ v, if isMax then ext u c 32 ≤ ext u a 32 else ext u a 32 ≤ ext u c 32 := by
  obtain ⟨a, r, rfl⟩ := List.exists_cons_of_ne_nil hne
  cases isMax with
  | false =>
    obtain ⟨hmem, hle⟩ := List.min?_eq_some_iff.1 (List.min?_cons' (x := ext u a 32) (xs := r.map (ext u · 32)))
    rw [List.foldl_map] at hmem hle
    obtain ⟨b, hb, hwrap, hext⟩ := exists_eq_wrapN hlt hmem
    exact ⟨b, hb, hwrap, fun c hc => hext ▸ hle _ (List.mem_map_of_mem (f := (ext u · 32)) hc)⟩
  | true =>
    obtain ⟨hmem, hle⟩ := List.max?_eq_some_iff.1 (List.max?_cons' (x := ext u a 32) (xs := r.map (ext u · 32)))
    rw [List.foldl_map] at hmem hle
    obtain ⟨b, hb, hwrap, hext⟩ := exists_eq_wrapN hlt hmem
    exact ⟨b, hb, hwrap, fun c hc => hext ▸ hle _ (List.mem_map_of_mem (f := (ext u · 32)) hc)⟩

/-- The same over lanes, with the identity where no lane is selected. -/
theorem reduxMinMax_map (isMax u : Bool) {v : Nat → Nat} (hlt : ∀ l, v l < 2 ^ 32) (b : List Nat) :
    (∀ l ∈ b, if isMax then ext u (v l) 32 ≤ ext u (reduxMinMax isMax u (b.map v)) 32
        else ext u (reduxMinMax isMax u (b.map v)) 32 ≤ ext u (v l) 32)
      ∧ ((∃ l ∈ b, reduxMinMax isMax u (b.map v) = v l)
        ∨ (b = [] ∧ reduxMinMax isMax u (b.map v) = reduxMinMax isMax u [])) := by
  rcases eq_or_ne b [] with rfl | hne
  · exact ⟨fun l hl => absurd hl List.not_mem_nil, Or.inr ⟨rfl, rfl⟩⟩
  · have hvals : ∀ a ∈ b.map v, a < 2 ^ 32 := List.forall_mem_map.2 fun l _ => hlt l
    obtain ⟨a, ha, heq, hbound⟩ := reduxMinMax_mem isMax u (mt List.map_eq_nil_iff.1 hne) hvals
    obtain ⟨l, hl, rfl⟩ := List.mem_map.1 ha
    rw [heq]
    exact ⟨fun m hm => hbound _ (List.mem_map_of_mem hm), Or.inl ⟨l, hl, rfl⟩⟩

/-! ## Bitwise combinations (R146) -/

theorem foldl_lt_two_pow {op : Nat → Nat → Nat} {n : Nat} (hop : ∀ {a b}, a < 2 ^ n → b < 2 ^ n → op a b < 2 ^ n) {v : List Nat}
    (hv : ∀ a ∈ v, a < 2 ^ n) {c : Nat} (hc : c < 2 ^ n) : v.foldl op c < 2 ^ n := by
  induction v generalizing c with
  | nil => exact hc
  | cons a v ih =>
    obtain ⟨ha, hv⟩ := List.forall_mem_cons.1 hv
    exact ih hv (hop hc ha)

theorem testBit_foldl_and (v : List Nat) (c i : Nat) : (v.foldl (· &&& ·) c).testBit i = (c.testBit i && v.all (·.testBit i)) := by
  induction v generalizing c with
  | nil => simp
  | cons a v ih => rw [List.foldl_cons, ih, Nat.testBit_and, List.all_cons, Bool.and_assoc]

theorem testBit_foldl_or (v : List Nat) (c i : Nat) : (v.foldl (· ||| ·) c).testBit i = (c.testBit i || v.any (·.testBit i)) := by
  induction v generalizing c with
  | nil => simp
  | cons a v ih => rw [List.foldl_cons, ih, Nat.testBit_or, List.any_cons, Bool.or_assoc]

theorem testBit_foldl_xor (v : List Nat) (c i : Nat) :
    (v.foldl (· ^^^ ·) c).testBit i = (c.testBit i ^^ decide (v.countP (·.testBit i) % 2 = 1)) := by
  induction v generalizing c with
  | nil => simp
  | cons a v ih =>
    have hcount : decide (((a :: v).countP (·.testBit i)) % 2 = 1) = (a.testBit i ^^ decide (v.countP (·.testBit i) % 2 = 1)) := by
      rw [List.countP_cons]
      cases a.testBit i
      · simp
      · simp only [if_true, Bool.true_xor, ← decide_not, decide_eq_decide]
        omega
    rw [List.foldl_cons, ih, Nat.testBit_xor, hcount, Bool.xor_assoc]

/-- A bit of the combinations over lanes: set in every lane, in some lane, in an odd number of lanes. -/
theorem bit_foldl_and_iff (v : Nat → Nat) (b : List Nat) {i : Nat} (hi : i < 32) :
    bit ((b.map v).foldl (· &&& ·) 0xFFFFFFFF) i = true ↔ ∀ l ∈ b, bit (v l) i = true := by
  have hones : Nat.testBit 0xFFFFFFFF i = true := (Nat.testBit_two_pow_sub_one 32 i).trans (decide_eq_true hi)
  simp only [bit_eq_testBit, testBit_foldl_and, hones, Bool.true_and, List.all_eq_true, List.forall_mem_map]

theorem bit_foldl_or_iff (v : Nat → Nat) (b : List Nat) (i : Nat) :
    bit ((b.map v).foldl (· ||| ·) 0) i = true ↔ ∃ l ∈ b, bit (v l) i = true := by
  simp only [bit_eq_testBit, testBit_foldl_or, Nat.zero_testBit, Bool.false_or, List.any_map, List.any_eq_true,
    Function.comp_apply]

theorem bit_foldl_xor_iff (v : Nat → Nat) (b : List Nat) (i : Nat) :
    bit ((b.map v).foldl (· ^^^ ·) 0) i = true ↔ (b.filter (fun l => bit (v l) i)).length % 2 = 1 := by
  simp only [bit_eq_testBit, testBit_foldl_xor, Nat.zero_testBit, Bool.false_xor, decide_eq_true_iff, List.countP_map,
    ← List.countP_eq_length_filter]
  rfl

/-! ## The fixed tree (R49, R50) -/

/-- A node of the tree from its two halves; an absent half is passed over. -/
def treeJoin (f : Nat → Nat → Nat) : Option Nat → Option Nat → Option Nat
  | some p, some q => some (f p q)
  | some p, none => some p
  | none, q => q

/-- Node `i` of level `k` over the given leaves: it combines nodes `2i` and `2i + 1` of the level below. -/
def treeNode (f : Nat → Nat → Nat) (leaf : Nat → Option Nat) : Nat → Nat → Option Nat
  | 0, i => leaf i
  | k + 1, i => treeJoin f (treeNode f leaf k (2 * i)) (treeNode f leaf k (2 * i + 1))

/-- A level past the end of its list holds absent nodes. -/
theorem treeLevel_getD (f : Nat → Nat → Nat) (v : List (Option Nat)) (i : Nat) :
    (treeLevel f v).getD i none = treeJoin f (v.getD (2 * i) none) (v.getD (2 * i + 1) none) := by
  induction v using treeLevel.induct generalizing i with
  | case1 p q v ih =>
    cases i with
    | zero => cases p <;> cases q <;> rfl
    | succ i => exact ih i
  | case2 v hshort =>
    match v, hshort with
    | [], _ => rfl
    | [p], _ =>
      cases i with
      | zero => cases p <;> rfl
      | succ i => rfl
    | p :: q :: v, hshort => exact absurd rfl (hshort p q v)

theorem treeNode_treeLevel (f : Nat → Nat → Nat) (v : List (Option Nat)) (k i : Nat) :
    treeNode f (fun j => (treeLevel f v).getD j none) k i = treeNode f (fun j => v.getD j none) (k + 1) i := by
  induction k generalizing i with
  | zero => exact treeLevel_getD f v i
  | succ k ih => exact congrArg₂ (treeJoin f) (ih (2 * i)) (ih (2 * i + 1))

/-- The model's reduction of a list, level by level, is the root of the tree. -/
theorem treeReduce_eq_treeNode (f : Nat → Nat → Nat) (k : Nat) (v : List (Option Nat)) :
    treeReduce f k v = treeNode f (fun j => v.getD j none) k 0 := by
  induction k generalizing v with
  | zero => cases v <;> rfl
  | succ k ih => rw [treeReduce, ih, treeNode_treeLevel]

/-- The leaf of a lane: its value when it is selected, else absent. -/
def laneLeaf (b : List Nat) (v : Nat → Nat) (l : Nat) : Option Nat := if l ∈ b then some (v l) else none

/-- The result of a float reduction from the root of its tree. -/
def treeResult (b : List Nat) (identity : Nat) : Option Nat → Nat
  | some q => if b.length = 1 then canonF32 q else q
  | none => identity

theorem getD_map_laneLeaf {b : List Nat} {w : Nat} (hb : ∀ l ∈ b, l < w) (v : Nat → Nat) (l : Nat) :
    ((List.range w).map (laneLeaf b v)).getD l none = laneLeaf b v l := by
  rw [List.getD_eq_getElem?_getD, List.getElem?_map]
  rcases Nat.lt_or_ge l w with h | h
  · rw [List.getElem?_range h]; rfl
  · rw [List.getElem?_eq_none (List.length_range.trans_le h), laneLeaf, if_neg (fun hl => (hb l hl).not_ge h)]; rfl

/-- An immediate that stands for an f32 literal changes neither the destination nor the active lanes (R63). -/
theorem alu_f32Word (g : Group) (x : InsWord) (k : Nat) (f : Nat → Nat) : alu g (f32Word g x) k f = alu g x k f := by
  rw [f32Word]
  split <;> rfl

theorem selected_lt {g : Group} {x : InsWord} {ps : Nat} {neg : Bool} : ∀ l ∈ selected g x ps neg, l < g.width :=
  fun _ hl => (mem_lanesOf.1 (List.mem_of_mem_filter hl)).1

theorem reduxTree_eq (x : InsWord) (f : Nat → Nat → Nat) (identity : Nat) (g : Group) :
    reduxTree x f canonF32 identity g = alu g x 1 (fun _ => treeResult (selected g x (modF x 6 4) (x.mod.getLsbD 7)) identity
      (treeNode f (laneLeaf (selected g x (modF x 6 4) (x.mod.getLsbD 7)) (src32 g x x.opa)) g.width.log2 0)) := by
  have hroot := treeReduce_eq_treeNode f g.width.log2
    ((allLanes g).map (laneLeaf (selected g x (modF x 6 4) (x.mod.getLsbD 7)) (src32 g x x.opa)))
  simp only [allLanes, getD_map_laneLeaf selected_lt] at hroot
  rw [← hroot]
  rfl

/-! ## The crossbar and lane ids (R150, R155) -/

theorem xbarByte_eq (s : State) (g : Group) (x : InsWord) (l k : Nat) : xbarByte s g x l k =
    if bit (ptabDesc s (ptabCore g) (modF x 3 0) (4 * l + k)) 10 = true
        ∨ g.width ≤ ptabDesc s (ptabCore g) (modF x 3 0) (4 * l + k) % 2 ^ 7 then 0
    else src32 g x (if bit (ptabDesc s (ptabCore g) (modF x 3 0) (4 * l + k)) 9 then x.opb else x.opa)
        (ptabDesc s (ptabCore g) (modF x 3 0) (4 * l + k) % 2 ^ 7)
      / 2 ^ (8 * (ptabDesc s (ptabCore g) (modF x 3 0) (4 * l + k) / 2 ^ 7 % 4)) % 2 ^ 8 := by
  rw [xbarByte]
  exact if_congr (by rw [Bool.or_eq_true, decide_eq_true_iff]; rfl) rfl rfl

theorem foldl_xbarByte (b : Nat → Nat) : (List.range 4).foldl (fun t k => t + 2 ^ (8 * k) * b k) 0
    = b 0 + 2 ^ 8 * b 1 + 2 ^ 16 * b 2 + 2 ^ 24 * b 3 := by
  simp [List.range_succ]

theorem laneidVal_eq (w l : Nat) {mode : Nat} (h : mode < 4) : laneidVal w mode l
    = (([l, 2 ^ l - 1, 2 ^ (l + 1) - 1, 2 ^ w - 2 ^ (l + 1)] : List Nat))[mode]?.getD 0 := by
  interval_cases mode <;> rfl

theorem modF_lt (x : InsWord) (hi lo : Nat) : modF x hi lo < 2 ^ (hi + 1 - lo) := Nat.mod_lt _ (Nat.two_pow_pos _)

end Sys2Proof.Machine
end

section
/-! The statements of chapter 6 about shuffles, matches, votes, reductions, running sums, compaction, the crossbar and lane ids (R140, R142,
R144, R146 to R150, R155). -/

namespace Sys2Proof.Machine
open Sys2Proof

/-- `SHFL` for a choice of source lane and flag stated in other words than the model's. -/
theorem next_shflOp {s : State} {g : Group} {i : Instr} {w : Bool} {x : InsWord} {pick : Nat → Nat → Nat → Nat × Bool}
    (hcur : curGroup s = some g) (hok : g.ok = true) (he : exec i s = onGroup s (shflOp w x pick)) {f : Nat → Nat} {p : Nat → Bool}
    (hval : ∀ l, src g x w false x.opa (l - l % shflW g x + (pick (shflW g x) (l % shflW g x) (src32 g x x.opb l)).1) = f l)
    (hflag : ∀ l, (pick (shflW g x) (l % shflW g x) (src32 g x x.opb l)).2 = p l) :
    ∃ h1 h, exec i s = .next (finish s h) ∧ ResultWritten g h1 x (wide w) (active g x) f
      ∧ PredWritten h1 h (modF x 5 3) (active g x) p := by
  obtain rfl := funext hval
  obtain rfl := funext hflag
  exact next_alu_wrP hcur hok he rfl

/-- Settles O10: each lane's source and flag are the two parts of the model's choice, and all values are equal when every active lane is
every other's peer. -/
theorem shuffleAndMatch : Obligations.ShuffleAndMatch := by
  intro s g w x hcur hok seg k key inRange val act peers allSame mk both
  refine ⟨?absolute, ?lo, ?hi, ?flip, ?peers, ?unan⟩
  case absolute | flip => exact next_shflOp hcur hok rfl (fun _ => rfl) (fun _ => rfl)
  case lo | hi =>
    exact next_shflOp hcur hok rfl (fun l => apply_ite (fun r : Nat × Bool => val (l - l % seg + r.1)) ..)
      (fun _ => flag_of_choice ..)
  case peers | unan =>
    have hsame : unanimous w g x = allSame := unanimous_eq w g x
    rw [← hsame]
    exact next_alu_wrP hcur hok rfl rfl

/-- Settles O11: C is a part of the active lanes, so it is empty or the whole of them exactly as its members tell. -/
theorem votes : Obligations.Votes := by
  intro s g x hcur hok act c pd
  have hc : voteSet g x = c := voteSet_eq g x
  have hpred {i : Instr} {f : List Nat → List Nat → Bool} {r : Bool} (he : exec i s = onGroup s (voteOp x f)) (hr : f c act = r) :
      ∃ h, exec i s = .next (finish s h) ∧ PredWritten g h pd act (fun _ => r) :=
    next_wrP hcur hok he (by rw [voteOp, hc, ← hr])
  refine ⟨hpred rfl ?every, hpred rfl ?some, hpred rfl ?same, ?mask⟩
  case every => exact decide_eq_decide.2 (filter_eq_self_iff_mem ..)
  case some => exact voteSome_eq ..
  case same => exact voteSame_eq ..
  case mask => exact computes_alu hcur hok rfl (by rw [← hc]; rfl)

/-- Settles O12: folds over the selected values are their sum, least and greatest value and bitwise combination, and the model's levels of
neighbours are the levels of the tree. -/
theorem reduceAndScan : Obligations.ReduceAndScan := by
  constructor
  · intro s g x hcur hok b u v e
    have hlt (l : Nat) : v l < 2 ^ 32 := src32_lt ..
    have hvals : ∀ a ∈ b.map v, a < 2 ^ 32 := List.forall_mem_map.2 fun l _ => hlt l
    refine ⟨?add, ?least, ?greatest, ?and, ?or, ?xor, ?inc, ?exc⟩
    case add => exact computes_of_value hcur hok rfl rfl (fun _ => reduxSum_map ..)
    case least => exact ⟨_, computes_alu hcur hok rfl rfl, reduxMinMax_map false u hlt b⟩
    case greatest => exact ⟨_, computes_alu hcur hok rfl rfl, reduxMinMax_map true u hlt b⟩
    case and =>
      exact ⟨_, computes_alu hcur hok rfl rfl, foldl_lt_two_pow (fun _ => Nat.and_lt_two_pow _) hvals (by decide),
        fun _ => bit_foldl_and_iff v b⟩
    case or =>
      exact ⟨_, computes_alu hcur hok rfl rfl, foldl_lt_two_pow Nat.or_lt_two_pow hvals (by decide),
        fun i _ => bit_foldl_or_iff v b i⟩
    case xor =>
      exact ⟨_, computes_alu hcur hok rfl rfl, foldl_lt_two_pow Nat.xor_lt_two_pow hvals (by decide),
        fun i _ => bit_foldl_xor_iff v b i⟩
    case inc =>
      refine computes_of_value hcur hok rfl rfl (fun l => (foldl_add_mod v _ _).trans ?_)
      rw [funext (scanBound_inc l)]
      rfl
    case exc =>
      refine computes_of_value hcur hok rfl rfl (fun l => (foldl_add_mod v _ _).trans ?_)
      rw [funext (scanBound_exc l)]
      rfl
  · intro s g x hcur hok y b tree reduces
    have hreduces {i : Instr} {f : Nat → Nat → Nat} {identity : Nat}
        (he : exec i s = onGroup s (fun g => reduxTree (f32Word g x) f canonF32 identity g)) : reduces i f identity := by
      refine ⟨treeNode f (laneLeaf b (src32 g y y.opa)), _, ⟨fun _ => rfl, fun k i => ?node⟩,
        computes_alu hcur hok he ((reduxTree_eq ..).trans (alu_f32Word ..)), ?root⟩
      case node =>
        rw [treeNode]
        cases treeNode f _ k (2 * i) <;> rfl
      case root =>
        show treeResult b identity (treeNode f _ _ 0) = _
        cases treeNode f (laneLeaf b (src32 g y y.opa)) g.width.log2 0 <;> rfl
    exact ⟨hreduces rfl, hreduces rfl, hreduces rfl⟩

/-- Settles O13: the count in `CMPR` and the rank in `EXPD` are lengths of parts of B, and the crossbar's word is the sum of its bytes. -/
theorem compactExpandCross : Obligations.CompactExpandCross := by
  intro s g x hcur hok b e byte
  obtain ⟨-, -, -, -, hwidth⟩ := (Group.ok_iff g).1 hok
  refine ⟨?compact, ?expand, ?cross, ?ids⟩
  case compact =>
    have hlanes : ∀ l ∈ List.range g.width, l < 64 := fun l hl => (List.mem_range.1 hl).trans_le hwidth
    have hvals (i : Nat) : (b.map (src32 g x x.opa)).getD i 0 = ((b[i]?).map (src32 g x x.opa)).getD 0 := by
      rw [List.getD_eq_getElem?_getD, List.getElem?_map]
    refine ⟨_, onGroup_next hcur _, ?_⟩
    rw [← funext hvals]
    exact wrRes_spec hok x 1 hlanes _
  case expand =>
    refine computes_of_value hcur hok rfl rfl (fun l => ?_)
    rw [List.countP_eq_length_filter]
    rfl
  case cross =>
    refine computes_of_value hcur hok rfl rfl (fun l => (foldl_xbarByte _).trans ?_)
    simp only [xbarByte_eq]
    rfl
  case ids =>
    have hregs : (if modF x 1 0 = 0 ∨ g.width ≠ 64 then 1 else 2) = if modF x 1 0 = 0 then 1 else maskN g := by
      rw [maskN, ite_or, ite_not]
    rw [hregs]
    exact computes_of_value hcur hok rfl rfl (fun l => laneidVal_eq g.width l (modF_lt x 1 0))

end Sys2Proof.Machine
end

section
/-! Execution masks and predicates (R64, R169, R170): a mask seen bit by bit, cut to the group's width; and the statement about the instructions
that read and write them. -/

namespace Sys2Proof.Machine
open Sys2Proof

/-- `Mask(WIDTH)` of R169 keeps the lanes below the width. -/
theorem getLsbD_widthMask (w : Nat) {l : Nat} (hl : l < 64) : (widthMask w).getLsbD l = decide (l < w) := by
  rw [widthMask]
  split
  · rw [BitVec.getLsbD_allOnes, decide_eq_true hl, decide_eq_true (by omega)]
  · rw [BitVec.getLsbD_ofNat, Nat.testBit_two_pow_sub_one, decide_eq_true hl, Bool.true_and]

theorem toNat_and_widthMask (m : W64) {w : Nat} (hw : w ≤ 64) : (m &&& widthMask w).toNat = m.toNat % 2 ^ w := by
  have hmask : (widthMask w).toNat = 2 ^ w - 1 := by
    rw [widthMask]
    split
    · rw [BitVec.toNat_allOnes, show w = 64 by omega]
    · have := Nat.pow_lt_pow_right (a := 2) (by decide) (show w < 64 by omega)
      rw [BitVec.toNat_ofNat, Nat.mod_eq_of_lt (by omega)]
  rw [BitVec.toNat_and, hmask, Nat.and_two_pow_sub_one_eq_mod]

/-- The mask operand is the one that the group's width selects, bit by bit. -/
theorem getLsbD_maskSrc (g : Group) (x : InsWord) (l : Nat) :
    (maskSrc g x).getLsbD l = bit (if g.width = 64 then src64 g x false x.opa 0 else src32 g x x.opa 0) l := by
  have hlt : (if g.width = 64 then src64 g x false x.opa 0 else src32 g x x.opa 0) < 2 ^ 64 := by
    split
    · exact src64_lt ..
    · exact (src32_lt ..).trans (by decide)
  rw [maskSrc, bit_eq_testBit, BitVec.getLsbD, BitVec.toNat_ofNat, Nat.mod_eq_of_lt hlt]

/-! ## The new `EM` of `EMWR`, by its mode (R169) -/

theorem emwrVal_live {g : Group} {x : InsWord} (h : modF x 1 0 = 0) : emwrVal g x = maskSrc g x &&& g.live &&& widthMask g.width := by
  simp only [emwrVal, h]

theorem emwrVal_and {g : Group} {x : InsWord} (h : modF x 1 0 = 1) : emwrVal g x = g.em &&& maskSrc g x &&& widthMask g.width := by
  simp only [emwrVal, h]

theorem emwrVal_pred {g : Group} {x : InsWord} (h : modF x 1 0 = 2) : emwrVal g x
    = g.em &&& maskOf ((allLanes g).filter (fun l => rdP g (modF x 4 2) l != x.mod.getLsbD 5)) := by
  simp only [emwrVal, h]

theorem decide_mem_filter_range (p : Nat → Bool) (w l : Nat) : decide (l ∈ (List.range w).filter p) = (decide (l < w) && p l) := by
  simp

/-- Settles O14: the mask operand and `Mask(WIDTH)` bit by bit; predicates are written in the lanes of `Active()`. -/
theorem masksAndPredicates : Obligations.MasksAndPredicates := by
  intro s g x hcur hok act a p
  obtain ⟨-, hs, -, -, hwidth⟩ := (Group.ok_iff g).1 hok
  refine ⟨onGroup_next hcur _, fun d hd => ?read, fun hmode => ⟨_, onGroup_next hcur _, fun l hl => ?write⟩, ?set, next_wrP hcur hok rfl rfl⟩
  case read =>
    refine ⟨_, withGroup_next hcur _, ?_⟩
    simp only [hd, toNat_and_widthMask g.em hwidth]
    exact wrSs_written hs ..
  case write =>
    have hmode : modF x 1 0 = 0 ∨ modF x 1 0 = 1 ∨ modF x 1 0 = 2 := by omega
    obtain h | h | h := hmode
    · rw [emwrVal_live h, BitVec.getLsbD_and, BitVec.getLsbD_and, getLsbD_maskSrc, getLsbD_widthMask _ hl, Bool.and_comm, h]
      rfl
    · rw [emwrVal_and h, BitVec.getLsbD_and, BitVec.getLsbD_and, getLsbD_maskSrc, getLsbD_widthMask _ hl, Bool.and_comm, h]
      rfl
    · rw [emwrVal_pred h, BitVec.getLsbD_and, getLsbD_maskOf _ hl, allLanes, decide_mem_filter_range, Bool.and_left_comm, h]
      rfl
  case set =>
    refine next_wrP hcur hok rfl (congrArg _ (funext fun l => ?_))
    rw [getLsbD_maskSrc]

end Sys2Proof.Machine
end

section
/-! Transfers of a group (R54, R55, R166, R167): what the target's `ENTRY` bit makes of a transfer and of the link that a call writes, when
each condition holds, and the statement about branches, calls and returns. -/

namespace Sys2Proof.Machine
open Sys2Proof

/-! ## Where a transfer ends (R55, R57, R166) -/

section Entry
variable {s : State} {g : Group} {pc : W64}

theorem transfer_illegal (h : entryAt s (gBuf g) g.core g.ctx pc = some false) (k : Group) (link : Option (Nat × Nat)) :
    transfer s g k pc link = takeFault s g ⟨8, 5, pc.toNat, 0, 0⟩ := by
  simp only [transfer, h]
  rfl

/-- A transfer that is no illegal entry lands. Only where the line cannot be read yet does the group keep the transfer's PC and `link`. -/
theorem transfer_lands (h : entryAt s (gBuf g) g.core g.ctx pc ≠ some false) (k : Group) (link : Option (Nat × Nat)) :
    transfer s g k pc link = finishAt s { k with link := if entryAt s (gBuf g) g.core g.ctx pc = none then link else k.link } pc
      (if entryAt s (gBuf g) g.core g.ctx pc = none then some g.pc else none) := by
  cases he : entryAt s (gBuf g) g.core g.ctx pc with
  | none => simp only [transfer, he, if_true]
  | some b =>
    cases b with
    | false => exact absurd he h
    | true => simp only [transfer, he, reduceCtorEq, if_false]

theorem goTo_entry (h : entryAt s (gBuf g) g.core g.ctx pc = some true) : goTo s g pc = finishAt s g pc none := by
  simp only [goTo, transfer, h]

theorem goTo_unread (h : entryAt s (gBuf g) g.core g.ctx pc = none) :
    goTo s g pc = finishAt s { g with link := none } pc (some g.pc) := by
  simp only [goTo, transfer, h]

end Entry

/-! ## Conditions, targets and links -/

theorem transferIf_taken {s : State} {g : Group} {c : Bool} (h : c = true) (pc : W64) : transferIf s g c pc = goTo s g pc := if_pos h
theorem transferIf_idle {s : State} {g : Group} {c : Bool} (h : ¬ c = true) (pc : W64) : transferIf s g c pc = finish s g := if_neg h

theorem callTo_taken {s : State} {g : Group} {x : InsWord} {d : BitVec 6} (h : active g x ≠ []) (hd : x.dst = .s d) (pc : W64) :
    callTo s g x pc
      = transfer s g (wrSs g d.toNat (words 2 (nextPc g).toNat)) pc (some (d.toNat, rdSs g d.toNat 2)) := by
  rw [callTo, if_neg h, hd]

theorem callTo_idle {s : State} {g : Group} {x : InsWord} (h : active g x = []) (pc : W64) : callTo s g x pc = finish s g := if_pos h

theorem pairOf_s {g : Group} {o : Opd} {a : BitVec 6} (h : o = .s a) :
    pairOf g o = BitVec.ofNat 64 (rdS g a.toNat + 2 ^ 32 * rdS g (a.toNat + 1)) := by
  rw [h]
  rfl

theorem not_list_isEmpty_iff {α : Type} (l : List α) : (!l.isEmpty) = true ↔ l ≠ [] := by
  rw [Bool.not_eq_true', List.isEmpty_eq_false_iff]

theorem predLanes_some (g : Group) (x : InsWord) :
    (!(predLanes g x).isEmpty) = true ↔ ∃ l ∈ active g x, (rdP g (modF x 2 0) l != x.mod.getLsbD 3) = true := by
  rw [not_list_isEmpty_iff, predLanes, Ne, List.filter_eq_nil_iff]
  push Not
  rfl

theorem predLanes_all (g : Group) (x : InsWord) : predLanes g x = active g x
    ↔ ∀ l ∈ active g x, (rdP g (modF x 2 0) l != x.mod.getLsbD 3) = true := by
  rw [predLanes, List.filter_eq_self]

/-- Writing `s` registers does not see the link. -/
theorem WrittenS.withLink {g h : Group} {n k v : Nat} (hw : WrittenS g h n k v) (link : Option (Nat × Nat)) :
    WrittenS { g with link := link } { h with link := link } n k v := by
  obtain ⟨hframe, hword, hkept⟩ := hw
  exact ⟨congrArg (fun h : Group => { h with link := link }) hframe, hword, hkept⟩

/-! ## The statement -/

/-- Settles O16: a branch and a return go to their target on their condition, a call writes its link in the group that lands. -/
theorem transfers : Obligations.Transfers := by
  intro s g x hcur hok act ps rel fault look goes calls
  obtain ⟨-, hs, -, -, -⟩ := (Group.ok_iff g).1 hok
  have hgoes {i : Instr} {b : Bool} {c : Prop} {pc : W64} (he : exec i s = .next (transferIf s g b pc)) (hb : b = true ↔ c) :
      goes i c pc := by
    refine ⟨fun hc hlook => ?entry, fun hc hlook => ?illegal, fun hc hlook => ?unread, fun hc => ?idle⟩
    case entry => rw [he, transferIf_taken (hb.2 hc), goTo_entry hlook]
    case illegal => rw [he, transferIf_taken (hb.2 hc), goTo, transfer_illegal hlook]
    case unread => rw [he, transferIf_taken (hb.2 hc), goTo_unread hlook]
    case idle => rw [he, transferIf_idle (mt hb.1 hc)]
  have hcalls {i : Instr} {pc : W64} (he : exec i s = .next (callTo s g x pc)) : calls i pc := by
    refine fun d hd => ⟨fun hact hlook => ?lands, fun hact hlook => ?illegal, fun hact => ?idle⟩
    case lands =>
      refine ⟨_, by rw [he, callTo_taken hact hd, transfer_lands hlook], (wrSs_written hs ..).withLink _, ?_⟩
      rw [wrSs_s]
    case illegal => rw [he, callTo_taken hact hd, transfer_illegal hlook]
    case idle => rw [he, callTo_idle hact]
  refine ⟨hgoes (withGroup_next hcur _) (not_list_isEmpty_iff act), hgoes (withGroup_next hcur _) decide_eq_true_iff,
    hgoes (withGroup_next hcur _) (predLanes_some g x), hgoes (withGroup_next hcur _) ?all, hcalls (withGroup_next hcur _),
    fun a ha => ?pair⟩
  case all => rw [Bool.and_eq_true, decide_eq_true_iff, not_list_isEmpty_iff, predLanes_all]
  case pair =>
    rw [← pairOf_s ha]
    exact ⟨hgoes (withGroup_next hcur _) (not_list_isEmpty_iff act), hgoes (withGroup_next hcur _) (not_list_isEmpty_iff act),
      hcalls (withGroup_next hcur _)⟩

end Sys2Proof.Machine
end

section
/-! The statement about launches (R158, R164, R191): a group that is critical when it ends leaves its partition's pending swap without a
reason to wait, so that its retirement changes the partition as well. -/

namespace Sys2Proof.Machine
open Sys2Proof

/-! ## The end of a swap's deferral -/

/-- Whether a partition's swap is due after an outcome. -/
def swapDueAfter (o : Host.Outcome State Fault Refusal) (p : Nat) : Option Bool :=
  match o with
  | .next t => some (partOf t p).swapDue
  | _ => none

/-! ## The statement -/

/-- A group of a team of two that has ended with hint depth 1. -/
def leaver : Group :=
  { probeGroup State.reset with ctx := 1, lh := 5, teamId := 7, hint := 1, st := .ending, em := 0, live := 0 }

/-- The other group of its team. -/
def stayer : Group := { probeGroup State.reset with uid := 2, slot := 1, ctx := 1, lh := 5, teamId := 7, index := 1 }

/-- The device with those two groups, of a launch of context 1; a swap of the partition waits for the hint depth of the first. -/
def deferred : State :=
  { State.reset with
    mode := .running, nextId := 8, groups := [leaver, stayer], ctxs := [Ctx.firmware, { Ctx.firmware with id := 1, inBanks := true }]
    parts := updAt State.reset.parts 0 (fun q => { q with swap := true, swapAt := 52500 })
    launches := [{ (default : Launch) with lh := 5, ctx := 1, placed := [0], started := true }]
    teams := [{ (default : Team) with id := 7, lh := 5, count := 2, live := 2, masks := [0, 0], cores := [0] }] }

/-- The swap is pending and deferred. -/
theorem deferred_waits : (partOf deferred 0).swap = true ∧ noHints deferred 0 = false ∧ (partOf deferred 0).swapDue = false := by
  decide +kernel

/-- With its group gone no hint is left, and the swap is due. -/
theorem deferred_retires : swapDueAfter (exec .groupRetire deferred) 0 = some true := by decide +kernel

/-- Refutes O48: its clause on the retirement of a group whose team lives on lets the groups, teams, launches and agenda alone change;
in `deferred` the retirement also ends the deferral of the partition's pending swap, as R164 asks. -/
theorem not_launchEvents : ¬ Obligations.LaunchEvents := by
  intro h
  obtain ⟨-, -, -, hretire, -⟩ := h deferred rfl
  obtain ⟨-, hteam⟩ := hretire leaver rfl rfl
  obtain ⟨-, -, hwait⟩ := deferred_waits
  obtain ⟨t, -, hnext, hframe, -⟩ := hteam _ (by decide) rfl (by decide) ⟨stayer, by decide, rfl, by decide, by decide⟩
  have hparts : t.parts = deferred.parts := (congrArg State.parts hframe).trans rfl
  have hstays : (partOf t 0).swapDue = false := by
    rw [partOf, hparts]
    exact hwait
  have hdue := deferred_retires
  rw [hnext, swapDueAfter, hstays] at hdue
  exact absurd hdue (by decide)

end Sys2Proof.Machine
end

section
/-! The happens-before order of fences (R223, R224, R295, R303): what the union of two clocks holds, what a group that joins releases observes,
and the statement about `FENCE` and `FENCE.X`. -/

namespace Sys2Proof.Machine
open Sys2Proof

/-! ## Vector clocks (R293) -/

/-- A clock holds at least what another does of every group. -/
def ClkLe (a b : SMap Nat) : Prop := ∀ k, SMap.get 0 a k ≤ SMap.get 0 b k

theorem ClkLe.refl (a : SMap Nat) : ClkLe a a := fun _ => Nat.le_refl _
theorem ClkLe.trans {a b c : SMap Nat} (h : ClkLe a b) (k : ClkLe b c) : ClkLe a c := fun i => (h i).trans (k i)

/-- One count raised to another, never lowered. -/
def clkRaise (m : SMap Nat) (kv : Nat × Nat) : SMap Nat := if SMap.get 0 m kv.1 < kv.2 then SMap.put 0 m kv.1 kv.2 else m

theorem vcJoin_eq_foldl (a b : SMap Nat) : vcJoin a b = b.foldl clkRaise a := rfl

theorem wf_clkRaise {m : SMap Nat} (hm : SMap.wf 0 m = true) (kv : Nat × Nat) : SMap.wf 0 (clkRaise m kv) = true := by
  unfold clkRaise
  split
  · exact SMap.wf_put hm ..
  · exact hm

theorem get_clkRaise {m : SMap Nat} (hm : SMap.wf 0 m = true) (kv : Nat × Nat) (j : Nat) :
    SMap.get 0 (clkRaise m kv) j = if j = kv.1 then max (SMap.get 0 m j) kv.2 else SMap.get 0 m j := by
  unfold clkRaise
  by_cases hj : j = kv.1
  · subst hj
    rw [if_pos rfl]
    split
    · rw [SMap.get_put_self hm]; omega
    · omega
  · rw [if_neg hj]
    split
    · rw [SMap.get_put_ne hm hj]
    · rfl

theorem wf_vcJoin {a : SMap Nat} (ha : SMap.wf 0 a = true) (b : SMap Nat) : SMap.wf 0 (vcJoin a b) = true :=
  foldl_keeps (fun m : SMap Nat => SMap.wf 0 m = true) clkRaise (fun _ kv hm => wf_clkRaise hm kv) b a ha

theorem le_vcJoin_left {a : SMap Nat} (ha : SMap.wf 0 a = true) (b : SMap Nat) : ClkLe a (vcJoin a b) := by
  rw [vcJoin_eq_foldl]
  induction b generalizing a with
  | nil => exact .refl a
  | cons kv r ih =>
    refine .trans (fun j => ?_) (ih (wf_clkRaise ha kv))
    rw [get_clkRaise ha]
    split <;> omega

/-- What a map reads at a key is listed there, or is the default. -/
theorem SMap.get_mem_or_default {α : Type} (d : α) (m : SMap α) (k : Nat) : SMap.get d m k = d ∨ (k, SMap.get d m k) ∈ m := by
  induction m with
  | nil => exact .inl rfl
  | cons p r ih =>
    obtain ⟨k', v⟩ := p
    simp only [SMap.get]
    split
    · rename_i hk; subst hk; exact .inr (List.mem_cons_self ..)
    · split
      · exact .inl rfl
      · exact ih.imp_right (List.mem_cons_of_mem _)

theorem le_vcJoin_right {a : SMap Nat} (ha : SMap.wf 0 a = true) (b : SMap Nat) : ClkLe b (vcJoin a b) := by
  have hmem (b : SMap Nat) : ∀ a, SMap.wf 0 a = true → ∀ kv ∈ b, kv.2 ≤ SMap.get 0 (vcJoin a b) kv.1 := by
    induction b with
    | nil => simp
    | cons p r ih =>
      intro a ha kv hkv
      obtain rfl | hr := List.mem_cons.1 hkv
      · refine Nat.le_trans ?_ (le_vcJoin_left (wf_clkRaise ha kv) r kv.1)
        rw [get_clkRaise ha, if_pos rfl]
        omega
      · exact ih _ (wf_clkRaise ha p) kv hr
  intro k
  obtain h | h := SMap.get_mem_or_default 0 b k
  · omega
  · exact hmem b a ha _ h

/-! ## Releases joined (R294, R295) -/

theorem joinRels_frame (rs : List Rel) (p : Group → Rel → Bool) (g : Group) : joinRels g rs p = { g with vc := (joinRels g rs p).vc } := by
  unfold joinRels
  induction rs generalizing g with
  | nil => rfl
  | cons r rs ih =>
    rw [List.foldl_cons, ih]
    split <;> rfl

/-- What a group that joins the releases a test picks has observed before and after. -/
theorem joinRels_le {rs : List Rel} {p : Group → Rel → Bool} (hp : ∀ g v r, p { g with vc := v } r = p g r) {g : Group}
    (hg : SMap.wf 0 g.vc = true) : SMap.wf 0 (joinRels g rs p).vc = true ∧ ClkLe g.vc (joinRels g rs p).vc
      ∧ ∀ r ∈ rs, p g r = true → ClkLe r.vc (joinRels g rs p).vc := by
  unfold joinRels
  induction rs generalizing g with
  | nil => exact ⟨hg, .refl _, by simp⟩
  | cons r rs ih =>
    rw [List.foldl_cons]
    cases hr : p g r with
    | true =>
      obtain ⟨hwf, hle, hall⟩ := ih (g := joinVc g r.vc) (wf_vcJoin hg r.vc)
      refine ⟨hwf, (le_vcJoin_left hg r.vc).trans hle, fun q hq hpq => ?_⟩
      obtain rfl | hq := List.mem_cons.1 hq
      · exact (le_vcJoin_right hg q.vc).trans hle
      · exact hall q hq ((hp g _ q).trans hpq)
    | false =>
      obtain ⟨hwf, hle, hall⟩ := ih hg
      refine ⟨hwf, hle, fun q hq hpq => ?_⟩
      obtain rfl | hq := List.mem_cons.1 hq
      · rw [hr] at hpq; cases hpq
      · exact hall q hq hpq

/-! ## Fences performed (R223, R224) -/

/-- What a fence at a scope leaves of its group: a clock of the scope that holds what the releases seen hold. -/
theorem noteFence_spec {g : Group} (hg : SMap.wf 0 g.vc = true) (scope : Nat) :
    noteFence g scope = { g with vc := (noteFence g scope).vc, fences := (noteFence g scope).fences }
      ∧ ∃ v, (scope, v) ∈ (noteFence g scope).fences ∧ ClkLe g.vc v ∧ ∀ r ∈ g.seen, relCovers r g scope = true → ClkLe r.vc v := by
  obtain ⟨-, hle, hall⟩ := joinRels_le (rs := g.seen) (p := fun g r => relCovers r g scope) (fun _ _ _ => rfl) hg
  refine ⟨?_, _, List.mem_cons_self .., hle, hall⟩
  simp only [noteFence, tickVc]
  rw [joinRels_frame]

/-- The releases of the named paths that a group has seen, joined (R303). -/
def joinPaths (named : List Nat) (g : Group) : Group :=
  joinRels g g.seen (fun h r => match r.kind with | .path k => named.contains k && r.ctx = h.ctx | _ => false)

theorem joinPaths_frame (named : List Nat) (g : Group) : joinPaths named g = { g with vc := (joinPaths named g).vc } := joinRels_frame ..

theorem joinPaths_le (named : List Nat) {g : Group} (hg : SMap.wf 0 g.vc = true) :
    SMap.wf 0 (joinPaths named g).vc = true ∧ ClkLe g.vc (joinPaths named g).vc :=
  have h := joinRels_le (rs := g.seen) (p := fun h r => match r.kind with | .path k => named.contains k && r.ctx = h.ctx | _ => false)
    (fun _ _ _ => rfl) hg
  ⟨h.1, h.2.1⟩

theorem noteFenceX_other (g : Group) (cls : List Nat) (scope : Nat) :
    noteFenceX g false cls scope = { g with xfences := (noteFenceX g false cls scope).xfences } := rfl

/-- `FENCE.X` that names `LSU` is a fence of what the named paths showed as well, and gives the paths its group's clock. -/
theorem noteFenceX_lsu (g : Group) (cls : List Nat) (scope : Nat) : noteFenceX g true cls scope =
    { noteFence (joinPaths (0 :: cls) g) scope with
      xfences := cls.map (fun k => (k, (joinPaths (0 :: cls) g).vc)) ++ g.xfences.filter (fun f => !cls.contains f.1) } := rfl

theorem noteFenceX_lsu_spec {g : Group} (hg : SMap.wf 0 g.vc = true) (cls : List Nat) (scope : Nat) :
    ∃ h, noteFenceX g true cls scope = h ∧ h = { g with vc := h.vc, fences := h.fences, xfences := h.xfences }
      ∧ (∃ v, (scope, v) ∈ h.fences ∧ ∀ r ∈ g.seen, relCovers r g scope = true → ClkLe r.vc v)
      ∧ ∀ k ∈ cls, ∃ v, (k, v) ∈ h.xfences ∧ ClkLe g.vc v := by
  obtain ⟨hwf, hle⟩ := joinPaths_le (0 :: cls) hg
  obtain ⟨hframe, v, hv, -, hseen⟩ := noteFence_spec hwf scope
  have hjoin := joinPaths_frame (0 :: cls) g
  refine ⟨_, noteFenceX_lsu g cls scope, ?_, ⟨v, hv, fun r hr hcov => hseen r ?_ ?_⟩, fun k hk => ⟨(joinPaths (0 :: cls) g).vc, ?_, hle⟩⟩
  · rw [hframe, hjoin]
  · rw [hjoin]; exact hr
  · rw [hjoin]; exact hcov
  · exact List.mem_append_left _ (List.mem_map.2 ⟨k, hk, rfl⟩)

/-! ## Fences that wait (R300) -/

/-- A posted host store of a group at a port that no flushing read follows. -/
def unflushed (g : Group) (p : Nat) (q : Posted) : Bool := q.guid = g.uid && q.port = p && !q.peer && !q.cxl && !q.flushed

theorem flushPort_frame (s : State) (g : Group) (p : Nat) :
    flushPort s g p = { s with posted := (flushPort s g p).posted, out := (flushPort s g p).out } := by
  unfold flushPort
  simp only
  split <;> rfl

/-- After the flush of a port nothing at it is without its read, nor at another port that was flushed before. -/
theorem unflushed_flushPort (s : State) (g : Group) (p : Nat) : ∀ q ∈ (flushPort s g p).posted,
    unflushed g p q = false ∧ ∀ r, (∀ y ∈ s.posted, unflushed g r y = false) → unflushed g r q = false := by
  intro q hq
  unfold flushPort at hq
  simp only at hq
  split at hq
  · obtain ⟨y, hy, rfl⟩ := mem_updWhere hq
    split
    · exact ⟨by simp [unflushed], fun r _ => by simp [unflushed]⟩
    · rename_i hne
      exact ⟨eq_false_of_ne_true hne, fun r hr => hr y hy⟩
  · rename_i hnone
    exact ⟨eq_false_of_ne_true (List.find?_eq_none.1 hnone q hq), fun r hr => hr q hq⟩

/-- The state of a fence that waits: at `.sys` with the flushing reads of both ports behind its group's posted host stores. -/
def fenceWaits (s : State) (g : Group) (sys : Bool) : State := if sys then flushPort (flushPort s g 0) g 1 else s

theorem afterFence_waits {s : State} {g : Group} {sys : Bool} (h : outstanding s g sys = true) (k : State) :
    afterFence s g sys k = stallOf (fenceWaits s g sys) g := if_pos h
theorem afterFence_performed {s : State} {g : Group} {sys : Bool} (h : outstanding s g sys = false) (k : State) :
    afterFence s g sys k = k := if_neg (Bool.eq_false_iff.1 h)

theorem fenceWaits_frame (s : State) (g : Group) (sys : Bool) :
    fenceWaits s g sys = { s with posted := (fenceWaits s g sys).posted, out := (fenceWaits s g sys).out } := by
  unfold fenceWaits
  split
  · rw [flushPort_frame, flushPort_frame s]
  · rfl

theorem fenceWaits_flushed (s : State) (g : Group) : ∀ q ∈ (fenceWaits s g true).posted,
    q.guid = g.uid → q.port < 2 → q.peer = false → q.cxl = false → q.flushed = true := by
  intro q hq hguid hport hpeer hcxl
  obtain ⟨h1, h0⟩ := unflushed_flushPort (flushPort s g 0) g 1 q hq
  have h0 := h0 0 (fun y hy => (unflushed_flushPort s g 0 y hy).1)
  have hp : q.port = 0 ∨ q.port = 1 := by omega
  obtain hp | hp := hp
  · simpa [unflushed, hguid, hp, hpeer, hcxl] using h0
  · simpa [unflushed, hguid, hp, hpeer, hcxl] using h1

/-- A fence that waits stays at its instruction. -/
theorem afterFence_stays {s : State} {g : Group} {sys : Bool} (h : outstanding s g sys = true) (k : State) :
    ∃ u, afterFence s g sys k = stallOf u g ∧ u = { s with posted := u.posted, out := u.out } ∧ (¬ sys = true → u = s)
      ∧ (sys = true → ∀ q ∈ u.posted, q.guid = g.uid → q.port < 2 → q.peer = false → q.cxl = false → q.flushed = true) := by
  refine ⟨_, afterFence_waits h k, fenceWaits_frame .., fun hs => if_neg hs, ?_⟩
  rintro rfl
  exact fenceWaits_flushed s g

/-! ## The statement -/

/-- The lines of the core that a `FENCE.X` with `FETCH` leaves (R224). -/
def fetchFenced (s : State) (g : Group) (fetch : Bool) : State :=
  if fetch then { s with ibuf := s.ibuf.filter (fun l => l.core ≠ g.core || l.ctx ≠ g.ctx) } else s

theorem mem_ibuf_fetchFenced (s : State) (g : Group) (fetch : Bool) (l : IbufLine) : l ∈ (fetchFenced s g fetch).ibuf
    ↔ l ∈ s.ibuf ∧ ¬ (fetch = true ∧ l.core = g.core ∧ l.ctx = g.ctx) := by
  cases fetch
  · simp [fetchFenced]
  · simp [fetchFenced, imp_iff_not_or]

theorem exec_fence {s : State} {g : Group} {x : InsWord} (hcur : curGroup s = some g) (hact : active g x ≠ []) :
    exec (.fence x) s = .next (afterFence s g (modF x 4 3 = 3) (finish s (noteFence g (modF x 4 3)))) :=
  (withGroup_next hcur _).trans (congrArg _ (if_neg hact))

/-- The paths that a `FENCE.X` names (R224). -/
def fenceClasses (x : InsWord) : List Nat := [1, 2, 3, 4, 5, 6].filter (fun i => x.mod.getLsbD (3 + i))

theorem mem_fenceClasses {x : InsWord} {k : Nat} (h1 : 1 ≤ k) (h6 : k ≤ 6) (hk : x.mod.getLsbD (3 + k) = true) : k ∈ fenceClasses x :=
  List.mem_filter.2 ⟨by simp; omega, hk⟩

/-- The group that a `FENCE.X` leaves. -/
def fencedX (s : State) (g : Group) (x : InsWord) : Group :=
  let h := noteFenceX g (x.mod.getLsbD (3 + 0)) (fenceClasses x) (if x.mod.getLsbD (3 + 4) then 3 else 2)
  if x.mod.getLsbD (3 + 6) then { h with fetched := linesHeld s g } else h

theorem exec_fenceX {s : State} {g : Group} {x : InsWord} (hcur : curGroup s = some g) (hact : active g x ≠ []) :
    exec (.fenceX x) s = .next (afterFence s g (x.mod.getLsbD (3 + 4)) (finish (fetchFenced s g (x.mod.getLsbD (3 + 6))) (fencedX s g x))) :=
  (withGroup_next hcur _).trans (congrArg _ (if_neg hact))

/-- `FENCE.X` changes the lines fetched ahead on top of what it makes of the order, and only with `FETCH`. -/
theorem fencedX_eq (s : State) (g : Group) (x : InsWord) : fencedX s g x = { noteFenceX g (x.mod.getLsbD (3 + 0)) (fenceClasses x)
    (if x.mod.getLsbD (3 + 4) then 3 else 2) with fetched := (fencedX s g x).fetched } := by
  unfold fencedX
  simp only
  split <;> rfl

theorem fencedX_unfetched {s : State} {g : Group} {x : InsWord} (h : x.mod.getLsbD (3 + 6) = false) : fencedX s g x
    = noteFenceX g (x.mod.getLsbD (3 + 0)) (fenceClasses x) (if x.mod.getLsbD (3 + 4) then 3 else 2) :=
  if_neg (Bool.eq_false_iff.1 h)

/-- Settles O24: a fence that is performed joins what its group has seen into a clock of its scope, and one that waits flushes both ports. -/
theorem fences : Obligations.Fences := by
  intro s g x hcur hact hvc sc c fenced stays
  refine ⟨fun hout => ?fence, fun hout => ?fenceStays, fun hout => ?fenceX, fun hout => ?fenceXStays⟩
  case fence =>
    obtain ⟨hframe, v, hv, -, hseen⟩ := noteFence_spec hvc sc
    refine ⟨noteFence g sc, ?_, ⟨?_, v, hv, fun r hr hcov _ => hseen r hr hcov⟩, ?_, ?_⟩
    · rw [exec_fence hcur hact, afterFence_performed hout]
    all_goals rw [hframe]
  case fenceStays =>
    obtain ⟨u, hu, hframe, hsame, hflush⟩ := afterFence_stays hout (finish s (noteFence g sc))
    exact ⟨u, by rw [exec_fence hcur hact, hu], hframe, fun h => hsame (by simpa using h), fun h => hflush (by simpa using h)⟩
  case fenceX =>
    have hX := fencedX_eq s g x
    have hkeep : c 6 = false → _ := fencedX_unfetched (s := s) (g := g) (x := x)
    refine ⟨fencedX s g x, fetchFenced s g (c 6), ?_, ?_, mem_ibuf_fetchFenced s g (c 6), ?_⟩
    · rw [exec_fenceX hcur hact, afterFence_performed hout]
    · unfold fetchFenced
      split <;> rfl
    · cases hlsu : c 0 with
      | false =>
        rw [show x.mod.getLsbD (3 + 0) = false from hlsu, noteFenceX_other] at hX hkeep
        exact ⟨by rw [if_neg Bool.false_ne_true, hX], fun h => by rw [hkeep h]⟩
      | true =>
        obtain ⟨h, hh, hframe, ⟨v, hv, hseen⟩, hpaths⟩ := noteFenceX_lsu_spec hvc (fenceClasses x) (if c 4 then 3 else 2)
        rw [show x.mod.getLsbD (3 + 0) = true from hlsu, show x.mod.getLsbD (3 + 4) = c 4 from rfl, hh] at hX hkeep
        refine ⟨⟨⟨?_, v, ?_, fun r hr hcov _ => hseen r hr hcov⟩, fun k h1 h6 hk => ?_⟩, fun hfetch => ?_⟩
        · rw [hX, hframe]
        · rw [hX]; exact hv
        · rw [hX]; exact hpaths k (mem_fenceClasses h1 h6 hk)
        · rw [hkeep hfetch, hframe]
  case fenceXStays =>
    obtain ⟨u, hu, hframe, hsame, hflush⟩ := afterFence_stays hout (finish (fetchFenced s g (c 6)) (fencedX s g x))
    exact ⟨u, by rw [exec_fenceX hcur hact, hu], hframe, hsame, hflush⟩

end Sys2Proof.Machine
end

section
/-! Writes of lanes inside the part (R2, R197, R221, R389): the bytes that a write of a place leaves, what else of the machine it keeps, and what
the lanes of an instruction that write one after the other find and leave. -/

namespace Sys2Proof.Machine
open Sys2Proof

/-! ## Bytes of a value (R2) -/

theorem leVal_leBytes (n x : Nat) : leVal (leBytes n x) = x % 2 ^ (8 * n) := by
  induction n generalizing x with
  | zero => simp [leBytes, leVal, Nat.mod_one]
  | succ n ih =>
    rw [leBytes, leVal, ih, BitVec.toNat_ofNat, Nat.mul_add, Nat.add_comm (8 * n), Nat.pow_add]
    exact Nat.mod_mul.symm

theorem leBytes_mod (n x : Nat) : leBytes n (x % 2 ^ (8 * n)) = leBytes n x := by
  induction n generalizing x with
  | zero => rfl
  | succ n ih =>
    have hpow : 2 ^ (8 * (n + 1)) = 256 * 2 ^ (8 * n) := by rw [Nat.mul_add, Nat.add_comm (8 * n), Nat.pow_add]
    have hlow : BitVec.ofNat 8 (x % 2 ^ (8 * (n + 1))) = BitVec.ofNat 8 x := by
      apply BitVec.eq_of_toNat_eq
      rw [BitVec.toNat_ofNat, BitVec.toNat_ofNat, hpow, Nat.mod_mul_right_mod]
    rw [leBytes, leBytes, hlow, hpow, Nat.mod_mul_right_div_self, ih]

/-! ## Undefined bytes of device memory (R404) -/

/-- The undefined range that holds a byte, by its key. -/
def undefKey (u : List (Nat × Nat × Nat)) (j : Nat) : Option Nat := (u.find? (fun r => r.1 ≤ j && j < r.2.1)).map (fun r => r.2.2)

theorem dramByte_of_undef {s : State} {a k : Nat} (h : undefKey s.undef a = some k) : dramByte s a = Config.freeByte (k * 2 ^ 41 + a) := by
  obtain ⟨r, hr, rfl⟩ := Option.map_eq_some_iff.1 h
  simp only [dramByte, hr]
theorem dramByte_of_defined {s : State} {a : Nat} (h : undefKey s.undef a = none) : dramByte s a = memGet s.mem a := by
  simp only [dramByte, Option.map_eq_none_iff.1 h]

theorem undefKey_append (u v : List (Nat × Nat × Nat)) (j : Nat) : undefKey (u ++ v) j = (undefKey u j).or (undefKey v j) := by
  rw [undefKey, List.find?_append, Option.map_or, undefKey, undefKey]

theorem undefKey_range (lo hi k j : Nat) : undefKey [(lo, hi, k)] j = if lo ≤ j ∧ j < hi then some k else none := by
  unfold undefKey
  split <;> simp [*]

/-- What a write leaves of one undefined range. -/
theorem undefKey_cutRange (lo hi k a n j : Nat) :
    undefKey (cutUndef [(lo, hi, k)] a n) j = if a ≤ j ∧ j < a + n then none else undefKey [(lo, hi, k)] j := by
  have hcut : cutUndef [(lo, hi, k)] a n = if hi ≤ a || a + n ≤ lo then [(lo, hi, k)]
      else (if lo < a then [(lo, a, k)] else []) ++ (if a + n < hi then [(a + n, hi, k)] else []) := by
    simp [cutUndef]
  rw [hcut]
  split
  · rename_i hout
    rw [Bool.or_eq_true, decide_eq_true_eq, decide_eq_true_eq] at hout
    rw [undefKey_range]
    split_ifs
    · omega
    · rfl
    · rfl
    · rfl
  · rename_i hcross
    rw [Bool.or_eq_true, decide_eq_true_eq, decide_eq_true_eq] at hcross
    have hpart (p : Prop) [Decidable p] (lo hi : Nat) :
        undefKey (if p then [(lo, hi, k)] else []) j = if p ∧ lo ≤ j ∧ j < hi then some k else none := by
      by_cases hp : p
      · simp [hp, undefKey_range]
      · simp [hp, undefKey]
    rw [undefKey_append, hpart, hpart, undefKey_range]
    grind

/-- A written range is defined, and nothing else becomes so. -/
theorem undefKey_cutUndef (u : List (Nat × Nat × Nat)) (a n j : Nat) :
    undefKey (cutUndef u a n) j = if a ≤ j ∧ j < a + n then none else undefKey u j := by
  induction u with
  | nil => simp [cutUndef, undefKey]
  | cons r u ih =>
    have hcons : cutUndef (r :: u) a n = cutUndef [r] a n ++ cutUndef u a n := by simp [cutUndef]
    rw [hcons, undefKey_append, undefKey_cutRange, ih, show undefKey (r :: u) j = _ from undefKey_append [r] u j]
    split <;> rfl

/-! ## What a write keeps (R389) -/

/-- The saved image of a context, if it has one. -/
def savedImage (s : State) (id : Nat) : Option Image := (ctxOf s id).bind (fun c => c.image)

/-- The memories of the part are in canonical form. -/
def State.memOk (s : State) : Prop := Memory.wf s.scr = true ∧ Memory.wf s.mem = true

/-- What a group's write inside the part keeps: it changes the memories with what is known of their lines and rows, the order's notes, and
by watchpoints the halt lines; no saved image, and not the memories' form. -/
def StoresKept (s t : State) : Prop :=
  (∃ sc m ud bd ld rw cs ps ag st rl, t = { s with
      scr := sc, mem := m, undef := ud, bad := bd, lineDom := ld, rows := rw, ctxs := cs, parts := ps, agenda := ag, stamps := st, rels := rl })
    ∧ (∀ id, savedImage t id = savedImage s id) ∧ (s.memOk → t.memOk)

theorem StoresKept.refl (s : State) : StoresKept s s := ⟨⟨_, _, _, _, _, _, _, _, _, _, _, rfl⟩, fun _ => rfl, id⟩
theorem StoresKept.trans (a b c : State) (h : StoresKept a b) (k : StoresKept b c) : StoresKept a c := by
  obtain ⟨⟨_, _, _, _, _, _, _, _, _, _, _, rfl⟩, himg, hok⟩ := h
  obtain ⟨⟨_, _, _, _, _, _, _, _, _, _, _, rfl⟩, himg', hok'⟩ := k
  exact ⟨⟨_, _, _, _, _, _, _, _, _, _, _, rfl⟩, fun id => (himg' id).trans (himg id), fun h => hok' (hok h)⟩

/-- After reads, such writes are all that a store leaves. -/
theorem StoresKept.storesOnly {s u t : State} (hr : ReadsFrame s u) (h : StoresKept u t) : StoresOnly s t := by
  obtain ⟨⟨_, _, _, _, _, rfl⟩, hsends⟩ := hr
  obtain ⟨⟨_, _, _, _, _, _, _, _, _, _, _, rfl⟩, -⟩ := h
  exact ⟨rfl, rfl, rfl, rfl, rfl, rfl, rfl, rfl, rfl, rfl, rfl, hsends, rfl, rfl⟩

/-- A reply that stays in the banks does so after other writes (R174). -/
theorem StoresKept.awayScr {s t : State} (h : StoresKept s t) {g g' : Group} (hk : g'.kind = g.kind) (hc : g'.core = g.core) (a : Nat) :
    awayScr t g' a = awayScr s g a := by
  obtain ⟨⟨_, _, _, _, _, _, _, _, _, _, _, rfl⟩, himg, -⟩ := h
  simp only [savedImage] at himg
  simp only [Machine.awayScr, answering, hk, hc, himg]

theorem savedImage_updCtx (s : State) (id k : Nat) {f : Ctx → Ctx} (hid : ∀ c, (f c).id = c.id) (himg : ∀ c, (f c).image = c.image) :
    savedImage (updCtx s id f) k = savedImage s k := by
  rw [savedImage, ctxOf_updCtx s id k f hid, savedImage]
  cases ctxOf s k with
  | none => rfl
  | some c =>
    change (if c.id = id then f c else c).image = c.image
    split
    · exact himg c
    · rfl

theorem savedImage_raiseLine (s : State) (ctx : Nat) (r : FaultRec) (k : Nat) : savedImage (raiseLine s ctx r) k = savedImage s k := by
  unfold raiseLine
  simp only
  obtain ⟨ag, h⟩ := enqueueOnce_frame (updPart (updCtx s ctx (fun c => { c with line := true, faults := c.faults ++ [r] }))
    (partOfCtx s ctx) (fun p => { p with halt := true })) .contextStopped { ctx := ctx }
  rw [h]
  exact savedImage_updCtx s ctx k (fun _ => rfl) (fun _ => rfl)

theorem savedImage_watch (s : State) (ctx : Nat) (scratch : Bool) (a : Nat) (b : List Byte) (wr : Writer) (k : Nat) :
    savedImage (watch s ctx scratch a b wr) k = savedImage s k := by
  unfold watch
  split
  · rfl
  · simp only
    refine foldl_rel (fun s t => savedImage t k = savedImage s k) (fun _ => rfl) (fun _ _ _ h h' => h'.trans h) _ (fun s w => ?_) _ s
    generalize (if scratch = true then _ else _) = va
    split_ifs
    · rw [savedImage_raiseLine]
      exact savedImage_updCtx s ctx k (fun _ => rfl) (fun _ => rfl)
    · rfl

theorem scrWrite_kept (s : State) (ctx a : Nat) (b : List Byte) (wr : Writer) : StoresKept s (scrWrite s ctx a b wr) := by
  obtain ⟨_, _, _, h⟩ := scrWrite_frame s ctx a b wr
  refine ⟨⟨_, _, _, _, _, _, _, _, _, _, _, h⟩, savedImage_watch { s with scr := memPut s.scr a b } ctx true a b wr, fun hok => ?_⟩
  rw [h]
  exact ⟨Memory.wf_memPut hok.1 a b, hok.2⟩

theorem dramWrite_kept (s : State) (ctx pa lat : Nat) (b : List Byte) (wr : Writer) : StoresKept s (dramWrite s ctx pa lat b wr) := by
  obtain ⟨_, _, _, _, _, _, h⟩ := dramWrite_frame s ctx pa lat b wr
  refine ⟨⟨_, _, _, _, _, _, _, _, _, _, _, h⟩, fun k => (savedImage_watch _ ctx false pa b wr k).trans ?_, fun hok => ?_⟩
  · obtain ⟨_, h1⟩ := notice_frame (dramPut s pa b lat)
    obtain ⟨_, _, _, _, h2⟩ := dramPut_frame s pa b lat
    rw [h1, h2]
    rfl
  · rw [h]
    exact ⟨hok.1, Memory.wf_memPut hok.2 pa b⟩

/-! ## The bytes that a write leaves -/

/-- The first byte of a place of the part's own memories. -/
def Loc.start : Loc → Nat
  | .scr a => a
  | .dram a _ _ => a
  | _ => 0

/-- The bytes at a place inside the part. -/
def locBytes (s : State) (z : Nat) : Loc → List Byte
  | .scr a => memBytes s.scr a z
  | .dram a _ _ => dramBytes s a z
  | _ => []

theorem locVal_eq_leVal {loc : Loc} (h : loc.plain = true) (s : State) (z : Nat) : locVal s z loc = leVal (locBytes s z loc) := by
  cases loc with
  | scr | dram => rfl
  | reg | host | cxl | peer | remote => cases h

/-- A write of bytes at a place: no other byte of the memories changes. -/
structure Wrote (s t : State) (loc : Loc) (b : List Byte) : Prop where
  kept : StoresKept s t
  scr : ∀ a, memGet t.scr a = if loc.inScr b.length a then b.getD (a - loc.start) 0 else memGet s.scr a
  dram : ∀ a, dramByte t a = if loc.inDram b.length a then b.getD (a - loc.start) 0 else dramByte s a

/-- The stamps and releases that a write leaves are no bytes. -/
theorem Wrote.noted {s t : State} {loc : Loc} {b : List Byte} (h : Wrote s t loc b) (st : SMap Stamp) (rl : SMap (List Rel)) :
    Wrote s { t with stamps := st, rels := rl } loc b :=
  ⟨.trans _ _ _ h.kept ⟨⟨_, _, _, _, _, _, _, _, _, _, _, rfl⟩, fun _ => rfl, id⟩, h.scr, h.dram⟩

theorem scrWrite_wrote {s : State} (hok : s.memOk) (ctx a : Nat) (b : List Byte) (wr : Writer) :
    Wrote s (scrWrite s ctx a b wr) (.scr a) b := by
  obtain ⟨_, _, _, h⟩ := scrWrite_frame s ctx a b wr
  refine ⟨scrWrite_kept s ctx a b wr, fun j => ?_, fun j => ?_⟩
  · rw [h, memGet_memPut (hok.1)]
    simp [Loc.inScr, Loc.start]
  · rw [h]
    rfl

theorem dramWrite_wrote {s : State} (hok : s.memOk) (ctx a lat : Nat) (d : Bool) (b : List Byte) (wr : Writer) :
    Wrote s (dramWrite s ctx a lat b wr) (.dram a lat d) b := by
  obtain ⟨_, _, _, _, _, _, h⟩ := dramWrite_frame s ctx a lat b wr
  refine ⟨dramWrite_kept s ctx a lat b wr, fun j => ?_, fun j => ?_⟩
  · rw [h]
    rfl
  · rw [h]
    have hkey := undefKey_cutUndef s.undef a b.length j
    have hmem := memGet_memPut (hok.2) a b j
    by_cases hj : a ≤ j ∧ j < a + b.length
    · rw [if_pos hj] at hkey hmem
      rw [dramByte_of_defined hkey, if_pos (by simpa [Loc.inDram] using hj)]
      exact hmem
    · rw [if_neg hj] at hkey hmem
      rw [if_neg (by simpa [Loc.inDram] using hj)]
      cases hu : undefKey s.undef j with
      | none =>
        rw [dramByte_of_defined (hkey.trans hu), dramByte_of_defined hu]
        exact hmem
      | some k => rw [dramByte_of_undef (hkey.trans hu), dramByte_of_undef hu]

/-! ## One write seen from another place -/

theorem Loc.same_comm (a b : Loc) : a.same b = b.same a := by
  cases a <;> cases b <;> simp [Loc.same, eq_comm]

theorem Loc.same_iff {a b : Loc} : a.same b = true
    ↔ (∃ k, a = .scr k ∧ b = .scr k) ∨ ∃ k t d t' d', a = .dram k t d ∧ b = .dram k t' d' := by
  cases a <;> cases b <;> simp [Loc.same, eq_comm]

theorem Loc.plain_of_aligned {loc : Loc} {z : Nat} (h : loc.aligned z = true) : loc.plain = true := by
  cases loc with
  | scr | dram => rfl
  | reg | host | cxl | peer | remote => cases h

theorem Loc.same_self {loc : Loc} (h : loc.plain = true) : loc.same loc = true := by
  cases loc with
  | scr | dram => exact decide_eq_true rfl
  | reg | host | cxl | peer | remote => cases h

/-- A write's bytes read back at its place. -/
theorem Wrote.same {s t : State} {loc loc' : Loc} {b : List Byte} (h : Wrote s t loc b) (hs : loc.same loc' = true) :
    locBytes t b.length loc' = b := by
  obtain ⟨k, rfl, rfl⟩ | ⟨k, _, _, _, _, rfl, rfl⟩ := Loc.same_iff.1 hs
  · refine List.ext_getElem (by simp [locBytes, memBytes]) (fun i hi hb => ?_)
    simp [locBytes, memBytes, h.scr, Loc.inScr, Loc.start, hb]
  · refine List.ext_getElem (by simp [locBytes, dramBytes]) (fun i hi hb => ?_)
    simp [locBytes, dramBytes, h.dram, Loc.inDram, Loc.start, hb]

/-- Two places of `z` bytes, each at a multiple of `z`, hold the same bytes or none in common. -/
theorem aligned_apart {a c z i : Nat} (ha : a % z = 0) (hc : c % z = 0) (hne : a ≠ c) (hi : i < z) : ¬ (a ≤ c + i ∧ c + i < a + z) := by
  obtain ⟨p, rfl⟩ := Nat.dvd_of_mod_eq_zero ha
  obtain ⟨q, rfl⟩ := Nat.dvd_of_mod_eq_zero hc
  rintro ⟨h1, h2⟩
  have h3 : z * p < z * (q + 1) := by rw [Nat.mul_add]; omega
  have h4 : z * q < z * (p + 1) := by rw [Nat.mul_add]; omega
  have h3 := Nat.lt_of_mul_lt_mul_left h3
  have h4 := Nat.lt_of_mul_lt_mul_left h4
  exact hne (by rw [show p = q by omega])

/-- A write leaves the bytes of another place as they were. -/
theorem Wrote.apart {s t : State} {loc loc' : Loc} {b : List Byte} (h : Wrote s t loc b) (ha : loc.aligned b.length = true)
    (ha' : loc'.aligned b.length = true) (hs : loc.same loc' = false) : locBytes t b.length loc' = locBytes s b.length loc' := by
  cases loc' <;> simp only [Loc.aligned, Bool.false_eq_true, decide_eq_true_eq] at ha'
  case scr c =>
    refine List.map_congr_left (fun i hi => ?_)
    rw [h.scr, if_neg]
    cases loc <;> simp only [Loc.inScr, Bool.false_eq_true, not_false_eq_true, Bool.and_eq_true, decide_eq_true_eq]
    simp only [Loc.aligned, decide_eq_true_eq, Loc.same, decide_eq_false_iff_not] at ha hs
    exact aligned_apart ha ha' hs (List.mem_range.1 hi)
  case dram c =>
    refine List.map_congr_left (fun i hi => ?_)
    rw [h.dram, if_neg]
    cases loc <;> simp only [Loc.inDram, Bool.false_eq_true, not_false_eq_true, Bool.and_eq_true, decide_eq_true_eq]
    simp only [Loc.aligned, decide_eq_true_eq, Loc.same, decide_eq_false_iff_not] at ha hs
    exact aligned_apart ha ha' hs (List.mem_range.1 hi)

/-! ## The lanes of an instruction, one after the other (R221) -/

/-- Lanes write `z` bytes each at their places one after the other, by what each finds there: the listed pairs of lane and value found. -/
inductive LaneWrites (z : Nat) (loc : Nat → Loc) (f : Nat → Nat → Nat) : List (Nat × Nat) → State → State → Prop
  | nil (s : State) : LaneWrites z loc f [] s s
  | cons {l : Nat} {found : List (Nat × Nat)} {s t u : State} (head : Wrote s t (loc l) (leBytes z (f l (locVal s z (loc l)))))
      (tail : LaneWrites z loc f found t u) : LaneWrites z loc f ((l, locVal s z (loc l)) :: found) s u

section Lanes
variable {z : Nat} {loc : Nat → Loc} {f : Nat → Nat → Nat} {found : List (Nat × Nat)} {s u : State}

theorem LaneWrites.kept (h : LaneWrites z loc f found s u) : StoresKept s u := by
  induction h with
  | nil s => exact .refl s
  | cons head _ ih => exact .trans _ _ _ head.kept ih

theorem LaneWrites.others (h : LaneWrites z loc f found s u) : OtherBytesKept s u z (found.map Prod.fst) loc := by
  induction h with
  | nil s => exact ⟨fun _ _ => rfl, fun _ _ => rfl⟩
  | cons head _ ih =>
    refine ⟨fun a ha => ?_, fun a ha => ?_⟩
    · rw [ih.1 a (fun m hm => ha m (List.mem_cons_of_mem _ hm)), head.scr, leBytes_len, ha _ (List.mem_cons_self ..)]
      rfl
    · rw [ih.2 a (fun m hm => ha m (List.mem_cons_of_mem _ hm)), head.dram, leBytes_len, ha _ (List.mem_cons_self ..)]
      rfl

/-- A place that no lane writes keeps its bytes. -/
theorem LaneWrites.untouched (h : LaneWrites z loc f found s u) {place : Loc} (hp : place.aligned z = true)
    (hl : ∀ m ∈ found.map Prod.fst, (loc m).aligned z = true ∧ (loc m).same place = false) : locBytes u z place = locBytes s z place := by
  induction h with
  | nil s => rfl
  | cons head _ ih =>
    obtain ⟨halign, hne⟩ := hl _ (List.mem_cons_self ..)
    rw [ih (fun m hm => hl m (List.mem_cons_of_mem _ hm))]
    have := head.apart (by rw [leBytes_len]; exact halign) (by rw [leBytes_len]; exact hp) hne
    rwa [leBytes_len] at this

/-- The highest lane at a place leaves its bytes there. -/
theorem LaneWrites.last (h : LaneWrites z loc f found s u) (hasc : (found.map Prod.fst).Pairwise (· < ·))
    (halign : ∀ m ∈ found.map Prod.fst, (loc m).aligned z = true) {l v : Nat} (hl : (l, v) ∈ found)
    (hlast : ∀ m ∈ found.map Prod.fst, l < m → (loc m).same (loc l) = false) : locBytes u z (loc l) = leBytes z (f l v) := by
  induction h with
  | nil s => cases hl
  | @cons k found s t u head tail ih =>
    obtain ⟨hlow, hasc⟩ := List.pairwise_cons.1 hasc
    obtain ⟨hk, hrest⟩ := List.forall_mem_cons.1 halign
    obtain ⟨-, hlater⟩ := List.forall_mem_cons.1 hlast
    obtain heq | hl := List.mem_cons.1 hl
    · obtain ⟨rfl, rfl⟩ := Prod.mk.inj heq
      rw [tail.untouched hk (fun m hm => ⟨hrest m hm, hlater m hm (hlow m hm)⟩)]
      have := head.same (Loc.same_self (Loc.plain_of_aligned hk))
      rwa [leBytes_len] at this
    · exact ih hasc hrest hl hlater

/-- The last of the lanes below `l` at its place. -/
def earlierAt (loc : Nat → Loc) (lanes : List Nat) (l : Nat) : Option Nat :=
  (lanes.filter (fun m => m < l && (loc m).same (loc l))).getLast?

theorem earlierAt_lowest {lanes : List Nat} {l : Nat} (h : ∀ m ∈ lanes, l < m) : earlierAt loc (l :: lanes) l = none := by
  have hnil : (l :: lanes).filter (fun m => m < l && (loc m).same (loc l)) = [] := by
    refine List.filter_eq_nil_iff.2 (fun m hm => ?_)
    obtain rfl | hm := List.mem_cons.1 hm
    · simp
    · simp [Nat.not_lt.2 (Nat.le_of_lt (h m hm))]
  rw [earlierAt, hnil]
  rfl

theorem earlierAt_cons_same {lanes : List Nat} {k l : Nat} (hk : k < l) (h : (loc k).same (loc l) = true) :
    earlierAt loc (k :: lanes) l = some ((earlierAt loc lanes l).getD k) := by
  rw [earlierAt, List.filter_cons_of_pos (by simp [hk, h]), List.getLast?_cons, earlierAt]

theorem earlierAt_cons_apart {lanes : List Nat} {k l : Nat} (h : (loc k).same (loc l) = false) :
    earlierAt loc (k :: lanes) l = earlierAt loc lanes l := by
  rw [earlierAt, List.filter_cons_of_neg (by simp [h]), earlierAt]

/-- A lane finds what the last lane before it at its place wrote, and where there is none, what stood there. -/
theorem LaneWrites.finds (h : LaneWrites z loc f found s u) (hasc : (found.map Prod.fst).Pairwise (· < ·))
    (halign : ∀ m ∈ found.map Prod.fst, (loc m).aligned z = true) {old : Nat → Nat} (hold : ∀ p ∈ found, old p.1 = p.2) {l : Nat}
    (hl : l ∈ found.map Prod.fst) :
    (earlierAt loc (found.map Prod.fst) l = none → old l = locVal s z (loc l))
      ∧ ∀ m, earlierAt loc (found.map Prod.fst) l = some m → old l = f m (old m) % 2 ^ (8 * z) := by
  induction h with
  | nil s => cases hl
  | @cons k found s t u head tail ih =>
    obtain ⟨hlow, hasc⟩ := List.pairwise_cons.1 hasc
    obtain ⟨hkalign, halign⟩ := List.forall_mem_cons.1 halign
    obtain ⟨hk, hold⟩ := List.forall_mem_cons.1 hold
    rw [List.map_cons]
    obtain rfl | hl := List.mem_cons.1 hl
    · rw [earlierAt_lowest hlow]
      exact ⟨fun _ => hk, nofun⟩
    · obtain ⟨hnone, hsome⟩ := ih hasc halign hold hl
      have hplain := Loc.plain_of_aligned (halign l hl)
      cases hs : (loc k).same (loc l) with
      | true =>
        rw [earlierAt_cons_same (hlow l hl) hs]
        refine ⟨nofun, fun m hm => ?_⟩
        obtain rfl := Option.some.inj hm
        cases he : earlierAt loc (found.map Prod.fst) l with
        | some m => exact hsome m he
        | none =>
          have hwrote := head.same hs
          rw [leBytes_len] at hwrote
          rw [hnone he, locVal_eq_leVal hplain, hwrote, leVal_leBytes]
          exact congrArg (fun v => f k v % 2 ^ (8 * z)) hk.symm
      | false =>
        rw [earlierAt_cons_apart hs]
        refine ⟨fun hn => ?_, hsome⟩
        have hkept := head.apart (by rw [leBytes_len]; exact hkalign) (by rw [leBytes_len]; exact halign l hl) hs
        rw [leBytes_len] at hkept
        rw [hnone hn, locVal_eq_leVal hplain, locVal_eq_leVal hplain, hkept]

end Lanes

/-! ## Writes of one lane -/

theorem groupScr_here {s : State} {g : Group} {a : Nat} (h : awayScr s g a = none) (b : List Byte) (wr : Writer) :
    groupScr s g a b wr = scrWrite s g.ctx a b wr := by
  simp only [groupScr, h]

/-- A lane's store inside the part. -/
theorem storeLocal_wrote {s : State} {g : Group} {loc : Loc} (hok : s.memOk) (hplain : loc.plain = true)
    (hhere : ∀ a, loc = .scr a → awayScr s g a = none) (rel : Option Nat) (b : List Byte) : Wrote s (storeLocal s g rel loc b) loc b := by
  cases loc with
  | scr a =>
    simp only [storeLocal, groupScr_here (hhere a rfl)]
    split
    · obtain ⟨_, h⟩ := stampClear_frame (scrWrite s g.ctx a b (groupWriter s g)) a b.length
      rw [h]
      exact (scrWrite_wrote hok ..).noted _ _
    · obtain ⟨_, h⟩ := stampWrite_frame (scrWrite s g.ctx a b (groupWriter s g)) g a b.length
      rw [h]
      exact (scrWrite_wrote hok ..).noted _ _
  | dram a t d => exact (dramWrite_wrote hok g.ctx a t d b (groupWriter s g)).noted _ _
  | reg | host | cxl | peer | remote => cases hplain

/-- The stores of lanes inside the part, each lane's `d l` in `z` bytes. -/
theorem foldl_storeLocal_writes {z : Nat} {loc : Nat → Loc} {g : Group} (rel : Option Nat) (d : Nat → Nat) (lanes : List Nat) {s : State}
    (hok : s.memOk) (hplain : ∀ l ∈ lanes, (loc l).plain = true) (hhere : StaysHere s g lanes loc) :
    ∃ found, found.map Prod.fst = lanes ∧ LaneWrites z loc (fun l _ => d l) found s
      (lanes.foldl (fun s l => storeLocal s g rel (loc l) (leBytes z (d l))) s) := by
  induction lanes generalizing s with
  | nil => exact ⟨[], rfl, .nil s⟩
  | cons l lanes ih =>
    obtain ⟨hl, hplain⟩ := List.forall_mem_cons.1 hplain
    obtain ⟨hlhere, hhere⟩ := List.forall_mem_cons.1 hhere
    have head := storeLocal_wrote hok hl hlhere rel (leBytes z (d l))
    obtain ⟨found, hfound, tail⟩ := ih (head.kept.2.2 hok) hplain (fun m hm a ha => (head.kept.awayScr rfl rfl a).trans (hhere m hm a ha))
    exact ⟨_, by rw [List.map_cons, hfound], .cons head tail⟩

end Sys2Proof.Machine
end

section
/-! The checks of a plain access (R69, R193 to R196, R204, R228): where a lane's access lies, the first fault of the lowest lane, the lanes
that are switched off, and what the checks give when every lane passes. -/

namespace Sys2Proof.Machine
open Sys2Proof

/-! ## Where a lane's access lies (R193, R194) -/

/-- The limit and the base of a lane's segment; the base of a window is in its address. -/
def laneLimit (g : Group) (seg l : Nat) : Nat :=
  match seg with
  | 0 => 2 ^ 56 | 1 => g.segS.limit | 2 => g.segN.limit
  | 3 => (SMap.get 0 g.pL l).toNat | 4 => (SMap.get 0 g.qL l).toNat | _ => g.clim.toNat
def laneBase (g : Group) (seg l : Nat) : Nat :=
  match seg with
  | 3 => (SMap.get 0 g.pB l).toNat | 4 => (SMap.get 0 g.qB l).toNat | 5 => g.cbase.toNat | _ => 0

/-- Segments S and N are windows. -/
def inWindow (seg : Nat) : Bool := seg = 1 || seg = 2

/-- The scratch address or virtual address of an offset that is in range. -/
def laneAddr (g : Group) (seg : Nat) (o : Int) (l : Nat) : Nat :=
  if inWindow seg then segAddr (segWin g seg) o.toNat else laneBase g seg l + o.toNat

theorem inLimit_iff (o : Int) (z lim : Nat) : inLimit o z lim = true ↔ 0 ≤ o ∧ o + (z : Int) ≤ (lim : Int) := by
  rw [inLimit, Bool.and_eq_true, decide_eq_true_eq, decide_eq_true_eq]

theorem placeIn_window {g : Group} {seg : Nat} {o : Int} {z l : Nat} (hw : inWindow seg = true) (h : inLimit o z (laneLimit g seg l) = true) :
    placeIn g seg o z l = .scr (laneAddr g seg o l) := by
  rw [laneAddr, if_pos hw]
  rw [inWindow, Bool.or_eq_true, decide_eq_true_eq, decide_eq_true_eq] at hw
  obtain rfl | rfl := hw
  · exact if_pos h
  · exact if_pos h

theorem placeIn_virtual {g : Group} {seg : Nat} {o : Int} {z l : Nat} (hseg : seg ≤ 5) (hw : inWindow seg = false)
    (h : inLimit o z (laneLimit g seg l) = true) : placeIn g seg o z l = vaPlace (laneBase g seg l) o z := by
  interval_cases seg
  · have hlim := (inLimit_iff ..).1 h
    rw [vaPlace, if_pos (by simp only [laneBase, laneLimit] at *; omega)]
    exact (if_pos h).trans (congrArg Place.va (Nat.zero_add _).symm)
  · cases hw
  · cases hw
  · exact if_pos h
  · exact if_pos h
  · exact if_pos h

theorem placeIn_off {g : Group} {seg : Nat} {o : Int} {z l : Nat} (h1 : 1 ≤ seg) (h3 : seg ≤ 3)
    (h : ¬ inLimit o z (laneLimit g seg l) = true) : placeIn g seg o z l = .off o := by
  interval_cases seg
  · exact if_neg h
  · exact if_neg h
  · exact if_neg h

theorem placeIn_refused {g : Group} {seg : Nat} {o : Int} {z l : Nat} (hseg : seg = 0 ∨ 4 ≤ seg) (h5 : seg ≤ 5)
    (h : ¬ inLimit o z (laneLimit g seg l) = true) : placeIn g seg o z l = .bad (permFlt .segmentRange (off64 o)) := by
  have hseg : seg = 0 ∨ seg = 4 ∨ seg = 5 := by omega
  obtain rfl | rfl | rfl := hseg
  · exact if_neg h
  · exact if_neg h
  · exact if_neg h

/-- A lane's place, with the check of a pocket's header (R194). -/
def lanePlace (g : Group) (x : InsWord) (write : Bool) (off : Nat → Int) (z l : Nat) : Place :=
  headerCheck x write (off l) (placeIn g (modF x 2 0) (off l) z l)

/-- A lane's offset is in range of its segment, and its access is not refused there. -/
def LaneFits (g : Group) (x : InsWord) (off : Nat → Int) (z l : Nat) : Prop :=
  0 ≤ off l ∧ off l + (z : Int) ≤ (laneLimit g (modF x 2 0) l : Int)
def LanePasses (g : Group) (x : InsWord) (write : Bool) (off : Nat → Int) (z l : Nat) : Prop :=
  LaneFits g x off z l ∧ (inWindow (modF x 2 0) = true ∨ laneAddr g (modF x 2 0) (off l) l + z ≤ 2 ^ 56)
    ∧ ¬ (write = true ∧ modF x 2 0 = 3 ∧ off l < 32)

section Place
variable {g : Group} {x : InsWord} {write : Bool} {off : Nat → Int} {z l : Nat}

theorem lanePlace_off (h1 : 1 ≤ modF x 2 0) (h3 : modF x 2 0 ≤ 3) (h : ¬ LaneFits g x off z l) :
    lanePlace g x write off z l = .off (off l) := by
  rw [lanePlace, placeIn_off h1 h3 (mt (inLimit_iff ..).1 h)]
  rfl

theorem lanePlace_refused (hseg : modF x 2 0 = 0 ∨ 4 ≤ modF x 2 0) (h5 : modF x 2 0 ≤ 5) (h : ¬ LaneFits g x off z l) :
    lanePlace g x write off z l = .bad (permFlt .segmentRange (off64 (off l))) := by
  rw [lanePlace, placeIn_refused hseg h5 (mt (inLimit_iff ..).1 h)]
  rfl

theorem lanePlace_scr (hw : inWindow (modF x 2 0) = true) (h : LaneFits g x off z l) :
    lanePlace g x write off z l = .scr (laneAddr g (modF x 2 0) (off l) l) := by
  rw [lanePlace, placeIn_window hw ((inLimit_iff ..).2 h)]
  rfl

/-- A virtual place in range: at its address, or refused there. -/
theorem lanePlace_virtual (h5 : modF x 2 0 ≤ 5) (hw : inWindow (modF x 2 0) = false) (h : LaneFits g x off z l) :
    (LanePasses g x write off z l → lanePlace g x write off z l = .va (laneAddr g (modF x 2 0) (off l) l))
      ∧ (¬ LanePasses g x write off z l → ∃ p, lanePlace g x write off z l = .bad (permFlt p (laneAddr g (modF x 2 0) (off l) l))) := by
  have haddr : laneAddr g (modF x 2 0) (off l) l = laneBase g (modF x 2 0) l + (off l).toNat := if_neg (Bool.eq_false_iff.1 hw)
  rw [lanePlace, placeIn_virtual h5 hw ((inLimit_iff ..).2 h), vaPlace, haddr]
  by_cases htop : laneBase g (modF x 2 0) l + (off l).toNat + z ≤ 2 ^ 56
  · rw [if_pos htop, headerCheck]
    by_cases hhead : write = true ∧ modF x 2 0 = 3 ∧ off l < 32
    · rw [if_pos (by simpa [and_assoc] using hhead)]
      exact ⟨fun hp => absurd hhead hp.2.2, fun _ => ⟨_, rfl⟩⟩
    · rw [if_neg (by simpa [and_assoc] using hhead)]
      exact ⟨fun _ => rfl, fun hn => absurd ⟨h, .inr (haddr ▸ htop), hhead⟩ hn⟩
  · rw [if_neg htop]
    refine ⟨fun hp => ?_, fun _ => ⟨_, rfl⟩⟩
    obtain ⟨-, hwin | hle, -⟩ := hp
    · rw [hw] at hwin; cases hwin
    · exact absurd (haddr ▸ hle) htop

/-- Where a lane's access passes, its place is its address. -/
theorem lanePlace_passes (h5 : modF x 2 0 ≤ 5) (h : LanePasses g x write off z l) : lanePlace g x write off z l
    = if inWindow (modF x 2 0) then .scr (laneAddr g (modF x 2 0) (off l) l) else .va (laneAddr g (modF x 2 0) (off l) l) := by
  cases hw : inWindow (modF x 2 0) with
  | true => rw [if_pos rfl, lanePlace_scr hw h.1]
  | false => rw [if_neg Bool.false_ne_true, (lanePlace_virtual h5 hw h.1).1 h]

/-- A window refuses no access that is in range. -/
theorem lanePasses_of_window (hw : inWindow (modF x 2 0) = true) (h : LaneFits g x off z l) : LanePasses g x write off z l := by
  refine ⟨h, .inl hw, fun hhead => ?_⟩
  rw [hhead.2.1] at hw
  cases hw

end Place

/-! ## The first fault (R228) -/

/-- The fault of the lowest lane that has one. -/
theorem firstFault_lowest {α : Type} {act : List Nat} (hasc : act.Pairwise (· < ·)) {p : Nat → α} {F : α → Option (Nat × Flt)} {l : Nat}
    {f : Flt} (hl : l ∈ act) (hF : F (p l) = some (l, f)) (hfatal : fatalReason f.reason = true)
    (hlow : ∀ m ∈ act, m < l → F (p m) = none) : firstFault ((act.map p).filterMap F) = some { f with lanes := maskOf [l] } := by
  obtain ⟨lo, hi, rfl⟩ := List.append_of_mem hl
  have hlo : (lo.map p).filterMap F = [] := by
    refine List.filterMap_eq_nil_iff.2 (fun a ha => ?_)
    obtain ⟨m, hm, rfl⟩ := List.mem_map.1 ha
    exact hlow m (List.mem_append_left _ hm) ((List.pairwise_append.1 hasc).2.2 m hm l (List.mem_cons_self ..))
  rw [List.map_append, List.filterMap_append, hlo, List.nil_append, List.map_cons, List.filterMap_cons_some hF]
  have hfind : ((l, f) :: (hi.map p).filterMap F).find? (fun q => fatalReason q.2.reason) = some (l, f) := List.find?_cons_of_pos hfatal
  simp only [firstFault, hfind]

theorem orFault_fault {s : State} {g : Group} {bad : List (Nat × Flt)} {f : Flt} (h : firstFault bad = some f) (k : Prep) :
    orFault s g bad k = .ended (takeFault s g f) := by
  simp only [orFault, h]

theorem orFault_none {α : Type} {s : State} {g : Group} {F : α → Option (Nat × Flt)} {l : List α} (h : ∀ a ∈ l, F a = none) (k : Prep) :
    orFault s g (l.filterMap F) k = k := by
  rw [List.filterMap_eq_nil_iff.2 h]
  rfl

/-! ## The lists of faults of the checks -/

/-- The fault of a load in a chain whose page is not normal (R69), of a place that is refused (R194), and of one that is misaligned. -/
def oddFault (s : State) (g : Group) (p : Nat × Place) : Option (Nat × Flt) :=
  match translate s g p.2 with
  | .ok (some t) => if pteKind t.leaf.toNat = 0 then none else some (p.1, { illegal 3 with addr := placeAddr s g p.2 })
  | _ => none
def badFault (p : Nat × Place) : Option (Nat × Flt) := match p.2 with | .bad f => some (p.1, f) | _ => none
def skewFault (s : State) (g : Group) (al : Nat) (p : Nat × Place) : Option (Nat × Flt) :=
  let a := match p.2 with | .scr a => a | .va a => a | _ => 0
  if a % al = 0 then none else some (p.1, mkFlt 7 (placeAddr s g p.2))

/-- A place that switches its lane off (R195). -/
def placeOff (p : Nat × Place) : Option (Nat × Int) := match p.2 with | .off o => some (p.1, o) | _ => none
def placeOn (p : Nat × Place) : Bool := match p.2 with | .off _ => false | _ => true

theorem chainFaults_reader {s : State} {g : Group} (h : g.iss.reader = true) (ps : List (Nat × Place)) :
    chainFaults s g ps = ps.filterMap (oddFault s g) := if_pos h
theorem chainFaults_other {s : State} {g : Group} (h : ¬ g.iss.reader = true) (ps : List (Nat × Place)) : chainFaults s g ps = [] := if_neg h

/-- The places of the lanes. -/
def lanePlaces (g : Group) (x : InsWord) (write : Bool) (off : Nat → Int) (z : Nat) (act : List Nat) : List (Nat × Place) :=
  act.map (fun l => (l, lanePlace g x write off z l))

section Prepare
variable {s : State} {g : Group} {x : InsWord} {act : List Nat} {off : Nat → Int} {z al : Nat} {acc : Acc} {write : Bool}

theorem prepare_eq : prepare s g x act off z al acc write =
    let ps := lanePlaces g x write off z act
    let sg := lanesOff s g (ps.filterMap placeOff)
    let rest := ps.filter placeOn
    orFault s g (chainFaults s g rest)
      (orFault sg.1 sg.2 (rest.filterMap badFault)
        (orFault sg.1 sg.2 (rest.filterMap (skewFault s g al)) (prepLocs sg.1 sg.2 z acc write rest))) := rfl

/-- Where no lane is switched off, and no chain forbids the access. -/
theorem prepare_inRange (hin : ∀ l ∈ act, ∀ o, lanePlace g x write off z l ≠ .off o)
    (hchain : g.iss.reader = true → ∀ l ∈ act, oddFault s g (l, lanePlace g x write off z l) = none) :
    prepare s g x act off z al acc write = orFault s g ((lanePlaces g x write off z act).filterMap badFault)
      (orFault s g ((lanePlaces g x write off z act).filterMap (skewFault s g al))
        (prepLocs s g z acc write (lanePlaces g x write off z act))) := by
  have hplace (q : Nat × Place) (hq : q ∈ lanePlaces g x write off z act) : ∃ l ∈ act, q = (l, lanePlace g x write off z l) := by
    obtain ⟨l, hl, rfl⟩ := List.mem_map.1 hq
    exact ⟨l, hl, rfl⟩
  have hoff : (lanePlaces g x write off z act).filterMap placeOff = [] := by
    refine List.filterMap_eq_nil_iff.2 (fun q hq => ?_)
    obtain ⟨l, hl, rfl⟩ := hplace q hq
    have := hin l hl
    unfold placeOff
    split
    · rename_i o ho; exact absurd ho (this o)
    · rfl
  have hon : (lanePlaces g x write off z act).filter placeOn = lanePlaces g x write off z act := by
    refine List.filter_eq_self.2 (fun q hq => ?_)
    obtain ⟨l, hl, rfl⟩ := hplace q hq
    have := hin l hl
    unfold placeOn
    split
    · rename_i o ho; exact absurd ho (this o)
    · rfl
  have hchain : chainFaults s g (lanePlaces g x write off z act) = [] := by
    by_cases hr : g.iss.reader = true
    · rw [chainFaults_reader hr]
      refine List.filterMap_eq_nil_iff.2 (fun q hq => ?_)
      obtain ⟨l, hl, rfl⟩ := hplace q hq
      exact hchain hr l hl
    · exact chainFaults_other hr _
  rw [prepare_eq]
  simp only [hoff, hon, hchain]
  rfl

/-- Where every lane is switched off. -/
theorem prepare_allOff (hoff : ∀ l ∈ act, lanePlace g x write off z l = .off (off l)) : prepare s g x act off z al acc write =
    .go (cacheEnts (lanesOff s g (act.map (fun l => (l, off l)))).1 []) (lanesOff s g (act.map (fun l => (l, off l)))).2 [] := by
  have hps : lanePlaces g x write off z act = act.map (fun l => (l, .off (off l))) :=
    List.map_congr_left (fun l hl => by rw [hoff l hl])
  have hrest : (lanePlaces g x write off z act).filter placeOn = [] := by
    rw [hps]
    exact List.filter_eq_nil_iff.2 (by simp [placeOn])
  have hlist : (lanePlaces g x write off z act).filterMap placeOff = act.map (fun l => (l, off l)) := by
    rw [hps, List.filterMap_map, ← List.filterMap_eq_map]
    rfl
  have hchain : chainFaults s g [] = [] := ite_self _
  rw [prepare_eq]
  simp only [hrest, hlist, hchain]
  rfl

/-- A chain's load from a page that is not normal faults before every other check. -/
theorem prepare_odd (hasc : act.Pairwise (· < ·)) (hr : g.iss.reader = true) {l : Nat} {f : Flt} (hl : l ∈ act)
    (hF : oddFault s g (l, lanePlace g x write off z l) = some (l, f)) (hfatal : fatalReason f.reason = true)
    (hlow : ∀ m ∈ act, m < l → oddFault s g (m, lanePlace g x write off z m) = none) :
    prepare s g x act off z al acc write = .ended (takeFault s g { f with lanes := maskOf [l] }) := by
  have honly (q : Nat × Place) : (if placeOn q = true then oddFault s g q else none) = oddFault s g q := by
    obtain ⟨m, p⟩ := q
    cases p with
    | off o => rfl
    | scr | va | bad => exact if_pos rfl
  have hlist : chainFaults s g ((lanePlaces g x write off z act).filter placeOn) = (lanePlaces g x write off z act).filterMap (oddFault s g) := by
    rw [chainFaults_reader hr, List.filterMap_filter]
    simp only [honly]
  rw [prepare_eq]
  simp only [hlist]
  exact orFault_fault (firstFault_lowest hasc (p := fun l => (l, lanePlace g x write off z l)) hl hF hfatal hlow) _

end Prepare

end Sys2Proof.Machine
end

section
/-! What the checks of a plain access give (R69, R195, R204, R228): each lane's location once all have passed, the fault of a page that
refuses, the lanes switched off; and `LaneChecks` for every instruction whose checks are those of a plain access. -/

namespace Sys2Proof.Machine
open Sys2Proof

/-! ## Translations and rights (R204) -/

/-- The classes of plain accesses and of atomics, with whether they write (R204). -/
def PlainAcc (z : Nat) (write : Bool) (acc : Acc) : Prop :=
  (acc = .ld z ∧ write = false) ∨ (acc = .st z ∧ write = true) ∨ (acc = .atom ∧ write = true)

/-- A translation with its shape descriptor is the plain one but for that. -/
theorem lookup_plain {s : State} {buf ctx va : Nat} {t : TlbEnt} (h : lookup s buf ctx va = .ok t) :
    ∃ e d, plainEnt s buf ctx va = .ok e ∧ t = { e with desc := d } := by
  unfold lookup at h
  split at h
  · cases h
  · rename_i e he
    split at h
    · split at h
      · cases h
      · exact ⟨e, _, he, (Except.ok.inj h).symm⟩
    · exact ⟨e, e.desc, he, (Except.ok.inj h).symm⟩

theorem permitted_desc (s : State) (t : TlbEnt) (d : List Byte) (va : Nat) (acc : Acc) :
    permitted s { t with desc := d } va acc = permitted s t va acc := rfl

theorem accessOk_perm (e : Nat) (acc : Acc) (va : Nat) : accessOk e acc va = none ∨ ∃ p, accessOk e acc va = some (permFlt p va) := by
  unfold accessOk
  simp only
  split_ifs
  · exact .inr ⟨_, rfl⟩
  · exact .inr ⟨_, rfl⟩
  · exact .inr ⟨_, rfl⟩
  · exact .inl rfl

/-- What a page grants: a write its W bit, an atomic a normal page, a wide access a normal or shaped one. -/
theorem accessOk_grants {z : Nat} {write : Bool} {acc : Acc} (hacc : PlainAcc z write acc) {e va : Nat} (h : accessOk e acc va = none) :
    (write = true → bit e 5 = true) ∧ (acc = .atom → pteKind e = 0) ∧ (acc ≠ .atom → 8 < z → pteKind e = 0 ∨ pteKind e = 4) := by
  unfold accessOk at h
  simp only at h
  split_ifs at h with hkind hw
  obtain ⟨rfl, rfl⟩ | ⟨rfl, rfl⟩ | ⟨rfl, rfl⟩ := hacc
  · simp only [Bool.not_eq_true, Bool.not_eq_false', Bool.or_eq_true, decide_eq_true_eq] at hkind
    exact ⟨nofun, nofun, fun _ hz => hkind.resolve_right (by omega)⟩
  · simp only [Bool.not_eq_true, Bool.not_eq_false', Bool.or_eq_true, decide_eq_true_eq] at hkind
    exact ⟨fun _ => by simpa using hw, nofun, fun _ hz => hkind.resolve_right (by omega)⟩
  · exact ⟨fun _ => by simpa using hw, fun _ => by simpa using hkind, fun h => absurd rfl h⟩

/-- The rights of a page refuse a write without W, an atomic on a page that is not normal, and a wide access on one that is neither normal
nor shaped. -/
theorem permitted_refused {z : Nat} {write : Bool} {acc : Acc} (hacc : PlainAcc z write acc) (s : State) {t : TlbEnt} (va : Nat)
    (h : (write = true ∧ bit t.leaf.toNat 5 = false) ∨ (acc = .atom ∧ pteKind t.leaf.toNat ≠ 0)
      ∨ (acc ≠ .atom ∧ 8 < z ∧ pteKind t.leaf.toNat ≠ 0 ∧ pteKind t.leaf.toNat ≠ 4)) :
    ∃ p, permitted s t va acc = .error (permFlt p va) := by
  have hrefused : accessOk t.leaf.toNat acc va ≠ none := by
    intro hn
    obtain ⟨hw, hatom, hwide⟩ := accessOk_grants hacc hn
    obtain ⟨h1, h2⟩ | ⟨h1, h2⟩ | ⟨h1, hz, h0, h4⟩ := h
    · rw [hw h1] at h2; cases h2
    · exact h2 (hatom h1)
    · exact (hwide h1 hz).elim h0 h4
  obtain hn | ⟨p, hp⟩ := accessOk_perm t.leaf.toNat acc va
  · exact absurd hn hrefused
  · exact ⟨p, by simp only [permitted, hp]⟩

/-- A shaped page that is permitted leads to device memory. -/
theorem permitted_shaped {s : State} {t : TlbEnt} {va : Nat} {acc : Acc} {loc : Loc} (h : permitted s t va acc = .ok loc)
    (hk : pteKind t.leaf.toNat = 4) : ∃ pa lat d, loc = .dram pa lat d := by
  unfold permitted at h
  split at h
  · cases h
  · simp only [locOf, hk] at h
    split at h
    · exact ⟨_, _, _, (Except.ok.inj h).symm⟩
    · cases h

/-- The location that the checks find for a place, with its translation. -/
def laneLoc (s : State) (g : Group) (acc : Acc) (p : Place) : Except Flt (Option TlbEnt × Loc) :=
  (translate s g p).bind (fun t => (locate s acc t p).map (fun loc => (t, loc)))

theorem laneLoc_scr (s : State) (g : Group) (acc : Acc) (a : Nat) : laneLoc s g acc (.scr a) = .ok (none, .scr a) := rfl

theorem laneLoc_va {s : State} {g : Group} {a : Nat} {e : TlbEnt} (h : plainEnt s (gBuf g) g.ctx a = .ok e) (acc : Acc) :
    laneLoc s g acc (.va a) = (permitted s e a acc).map (fun loc => (some e, loc)) := by
  simp only [laneLoc, translate, h]
  rfl

/-- A resolved access: its plain translation leads to its location, and no plain access faults at a shape. -/
theorem laneLoc_resolve {s : State} {g : Group} {a z : Nat} {acc : Acc} {write : Bool} {t : TlbEnt} {loc : Loc}
    (hacc : PlainAcc z write acc) (h : resolve s (gBuf g) g.ctx a acc = .ok (t, loc)) :
    ∃ e, plainEnt s (gBuf g) g.ctx a = .ok e ∧ e.leaf = t.leaf ∧ laneLoc s g acc (.va a) = .ok (some e, loc)
      ∧ (pteKind t.leaf.toNat = 4 → ∀ l, shapeFaults s (gBuf g) g.ctx acc ⟨l, a, loc⟩ = []) := by
  unfold resolve at h
  cases hl : lookup s (gBuf g) g.ctx a with
  | error f => rw [hl] at h; cases h
  | ok t' =>
    rw [hl] at h
    simp only [Except.bind] at h
    cases hp : permitted s t' a acc with
    | error f => rw [hp] at h; cases h
    | ok loc' =>
      rw [hp] at h
      obtain ⟨rfl, rfl⟩ := Prod.mk.inj (Except.ok.inj h)
      obtain ⟨e, d, he, rfl⟩ := lookup_plain hl
      rw [permitted_desc] at hp
      refine ⟨e, he, rfl, by rw [laneLoc_va he, hp]; rfl, fun hk l => ?_⟩
      obtain ⟨pa, lat, d', rfl⟩ := permitted_shaped hp hk
      simp only [shapeFaults, shapedAcc, hl]
      obtain ⟨rfl, -⟩ | ⟨rfl, -⟩ | ⟨rfl, -⟩ := hacc <;> rfl

/-! ## Locations of all lanes (R228, steps 3 and 4) -/

def locFault (s : State) (g : Group) (acc : Acc) (p : Nat × Place) : Option (Nat × Flt) :=
  match laneLoc s g acc p.2 with | .error f => some (p.1, f) | .ok _ => none

theorem filterMap_some_eq_map {α β : Type} {F : α → Option β} {G : α → β} {l : List α} (h : ∀ a ∈ l, F a = some (G a)) :
    l.filterMap F = l.map G := by
  rw [← List.filterMap_eq_map]
  exact List.filterMap_congr h

section PrepLocs
variable {s : State} {g : Group} {z : Nat} {acc : Acc} {write : Bool} {ps : List (Nat × Place)}

theorem prepLocs_eq : prepLocs s g z acc write ps =
    let rs := ps.map (fun p => (p, laneLoc s g acc p.2))
    let ok := rs.filterMap (fun r => match r.2 with
      | .ok (t, loc) => some (t, LaneAcc.mk r.1.1 (placeAddr s g r.1.2) loc)
      | .error _ => none)
    let sh := (ok.filter (fun r => shaped r.1)).map (fun r => r.2)
    let s1 := cacheEnts s ((ok.filterMap (fun r => if shaped r.1 then none else r.1)) ++ sh.flatMap (shapeEnts s (gBuf g) g.ctx acc))
    let ls := ok.map (fun r => r.2)
    orFault s g (ps.filterMap (locFault s g acc))
      (orFault s g (sh.flatMap (fun r => (shapeFaults s (gBuf g) g.ctx acc r).map (fun f => (r.l, f))))
        (orFault s1 g (ls.filterMap (fun r => if integrityBad s write z r.loc then some (r.l, mkFlt 5 r.a) else none))
          (.go s1 g ls))) := by
  unfold prepLocs
  simp only [List.map_map, List.filterMap_map]
  rfl

/-- Each lane's location, where all are found, no shape faults and every line that is read verifies. -/
theorem prepLocs_go {act : List Nat} {place : Nat → Place} {ent : Nat → Option TlbEnt} {loc : Nat → Loc}
    (hloc : ∀ l ∈ act, laneLoc s g acc (place l) = .ok (ent l, loc l))
    (hshape : ∀ l ∈ act, shaped (ent l) = true → shapeFaults s (gBuf g) g.ctx acc ⟨l, placeAddr s g (place l), loc l⟩ = [])
    (hgood : ∀ l ∈ act, integrityBad s write z (loc l) = false) :
    ∃ u, ReadsFrame s u ∧ prepLocs s g z acc write (act.map (fun l => (l, place l)))
      = .go u g (act.map (fun l => ⟨l, placeAddr s g (place l), loc l⟩)) := by
  have hok : (((act.map (fun l => (l, place l))).map (fun p => (p, laneLoc s g acc p.2))).filterMap (fun r => match r.2 with
      | .ok (t, loc) => some (t, LaneAcc.mk r.1.1 (placeAddr s g r.1.2) loc)
      | .error _ => none)) = act.map (fun l => (ent l, LaneAcc.mk l (placeAddr s g (place l)) (loc l))) := by
    rw [List.map_map, List.filterMap_map]
    exact filterMap_some_eq_map (fun l hl => by simp only [Function.comp, hloc l hl])
  have hmap : (act.map (fun l => (ent l, LaneAcc.mk l (placeAddr s g (place l)) (loc l)))).map (fun r => r.2)
      = act.map (fun l => LaneAcc.mk l (placeAddr s g (place l)) (loc l)) := List.map_map ..
  have hsh : (((act.map (fun l => (ent l, LaneAcc.mk l (placeAddr s g (place l)) (loc l)))).filter (fun r => shaped r.1)).map
      (fun r => r.2)).flatMap (fun r => (shapeFaults s (gBuf g) g.ctx acc r).map (fun f => (r.l, f))) = [] := by
    refine List.flatMap_eq_nil_iff.2 (fun r hr => ?_)
    obtain ⟨q, hq, rfl⟩ := List.mem_map.1 hr
    obtain ⟨hq, hs⟩ := List.mem_filter.1 hq
    obtain ⟨l, hl, rfl⟩ := List.mem_map.1 hq
    rw [hshape l hl hs]
    rfl
  have hbad : ((act.map (fun l => LaneAcc.mk l (placeAddr s g (place l)) (loc l))).filterMap
      (fun r => if integrityBad s write z r.loc then some (r.l, mkFlt 5 r.a) else none)) = [] := by
    refine List.filterMap_eq_nil_iff.2 (fun r hr => ?_)
    obtain ⟨l, hl, rfl⟩ := List.mem_map.1 hr
    exact if_neg (Bool.eq_false_iff.1 (hgood l hl))
  rw [prepLocs_eq, orFault_none (fun p hp => ?_)]
  · simp only [hok, hmap, hsh, hbad]
    exact ⟨_, cacheEnts_reads s _, rfl⟩
  · obtain ⟨l, hl, rfl⟩ := List.mem_map.1 hp
    simp only [locFault, hloc l hl]

end PrepLocs

/-! ## Accesses that pass -/

/-- A lane's access of `z` bytes passes the checks of R228 and is performed at `loc`, inside the part or outside. -/
def LaneChecked (s : State) (g : Group) (x : InsWord) (off : Nat → Int) (z : Nat) (acc : Acc) (write : Bool) (l : Nat) (loc : Loc) : Prop :=
  ((∃ a, lanePlace g x write off z l = .scr a ∧ a % z = 0 ∧ loc = .scr a)
    ∨ ∃ a t, lanePlace g x write off z l = .va a ∧ a % z = 0 ∧ resolve s (gBuf g) g.ctx a acc = .ok (t, loc)
        ∧ (g.iss.reader = true → pteKind t.leaf.toNat = 0))
  ∧ integrityBad s write z loc = false

section Checked
variable {s : State} {g : Group} {x : InsWord} {act : List Nat} {off : Nat → Int} {z : Nat} {acc : Acc} {write : Bool}

theorem LaneReady.checked {l : Nat} {loc : Loc} (h : LaneReady s g x off z acc write l loc) : LaneChecked s g x off z acc write l loc := by
  obtain ⟨hplace, -, hgood⟩ := h
  refine ⟨?_, hgood⟩
  unfold lanePlace
  split at hplace
  · rename_i a ha; exact .inl ⟨a, ha, hplace⟩
  · rename_i a ha
    obtain ⟨halign, t, ht⟩ := hplace
    exact .inr ⟨a, t, ha, halign, ht⟩
  · exact hplace.elim

theorem LaneOut.checked {l a : Nat} {loc : Loc} {e : Ext} (h : LaneOut s g x off z acc write l a loc e) :
    LaneChecked s g x off z acc write l loc := by
  obtain ⟨hplace, halign, hext, t, ht⟩ := h
  refine ⟨.inr ⟨a, t, hplace, halign, ht⟩, ?_⟩
  cases loc with
  | scr | dram | reg => cases hext
  | host | cxl | peer | remote => rfl

/-- The address that a fault of a lane's access names. -/
def laneNamed (s : State) (g : Group) (x : InsWord) (write : Bool) (off : Nat → Int) (z l : Nat) : Nat :=
  placeAddr s g (lanePlace g x write off z l)

/-- Where every lane's access passes, the checks leave its location, and translations cached. -/
theorem prepare_checked (hacc : PlainAcc z write acc) {loc : Nat → Loc} (h : ∀ l ∈ act, LaneChecked s g x off z acc write l (loc l)) :
    ∃ u, ReadsFrame s u ∧ prepare s g x act off z z acc write
      = .go u g (act.map (fun l => ⟨l, laneNamed s g x write off z l, loc l⟩)) := by
  have hent (l : Nat) (hl : l ∈ act) : ∃ ent, laneLoc s g acc (lanePlace g x write off z l) = .ok (ent, loc l)
      ∧ (shaped ent = true → shapeFaults s (gBuf g) g.ctx acc ⟨l, laneNamed s g x write off z l, loc l⟩ = [])
      ∧ (g.iss.reader = true → oddFault s g (l, lanePlace g x write off z l) = none) := by
    obtain ⟨⟨a, ha, -, hloc⟩ | ⟨a, t, ha, -, ht, hr⟩, -⟩ := h l hl
    · exact ⟨none, by rw [ha, hloc, laneLoc_scr], nofun, fun _ => by rw [ha]; rfl⟩
    · obtain ⟨e, he, hleaf, hloc, hshape⟩ := laneLoc_resolve hacc ht
      refine ⟨some e, by rw [ha, hloc], fun hs => ?_, fun hread => ?_⟩
      · rw [laneNamed, ha]
        exact hshape (by rw [← hleaf]; exact of_decide_eq_true hs) l
      · simp only [oddFault, ha, translate, he, Except.map, hleaf, hr hread, if_true]
  choose! ent hloc hshape hodd using hent
  obtain ⟨u, hu, hgo⟩ := prepLocs_go (write := write) (z := z) hloc hshape (fun l hl => (h l hl).2)
  refine ⟨u, hu, ?_⟩
  rw [prepare_inRange (fun l hl o ho => ?_) (fun hr l hl => hodd l hl hr), orFault_none (fun p hp => ?_), orFault_none (fun p hp => ?_)]
  · exact hgo
  · obtain ⟨l, hl, rfl⟩ := List.mem_map.1 hp
    obtain ⟨⟨a, ha, halign, -⟩ | ⟨a, t, ha, halign, -⟩, -⟩ := h l hl
    · simp only [skewFault, ha, halign, if_true]
    · simp only [skewFault, ha, halign, if_true]
  · obtain ⟨l, hl, rfl⟩ := List.mem_map.1 hp
    obtain ⟨⟨a, ha, -⟩ | ⟨a, t, ha, -⟩, -⟩ := h l hl
    · simp only [badFault, ha]
    · simp only [badFault, ha]
  · obtain ⟨⟨a, ha, -⟩ | ⟨a, t, ha, -⟩, -⟩ := h l hl
    · rw [ho] at ha; cases ha
    · rw [ho] at ha; cases ha

end Checked

end Sys2Proof.Machine
end

section
/-! `LaneChecks` (R69, R194 to R196, R204, R228, R387) for every instruction whose checks are those of a plain access. -/

namespace Sys2Proof.Machine
open Sys2Proof

/-! ## Lanes switched off (R195, R368) -/

/-- The memories are as before. -/
def SameBytes (s t : State) : Prop := t.mem = s.mem ∧ t.scr = s.scr

theorem SameBytes.refl (s : State) : SameBytes s s := ⟨rfl, rfl⟩
theorem SameBytes.trans (a b c : State) (h : SameBytes a b) (k : SameBytes b c) : SameBytes a c := ⟨k.1.trans h.1, k.2.trans h.2⟩
theorem ReadsFrame.sameBytes {s t : State} (h : ReadsFrame s t) : SameBytes s t := by
  obtain ⟨⟨_, _, _, _, _, rfl⟩, -⟩ := h
  exact ⟨rfl, rfl⟩
theorem enqueueOnce_sameBytes (s : State) (i : Instr) (a : Arg) : SameBytes s (enqueueOnce s i a) := by
  obtain ⟨_, h⟩ := enqueueOnce_frame s i a
  rw [h]
  exact ⟨rfl, rfl⟩

theorem rowAsk_sameBytes (s : State) (buf ctx va : Nat) (c : RowCmd) : SameBytes s (rowAsk s buf ctx va c) := by
  unfold rowAsk
  split
  · exact .refl s
  · split
    · split
      · exact .refl s
      · exact .trans _ _ _ (cacheEnts_reads ..).sameBytes (rowAct_rows ..).reads.sameBytes
    · exact .refl s

theorem settleStream_sameBytes (s : State) (lh : W32) : SameBytes s (settleStream s lh) := by
  unfold settleStream
  split
  · exact .refl s
  · refine .trans _ _ _ ?_ (enqueueOnce_sameBytes ..)
    refine .trans _ _ _ ?_ (foldl_rel SameBytes .refl .trans _ (fun s w => enqueueOnce_sameBytes ..) _ _)
    exact .trans _ (updStream s lh _) _ ⟨rfl, rfl⟩ (foldl_rel SameBytes .refl .trans _ (fun s w =>
      foldl_rel SameBytes .refl .trans _ (fun s r => rowAsk_sameBytes ..) _ _) _ _)

theorem pawnsEnd_sameBytes (s : State) (g : Group) (lanes : List Nat) (die : Bool) (vc : SMap Nat) :
    SameBytes s (pawnsEnd s g lanes die vc) := by
  refine foldl_rel SameBytes .refl .trans _ (fun s l => ?_) _ _
  split
  · unfold pawnEnd
    split
    · exact .refl s
    · exact .trans _ (updStream s g.lh _) _ ⟨rfl, rfl⟩ (settleStream_sameBytes ..)
  · exact .refl s

theorem countLanesOff_sameBytes (s : State) (g : Group) (n off : Nat) : SameBytes s (countLanesOff s g n off) := by
  unfold countLanesOff
  split <;> exact ⟨rfl, rfl⟩

/-- The lanes switched off leave `live` and `EM` and are marked; the memories stay. -/
theorem lanesOff_spec (s : State) (g : Group) (act : List Nat) (off : Nat → Int) :
    ∃ u h, lanesOff s g (act.map (fun l => (l, off l))) = (u, h) ∧ SameBytes s u
      ∧ h = { g with live := h.live, em := h.em, lfault := h.lfault }
      ∧ ∀ l, l < 64 → h.live.getLsbD l = (g.live.getLsbD l && decide (l ∉ act)) ∧ h.em.getLsbD l = (g.em.getLsbD l && decide (l ∉ act))
          ∧ h.lfault.getLsbD l = (g.lfault.getLsbD l || decide (l ∈ act)) := by
  cases act with
  | nil => exact ⟨s, g, rfl, .refl s, rfl, fun l _ => by simp⟩
  | cons k act =>
    refine ⟨_, _, rfl, .trans _ _ _ (countLanesOff_sameBytes ..) (pawnsEnd_sameBytes ..), rfl, fun l hl => ?_⟩
    have hmask : ((k :: act).map (fun l => (l, off l))).map (fun p => p.1) = k :: act := by simp [Function.comp_def]
    simp only [hmask, dropLanes, BitVec.getLsbD_and, BitVec.getLsbD_or, BitVec.getLsbD_not, getLsbD_maskOf _ hl, hl, decide_true,
      Bool.true_and, decide_not, and_self]

/-! ## Faults of the checks -/

section Faults
variable {s : State} {g : Group} {x : InsWord} {act : List Nat} {off : Nat → Int} {z : Nat} {acc : Acc} {write : Bool}

/-- A page under a lane's access; none where the access is in a window. -/
def LanePage (s : State) (g : Group) (x : InsWord) (off : Nat → Int) (l : Nat) (e : TlbEnt) : Prop :=
  inWindow (modF x 2 0) = false ∧ plainEnt s (gBuf g) g.ctx (laneAddr g (modF x 2 0) (off l) l) = .ok e

/-- A lane whose page a chain's load may not read (R69). -/
def LaneOdd (s : State) (g : Group) (x : InsWord) (write : Bool) (off : Nat → Int) (z l : Nat) : Prop :=
  LanePasses g x write off z l ∧ ∃ e, LanePage s g x off l e ∧ pteKind e.leaf.toNat ≠ 0

theorem oddFault_place (p : Nat × Place) (h : ∀ a, p.2 ≠ .va a) : oddFault s g p = none := by
  obtain ⟨l, p⟩ := p
  cases p with
  | off | scr | bad => rfl
  | va a => exact absurd rfl (h a)

theorem oddFault_of_odd (h5 : modF x 2 0 ≤ 5) {l : Nat} (h : LaneOdd s g x write off z l) :
    oddFault s g (l, lanePlace g x write off z l) = some (l, ⟨8, 3, laneAddr g (modF x 2 0) (off l) l, 0, 0⟩) := by
  obtain ⟨hp, e, ⟨hw, he⟩, hk⟩ := h
  have hplace := lanePlace_passes h5 hp
  rw [hw, if_neg Bool.false_ne_true] at hplace
  simp only [oddFault, hplace, translate, he, Except.map, if_neg hk]
  rfl

theorem oddFault_of_not_odd (h5 : modF x 2 0 ≤ 5) {l : Nat} (h : ¬ LaneOdd s g x write off z l) :
    oddFault s g (l, lanePlace g x write off z l) = none := by
  by_cases hp : LanePasses g x write off z l
  · have hplace := lanePlace_passes h5 hp
    cases hw : inWindow (modF x 2 0) with
    | true =>
      rw [hw, if_pos rfl] at hplace
      exact oddFault_place _ (fun a ha => by rw [hplace] at ha; cases ha)
    | false =>
      rw [hw, if_neg Bool.false_ne_true] at hplace
      simp only [oddFault, hplace, translate]
      cases he : plainEnt s (gBuf g) g.ctx (laneAddr g (modF x 2 0) (off l) l) with
      | error f => rfl
      | ok e =>
        have hk : pteKind e.leaf.toNat = 0 := by
          by_contra hk
          exact h ⟨hp, e, ⟨hw, he⟩, hk⟩
        simp only [Except.map, hk, if_true]
  · refine oddFault_place _ (fun a ha => ?_)
    by_cases hf : LaneFits g x off z l
    · cases hw : inWindow (modF x 2 0) with
      | true => exact hp (lanePasses_of_window hw hf)
      | false =>
        obtain ⟨p, hbad⟩ := (lanePlace_virtual h5 hw hf).2 hp
        rw [hbad] at ha
        cases ha
    · by_cases hseg : modF x 2 0 = 0 ∨ 4 ≤ modF x 2 0
      · rw [lanePlace_refused hseg h5 hf] at ha
        cases ha
      · rw [lanePlace_off (by omega) (by omega) hf] at ha
        cases ha

/-- A chain's load from a page that is not normal is the fault of the lowest such lane. -/
theorem prepare_laneOdd (hasc : act.Pairwise (· < ·)) (h5 : modF x 2 0 ≤ 5) (hr : g.iss.reader = true) {l : Nat} (hl : l ∈ act)
    (hodd : LaneOdd s g x write off z l) (hlow : ∀ m ∈ act, m < l → ¬ LaneOdd s g x write off z m) : prepare s g x act off z z acc write
      = .ended (takeFault s g ⟨8, 3, laneAddr g (modF x 2 0) (off l) l, maskOf [l], 0⟩) := by
  exact prepare_odd (f := ⟨8, 3, laneAddr g (modF x 2 0) (off l) l, 0, 0⟩) hasc hr hl (oddFault_of_odd h5 hodd) rfl
    (fun m hm hml => oddFault_of_not_odd h5 (hlow m hm hml))

/-- The address that the refusal of a place names: the lane's, or its offset where that is out of range (log entry 19). -/
def refusedAt (g : Group) (x : InsWord) (off : Nat → Int) (z l : Nat) : Nat :=
  if 0 ≤ off l ∧ off l + (z : Int) ≤ (laneLimit g (modF x 2 0) l : Int) then laneAddr g (modF x 2 0) (off l) l else off64 (off l)

theorem refusedAt_fits {l : Nat} (h : LaneFits g x off z l) : refusedAt g x off z l = laneAddr g (modF x 2 0) (off l) l := if_pos h
theorem refusedAt_out {l : Nat} (h : ¬ LaneFits g x off z l) : refusedAt g x off z l = off64 (off l) := if_neg h

/-- Where a lane's offset is in range, or its segment refuses those that are not, its place is refused or is its address. -/
theorem lanePlace_kept (h5 : modF x 2 0 ≤ 5) {l : Nat} (h : modF x 2 0 = 0 ∨ 4 ≤ modF x 2 0 ∨ LaneFits g x off z l) :
    (LanePasses g x write off z l ∧ badFault (l, lanePlace g x write off z l) = none ∧ ∀ o, lanePlace g x write off z l ≠ .off o)
      ∨ ¬ LanePasses g x write off z l ∧ ∃ p, lanePlace g x write off z l = .bad (permFlt p (refusedAt g x off z l)) := by
  by_cases hf : LaneFits g x off z l
  · rw [refusedAt_fits hf]
    by_cases hp : LanePasses g x write off z l
    · refine .inl ⟨hp, ?_⟩
      rw [lanePlace_passes h5 hp]
      cases inWindow (modF x 2 0)
      · exact ⟨rfl, nofun⟩
      · exact ⟨rfl, nofun⟩
    · refine .inr ⟨hp, ?_⟩
      cases hw : inWindow (modF x 2 0) with
      | true => exact absurd (lanePasses_of_window hw hf) hp
      | false => exact (lanePlace_virtual h5 hw hf).2 hp
  · rw [refusedAt_out hf]
    refine .inr ⟨fun hp => hf hp.1, _, lanePlace_refused ?_ h5 hf⟩
    obtain h | h | h := h
    · exact .inl h
    · exact .inr h
    · exact absurd h hf

theorem orFault_lowest (hasc : act.Pairwise (· < ·)) {F : Nat × Place → Option (Nat × Flt)} {l : Nat} {f : Flt} (hl : l ∈ act)
    (hF : F (l, lanePlace g x write off z l) = some (l, f)) (hfatal : fatalReason f.reason = true)
    (hlow : ∀ m ∈ act, m < l → F (m, lanePlace g x write off z m) = none) (k : Prep) :
    orFault s g ((lanePlaces g x write off z act).filterMap F) k = .ended (takeFault s g { f with lanes := maskOf [l] }) :=
  orFault_fault (firstFault_lowest hasc (p := fun l => (l, lanePlace g x write off z l)) hl hF hfatal hlow) k

/-- A place that is refused is the fault of the lowest such lane. -/
theorem prepare_refused (hasc : act.Pairwise (· < ·)) (h5 : modF x 2 0 ≤ 5)
    (hchain : g.iss.reader = true → ∀ l ∈ act, ¬ LaneOdd s g x write off z l)
    (hkept : ∀ l ∈ act, modF x 2 0 = 0 ∨ 4 ≤ modF x 2 0 ∨ LaneFits g x off z l) {l : Nat} (hl : l ∈ act)
    (hp : ¬ LanePasses g x write off z l) (hlow : ∀ m ∈ act, m < l → LanePasses g x write off z m) :
    ∃ d, prepare s g x act off z z acc write = .ended (takeFault s g ⟨2, d, refusedAt g x off z l, maskOf [l], 0⟩) := by
  obtain ⟨h, -⟩ | ⟨-, p, hplace⟩ := lanePlace_kept (write := write) h5 (hkept l hl)
  · exact absurd h hp
  · refine ⟨(permFlt p 0).detail, ?_⟩
    rw [prepare_inRange (fun m hm o ho => ?_) (fun hr m hm => oddFault_of_not_odd h5 (hchain hr m hm))]
    · refine orFault_lowest hasc (f := permFlt p (refusedAt g x off z l)) hl ?_ rfl (fun m hm hml => ?_) _
      · simp only [badFault, hplace]
      · obtain ⟨-, h, -⟩ | ⟨h, -⟩ := lanePlace_kept (write := write) h5 (hkept m hm)
        · exact h
        · exact absurd (hlow m hm hml) h
    · obtain ⟨-, -, h⟩ | ⟨-, p, h⟩ := lanePlace_kept (write := write) h5 (hkept m hm)
      · exact h o ho
      · rw [ho] at h; cases h

/-- Where every lane passes, the places are the addresses, and alignment and pages are left to check. -/
theorem prepare_passes (h5 : modF x 2 0 ≤ 5) (hchain : g.iss.reader = true → ∀ l ∈ act, ¬ LaneOdd s g x write off z l)
    (hp : ∀ l ∈ act, LanePasses g x write off z l) : prepare s g x act off z z acc write =
      orFault s g ((lanePlaces g x write off z act).filterMap (skewFault s g z)) (prepLocs s g z acc write (lanePlaces g x write off z act)) := by
  have hkept (l : Nat) (hl : l ∈ act) : badFault (l, lanePlace g x write off z l) = none ∧ ∀ o, lanePlace g x write off z l ≠ .off o := by
    obtain ⟨-, h⟩ | ⟨h, -⟩ := lanePlace_kept (write := write) h5 (.inr (.inr (hp l hl).1))
    · exact h
    · exact absurd (hp l hl) h
  rw [prepare_inRange (fun l hl => (hkept l hl).2) (fun hr l hl => oddFault_of_not_odd h5 (hchain hr l hl)), orFault_none (fun q hq => ?_)]
  obtain ⟨l, hl, rfl⟩ := List.mem_map.1 hq
  exact (hkept l hl).1

theorem skewFault_passes (h5 : modF x 2 0 ≤ 5) {l : Nat} (hp : LanePasses g x write off z l) : skewFault s g z (l, lanePlace g x write off z l)
    = if laneAddr g (modF x 2 0) (off l) l % z = 0 then none else some (l, mkFlt 7 (laneNamed s g x write off z l)) := by
  rw [laneNamed, lanePlace_passes h5 hp]
  cases inWindow (modF x 2 0)
  · rfl
  · rfl

/-- A misaligned access is the fault of the lowest such lane. -/
theorem prepare_skew (hasc : act.Pairwise (· < ·)) (h5 : modF x 2 0 ≤ 5)
    (hchain : g.iss.reader = true → ∀ l ∈ act, ¬ LaneOdd s g x write off z l) (hp : ∀ l ∈ act, LanePasses g x write off z l) {l : Nat}
    (hl : l ∈ act) (hskew : laneAddr g (modF x 2 0) (off l) l % z ≠ 0)
    (hlow : ∀ m ∈ act, m < l → laneAddr g (modF x 2 0) (off m) m % z = 0) : prepare s g x act off z z acc write
      = .ended (takeFault s g ⟨7, 0, laneNamed s g x write off z l, maskOf [l], 0⟩) := by
  rw [prepare_passes h5 hchain hp]
  refine orFault_lowest hasc (f := mkFlt 7 (laneNamed s g x write off z l)) hl ?_ rfl (fun m hm hml => ?_) _
  · rw [skewFault_passes h5 (hp l hl), if_neg hskew]
  · rw [skewFault_passes h5 (hp m hm), if_pos (hlow m hm hml)]

/-- A page that refuses is the fault of the lowest such lane. -/
theorem prepLocs_refused (hasc : act.Pairwise (· < ·)) (h5 : modF x 2 0 ≤ 5) (hacc : PlainAcc z write acc)
    (hp : ∀ l ∈ act, LanePasses g x write off z l) {l : Nat} {e : TlbEnt} (hl : l ∈ act) (he : LanePage s g x off l e)
    (hrefuses : (write = true ∧ bit e.leaf.toNat 5 = false) ∨ (acc = .atom ∧ pteKind e.leaf.toNat ≠ 0)
      ∨ (acc ≠ .atom ∧ 8 < z ∧ pteKind e.leaf.toNat ≠ 0 ∧ pteKind e.leaf.toNat ≠ 4))
    (hlow : ∀ m ∈ act, m < l → ∃ t loc, LanePage s g x off m t ∧ permitted s t (laneAddr g (modF x 2 0) (off m) m) acc = .ok loc) :
    ∃ d, prepLocs s g z acc write (lanePlaces g x write off z act)
      = .ended (takeFault s g ⟨2, d, laneAddr g (modF x 2 0) (off l) l, maskOf [l], 0⟩) := by
  have hplace (m : Nat) (hm : m ∈ act) {t : TlbEnt} (ht : LanePage s g x off m t) : laneLoc s g acc (lanePlace g x write off z m)
      = (permitted s t (laneAddr g (modF x 2 0) (off m) m) acc).map (fun loc => (some t, loc)) := by
    rw [lanePlace_passes h5 (hp m hm), ht.1, if_neg Bool.false_ne_true, laneLoc_va ht.2]
  obtain ⟨p, hperm⟩ := permitted_refused hacc s (laneAddr g (modF x 2 0) (off l) l) hrefuses
  refine ⟨(permFlt p 0).detail, ?_⟩
  rw [prepLocs_eq]
  refine orFault_lowest hasc (f := permFlt p (laneAddr g (modF x 2 0) (off l) l)) hl ?_ rfl (fun m hm hml => ?_) _
  · simp only [locFault, hplace l hl he, hperm, Except.map]
  · obtain ⟨t, loc, ht, hok⟩ := hlow m hm hml
    simp only [locFault, hplace m hm ht, hok, Except.map]

end Faults

/-! ## The statement for an instruction -/

/-- The checks of an instruction that begins with those of a plain access: where they end it, and where they leave it no lane. -/
theorem laneChecks_of_prepare {i : Instr} {s : State} {g : Group} {x : InsWord} {act : List Nat} {off : Nat → Int} {z : Nat} {acc : Acc}
    {write : Bool} (hasc : act.Pairwise (· < ·)) (hacc : PlainAcc z write acc)
    (hended : ∀ t, prepare s g x act off z z acc write = .ended t → exec i s = .next t)
    (hnone : ∀ u h, act ≠ [] → prepare s g x act off z z acc write = .go u h [] → ∃ vc, exec i s = .next (finish u { h with vc := vc })) :
    LaneChecks i s g x act off z acc write := by
  unfold LaneChecks
  intro seg window limit base fits addr named passes page first faults odd hact h5
  have hfault {reason at' l : Nat} (h : ∃ d, prepare s g x act off z z acc write = .ended (takeFault s g ⟨reason, d, at', maskOf [l], 0⟩)) :
      faults l reason at' := by
    obtain ⟨d, h⟩ := h
    exact ⟨d, hended _ h⟩
  have hbelow {p : Nat → Prop} {l : Nat} (h : ∀ m ∈ act, p m → l ≤ m) (m : Nat) (hm : m ∈ act) (hml : m < l) : ¬ p m :=
    fun hp => absurd (h m hm hp) (Nat.not_le.2 hml)
  have hnamed (l : Nat) (hp : passes l) : laneNamed s g x write off z l = named l := by
    rw [laneNamed, lanePlace_passes h5 hp]
    cases hw : inWindow (modF x 2 0) with
    | false =>
      rw [if_neg Bool.false_ne_true]
      simp only [named, show window = false from hw]
      rfl
    | true =>
      rw [if_pos rfl]
      simp only [named, show window = true from hw, placeAddr]
      cases ctxOf s g.ctx
      · rfl
      · rfl
  refine ⟨fun l hr ⟨hl, hodd, hlow⟩ => ?odd, fun hchain => ⟨fun h1 h3 hoff => ?switched, fun l hkept ⟨hl, hp, hlow⟩ => ?refused,
    fun l hpass ⟨hl, hskew, hlow⟩ => ?skew, fun l e hpass hl he hrefuses hlow => ?page⟩⟩
  case odd =>
    exact hended _ (prepare_laneOdd hasc h5 hr hl hodd (hbelow hlow))
  case switched =>
    obtain ⟨u, h, hlanes, hbytes, hframe, hbits⟩ := lanesOff_spec s g act off
    have hgo := prepare_allOff (s := s) (al := z) (acc := acc) (write := write) (fun l hl => lanePlace_off h1 h3 (hoff l hl))
    rw [hlanes] at hgo
    obtain ⟨vc, hexec⟩ := hnone _ _ hact hgo
    have hbytes := SameBytes.trans _ _ _ hbytes (cacheEnts_reads u []).sameBytes
    exact ⟨_, _, hexec, hbytes.1, hbytes.2, by rw [hframe], hbits⟩
  case refused =>
    have hkept (m : Nat) (hm : m ∈ act) : seg = 0 ∨ 4 ≤ seg ∨ LaneFits g x off z m := by
      obtain h | h | h := hkept
      · exact .inl h
      · exact .inr (.inl h)
      · exact .inr (.inr (h m hm))
    have hfaults := hfault (prepare_refused hasc h5 hchain hkept hl hp (fun m hm hml => not_not.1 (hbelow hlow m hm hml)))
    refine ⟨fun hf => ?_, fun hf => ?_⟩
    · rwa [refusedAt_fits hf] at hfaults
    · rwa [refusedAt_out hf] at hfaults
  case skew =>
    have hprep := prepare_skew (acc := acc) hasc h5 hchain hpass hl hskew (fun m hm hml => not_not.1 (hbelow hlow m hm hml))
    rw [hnamed l (hpass l hl)] at hprep
    exact ⟨0, hended _ hprep⟩
  case page =>
    refine hfault ?_
    rw [prepare_passes h5 hchain (fun m hm => (hpass m hm).1), orFault_none (fun q hq => ?_)]
    · exact prepLocs_refused hasc h5 hacc (fun m hm => (hpass m hm).1) hl he hrefuses hlow
    · obtain ⟨m, hm, rfl⟩ := List.mem_map.1 hq
      rw [skewFault_passes h5 (hpass m hm).1]
      exact if_pos (hpass m hm).2

end Sys2Proof.Machine
end

section
/-! Accesses outside the part (R210, R225, R227, R286, R424, R431): when one may start, what it sends, and whether its group goes on. -/

namespace Sys2Proof.Machine
open Sys2Proof

/-! ## What reads keep -/

theorem ReadsFrame.raceFlt {s u : State} (h : ReadsFrame s u) (g : Group) (z : Nat) (r : LaneAcc) : raceFlt u g z r = raceFlt s g z r := by
  obtain ⟨⟨_, _, _, _, _, rfl⟩, -⟩ := h
  rfl

theorem ReadsFrame.awayScr {s u : State} (h : ReadsFrame s u) (g : Group) (a : Nat) : awayScr u g a = awayScr s g a := by
  obtain ⟨⟨_, _, _, _, _, rfl⟩, -⟩ := h
  rfl

theorem ReadsFrame.mayStart {s u : State} (h : ReadsFrame s u) (g : Group) (z : Nat) (e : Ext) : mayStart u g z e = mayStart s g z e := by
  obtain ⟨⟨_, _, _, _, _, rfl⟩, -⟩ := h
  rfl

theorem ReadsFrame.routeOf {s u : State} (h : ReadsFrame s u) (d : Nat) : routeOf u d = routeOf s d := by
  obtain ⟨⟨_, _, _, _, _, rfl⟩, -⟩ := h
  rfl

theorem ReadsFrame.extUp {s u : State} (h : ReadsFrame s u) (e : Ext) : extUp u e = extUp s e := by
  obtain ⟨⟨_, _, _, _, _, rfl⟩, -⟩ := h
  rfl

theorem ReadsFrame.queues {s u : State} (h : ReadsFrame s u) : u.xacts = s.xacts ∧ u.posted = s.posted := by
  obtain ⟨⟨_, _, _, _, _, rfl⟩, -⟩ := h
  exact ⟨rfl, rfl⟩

/-! ## Targets -/

theorem isLocal_iff_extOf {loc : Loc} : isLocal loc = true ↔ extOf loc = none := by
  cases loc <;> simp [isLocal, extOf]

/-- A target is a port's or a device's. -/
theorem extOf_target {loc : Loc} {e : Ext} (h : extOf loc = some e) :
    (∃ n, e.port = some n ∧ e.dev = none) ∨ ∃ d, e.dev = some d ∧ e.port = none := by
  cases loc with
  | scr | dram | reg => cases h
  | host p a | cxl p a | peer p a =>
    obtain rfl := Option.some.inj h
    exact .inl ⟨p, rfl, rfl⟩
  | remote d a o =>
    obtain rfl := Option.some.inj h
    exact .inr ⟨d, rfl, rfl⟩

theorem locKey_of_extOf {loc : Loc} {e : Ext} (h : extOf loc = some e) : ∃ k, locKey loc = some k := by
  cases loc with
  | scr | dram | reg => cases h
  | host | cxl | peer | remote => exact ⟨_, rfl⟩

/-- A lane by itself is held exactly where its access may not start. -/
theorem extHeld_single (s : State) (g : Group) (z : Nat) (e : Ext) : extHeld s g z [e] = !mayStart s g z e := by
  have hone : ([e].filter (sameTarget e)).length = 1 := by
    rw [List.filter_cons_of_pos (by simp [sameTarget])]
    rfl
  simp only [extHeld, List.any_cons, List.any_nil, Bool.or_false, hone, Nat.mul_one, mayStart]
  cases e.dev with
  | none => simp
  | some d => simp [Bool.not_and]

/-! ## Transactions sent (R424, R431) -/

/-- One transaction sent where its window has room. -/
theorem sendXact_sends {s b c : State} {y : Xact} (hx : c.xacts = s.xacts) (ho : c.out = b.out) (hroom : linkRoom c y.dst y.size = true)
    (hkind : y.kind < 9) : SendsXact s b (sendXact c y) y.dst y.port y.kind y.tag y.addr y.ord y.payload := by
  have haddr : (if y.kind = 9 || y.kind = 10 then 0 else y.addr % 2 ^ 41) = y.addr % 2 ^ 41 := if_neg (by simp; omega)
  unfold sendXact
  simp only
  split
  · refine ⟨⟨{ y with sent := c.clock.toNat }, congrArg (· ++ _) hx, rfl, rfl, rfl, rfl, rfl, rfl, rfl⟩, fun _ => ?_⟩
    simp only [emitXact, emit, haddr, ho]
  · rename_i hheld
    refine ⟨⟨{ { y with sent := c.clock.toNat } with unsent := true }, congrArg (· ++ _) hx, rfl, rfl, rfl, rfl, rfl, rfl, rfl⟩, fun hnone => ?_⟩
    refine absurd ?_ hheld
    have hnone' : s.xacts.any (fun v => v.unsent && v.dst = y.dst) = false :=
      List.any_eq_false.2 (fun v hv => by simpa using hnone v hv)
    rw [hroom, hx, hnone']
    rfl

/-! ## The group goes on, or is held (R210) -/

theorem endSent_goesOrHeld {m : Sent} {held : Prop} [Decidable held] {tag : Nat} (hlost : m.lost = [])
    (htags : m.tags = if held then [tag] else []) (g : Group) : endSent m g = goesOrHeld m.s m.g held tag := by
  unfold endSent goesOrHeld
  rw [hlost, htags]
  by_cases h : held
  · rw [if_pos h, if_pos h]
    rfl
  · rw [if_neg h, if_neg h]
    rfl

/-- An access that no route reaches faults once its group goes on (R227, R429). -/
theorem endSent_lost (s : State) (h g : Group) (a : Nat) :
    endSent ⟨s, h, [], [a]⟩ g = lateFault (finish s h) g.ctx g.core g.slot 6 g.pc a := rfl

end Sys2Proof.Machine
end

section
/-! Stores (R174, R194 to R196, R198, R204, R210, R212, R214, R221, R225, R226, R228, R335): the lanes of a store inside the part, the store of
a lane outside it, and the statement about `ST` and `ST.REL`. -/

namespace Sys2Proof.Machine
open Sys2Proof

/-! ## `Active()` -/

theorem active_ascending (g : Group) (x : InsWord) : (active g x).Pairwise (· < ·) := List.pairwise_lt_range.filter _

/-! ## Races (R290) -/

theorem checkRaces_go {s : State} {g : Group} {z : Nat} {ls : List LaneAcc} (h : ∀ r ∈ ls, raceFlt s g z r = none) :
    checkRaces z (.go s g ls) = .go s g ls := orFault_none h _

/-- Accesses that do not race, seen after the reads of the checks. -/
theorem NoRace.checkRaces {s u : State} {g : Group} {z : Nat} {act : List Nat} {loc : Nat → Loc} (h : NoRace s g z act loc)
    (hu : ReadsFrame s u) (addr : Nat → Nat) : checkRaces z (.go u g (act.map (fun l => ⟨l, addr l, loc l⟩)))
      = .go u g (act.map (fun l => ⟨l, addr l, loc l⟩)) := by
  refine checkRaces_go (fun r hr => ?_)
  obtain ⟨l, hl, rfl⟩ := List.mem_map.1 hr
  rw [hu.raceFlt, raceFlt]
  cases hloc : loc l with
  | scr a => simp only [h l hl a hloc, Option.map_none]
  | dram | reg | host | cxl | peer | remote => rfl

theorem noRace_of_ne_scr {s : State} {g : Group} {z l : Nat} {loc : Loc} (h : ∀ a, loc ≠ .scr a) : NoRace s g z [l] (fun _ => loc) :=
  fun _ _ a ha => absurd ha (h a)

/-! ## The lanes of a store inside the part (R221) -/

theorem storeLocal_job {m : Sent} {j : LaneJob} (hloc : isLocal j.loc = true) (hst : j.load = false) :
    laneStep m j = { m with s := storeLocal m.s m.g j.rel j.loc j.data } := by
  simp only [laneStep, isLocal_iff_extOf.1 hloc, hst]

theorem laneWaits_inside {j : LaneJob} (h : isLocal j.loc = true) : laneWaits j = false := by
  unfold laneWaits
  cases hloc : j.loc with
  | scr | dram | reg | host | cxl => rfl
  | peer | remote => rw [hloc] at h; cases h

theorem runLanes_inside {js : List LaneJob} (h : ∀ j ∈ js, isLocal j.loc = true ∧ j.load = false) (m : Sent) :
    runLanes js m = ({ m with s := js.foldl (fun s j => storeLocal s m.g j.rel j.loc j.data) m.s }, []) := by
  induction js generalizing m with
  | nil => rfl
  | cons j js ih =>
    obtain ⟨⟨hloc, hst⟩, hjs⟩ := List.forall_mem_cons.1 h
    rw [runLanes, storeLocal_job hloc hst, laneWaits_inside hloc]
    exact ih hjs _

theorem goLanes_inside {js : List LaneJob} (h : ∀ j ∈ js, isLocal j.loc = true ∧ j.load = false) (s : State) (g : Group) :
    goLanes s g js = finish (js.foldl (fun s j => storeLocal s g j.rel j.loc j.data) s) (if js = [] then g else released g) := by
  rw [goLanes, runLanes_inside h]
  cases js with
  | nil => rfl
  | cons j js =>
    have hj : j.load = false := (h j (List.mem_cons_self ..)).2
    simp [endSent, hj]

/-- Stores inside the part, after their checks. -/
theorem performStore_inside {s : State} {g : Group} {z : Nat} (rel : Option Nat) (data : Nat → List Byte) {act : List Nat} {loc : Nat → Loc}
    (addr : Nat → Nat) (h : ∀ l ∈ act, isLocal (loc l) = true) : performStore z rel data s g (act.map (fun l => ⟨l, addr l, loc l⟩))
      = finish (act.foldl (fun s l => storeLocal s g rel (loc l) (data l)) s) (if act = [] then g else released g) := by
  have hext : ((act.map (fun l => LaneAcc.mk l (addr l) (loc l))).map (fun r => (r, data r.l))).filterMap (fun p => extOf p.1.loc) = [] := by
    refine List.filterMap_eq_nil_iff.2 (fun p hp => ?_)
    rw [List.map_map] at hp
    obtain ⟨l, hl, rfl⟩ := List.mem_map.1 hp
    exact isLocal_iff_extOf.1 (h l hl)
  rw [performStore, performStores, hext, if_neg (show ¬ extHeld s g z [] = true from Bool.false_ne_true), goLanes_inside]
  · simp only [List.foldl_map, List.map_eq_nil_iff]
  · intro j hj
    rw [List.map_map, List.map_map] at hj
    obtain ⟨l, hl, rfl⟩ := List.mem_map.1 hj
    exact ⟨h l hl, rfl⟩

/-- The low `z` bytes of a store's value in a lane (R212). -/
def storeVal (g : Group) (x : InsWord) (z l : Nat) : Nat :=
  if z = 16 then (match x.opc with | .v n => rdVs g n.toNat l 4 | _ => 0)
    else if z = 8 then src64 g x false x.opc l else src32 g x x.opc l

theorem storeData_eq (g : Group) (x : InsWord) (z l : Nat) : storeData g x z l = leBytes z (storeVal g x z l) := rfl

theorem ReadsFrame.bytes {s u : State} (h : ReadsFrame s u) : u.scr = s.scr ∧ ∀ a, dramByte u a = dramByte s a := by
  obtain ⟨⟨_, _, _, _, _, rfl⟩, -⟩ := h
  exact ⟨rfl, fun _ => rfl⟩

theorem ReadsFrame.memOk {s u : State} (h : ReadsFrame s u) (hok : s.ok = true) : u.memOk := by
  have hs : s.memOk := ⟨wf_scr hok, wf_mem hok⟩
  obtain ⟨⟨_, _, _, _, _, rfl⟩, -⟩ := h
  exact hs

/-- Each lane's bytes are where it stored them, unless a higher lane stored there, and nothing else of the memories changes. -/
def StoredLanes (s t : State) (z : Nat) (act : List Nat) (loc : Nat → Loc) (data : Nat → List Byte) : Prop :=
  StoresOnly s t ∧ OtherBytesKept s t z act loc
    ∧ ∀ l ∈ act, (∀ m ∈ act, l < m → (loc l).same (loc m) = false) → locBytes t z (loc l) = data l

theorem storeLanes_inside {s u : State} {g : Group} {z : Nat} {act : List Nat} {loc : Nat → Loc} (hu : ReadsFrame s u) (hok : s.ok = true)
    (hasc : act.Pairwise (· < ·)) (halign : ∀ l ∈ act, (loc l).aligned z = true) (hhere : StaysHere s g act loc) (rel : Option Nat)
    (d : Nat → Nat) :
    StoredLanes s (act.foldl (fun s l => storeLocal s g rel (loc l) (leBytes z (d l))) u) z act loc (fun l => leBytes z (d l)) := by
  obtain ⟨found, rfl, hwrites⟩ := foldl_storeLocal_writes (z := z) (g := g) rel d act (hu.memOk hok)
    (fun l hl => Loc.plain_of_aligned (halign l hl)) (fun l hl a ha => (hu.awayScr g a).trans (hhere l hl a ha))
  obtain ⟨hscr, hdram⟩ := hu.bytes
  refine ⟨hwrites.kept.storesOnly hu, ⟨fun a ha => ?_, fun a ha => ?_⟩, fun l hl hlast => ?_⟩
  · rw [hwrites.others.1 a ha, hscr]
  · rw [hwrites.others.2 a ha, hdram]
  · obtain ⟨p, hp, rfl⟩ := List.mem_map.1 hl
    exact hwrites.last hasc halign (v := p.2) hp (fun m hm hml => (Loc.same_comm ..).trans (hlast m hm hml))

/-! ## A lane's store outside the part (R210, R225, R227) -/

/-- What a store outside the part changes beyond the reads of its checks. -/
def StoreSent (s b u : State) : Prop :=
  ReadsOnly s b ∧ u = { b with nextId := u.nextId, rels := u.rels, posted := u.posted, xacts := u.xacts, out := u.out }

theorem goLanes_outside {j : LaneJob} {e : Ext} (hext : extOf j.loc = some e) (hst : j.load = false) (s : State) (g : Group) :
    goLanes s g [j] = endSent { storeExt ⟨s, g, [], []⟩ j e with g := released (storeExt ⟨s, g, [], []⟩ j e).g } g := by
  have hrun : runLanes [j] ⟨s, g, [], []⟩ = (storeExt ⟨s, g, [], []⟩ j e, []) := by
    have hstep : laneStep ⟨s, g, [], []⟩ j = storeExt ⟨s, g, [], []⟩ j e := by simp only [laneStep, hext, hst]
    rw [runLanes, hstep]
    split <;> rfl
  rw [goLanes, hrun]
  simp [hst]

/-- One lane's store outside the part, after its checks. -/
theorem performStore_outside {s : State} {g : Group} {z l a : Nat} {rel : Option Nat} {data : Nat → List Byte} {loc : Loc} {e : Ext}
    (hext : extOf loc = some e) : performStore z rel data s g [⟨l, a, loc⟩] = if mayStart s g z e = true
      then goLanes s g [⟨l, a, loc, false, (data l).length, 0, .zero, false, none, rel, data l⟩] else stallOf s g := by
  have hlist : ([(LaneAcc.mk l a loc, data l)] : List (LaneAcc × List Byte)).filterMap (fun p => extOf p.1.loc) = [e] := by
    simp only [List.filterMap_cons, hext, List.filterMap_nil]
  rw [performStore, performStores, List.map_singleton, hlist, extHeld_single]
  cases mayStart s g z e
  · rfl
  · rfl

section Outside
variable {s b : State} {g : Group} {j : LaneJob} {e : Ext}

/-- No port or route carries the store. -/
theorem goLanes_lost (hext : extOf j.loc = some e) (hst : j.load = false) (hport : ∀ n, e.port = some n → extUp b e = false)
    (hdev : ∀ d, e.dev = some d → routeOf b d = none) :
    goLanes b g [j] = lateFault (finish b (released g)) g.ctx g.core g.slot 6 g.pc j.a := by
  have hlost : storeExt ⟨b, g, [], []⟩ j e = ⟨b, g, [], [j.a]⟩ := by
    obtain ⟨n, hn, hd⟩ | ⟨d, hd, -⟩ := extOf_target hext
    · simp only [storeExt, hd, hport n hn, Bool.false_eq_true, if_false]
      rfl
    · simp only [storeExt, hd, hdev d hd]
      rfl
  rw [goLanes_outside hext hst, hlost]
  rfl

/-- A store to a port is posted (R225). -/
theorem goLanes_posted {n : Nat} (hb : ReadsFrame s b) (hext : extOf j.loc = some e) (hst : j.load = false) (hn : e.port = some n)
    (hd : e.dev = none) (hup : extUp b e = true) : ∃ (u : State) (q : Posted),
      goLanes b g [j] = goesOrHeld u (released g) (e.peer = true) q.tag ∧ StoreSent s b u ∧ u.posted = s.posted ++ [q] ∧ u.xacts = s.xacts
        ∧ q.guid = g.uid ∧ q.core = g.core ∧ q.slot = g.slot ∧ q.ctx = g.ctx ∧ q.port = n ∧ q.peer = e.peer ∧ q.cxl = e.cxl
        ∧ q.addr = e.addr ∧ q.data = j.data ∧ q.pc = g.pc ∧ q.va = j.a ∧ q.flushed = false
        ∧ u.out = b.out ++ [if e.peer || e.cxl then .busWrite n e.addr j.data else .hostWrite n e.addr j.data] := by
  obtain ⟨k, hk⟩ := locKey_of_extOf hext
  obtain ⟨hx, hp⟩ := hb.queues
  rw [goLanes_outside hext hst]
  simp only [storeExt, hd, hk, hup, if_true, hn, Option.getD_some]
  refine ⟨_, _, endSent_goesOrHeld rfl rfl g, ⟨hb.readsOnly, rfl⟩, congrArg (· ++ _) hp, hx, rfl, rfl, rfl, rfl, rfl, rfl, rfl, rfl, rfl, rfl,
    rfl, rfl, ?_⟩
  simp only [emit, writeOut, hn, Option.getD_some, noteWrite, noteRels, freshTag]

/-- A store to another device is a write over the link (R424); ordered where it is a release at `.sys` (R298). -/
theorem goLanes_linked {d port z : Nat} (hb : ReadsFrame s b) (hext : extOf j.loc = some e) (hst : j.load = false) (hd : e.dev = some d)
    (hroute : routeOf b d = some port) (hlen : j.data.length = z) (hstart : mayStart b g z e = true) : ∃ (u : State) (tag : Nat),
      goLanes b g [j] = goesOrHeld u (released g) (e.blocks = true) tag ∧ StoreSent s b u ∧ u.posted = s.posted
        ∧ SendsXact s b u d port (if e.blocks || decide (j.rel = some 3) then 4 else 3) tag e.addr (decide (j.rel = some 3)) j.data := by
  obtain ⟨k, hk⟩ := locKey_of_extOf hext
  obtain ⟨hx, hp⟩ := hb.queues
  have hroom : linkRoom b d j.data.length = true := by
    simp only [mayStart, hd, Bool.and_eq_true] at hstart
    rw [hlen]
    exact hstart.2
  rw [goLanes_outside hext hst]
  simp only [storeExt, hd, hk, hroute]
  have hsends (y : Xact) (hdst : y.dst = d) (hsize : y.size = j.data.length) (hkind : y.kind < 9) :=
    sendXact_sends (s := s) (b := b) (c := noteWrite (freshTag b).1 g k j.data.length false j.rel) (y := y) hx rfl
      (by rw [hdst, hsize]; exact hroom) hkind
  have hframe := sendXact_frame (noteWrite (freshTag b).1 g k j.data.length false j.rel)
  refine ⟨_, _, endSent_goesOrHeld rfl rfl g, ⟨hb.readsOnly, ?_⟩, ?_, hsends _ rfl rfl ?_⟩
  · obtain ⟨_, _, h⟩ := hframe _
    rw [h]
    rfl
  · obtain ⟨_, _, h⟩ := hframe _
    rw [h]
    exact hp
  · simp only
    split <;> decide

end Outside

end Sys2Proof.Machine
end

section
/-! The statement about stores: `ST`, which checks for races, and `ST.REL`, which waits as a fence does (R214, R290, R293). -/

namespace Sys2Proof.Machine
open Sys2Proof

/-! ## What the instructions do after their checks -/

section Exec
variable {s : State} {g : Group} {x : InsWord}

theorem exec_st (hcur : curGroup s = some g) (k : StKind) : exec (.st k x) s = .next (onPrep (checkRaces (stBytes k)
    (prepare s g x (active g x) (offOf g x) (stBytes k) (stBytes k) (.st (stBytes k)) true))
    (performStore (stBytes k) none (storeData g x (stBytes k)))) := withGroup_next hcur _

theorem exec_stRel (hcur : curGroup s = some g) (hact : active g x ≠ []) (hout : outstanding s g (modF x 7 6 = 3) = false) (k : AqKind) :
    exec (.stRel k x) s = .next (onPrep (prepare s g x (active g x) (offOf g x) (aqBytes k) (aqBytes k) (.st (aqBytes k)) true)
      (performStore (aqBytes k) (some (modF x 7 6)) (storeData g x (aqBytes k)))) := by
  refine (withGroup_next hcur _).trans (congrArg _ ?_)
  exact (if_neg hact).trans (afterFence_performed hout _)

theorem plainAcc_st (z : Nat) : PlainAcc z true (.st z) := .inr (.inl ⟨rfl, rfl⟩)

/-- Where every lane passes, the stores are made after the reads of the checks. -/
theorem exec_st_checked (hcur : curGroup s = some g) (k : StKind) {loc : Nat → Loc}
    (h : ∀ l ∈ active g x, LaneChecked s g x (offOf g x) (stBytes k) (.st (stBytes k)) true l (loc l))
    (hrace : NoRace s g (stBytes k) (active g x) loc) : ∃ u, ReadsFrame s u ∧ exec (.st k x) s
      = .next (performStore (stBytes k) none (storeData g x (stBytes k)) u g
          ((active g x).map (fun l => ⟨l, laneNamed s g x true (offOf g x) (stBytes k) l, loc l⟩))) := by
  obtain ⟨u, hu, hgo⟩ := prepare_checked (plainAcc_st _) h
  refine ⟨u, hu, ?_⟩
  rw [exec_st hcur, hgo, hrace.checkRaces hu]
  rfl

theorem exec_stRel_checked (hcur : curGroup s = some g) (hact : active g x ≠ []) (hout : outstanding s g (modF x 7 6 = 3) = false)
    (k : AqKind) {loc : Nat → Loc} (h : ∀ l ∈ active g x, LaneChecked s g x (offOf g x) (aqBytes k) (.st (aqBytes k)) true l (loc l)) :
    ∃ u, ReadsFrame s u ∧ exec (.stRel k x) s
      = .next (performStore (aqBytes k) (some (modF x 7 6)) (storeData g x (aqBytes k)) u g
          ((active g x).map (fun l => ⟨l, laneNamed s g x true (offOf g x) (aqBytes k) l, loc l⟩))) := by
  obtain ⟨u, hu, hgo⟩ := prepare_checked (plainAcc_st _) h
  refine ⟨u, hu, ?_⟩
  rw [exec_stRel hcur hact hout, hgo]
  rfl

theorem performStore_none (z : Nat) (rel : Option Nat) (data : Nat → List Byte) (s : State) (g : Group) :
    performStore z rel data s g [] = finish s g := rfl

theorem laneChecks_st (hcur : curGroup s = some g) (k : StKind) :
    LaneChecks (.st k x) s g x (active g x) (offOf g x) (stBytes k) (.st (stBytes k)) true := by
  refine laneChecks_of_prepare (active_ascending g x) (plainAcc_st _) (fun t ht => ?_) (fun u h _ hgo => ⟨h.vc, ?_⟩)
  · rw [exec_st hcur, ht]
    rfl
  · rw [exec_st hcur, hgo]
    rfl

theorem laneChecks_stRel (hcur : curGroup s = some g) (hout : outstanding s g (modF x 7 6 = 3) = false) (k : AqKind) :
    LaneChecks (.stRel k x) s g x (active g x) (offOf g x) (aqBytes k) (.st (aqBytes k)) true := by
  by_cases hact : active g x = []
  · exact fun h => absurd hact h
  · refine laneChecks_of_prepare (active_ascending g x) (plainAcc_st _) (fun t ht => ?_) (fun u h _ hgo => ⟨h.vc, ?_⟩)
    · rw [exec_stRel hcur hact hout, ht]
      rfl
    · rw [exec_stRel hcur hact hout, hgo]
      rfl

end Exec

/-! ## Registers, and replies of a tailor (R174, R335) -/

theorem storeLocal_reg (s : State) (g : Group) (rel : Option Nat) (pa z v : Nat) : storeLocal s g rel (.reg pa) (leBytes z v)
    = regStore s (.group g.core g.slot) pa z (v % 2 ^ (8 * z)) := by
  simp only [storeLocal, leBytes_len, leVal_leBytes]

theorem imageScr_putImageScr {s : State} {c : Nat} {k : Ctx} {i : Image} (hk : ctxOf s c = some k) (hi : k.image = some i) (m : Memory) :
    imageScr (putImageScr s c m) c = m := by
  have hid : k.id = c := by simpa using List.find?_some hk
  have hput : ctxOf (putImageScr s c m) c = some { k with image := some { i with scr := m } } := by
    refine (ctxOf_updCtx s c c _ ?_).trans ?_
    · exact fun _ => rfl
    · rw [hk, Option.map_some, if_pos hid, hi]
      rfl
  rw [imageScr, hput]
  rfl

/-- A reply to a request whose context is out is written into the saved image, and no memory changes. -/
theorem storeLocal_away {s : State} {g : Group} {a c a' : Nat} (h : awayScr s g a = some (some c, a')) (b : List Byte)
    (hwf : Memory.wf (imageScr s c) = true) : (storeLocal s g none (.scr a) b).scr = s.scr ∧ (storeLocal s g none (.scr a) b).mem = s.mem
      ∧ memBytes (imageScr (storeLocal s g none (.scr a) b) c) a' b.length = b := by
  obtain ⟨k, i, hk, hi⟩ : ∃ k i, ctxOf s c = some k ∧ k.image = some i := by
    unfold awayScr at h
    split at h
    · cases h
    · rename_i m _
      split at h
      · simp at h
      · rename_i i himg
        obtain ⟨_, -, heq⟩ := Option.map_eq_some_iff.1 h
        simp only [Prod.mk.injEq, Option.some.injEq] at heq
        obtain ⟨rfl, -⟩ := heq
        obtain ⟨k, hk, hi⟩ := Option.bind_eq_some_iff.1 himg
        exact ⟨k, i, hk, hi⟩
  obtain ⟨_, hstamps⟩ := stampWrite_frame (putImageScr s c (memPut (imageScr s c) a' b)) g a b.length
  have hstore : storeLocal s g none (.scr a) b
      = noteWrite (stampWrite (putImageScr s c (memPut (imageScr s c) a' b)) g a b.length) g a b.length false none := by
    simp only [storeLocal, groupScr, h]
    rfl
  rw [hstore, hstamps]
  refine ⟨rfl, rfl, ?_⟩
  change memBytes (imageScr (putImageScr s c (memPut (imageScr s c) a' b)) c) a' b.length = b
  rw [imageScr_putImageScr hk hi, memBytes_memPut_self hwf]

/-! ## The statement -/

/-- What the model makes of one lane's store that leaves the part, once its checks have passed. -/
theorem store_starts {i : Instr} {s u : State} {g : Group} {l z a : Nat} {loc : Loc} {e : Ext} {rel : Option Nat} {sys : Bool}
    {data : Nat → List Byte} (hlen : (data l).length = z) (hsys : decide (rel = some 3) = sys) (hext : extOf loc = some e) (hu : ReadsFrame s u)
    (hexec : exec i s = .next (performStore z rel data u g [⟨l, a, loc⟩])) :
    (mayStart s g z e = false → ∃ u, exec i s = .next (stallOf u g) ∧ ReadsOnly s u)
      ∧ (mayStart s g z e = true → (∀ n, e.port = some n → extUp s e = false) → (∀ d, e.dev = some d → routeOf s d = none) →
          ∃ b u, exec i s = .next (lateFault (finish u (released g)) g.ctx g.core g.slot 6 g.pc a) ∧ StoreSent s b u)
      ∧ (∀ n, mayStart s g z e = true → e.port = some n → e.dev = none → extUp s e = true → ∃ (b u : State) (q : Posted),
          exec i s = .next (goesOrHeld u (released g) (e.peer = true) q.tag) ∧ StoreSent s b u ∧ u.posted = s.posted ++ [q] ∧ u.xacts = s.xacts
            ∧ q.guid = g.uid ∧ q.core = g.core ∧ q.slot = g.slot ∧ q.ctx = g.ctx ∧ q.port = n ∧ q.peer = e.peer ∧ q.cxl = e.cxl
            ∧ q.addr = e.addr ∧ q.data = data l ∧ q.pc = g.pc ∧ q.va = a ∧ q.flushed = false
            ∧ u.out = b.out ++ [if e.peer || e.cxl then .busWrite n e.addr (data l) else .hostWrite n e.addr (data l)])
      ∧ (∀ d port, mayStart s g z e = true → e.dev = some d → routeOf s d = some port → ∃ (b u : State) (tag : Nat),
          exec i s = .next (goesOrHeld u (released g) (e.blocks = true) tag) ∧ StoreSent s b u ∧ u.posted = s.posted
            ∧ SendsXact s b u d port (if e.blocks || sys then 4 else 3) tag e.addr sys (data l)) := by
  subst hsys
  rw [performStore_outside hext, hu.mayStart] at hexec
  have hgo (h : mayStart s g z e = true) := hexec.trans (congrArg Host.Outcome.next (if_pos h))
  refine ⟨fun h => ⟨u, hexec.trans (congrArg _ (if_neg (Bool.eq_false_iff.1 h))), hu.readsOnly⟩, fun h hport hdev => ⟨u, u, ?_, hu.readsOnly, rfl⟩,
    fun n h hn hd hup => ?_, fun d port h hd hroute => ?_⟩
  · rw [hgo h]
    exact congrArg _ (goLanes_lost hext rfl (fun n hn => (hu.extUp e).trans (hport n hn)) (fun d hd => (hu.routeOf d).trans (hdev d hd)))
  · obtain ⟨t, q, ht, hrest⟩ := goLanes_posted (j := ⟨l, a, loc, false, (data l).length, 0, .zero, false, none, rel, data l⟩) hu hext rfl hn hd
      ((hu.extUp e).trans hup)
    exact ⟨u, t, q, (hgo h).trans (congrArg _ ht), hrest⟩
  · obtain ⟨t, tag, ht, hrest⟩ := goLanes_linked (j := ⟨l, a, loc, false, (data l).length, 0, .zero, false, none, rel, data l⟩) hu hext rfl hd
      ((hu.routeOf d).trans hroute) hlen ((hu.mayStart g z e).trans h)
    exact ⟨u, t, tag, (hgo h).trans (congrArg _ ht), hrest⟩

theorem extOf_ne_scr {loc : Loc} {e : Ext} (h : extOf loc = some e) (a : Nat) : loc ≠ .scr a := by
  rintro rfl
  cases h

/-- Settles O20: the lanes' stores one after the other inside the part, `LaneChecks` of the checks, and one lane's store outside. -/
theorem stores : Obligations.Stores := by
  refine ⟨?inside, fun s g x k l pa hcur hact hz hready => ?register, fun s g x k l a c a' hcur hact hz hready hrace haway hwf => ?reply,
    fun s g x hcur => ⟨laneChecks_st hcur, fun k h => laneChecks_stRel hcur h k⟩, ?outside⟩
  case inside =>
    intro s g x loc hcur hok act data ready stored
    have hstored {z : Nat} {u : State} (hu : ReadsFrame s u) (hready : ready z) (rel : Option Nat) : ∃ t,
        performStore z rel (storeData g x z) u g (act.map (fun l => ⟨l, laneNamed s g x true (offOf g x) z l, loc l⟩))
          = finish t (if act = [] then g else released g) ∧ stored z t := by
      obtain ⟨hhere, hlanes⟩ := hready
      obtain ⟨honly, hothers, hlast⟩ := storeLanes_inside hu hok (active_ascending g x) (fun l hl => (hlanes l hl).2) hhere rel (storeVal g x z)
      refine ⟨_, performStore_inside rel _ _ (fun l hl => (hlanes l hl).1.2.1), honly, hothers, fun l hl hl' => ⟨fun a ha => ?_, fun a t d ha => ?_⟩⟩
      · have := hlast l hl hl'
        rwa [ha] at this
      · have := hlast l hl hl'
        rwa [ha] at this
    refine ⟨fun k hready hrace => ?_, fun k hact hready hout => ?_⟩
    · obtain ⟨u, hu, hexec⟩ := exec_st_checked hcur k (fun l hl => (hready.2 l hl).1.checked) hrace
      obtain ⟨t, ht, hst⟩ := hstored hu hready none
      exact ⟨t, hexec.trans (congrArg _ ht), hst⟩
    · obtain ⟨u, hu, hexec⟩ := exec_stRel_checked hcur hact hout k (fun l hl => (hready.2 l hl).1.checked)
      obtain ⟨t, ht, hst⟩ := hstored hu hready (some (modF x 7 6))
      exact ⟨t, by rw [hexec, ht, if_neg hact], hst⟩
  case register =>
    obtain ⟨u, hu, hexec⟩ := exec_st_checked (loc := fun _ => .reg pa) hcur k (hact ▸ fun m hm => List.mem_singleton.1 hm ▸ hready.checked)
      (hact ▸ noRace_of_ne_scr (loc := .reg pa) nofun)
    refine ⟨u, ?_, hu.readsOnly⟩
    rw [hexec, performStore_inside none _ _ (fun _ _ => rfl), hact, List.foldl_cons, List.foldl_nil, storeData_eq, storeLocal_reg, storeVal,
      if_neg (by omega), if_neg (List.cons_ne_nil l [])]
  case reply =>
    obtain ⟨u, hu, hexec⟩ := exec_st_checked (loc := fun _ => .scr a) hcur k (hact ▸ fun m hm => List.mem_singleton.1 hm ▸ hready.checked)
      (hact ▸ hrace)
    have himg : imageScr u c = imageScr s c := by
      obtain ⟨⟨_, _, _, _, _, rfl⟩, -⟩ := hu
      rfl
    have hval : storeVal g x (stBytes k) l = if stBytes k = 8 then src64 g x false x.opc l else src32 g x x.opc l := if_neg (by omega)
    obtain ⟨hscr, hmem, hbytes⟩ := storeLocal_away ((hu.awayScr g a).trans haway) (leBytes (stBytes k) (storeVal g x (stBytes k) l)) (himg ▸ hwf)
    rw [leBytes_len, hval] at hbytes
    refine ⟨storeLocal u g none (.scr a) (storeData g x (stBytes k) l), ?_, hscr.trans hu.bytes.1, hmem.trans hu.sameBytes.1,
      by rw [storeData_eq, hval, hbytes]⟩
    rw [hexec, performStore_inside none _ _ (fun _ _ => rfl), hact, List.foldl_cons, List.foldl_nil, if_neg (List.cons_ne_nil l [])]
  case outside =>
    intro s g x l hcur hact data starts
    refine ⟨fun k => ?_, fun k hrel => ?_⟩
    · intro a loc e hout kept
      obtain ⟨u, hu, hexec⟩ := exec_st_checked (loc := fun _ => loc) hcur k (hact ▸ fun m hm => List.mem_singleton.1 hm ▸ hout.checked)
        (hact ▸ noRace_of_ne_scr (extOf_ne_scr hout.2.2.1))
      have hnamed : laneNamed s g x true (offOf g x) (stBytes k) l = a := congrArg (placeAddr s g) hout.1
      rw [hact, List.map_singleton, hnamed] at hexec
      have hstarts := store_starts (data := storeData g x (stBytes k)) (sys := false) (leBytes_len ..) rfl hout.2.2.1 hu hexec
      exact hstarts
    · intro a loc e hout kept
      obtain ⟨u, hu, hexec⟩ := exec_stRel_checked (loc := fun _ => loc) hcur (hact ▸ List.cons_ne_nil l []) hrel k
        (hact ▸ fun m hm => List.mem_singleton.1 hm ▸ hout.checked)
      have hnamed : laneNamed s g x true (offOf g x) (aqBytes k) l = a := congrArg (placeAddr s g) hout.1
      rw [hact, List.map_singleton, hnamed] at hexec
      have hstarts := store_starts (data := storeData g x (aqBytes k)) (sys := decide (modF x 7 6 = 3)) (leBytes_len ..) (by simp) hout.2.2.1 hu hexec
      exact hstarts

end Sys2Proof.Machine
end

section
/-! Atomics and reductions (R220 to R222, R424): the read-modify-writes of the lanes inside the part, one after the other, and the request that
a lane's starts on another device. -/

namespace Sys2Proof.Machine
open Sys2Proof

/-! ## The group while its lanes act (R221) -/

/-- A group whose reads were noted and whose `v` registers may have been written. -/
def ActedGroup (g h : Group) : Prop := h = { g with v := h.v, vc := h.vc, seen := h.seen }

theorem ActedGroup.refl (g : Group) : ActedGroup g g := rfl
theorem ActedGroup.trans {a b c : Group} (h : ActedGroup a b) (k : ActedGroup b c) : ActedGroup a c := by
  unfold ActedGroup at *
  rw [k, h]

/-- What a read observes is of the order alone. -/
theorem noteRead_frame (s : State) (g : Group) (k n : Nat) (acq : Option Nat) :
    noteRead s g k n acq = { g with vc := (noteRead s g k n acq).vc, seen := (noteRead s g k n acq).seen } := by
  unfold noteRead
  simp only
  split
  · rfl
  · split
    · rw [joinRels_frame]
    · rw [joinRels_frame]

section SameLane
variable {g h : Group} {l : Nat}

/-- The operands of a lane are those of a group that has not acted in it. -/
theorem src32_acted (hg : ActedGroup g h) (hl : ∀ m, rdV h m l = rdV g m l) (x : InsWord) (o : Opd) : src32 h x o l = src32 g x o l := by
  cases o with
  | v n => exact hl _
  | s | latch | lit | zero | imm => rw [hg]; rfl

theorem rdVs_acted (hl : ∀ m, rdV h m l = rdV g m l) (n k : Nat) : rdVs h n l k = rdVs g n l k := by
  simp only [rdVs, hl]

theorem src64_acted (hg : ActedGroup g h) (hl : ∀ m, rdV h m l = rdV g m l) (x : InsWord) (sgn : Bool) (o : Opd) :
    src64 h x sgn o l = src64 g x sgn o l := by
  cases o with
  | v n => exact rdVs_acted hl ..
  | s | latch | lit | zero | imm => rw [hg]; rfl

theorem srcF_acted (hg : ActedGroup g h) (hl : ∀ m, rdV h m l = rdV g m l) (x : InsWord) (f : FFmt) (o : Opd) :
    srcF h x f o l = srcF g x f o l := by
  cases o with
  | lit | imm => rfl
  | v | s | latch | zero => simp only [srcF, src32_acted hg hl]

theorem src_acted (hg : ActedGroup g h) (hl : ∀ m, rdV h m l = rdV g m l) (x : InsWord) (w sgn : Bool) (o : Opd) :
    src h x w sgn o l = src g x w sgn o l := by
  simp only [src, src32_acted hg hl, src64_acted hg hl]

/-- The data and compare values of a read-modify-write, by its code in a link request. -/
theorem atomData_cas {x : InsWord} {c : BitVec 8} (hc : x.opc = .v c) (g : Group) (w : Bool) (l : Nat) :
    atomData g x .cas w l = (rdVs g (c.toNat + wide w) l (wide w), rdVs g c.toNat l (wide w)) := by
  simp only [atomData, hc]
  cases w with
  | true => rfl
  | false => simp [wide, rdVs]

theorem atomData_fadd (g : Group) (x : InsWord) (w : Bool) (l : Nat) : atomData g x .fadd w l = (srcF g x .f32 x.opc l, 0) := by
  simp only [atomData]

theorem atomData_other (g : Group) {x : InsWord} {op : AOp} (hf : op ≠ .fadd) (hc : op = .cas → ∀ c, x.opc ≠ .v c) (w : Bool) (l : Nat) :
    atomData g x op w l = (src g x w false x.opc l, 0) := by
  unfold atomData
  split
  · rename_i c hopc
    exact absurd hopc (hc rfl c)
  · exact absurd rfl hf
  · rfl

theorem atomData_acted (hg : ActedGroup g h) (hl : ∀ m, rdV h m l = rdV g m l) (x : InsWord) (op : AOp) (w : Bool) :
    atomData h x op w l = atomData g x op w l := by
  by_cases hf : op = .fadd
  · subst hf
    rw [atomData_fadd, atomData_fadd, srcF_acted hg hl]
  · by_cases hc : op = .cas ∧ ∃ c, x.opc = .v c
    · obtain ⟨rfl, c, hc⟩ := hc
      rw [atomData_cas hc, atomData_cas hc, rdVs_acted hl, rdVs_acted hl]
    · have hc : op = .cas → ∀ c, x.opc ≠ .v c := fun ho c h => hc ⟨ho, c, h⟩
      rw [atomData_other h hf hc, atomData_other g hf hc, src_acted hg hl]

end SameLane

/-! ## One lane's read-modify-write inside the part -/

/-- The bytes of an atomic. -/
def atomSize (w : Bool) : Nat := if w then 8 else 4

/-- What a lane's read-modify-write writes, by what it finds. -/
def atomLaneNew (g : Group) (x : InsWord) (op : AOp) (w : Bool) (l o : Nat) : Nat :=
  atomNew op w (x.mod.getLsbD 4) o (atomData g x op w l).1 (atomData g x op w l).2

/-- Clearing the marks of the sectors written is no byte either. -/
theorem Wrote.cleared {s t : State} {loc : Loc} {b : List Byte} (h : Wrote s t loc b) (a n : Nat) (rl : SMap (List Rel)) :
    Wrote s { stampClear t a n with rels := rl } loc b := by
  obtain ⟨_, hstamps⟩ := stampClear_frame t a n
  rw [hstamps]
  exact h.noted _ _

section Local
variable {s : State} {g : Group} {x : InsWord} {op : AOp} {w ret : Bool} {r : LaneAcc}

theorem atomLocal_wrote (hok : s.memOk) (hplain : r.loc.plain = true) (hhere : ∀ a, r.loc = .scr a → awayScr s g a = none) :
    Wrote s (atomLocal x op w ret s g r).1 r.loc (leBytes (atomSize w) (atomLaneNew g x op w r.l (locVal s (atomSize w) r.loc))) := by
  cases hloc : r.loc with
  | scr a =>
    simp only [atomLocal, hloc, groupScr_here (hhere a hloc)]
    exact (scrWrite_wrote hok g.ctx a _ (groupWriter s g)).cleared a _ _
  | dram a t d =>
    simp only [atomLocal, hloc]
    exact (dramWrite_wrote hok g.ctx a t d _ (groupWriter s g)).noted _ _
  | reg | host | cxl | peer | remote => rw [hloc] at hplain; cases hplain

/-- What the lane's read observes of the order. -/
def atomNoted (s : State) (g : Group) (x : InsWord) (w : Bool) (loc : Loc) : Group :=
  match locKey loc with
  | some k => noteRead s g k (atomSize w) (if modF x 6 5 % 2 = 1 then some (modF x 8 7) else none)
  | none => g

theorem atomNoted_frame (s : State) (g : Group) (x : InsWord) (w : Bool) (loc : Loc) :
    atomNoted s g x w loc = { g with vc := (atomNoted s g x w loc).vc, seen := (atomNoted s g x w loc).seen } := by
  unfold atomNoted
  split
  · exact noteRead_frame ..
  · rfl

theorem atomLocal_group : (atomLocal x op w ret s g r).2
    = if ret then putLane (atomNoted s g x w r.loc) x.dst (wide w) r.l (locVal s (atomSize w) r.loc) else atomNoted s g x w r.loc := rfl

end Local

/-! ## The lanes of an atomic inside the part (R221) -/

/-- The lanes' read-modify-writes in their order. -/
def atomLanes (x : InsWord) (op : AOp) (w ret : Bool) (addr : Nat → Nat) (loc : Nat → Loc) (act : List Nat) (sg : State × Group) :
    State × Group := act.foldl (fun sg l => atomLocal x op w ret sg.1 sg.2 ⟨l, addr l, loc l⟩) sg

/-- The registers that the values found by the lanes give. -/
def loadedLanes (x : InsWord) (w ret : Bool) (found : List (Nat × Nat)) (g : Group) : Group :=
  if ret then found.foldl (fun g lx => putLane g x.dst (wide w) lx.1 lx.2) g else g

theorem loadedLanes_v {x : InsWord} {ret : Bool} (hdst : ret = true → ∃ r, x.dst = .v r) (w : Bool) (found : List (Nat × Nat)) {g h : Group}
    (hv : g.v = h.v) : (loadedLanes x w ret found g).v = (loadedLanes x w ret found h).v := by
  cases ret with
  | false => exact hv
  | true =>
    obtain ⟨r, hr⟩ := hdst rfl
    simp only [loadedLanes, if_true, hr, foldl_putLane_v, hv]

theorem loadedLanes_acted {x : InsWord} {ret : Bool} (hdst : ret = true → ∃ r, x.dst = .v r) (w : Bool) (found : List (Nat × Nat)) (g : Group) :
    ∃ v, loadedLanes x w ret found g = { g with v := v } ∧ (SMap.wf 0 g.v = true → SMap.wf 0 v = true) := by
  cases ret with
  | false => exact ⟨g.v, rfl, id⟩
  | true =>
    obtain ⟨r, hr⟩ := hdst rfl
    have hv : loadedLanes x w true found g = { g with v := SMap.putAll 0 g.v (laneWrites r.toNat (wide w) found) } := by
      simp only [loadedLanes, if_true, hr, foldl_putLane_v]
    exact ⟨_, hv, fun h => SMap.wf_putAll h _⟩

/-- A register of a lane that found nothing. -/
theorem rdV_loadedLanes_other {x : InsWord} {ret : Bool} (hdst : ret = true → ∃ r, x.dst = .v r) (w : Bool) {k o l : Nat} {g : Group}
    (hg : SMap.wf 0 g.v = true) (hk : k < 64) (hl : l < 64) (hne : k ≠ l) (m : Nat) : rdV (loadedLanes x w ret [(k, o)] g) m l = rdV g m l := by
  cases ret with
  | false => rfl
  | true =>
    obtain ⟨r, hr⟩ := hdst rfl
    obtain ⟨h, hh, -, -, hkept⟩ := foldl_putLane_spec hg r (wide w) (ls := [(k, o)]) (by simp) (by simpa using hk)
    rw [loadedLanes, if_pos rfl, hr, hh]
    exact hkept m l hl (by simp [hne.symm])

section Lanes
variable {x : InsWord} {op : AOp} {w ret : Bool} {addr : Nat → Nat} {loc : Nat → Loc}

/-- The lanes write one after the other, and the group keeps what each found. -/
theorem atomLanes_writes (hdst : ret = true → ∃ r, x.dst = .v r) {g₀ : Group} (act : List Nat) {s : State} {g : Group} (hok : s.memOk)
    (hplain : ∀ l ∈ act, (loc l).plain = true) (hhere : StaysHere s g act loc) (hasc : act.Pairwise (· < ·)) (hlt : ∀ l ∈ act, l < 64)
    (hwf : SMap.wf 0 g.v = true) (hacted : ActedGroup g₀ g) (hsame : ∀ l ∈ act, ∀ m, rdV g m l = rdV g₀ m l) :
    ∃ found t h, atomLanes x op w ret addr loc act (s, g) = (t, h) ∧ found.map Prod.fst = act
      ∧ LaneWrites (atomSize w) loc (atomLaneNew g₀ x op w) found s t ∧ ActedGroup g₀ h ∧ h.v = (loadedLanes x w ret found g).v := by
  induction act generalizing s g with
  | nil => exact ⟨[], s, g, rfl, rfl, .nil s, hacted, by cases ret <;> rfl⟩
  | cons l act ih =>
    obtain ⟨hl, hplain⟩ := List.forall_mem_cons.1 hplain
    obtain ⟨hlhere, hhere⟩ := List.forall_mem_cons.1 hhere
    obtain ⟨hlow, hasc⟩ := List.pairwise_cons.1 hasc
    obtain ⟨hl64, hlt⟩ := List.forall_mem_cons.1 hlt
    obtain ⟨hlsame, hsame⟩ := List.forall_mem_cons.1 hsame
    have head := atomLocal_wrote (x := x) (op := op) (w := w) (ret := ret) (r := ⟨l, addr l, loc l⟩) hok hl hlhere
    have hnew : atomLaneNew g x op w l = atomLaneNew g₀ x op w l := by
      funext o
      rw [atomLaneNew, atomData_acted hacted hlsame, atomLaneNew]
    rw [hnew] at head
    have hnoted := atomNoted_frame s g x w (loc l)
    have hgroup : (atomLocal x op w ret s g ⟨l, addr l, loc l⟩).2
        = loadedLanes x w ret [(l, locVal s (atomSize w) (loc l))] (atomNoted s g x w (loc l)) := by
      rw [atomLocal_group]
      cases ret <;> rfl
    obtain ⟨v, hv, hvwf⟩ := loadedLanes_acted hdst w [(l, locVal s (atomSize w) (loc l))] (atomNoted s g x w (loc l))
    have hstep : ActedGroup g (atomLocal x op w ret s g ⟨l, addr l, loc l⟩).2 := by
      rw [hgroup, hv, hnoted]
      rfl
    have hnotedwf : SMap.wf 0 (atomNoted s g x w (loc l)).v = true := by rw [hnoted]; exact hwf
    obtain ⟨found, t, h, hlanes, hfound, tail, hh, hhv⟩ := ih (head.kept.2.2 hok) hplain
      (fun m hm a ha => (head.kept.awayScr (by rw [hstep]) (by rw [hstep]) a).trans (hhere m hm a ha)) hasc hlt
      (by rw [hgroup, hv]; exact hvwf hnotedwf) (hacted.trans hstep)
      (fun m hm k => by
        rw [hgroup, rdV_loadedLanes_other hdst w hnotedwf hl64 (hlt m hm) (Nat.ne_of_lt (hlow m hm)), ← hsame m hm k, hnoted]
        rfl)
    refine ⟨_, t, h, hlanes, by rw [List.map_cons, hfound], .cons head tail, hh, hhv.trans ?_⟩
    rw [hgroup]
    cases ret with
    | false => rw [hnoted]; rfl
    | true => exact loadedLanes_v hdst w _ (g := loadedLanes x w true _ _) (h := loadedLanes x w true _ g)
                (loadedLanes_v hdst w _ (by rw [hnoted]))

end Lanes

end Sys2Proof.Machine
end

section
/-! The atomics of lanes inside the part (R221), up to the clauses that every operation shares. -/

namespace Sys2Proof.Machine
open Sys2Proof

/-! ## After the checks -/

section Exec
variable {s : State} {g : Group} {x : InsWord} {op : AOp} {w ret : Bool}

/-- An atomic, once a release has waited as a fence does (R220, R293). -/
theorem atomOp_eq (hcur : curGroup s = some g) (hact : active g x ≠ []) (hout : outstanding s g (modF x 8 7 = 3) = false ∨ modF x 6 5 < 2) :
    atomOp op w ret x s = .next (onPrep (prepare s g x (active g x) (memOff g x 0 (x.mod.getLsbD 3)) (atomSize w) (atomSize w) .atom true)
      (performAtom x op w ret)) := by
  refine (withGroup_next hcur _).trans (congrArg _ ((if_neg hact).trans ?_))
  by_cases hrel : 2 ≤ modF x 6 5
  · exact (if_pos hrel).trans (afterFence_performed (hout.resolve_right (by omega)) _)
  · exact if_neg hrel

theorem plainAcc_atom (z : Nat) : PlainAcc z true .atom := .inr (.inr ⟨rfl, rfl⟩)

/-- Where every lane passes, the atomics are made after the reads of the checks. -/
theorem atomOp_checked (hcur : curGroup s = some g) (hact : active g x ≠ [])
    (hout : outstanding s g (modF x 8 7 = 3) = false ∨ modF x 6 5 < 2) {loc : Nat → Loc}
    (h : ∀ l ∈ active g x, LaneChecked s g x (memOff g x 0 (x.mod.getLsbD 3)) (atomSize w) .atom true l (loc l)) :
    ∃ u, ReadsFrame s u ∧ atomOp op w ret x s = .next (performAtom x op w ret u g
      ((active g x).map (fun l => ⟨l, laneNamed s g x true (memOff g x 0 (x.mod.getLsbD 3)) (atomSize w) l, loc l⟩))) := by
  obtain ⟨u, hu, hgo⟩ := prepare_checked (plainAcc_atom _) h
  refine ⟨u, hu, ?_⟩
  rw [atomOp_eq hcur hact hout, hgo]
  rfl

theorem performAtom_none (u : State) (h : Group) : performAtom x op w ret u h [] = finish u (released h) := rfl

/-- One lane of an atomic: inside the part, or on another device. -/
def atomStep (x : InsWord) (op : AOp) (w ret : Bool) (m : Sent) (r : LaneAcc) : Sent :=
  match extOf r.loc with
  | none => { m with s := (atomLocal x op w ret m.s m.g r).1, g := (atomLocal x op w ret m.s m.g r).2 }
  | some e => atomExt x op w ret m r e

theorem performAtom_steps {ls : List LaneAcc} (h : extHeld s g 20 (ls.filterMap (fun r => extOf r.loc)) = false) :
    performAtom x op w ret s g ls = endSent { ls.foldl (atomStep x op w ret) ⟨s, g, [], []⟩ with
      g := released (ls.foldl (atomStep x op w ret) ⟨s, g, [], []⟩).g } g := if_neg (Bool.eq_false_iff.1 h)

theorem foldl_atomStep_inside {act : List Nat} {loc : Nat → Loc} (addr : Nat → Nat) (h : ∀ l ∈ act, isLocal (loc l) = true) (m : Sent) :
    (act.map (fun l => LaneAcc.mk l (addr l) (loc l))).foldl (atomStep x op w ret) m
      = { m with s := (atomLanes x op w ret addr loc act (m.s, m.g)).1, g := (atomLanes x op w ret addr loc act (m.s, m.g)).2 } := by
  induction act generalizing m with
  | nil => rfl
  | cons l act ih =>
    obtain ⟨hl, h⟩ := List.forall_mem_cons.1 h
    have hstep : atomStep x op w ret m ⟨l, addr l, loc l⟩
        = { m with s := (atomLocal x op w ret m.s m.g ⟨l, addr l, loc l⟩).1, g := (atomLocal x op w ret m.s m.g ⟨l, addr l, loc l⟩).2 } := by
      simp only [atomStep, isLocal_iff_extOf.1 hl]
    rw [List.map_cons, List.foldl_cons, hstep, ih h]
    rfl

theorem performAtom_inside {act : List Nat} {loc : Nat → Loc} (addr : Nat → Nat) (h : ∀ l ∈ act, isLocal (loc l) = true) :
    performAtom x op w ret s g (act.map (fun l => ⟨l, addr l, loc l⟩))
      = finish (atomLanes x op w ret addr loc act (s, g)).1 (released (atomLanes x op w ret addr loc act (s, g)).2) := by
  have hext : (act.map (fun l => LaneAcc.mk l (addr l) (loc l))).filterMap (fun r => extOf r.loc) = [] := by
    refine List.filterMap_eq_nil_iff.2 (fun r hr => ?_)
    obtain ⟨l, hl, rfl⟩ := List.mem_map.1 hr
    exact isLocal_iff_extOf.1 (h l hl)
  rw [performAtom_steps (by rw [hext]; rfl), foldl_atomStep_inside addr h]
  rfl

end Exec

/-! ## What the lanes found and left -/

/-- The values found, one for each lane, as a function of the lane. -/
theorem exists_found {found : List (Nat × Nat)} (hasc : (found.map Prod.fst).Pairwise (· < ·)) : ∃ old : Nat → Nat, ∀ p ∈ found, old p.1 = p.2 := by
  induction found with
  | nil => exact ⟨fun _ => 0, nofun⟩
  | cons p found ih =>
    obtain ⟨hlow, hasc⟩ := List.pairwise_cons.1 hasc
    obtain ⟨old, hold⟩ := ih hasc
    refine ⟨Function.update old p.1 p.2, List.forall_mem_cons.2 ⟨Function.update_self .., fun q hq => ?_⟩⟩
    rw [Function.update_of_ne (Nat.ne_of_gt (hlow _ (List.mem_map_of_mem hq))), hold q hq]

/-- The registers of `ATOM`: the value that each lane found. -/
theorem loadedLanes_loaded {x : InsWord} {w : Bool} {r : BitVec 8} (hr : x.dst = .v r) {g h : Group} (hh : ActedGroup g h)
    (hwf : SMap.wf 0 g.v = true) {found : List (Nat × Nat)} (hv : h.v = (loadedLanes x w true found g).v)
    (hasc : (found.map Prod.fst).Pairwise (· < ·)) (hlt : ∀ p ∈ found, p.1 < 64) {old : Nat → Nat} (hold : ∀ p ∈ found, old p.1 = p.2) :
    LoadedV g h r.toNat (wide w) (found.map Prod.fst) (fun l j => wordOfVal (old l) j) := by
  obtain ⟨k, hk, -, hwords, hkept⟩ := foldl_putLane_spec hwf r (wide w) (hasc.imp Nat.ne_of_lt) hlt
  have hrd (m l : Nat) : rdV h m l = rdV k m l := by
    have hv : h.v = k.v := by rw [hv, loadedLanes, if_pos rfl, hr, hk]
    simp only [rdV, hv]
  refine ⟨hh, fun l i hl hi => ?_, fun m l hl hne => (hrd m l).trans (hkept m l hl hne)⟩
  obtain ⟨p, hp, rfl⟩ := List.mem_map.1 hl
  rw [hrd, hwords p.1 p.2 i hp hi]
  exact congrArg (wordOfVal · i) (hold p hp).symm

theorem ReadsFrame.locVal {s u : State} (h : ReadsFrame s u) (z : Nat) (loc : Loc) : locVal u z loc = locVal s z loc := by
  obtain ⟨⟨_, _, _, _, _, rfl⟩, -⟩ := h
  cases loc with
  | scr | dram | reg | host | cxl | peer | remote => rfl

/-- What an atomic's lanes inside the part leave, by the value `old l` that lane `l` found. -/
structure AtomsMade (s t : State) (g h : Group) (x : InsWord) (op : AOp) (w : Bool) (loc : Nat → Loc) (old : Nat → Nat) : Prop where
  only : StoresOnly s t
  others : OtherBytesKept s t (atomSize w) (active g x) loc
  finds : ∀ l ∈ active g x, (earlierAt loc (active g x) l = none → old l = locVal s (atomSize w) (loc l))
    ∧ ∀ m, earlierAt loc (active g x) l = some m → old l = atomLaneNew g x op w m (old m) % 2 ^ (8 * atomSize w)
  last : ∀ l ∈ active g x, (∀ m ∈ active g x, l < m → (loc m).same (loc l) = false) →
    locVal t (atomSize w) (loc l) = atomLaneNew g x op w l (old l) % 2 ^ (8 * atomSize w)
  group : ActedGroup g h

section Inside
variable {s : State} {g : Group} {x : InsWord} {op : AOp} {w ret : Bool} {loc : Nat → Loc}

theorem atomOp_inside (hcur : curGroup s = some g) (hok : s.ok = true) (hg : g.ok = true) (hact : active g x ≠ [])
    (hhere : StaysHere s g (active g x) loc) (hout : outstanding s g (modF x 8 7 = 3) = false ∨ modF x 6 5 < 2)
    (hdst : ret = true → ∃ r, x.dst = .v r)
    (hready : ∀ l ∈ active g x, LaneReady s g x (memOff g x 0 (x.mod.getLsbD 3)) (atomSize w) .atom true l (loc l)
      ∧ (loc l).aligned (atomSize w) = true) :
    ∃ t h old, atomOp op w ret x s = .next (finish t h) ∧ AtomsMade s t g h x op w loc old
      ∧ (ret = false → h.v = g.v)
      ∧ ∀ r, ret = true → x.dst = .v r → LoadedV g h r.toNat (wide w) (active g x) (fun l j => wordOfVal (old l) j) := by
  have hwf : SMap.wf 0 g.v = true := ((Group.ok_iff g).1 hg).1
  have hasc := active_ascending g x
  have hlt := active_lt hg x
  have halign := fun l hl => (hready l hl).2
  obtain ⟨u, hu, hexec⟩ := atomOp_checked (op := op) (ret := ret) hcur hact hout (fun l hl => (hready l hl).1.checked)
  rw [performAtom_inside _ (fun l hl => (hready l hl).1.2.1)] at hexec
  obtain ⟨found, t, h, hlanes, hfound, hwrites, hh, hv⟩ := atomLanes_writes (op := op) (ret := ret) (w := w)
    (addr := laneNamed s g x true (memOff g x 0 (x.mod.getLsbD 3)) (atomSize w)) hdst (active g x) (hu.memOk hok)
    (fun l hl => Loc.plain_of_aligned (halign l hl)) (fun l hl a ha => (hu.awayScr g a).trans (hhere l hl a ha)) hasc hlt hwf (.refl g)
    (fun _ _ _ => rfl)
  rw [hlanes] at hexec
  rw [← hfound] at hasc hlt halign
  obtain ⟨old, hold⟩ := exists_found hasc
  have hreleased : ActedGroup g (released h) := hh.trans rfl
  obtain ⟨hscr, hdram⟩ := hu.bytes
  refine ⟨t, released h, old, hexec, ⟨hwrites.kept.storesOnly hu, ⟨fun a ha => ?_, fun a ha => ?_⟩, fun l hl => ?_, fun l hl hlast => ?_,
    hreleased⟩, fun hret => ?_, fun r hret hr => ?_⟩
  · rw [hwrites.others.1 a (hfound ▸ ha), hscr]
  · rw [hwrites.others.2 a (hfound ▸ ha), hdram]
  · rw [← hfound] at hl ⊢
    obtain ⟨hnone, hsome⟩ := hwrites.finds hasc halign hold hl
    refine ⟨fun hn => ?_, hsome⟩
    rw [hnone hn, hu.locVal]
  · rw [← hfound] at hl hlast
    obtain ⟨p, hp, rfl⟩ := List.mem_map.1 hl
    rw [locVal_eq_leVal (Loc.plain_of_aligned (halign _ hl)), hwrites.last hasc halign (v := p.2) hp hlast, leVal_leBytes, hold p hp]
  · subst hret
    exact hv
  · subst hret
    have hload := loadedLanes_loaded (w := w) hr hreleased hwf hv hasc (fun p hp => hlt _ (List.mem_map_of_mem hp)) hold
    rwa [hfound] at hload

end Inside

end Sys2Proof.Machine
end

section
/-! The request of one lane's atomic on another device (R222, R424). -/

namespace Sys2Proof.Machine
open Sys2Proof

section Outside
variable {s b : State} {g : Group} {x : InsWord} {op : AOp} {w ret : Bool} {l a : Nat} {loc : Loc} {e : Ext}

/-- One lane's atomic outside the part, after its checks. -/
theorem performAtom_outside (hext : extOf loc = some e) : performAtom x op w ret s g [⟨l, a, loc⟩] = if mayStart s g 20 e = true
    then endSent { atomExt x op w ret ⟨s, g, [], []⟩ ⟨l, a, loc⟩ e with
      g := released (atomExt x op w ret ⟨s, g, [], []⟩ ⟨l, a, loc⟩ e).g } g
    else stallOf s g := by
  have hlist : [LaneAcc.mk l a loc].filterMap (fun r => extOf r.loc) = [e] := by
    simp only [List.filterMap_cons, hext, List.filterMap_nil]
  have hstep : atomStep x op w ret ⟨s, g, [], []⟩ ⟨l, a, loc⟩ = atomExt x op w ret ⟨s, g, [], []⟩ ⟨l, a, loc⟩ e := by
    simp only [atomStep, hext]
  cases hm : mayStart s g 20 e with
  | true =>
    rw [if_pos rfl, performAtom_steps (by rw [hlist, extHeld_single, hm]; rfl), List.foldl_cons, List.foldl_nil, hstep]
  | false =>
    rw [if_neg Bool.false_ne_true]
    exact if_pos (by rw [hlist, extHeld_single, hm]; rfl)

/-- The payload of an atomic's request (log entry 25). -/
def atomPay (x : InsWord) (op : AOp) (w : Bool) (data cmp : Nat) : List Byte :=
  leBytes 1 (aopCode op) ++ leBytes 1 (atomSize w) ++ leBytes 1 (x.mod.getLsbD 4).toNat ++ leBytes 1 (modF x 8 5)
    ++ leBytes 8 data ++ leBytes 8 cmp

theorem atomPay_length (x : InsWord) (op : AOp) (w : Bool) (data cmp : Nat) : (atomPay x op w data cmp).length = 20 := by
  simp only [atomPay, List.length_append, leBytes_len]

/-- No route leads to the device. -/
theorem performAtom_lost {d : Nat} (hext : extOf loc = some e) (hd : e.dev = some d) (hroute : routeOf s d = none)
    (hstart : mayStart s g 20 e = true) :
    performAtom x op w ret s g [⟨l, a, loc⟩] = lateFault (finish s (released g)) g.ctx g.core g.slot 6 g.pc a := by
  have hlost : atomExt x op w ret ⟨s, g, [], []⟩ ⟨l, a, loc⟩ e = ⟨s, g, [], [a]⟩ := by
    simp only [atomExt, hd, Option.getD_some, hroute]
    rfl
  rw [performAtom_outside hext, if_pos hstart, hlost]
  exact endSent_lost ..

/-- What an atomic's request changes beyond the reads of its checks. -/
def RequestSent (s b u : State) : Prop :=
  ReadsOnly s b ∧ u = { b with nextId := u.nextId, rels := u.rels, xacts := u.xacts, out := u.out }

/-- The pending load of an atomic's old value. -/
structure AtomPending (g : Group) (x : InsWord) (w : Bool) (l d : Nat) (e : Ext) (p : PendLoad) : Prop where
  dst : p.dst = x.dst
  words : p.words = wide w
  bytes : p.bytes = atomSize w
  lanes : p.lanes = [l]
  addrs : p.addrs = [e.addr]
  dev : p.dev = some d
  pc : p.pc = g.pc
  fatom : p.fatom = true

/-- The request is sent, and its old value's load is pending where one returns. -/
theorem performAtom_sent {d port : Nat} (hb : ReadsFrame s b) (hext : extOf loc = some e) (hd : e.dev = some d)
    (hroute : routeOf b d = some port) (hstart : mayStart b g 20 e = true) : ∃ (u : State) (p : PendLoad),
      performAtom x op w ret b g [⟨l, a, loc⟩]
          = (if ret then goesOrHeld u { released g with loads := g.loads ++ [p] } (decide (modF x 6 5 % 2 = 1) = true) p.tag
              else finish u (released g))
        ∧ RequestSent s b u ∧ AtomPending g x w l d e p
        ∧ SendsXact s b u d port 6 p.tag e.addr (2 ≤ modF x 6 5 && modF x 8 7 = 3) (atomPay x op w (atomData g x op w l).1 (atomData g x op w l).2) := by
  obtain ⟨k, hk⟩ := locKey_of_extOf hext
  obtain ⟨hx, hp⟩ := hb.queues
  have hroom : linkRoom b d 20 = true := by
    simp only [mayStart, hd, Bool.and_eq_true] at hstart
    exact hstart.2
  have hsends (y : Xact) (rel : Option Nat) (hdst : y.dst = d) (hsize : y.size = 20) (hkind : y.kind = 6) :=
    sendXact_sends (s := s) (b := b) (c := noteWrite (freshTag b).1 g k (atomSize w) true rel) (y := y) hx rfl
      (by rw [hdst, hsize]; exact hroom) (hkind ▸ by decide)
  have hframe (rel : Option Nat) (y : Xact) : RequestSent s b (sendXact (noteWrite (freshTag b).1 g k (atomSize w) true rel) y) := by
    refine ⟨hb.readsOnly, ?_⟩
    obtain ⟨_, _, h⟩ := sendXact_frame (noteWrite (freshTag b).1 g k (atomSize w) true rel) y
    rw [h]
    rfl
  rw [performAtom_outside hext, if_pos hstart]
  cases ret with
  | true =>
    simp only [atomExt, hd, Option.getD_some, hroute, hk, Bool.true_and, if_true]
    refine ⟨_, _, endSent_goesOrHeld rfl rfl g, hframe _ _, ⟨rfl, rfl, rfl, rfl, rfl, rfl, rfl, rfl⟩,
      hsends _ _ rfl (atomPay_length x op w _ _) rfl⟩
  | false =>
    simp only [atomExt, hd, Option.getD_some, hroute, hk, Bool.false_and, Bool.false_eq_true, if_false]
    exact ⟨_,
      ⟨(freshTag b).2, x.dst, wide w, atomSize w, false, [l], [e.addr], false, none, some d, g.pc, restartPc g, true, [a], 0, none, k⟩, rfl, hframe _ _, ⟨rfl, rfl, rfl, rfl, rfl, rfl, rfl, rfl⟩, hsends _ _ rfl (atomPay_length x op w _ _) rfl⟩

end Outside

end Sys2Proof.Machine
end

section
/-! The statement about atomics and reductions (R194 to R196, R204, R220 to R222, R227, R228, R424). -/

namespace Sys2Proof.Machine
open Sys2Proof

/-! ## What each operation writes (R222) -/

/-- The bits of an atomic. -/
theorem atomBits (w : Bool) : 8 * atomSize w = if w then 64 else 32 := by cases w <;> rfl

section New
variable (g : Group) (x : InsWord) (w : Bool) (l o : Nat)

theorem atomLaneNew_other {op : AOp} (hf : op ≠ .fadd) (hc : op ≠ .cas) {new : Nat}
    (h : atomNew op w (x.mod.getLsbD 4) o (src g x w false x.opc l) 0 % 2 ^ (if w then 64 else 32) = new % 2 ^ (if w then 64 else 32)) :
    atomLaneNew g x op w l o % 2 ^ (8 * atomSize w) = new % 2 ^ (8 * atomSize w) := by
  rw [atomLaneNew, atomData_other g hf (fun h => absurd h hc), atomBits, h]

theorem atomLaneNew_add : atomLaneNew g x .add w l o % 2 ^ (8 * atomSize w) = (o + src g x w false x.opc l) % 2 ^ (8 * atomSize w) :=
  atomLaneNew_other (op := .add) g x w l o nofun nofun (Nat.mod_mod ..)

theorem ite_mod {P Q : Prop} [Decidable P] [Decidable Q] (h : P ↔ Q) (a b n : Nat) :
    (if P then a % n else b) % n = (if Q then a else b) % n := by
  by_cases hp : P
  · rw [if_pos hp, if_pos (h.1 hp), Nat.mod_mod]
  · rw [if_neg hp, if_neg (h.not.1 hp)]

/-- A minimum or maximum takes the data where it compares less. -/
def atomPick (less : Int → Int → Bool) (l o : Nat) : Nat :=
  if less (ext (x.mod.getLsbD 4) (src g x w false x.opc l) (if w then 64 else 32)) (ext (x.mod.getLsbD 4) o (if w then 64 else 32))
    then src g x w false x.opc l else o

theorem atomLaneNew_min : atomLaneNew g x .min w l o % 2 ^ (8 * atomSize w)
    = atomPick g x w (fun a b => decide (a < b)) l o % 2 ^ (8 * atomSize w) :=
  atomLaneNew_other (op := .min) g x w l o nofun nofun (ite_mod decide_eq_true_iff.symm ..)

theorem atomLaneNew_max : atomLaneNew g x .max w l o % 2 ^ (8 * atomSize w)
    = atomPick g x w (fun a b => decide (b < a)) l o % 2 ^ (8 * atomSize w) :=
  atomLaneNew_other (op := .max) g x w l o nofun nofun (ite_mod decide_eq_true_iff.symm ..)

theorem atomLaneNew_exch : atomLaneNew g x .exch w l o % 2 ^ (8 * atomSize w) = src g x w false x.opc l % 2 ^ (8 * atomSize w) :=
  atomLaneNew_other (op := .exch) g x w l o nofun nofun (Nat.mod_mod ..)

theorem atomLaneNew_cas {c : BitVec 8} (hc : x.opc = .v c) : atomLaneNew g x .cas w l o % 2 ^ (8 * atomSize w)
    = (if o = rdVs g c.toNat l (wide w) then rdVs g (c.toNat + wide w) l (wide w) else o) % 2 ^ (8 * atomSize w) := by
  rw [atomLaneNew, atomData_cas hc, atomBits]
  exact ite_mod .rfl ..

theorem atomLaneNew_fadd : atomLaneNew g x .fadd w l o % 2 ^ (8 * atomSize w)
    = f32Add o (srcF g x .f32 x.opc l) % 2 ^ (8 * atomSize w) := by
  rw [atomLaneNew, atomData_fadd]
  rfl

end New

/-! ## Checks and requests -/

section Statement
variable {s : State} {g : Group} {x : InsWord} {op : AOp} {w ret : Bool} {i : Instr}

theorem laneChecks_atom (hexec : exec i s = atomOp op w ret x s) (hcur : curGroup s = some g)
    (hout : outstanding s g (modF x 8 7 = 3) = false ∨ modF x 6 5 < 2) :
    LaneChecks i s g x (active g x) (memOff g x 0 (x.mod.getLsbD 3)) (atomSize w) .atom true := by
  by_cases hact : active g x = []
  · exact fun h => absurd hact h
  · rw [atomOp_eq hcur hact hout] at hexec
    refine laneChecks_of_prepare (active_ascending g x) (plainAcc_atom _) (fun t ht => ?_) (fun u h _ hgo => ⟨(released h).vc, ?_⟩)
    · rw [hexec, ht]
      rfl
    · rw [hexec, hgo]
      rfl

theorem aopCode_seven : aopCode op = 7 → op = .cas := by cases op <;> simp [aopCode]

theorem aopCode_eight : aopCode op = 8 → op = .fadd := by cases op <;> simp [aopCode]

/-- The data of a request, by the operation's code. -/
theorem atomData_fst (g : Group) (x : InsWord) (op : AOp) (w : Bool) (l : Nat) : (match aopCode op, x.opc with
    | 7, .v c => rdVs g (c.toNat + wide w) l (wide w)
    | 8, o => srcF g x .f32 o l
    | _, o => src g x w false o l) = (atomData g x op w l).1 := by
  split
  · rename_i hcode hopc
    rw [aopCode_seven hcode, atomData_cas hopc]
  · rename_i hcode
    rw [aopCode_eight hcode, atomData_fadd]
  · rename_i hfadd hcas
    rw [atomData_other g (fun h => hfadd (congrArg aopCode h)) (fun h c hopc => hcas c (congrArg aopCode h) hopc)]

/-- The compare value of a request, by the operation's code. -/
theorem atomData_snd (g : Group) (x : InsWord) (op : AOp) (w : Bool) (l : Nat) : (match aopCode op, x.opc with
    | 7, .v c => rdVs g c.toNat l (wide w)
    | _, _ => 0) = (atomData g x op w l).2 := by
  split
  · rename_i hcode hopc
    rw [aopCode_seven hcode, atomData_cas hopc]
  · rename_i hcas
    by_cases hf : op = .fadd
    · rw [hf, atomData_fadd]
    · rw [atomData_other g hf (fun h c hopc => hcas c (congrArg aopCode h) hopc)]

/-- The instruction for a code in a request's payload, with its width and whether the old value returns. -/
def AtomInstr (x : InsWord) (s : State) (code : Nat) (w ret : Bool) (i : Instr) : Prop :=
  ∃ op, code = aopCode op ∧ exec i s = atomOp op w ret x s

/-- What the model makes of one lane's atomic on another device. -/
theorem atom_starts (hexec : exec i s = atomOp op w ret x s) (hcur : curGroup s = some g) {l a d : Nat} {loc : Loc} {e : Ext}
    (hact : active g x = [l]) (hout : outstanding s g (modF x 8 7 = 3) = false ∨ modF x 6 5 < 2)
    (hlane : LaneOut s g x (memOff g x 0 (x.mod.getLsbD 3)) (atomSize w) .atom true l a loc e) (hd : e.dev = some d) :
    (mayStart s g 20 e = false → ∃ u, exec i s = .next (stallOf u g) ∧ ReadsOnly s u)
      ∧ (mayStart s g 20 e = true → routeOf s d = none →
          ∃ u, exec i s = .next (lateFault (finish u (released g)) g.ctx g.core g.slot 6 g.pc a) ∧ ReadsOnly s u)
      ∧ (∀ port, mayStart s g 20 e = true → routeOf s d = some port → ∃ (b u : State) (p : PendLoad),
          exec i s = .next (if ret then goesOrHeld u { released g with loads := g.loads ++ [p] } (decide (modF x 6 5 % 2 = 1) = true) p.tag
              else finish u (released g))
            ∧ RequestSent s b u ∧ AtomPending g x w l d e p
            ∧ SendsXact s b u d port 6 p.tag e.addr (2 ≤ modF x 6 5 && modF x 8 7 = 3) (atomPay x op w (atomData g x op w l).1 (atomData g x op w l).2)) := by
  have hchecked : ∀ m ∈ active g x, LaneChecked s g x (memOff g x 0 (x.mod.getLsbD 3)) (atomSize w) .atom true m loc := by
    intro m hm
    rw [hact, List.mem_singleton] at hm
    exact hm ▸ hlane.checked
  obtain ⟨u, hu, hgo⟩ := atomOp_checked (op := op) (ret := ret) (loc := fun _ => loc) hcur (hact ▸ List.cons_ne_nil l []) hout hchecked
  have hnamed : laneNamed s g x true (memOff g x 0 (x.mod.getLsbD 3)) (atomSize w) l = a := congrArg (placeAddr s g) hlane.1
  rw [← hexec, hact, List.map_singleton, hnamed] at hgo
  have hext := hlane.2.2.1
  refine ⟨fun h => ⟨u, hgo.trans (congrArg _ ?_), hu.readsOnly⟩, fun h hroute => ⟨u, hgo.trans (congrArg _ ?_), hu.readsOnly⟩,
    fun port h hroute => ?_⟩
  · rw [performAtom_outside hext, hu.mayStart, h]
    rfl
  · exact performAtom_lost hext hd ((hu.routeOf d).trans hroute) ((hu.mayStart g 20 e).trans h)
  · obtain ⟨t, p, ht, hrest⟩ := performAtom_sent (x := x) (op := op) (w := w) (ret := ret) (l := l) (a := a) hu hext hd
      ((hu.routeOf d).trans hroute) ((hu.mayStart g 20 e).trans h)
    exact ⟨u, t, p, hgo.trans (congrArg _ ht), hrest⟩

end Statement

/-- Settles O23: the lanes' read-modify-writes one after the other inside the part, `LaneChecks` of the checks, and one lane's request to
another device. -/
theorem atomics : Obligations.Atomics := by
  refine ⟨?inside, ?outside⟩
  case inside =>
    intro s g x loc w hcur hok hg hact hhere hout act u run n d pick both
    have hrun {i : Bool → Instr} {w : Bool} {op : AOp} {ret : Bool} {dst : Option Nat} {new : Nat → Nat → Nat}
        (hexec : exec (i w) s = atomOp op w ret x s)
        (hnew : ∀ l o, atomLaneNew g x op w l o % 2 ^ (8 * atomSize w) = new l o % 2 ^ (8 * atomSize w))
        (hdst : (∃ r, x.dst = .v r ∧ ret = true ∧ dst = some r.toNat) ∨ (ret = false ∧ dst = none)) : run i w dst new := by
      intro hready
      have hret : ret = true → ∃ r, x.dst = .v r := by
        intro h
        obtain ⟨r, hr, -⟩ | ⟨hf, -⟩ := hdst
        · exact ⟨r, hr⟩
        · rw [h] at hf; cases hf
      obtain ⟨t, h, old, hgo, hmade, hkept, hloaded⟩ := atomOp_inside (op := op) (ret := ret) hcur hok hg hact hhere hout hret hready
      refine ⟨t, h, old, hexec.trans hgo, hmade.only, hmade.others, fun l hl => ?_,
        fun l hl hlast => (hmade.last l hl hlast).trans (hnew ..), ?_⟩
      · obtain ⟨hnone, hsome⟩ := hmade.finds l hl
        split
        · rename_i m hm
          exact (hsome m hm).trans (hnew ..)
        · rename_i hm
          exact hnone hm
      · obtain ⟨r, hr, hret, rfl⟩ | ⟨hret, rfl⟩ := hdst
        · exact hloaded r hret hr
        · have hgroup := hmade.group
          unfold ActedGroup at hgroup
          rw [hkept hret] at hgroup
          exact hgroup
    have hboth {a b : Bool → InsWord → Instr} {op : AOp} {new : Nat → Nat → Nat} (ha : exec (a w x) s = atomOp op w true x s)
        (hb : exec (b w x) s = atomOp op w false x s)
        (hnew : ∀ l o, atomLaneNew g x op w l o % 2 ^ (8 * atomSize w) = new l o % 2 ^ (8 * atomSize w)) : both a b new :=
      ⟨fun r hr => hrun (i := fun w => a w x) ha hnew (.inl ⟨r, hr, rfl, rfl⟩), hrun (i := fun w => b w x) hb hnew (.inr ⟨rfl, rfl⟩)⟩
    have hbits {op : AOp} (hf : op ≠ .fadd) (hc : op ≠ .cas) (l o : Nat) := atomLaneNew_other g x w l o hf hc rfl
    refine ⟨hboth (op := .add) rfl rfl (atomLaneNew_add g x w), hboth (op := .min) rfl rfl (atomLaneNew_min g x w),
      hboth (op := .max) rfl rfl (atomLaneNew_max g x w), hboth (op := .and) rfl rfl (hbits (op := .and) nofun nofun),
      hboth (op := .or) rfl rfl (hbits (op := .or) nofun nofun), hboth (op := .xor) rfl rfl (hbits (op := .xor) nofun nofun),
      fun r hr => ?exch, fun r c hr hc => ?cas, fun r hr => ?fadd, ?redFadd⟩
    case exch => exact hrun (i := fun w => .atomExch w x) (op := .exch) rfl (atomLaneNew_exch g x w) (.inl ⟨r, hr, rfl, rfl⟩)
    case cas =>
      exact hrun (i := fun w => .atomCas w x) (op := .cas) rfl (fun l o => atomLaneNew_cas g x w l o hc) (.inl ⟨r, hr, rfl, rfl⟩)
    case fadd => exact hrun (i := fun _ => .atomFadd x) (op := .fadd) rfl (atomLaneNew_fadd g x false) (.inl ⟨r, hr, rfl, rfl⟩)
    case redFadd => exact hrun (i := fun _ => .redFadd x) (op := .fadd) rfl (atomLaneNew_fadd g x false) (.inr ⟨rfl, rfl⟩)
  case outside =>
    intro s g x w hcur hout ops all off
    have hall : ∀ q ∈ all, AtomInstr x s q.1 q.2.1 q.2.2.1 q.2.2.2 := by
      simp only [all, ops, List.map_cons, List.map_nil, List.cons_append, List.nil_append, List.forall_mem_cons]
      exact ⟨⟨.add, rfl, rfl⟩, ⟨.min, rfl, rfl⟩, ⟨.max, rfl, rfl⟩, ⟨.and, rfl, rfl⟩, ⟨.or, rfl, rfl⟩, ⟨.xor, rfl, rfl⟩,
        ⟨.exch, rfl, rfl⟩, ⟨.cas, rfl, rfl⟩, ⟨.add, rfl, rfl⟩, ⟨.min, rfl, rfl⟩, ⟨.max, rfl, rfl⟩, ⟨.and, rfl, rfl⟩,
        ⟨.or, rfl, rfl⟩, ⟨.xor, rfl, rfl⟩, ⟨.fadd, rfl, rfl⟩, ⟨.fadd, rfl, rfl⟩, List.forall_mem_nil _⟩
    rintro ⟨code, wide, ret, i⟩ hq
    obtain ⟨op, hcode, hexec⟩ : AtomInstr x s code wide ret i := hall _ hq
    subst hcode
    refine ⟨laneChecks_atom hexec hcur hout, fun l a loc e d hact hlane hd => ?_⟩
    intro acq sys k data cmp pay
    have hpay : pay = atomPay x op wide (atomData g x op wide l).1 (atomData g x op wide l).2 :=
      congrArg₂ (atomPay x op wide) (atomData_fst g x op wide l) (atomData_snd g x op wide l)
    obtain ⟨hheld, hlost, hsent⟩ := atom_starts hexec hcur hact hout hlane hd
    refine ⟨hheld, hlost, fun port h hroute _ => ?_⟩
    obtain ⟨b, u, p, hgo, ⟨hb, hu⟩, hp, hx⟩ := hsent port h hroute
    exact ⟨b, u, p, hgo, hb, hu, hp.dst, hp.words, hp.bytes, hp.lanes, hp.addrs, hp.dev, hp.pc, hp.fatom, hpay ▸ hx⟩

end Sys2Proof.Machine
end

section
/-! The statement about barrier instructions (R236, R242): what a `BTEST` writes reads back in a group of canonical registers, and the
statement asks that of no group. -/

namespace Sys2Proof.Machine
open Sys2Proof

/-! ## The registers of a group that has moved on -/

/-- A group put back is in its slot, unless the slot was EMPTY. -/
theorem slotS_setGroup {s : State} {g : Group} {core slot n r : Nat} (hc : g.core = core) (hs : g.slot = slot)
    (h : slotS (setGroup s g) core slot n = some r) : rdS g n = r := by
  subst hc hs
  cases hat : groupAt s g.core g.slot with
  | none =>
    have hnone : groupAt (setGroup s g) g.core g.slot = none := by
      unfold groupAt setGroup at *
      rw [find?_updWhere _ _ _ _ (fun a ha => by simp only [ha, decide_true, Bool.and_self]), hat, Option.map_none]
    rw [slotS, hnone] at h
    cases h
  | some _ =>
    rw [slotS, groupAt_setGroup_self hat] at h
    exact Option.some.inj h

theorem slotS_putMoved (s : State) (g : Group) (core slot n : Nat) :
    slotS (putMoved s g) core slot n = slotS (setGroup s (endIfDead g)) core slot n := by
  unfold putMoved
  split
  · split <;> rfl
  · rfl

theorem endIfDead_frame (g : Group) : ∃ st w ls, endIfDead g = { g with st := st, wait := w, loads := ls } := by
  unfold endIfDead
  split
  · exact ⟨_, _, _, rfl⟩
  · exact ⟨g.st, g.wait, g.loads, rfl⟩

/-- A group that goes on at `Next` keeps its registers. -/
theorem slotS_finish {s : State} {g : Group} {core slot n r : Nat} (hc : g.core = core) (hs : g.slot = slot)
    (h : slotS (finish s g) core slot n = some r) : rdS g n = r := by
  rw [finish, slotS_putMoved] at h
  obtain ⟨_, _, _, hend⟩ := endIfDead_frame (readyAt s g (nextPc g))
  rw [hend] at h
  exact slotS_setGroup (g := { readyAt s g (nextPc g) with st := _, wait := _, loads := _ }) hc hs h

/-! ## The statement -/

/-- A group whose registers are not in canonical form: `s3` is listed twice. -/
def doubled : Group := { probeGroup State.reset with segS := ⟨[0], 0x10000, 0, 0x1000⟩, s := [(3, 1), (3, 2)] }

/-- The device with that group alone, its scratchpad zero. -/
def doubledTest : State := { State.reset with mode := .running, groups := [doubled] }

/-- `BTEST` of the barrier at offset 0 of S into `s3`, all lanes active: its phase and flags, which are zero. -/
def testWord : InsWord := ⟨0, 1, .zero, .zero, .zero, false, .s 3, false, 7⟩

theorem doubledTest_meets : active doubled testWord ≠ [] ∧ doubledTest.ok = true ∧ doubled.ok = false := by decide +kernel

theorem doubledTest_reads_zero : btestVal (barAt doubledTest (segAddr doubled.segS 0)) 0 = 0 := by decide +kernel

/-- Writing zero removes the first entry of `s3` and uncovers the second. -/
theorem doubledTest_uncovers : slotSAfter (exec (.btest testWord) doubledTest) 0 0 3 = some 2 := by decide +kernel

/-- Refutes O26: its clause on `BTEST` says that the destination reads the word tested, and asks no canonical form of the group's
registers; `doubledTest` holds a group for which a write of zero does not read back. -/
theorem not_barrierInstructions : ¬ Obligations.BarrierInstructions := by
  intro h
  obtain ⟨hact, hok, -⟩ := doubledTest_meets
  obtain ⟨-, -, -, -, -, -, ⟨t, ⟨u, hexec, -, -⟩, hwritten⟩, -⟩ := h.1 doubledTest doubled testWord rfl hact hok (by decide) (by decide)
  obtain ⟨hframe, hword, -⟩ := hwritten
  have hcore : t.core = 0 := (congrArg Group.core hframe).trans rfl
  have hslot : t.slot = 0 := (congrArg Group.slot hframe).trans rfl
  have hzero : rdS t 3 = 0 := by
    refine (hword 0 (by decide)).trans ?_
    exact (congrArg (wordOfVal · 0) doubledTest_reads_zero).trans rfl
  have hread := doubledTest_uncovers
  rw [hexec] at hread
  exact absurd (hzero.symm.trans (slotS_finish (s := u) hcore hslot hread)) (by decide)

end Sys2Proof.Machine
end

section
/-! What an engine's accesses leave of the jobs (R253, R261, R265, R267): reads, records and writes of scratchpad change no job and move no
field of a context, so that an engine's next step stays due for the engine that took the job. -/

namespace Sys2Proof.Machine
open Sys2Proof

/-! ## Jobs and the fields of contexts -/

/-- Where the virtual fields of a context lie (R14, R383). -/
def fieldTable (s : State) (id : Nat) : Option (List Nat) := (ctxOf s id).map Ctx.vfield

/-- Every job stays as it is, in the table of its physical field. -/
def JobsKept (s t : State) : Prop := t.jobs = s.jobs ∧ ∀ id, fieldTable t id = fieldTable s id

theorem JobsKept.refl (s : State) : JobsKept s s := ⟨rfl, fun _ => rfl⟩
theorem JobsKept.trans (a b c : State) (h : JobsKept a b) (k : JobsKept b c) : JobsKept a c :=
  ⟨k.1.trans h.1, fun id => (k.2 id).trans (h.2 id)⟩

theorem JobsKept.of_eq {s t : State} (hj : t.jobs = s.jobs) (hc : t.ctxs = s.ctxs) : JobsKept s t :=
  ⟨hj, fun id => by rw [fieldTable, ctxOf, hc]; rfl⟩

theorem jobField_eq_fieldTable (s : State) (j : Job) :
    jobField s j = match fieldTable s j.ctx with | some l => (if l.isEmpty then j.field else l.getD j.field 0xFF) | none => j.field := by
  unfold jobField fieldTable
  cases ctxOf s j.ctx <;> rfl

theorem JobsKept.jobField {s t : State} (h : JobsKept s t) (j : Job) : jobField t j = jobField s j := by
  rw [jobField_eq_fieldTable, h.2, ← jobField_eq_fieldTable]

/-! ## Halt lines and watchpoints (R384, R389) -/

theorem jobsKept_enqueueOnce (s : State) (i : Instr) (a : Arg) : JobsKept s (enqueueOnce s i a) := by
  obtain ⟨_, h⟩ := enqueueOnce_frame s i a
  rw [h]
  exact .of_eq rfl rfl

theorem jobsKept_updCtx (s : State) (id : Nat) {f : Ctx → Ctx} (hid : ∀ c, (f c).id = c.id) (hfields : ∀ c, (f c).vfield = c.vfield) :
    JobsKept s (updCtx s id f) := by
  refine ⟨rfl, fun k => ?_⟩
  rw [fieldTable, ctxOf_updCtx s id k f hid, fieldTable, Option.map_map]
  congr 1
  funext c
  rw [Function.comp_apply]
  split
  · exact hfields c
  · rfl

theorem jobsKept_raiseLine (s : State) (ctx : Nat) (r : FaultRec) : JobsKept s (raiseLine s ctx r) :=
  .trans _ _ _ (jobsKept_updCtx s ctx (f := fun c => { c with line := true, faults := c.faults ++ [r] }) (fun _ => rfl) (fun _ => rfl))
    (.trans _ _ _ (.of_eq rfl rfl) (jobsKept_enqueueOnce ..))

theorem jobsKept_watch (s : State) (ctx : Nat) (scratch : Bool) (a : Nat) (b : List Byte) (wr : Writer) :
    JobsKept s (watch s ctx scratch a b wr) := by
  unfold watch
  split
  · exact .refl s
  · simp only
    refine foldl_rel JobsKept .refl .trans _ (fun s w => ?_) _ s
    generalize (if scratch = true then _ else _) = va
    split_ifs
    · exact .trans _ _ _ (jobsKept_updCtx s ctx (f := fun c => { c with wpHit := c.wpHit ++ [w] }) (fun _ => rfl) (fun _ => rfl))
        (jobsKept_raiseLine ..)
    · exact .refl s

/-! ## Writes of agents, and records (R456, R457) -/

theorem jobsKept_agentScr (s : State) (ctx a : Nat) (b : List Byte) (wr : Writer) (rs : List Rel) :
    JobsKept s (agentScr s ctx a b wr rs) := by
  unfold agentScr
  obtain ⟨_, h⟩ := stampClear_frame (scrWrite s ctx a b wr) a b.length
  rw [h]
  exact .trans _ _ _ (.of_eq rfl rfl) (.trans _ _ _ (jobsKept_watch { s with scr := memPut s.scr a b } ctx true a b wr) (.of_eq rfl rfl))

theorem jobsKept_dramPut (s : State) (pa : Nat) (b : List Byte) (lat : Nat) : JobsKept s (dramPut s pa b lat) := by
  obtain ⟨_, _, _, _, h⟩ := dramPut_frame s pa b lat
  rw [h]
  exact .of_eq rfl rfl

theorem jobsKept_agentDram (s : State) (ctx pa lat : Nat) (b : List Byte) (wr : Writer) (rs : List Rel) :
    JobsKept s (agentDram s ctx pa lat b wr rs) := by
  obtain ⟨_, h⟩ := notice_frame (dramPut s pa b lat)
  have hwatch := jobsKept_watch (notice (dramPut s pa b lat)) ctx false pa b wr
  have hnotice : JobsKept (dramPut s pa b lat) (notice (dramPut s pa b lat)) := by
    rw [h]
    exact .of_eq rfl rfl
  exact .trans _ _ _ (.trans _ _ _ (jobsKept_dramPut ..) hnotice) (.trans _ _ _ hwatch (.of_eq rfl rfl))

theorem jobsKept_sendXact (s : State) (x : Xact) : JobsKept s (sendXact s x) := by
  obtain ⟨_, _, h⟩ := sendXact_frame s x
  rw [h]
  exact .of_eq rfl rfl

theorem jobsKept_storeRun (s : State) (ctx va : Nat) (loc : Loc) (b : List Byte) (wr : Writer) (rs : List Rel) :
    JobsKept s (storeRun s ctx va loc b wr rs) := by
  unfold storeRun
  split
  · exact jobsKept_agentDram ..
  · split
    · exact .trans _ _ _ (.of_eq rfl rfl) (jobsKept_sendXact (freshTag s).1 _)
    · exact .refl s
  · exact .refl s

theorem ReadsFrame.jobsKept {s t : State} (h : ReadsFrame s t) : JobsKept s t := by
  obtain ⟨⟨_, _, _, _, _, rfl⟩, -⟩ := h
  exact .of_eq rfl rfl

theorem jobsKept_agentStore {s t : State} {buf ctx va : Nat} {b : List Byte} {wr : Writer} {rs : List Rel}
    (h : agentStore s buf ctx va b wr rs = .ok t) : JobsKept s t := by
  unfold agentStore at h
  simp only at h
  split at h
  · cases h
  · cases h
    exact .trans _ _ _ (cacheEnts_reads ..).jobsKept (foldl_rel JobsKept .refl .trans _ (fun s p => jobsKept_storeRun s ..) _ _)

theorem jobsKept_elog (s : State) (p kind unit ctx addr aux : Nat) (tail : List Byte) : JobsKept s (elog s p kind unit ctx addr aux tail) := by
  obtain ⟨_, _, _, _, _, _, _, h, -⟩ := elog_frame s p kind unit ctx addr aux tail
  rw [h]
  exact .of_eq rfl rfl

theorem jobsKept_putRecord (s : State) (buf ctx unit va : Nat) (b : List Byte) (wr : Writer) (rs : List Rel) :
    JobsKept s (putRecord s buf ctx unit va b wr rs) := by
  unfold putRecord
  split
  · rename_i hstore
    exact .trans _ _ _ (jobsKept_agentStore hstore) (.of_eq rfl rfl)
  · exact jobsKept_elog ..

theorem jobsKept_putComp (s : State) (j : Job) (st err : Nat) (fpv ended : Bool) : JobsKept s (putComp s j st err fpv ended) := by
  unfold putComp
  split
  · exact .refl s
  · simp only
    split
    · exact jobsKept_putRecord ..
    · exact jobsKept_elog ..

/-! ## Reads of engines (R261, R265) -/

theorem jobsKept_freeBytes (s : State) (n : Nat) : JobsKept s (freeBytes s n).1 := .of_eq rfl rfl

theorem jobsKept_readPiece (s : State) (p : Piece) : JobsKept s (readPiece s p).1 := by
  unfold readPiece
  split
  · exact .refl s
  · exact (touchRow_rows ..).reads.jobsKept
  · exact .refl s
  · exact .trans _ _ _ (unitTouch_reads ..).jobsKept (jobsKept_freeBytes ..)
  · split
    · exact .of_eq rfl rfl
    · exact .of_eq rfl rfl

theorem jobsKept_readPieces (s : State) (ps : List Piece) : JobsKept s (readPieces s ps).1 := by
  unfold readPieces
  refine foldl_keeps (fun sb : State × List Byte => JobsKept s sb.1) _ (fun sb p h => ?_) ps (s, []) (.refl s)
  exact .trans _ _ _ h (jobsKept_readPiece sb.1 p)

theorem jobsKept_readRange {s t : State} {j : Job} {scr : Bool} {ok : Nat → Bool} {a n : Nat} {b : List Byte}
    (h : readRange s j scr ok a n = .ok (t, b)) : JobsKept s t := by
  unfold readRange at h
  split at h
  · cases h
  · obtain ⟨rfl, -⟩ := Prod.mk.inj (Except.ok.inj h)
    exact .trans _ _ _ (cacheEnts_reads ..).jobsKept (jobsKept_readPieces ..)

/-! ## Writes of scratchpad by engines, and a chunk of a gather job (R265, R281) -/

/-- The pieces of a scratchpad range lie in scratchpad. -/
def ScrPieces (ps : List Piece) : Prop := ∀ p ∈ ps, ∃ a, p.loc = .scr a

theorem piecesOf_scr {s : State} {j : Job} {ok : Nat → Bool} {w : Bool} {a n : Nat} {r : List TlbEnt × List Piece}
    (h : piecesOf s j true ok w a n = .ok r) : ScrPieces r.2 := by
  unfold piecesOf at h
  simp only [if_true] at h
  split at h
  · cases h
  · cases h
    intro p hp
    obtain ⟨_, -, rfl⟩ := List.mem_map.1 hp
    exact ⟨_, rfl⟩

theorem jobsKept_writePieces {ps : List Piece} (h : ScrPieces ps) (s : State) (j : Job) (b : List Byte) :
    JobsKept s (writePieces s j ps b) := by
  induction ps generalizing s b with
  | nil => exact .refl s
  | cons p r ih =>
    have hfirst : JobsKept s (writePiece s j p (b.take p.n)) := by
      obtain ⟨a, ha⟩ := h p (.head _)
      rw [writePiece, ha]
      exact jobsKept_agentScr ..
    exact .trans _ _ _ hfirst (ih (fun q hq => h q (.tail _ hq)) _ _)

theorem mem_of_allOk {α β : Type} {f : α → Except Flt β} {l : List α} {r : List β} (h : allOk (l.map f) = .ok r) {y : β} (hy : y ∈ r) :
    ∃ x ∈ l, f x = .ok y := by
  induction l generalizing r with
  | nil =>
    cases h
    cases hy
  | cons x xs ih =>
    rw [List.map_cons] at h
    cases hx : f x with
    | error e =>
      rw [hx] at h
      cases h
    | ok a =>
      rw [hx, allOk] at h
      cases hr : allOk (xs.map f) with
      | error e =>
        rw [hr] at h
        cases h
      | ok ys =>
        rw [hr] at h
        cases h
        rcases List.mem_cons.1 hy with rfl | hy
        · exact ⟨x, .head _, hx⟩
        · obtain ⟨z, hz, hfz⟩ := ih hr hy
          exact ⟨z, .tail _ hz, hfz⟩

theorem jobsKept_foldl {α : Type} {f : State → α → State} {l : List α} (h : ∀ s, ∀ a ∈ l, JobsKept s (f s a)) (s : State) :
    JobsKept s (l.foldl f s) := by
  induction l generalizing s with
  | nil => exact .refl s
  | cons a r ih => exact .trans _ _ _ (h s a (.head _)) (ih (fun s b hb => h s b (.tail _ hb)) _)

theorem jobsKept_writeRanges {s t : State} {j : Job} {ok : Nat → Bool} {ws : List (Nat × List Byte)}
    (h : writeRanges s j true ok ws = .ok t) : JobsKept s t := by
  unfold writeRanges at h
  split at h
  · cases h
  · rename_i l hl
    cases h
    have hscr : ∀ r ∈ l, ScrPieces r.2 := fun r hr => by
      obtain ⟨_, -, hw⟩ := mem_of_allOk hl hr
      exact piecesOf_scr hw
    exact .trans _ _ _ (cacheEnts_reads ..).jobsKept
      (jobsKept_foldl (fun u p hp => jobsKept_writePieces (hscr p.1 (List.of_mem_zip hp).1) u ..) _)

theorem jobsKept_gatherWork {s t : State} {j : Job} {z : Nat} (h : gatherWork s j = .ok (t, z)) : JobsKept s t := by
  unfold gatherWork at h
  simp only at h
  split at h
  · cases h
  · rename_i s1 ib hindices
    split at h
    · cases h
    · split at h
      · cases h
      · rename_i s3 hwrite
        obtain ⟨rfl, -⟩ := Prod.mk.inj (Except.ok.inj h)
        refine .trans _ _ _ (jobsKept_readRange hindices) (.trans _ _ _ ?_ (jobsKept_writeRanges hwrite))
        refine foldl_keeps (fun sb : State × List Byte => JobsKept s1 sb.1) _ (fun sb row hkept => ?_) _ (s1, []) (.refl s1)
        cases row with
        | none => exact hkept
        | some r => exact .trans _ _ _ hkept (.trans _ _ _ (cacheEnts_reads sb.1 r.1).jobsKept (jobsKept_readPieces _ r.2))

end Sys2Proof.Machine
end

section
/-! An engine's jobs and the steps that are due for it, and the taking of a job (R253, R254, R257, R264). -/

namespace Sys2Proof.Machine
open Sys2Proof

/-! ## Jobs of an engine -/

theorem engJob_some {s : State} {gather : Bool} {f e : Nat} {j : Job} (h : engJob s gather f e = some j) :
    j ∈ s.jobs ∧ j.st = .running ∧ j.gather = gather ∧ j.eng = some e ∧ jobField s j = f := by
  have hfound := List.find?_some h
  simp only [Bool.and_eq_true, decide_eq_true_iff, and_assoc] at hfound
  exact ⟨List.mem_of_find?_eq_some h, hfound⟩

theorem sameJob_iff {j k : Job} : sameJob k j = true ↔ k.ctx = j.ctx ∧ k.field = j.field ∧ k.gather = j.gather ∧ k.entry = j.entry := by
  simp only [sameJob, inTable, Bool.and_eq_true, decide_eq_true_iff, and_assoc]

theorem mem_putJob {s : State} {j k : Job} (hj : j ∈ s.jobs) (h : sameJob k j = true) : k ∈ (putJob s k).jobs :=
  List.mem_map.2 ⟨j, hj, if_pos h⟩

theorem jobField_sameJob {j k : Job} (h : sameJob k j = true) (s : State) : jobField s k = jobField s j := by
  obtain ⟨hc, hf, -⟩ := sameJob_iff.1 h
  rw [jobField, hc, hf, jobField]

/-! ## The step of an engine that is due next -/

theorem mem_enqueueOnce (s : State) (i : Instr) (a : Arg) : (i, a) ∈ (enqueueOnce s i a).agenda := by
  unfold enqueueOnce
  split
  · exact List.contains_iff_mem.1 ‹_›
  · exact List.mem_append_right _ (.head _)

theorem nextStep_jobs (s : State) (j : Job) (i : Instr) : (nextStep s j i).jobs = s.jobs := (jobsKept_enqueueOnce ..).1

/-- A job put back is in its table, and its next step is due for its engine. -/
theorem nextStep_putJob {s : State} {j k : Job} (hj : j ∈ s.jobs) (h : sameJob k j = true) (i : Instr) :
    k ∈ (nextStep (putJob s k) k i).jobs
      ∧ (i, ({ gather := j.gather, field := jobField s j, eng := k.eng.getD 0 } : Arg)) ∈ (nextStep (putJob s k) k i).agenda := by
  refine ⟨by rw [nextStep_jobs]; exact mem_putJob hj h, ?_⟩
  rw [← jobField_sameJob h s, ← (sameJob_iff.1 h).2.2.1]
  exact mem_enqueueOnce ..

/-- The next step of the engine that a step acts for. -/
def engineDue (s : State) (i : Instr) : Instr × Arg := (i, { gather := s.arg.gather, field := s.arg.field, eng := s.arg.eng })

/-! ## Taking a job -/

theorem mem_of_pickJob {run : Nat → Bool} {held live : List Nat} {l : List Job} {j : Job} (h : pickJob run held live l = some j) : j ∈ l := by
  induction l generalizing held live with
  | nil => cases h
  | cons k r ih =>
    rw [pickJob] at h
    split at h
    · exact .tail _ (ih h)
    · split at h
      · exact .tail _ (ih h)
      · split at h
        · exact .tail _ (ih h)
        · cases h
          exact .head _

/-- A job as its engine takes it, as its descriptor is read, and with a fingerprint of nothing. -/
def takenJob (j : Job) (e : Nat) : Job := { j with st := .running, eng := some e }
def readJob (j : Job) (d : List Byte) : Job := { j with desc := d, next := 0, sub := 0 }
def freshJob (j : Job) (d : List Byte) : Job := { readJob j d with saved := ⟨0, 0, 0, 0, 0⟩, cur := ⟨0, 0, 0, 0, 0⟩ }

/-- The first step of a job. -/
def firstStep (j : Job) : Instr := if dRack j then .engineRackClaim else .subchunkBoundary

theorem beginJob_fresh {s : State} {j : Job} {d : List Byte} (hland : j.landed = false) (hnext : dNext { j with desc := d } = 0)
    (hok : (if j.gather then gatherOk (readJob j d) else copyOk s (readJob j d)) = true) :
    beginJob s j d = nextStep (putJob (putComp (putJob s (readJob j d)) (freshJob j d) 2 0 false false) (freshJob j d))
      (freshJob j d) (firstStep (freshJob j d)) := by
  have hstart : (if j.landed = true then j.next else dNext { j with desc := d }) = 0 := by rw [hland]; exact hnext
  unfold readJob at hok
  unfold beginJob
  simp only [hstart, hok, Bool.not_true, Bool.false_eq_true, if_false, if_true]
  rfl

section Take
variable {s : State} {j : Job}
  (hpick : pickJob (ctxRuns s) [] [] (s.jobs.filter (fun j => j.gather = s.arg.gather && jobField s j = s.arg.field)) = some j)
include hpick

/-- The job that an engine takes waits in a table of its field. -/
theorem pickJob_waits : j ∈ s.jobs ∧ j.gather = s.arg.gather ∧ jobField s j = s.arg.field := by
  obtain ⟨hmem, hfilter⟩ := List.mem_filter.1 (mem_of_pickJob hpick)
  simp only [Bool.and_eq_true, decide_eq_true_iff] at hfilter
  exact ⟨hmem, hfilter⟩

section Read
variable (heng : s.arg.eng < engCount s.arg.gather) (hidle : engJob s s.arg.gather s.arg.field s.arg.eng = none)
  {j1 : Job} (hj1 : takenJob j s.arg.eng = j1)
include heng hidle hj1

theorem jobTake_refuses (hbad : j.descA.toNat % 64 ≠ 0 ∨ j.badOpt = true) :
    exec .jobTake s = .next (endJob (putJob s j1) j1 .error 1 j.descA.toNat) := by
  subst hj1
  have hbad' : (decide (j.descA.toNat % 64 ≠ 0) || j.badOpt) = true := by rwa [Bool.or_eq_true, decide_eq_true_iff]
  change execJobTake s = _
  simp only [execJobTake, if_pos heng, takeJob, hidle, hpick, hbad', Option.isSome_none, Bool.false_eq_true, if_false, if_true, takenJob]

variable (halign : j.descA.toNat % 64 = 0) (hopt : j.badOpt = false)
include halign hopt

theorem jobTake_unread {f : Flt} (hread : readRange (putJob s j1) j1 false normKind j.descA.toNat 64 = .error f) :
    exec .jobTake s = .next (jobFault (putJob s j1) j1 f) := by
  subst hj1
  unfold takenJob at hread
  have hgood : (decide (j.descA.toNat % 64 ≠ 0) || j.badOpt) = false := by simp [halign, hopt]
  change execJobTake s = _
  simp only [execJobTake, if_pos heng, takeJob, hidle, hpick, hgood, hread, Option.isSome_none, Bool.false_eq_true, if_false, takenJob]

theorem jobTake_reads {s2 : State} {d : List Byte} (hread : readRange (putJob s j1) j1 false normKind j.descA.toNat 64 = .ok (s2, d)) :
    exec .jobTake s = .next (beginJob s2 j1 d) := by
  subst hj1
  unfold takenJob at hread
  have hgood : (decide (j.descA.toNat % 64 ≠ 0) || j.badOpt) = false := by simp [halign, hopt]
  change execJobTake s = _
  simp only [execJobTake, if_pos heng, takeJob, hidle, hpick, hgood, hread, Option.isSome_none, Bool.false_eq_true, if_false, takenJob]

theorem jobTake_begins {s2 : State} {d : List Byte} (hland : j1.landed = false)
    (hread : readRange (putJob s j1) j1 false normKind j.descA.toNat 64 = .ok (s2, d))
    (hnext : dNext { j1 with desc := d } = 0) (hok : (if j1.gather then gatherOk (readJob j1 d) else copyOk s2 (readJob j1 d)) = true) :
    ∃ t, exec .jobTake s = .next t ∧ freshJob j1 d ∈ t.jobs
      ∧ engineDue s (firstStep (freshJob j1 d)) ∈ t.agenda := by
  obtain ⟨hmem, hgather, hfield⟩ := pickJob_waits hpick
  have hsame : sameJob j1 j = true := by
    subst hj1
    exact sameJob_iff.2 ⟨rfl, rfl, rfl, rfl⟩
  have hread' := jobsKept_readRange hread
  have hcomp := jobsKept_putComp (putJob s2 (readJob j1 d)) (freshJob j1 d) 2 0 false false
  have htaken : j1 ∈ s2.jobs := by
    rw [hread'.1]
    exact mem_putJob hmem hsame
  have hput : readJob j1 d ∈ (putComp (putJob s2 (readJob j1 d)) (freshJob j1 d) 2 0 false false).jobs := by
    rw [hcomp.1]
    exact mem_putJob htaken (sameJob_iff.2 ⟨rfl, rfl, rfl, rfl⟩)
  obtain ⟨hjobs, hdue⟩ := nextStep_putJob (k := freshJob j1 d) hput (sameJob_iff.2 ⟨rfl, rfl, rfl, rfl⟩) (firstStep (freshJob j1 d))
  refine ⟨_, ?_, hjobs, ?_⟩
  · rw [jobTake_reads hpick heng hidle hj1 halign hopt hread, beginJob_fresh hland hnext hok]
  · have hat : jobField (putComp (putJob s2 (readJob j1 d)) (freshJob j1 d) 2 0 false false) (readJob j1 d) = s.arg.field := calc
      _ = jobField (putJob s j1) j1 := (hcomp.jobField _).trans (hread'.jobField j1)
      _ = s.arg.field := (jobField_sameJob hsame s).trans hfield
    have hclass : (readJob j1 d).gather = s.arg.gather := by rw [← hgather, ← (sameJob_iff.1 hsame).2.2.1]; rfl
    have hengine : (freshJob j1 d).eng.getD 0 = s.arg.eng := by subst hj1; rfl
    rw [hat, hclass, hengine] at hdue
    exact hdue
end Read
end Take

end Sys2Proof.Machine
end

section
/-! The steps of a running engine: pieces of a job, boundaries of chunks and claims of slots (R253, R265 to R268, R272, R276, R278). -/

namespace Sys2Proof.Machine
open Sys2Proof

/-! ## A piece of work -/

/-- One sub-chunk of a copy job, after the read ahead of a quantise that checks its whole chunk (R272). -/
def heldWork (s : State) (j : Job) (cs o n : Nat) : Except Flt (State × Job × List Byte) :=
  (holdChunk s j cs).bind (fun h => (copyWork h.1 h.2 cs o n).map (fun r => (r.1, h.2, r.2)))

theorem heldWork_unheld {s : State} {j : Job} {cs : Nat} {f : Flt} (h : holdChunk s j cs = .error f) (o n : Nat) :
    heldWork s j cs o n = .error f := by
  rw [heldWork, h]
  rfl

theorem heldWork_error {s s0 : State} {j k : Job} {cs o n : Nat} {f : Flt} (hh : holdChunk s j cs = .ok (s0, k))
    (h : copyWork s0 k cs o n = .error f) : heldWork s j cs o n = .error f := by
  rw [heldWork, hh]
  change (copyWork s0 k cs o n).map _ = _
  rw [h]
  rfl

theorem heldWork_ok {s s0 s1 : State} {j k : Job} {cs o n : Nat} {b : List Byte} (hh : holdChunk s j cs = .ok (s0, k))
    (h : copyWork s0 k cs o n = .ok (s1, b)) : heldWork s j cs o n = .ok (s1, k, b) := by
  rw [heldWork, hh]
  change (copyWork s0 k cs o n).map _ = _
  rw [h]
  rfl

theorem holdChunk_job {s s0 : State} {j k : Job} {cs : Nat} (h : holdChunk s j cs = .ok (s0, k)) : k = { j with held := k.held } := by
  unfold holdChunk at h
  simp only at h
  split at h
  · cases h
    rfl
  · split at h
    · cases h
    · split at h
      · cases h
      · cases h
        rfl

theorem holdChunk_skip {j : Job} (h : dXf j ≠ 1) (s : State) (cs : Nat) : holdChunk s j cs = .ok (s, j) := by
  unfold holdChunk
  exact if_pos (by simp [h])

/-- A copy job after a piece of `n` source bytes `b`, or after a unit with DEV. -/
def workedJob (j : Job) (n : Nat) (b : List Byte) : Job :=
  if dDev j then { j with next := j.next + 1, sub := j.sub + 1 }
  else { j with sub := j.sub + n, cur := foldFp j (if j.sub = 0 then j.saved else j.cur) b }

theorem workedJob_unit {j : Job} (hdev : dDev j = true) (n : Nat) (b : List Byte) :
    workedJob j n b = { j with next := j.next + 1, sub := j.sub + 1 } := if_pos hdev

/-- After a piece, a job that has read ahead differs in its progress, its fingerprint and what it holds. -/
theorem workedJob_piece {j k : Job} (hdev : dDev j = false) (hheld : k = { j with held := k.held }) (n : Nat) (b : List Byte) :
    workedJob k n b = { j with sub := j.sub + n, cur := (workedJob k n b).cur, held := k.held } := by
  have hunit : ¬ dDev k = true := by
    rw [hheld]
    exact Bool.eq_false_iff.1 hdev
  rw [workedJob, if_neg hunit]
  exact hheld ▸ rfl

theorem sameJob_workedJob {j k : Job} (h : sameJob k j = true) (n : Nat) (b : List Byte) : sameJob (workedJob k n b) j = true := by
  unfold workedJob
  split <;> exact h

section Copy
variable {s : State} {j : Job} {cs o n : Nat} (hcopy : j.gather = false)
  (hcs : (if dDev j then 0 else j.next * (if dRack j then rackSize s j else dChunk j)) = cs)
  (ho : (if dDev j then 8 * j.next else cs + j.sub) = o)
  (hn : (if dDev j then 8 else min (4096 - o % 4096) (chunkBytes s j - j.sub)) = n)
include hcopy hcs ho hn

theorem workJob_copy_fault {f : Flt} (h : heldWork s j cs o n = .error f) : workJob s j = workFault s j f := by
  subst hcs ho hn
  unfold heldWork at h
  simp only [workJob, hcopy, Bool.false_eq_true, if_false, h]

theorem workJob_copy {s1 : State} {k : Job} {b : List Byte} (h : heldWork s j cs o n = .ok (s1, k, b)) :
    workJob s j = nextStep (putJob s1 (workedJob k n b)) (workedJob k n b)
      (if chunkFull s1 (workedJob k n b) then .chunkBoundary else .subchunkBoundary) := by
  subst hcs ho hn
  unfold heldWork at h
  unfold workedJob
  simp only [workJob, hcopy, Bool.false_eq_true, if_false, h]
end Copy

/-- A gather job after a chunk of which `z` rows were zero (R281, R282). -/
def gatheredJob (j : Job) (z : Nat) : Job := { j with sub := 1, cur := { j.saved with nanc := j.saved.nanc + BitVec.ofNat 64 z } }

theorem workJob_gather_fault {s : State} {j : Job} {f : Flt} (hgather : j.gather = true) (h : gatherWork s j = .error f) :
    workJob s j = workFault s j f := by
  simp only [workJob, hgather, if_true, h]

theorem workJob_gather {s s1 : State} {j : Job} {z : Nat} (hgather : j.gather = true) (h : gatherWork s j = .ok (s1, z)) :
    workJob s j = nextStep (putJob s1 (gatheredJob j z)) (gatheredJob j z) .chunkBoundary := by
  rw [workJob, if_pos hgather, h]
  rfl

theorem gatherWrites_rack {j : Job} (hrack : dRack j = true) (s : State) {n i : Nat} (b : List Byte) (hi : i < n) : (gatherWrites s j n b)[i]?
    = some (slotOff s j + (j.next + i) % rowsPer s j * dF j 28 2, (b.drop (i * dF j 28 2)).take (dF j 28 2)) := by
  simp only [gatherWrites, hrack, if_true, List.getElem?_map, List.getElem?_range hi, Option.map_some]

/-! ## Boundaries and slots -/

theorem boundary_job {s u : State} {j k : Job} (h : boundary s j = (u, some k)) : k = { j with
    next := nextAfter s j, sub := 0, saved := j.cur, claim := none, rackReady := false, held := [], landed := false } := by
  unfold boundary at h
  split at h
  · cases h
  · unfold endBoundary at h
    simp only at h
    split at h
    · cases h
    · cases h
      rfl

theorem jobsKept_rackClaim (s : State) (a : Nat) (r : Rack) (producer : Bool) : JobsKept s (rackClaim s a r producer) := by
  unfold rackClaim
  obtain ⟨_, h⟩ := stampClear_frame (scrPut s (a + if producer then 24 else 20) 4 ((if producer then r.tail else r.head) + 1).toNat)
    (a + if producer then 24 else 20) 4
  exact h ▸ .of_eq rfl rfl

theorem waitEnds_frame (s : State) (j : Job) : waitEnds s j = { j with wait := none, vc := (waitEnds s j).vc } := by
  unfold waitEnds
  split
  · rfl
  · next h => rw [← h]

/-- A job that has claimed its rack's TAIL, waiting for the slot's empty barrier. -/
def claimedJob (j : Job) (r : Rack) (ready : Bool) : Job :=
  { j with claim := some r.tail.toNat, rackReady := ready, wait := some (segAddr (dSeg j) (claimBar r r.tail true), claimTarget r r.tail true) }

theorem claimRack_claims {s : State} {j : Job} {r : Rack} (hrack : jobRack s j = some r) (hsize : j.gather = true → dF j 28 2 ≤ r.ssize)
    (hclaim : j.claim = none) (hready : j.rackReady = false) : ∃ u, JobsKept s u ∧ (claimRack s j = putJob u (claimedJob j r false)
      ∨ claimRack s j = nextStep (putJob u (waitEnds u (claimedJob j r true))) (waitEnds u (claimedJob j r true)) .engineRackWaitEnd) := by
  have hfits : (j.gather && decide (r.ssize < dF j 28 2)) = false := by
    cases hg : j.gather with
    | false => rfl
    | true => exact decide_eq_false (Nat.not_lt.2 (hsize hg))
  refine ⟨_, jobsKept_rackClaim s (segAddr (dSeg j) (dDst j)) r true, ?_⟩
  generalize hu : rackClaim s (segAddr (dSeg j) (dDst j)) r true = u
  cases hreach : reached (barAt u (segAddr (dSeg j) (claimBar r r.tail true))) (claimTarget r r.tail true) with
  | false =>
    left
    simp only [claimRack, hrack, hfits, hclaim, hready, hu, hreach, Option.isSome_none, Bool.or_self, Bool.false_eq_true, if_false, claimedJob]
  | true =>
    right
    simp only [claimRack, hrack, hfits, hclaim, hready, hu, hreach, Option.isSome_none, Bool.or_true, Bool.false_eq_true, if_false, if_true,
      claimedJob]

/-! ## The engine's job while its context runs -/

/-- A step answers a state in which some job is as said. -/
def Answers (s : State) (i : Instr) (post : State → Job → Prop) : Prop := ∃ t k, exec i s = .next t ∧ k ∈ t.jobs ∧ post t k

section Engine
variable {s : State} {j : Job} (hj : engJob s s.arg.gather s.arg.field s.arg.eng = some j) (hrun : ctxRuns s j.ctx = true)
include hj

/-- The engine's job, changed and put back, is in the table when its next step is due for the engine. -/
theorem nextStep_engine {u : State} {k : Job} (hjobs : u.jobs = s.jobs) (hsame : sameJob k j = true) (i : Instr) :
    k ∈ (nextStep (putJob u k) k i).jobs ∧ (JobsKept s u → k.eng = j.eng →
      engineDue s i ∈ (nextStep (putJob u k) k i).agenda) := by
  obtain ⟨hmem, -, hgather, heng, hfield⟩ := engJob_some hj
  obtain ⟨hput, hdue⟩ := nextStep_putJob (s := u) (hjobs ▸ hmem) hsame i
  refine ⟨hput, fun hkept hk => ?_⟩
  rw [hkept.jobField, hfield, hgather, hk, heng] at hdue
  exact hdue

include hrun

theorem onEngine_runs (k : Job → State) : onEngine s k = .next (k j) := by
  simp only [onEngine, hj, hrun, if_true]

/-! ## Sub-chunks -/

section Subchunk
variable (hfull : chunkFull s j = false) (hready : dRack j = true → j.claim ≠ none ∧ j.rackReady = true)
include hfull hready

theorem exec_subchunk : exec .subchunkBoundary s = .next (if j.abort then abortJob s j
    else if (dDev j && jobOut s j) || (jobXacts s j).any (fun x => x.unsent) then nextStep s j .subchunkBoundary else workJob s j) := by
  have hslot : (dRack j && !(j.claim.isSome && j.rackReady)) = false := by
    cases hrack : dRack j with
    | false => rfl
    | true =>
      obtain ⟨hclaim, hends⟩ := hready hrack
      rw [hends, Option.isSome_iff_ne_none.2 hclaim]
      rfl
  refine (onEngine_runs hj hrun _).trans ?_
  simp only [hfull, hslot, Bool.or_self, Bool.false_eq_true, if_false]

variable (habort : j.abort = false)
include habort

theorem exec_subchunk_held (hwaits : (dDev j = true ∧ jobOut s j = true) ∨ ¬ ∀ x ∈ jobXacts s j, x.unsent = false) :
    exec .subchunkBoundary s = .next (nextStep s j .subchunkBoundary) := by
  rw [exec_subchunk hj hrun hfull hready, if_neg (by simp [habort]), if_pos]
  rw [Bool.or_eq_true, Bool.and_eq_true, List.any_eq_true]
  refine hwaits.imp id (fun h => ?_)
  push Not at h
  simpa only [ne_eq, Bool.not_eq_false] using h

theorem exec_subchunk_works (hunit : dDev j = true → jobOut s j = false) (hroom : ∀ x ∈ jobXacts s j, x.unsent = false) :
    exec .subchunkBoundary s = .next (workJob s j) := by
  rw [exec_subchunk hj hrun hfull hready, if_neg (by simp [habort]), if_neg]
  rw [Bool.or_eq_true, Bool.and_eq_true, List.any_eq_true]
  rintro (⟨hdev, hout⟩ | ⟨x, hx, hunsent⟩)
  · exact absurd (hunit hdev) (by simp [hout])
  · exact absurd (hroom x hx) (by simp [hunsent])

section Work
variable (hroom : ∀ x ∈ jobXacts s j, x.unsent = false)
include hroom

section Piece
variable (hcopy : j.gather = false) (hdev : dDev j = false) {cs o n : Nat}
  (hcs : j.next * (if dRack j then rackSize s j else dChunk j) = cs) (ho : cs + j.sub = o)
  (hn : min (4096 - o % 4096) (chunkBytes s j - j.sub) = n)
include hcopy hdev hcs ho hn

theorem exec_subchunk_copyFault {f : Flt} (hf : heldWork s j cs o n = .error f) : exec .subchunkBoundary s = .next (workFault s j f) := by
  have hunit : ¬ dDev j = true := Bool.eq_false_iff.1 hdev
  rw [exec_subchunk_works hj hrun hfull hready habort (fun h => absurd h hunit) hroom,
    workJob_copy_fault hcopy ((if_neg hunit).trans hcs) ((if_neg hunit).trans ho) ((if_neg hunit).trans hn) hf]

theorem exec_subchunk_copies {s0 s1 : State} {h : Job} {b : List Byte} (hh : holdChunk s j cs = .ok (s0, h))
    (hb : copyWork s0 h cs o n = .ok (s1, b)) (hjobs : s1.jobs = s.jobs) : Answers s .subchunkBoundary (fun _ k =>
      k.sub = j.sub + n ∧ k.next = j.next ∧ k.entry = j.entry ∧ k.st = .running ∧ k.held = h.held) := by
  have hunit : ¬ dDev j = true := Bool.eq_false_iff.1 hdev
  have hheld := holdChunk_job hh
  have hsame : sameJob h j = true := by
    rw [hheld]
    exact sameJob_iff.2 ⟨rfl, rfl, rfl, rfl⟩
  have hwork := workJob_copy hcopy ((if_neg hunit).trans hcs) ((if_neg hunit).trans ho) ((if_neg hunit).trans hn) (heldWork_ok hh hb)
  refine ⟨_, _, (exec_subchunk_works hj hrun hfull hready habort (fun h => absurd h hunit) hroom).trans (congrArg _ hwork),
    (nextStep_engine hj hjobs (sameJob_workedJob hsame n b) _).1, ?_⟩
  rw [workedJob_piece hdev hheld]
  exact ⟨rfl, rfl, rfl, (engJob_some hj).2.1, rfl⟩
end Piece

/-- A DEV job does one unit once the unit before it is written (R276). -/
theorem exec_subchunk_unit (hdev : dDev j = true) (hxf : dXf j = 0) (hout : jobOut s j = false) {s1 : State} {b : List Byte}
    (hb : copyWork s j 0 (8 * j.next) 8 = .ok (s1, b)) (hjobs : s1.jobs = s.jobs) : Answers s .subchunkBoundary (fun _ k =>
      k.next = j.next + 1 ∧ k.sub = j.sub + 1 ∧ k.entry = j.entry ∧ k.st = .running) := by
  have hcopy : j.gather = false := by
    simp only [dDev, Bool.and_eq_true, Bool.not_eq_true'] at hdev
    exact hdev.1
  have hhold := holdChunk_skip (j := j) (by rw [hxf]; decide) s 0
  have hwork := workJob_copy hcopy (if_pos hdev) (if_pos hdev) (if_pos hdev) (heldWork_ok hhold hb)
  refine ⟨_, _, (exec_subchunk_works hj hrun hfull hready habort (fun _ => hout) hroom).trans (congrArg _ hwork),
    (nextStep_engine hj hjobs (sameJob_workedJob (sameJob_iff.2 ⟨rfl, rfl, rfl, rfl⟩) 8 b) _).1, ?_⟩
  rw [workedJob_unit hdev]
  exact ⟨rfl, rfl, rfl, (engJob_some hj).2.1⟩

section Gather
variable (hgather : j.gather = true)
include hgather

theorem exec_subchunk_gather : exec .subchunkBoundary s = .next (workJob s j) :=
  exec_subchunk_works hj hrun hfull hready habort (fun h => absurd h (by simp [dDev, hgather])) hroom

theorem exec_subchunk_gathers {s1 : State} {z : Nat} (hz : gatherWork s j = .ok (s1, z)) : Answers s .subchunkBoundary (fun t k =>
    k.sub = 1 ∧ k.next = j.next ∧ k.entry = j.entry ∧ k.st = .running ∧ k.cur.nanc = j.saved.nanc + BitVec.ofNat 64 z
      ∧ engineDue s .chunkBoundary ∈ t.agenda) := by
  have hkept := jobsKept_gatherWork hz
  obtain ⟨hput, hdue⟩ := nextStep_engine hj (k := gatheredJob j z) hkept.1 (sameJob_iff.2 ⟨rfl, rfl, rfl, rfl⟩) .chunkBoundary
  exact ⟨_, _, (exec_subchunk_gather hj hrun hfull hready habort hroom hgather).trans (congrArg _ (workJob_gather hgather hz)), hput,
    rfl, rfl, rfl, (engJob_some hj).2.1, rfl, hdue hkept rfl⟩
end Gather
end Work
end Subchunk

/-! ## Chunk boundaries -/

section Chunk
variable (hfull : chunkFull s j = true)
include hfull

theorem exec_chunk_out (hout : jobOut s j = true) : exec .chunkBoundary s = .next (nextStep s j .chunkBoundary) := by
  refine (onEngine_runs hj hrun _).trans ?_
  simp only [hfull, hout, Bool.not_true, Bool.false_eq_true, if_false, if_true]

variable (hout : jobOut s j = false) (habort : j.abort = false)
include hout habort

theorem exec_chunk_goes {u : State} {k : Job} (h : boundary s j = (u, some k)) : exec .chunkBoundary s = .next (goOnJob u k) := by
  refine (onEngine_runs hj hrun _).trans ?_
  simp only [hfull, hout, habort, h, Bool.not_true, Bool.false_eq_true, if_false]

theorem exec_chunk_stops {u : State} (h : boundary s j = (u, none)) : exec .chunkBoundary s = .next u := by
  refine (onEngine_runs hj hrun _).trans ?_
  simp only [hfull, hout, habort, h, Bool.not_true, Bool.false_eq_true, if_false]
end Chunk

/-! ## Slots of racks -/

section Claim
variable (hrack : dRack j = true) (hwait : j.wait = none) (hsub : j.sub = 0) (habort : j.abort = false)
include hrack hwait hsub habort

theorem exec_rackClaim : exec .engineRackClaim s = .next (claimRack s j) := by
  refine (onEngine_runs hj hrun _).trans ?_
  simp only [hrack, hwait, hsub, habort, Option.isSome_none, Bool.not_true, ne_eq, not_true_eq_false, decide_false, Bool.or_self, Bool.false_and,
    Bool.false_eq_true, if_false]

theorem exec_rackClaim_bad (hbad : jobRack s j = none) : exec .engineRackClaim s = .next (jobError s j 3 (dDst j)) := by
  rw [exec_rackClaim hj hrun hrack hwait hsub habort, claimRack, hbad]

/-- The job has claimed TAIL, and waits for the slot's empty barrier or is due to go on (R253, R278). -/
theorem exec_rackClaim_claims {r : Rack} (hr : jobRack s j = some r) (hsize : j.gather = true → dF j 28 2 ≤ r.ssize) (hclaim : j.claim = none)
    (hready : j.rackReady = false) : Answers s .engineRackClaim (fun t k => k.claim = some r.tail.toNat ∧ k.entry = j.entry
      ∧ (k.wait = some (segAddr (dSeg j) (claimBar r r.tail true), claimTarget r r.tail true)
        ∨ (k.wait = none ∧ k.rackReady = true ∧ engineDue s .engineRackWaitEnd ∈ t.agenda))) := by
  have hexec := exec_rackClaim hj hrun hrack hwait hsub habort
  obtain ⟨u, hkept, hwaits | hends⟩ := claimRack_claims hr hsize hclaim hready
  · rw [hwaits] at hexec
    exact ⟨_, _, hexec, mem_putJob (j := j) (hkept.1 ▸ (engJob_some hj).1) (sameJob_iff.2 ⟨rfl, rfl, rfl, rfl⟩), rfl, rfl, .inl rfl⟩
  · rw [hends] at hexec
    obtain ⟨hput, hdue⟩ := nextStep_engine hj (k := waitEnds u (claimedJob j r true)) hkept.1 (sameJob_iff.2 ⟨rfl, rfl, rfl, rfl⟩)
      .engineRackWaitEnd
    exact ⟨_, _, hexec, hput, rfl, rfl, .inr ⟨rfl, rfl, hdue hkept rfl⟩⟩
end Claim

theorem exec_rackWaitEnd {c : Nat} (hclaim : j.claim = some c) (hready : j.rackReady = true) (hsub : j.sub = 0) (habort : j.abort = false) :
    Answers s .engineRackWaitEnd (fun t k => k = { j with wait := none, vc := (waitEnds s j).vc } ∧ engineDue s .subchunkBoundary ∈ t.agenda) := by
  have hframe := waitEnds_frame s j
  have hsame : sameJob (waitEnds s j) j = true := by
    rw [hframe]
    exact sameJob_iff.2 ⟨rfl, rfl, rfl, rfl⟩
  obtain ⟨hput, hdue⟩ := nextStep_engine hj (u := s) rfl hsame .subchunkBoundary
  refine ⟨_, _, (onEngine_runs hj hrun _).trans ?_, hput, hframe, hdue (.refl s) (by rw [hframe])⟩
  simp only [hclaim, hready, hsub, habort, Option.isNone_some, Bool.not_true, ne_eq, not_true_eq_false, decide_false, Bool.or_self,
    Bool.false_eq_true, if_false]
end Engine

end Sys2Proof.Machine
end

section
/-! The steps of a base die (R405, R406, R413), and the statement about engines and base dies. -/

namespace Sys2Proof.Machine
open Sys2Proof

/-! ## Rows, epochs and row jobs -/

theorem exec_rowPromoteDone {s : State} (hrow : (rowGet s s.arg.addr).row ≠ 0) (hbusy : (rowGet s s.arg.addr).busy = true)
    (hback : (rowGet s s.arg.addr).writingBack = false) : exec .rowPromoteDone s = .next (replayRows
      (rowPut s s.arg.addr { rowGet s s.arg.addr with busy := false, held := [] }) s.arg.stack (rowGet s s.arg.addr).held) :=
  congrArg _ (if_pos (by simp [hrow, hbusy, hback]))

/-- What a slot that is written back holds next: nothing, or the row that evicted its own (R406). -/
def writtenBack (s : State) : State :=
  match (rowGet s s.arg.addr).next with
  | some n => promoteInto s s.arg.stack s.arg.addr n.1 n.2
  | none => rowPut s s.arg.addr default

theorem exec_rowWritebackDone {s : State} (hrow : (rowGet s s.arg.addr).row ≠ 0) (hback : (rowGet s s.arg.addr).writingBack = true) :
    exec .rowWritebackDone s = .next (replayRows (writtenBack s) s.arg.stack (rowGet s s.arg.addr).held) :=
  congrArg _ (if_pos (by simp [hrow, hback]))

theorem writtenBack_frame (s : State) : ∃ rw ag, writtenBack s = { s with rows := rw, agenda := ag } := by
  unfold writtenBack
  split
  · exact (promoteInto_rows ..).frame
  · exact (rowPut_rows ..).frame

theorem writtenBack_none {s : State} (h : (rowGet s s.arg.addr).next = none) : writtenBack s = rowPut s s.arg.addr default := by
  rw [writtenBack, h]

theorem writtenBack_some {s : State} {n : Nat × Bool} (h : (rowGet s s.arg.addr).next = some n) :
    writtenBack s = promoteInto s s.arg.stack s.arg.addr n.1 n.2 := by
  rw [writtenBack, h]

theorem exec_epochTick {s : State} (h : s.arg.stack < 16) : exec .epochTick s = .next
    { s with stEpoch := SMap.put 0 s.stEpoch s.arg.stack (SMap.get 0 s.stEpoch s.arg.stack + 1) } :=
  congrArg _ (if_pos h)

/-- A base die's oldest row job leaves its table, its entry for the next id. -/
def rowJobGone (j : RowJob) (st : Nat) (u : State) : State := bumpGen { u with rowJobs := u.rowJobs.erase j } st j.entry

def rowRecord (s : State) (j : RowJob) : List Byte := leBytes 4 4 ++ leBytes 4 j.id.toNat ++ leBytes 8 s.clock.toNat

theorem exec_rowJobDone {s : State} {j : RowJob} (h : s.rowJobs.find? (fun j => j.stack = s.arg.stack) = some j) :
    exec .rowJobDone s = .next (rowJobGone j s.arg.stack (putRecord s (fieldBuf s.arg.stack) j.ctx 0xFFFF j.comp.toNat (rowRecord s j)
      ⟨6, Config.rowWriter s.arg.stack, 0⟩ (sysRel j.ctx j.vc :: rowRel j))) := by
  change Host.Outcome.next (endRow s s.arg.stack) = _
  rw [endRow, h]
  rfl

/-! ## The statement -/

/-- Settles O50: the step of an engine acts on the one job it runs, and what its accesses leave of the jobs and of the contexts' fields keeps
that job in its table and its next step due for the same engine; the base dies' steps are read off. -/
theorem engineAndRowEvents : Obligations.EngineAndRowEvents := by
  unfold Obligations.EngineAndRowEvents
  intro s
  refine ⟨?take, ?run, ?rows, ?epoch, ?rowJob⟩
  case take =>
    intro j heng hidle hpick
    refine ⟨jobTake_refuses hpick heng hidle rfl, fun f halign hopt hread => jobTake_unread hpick heng hidle rfl halign hopt hread,
      fun s2 d halign hopt hland hread hnext hok => ?_⟩
    obtain ⟨t, hexec, hmem, hdue⟩ := jobTake_begins hpick heng hidle rfl halign hopt hland hread hnext hok
    exact ⟨t, _, hexec, hmem, rfl, rfl, rfl, rfl, rfl, rfl, hdue⟩
  case run =>
    intro j hj hrun
    refine ⟨?copy, ?dev, ?abort, ?held, ?gather, ?writes, ?chunk, ?chunkOut, ?claim, ?waitEnd⟩
    case copy =>
      intro hcopy hdev hfull hready habort hroom
      exact ⟨fun f hf => exec_subchunk_copyFault hj hrun hfull hready habort hroom hcopy hdev rfl rfl rfl (heldWork_unheld hf _ _),
        fun s0 h hh => ⟨fun f hf => exec_subchunk_copyFault hj hrun hfull hready habort hroom hcopy hdev rfl rfl rfl (heldWork_error hh hf),
          fun s1 b => exec_subchunk_copies hj hrun hfull hready habort hroom hcopy hdev rfl rfl rfl hh⟩⟩
    case dev =>
      intro s1 b hdev hxf hfull hready habort hroom
      exact ⟨fun hout => exec_subchunk_held hj hrun hfull hready habort (.inl ⟨hdev, hout⟩),
        fun hout => exec_subchunk_unit hj hrun hfull hready habort hroom hdev hxf hout⟩
    case abort => exact fun hfull hready habort => (exec_subchunk hj hrun hfull hready).trans (congrArg _ (if_pos habort))
    case held => exact fun hfull hready habort hroom => exec_subchunk_held hj hrun hfull hready habort (.inr hroom)
    case gather =>
      intro hgather _ hfull hready habort hroom
      have hexec := exec_subchunk_gather hj hrun hfull hready habort hroom hgather
      exact ⟨fun f hf => hexec.trans (congrArg _ (workJob_gather_fault hgather hf)),
        fun s1 z hz _ => exec_subchunk_gathers hj hrun hfull hready habort hroom hgather hz⟩
    case writes => exact fun n b i _ hrack hi => gatherWrites_rack hrack s b hi
    case chunk =>
      intro hfull hout habort
      refine ⟨fun u k hk => ⟨exec_chunk_goes hj hrun hfull hout habort hk, ?_⟩, fun u hu => exec_chunk_stops hj hrun hfull hout habort hu⟩
      rw [boundary_job hk]
      exact ⟨rfl, rfl, rfl, rfl, rfl⟩
    case chunkOut => exact exec_chunk_out hj hrun
    case claim =>
      intro hrack hwait hsub habort hclaim hready
      exact ⟨exec_rackClaim_bad hj hrun hrack hwait hsub habort,
        fun r hr hsize => exec_rackClaim_claims hj hrun hrack hwait hsub habort hr hsize hclaim hready⟩
    case waitEnd => exact fun c hclaim hready hsub habort => exec_rackWaitEnd hj hrun hclaim hready hsub habort
  case rows =>
    intro hwf
    refine ⟨fun hrow hbusy hback => ⟨_, exec_rowPromoteDone hrow hbusy hback, (rowGet_rowPut hwf ..).trans (if_pos rfl), rfl⟩,
      fun hrow hback => ⟨_, exec_rowWritebackDone hrow hback, ?_, fun hnone => ?_, fun n hnext _ => ?_⟩⟩
    · obtain ⟨_, _, hframe⟩ := writtenBack_frame s
      rw [hframe]
    · rw [writtenBack_none hnone]
      exact ⟨(rowGet_rowPut hwf ..).trans (if_pos rfl), rfl⟩
    · rw [writtenBack_some hnext]
      exact ⟨List.mem_append_right _ (.head _), (rowGet_rowPut hwf ..).trans (if_pos rfl)⟩
  case epoch => exact fun hstack hwf => ⟨_, exec_epochTick hstack, SMap.get_put_self hwf _ _, rfl⟩
  case rowJob =>
    intro j hj
    refine ⟨fun u hu => (exec_rowJobDone hj).trans ?_, fun f hf => (exec_rowJobDone hj).trans ?_⟩
    · rw [putRecord, rowRecord, hu]
      rfl
    · rw [putRecord, rowRecord, hf]
      rfl

end Sys2Proof.Machine
end

section
/-! The statement about engine commands (R77, R258): a reply reads back in a group of canonical registers, and the statement asks that of no
group. -/

namespace Sys2Proof.Machine
open Sys2Proof

/-- A register that a completing instruction wrote reads as its word once the group has moved on. -/
theorem slotS_finish_written {s : State} {g h : Group} {n k v r : Nat} (hwritten : WrittenS g h n k v) (hk : 0 < k)
    (hread : slotS (finish s h) g.core g.slot n = some r) : r = wordOfVal v 0 := by
  obtain ⟨hframe, hword, -⟩ := hwritten
  have hcore : h.core = g.core := (congrArg Group.core hframe).trans rfl
  have hslot : h.slot = g.slot := (congrArg Group.slot hframe).trans rfl
  calc r = rdS h n := (slotS_finish hcore hslot hread).symm
    _ = wordOfVal v 0 := hword 0 hk

/-- `CPY.ST` of the job id 0, its reply into `s3`. -/
def statusWord : InsWord := ⟨0, 2, .zero, .zero, .zero, false, .s 3, false, 7⟩

/-- `doubledTest` runs the command, which has an encoding, in all lanes and holds no job, so the status is 0 (R258). -/
theorem doubledTest_meets_status : (Instr.cpySt true statusWord).encodable = true ∧ curGroup doubledTest = some doubled ∧ active doubled statusWord ≠ []
    ∧ src64 doubled statusWord false statusWord.opa 0 = 0 ∧ findJob doubledTest doubled.ctx false 0 = none := by decide +kernel

/-- The reply of zero removes the first entry of `s3` and uncovers the second. -/
theorem doubledTest_status_uncovers : slotSAfter (exec (.cpySt true statusWord) doubledTest) 0 0 3 = some 2 := by decide +kernel

/-- Refutes O35: its clause on the status of an id that names no job says that the destination reads 0, and asks no canonical form of the
group's registers; `doubledTest` holds a group for which a write of zero does not read back. -/
theorem not_engineCommands : ¬ Obligations.EngineCommands := by
  intro h
  obtain ⟨-, hcur, hact, hid, hjob⟩ := doubledTest_meets_status
  obtain ⟨-, -, ⟨-, hnone, -⟩, -⟩ := h doubledTest doubled statusWord true hcur hact
  obtain ⟨t, hexec, hreply⟩ := hnone (by rw [hid]; decide) rfl (by rw [hid]; exact hjob)
  have hwritten : WrittenS doubled t 3 1 0 := hreply
  have hread := doubledTest_status_uncovers
  rw [hexec] at hread
  exact absurd (slotS_finish_written hwritten Nat.one_pos hread) (by decide)

end Sys2Proof.Machine
end

section
/-! The statement about the matrix arrays (R33 to R36, R40, R43, R45, R47, R313, R314, R317, R319): how a quarter's operations begin and
complete, and what an element of each form is. -/

namespace Sys2Proof.Machine
open Sys2Proof

/-! ## The operations of a quarter (R319) -/

/-- `t` is `s` with steps put on the agenda. -/
def AgendaGrows (s t : State) : Prop := t = { s with agenda := t.agenda } ∧ s.agenda ⊆ t.agenda

theorem AgendaGrows.refl (s : State) : AgendaGrows s s := ⟨rfl, List.Subset.refl _⟩

theorem AgendaGrows.trans {s t u : State} (hst : AgendaGrows s t) (htu : AgendaGrows t u) : AgendaGrows s u := by
  obtain ⟨ht, hsub⟩ := hst
  obtain ⟨hu, hsub'⟩ := htu
  refine ⟨hu.trans ?_, List.Subset.trans hsub hsub'⟩
  rw [ht]

theorem agendaGrows_enqueue (s : State) (i : Instr) (a : Arg) : AgendaGrows s (enqueue s i a) := ⟨rfl, List.subset_append_left ..⟩

theorem agendaGrows_enqueueOnce (s : State) (i : Instr) (a : Arg) : AgendaGrows s (enqueueOnce s i a) := by
  unfold enqueueOnce
  split
  · exact .refl s
  · exact agendaGrows_enqueue s i a

/-- An erase of the first element that a test picks leaves the others it picks. -/
theorem filter_erase_first {α : Type} [DecidableEq α] {p : α → Bool} {l r : List α} {a : α} (h : l.filter p = a :: r) :
    (l.erase a).filter p = r := by
  rw [← List.erase_filter, h, List.erase_cons_head]

/-- The arrays once `op` has begun, at place `n` among the other operations. -/
def begunArrays (l : List MatOp) (op : MatOp) (n : Nat) : List MatOp :=
  (l.erase op).take n ++ [{ op with begun := true }] ++ (l.erase op).drop n

theorem filter_begunArrays {p : MatOp → Bool} {op : MatOp} (h : p { op with begun := true } = false) (l : List MatOp) (n : Nat) :
    (begunArrays l op n).filter p = (l.erase op).filter p := by
  rw [begunArrays, List.filter_append, List.filter_append, List.filter_cons_of_neg (by simp [h]), List.filter_nil, List.append_nil,
    ← List.filter_append, List.take_append_drop]

/-- The oldest queued operation begins, its completion is due, and beside the agenda nothing else changes. -/
theorem exec_mmaBegin {s : State} {op : MatOp} {rest : List MatOp} (hqueue : matQueued s s.arg.core s.arg.quarter = op :: rest)
    (hroom : (matBegun s s.arg.core s.arg.quarter).length < 6) : ∃ t n, exec .mmaBegin s = .next t
      ∧ AgendaGrows (enqueue { s with arrays := begunArrays s.arrays op n } .mmaComplete { core := s.arg.core, quarter := s.arg.quarter }) t := by
  refine ⟨_, (s.arrays.erase op).findIdx (fun o => o.core = s.arg.core && o.quarter = s.arg.quarter && !o.begun), rfl, ?_⟩
  rw [beginMat, hqueue]
  simp only [if_neg (Nat.not_le.2 hroom)]
  refine AgendaGrows.trans ?again (foldl_rel AgendaGrows .refl (fun _ _ _ => .trans) _ (fun _ _ => agendaGrows_enqueueOnce ..) _ _)
  case again =>
    split
    · exact .refl _
    · exact agendaGrows_enqueueOnce ..

/-- An operation that begins leaves the queue. -/
theorem matQueued_begunArrays {s : State} {c q : Nat} {op : MatOp} {rest : List MatOp} (hqueue : matQueued s c q = op :: rest) (n : Nat) :
    matQueued { s with arrays := begunArrays s.arrays op n } c q = rest :=
  (filter_begunArrays (by simp) s.arrays n).trans (filter_erase_first hqueue)

/-- An operation that begins is in its quarter's pipeline. -/
theorem mem_matBegun_begunArrays {s : State} {c q : Nat} {op : MatOp} (hop : op ∈ matQueued s c q) (n : Nat) :
    { op with begun := true } ∈ matBegun { s with arrays := begunArrays s.arrays op n } c q := by
  have hquarter : (op.core = c ∧ op.quarter = q) ∧ op.begun = false := by simpa using (List.mem_filter.1 hop).2
  exact List.mem_filter.2 ⟨by simp [begunArrays], by simp [hquarter.1]⟩

/-- The oldest begun operation leaves the arrays and writes the group that issued it, unless that group has ended (R158). -/
theorem exec_mmaComplete {s : State} {op : MatOp} {rest : List MatOp} (hbegun : matBegun s s.arg.core s.arg.quarter = op :: rest) :
    ∃ t, exec .mmaComplete s = .next t ∧ AgendaGrows
      { s with arrays := s.arrays.erase op, groups := updWhere s.groups (fun g => g.uid = op.guid && g.st ≠ .ending) (matWrite op) } t := by
  refine ⟨_, rfl, ?_⟩
  rw [completeMat, hbegun]
  simp only
  split
  · exact .refl _
  · exact agendaGrows_enqueueOnce ..

/-- A group that an update picks, and leaves in its slot, is found there updated. -/
theorem groupAt_updWhere {s : State} {c k : Nat} {g : Group} {p : Group → Bool} {f : Group → Group} (hg : groupAt s c k = some g)
    (hplace : ∀ a, (f a).core = a.core ∧ (f a).slot = a.slot) (hp : p g = true) :
    groupAt { s with groups := updWhere s.groups p f } c k = some (f g) := by
  have hfind : s.groups.find? (fun a => a.core = c && a.slot = k) = some g := hg
  change (updWhere s.groups p f).find? (fun a => a.core = c && a.slot = k) = _
  rw [find?_updWhere _ _ _ _ (fun a _ => by rw [(hplace a).1, (hplace a).2]), hfind, Option.map_some, if_pos hp]

/-! ## The registers of D (R314, R317) -/

/-- The writes of `k` registers from `n` in each listed lane, of `val l j` to lane `l` of register `n + j`. -/
def tileWrites (n k : Nat) (val : Nat → Nat → Nat) (ls : List Nat) : List (Nat × W32) :=
  ls.flatMap (fun l => (List.range k).map (fun j => (64 * (n + j) + l, BitVec.ofNat 32 (val l j))))

theorem mem_tileWrites {n k : Nat} {val : Nat → Nat → Nat} {ls : List Nat} {p : Nat × W32} : p ∈ tileWrites n k val ls
    ↔ ∃ l ∈ ls, ∃ j < k, p = (64 * (n + j) + l, BitVec.ofNat 32 (val l j)) := by
  simp [tileWrites, eq_comm]

/-- The registers written one after the other, lane by lane. -/
theorem foldl_wrV (n k : Nat) (val : Nat → Nat → Nat) (ls : List Nat) (g : Group) :
    ls.foldl (fun h l => (List.range k).foldl (fun h j => wrV h (n + j) l (val l j)) h) g
      = { g with v := SMap.putAll 0 g.v (tileWrites n k val ls) } := by
  have lane (js : List Nat) (l : Nat) (g : Group) : js.foldl (fun h j => wrV h (n + j) l (val l j)) g
      = { g with v := SMap.putAll 0 g.v (js.map (fun j => (64 * (n + j) + l, BitVec.ofNat 32 (val l j)))) } := by
    induction js generalizing g with
    | nil => rfl
    | cons j js ih => exact ih _
  induction ls generalizing g with
  | nil => rfl
  | cons l ls ih =>
    rw [List.foldl_cons, lane, ih]
    simp only [tileWrites, List.flatMap_cons, SMap.putAll, List.foldl_append]

/-- A register of a listed lane reads as the value written to it. -/
theorem rdV_tileWrites {g : Group} (hg : SMap.wf 0 g.v = true) {n k : Nat} (val : Nat → Nat → Nat) {ls : List Nat} (hlt : ∀ l ∈ ls, l < 64)
    {l j : Nat} (hl : l ∈ ls) (hj : j < k) :
    rdV { g with v := SMap.putAll 0 g.v (tileWrites n k val ls) } (n + j) l = val l j % 2 ^ 32 := by
  have hget : SMap.get 0 (SMap.putAll 0 g.v (tileWrites n k val ls)) (64 * (n + j) + l) = BitVec.ofNat 32 (val l j) := by
    refine SMap.get_putAll_eq hg (fun p hp hk => ?_) ⟨_, mem_tileWrites.2 ⟨l, hl, j, hj, rfl⟩, rfl⟩
    obtain ⟨l', hl', j', -, rfl⟩ := mem_tileWrites.1 hp
    have := hlt l hl
    have := hlt l' hl'
    obtain ⟨rfl, rfl⟩ : l' = l ∧ j' = j := by simp only at hk; omega
    rfl
  exact congrArg BitVec.toNat hget

/-- A register of no listed lane, or of none of the `k` from `n`, keeps its value. -/
theorem rdV_tileWrites_other {g : Group} (hg : SMap.wf 0 g.v = true) {n k : Nat} (val : Nat → Nat → Nat) {ls : List Nat}
    (hlt : ∀ l ∈ ls, l < 64) {m l : Nat} (hl : l < 64) (hout : ¬ (l ∈ ls ∧ n ≤ m ∧ m < n + k)) :
    rdV { g with v := SMap.putAll 0 g.v (tileWrites n k val ls) } m l = rdV g m l := by
  refine congrArg BitVec.toNat (SMap.get_putAll_ne hg (fun p hp hk => hout ?_))
  obtain ⟨l', hl', j', hj', rfl⟩ := mem_tileWrites.1 hp
  have := hlt l' hl'
  obtain ⟨rfl, rfl⟩ : l' = l ∧ n + j' = m := by simp only at hk; omega
  exact ⟨hl', by omega, by omega⟩

/-- What an operation writes to lane `l` of its D register `j`. -/
def matNew (op : MatOp) (g : Group) (f : MForm) (x : InsWord) (z : Bool) (l j : Nat) : Nat :=
  matElem f (x.mod.getLsbD 0) g.width op.a op.b op.c (l % 32) (l / 32 * (1024 / g.width) + j) (if z then 0 else rdV g (vIdx x.dst + j) l)

theorem matWrite_eq {op : MatOp} {f : MForm} {x : InsWord} {z : Bool} (hx : matParts op.x = some (f, x, z)) (g : Group) :
    matWrite op g = { g with v := SMap.putAll 0 g.v (tileWrites (vIdx x.dst) (1024 / g.width) (matNew op g f x z) (lanesOf op.act g.width)) } := by
  rw [matWrite, hx]
  exact foldl_wrV ..

/-- Only `v` registers change, whatever the instruction. -/
theorem matWrite_frame (op : MatOp) (g : Group) : matWrite op g = { g with v := (matWrite op g).v } := by
  cases hx : matParts op.x with
  | none => rw [matWrite, hx]
  | some p =>
    obtain ⟨f, x, z⟩ := p
    rw [matWrite_eq hx]

/-! ## The elements (R33, R43, R313, R314, R317) -/

theorem foldl_add_eq_sum (u : Nat → Int) (l : List Nat) : l.foldl (fun t k => t + u k) 0 = (l.map u).sum := by
  rw [List.sum_eq_foldl, List.foldl_map]

/-- Element j of elements of e bits is in register j div (32 / e), from bit e · (j mod (32 / e)) on. -/
theorem packedElem_eq {e : Nat} (he : e ∣ 32) (m : SMap W32) (l j : Nat) :
    packedElem e m l j = fragW m (j / (32 / e)) l / 2 ^ (e * (j % (32 / e))) % 2 ^ e := by
  have hsplit : 32 = 32 / e * e := (Nat.div_mul_cancel he).symm
  have hpos : 0 < e := Nat.pos_of_dvd_of_pos he (by decide)
  have hreg : j * e / 32 = j / (32 / e) := by
    conv_lhs => rw [hsplit]
    exact Nat.mul_div_mul_right _ _ hpos
  have hbit : j * e % 32 = e * (j % (32 / e)) := by
    conv_lhs => rw [hsplit, Nat.mul_mod_mul_right]
    exact Nat.mul_comm ..
  rw [packedElem, hreg, hbit]

theorem matBits_dvd (f : MForm) : matBits f ∣ 32 := by cases f <;> decide

/-- The forms of float elements share one rule (R44 to R47). -/
theorem matElem_float {f : MForm} (hsb4 : f ≠ .sb4) (hi8 : f ≠ .i8) (sat : Bool) (w : Nat) (a : SMap W32) (b : List (SMap W32)) (c : SMap W32)
    (i n old : Nat) : matElem f sat w a b c i n old = accF old (groupSumX ((List.range (matK f)).map (fun k =>
      (FVal.decode (matFmts f).1 (elemA f w a i k)).mul (FVal.decode (matFmts f).2 (elemB f w b n k))))) := by
  cases f
  case sb4 => exact absurd rfl hsb4
  case i8 => exact absurd rfl hi8
  all_goals rfl

theorem matElem_i8 (sat : Bool) (w : Nat) (a : SMap W32) (b : List (SMap W32)) (c : SMap W32) (i n old : Nat) :
    matElem .i8 sat w a b c i n old = fit false sat (sext old 32
      + ((List.range 32).map (fun k => sext (elemA .i8 w a i k) 8 * sext (elemB .i8 w b n k) 8)).sum) 32 := by
  rw [← foldl_add_eq_sum]
  rfl

/-- The sum of a k-block's level products. -/
def levelSum (sa sb ca cb : Nat) : Int := ((List.range 8).map (fun j => sb4Level sa (ca / 16 ^ j % 16) * sb4Level sb (cb / 16 ^ j % 16))).sum

/-- The term of a k-block whose cuffs name their selectors (R43). -/
theorem sb4Term_eq {ca cuffA cb cuffB sa sb : Nat} (ha : cuffSel cuffA = some sa) (hb : cuffSel cuffB = some sb) :
    sb4Term ca cuffA cb cuffB = .fin (decide (levelSum sa sb ca cb < 0))
      ((levelSum sa sb ca cb).natAbs * e3m5 (cuffA % 256) * e3m5 (cuffB % 256)) (sb4Lambda sa + sb4Lambda sb - 16) := by
  rw [sb4Term, ha, hb, foldl_add_eq_sum]
  rfl

/-! ## The statement -/

/-- Settles O30: an erase of a quarter's oldest operation leaves its others in order; the D writes are one write of sparse keys, no two
the same; and the elements are read where the layout places them. -/
theorem matrixArrays : Obligations.MatrixArrays := by
  unfold Obligations.MatrixArrays
  refine ⟨fun s op rest => ⟨?begins, ?completes⟩, ?elements⟩
  case begins =>
    intro hqueue hroom
    obtain ⟨t, n, hexec, ht, hagenda⟩ := exec_mmaBegin hqueue hroom
    have hop : op ∈ matQueued s s.arg.core s.arg.quarter := by rw [hqueue]; exact .head _
    refine ⟨t, hexec, ?_, ?_, hagenda (List.mem_append_right _ (.head _)), ?_⟩
    · rw [ht]
      exact matQueued_begunArrays hqueue n
    · rw [ht]
      exact mem_matBegun_begunArrays hop n
    · rw [ht]
      rfl
  case completes =>
    intro g f x z hbegun hg hok huid hlive hx
    obtain ⟨t, hexec, ht, -⟩ := exec_mmaComplete hbegun
    obtain ⟨hv, -⟩ := (Group.ok_iff g).1 hok
    have hplace (a : Group) : (matWrite op a).core = a.core ∧ (matWrite op a).slot = a.slot := by
      rw [matWrite_frame]
      exact ⟨rfl, rfl⟩
    have hlane {l : Nat} : l ∈ lanesOf op.act g.width ↔ l < g.width ∧ op.act.getLsbD l = true := mem_lanesOf
    have hlt : ∀ l ∈ lanesOf op.act g.width, l < 64 := fun l hl => BitVec.lt_of_getLsbD (hlane.1 hl).2
    refine ⟨t, matWrite op g, hexec, ?_, matWrite_frame op g, by rw [ht], fun l j hl hj => ?_, fun k l hl hout => ?_⟩
    · rw [ht]
      exact groupAt_updWhere hg hplace (by simp [huid, hlive])
    · rw [matWrite_eq hx]
      exact rdV_tileWrites hv _ hlt (hlane.2 hl) hj
    · rw [matWrite_eq hx]
      exact rdV_tileWrites_other hv _ hlt hl (by rw [hlane]; exact hout)
  case elements =>
    intro sat w a b c i n old _ word packed elA elB floats
    have hA (f : MForm) : elA (matK f) (matBits f) = elemA f w a i := funext fun k => (packedElem_eq (matBits_dvd f) ..).symm
    have hB (f : MForm) : elB (matK f) (matBits f) = elemB f w b n := funext fun k => (packedElem_eq (matBits_dvd f) ..).symm
    have float (f : MForm) (hsb4 : f ≠ .sb4) (hi8 : f ≠ .i8) : floats f (matK f) (matBits f) (matFmts f).1 (matFmts f).2 := by
      simp only [floats, hA, hB]
      exact matElem_float hsb4 hi8 ..
    refine ⟨float .bf16 nofun nofun, float .f16 nofun nofun, float .e4m3 nofun nofun, float .e5m2 nofun nofun, float .e4e5 nofun nofun,
      float .e5e4 nofun nofun, ?i8, ?sb4⟩
    case i8 =>
      rw [matElem_i8, ← hA, ← hB]
      rfl
    case sb4 =>
      intro laneA laneB regA regB bq cuffA cuffB codeA codeB sa sb hsel sum
      refine congrArg (fun blocks => accSb4 old blocks _ _) (List.map_congr_left fun kb hkb => ?_)
      obtain ⟨ha, hb⟩ := hsel kb (List.mem_range.1 hkb)
      exact sb4Term_eq ha hb

end Sys2Proof.Machine
end

section
/-! The statement about loading and saving queues (R325, R341): the status of a queue that is saved reads back in a group of canonical
registers, and the statement asks that of no group. -/

namespace Sys2Proof.Machine
open Sys2Proof

/-- `QCBST` of slot 0, its status into `s3`. -/
def saveWord : InsWord := ⟨0, 0, .zero, .zero, .zero, false, .s 3, false, 7⟩

/-- `doubledTest` with a MAPPED-IDLE queue in slot 0, which the group's partition owns. -/
def doubledQueue : State :=
  { doubledTest with hwslots := updAt State.reset.hwslots 0 (fun h => { h with owned := true, map := true, qst := 3 }) }

/-- The command, which has an encoding, is one that R341 answers with 0: it runs in all lanes, and the queue is idle. -/
theorem doubledQueue_meets : (Instr.qcbst saveWord).encodable = true ∧ curGroup doubledQueue = some doubled ∧ active doubled saveWord ≠ []
    ∧ doubledQueue.ok = true ∧ src32 doubled saveWord saveWord.opa 0 = 0 ∧ slotOwned (slotAt doubledQueue 0) doubled.part = true
    ∧ (slotAt doubledQueue 0).map = true ∧ (slotAt doubledQueue 0).qst = 3 := by decide +kernel

/-- The status of zero removes the first entry of `s3` and uncovers the second. -/
theorem doubledQueue_status_uncovers : slotSAfter (exec (.qcbst saveWord) doubledQueue) 0 0 3 = some 2 := by decide +kernel

/-- Refutes O34: its clause on a `QCBST` that saves an idle queue says that the destination reads 0, and asks no canonical form of the
group's registers; `doubledQueue` holds a group for which a write of zero does not read back. -/
theorem not_queueMapping : ¬ Obligations.QueueMapping := by
  intro h
  obtain ⟨-, hcur, hact, hok, hslot, howned, hmapped, hstate⟩ := doubledQueue_meets
  obtain ⟨-, -, -, -, -, hsave⟩ := h doubledQueue doubled saveWord hcur hact hok
  rw [hslot] at hsave
  obtain ⟨-, hidle⟩ := hsave (by decide) (by decide) howned hmapped
  obtain ⟨u, t, hexec, hstatus, -⟩ := hidle (by rw [hstate]; decide)
  have hwritten : WrittenS doubled t 3 1 0 := hstatus
  have hread := doubledQueue_status_uncovers
  rw [hexec] at hread
  exact absurd (slotS_finish_written hwritten Nat.one_pos hread) (by decide)

end Sys2Proof.Machine
end

section
/-! What the queue map's own steps leave (R328, R333, R334): the steps they make due, the reads of the dispatcher, the slots of the hardware
queues, and the slot that the dispatcher picks. -/

namespace Sys2Proof.Machine
open Sys2Proof

/-! ## Steps made due -/

theorem AgendaGrows.reads {s t : State} (h : AgendaGrows s t) : ReadsFrame s t := by
  obtain ⟨ht, -⟩ := h
  refine ⟨⟨s.tlb, s.rows, t.agenda, s.out, s.nextId, ht⟩, [], ?_, nofun⟩
  rw [ht, List.append_nil]

theorem dispatch_grows (s : State) (p : Nat) : AgendaGrows s (dispatch s p) := by
  unfold dispatch
  split
  · exact agendaGrows_enqueueOnce ..
  · exact .refl s

theorem admitSlot_grows (s : State) (k : Nat) : AgendaGrows s (admitSlot s k) :=
  foldl_rel AgendaGrows .refl (fun _ _ _ => .trans) _ (fun _ _ => .trans (agendaGrows_enqueueOnce ..)
    (foldl_rel AgendaGrows .refl (fun _ _ _ => .trans) _ (fun _ _ => agendaGrows_enqueueOnce ..) _ _)) _ _

/-! ## The dispatcher's reads (R323, R401) -/

theorem readEffect_reads (s : State) (r : UnitRead) : ReadsFrame s (readEffect s r) :=
  .trans _ _ _ (cacheEnts_reads ..) (foldl_rel ReadsFrame .refl .trans _ (fun _ _ => unitTouch_reads ..) _ _)

theorem pktTouch_reads (s : State) (h : HwSlot) (va n : Nat) : ReadsFrame s (pktTouch s h va n) := by
  unfold pktTouch agentTouch
  split
  · exact readEffect_reads ..
  · exact .refl s

theorem qcbTouch_reads (s : State) (p q : Nat) : ReadsFrame s (qcbTouch s p q) := (touchRows_rows ..).reads

/-- Reads change no slot, no packet, no byte and nothing that the queues have observed. -/
theorem ReadsFrame.keeps {s t : State} (h : ReadsFrame s t) :
    t.hwslots = s.hwslots ∧ t.pkts = s.pkts ∧ t.mem = s.mem ∧ t.qclk = s.qclk := by
  obtain ⟨⟨_, _, _, _, _, rfl⟩, -⟩ := h
  exact ⟨rfl, rfl, rfl, rfl⟩

/-! ## Slots (R332) -/

theorem slotAt_of_hwslots {s t : State} (h : t.hwslots = s.hwslots) (k : Nat) : slotAt t k = slotAt s k := by
  rw [slotAt, h, slotAt]

theorem slotAt_updSlot_self {s : State} {k : Nat} (hk : k < s.hwslots.length) (f : HwSlot → HwSlot) :
    slotAt (updSlot s k f) k = f (slotAt s k) := by
  rw [slotAt_updSlot s k k f hk, if_pos rfl]

theorem slotAt_updSlot_other {s : State} {j k : Nat} (hj : j ≠ k) (f : HwSlot → HwSlot) : slotAt (updSlot s k f) j = slotAt s j := by
  simp only [slotAt, updSlot, List.getD_eq_getElem?_getD, getElem?_updAt, if_neg hj]

theorem slotAt_startPkt {s : State} {k : Nat} (hk : k < s.hwslots.length) :
    slotAt (startPkt s k) k = { slotAt s k with ridx := (slotAt s k).ridx + 1, infl := (slotAt s k).infl + 1 } :=
  slotAt_updSlot_self hk _

/-! ## The slots that could start a packet (R334) -/

/-- A slot put into the deadline order of the others. -/
def insertSooner (s : State) (k : Nat) (r : List Nat) : List Nat :=
  let before := r.takeWhile (fun j => sooner s j k)
  before ++ [k] ++ r.drop before.length

theorem startable_eq (s : State) (p : Nat) :
    startable s p = ((List.range 64).filter (fun k => slotOwned (slotAt s k) p && couldStart s k)).foldr (insertSooner s) [] := rfl

theorem mem_of_mem_insertSooner {s : State} {j k : Nat} {r : List Nat} (h : j ∈ insertSooner s k r) : j = k ∨ j ∈ r := by
  simp only [insertSooner, List.mem_append, List.mem_singleton] at h
  obtain (h | h) | h := h
  · exact .inr (List.takeWhile_subset _ h)
  · exact .inl h
  · exact .inr (List.mem_of_mem_drop h)

theorem mem_of_mem_foldr_insertSooner {s : State} {j : Nat} {l : List Nat} (h : j ∈ l.foldr (insertSooner s) []) : j ∈ l := by
  induction l with
  | nil => cases h
  | cons k r ih =>
    obtain rfl | h := mem_of_mem_insertSooner h
    · exact .head r
    · exact .tail k (ih h)

/-- A slot that the dispatcher may pick holds a queue that is MAPPED-ACTIVE (R328). -/
theorem qst_of_mem_startable {s : State} {k p : Nat} (h : k ∈ startable s p) : (slotAt s k).qst = 4 := by
  rw [startable_eq] at h
  have hstart := (List.mem_filter.1 (mem_of_mem_foldr_insertSooner h)).2
  simp only [couldStart, Bool.and_eq_true, decide_eq_true_eq] at hstart
  exact hstart.2.1.1.1.1.2

/-! ## Periods (R333) -/

/-- What a release does to its own slot: the end of its period. -/
def releasedSlots (s : State) (k : Nat) : State := updSlot s k (fun h =>
  { h with ovr := h.ovr || decide ((slotAt s k).infl ≠ 0), ovrc := if (slotAt s k).infl ≠ 0 then h.ovrc + 1 else h.ovrc, relt := h.deadl
           deadl := h.deadl + BitVec.ofNat 64 (h.period.toNat * 1050), used := 0, thr := false })

/-- A release tells of an overrun, ends the period, and makes steps due. -/
theorem releaseSlot_grows (s : State) (k : Nat) : AgendaGrows
    { releasedSlots s k with
      out := s.out ++ if (slotAt s k).infl = 0 then [] else [.overrun k (slotAt s k).qnum (slotAt s k).ridx (slotAt s k).infl] }
    (releaseSlot s k) := by
  refine .trans ?_ (.trans (admitSlot_grows _ k) (dispatch_grows _ _))
  by_cases h : (slotAt s k).infl = 0
  · simp only [h, ne_eq, not_true_eq_false, if_false, if_true, List.append_nil, releasedSlots]
    exact .refl _
  · simp only [h, ne_eq, not_false_eq_true, if_true, if_false, releasedSlots]
    exact .refl _

theorem slotAt_releasedSlots_self {s : State} {k : Nat} (hk : k < s.hwslots.length) :
    slotAt (releasedSlots s k) k =
      { slotAt s k with
        ovr := (slotAt s k).ovr || decide ((slotAt s k).infl ≠ 0)
        ovrc := if (slotAt s k).infl = 0 then (slotAt s k).ovrc else (slotAt s k).ovrc + 1, relt := (slotAt s k).deadl
        deadl := (slotAt s k).deadl + BitVec.ofNat 64 ((slotAt s k).period.toNat * 1050), used := 0, thr := false } := by
  rw [releasedSlots, slotAt_updSlot_self hk, ite_not]

/-- At its deadline a slot's period is released. -/
theorem exec_slotDeadline {s : State} (hk : s.arg.slot < 64) (hmap : (slotAt s s.arg.slot).map = true)
    (hperiod : (slotAt s s.arg.slot).period ≠ 0) (hdue : (slotAt s s.arg.slot).deadl.toNat ≤ s.clock.toNat) :
    exec .slotDeadline s = .next (releaseSlot s s.arg.slot) := by
  refine congrArg Host.Outcome.next (if_pos ?_)
  simpa [hk, hmap, hdue] using hperiod

/-- A slot whose budget is used up is throttled. -/
theorem exec_slotBudgetExhausted {s : State} (hk : s.arg.slot < 64) (hmap : (slotAt s s.arg.slot).map = true)
    (hperiod : (slotAt s s.arg.slot).period ≠ 0) (hbudget : (slotAt s s.arg.slot).budget ≠ 0)
    (hused : 1000 * (slotAt s s.arg.slot).budget.toNat ≤ (slotAt s s.arg.slot).used.toNat) :
    exec .slotBudgetExhausted s = .next (updSlot s s.arg.slot (fun h => { h with thr := true })) := by
  refine congrArg Host.Outcome.next (if_pos ?_)
  simpa [hk, hmap, hused] using ⟨hperiod, hbudget⟩

end Sys2Proof.Machine
end

section
/-! Reads of memory do not see what the queue map keeps: its slots, its packets in flight and what its queues have observed. -/

namespace Sys2Proof.Machine
open Sys2Proof

/-- `t` is `s` but for what the queue map keeps. -/
def QueueOnly (s t : State) : Prop := ∃ hs ps qc, t = { s with hwslots := hs, pkts := ps, qclk := qc }

section QueueOnly
variable {s t : State} (h : QueueOnly s t)
include h

/-! ## Translations (R203, R205) -/

theorem walkFrom_queueOnly (va : Nat) (lvls : List Nat) (a : Nat) : walkFrom t va lvls a = walkFrom s va lvls a := by
  obtain ⟨_, _, _, rfl⟩ := h
  induction lvls generalizing a with
  | nil => rfl
  | cons lvl rest ih =>
    rw [walkFrom, walkFrom]
    simp only [ih]
    rfl

theorem plainEnt_queueOnly (buf ctx va : Nat) : plainEnt t buf ctx va = plainEnt s buf ctx va := by
  have hwalk : walkRaw t ctx va = walkRaw s ctx va := by
    rw [walkRaw, walkFrom_queueOnly h, walkRaw]
    obtain ⟨_, _, _, rfl⟩ := h
    rfl
  rw [plainEnt, plainEnt, hwalk]
  obtain ⟨_, _, _, rfl⟩ := h
  rfl

theorem normalLoc_queueOnly (e : TlbEnt) (va : Nat) : normalLoc t e va = normalLoc s e va := by
  obtain ⟨_, _, _, rfl⟩ := h
  rfl

theorem unitBytes_queueOnly (loc : Loc) (va n : Nat) : unitBytes t loc va n = unitBytes s loc va n := by
  obtain ⟨_, _, _, rfl⟩ := h
  rfl

theorem shapeDesc_queueOnly (buf ctx va i pidx : Nat) : shapeDesc t buf ctx va i pidx = shapeDesc s buf ctx va i pidx := by
  have hctx : ctxOf t ctx = ctxOf s ctx := by
    obtain ⟨_, _, _, rfl⟩ := h
    rfl
  simp only [shapeDesc, descAt, hctx, plainEnt_queueOnly h, normalLoc_queueOnly h, unitBytes_queueOnly h]

theorem lookup_queueOnly (buf ctx va : Nat) : lookup t buf ctx va = lookup s buf ctx va := by
  simp only [lookup, plainEnt_queueOnly h, shapeDesc_queueOnly h]

theorem normalAt_queueOnly (buf ctx va : Nat) : normalAt t buf ctx va = normalAt s buf ctx va := by
  simp only [normalAt, lookup_queueOnly h, normalLoc_queueOnly h]

theorem locOf_queueOnly (e : TlbEnt) (va : Nat) : locOf t e va = locOf s e va := by
  obtain ⟨_, _, _, rfl⟩ := h
  rfl

theorem partBuf_queueOnly (p : Nat) : partBuf t p = partBuf s p := by
  obtain ⟨_, _, _, rfl⟩ := h
  rfl

/-! ## Reads for a packet (R330) -/

theorem winLoad_queueOnly (buf ctx va n : Nat) : winLoad t buf ctx va n = winLoad s buf ctx va n := by
  simp only [winLoad, unitRead, normalAt_queueOnly h, unitBytes_queueOnly h]

/-- A packet's read is that of its partition and context. -/
theorem pktRead_queueOnly {g k : HwSlot} (hpart : k.part = g.part) (hctx : k.ctx = g.ctx) (va n off : Nat) :
    pktRead t k va n off = pktRead s g va n off := by
  simp only [pktRead, hpart, hctx, partBuf_queueOnly h, lookup_queueOnly h, winLoad_queueOnly h]

theorem pktSees_queueOnly {g k : HwSlot} (hpart : k.part = g.part) (hctx : k.ctx = g.ctx) (va n : Nat) :
    pktSees t k va n = pktSees s g va n := by
  simp only [pktSees, hpart, hctx, partBuf_queueOnly h, normalAt_queueOnly h]
  obtain ⟨_, _, _, rfl⟩ := h
  rfl

theorem signalBad_queueOnly (g : HwSlot) (b : List Byte) : signalBad t g b = signalBad s g b := by
  simp only [signalBad, partBuf_queueOnly h, lookup_queueOnly h, locOf_queueOnly h]
  obtain ⟨_, _, _, rfl⟩ := h
  rfl

end QueueOnly

end Sys2Proof.Machine
end

section
/-! The dispatcher's step (R328, R329, R334): the head packet that it picks is tried, and what its try makes of the machine. -/

namespace Sys2Proof.Machine
open Sys2Proof

/-! ## The head that is tried -/

/-- The step under way is that of slot `k`, which the dispatcher picks, and `b` is its head packet. -/
structure HeadPicked (s : State) (k : Nat) (b : List Byte) : Prop where
  slot : s.arg.slot = k
  slot_lt : k < 64
  banks : s.hwslots.length = 64
  picked : ∃ rest, startable s (slotAt s k).part = k :: rest
  bytes : headBytes s (slotAt s k) = .ok b
  packet : headPkt s (slotAt s k) = some b

/-- The machine once the dispatcher has read the head packet, an acquire (R337). -/
def headSeen (s : State) (k : Nat) : State :=
  noteQueue s (kickKey (slotAt s k).part (slotAt s k).qnum) (pktSees s (slotAt s k) (headAddr s (slotAt s k)) 64)

theorem headSeen_queueOnly (s : State) (k : Nat) : QueueOnly s (headSeen s k) := ⟨_, _, _, rfl⟩

/-- The try of a packet of kind `n` that is not malformed and waits for no earlier work. -/
def tryKind (n : Nat) (s : State) (k : Nat) (b : List Byte) : Try :=
  match n with
  | 1 => tryLaunch s k b
  | 2 => tryCopy s k b
  | 3 => tryWait s k b
  | 4 => trySignal s k b
  | 5 => .go (fenceDone s k)
  | _ => .go (packetDone (startPkt s k) k [])

/-- The head picked is of kind `n` and well formed, and the earlier work that it follows is performed (R329). -/
structure HeadReady (s : State) (k : Nat) (b : List Byte) (n : Nat) : Prop extends HeadPicked s k b where
  kind : fld b 0 1 = n
  wellFormed : packetBad s (slotAt s k) b = none
  quiet : bit (fld b 1 1) 0 = true ∨ fld b 0 1 = 5 → workQuiet s (slotAt s k).ctx = true

theorem exec_packetStep (n : Nat) (s : State) : exec (packetStep n) s = packetHead (packetStep n) s := by
  unfold packetStep
  split <;> rfl

theorem firstTry_cons {s : State} {k : Nat} {t : Try} (rest : List Nat) (ht : tryHead s k = t) (hgoes : t ≠ .wait) :
    firstTry s (k :: rest) = some (k, t) := by
  cases t with
  | wait => exact absurd rfl hgoes
  | bad | go => rw [firstTry, ht]

section Head
variable {s : State} {k : Nat} {b : List Byte} (hp : HeadPicked s k b)
include hp

theorem HeadPicked.in_banks : k < s.hwslots.length := hp.banks.symm ▸ hp.slot_lt

theorem HeadPicked.active : (slotAt s k).qst = 4 := by
  obtain ⟨rest, hrest⟩ := hp.picked
  exact qst_of_mem_startable (p := (slotAt s k).part) (by rw [hrest]; exact .head rest)

/-- The step of the packet's kind makes of the machine what the try does. -/
theorem HeadPicked.exec_of_try {i : Instr} {t : Try} (hi : packetStep (fld b 0 1) = i) (ht : tryHead s k = t) (hgoes : t ≠ .wait) :
    exec i s = .next (applyTry s k t) := by
  obtain ⟨rest, hrest⟩ := hp.picked
  have hkind : headKind s k = fld b 0 1 := by rw [headKind, hp.packet]
  have hlt := hp.slot_lt
  rw [← hi, exec_packetStep, packetHead, hp.slot, hrest, firstTry_cons rest ht hgoes, hkind]
  simp only [decide_true, Bool.and_self, if_true, if_neg (Nat.not_le.2 hlt)]

/-- A malformed packet is not started (R330). -/
theorem HeadPicked.exec_malformed {e : Nat × Nat} (hbad : packetBad s (slotAt s k) b = some e) :
    exec (packetStep (fld b 0 1)) s = .next (dispatch (headError s k e.1 e.2) (slotAt s k).part) := by
  have hseen : packetBad (headSeen s k) (slotAt s k) b = some e := hbad
  rw [headSeen] at hseen
  exact hp.exec_of_try (t := .bad e) rfl (by simp only [tryHead, hp.bytes, hseen]) nofun

end Head

section Ready
variable {s : State} {k n : Nat} {b : List Byte} {i : Instr} (hr : HeadReady s k b n)
include hr

theorem HeadReady.try_kind : tryHead s k = tryKind n (headSeen s k) k b := by
  have hseen : packetBad (headSeen s k) (slotAt s k) b = none := hr.wellFormed
  have hwaits : ((bit (fld b 1 1) 0 || decide (fld b 0 1 = 5)) && !workQuiet (headSeen s k) (slotAt s k).ctx) = false := by
    have hsame : workQuiet (headSeen s k) (slotAt s k).ctx = workQuiet s (slotAt s k).ctx := rfl
    rw [hsame, Bool.and_eq_false_iff, Bool.not_eq_false', Bool.or_eq_false_iff]
    by_cases h : bit (fld b 1 1) 0 = true ∨ fld b 0 1 = 5
    · exact .inr (hr.quiet h)
    · simpa [not_or] using Or.inl h
  rw [headSeen] at hseen hwaits
  rw [← hr.kind]
  simp only [tryHead, hr.bytes, hseen, hwaits]
  rfl

/-- A packet whose try finds it malformed is not started (R330). -/
theorem HeadReady.exec_bad {e : Nat × Nat} (hi : packetStep n = i) (ht : tryKind n (headSeen s k) k b = .bad e) :
    exec i s = .next (dispatch (headError s k e.1 e.2) (slotAt s k).part) :=
  hr.exec_of_try (hr.kind ▸ hi) (hr.try_kind.trans ht) nofun

/-- A packet that starts, with the dispatcher going on. -/
theorem HeadReady.exec_go {u : State} (hi : packetStep n = i) (ht : tryKind n (headSeen s k) k b = .go u) :
    exec i s = .next (applyTry s k (.go u)) :=
  hr.exec_of_try (hr.kind ▸ hi) (hr.try_kind.trans ht) nofun

end Ready

/-! ## After a start -/

/-- The machine once the queue map and the packet have been read for the start that led to `u` (R406). -/
def headRead (s : State) (k : Nat) (u : State) : State :=
  pktTouch (qcbTouch u (slotAt s k).part (slotAt s k).qnum) (slotAt s k) (headAddr s (slotAt s k)) 64

theorem headRead_reads (s : State) (k : Nat) (u : State) : ReadsFrame u (headRead s k u) :=
  .trans _ _ _ (qcbTouch_reads ..) (pktTouch_reads ..)

theorem applyTry_go_reads (s : State) (k : Nat) (u : State) : ReadsFrame u (applyTry s k (.go u)) :=
  .trans _ _ _ (headRead_reads s k u) (dispatch_grows ..).reads

end Sys2Proof.Machine
end

section
/-! Packets complete (R328, R329): one completion of a slot's packets, with the queue then MAPPED-IDLE or not; and the packets that start
and complete at once. -/

namespace Sys2Proof.Machine
open Sys2Proof

/-! ## Changes of slots and of what queues have observed -/

/-- `t` is `s` but for the slots, which stay as many, and what the queues have observed. -/
def SlotsOnly (s t : State) : Prop := ∃ hs qc, t = { s with hwslots := hs, qclk := qc } ∧ hs.length = s.hwslots.length

theorem SlotsOnly.trans {s t u : State} (h : SlotsOnly s t) (k : SlotsOnly t u) : SlotsOnly s u := by
  obtain ⟨_, _, rfl, hlen⟩ := h
  obtain ⟨_, _, rfl, klen⟩ := k
  exact ⟨_, _, rfl, klen.trans hlen⟩

theorem updSlot_slots (s : State) (k : Nat) (f : HwSlot → HwSlot) : SlotsOnly s (updSlot s k f) := ⟨_, s.qclk, rfl, length_updAt ..⟩

theorem noteQueue_slots (s : State) (key : Nat) (vc : SMap Nat) : SlotsOnly s (noteQueue s key vc) := ⟨s.hwslots, _, rfl, rfl⟩

/-! ## One completion (R328) -/

/-- A packet of a slot is complete: INFL falls, and what its work had observed is noted. -/
def endPkt (s : State) (k : Nat) (vc : SMap Nat) : State :=
  updSlot (noteQueue s (doneKey (slotAt s k).part (slotAt s k).qnum) vc) k (fun h => { h with infl := h.infl - 1 })

/-- The queue of a slot is MAPPED-IDLE. -/
def idleSlot (s : State) (k : Nat) : State := updSlot s k (fun h => { h with qst := 3 })

theorem slotAt_endPkt {s : State} {k : Nat} (hk : k < s.hwslots.length) (vc : SMap Nat) :
    slotAt (endPkt s k vc) k = { slotAt s k with infl := (slotAt s k).infl - 1 } :=
  slotAt_updSlot_self (s := noteQueue s _ vc) hk _

theorem packetDone_eq (s : State) (k : Nat) (vc : SMap Nat) : packetDone s k vc = dispatch
    (if (slotAt (endPkt s k vc) k).qst = 4 && (slotAt (endPkt s k vc) k).infl = 0
        && (slotAt (endPkt s k vc) k).ridx = (slotAt (endPkt s k vc) k).widx then
      schedEvent (idleSlot (endPkt s k vc) k) (slotAt (endPkt s k vc) k).part 2
    else endPkt s k vc) (slotAt (endPkt s k vc) k).part := rfl

theorem packetDone_busy {s : State} {k : Nat} {vc : SMap Nat} (hbusy : (slotAt (endPkt s k vc) k).infl ≠ 0
    ∨ (slotAt (endPkt s k vc) k).ridx ≠ (slotAt (endPkt s k vc) k).widx) :
    packetDone s k vc = dispatch (endPkt s k vc) (slotAt (endPkt s k vc) k).part := by
  rw [packetDone_eq, if_neg]
  simp only [Bool.and_eq_true, decide_eq_true_eq]
  rintro ⟨⟨-, hinfl⟩, hridx⟩
  exact hbusy.elim (· hinfl) (· hridx)

theorem packetDone_idle {s : State} {k : Nat} {vc : SMap Nat} (hactive : (slotAt (endPkt s k vc) k).qst = 4)
    (hinfl : (slotAt (endPkt s k vc) k).infl = 0) (hridx : (slotAt (endPkt s k vc) k).ridx = (slotAt (endPkt s k vc) k).widx) :
    packetDone s k vc = dispatch (schedEvent (idleSlot (endPkt s k vc) k) (slotAt (endPkt s k vc) k).part 2)
      (slotAt (endPkt s k vc) k).part := by
  rw [packetDone_eq, if_pos]
  simp only [Bool.and_eq_true, decide_eq_true_eq]
  exact ⟨⟨hactive, hinfl⟩, hridx⟩

/-- A packet that starts and completes leaves INFL as it was. -/
theorem slotAt_endPkt_startPkt {s : State} {k : Nat} (hk : k < s.hwslots.length) (vc : SMap Nat) :
    slotAt (endPkt (startPkt s k) k vc) k = { slotAt s k with ridx := (slotAt s k).ridx + 1 } := by
  have hlen : k < (startPkt s k).hwslots.length := by rw [startPkt, updSlot, length_updAt]; exact hk
  rw [slotAt_endPkt hlen, slotAt_startPkt hk, BitVec.add_sub_cancel]

/-! ## Packets that start and complete at once -/

/-- The machine with what its queues have observed. -/
def withQclk (s : State) (qc : SMap (SMap Nat)) : State := { s with qclk := qc }

/-- The machine once a packet of slot `k` has started and completed. -/
def completed (s : State) (k : Nat) (qc : SMap (SMap Nat)) : State := endPkt (startPkt (withQclk s qc) k) k []

theorem slotAt_completed {s : State} {k : Nat} (hk : k < s.hwslots.length) (qc : SMap (SMap Nat)) :
    slotAt (completed s k qc) k = { slotAt s k with ridx := (slotAt s k).ridx + 1 } :=
  slotAt_endPkt_startPkt (s := withQclk s qc) hk []

theorem completed_slots (s : State) (k : Nat) (qc : SMap (SMap Nat)) : SlotsOnly s (completed s k qc) :=
  .trans ⟨_, _, rfl, rfl⟩ (.trans (updSlot_slots (withQclk s qc) ..) (.trans (noteQueue_slots (startPkt (withQclk s qc) k) ..)
    (updSlot_slots ..)))

/-- RIDX has risen, and beside the queue map's own fields only reads are made. -/
theorem completed_reads {s t : State} {k : Nat} {qc : SMap (SMap Nat)} (hk : k < s.hwslots.length)
    (hreads : ReadsFrame (completed s k qc) t) :
    ((slotAt t k).ridx = (slotAt s k).ridx + 1 ∧ (slotAt t k).infl = (slotAt s k).infl + 0)
      ∧ t = { s with
          hwslots := t.hwslots, agenda := t.agenda, qclk := t.qclk, tlb := t.tlb, rows := t.rows, out := t.out, nextId := t.nextId }
      ∧ SendsReads s t := by
  rw [slotAt_of_hwslots hreads.keeps.1, slotAt_completed hk]
  obtain ⟨_, _, hframe, -⟩ := completed_slots s k qc
  rw [hframe] at hreads
  obtain ⟨⟨_, _, _, _, _, rfl⟩, hsends⟩ := hreads
  exact ⟨⟨rfl, (BitVec.add_zero _).symm⟩, rfl, hsends⟩

section AtOnce
variable {s : State} {k n : Nat} {b : List Byte} {i : Instr} {qc : SMap (SMap Nat)} (hr : HeadReady s k b n) (hi : packetStep n = i)
  (htry : tryKind n (headSeen s k) k b = .go (packetDone (startPkt (withQclk s qc) k) k []))
include hr hi htry

/-- With other packets waiting or in flight, the queue stays MAPPED-ACTIVE. -/
theorem HeadReady.exec_done (hbusy : (slotAt s k).ridx + 1 ≠ (slotAt s k).widx ∨ (slotAt s k).infl ≠ 0) :
    ∃ t, exec i s = .next t ∧ ReadsFrame (completed s k qc) t := by
  have hslot := slotAt_completed hr.in_banks qc
  rw [completed] at hslot
  refine ⟨_, hr.exec_go hi htry, ?_⟩
  rw [packetDone_busy (by rw [hslot]; exact hbusy.symm)]
  exact .trans _ _ _ (dispatch_grows ..).reads (applyTry_go_reads ..)

/-- With nothing left waiting or in flight, the queue enters MAPPED-IDLE with the IDLE event. -/
theorem HeadReady.exec_idles (hridx : (slotAt s k).ridx + 1 = (slotAt s k).widx) (hinfl : (slotAt s k).infl = 0) :
    ∃ u, exec i s = .next (applyTry s k (.go (dispatch (schedEvent u (slotAt s k).part 2) (slotAt s k).part)))
      ∧ ((slotAt u k).ridx = (slotAt s k).ridx + 1 ∧ (slotAt u k).infl = (slotAt s k).infl + 0) ∧ (slotAt u k).qst = 3
      ∧ u = { s with hwslots := u.hwslots, qclk := u.qclk } := by
  have hslot := slotAt_completed hr.in_banks qc
  obtain ⟨_, _, hframe, hlen⟩ := completed_slots s k qc
  have hidle : slotAt (idleSlot (completed s k qc) k) k = { slotAt s k with ridx := (slotAt s k).ridx + 1, qst := 3 } := by
    rw [idleSlot, slotAt_updSlot_self, hslot]
    rw [hframe, hlen]
    exact hr.in_banks
  refine ⟨idleSlot (completed s k qc) k, ?_, ?_, ?_, ?_⟩
  · rw [completed] at hslot
    rw [hr.exec_go hi htry, packetDone_idle (by rw [hslot]; exact hr.active) (by rw [hslot]; exact hinfl) (by rw [hslot]; exact hridx),
      hslot]
    rfl
  · rw [hidle]
    exact ⟨rfl, (BitVec.add_zero _).symm⟩
  · rw [hidle]
  · rw [hframe]
    rfl

end AtOnce

/-! ## What a FENCE hands on (R329) -/

theorem kickKey_ne_doneKey (p q p' q' : Nat) : kickKey p q ≠ doneKey p' q' := by
  unfold kickKey doneKey
  omega

/-- What the kicks of a queue had observed stays noted when a packet completes. -/
theorem qclkOf_completed {s : State} {qc : SMap (SMap Nat)} (hwf : SMap.wf [] qc = true) (k p q : Nat) :
    qclkOf (completed s k qc) (kickKey p q) = SMap.get [] qc (kickKey p q) :=
  SMap.get_put_ne hwf (kickKey_ne_doneKey _ _ _ _) _

/-- What the queues have observed once a FENCE has handed on what the completed packets had. -/
def fenceQclk (s : State) (k : Nat) : SMap (SMap Nat) :=
  (noteQueue (headSeen s k) (kickKey (slotAt s k).part (slotAt s k).qnum)
    (qclkOf (headSeen s k) (doneKey (slotAt s k).part (slotAt s k).qnum))).qclk

/-- Later packets follow the kicks, the dispatcher's read of the packet and the packets completed before. -/
theorem qclkOf_fence {s : State} (hwf : SMap.wf [] s.qclk = true) (k : Nat) :
    qclkOf (completed s k (fenceQclk s k)) (kickKey (slotAt s k).part (slotAt s k).qnum)
      = vcJoin (qclkOf (headSeen s k) (kickKey (slotAt s k).part (slotAt s k).qnum))
          (qclkOf s (doneKey (slotAt s k).part (slotAt s k).qnum)) := by
  have hseen : SMap.wf [] (headSeen s k).qclk = true := SMap.wf_put hwf _ _
  have hdone : qclkOf (headSeen s k) (doneKey (slotAt s k).part (slotAt s k).qnum)
      = qclkOf s (doneKey (slotAt s k).part (slotAt s k).qnum) := SMap.get_put_ne hwf (kickKey_ne_doneKey _ _ _ _).symm _
  rw [← hdone]
  exact (qclkOf_completed (SMap.wf_put hseen _ _) ..).trans (SMap.get_put_self hseen _ _)

end Sys2Proof.Machine
end

section
/-! LAUNCH and COPY packets (R181, R254, R328, R330): a launch is admitted with its handle written, a job is accepted; and what each leaves
of the machine. -/

namespace Sys2Proof.Machine
open Sys2Proof

/-! ## Records of agents (R456, R457) -/

/-- The slots, groups, launches and scratchpad are as before. -/
def LaunchesKept (s t : State) : Prop :=
  t.hwslots = s.hwslots ∧ t.groups = s.groups ∧ t.launches = s.launches ∧ t.scr = s.scr

theorem putRecord_keepsLaunches (s : State) (buf ctx unit va : Nat) (b : List Byte) (wr : Writer) (rs : List Rel) :
    LaunchesKept s (putRecord s buf ctx unit va b wr rs) := by
  unfold putRecord
  split
  · rename_i hstore
    obtain ⟨_, _, _, _, _, _, _, _, _, _, _, _, _, rfl, -⟩ := agentStore_frame hstore
    exact ⟨rfl, rfl, rfl, rfl⟩
  · obtain ⟨_, _, _, _, _, _, _, h, -⟩ := elog_frame s (partOfCtx s ctx) 4 unit ctx va 0 b
    rw [h]
    exact ⟨rfl, rfl, rfl, rfl⟩

theorem writeHandle_keepsLaunches (s : State) (l : Launch) : LaunchesKept s (writeHandle s l) := by
  unfold writeHandle
  split
  · exact ⟨rfl, rfl, rfl, rfl⟩
  · exact putRecord_keepsLaunches ..

theorem ReadsFrame.keepsLaunches {s t : State} (h : ReadsFrame s t) : LaunchesKept s t := by
  obtain ⟨⟨_, _, _, _, _, rfl⟩, -⟩ := h
  exact ⟨rfl, rfl, rfl, rfl⟩

theorem LaunchesKept.trans {s t u : State} (h : LaunchesKept s t) (k : LaunchesKept t u) : LaunchesKept s u := by
  obtain ⟨hslots, hgroups, hlaunches, hscr⟩ := h
  obtain ⟨kslots, kgroups, klaunches, kscr⟩ := k
  exact ⟨kslots.trans hslots, kgroups.trans hgroups, klaunches.trans hlaunches, kscr.trans hscr⟩

/-! ## LAUNCH (R181, R191) -/

section Launch
variable {s : State} {k : Nat} {b d : List Byte}

/-- The launch that a packet's descriptor names. -/
def packetLaunchOf (s : State) (k : Nat) (b d : List Byte) : Launch := newLaunch s k (fld b 8 8) d (bit (fld b 1 1) 0)

/-- The machine with that launch, not yet admitted. -/
def withLaunch (s : State) (k : Nat) (b : List Byte) (l : Launch) : State :=
  { pktTouch s (slotAt s k) (fld b 8 8) 128 with launches := s.launches ++ [l], nextHandle := s.nextHandle + 1 }

theorem tryLaunch_unread {e : Nat × Nat} (hread : pktRead s (slotAt s k) (fld b 8 8) 128 8 = .error e) : tryLaunch s k b = .bad e := by
  rw [tryLaunch, hread]

theorem tryLaunch_malformed {o : Nat} (hread : pktRead s (slotAt s k) (fld b 8 8) 128 8 = .ok d)
    (hbad : launchBad s (packetLaunchOf s k b d) = some o) : tryLaunch s k b = .bad (3, o) := by
  rw [packetLaunchOf] at hbad
  simp only [tryLaunch, hread, hbad]

/-- A launch of groups that is admitted starts its packet, with its handle written. -/
theorem tryLaunch_admits {s2 : State} (hread : pktRead s (slotAt s k) (fld b 8 8) 128 8 = .ok d)
    (hok : launchBad s (packetLaunchOf s k b d) = none) (hkind : fld d 0 1 < 3)
    (hadmit : admitLaunch (withLaunch s k b (packetLaunchOf s k b d)) (packetLaunchOf s k b d) [] = some s2) :
    ∃ u, tryLaunch s k b = .go u ∧ ∃ v, LaunchesKept s2 v ∧ LaunchesKept (startPkt v k) u := by
  have hkind' : lKind (packetLaunchOf s k b d) ≠ 3 := Nat.ne_of_lt hkind
  rw [withLaunch] at hadmit
  rw [packetLaunchOf] at hok hkind' hadmit
  simp only [tryLaunch, hread, hok, if_neg hkind', hadmit]
  refine ⟨_, rfl, writeHandle s2 (packetLaunchOf s k b d), writeHandle_keepsLaunches .., ?_⟩
  split
  · exact (agendaGrows_enqueueOnce ..).reads.keepsLaunches
  · exact ⟨rfl, rfl, rfl, rfl⟩

end Launch

/-! ## COPY (R254) -/

section Copy
variable {s : State}

theorem kickEngines_grows (s : State) (f : Nat) (gather : Bool) : AgendaGrows s (kickEngines s f gather) := by
  refine foldl_rel AgendaGrows .refl (fun _ _ _ => .trans) _ (fun s e => ?_) _ _
  split
  · exact .refl s
  · exact agendaGrows_enqueueOnce ..

/-- A free entry takes the job. -/
theorem acceptJob_free {n : NewJob} {e : Nat} (hfree : freeEntry s n.ctx n.vf n.gather = some e) :
    ∃ t j, acceptJob s n = some (t, j) ∧ j ∈ t.jobs ∧ t = { s with jobs := t.jobs, jobGen := t.jobGen, agenda := t.agenda }
      ∧ j.st = .queued ∧ j.packet = n.packet ∧ j.descA = n.descA ∧ j.field = n.vf ∧ j.entry = e ∧ j.ctx = n.ctx := by
  unfold acceptJob
  rw [hfree]
  refine ⟨_, _, rfl, ?_, ?_, rfl, rfl, rfl, rfl, rfl, rfl⟩
  · rw [(kickEngines_grows ..).1]
    exact List.mem_append_right _ (.head _)
  · rw [(kickEngines_grows ..).1]

/-- The job that a COPY packet asks for. -/
def copyJob (s : State) (k : Nat) (b : List Byte) : NewJob :=
  ⟨(slotAt s k).ctx, fld b 16 1, false, 0, false, false, BitVec.ofNat 64 (fld b 8 8), ⟨[], 0, 0, 0⟩, ⟨[], 0, 0, 0⟩,
    some (k, (slotAt s k).ridx), pktClk s (slotAt s k) (bit (fld b 1 1) 0)⟩

theorem tryCopy_unread {k : Nat} {b : List Byte} {e : Nat × Nat} (hread : pktRead s (slotAt s k) (fld b 8 8) 64 8 = .error e) :
    tryCopy s k b = .bad e := by
  simp only [tryCopy, hread]

theorem tryCopy_accepts {k : Nat} {b d : List Byte} {t : State} {j : Job} (hread : pktRead s (slotAt s k) (fld b 8 8) 64 8 = .ok d)
    (haccept : acceptJob s (copyJob s k b) = some (t, j)) : tryCopy s k b = .go (startPkt t k) := by
  rw [copyJob] at haccept
  simp only [tryCopy, hread, haccept]

end Copy

end Sys2Proof.Machine
end

section
/-! WAITMEM and SIGNAL packets, and packets in flight (R327 to R330): what a WAITMEM finds in its word, the write of a SIGNAL in a local
page, and how a packet in flight completes or fails. -/

namespace Sys2Proof.Machine
open Sys2Proof

/-! ## Packets in flight (R328) -/

/-- A head packet that starts and stays in flight. -/
def newPkt (s : State) (k : Nat) (b : List Byte) (due : Nat) : Pkt :=
  ⟨k, (slotAt s k).ridx, fld b 0 1, BitVec.ofNat 64 (headAddr s (slotAt s k)), b, due, 0⟩

theorem pktOf_spec {s : State} {k : Nat} {r : W32} {q : Pkt} (h : pktOf s k r = some q) : q.slot = k ∧ q.ridx = r := by
  simpa using List.find?_some h

theorem not_mem_of_pktOf {s : State} {q : Pkt} (h : pktOf s q.slot q.ridx = none) : q ∉ s.pkts := by
  intro hq
  simpa using List.find?_eq_none.1 h q hq

section Added
variable {s : State} {k : Nat} {b : List Byte} {due : Nat}

theorem addPkt_queueOnly : QueueOnly s (addPkt s k b due) := ⟨_, _, _, rfl⟩

theorem slotAt_addPkt (hk : k < s.hwslots.length) : slotAt (addPkt s k b due) k
    = { slotAt s k with ridx := (slotAt s k).ridx + 1, infl := (slotAt s k).infl + 1 } :=
  slotAt_startPkt (s := { s with pkts := s.pkts ++ [newPkt s k b due] }) hk

/-- It is the packet of its slot and index when no other in flight has them. -/
theorem pktOf_addPkt (hfree : pktOf s k (slotAt s k).ridx = none) :
    pktOf (addPkt s k b due) k (slotAt s k).ridx = some (newPkt s k b due) := by
  refine (List.find?_append ..).trans ?_
  rw [show s.pkts.find? _ = none from hfree]
  simp [newPkt]

/-- Once it is complete the others are in flight. -/
theorem erase_newPkt (hfree : pktOf s k (slotAt s k).ridx = none) : (addPkt s k b due).pkts.erase (newPkt s k b due) = s.pkts := by
  change (s.pkts ++ [newPkt s k b due]).erase (newPkt s k b due) = s.pkts
  rw [List.erase_append_right _ (not_mem_of_pktOf (q := newPkt s k b due) hfree), List.erase_cons_head, List.append_nil]

end Added

/-- The machine once a packet in flight is over. -/
def withoutPkt (s : State) (q : Pkt) : State := { s with pkts := s.pkts.erase q }

/-- The machine once a packet in flight has failed (R330). -/
def failedPkt (s : State) (q : Pkt) : State :=
  updSlot (withoutPkt s q) q.slot (fun h => { h with infl := h.infl - 1 })

theorem slotAt_failedPkt {s : State} {q : Pkt} (hk : q.slot < s.hwslots.length) :
    slotAt (failedPkt s q) q.slot = { slotAt s q.slot with infl := (slotAt s q.slot).infl - 1 } :=
  slotAt_updSlot_self (s := withoutPkt s q) hk _

theorem pktFail_eq {s : State} {q : Pkt} (hk : q.slot < s.hwslots.length) (e : Nat × Nat) :
    pktFail s q e = dispatch (queueError (failedPkt s q) (slotAt s q.slot).part (slotAt s q.slot).qnum e.1 q.ridx.toNat q.addr.toNat
      (fld q.data 4 4) e.2 q.data) (slotAt s q.slot).part := by
  have hslot := slotAt_failedPkt hk
  rw [failedPkt, withoutPkt] at hslot
  simp only [pktFail, hslot, failedPkt, withoutPkt]

theorem pktDone_eq (s : State) (q : Pkt) (vc : SMap Nat) : pktDone s q vc = packetDone (withoutPkt s q) q.slot vc := rfl

theorem dramVal_withoutPkt (s : State) (q : Pkt) (pa n : Nat) : dramVal (withoutPkt s q) pa n = dramVal s pa n := rfl

theorem dramByte_withoutPkt (s : State) (q : Pkt) (a : Nat) : dramByte (withoutPkt s q) a = dramByte s a := rfl

/-! ## WAITMEM (R327, R328) -/

theorem waitLook_eq {s : State} {q : Pkt} {w : List Byte} (hread : pktRead s (slotAt s q.slot) (fld q.data 8 8) 8 8 = .ok w) :
    waitLook s q = if waitHolds q.data (leVal w) then
        pktDone (pktTouch s (slotAt s q.slot) (fld q.data 8 8) 8) q (wordSees s (slotAt s q.slot) (fld q.data 8 8))
      else pktTouch s (slotAt s q.slot) (fld q.data 8 8) 8 := by
  simp only [waitLook, hread]

theorem waitLook_unread {s : State} {q : Pkt} {e : Nat × Nat} (hread : pktRead s (slotAt s q.slot) (fld q.data 8 8) 8 8 = .error e) :
    waitLook s q = pktFail s q e := by
  simp only [waitLook, hread]

section Wait
variable {s : State} {k : Nat} {b : List Byte}

theorem tryWait_unread {e : Nat × Nat} (hread : pktRead s (slotAt s k) (fld b 8 8) 8 8 = .error e) : tryWait s k b = .bad e := by
  simp only [tryWait, hread]

/-- The clock at which a WAITMEM's timeout passes, 0 for none. -/
def waitDue (s : State) (b : List Byte) : Nat := if fld b 36 4 = 0 then 0 else s.clock.toNat + 1050 * fld b 36 4

/-- A WAITMEM whose word can be read starts, and looks at its word at once. -/
theorem tryWait_reads {w : List Byte} (hk : k < s.hwslots.length) (hfree : pktOf s k (slotAt s k).ridx = none)
    (hread : pktRead s (slotAt s k) (fld b 8 8) 8 8 = .ok w) :
    tryWait s k b = .go (if waitHolds b (leVal w) then
        pktDone (pktTouch (addPkt s k b (waitDue s b)) (slotAt s k) (fld b 8 8) 8) (newPkt s k b (waitDue s b))
          (wordSees s (slotAt s k) (fld b 8 8))
      else pktTouch (addPkt s k b (waitDue s b)) (slotAt s k) (fld b 8 8) 8) := by
  have hslot := slotAt_addPkt (b := b) (due := waitDue s b) hk
  have hpart : (slotAt (addPkt s k b (waitDue s b)) k).part = (slotAt s k).part := by rw [hslot]
  have hctx : (slotAt (addPkt s k b (waitDue s b)) k).ctx = (slotAt s k).ctx := by rw [hslot]
  have hlook : waitLook (addPkt s k b (waitDue s b)) (newPkt s k b (waitDue s b)) = _ :=
    waitLook_eq ((pktRead_queueOnly addPkt_queueOnly hpart hctx ..).trans hread)
  have hsees : wordSees (addPkt s k b (waitDue s b)) (slotAt (addPkt s k b (waitDue s b)) k) (fld b 8 8)
      = wordSees s (slotAt s k) (fld b 8 8) := pktSees_queueOnly addPkt_queueOnly hpart hctx ..
  have htouch : pktTouch (addPkt s k b (waitDue s b)) (slotAt (addPkt s k b (waitDue s b)) k) (fld b 8 8) 8
      = pktTouch (addPkt s k b (waitDue s b)) (slotAt s k) (fld b 8 8) 8 := by rw [pktTouch, hpart, hctx, pktTouch]
  simp only [tryWait, hread]
  rw [← waitDue, pktOf_addPkt hfree, ← hsees, ← htouch]
  exact congrArg Try.go hlook

end Wait

/-! ## SIGNAL (R327, R328) -/

theorem dramByte_dramWrite {s : State} (hwf : Memory.wf s.mem = true) (ctx pa lat : Nat) (b : List Byte) (wr : Writer) (j : Nat) :
    dramByte (dramWrite s ctx pa lat b wr) j = if pa ≤ j ∧ j < pa + b.length then b.getD (j - pa) 0 else dramByte s j := by
  obtain ⟨_, _, _, _, _, _, h⟩ := dramWrite_frame s ctx pa lat b wr
  have hkey := undefKey_cutUndef s.undef pa b.length j
  have hmem := memGet_memPut hwf pa b j
  rw [h]
  split_ifs at hkey hmem ⊢ with hj
  · exact (dramByte_of_defined hkey).trans hmem
  · cases hu : undefKey s.undef j with
    | none => exact (dramByte_of_defined (hkey.trans hu)).trans (hmem.trans (dramByte_of_defined hu).symm)
    | some k => exact (dramByte_of_undef (hkey.trans hu)).trans (dramByte_of_undef hu).symm

theorem dramBytes_dramWrite_self {s : State} (hwf : Memory.wf s.mem = true) (ctx pa lat : Nat) (b : List Byte) (wr : Writer) :
    dramBytes (dramWrite s ctx pa lat b wr) pa b.length = b := by
  refine List.ext_getElem (by simp [dramBytes]) (fun i _ hi => ?_)
  simp [dramBytes, dramByte_dramWrite hwf, hi]

/-- What a SIGNAL writes over the word it finds. -/
def signalValue (s : State) (b : List Byte) (pa : Nat) : Nat :=
  if fld b 24 1 = 1 then (dramVal s pa 8 + fld b 16 8) % 2 ^ 64 else fld b 16 8

theorem signalValue_lt (s : State) (b : List Byte) (pa : Nat) : signalValue s b pa < 2 ^ 64 := by
  unfold signalValue
  split
  · exact Nat.mod_lt _ (by decide)
  · exact fld_lt b 16 8

/-- The write of a SIGNAL in a local page, through a translation. -/
def signalStored (s : State) (q : Pkt) (e : TlbEnt) (pa lat : Nat) : State :=
  agentWrote (dramWrite (cacheEnts s [e]) (slotAt s q.slot).ctx pa lat (leBytes 8 (signalValue s q.data pa)) ⟨1, 0xFFFF, 0⟩)
    (dramKey pa) 8 (decide (fld q.data 24 1 = 1)) [sysRel (slotAt s q.slot).ctx (pktClk s (slotAt s q.slot) true)]

theorem signalStored_keeps (s : State) (q : Pkt) (e : TlbEnt) (pa lat : Nat) :
    (signalStored s q e pa lat).hwslots = s.hwslots ∧ (signalStored s q e pa lat).pkts = s.pkts := by
  obtain ⟨_, _, _, _, _, _, h⟩ := dramWrite_frame (cacheEnts s [e]) (slotAt s q.slot).ctx pa lat (leBytes 8 (signalValue s q.data pa))
    ⟨1, 0xFFFF, 0⟩
  obtain ⟨hslots, hpkts, -⟩ := (cacheEnts_reads s [e]).keeps
  rw [signalStored, h]
  exact ⟨hslots, hpkts⟩

theorem dramBytes_agentWrote (s : State) (key n : Nat) (rmw : Bool) (rs : List Rel) (a z : Nat) :
    dramBytes (agentWrote s key n rmw rs) a z = dramBytes s a z := rfl

theorem dramByte_agentWrote (s : State) (key n : Nat) (rmw : Bool) (rs : List Rel) (a : Nat) :
    dramByte (agentWrote s key n rmw rs) a = dramByte s a := rfl

/-- The word holds the value, and no other byte changes. -/
theorem signalStored_bytes {s : State} (hwf : Memory.wf s.mem = true) (q : Pkt) (e : TlbEnt) (pa lat : Nat) :
    dramVal (signalStored s q e pa lat) pa 8 = signalValue s q.data pa
      ∧ ∀ j, j < pa ∨ pa + 8 ≤ j → dramByte (signalStored s q e pa lat) j = dramByte s j := by
  obtain ⟨-, -, hmem, -⟩ := (cacheEnts_reads s [e]).keeps
  have hwf' : Memory.wf (cacheEnts s [e]).mem = true := hmem ▸ hwf
  constructor
  · have hbytes := dramBytes_dramWrite_self hwf' (slotAt s q.slot).ctx pa lat (leBytes 8 (signalValue s q.data pa)) ⟨1, 0xFFFF, 0⟩
    rw [length_leBytes] at hbytes
    rw [dramVal, signalStored, dramBytes_agentWrote, hbytes, leVal_leBytes, Nat.mod_eq_of_lt (signalValue_lt ..)]
  · intro j hj
    rw [signalStored, dramByte_agentWrote, dramByte_dramWrite hwf', length_leBytes, if_neg (by omega)]
    exact (cacheEnts_reads s [e]).bytes.2 j

/-- Without interrupt and message the packet is then complete. -/
theorem signalWritten_plain (s : State) {q : Pkt} (hplain : fld q.data 25 1 = 0) : signalWritten s q = pktDone s q [] := by
  simp only [signalWritten, signalSend, hplain]
  rfl

section Signal
variable {s : State} {e : TlbEnt} {pa lat : Nat} {dev : Bool}

theorem signalBad_local {h : HwSlot} {b : List Byte} (hfind : lookup s (partBuf s h.part) h.ctx (fld b 8 8) = .ok e)
    (hkind : pteKind e.leaf.toNat = 0) (hwrite : bit e.leaf.toNat 5 = true) (hloc : locOf s e (fld b 8 8) = .dram pa lat dev)
    (hregion : regionOf s pa = .dram) (hlines : badPartial s pa 8 = []) : signalBad s h b = none := by
  simp [signalBad, hfind, hkind, hwrite, hloc, hregion, hlines]

theorem signalWrite_local {q : Pkt} (hva : fld q.data 8 8 ≠ 0)
    (hfind : lookup s (partBuf s (slotAt s q.slot).part) (slotAt s q.slot).ctx (fld q.data 8 8) = .ok e)
    (hloc : locOf s e (fld q.data 8 8) = .dram pa lat dev) :
    signalWrite s q = signalWritten (signalStored s q e pa lat) q := by
  simp only [signalWrite, if_neg hva, hfind, hloc, signalStored, signalValue]

variable {k : Nat} {b : List Byte}

theorem trySignal_malformed {r : Nat × Nat} (hbad : signalBad s (slotAt s k) b = some r) : trySignal s k b = .bad r := by
  simp only [trySignal, hbad]

/-- The machine once a SIGNAL that starts has written its word and is complete. -/
def signalFound (s : State) (k : Nat) (b : List Byte) (e : TlbEnt) (pa lat : Nat) : State :=
  withoutPkt (signalStored (addPkt s k b 0) (newPkt s k b 0) e pa lat) (newPkt s k b 0)

/-- A SIGNAL of a word of a local page, without interrupt and message, starts and completes at once. -/
theorem trySignal_local (hk : k < s.hwslots.length) (hfree : pktOf s k (slotAt s k).ridx = none) (hplain : fld b 25 1 = 0)
    (hva : fld b 8 8 ≠ 0) (hfind : lookup s (partBuf s (slotAt s k).part) (slotAt s k).ctx (fld b 8 8) = .ok e)
    (hkind : pteKind e.leaf.toNat = 0) (hwrite : bit e.leaf.toNat 5 = true) (hloc : locOf s e (fld b 8 8) = .dram pa lat dev)
    (hregion : regionOf s pa = .dram) (hlines : badPartial s pa 8 = []) :
    trySignal s k b = .go (packetDone (signalFound s k b e pa lat) k []) := by
  have hslot := slotAt_addPkt (b := b) (due := 0) hk
  have hpart : (slotAt (addPkt s k b 0) k).part = (slotAt s k).part := by rw [hslot]
  have hctx : (slotAt (addPkt s k b 0) k).ctx = (slotAt s k).ctx := by rw [hslot]
  have hsame : QueueOnly s (addPkt s k b 0) := addPkt_queueOnly
  have hwrites : signalWrite (addPkt s k b 0) (newPkt s k b 0) = _ := signalWrite_local hva
    (by rw [newPkt, hpart, hctx, partBuf_queueOnly hsame, lookup_queueOnly hsame]; exact hfind)
    (by rw [newPkt, locOf_queueOnly hsame]; exact hloc)
  have hbit : bit (fld b 25 1) 1 = false := by rw [hplain]; rfl
  simp only [trySignal, signalBad_local hfind hkind hwrite hloc hregion hlines, hbit, Bool.false_eq_true, if_false, pktOf_addPkt hfree]
  rw [hwrites, signalWritten_plain _ hplain, pktDone_eq, signalFound, newPkt]

theorem signalFound_keeps (hfree : pktOf s k (slotAt s k).ridx = none) :
    (signalFound s k b e pa lat).hwslots = (startPkt s k).hwslots ∧ (signalFound s k b e pa lat).pkts = s.pkts := by
  obtain ⟨kslots, kpkts⟩ := signalStored_keeps (addPkt s k b 0) (newPkt s k b 0) e pa lat
  rw [signalFound, withoutPkt, kslots, kpkts]
  exact ⟨rfl, erase_newPkt hfree⟩

theorem signalFound_bytes (hwf : Memory.wf s.mem = true) :
    dramVal (signalFound s k b e pa lat) pa 8 = signalValue s b pa
      ∧ ∀ j, j < pa ∨ pa + 8 ≤ j → dramByte (signalFound s k b e pa lat) j = dramByte s j := by
  obtain ⟨kword, kbytes⟩ := signalStored_bytes (s := addPkt s k b 0) hwf (newPkt s k b 0) e pa lat
  rw [signalFound, dramVal_withoutPkt, kword]
  refine ⟨rfl, fun j hj => ?_⟩
  rw [dramByte_withoutPkt, kbytes j hj]
  rfl

end Signal

end Sys2Proof.Machine
end

section
/-! The statement about slots, packets and the dispatcher (R327 to R336): each packet's step by its kind, and packets in flight. -/

namespace Sys2Proof.Machine
open Sys2Proof

/-! ## Packets that start (R328, R330) -/

section Starts
variable {s : State} {k : Nat} {b : List Byte}

theorem pktRead_headSeen (s : State) (k va n off : Nat) :
    pktRead (headSeen s k) (slotAt (headSeen s k) k) va n off = pktRead s (slotAt s k) va n off :=
  pktRead_queueOnly (headSeen_queueOnly s k) rfl rfl ..

/-- The slot of a packet that has started, after what keeps the slots. -/
theorem started_of_hwslots {t v : State} (hk : k < s.hwslots.length) (hslots : v.hwslots = s.hwslots)
    (hstart : t.hwslots = (startPkt v k).hwslots) :
    (slotAt t k).ridx = (slotAt s k).ridx + 1 ∧ (slotAt t k).infl = (slotAt s k).infl + 1 := by
  rw [slotAt_of_hwslots hstart, slotAt_startPkt (hslots ▸ hk), slotAt_of_hwslots hslots]
  exact ⟨rfl, rfl⟩

/-- A launch of groups that is admitted. -/
theorem HeadReady.exec_launch {d : List Byte} {s2 : State} (hr : HeadReady s k b 1)
    (hread : pktRead s (slotAt s k) (fld b 8 8) 128 8 = .ok d)
    (hok : launchBad (headSeen s k) (packetLaunchOf (headSeen s k) k b d) = none) (hkind : fld d 0 1 < 3)
    (hadmit : admitLaunch (withLaunch (headSeen s k) k b (packetLaunchOf (headSeen s k) k b d)) (packetLaunchOf (headSeen s k) k b d) []
      = some s2)
    (hslots : s2.hwslots = s.hwslots) :
    ∃ u, exec .packetLaunch s = .next (dispatch u (slotAt s k).part)
      ∧ ((slotAt u k).ridx = (slotAt s k).ridx + 1 ∧ (slotAt u k).infl = (slotAt s k).infl + 1)
      ∧ u.groups = s2.groups ∧ u.launches = s2.launches ∧ u.scr = s2.scr := by
  obtain ⟨u, htry, v, hv, hu⟩ := tryLaunch_admits ((pktRead_headSeen ..).trans hread) hok hkind hadmit
  obtain ⟨kslots, kgroups, klaunches, kscr⟩ := hu.trans (headRead_reads s k u).keepsLaunches
  obtain ⟨vslots, vgroups, vlaunches, vscr⟩ := hv
  exact ⟨headRead s k u, hr.exec_go rfl htry, started_of_hwslots hr.in_banks (vslots.trans hslots) kslots, kgroups.trans vgroups,
    klaunches.trans vlaunches, kscr.trans vscr⟩

/-- A COPY whose descriptor can be read, with an entry free for its job (R254). -/
theorem HeadReady.exec_copy {d : List Byte} {e : Nat} (hr : HeadReady s k b 2)
    (hread : pktRead s (slotAt s k) (fld b 8 8) 64 8 = .ok d) (hfree : freeEntry s (slotAt s k).ctx (fld b 16 1) false = some e) :
    ∃ u j, exec .packetCopy s = .next (dispatch u (slotAt s k).part)
      ∧ ((slotAt u k).ridx = (slotAt s k).ridx + 1 ∧ (slotAt u k).infl = (slotAt s k).infl + 1) ∧ j ∈ u.jobs ∧ j.st = .queued
      ∧ j.packet = some (k, (slotAt s k).ridx) ∧ j.descA.toNat = fld b 8 8 ∧ j.field = fld b 16 1 ∧ j.entry = e
      ∧ j.ctx = (slotAt s k).ctx ∧ u.mem = s.mem := by
  obtain ⟨t, j, haccept, hmem, hframe, hst, hpacket, hdesc, hfield, hentry, hctx⟩ :=
    acceptJob_free (s := headSeen s k) (n := copyJob (headSeen s k) k b) hfree
  have htry := tryCopy_accepts ((pktRead_headSeen ..).trans hread) haccept
  obtain ⟨⟨_, _, _, _, _, hreads⟩, -⟩ := headRead_reads s k (startPkt t k)
  refine ⟨headRead s k (startPkt t k), j, hr.exec_go rfl htry, ?_, ?_, hst, hpacket, ?_, hfield, hentry, hctx, ?_⟩
  · exact started_of_hwslots hr.in_banks (v := t) (by rw [hframe]; rfl) (by rw [hreads])
  · rw [hreads]
    exact hmem
  · rw [hdesc]
    exact Nat.mod_eq_of_lt (fld_lt b 8 8)
  · rw [hreads]
    change t.mem = s.mem
    rw [hframe]
    rfl

/-- A WAITMEM whose condition does not hold yet stays in flight. -/
theorem HeadReady.exec_waits {w : List Byte} (hr : HeadReady s k b 3) (hfree : pktOf s k (slotAt s k).ridx = none)
    (hread : pktRead s (slotAt s k) (fld b 8 8) 8 8 = .ok w) (hholds : waitHolds b (leVal w) = false) :
    ∃ t, exec .packetWaitmem s = .next t
      ∧ ((slotAt t k).ridx = (slotAt s k).ridx + 1 ∧ (slotAt t k).infl = (slotAt s k).infl + 1)
      ∧ t.pkts = s.pkts ++ [⟨k, (slotAt s k).ridx, 3, BitVec.ofNat 64 (headAddr s (slotAt s k)), b, waitDue s b, 0⟩] := by
  have htry := tryWait_reads (s := headSeen s k) hr.in_banks hfree ((pktRead_headSeen ..).trans hread)
  rw [hholds] at htry
  obtain ⟨kslots, kpkts, -⟩ := (ReadsFrame.trans _ _ _ (pktTouch_reads (addPkt (headSeen s k) k b (waitDue s b)) (slotAt s k) (fld b 8 8) 8)
    (applyTry_go_reads s k _)).keeps
  refine ⟨_, hr.exec_go rfl htry, started_of_hwslots hr.in_banks (v := headSeen s k) rfl kslots, kpkts.trans ?_⟩
  rw [← hr.kind]
  rfl

/-- A WAITMEM whose condition holds starts and completes at once. -/
theorem HeadReady.exec_wait_holds {w : List Byte} (hr : HeadReady s k b 3) (hfree : pktOf s k (slotAt s k).ridx = none)
    (hread : pktRead s (slotAt s k) (fld b 8 8) 8 8 = .ok w) (hholds : waitHolds b (leVal w) = true) :
    ∃ u, exec .packetWaitmem s = .next (applyTry s k (.go (packetDone u k (wordSees s (slotAt s k) (fld b 8 8)))))
      ∧ ((slotAt u k).ridx = (slotAt s k).ridx + 1 ∧ (slotAt u k).infl = (slotAt s k).infl + 1) ∧ u.pkts = s.pkts ∧ u.mem = s.mem := by
  have htry := tryWait_reads (s := headSeen s k) hr.in_banks hfree ((pktRead_headSeen ..).trans hread)
  have hsees : wordSees (headSeen s k) (slotAt (headSeen s k) k) (fld b 8 8) = wordSees s (slotAt s k) (fld b 8 8) :=
    pktSees_queueOnly (headSeen_queueOnly s k) rfl rfl ..
  rw [hholds, if_pos rfl, hsees, pktDone_eq] at htry
  obtain ⟨kslots, kpkts, kmem, -⟩ := (pktTouch_reads (addPkt (headSeen s k) k b (waitDue s b)) (slotAt s k) (fld b 8 8) 8).keeps
  refine ⟨_, hr.exec_go rfl htry, started_of_hwslots hr.in_banks (v := headSeen s k) rfl kslots, ?_, kmem⟩
  exact (congrArg (List.erase · _) kpkts).trans (erase_newPkt (s := headSeen s k) hfree)

/-- A SIGNAL of a word of a local page, without interrupt and message, writes it and completes at once. -/
theorem HeadReady.exec_signal {e : TlbEnt} {pa lat : Nat} {dev : Bool} (hwf : Memory.wf s.mem = true) (hr : HeadReady s k b 4)
    (hfree : pktOf s k (slotAt s k).ridx = none) (hplain : fld b 25 1 = 0) (hva : fld b 8 8 ≠ 0)
    (hfind : lookup s (partBuf s (slotAt s k).part) (slotAt s k).ctx (fld b 8 8) = .ok e)
    (hkind : pteKind e.leaf.toNat = 0) (hwrite : bit e.leaf.toNat 5 = true) (hloc : locOf s e (fld b 8 8) = .dram pa lat dev)
    (hregion : regionOf s pa = .dram) (hlines : badPartial s pa 8 = []) :
    ∃ u, exec .packetSignal s = .next (applyTry s k (.go (packetDone u k [])))
      ∧ ((slotAt u k).ridx = (slotAt s k).ridx + 1 ∧ (slotAt u k).infl = (slotAt s k).infl + 1) ∧ u.pkts = s.pkts
      ∧ dramVal u pa 8 = signalValue s b pa ∧ ∀ q, q < pa ∨ pa + 8 ≤ q → dramByte u q = dramByte s q := by
  have hsame := headSeen_queueOnly s k
  have htry := trySignal_local (s := headSeen s k) hr.in_banks hfree hplain hva ((lookup_queueOnly hsame ..).trans hfind) hkind hwrite
    ((locOf_queueOnly hsame ..).trans hloc) hregion hlines
  obtain ⟨kslots, kpkts⟩ := signalFound_keeps (s := headSeen s k) (b := b) (e := e) (pa := pa) (lat := lat) hfree
  obtain ⟨kword, kbytes⟩ := signalFound_bytes (s := headSeen s k) (k := k) (b := b) (e := e) (pa := pa) (lat := lat) hwf
  exact ⟨_, hr.exec_go rfl htry, started_of_hwslots hr.in_banks (v := headSeen s k) rfl kslots, kpkts, kword, kbytes⟩

end Starts

/-! ## Packets in flight (R328, R330) -/

section InFlight
variable {s : State} {q : Pkt} (hq : pktOf s s.arg.slot s.arg.ridx = some q)
include hq

/-- A packet in flight that fails leaves its slot with INFL one less, and its queue enters ERROR. -/
theorem exec_of_pktFail {i : Instr} {r d : Nat} (hk : s.arg.slot < s.hwslots.length) (hexec : exec i s = .next (pktFail s q (r, d))) :
    ∃ u, exec i s = .next (dispatch (queueError u (slotAt s s.arg.slot).part (slotAt s s.arg.slot).qnum r s.arg.ridx.toNat q.addr.toNat
        (fld q.data 4 4) d q.data) (slotAt s s.arg.slot).part)
      ∧ slotAt u s.arg.slot = { slotAt s s.arg.slot with infl := (slotAt s s.arg.slot).infl - 1 }
      ∧ u = { withoutPkt s q with hwslots := u.hwslots } := by
  obtain ⟨hslot, hridx⟩ := pktOf_spec hq
  rw [← hslot] at hk ⊢
  rw [← hridx]
  exact ⟨failedPkt s q, hexec.trans (congrArg Host.Outcome.next (pktFail_eq hk (r, d))), slotAt_failedPkt hk, rfl⟩

theorem exec_waitmemRecheck (hkind : q.kind = 3) : exec .waitmemRecheck s = .next (waitLook s q) := by
  refine congrArg Host.Outcome.next ?_
  rw [hq]
  exact if_pos hkind

theorem exec_waitmemTimeout (hkind : q.kind = 3) (hdue : q.due ≠ 0) (hpast : q.due ≤ s.clock.toNat) :
    exec .waitmemTimeout s = .next (pktFail s q (6, 0)) := by
  refine congrArg Host.Outcome.next ?_
  rw [hq]
  exact if_pos (by simp [hkind, hdue, hpast])

theorem exec_signalDone_ok (hkind : q.kind = 4) (hstage : q.stage = 0) (hok : s.arg.ok = true) :
    exec .signalDone s = .next (signalWritten s q) := by
  refine congrArg Host.Outcome.next ?_
  rw [hq]
  simp only [hkind, hstage, hok]
  rfl

theorem exec_signalDone_failed (hkind : q.kind = 4) (hstage : q.stage = 0) (hfail : s.arg.ok = false) (hadd : fld q.data 24 1 = 1) :
    exec .signalDone s = .next (pktFail s q (4, 8)) := by
  refine congrArg Host.Outcome.next ?_
  rw [hq]
  simp only [hkind, hstage, hfail, hadd]
  rfl

end InFlight

end Sys2Proof.Machine
end

section
/-! The statement about slots, packets and the dispatcher (R327 to R336) is settled. -/

namespace Sys2Proof.Machine
open Sys2Proof

/-- The scheduler's tick is event 1 of its partition (R336). -/
theorem exec_schedTick {s : State} (hwf : SMap.wf 0 s.regs = true) (hpart : s.arg.part < 8) :
    ∃ u, exec .schedTick s = .next (barReg u s.arg.part 0x88 (partOf s s.arg.part).sbarWin)
      ∧ regVal u (regPart s.arg.part 0x80) = regVal s (regPart s.arg.part 0x80) ||| 2 ∧ u = { s with regs := u.regs } :=
  ⟨_, congrArg Host.Outcome.next (if_pos hpart), regVal_regPut_self hwf .., rfl⟩

/-- Settles O47: a step of the dispatcher for the head that it picks is the try of that packet by its kind, taken in turn; packets in flight
are looked at again, time out, or end with their write. -/
theorem queueEvents : Obligations.QueueEvents := by
  unfold Obligations.QueueEvents
  intro s hregs hmem hbanks
  refine ⟨exec_schedTick hregs, ?deadline, ?budget, ?head, ?flight⟩
  case deadline =>
    intro hk hmap hperiod hdue
    obtain ⟨hagenda, -⟩ := releaseSlot_grows s s.arg.slot
    refine ⟨_, exec_slotDeadline hk hmap hperiod hdue, ?_, ?_, fun j hj => ?_⟩
    · rw [hagenda]
      exact slotAt_releasedSlots_self (hbanks.symm ▸ hk)
    · rw [hagenda]
    · rw [hagenda]
      exact slotAt_updSlot_other hj _
  case budget =>
    intro hk hmap hperiod hbudget hused
    exact ⟨_, exec_slotBudgetExhausted hk hmap hperiod hbudget hused, slotAt_updSlot_self (hbanks.symm ▸ hk) _, rfl⟩
  case head =>
    intro b rest hk hstart hbytes hpacket
    have hp : HeadPicked s s.arg.slot b := ⟨rfl, hk, hbanks, ⟨rest, hstart⟩, hbytes, hpacket⟩
    refine ⟨fun e he => hp.exec_malformed he, fun hwell hquiet => ?_⟩
    have hready {n : Nat} (hn : fld b 0 1 = n) : HeadReady s s.arg.slot b n := ⟨hp, hn, hwell, hquiet⟩
    have hread_error {n off : Nat} {e : Nat × Nat} (he : pktRead s (slotAt s s.arg.slot) (fld b 8 8) n off = .error e) :=
      (pktRead_headSeen ..).trans he
    refine ⟨?nop, ?fence, ?launchUnread, ?launch, ?copyUnread, ?copy, ?waitUnread, ?wait, ?signalMalformed, ?signal⟩
    case nop =>
      intro hn
      refine ⟨fun hbusy => ?_, (hready hn).exec_idles (qc := (headSeen s s.arg.slot).qclk) rfl rfl⟩
      obtain ⟨t, hexec, hreads⟩ := (hready hn).exec_done (qc := (headSeen s s.arg.slot).qclk) rfl rfl hbusy
      exact ⟨t, hexec, completed_reads hp.in_banks hreads⟩
    case fence =>
      intro hn
      refine ⟨fun hbusy => ?_, (hready hn).exec_idles (qc := fenceQclk s s.arg.slot) rfl rfl, fun hclk hbusy => ?_⟩
      all_goals obtain ⟨t, hexec, hreads⟩ := (hready hn).exec_done (qc := fenceQclk s s.arg.slot) rfl rfl hbusy
      · exact ⟨t, hexec, completed_reads hp.in_banks hreads⟩
      · obtain ⟨-, -, -, hqclk⟩ := hreads.keeps
        refine ⟨t, hexec, ?_⟩
        rw [qclkOf, hqclk]
        exact qclkOf_fence hclk _
    case launchUnread => exact fun e hn he => (hready hn).exec_bad rfl (tryLaunch_unread (hread_error he))
    case launch =>
      intro d hn hread
      exact ⟨fun e he => (hready hn).exec_bad (e := (3, e)) rfl (tryLaunch_malformed ((pktRead_headSeen ..).trans hread) he),
        fun s2 hok hkind hadmit hslots => (hready hn).exec_launch hread hok hkind hadmit hslots⟩
    case copyUnread => exact fun e hn he => (hready hn).exec_bad rfl (tryCopy_unread (hread_error he))
    case copy => exact fun d e hn hread hfree => (hready hn).exec_copy hread hfree
    case waitUnread => exact fun e hn he => (hready hn).exec_bad rfl (tryWait_unread (hread_error he))
    case wait =>
      exact fun w hn hfree hread => ⟨(hready hn).exec_waits hfree hread, (hready hn).exec_wait_holds hfree hread⟩
    case signalMalformed =>
      exact fun e hn he => (hready hn).exec_bad rfl (trySignal_malformed ((signalBad_queueOnly (headSeen_queueOnly ..) ..).trans he))
    case signal =>
      exact fun t pa lat dev hn hplain hva hfree hfind hkind hwrite hloc hregion hlines =>
        (hready hn).exec_signal hmem hfree hplain hva hfind hkind hwrite hloc hregion hlines
  case flight =>
    intro q hk hq
    obtain ⟨hslot, -⟩ := pktOf_spec hq
    have hbank : s.arg.slot < s.hwslots.length := hbanks.symm ▸ hk
    refine ⟨fun w hkind hread => ?_, fun e hkind hread => ?_, fun hkind hdue hpast => ?_, fun hkind hstage hok hplain => ?_,
      fun hkind hstage hfail hadd => ?_⟩
    · rw [exec_waitmemRecheck hq hkind, waitLook_eq (hslot ▸ hread), pktDone_eq, hslot]
      rfl
    · have hfails := waitLook_unread (hslot ▸ hread)
      exact exec_of_pktFail hq hbank ((exec_waitmemRecheck hq hkind).trans (congrArg Host.Outcome.next hfails))
    · exact exec_of_pktFail hq hbank (exec_waitmemTimeout hq hkind hdue hpast)
    · rw [exec_signalDone_ok hq hkind hstage hok, signalWritten_plain s hplain, pktDone_eq, hslot]
      rfl
    · exact exec_of_pktFail hq hbank (exec_signalDone_failed hq hkind hstage hfail hadd)

end Sys2Proof.Machine
end
